-- ==== Sys2Proof/Word.lean ====
section
/-!
DEFINITION. Word.lean: the word types of the model.

Bit vectors stand only for what the data book treats as bits: bytes on a link or in a file, CRC-32 registers (R200)
and the 64 received marks of a window (R13). Numbers with a range (days, sequence numbers, counts, entry and slot
numbers) are natural numbers; the rules' own bounds and wraps are written out where they apply.
-/

namespace Sys2Proof

/-- One byte of a frame, of CHUNK data or of a carried record. -/
abbrev Byte := BitVec 8

/-- A CRC-32 value or register (R200). -/
abbrev Crc := BitVec 32

/-- The 64 received marks of a window: bit `i` is the mark of the number `base + i` (R13). -/
abbrev Marks := BitVec 64

/-- A table indexed by number: the listed indexes in strictly rising order, each with its entry.
An index that is not listed holds the table's empty entry. -/
abbrev Tbl (α : Type) := List (Nat × α)

/-- Top of a 16-bit number's range. -/
def max16 : Nat := 65535

/-- Top of a 32-bit number's range, where the saturating counts stop. -/
def max32 : Nat := 4294967295

end Sys2Proof
end

