-- ==== Sys2Proof/Types.lean ====
section
/-!
DEFINITION. Types.lean: the durable data of the archive, in the book's own terms.

These types are used both by the commands (a catalog read or a segment read carries what a module delivered) and by
the machine's state. Each names the rule that gives its fields.
-/

namespace Sys2Proof

/-- The two ports of the part (spec/00, R192). -/
inductive Port
  | a
  | b
  deriving DecidableEq, Repr

/-- The archive's profile (R4). -/
inductive Profile
  | none
  | p1
  | p2
  | p3
  | p4
  deriving DecidableEq, Repr

/-- The six kinds of call record (R2). -/
inductive RecordKind
  | voiceOut
  | voiceIn
  | textOut
  | textIn
  | data
  | forward
  deriving DecidableEq, Repr

/-- The field values of an accepted call record (R1). The optional fields are present exactly as the profile names. -/
structure Record where
  kind       : RecordKind
  subscriber : List Nat
  start      : Nat
  duration   : Nat
  charge     : Nat
  other      : Option (List Nat)
  trunk      : Option Nat
  cell       : Option Nat
  volume     : Option Nat
  deriving DecidableEq, Repr

/-- A value of one of the three fields that codes stand for (R73). -/
inductive CodeValue
  | cell (n : Nat)
  | trunk (n : Nat)
  | pfx (digits : List Nat)
  deriving DecidableEq, Repr

/-- A cell or trunk group as a payload holds it: a code, 0 to 15 shared and 16 upward dynamic, or the value (R63, R64). -/
inductive CodedNum
  | code (n : Nat)
  | literal (v : Nat)
  deriving DecidableEq, Repr

/-- An other party as a payload holds it: the code of its prefix with the remaining digits, or all its digits
(R63, R64). -/
inductive CodedParty
  | code (n : Nat) (rest : List Nat)
  | literal (digits : List Nat)
  deriving DecidableEq, Repr

/-- A record as a payload holds it, its three coded fields each a code or a literal (R63, R64). The start second stands
here for the difference from the record before it (log 5). -/
structure CodedRecord where
  kind       : RecordKind
  subscriber : List Nat
  start      : Nat
  duration   : Nat
  charge     : Nat
  other      : Option CodedParty
  trunk      : Option CodedNum
  cell       : Option CodedNum
  volume     : Option Nat
  deriving DecidableEq, Repr

/-- A segment's payload as a read delivers it, without test: the CRC-32 over its bytes, its dynamic code list and its
records in order (R63, R96; log 5). -/
structure Payload where
  crc     : Crc
  dyn     : List CodeValue
  records : List CodedRecord
  deriving DecidableEq, Repr, Inhabited

/-- The state of a source (R14). -/
inductive SourceState
  | empty
  | active
  | retired
  deriving DecidableEq, Repr

/-- A gap record: a run of sequence numbers from `first` to `last`, inclusive and modular (R15). -/
structure GapRecord where
  first : Nat
  last  : Nat
  day   : Nat
  deriving DecidableEq, Repr

/-- An entry of the Source Table; the field defaults are the empty values (R13). -/
structure SourceEntry where
  state    : SourceState      := .empty
  cls      : Nat              := 0
  base     : Nat              := 0
  marks    : Marks            := 0
  gaps     : List GapRecord   := []
  overflow : Bool             := false
  accepted : Nat              := 0
  lastDay  : Option Nat       := none
  deriving DecidableEq, Repr

/-- The state of a Day Tally entry (R52). -/
inductive TallyState
  | opened
  | closed
  deriving DecidableEq, Repr

/-- An entry of the Day Tally, less its key (R52). -/
structure TallyEntry where
  state           : TallyState := .opened
  inFlight        : Nat := 0
  filesAccepted   : Nat := 0
  filesRefused    : Nat := 0
  declared        : Nat := 0
  recordsAccepted : Nat := 0
  recordsRejected : Nat := 0
  deriving DecidableEq, Repr

/-- The state of a Segment Directory entry (R83). -/
inductive EntryState
  | free
  | filling
  | writing
  | stored
  | expired
  | erasing
  deriving DecidableEq, Repr

/-- The verify status of an entry (R81). -/
inductive VerifyStatus
  | unverified
  | good
  | bad
  deriving DecidableEq, Repr

/-- A slot of one channel (R88). -/
structure SlotRef where
  channel : Nat
  slot    : Nat
  deriving DecidableEq, Repr

/-- A Segment Directory entry; the field defaults are those of a FREE entry, whose other fields are absent
(R81, R82). The hold mask is the list of the holds whose marks are set, in ascending order. -/
structure DirEntry where
  state        : EntryState            := .free
  source       : Nat                   := 0
  day          : Nat                   := 0
  span         : Option (Nat × Nat)    := none
  recordCount  : Nat                   := 0
  payloadBytes : Nat                   := 0
  used         : List Nat              := []
  cls          : Option Nat            := none
  expiryDay    : Option Nat            := none
  holds        : List Nat              := []
  readers      : Nat                   := 0
  verify       : VerifyStatus          := .unverified
  verifyDay    : Option Nat            := none
  slot         : Option SlotRef        := none
  crc          : Option Crc            := none
  expiryCkpt   : Option Nat            := none
  deriving DecidableEq, Repr

/-- The state of a shared code (R73). -/
inductive CodeState
  | empty
  | defined
  | retired
  deriving DecidableEq, Repr

/-- An entry of the Shared Code Table (R73). -/
structure SharedCode where
  state : CodeState        := .empty
  value : Option CodeValue := none
  count : Nat              := 0
  deriving DecidableEq, Repr

/-- A retention class; the field defaults are those after Format (R105). -/
structure ClassEntry where
  days    : Nat  := 400
  least   : Nat  := 400
  pending : Bool := false
  deriving DecidableEq, Repr

/-- The state of a hold (R124). -/
inductive HoldState
  | empty
  | draft
  | applying
  | active
  | releasing
  deriving DecidableEq, Repr

/-- The keys a hold covers (R123, R125). -/
structure HoldScope where
  firstSource : Nat := 0
  lastSource  : Nat := 0
  firstDay    : Nat := 0
  lastDay     : Nat := 0
  deriving DecidableEq, Repr

/-- The first entry an APPLY run counted lost, with the key it held then (R123). -/
structure LostEntry where
  entry  : Nat
  source : Nat
  day    : Nat
  deriving DecidableEq, Repr

/-- A hold of the Hold Table; the field defaults are those of an EMPTY hold, whose other fields are absent (R123). -/
structure Hold where
  state     : HoldState        := .empty
  owner     : Port             := .a
  scope     : HoldScope        := {}
  note      : Nat              := 0
  marked    : Nat              := 0
  reclaimed : Nat              := 0
  lost      : Nat              := 0
  firstLost : Option LostEntry := none
  deriving DecidableEq, Repr

/-- The seven kinds of finding (R139). -/
inductive FindingKind
  | gapFinal
  | resequenced
  | partialFile
  | segmentLost
  | segmentBad
  | tallyMismatch
  | holdLoss
  deriving DecidableEq, Repr

/-- The reason of a GAP-FINAL finding (R24). -/
inductive GapReason
  | aged
  | overflow
  | retired
  deriving DecidableEq, Repr

/-- A finding before it is given its number and recorded day: the kind and the fields the kind carries (R139). -/
structure FindingBody where
  kind    : FindingKind
  source  : Option Nat         := none
  dataDay : Option Nat         := none
  segment : Option Nat         := none
  range   : Option (Nat × Nat) := none
  pair    : Option (Nat × Nat) := none
  reason  : Option GapReason   := none
  deriving DecidableEq, Repr

/-- A finding of the Findings Log (R139). -/
structure Finding where
  number   : Nat
  recorded : Nat
  body     : FindingBody
  deriving DecidableEq, Repr

/-- The four parameters, with their defaults (R175). -/
structure Params where
  lookback  : Nat := 7
  idleLimit : Nat := 30
  tolerance : Nat := 16
  retry     : Nat := 3
  deriving DecidableEq, Repr

/-- The set mode of a channel (R92). -/
inductive ChanMode
  | online
  | draining
  | offline
  deriving DecidableEq, Repr

/-- A catalog image: the durable state at one snapshot, and the CRC-32 over all the rest (R167). -/
structure Image where
  number      : Nat
  today       : Nat
  lastSwept   : Nat
  params      : Params
  profile     : Profile
  channel     : Nat
  modes       : Tbl ChanMode
  classes     : Tbl ClassEntry
  sources     : Tbl SourceEntry
  tally       : Tbl TallyEntry
  dir         : Tbl DirEntry
  codes       : Tbl SharedCode
  holds       : Tbl Hold
  findings    : List Finding
  nextFinding : Nat
  defective   : List SlotRef
  crc         : Crc
  deriving DecidableEq, Repr

/-- One share of a catalog image as it lies in a catalog slot: the marks each share carries, and the image its piece
belongs to (R167, log 8). -/
structure Share where
  number  : Nat
  index   : Nat
  channel : Nat
  area    : Nat
  image   : Image
  deriving DecidableEq, Repr

/-- What a CATALOG-READ that completes OK returned: the erased contents, a share, or anything else (R167, R177). -/
inductive CatalogData
  | blank
  | other
  | share (s : Share)
  deriving DecidableEq, Repr, Inhabited

/-- The completion of a CATALOG-READ: FAIL, OK with the slot as the part left it, or OK with other data (log 8). -/
inductive CatalogResult
  | fail
  | asLeft
  | delivered (d : CatalogData)
  deriving DecidableEq, Repr

/-- The completion of a segment READ: FAIL, OK with the slot as the part left it, or OK with another payload
(R96: a READ OK delivers the payload as it lies on the flash, without testing it; log 8). -/
inductive ReadResult
  | fail
  | asLeft
  | delivered (p : Payload)
  deriving DecidableEq, Repr

/-- Why an incoming frame is a bad frame (R193). -/
inductive FrameFault
  | sync
  | length
  | check
  | frameClass
  | frameKind
  deriving DecidableEq, Repr

/-- Which suspended producers take the places that an ACK-FINDINGS frees before the intake passes of R26 do
(R143: the first taken has the place; log 9). -/
inductive AckOrder
  | intakeFirst
  | sweepFirst
  | jobFirst
  | sweepThenJob
  | jobThenSweep
  deriving DecidableEq, Repr

/-- The field and value a DEFINE-CODE carries: one of the three fields with its value, or a field code that is none of theirs
with the bytes that follow it (R75, R204). -/
inductive CodeOperand
  | known (v : CodeValue)
  | unknown (code : Nat) (raw : List Byte)
  deriving DecidableEq, Repr

/-- The target a SEEK carries: START, END, an entry and a record index, or a target code that is none of theirs with the bytes
that follow it (R162). -/
inductive SeekOperand
  | start
  | stop
  | place (entry index : Nat)
  | unknown (code : Nat) (raw : List Byte)
  deriving DecidableEq, Repr

/-- The filter an OPEN-CURSOR carries: a digit string and a set of kinds, one bit for each kind from 1 up (R158, R204). -/
structure FilterOperand where
  digits : List Nat
  kinds  : BitVec 8
  deriving DecidableEq, Repr

end Sys2Proof
end

