-- ==== Sys2Proof/Syntax.lean ====
section
/-!
DEFINITION. Syntax.lean: the commands of the part, one constructor for each row of spec/opcode_table.json.

A request carries the port it arrived on, its tag, and the fields its rule names, as numbers as wide as their bytes
(R204), so that every value a frame can carry, good or bad, is a command. An event of a channel carries the channel and
what the module delivered. The docstring of each names the row's rule.
-/

namespace Sys2Proof

inductive Instr
  /-- POWER_UP (R177): power-good rises; which of the eight module positions answer (R92). -/
  | powerUp (present : List Bool)
  /-- POWER_LOSS (R179). -/
  | powerLoss
  /-- CATALOG_READ_COMPLETE (R177): the CATALOG-READ in progress on a channel completes. -/
  | catalogReadComplete (channel : Nat) (result : CatalogResult)
  /-- LINK_UP (R192). -/
  | linkUp (port : Port)
  /-- LANE_LOSS (R192). -/
  | laneLoss (port : Port)
  /-- LINK_RESET_FRAME (R192). -/
  | linkResetFrame (port : Port)
  /-- BAD_FRAME (R193). -/
  | badFrame (port : Port) (reason : FrameFault)
  /-- REQUEST_UNKNOWN_KIND (R194): a request frame that fails check 3 of R194. -/
  | requestUnknownKind (port : Port) (tag kind : Nat)
  /-- REPLY_SENT (R195). -/
  | replySent (port : Port)
  /-- NOTICE_SENT (R197). -/
  | noticeSent (port : Port)
  /-- STATUS (R199). -/
  | status (port : Port) (tag : Nat)
  /-- SET_NOTICE_MASK (R198): nine masks in code order, 1 enabled, 2 masked. -/
  | setNoticeMask (port : Port) (tag : Nat) (masks : List Nat)
  /-- SET_PROFILE (R10). -/
  | setProfile (port : Port) (tag profile : Nat)
  /-- ENROL_SOURCE (R28). -/
  | enrolSource (port : Port) (tag source cls base : Nat)
  /-- RETIRE_SOURCE (R29). -/
  | retireSource (port : Port) (tag source : Nat)
  /-- SET_SOURCE_CLASS (R31). -/
  | setSourceClass (port : Port) (tag source cls : Nat)
  /-- RESEQUENCE_SOURCE (R32). -/
  | resequenceSource (port : Port) (tag source base : Nat)
  /-- READ_SOURCE (R33). -/
  | readSource (port : Port) (tag source : Nat)
  /-- OPEN_FILE (R37). -/
  | openFile (port : Port) (tag source sequence day records length : Nat)
  /-- CHUNK (R40). -/
  | chunk (port : Port) (tag slot offset : Nat) (data : List Byte)
  /-- CLOSE_FILE (R43). -/
  | closeFile (port : Port) (tag slot : Nat) (crc : Crc)
  /-- FILE_ACCEPTANCE (R46): the earliest closing file that no longer waits is judged. -/
  | fileAcceptance
  /-- ABORT_FILE (R49). -/
  | abortFile (port : Port) (tag slot : Nat)
  /-- INTAKE_IDLE_LIMIT (R50). -/
  | intakeIdleLimit (slot : Nat)
  /-- READ_SLOTS (R36). -/
  | readSlots (port : Port) (tag : Nat)
  /-- READ_TALLY (R56). -/
  | readTally (port : Port) (tag source day : Nat)
  /-- APPEND_RECORD (R59): whether the file page read for the record passes its check (R78). -/
  | appendRecord (pageOk : Bool)
  /-- SEGMENT_WRITE_OK (R68). -/
  | segmentWriteOk (channel : Nat)
  /-- SEGMENT_WRITE_FAIL (R69). -/
  | segmentWriteFail (channel : Nat)
  /-- BUILDER_PAGE_ERROR (R78). -/
  | builderPageError (channel : Nat)
  /-- CHANNEL_TIMEOUT (R97). -/
  | channelTimeout (channel : Nat)
  /-- OPERATION_END_DISCARDED (R99): whether the module carried the operation out. -/
  | operationEndDiscarded (channel : Nat) (ok : Bool)
  /-- READ_COMPACTION (R79). -/
  | readCompaction (port : Port) (tag : Nat)
  /-- DEFINE_CODE (R75). -/
  | defineCode (port : Port) (tag code : Nat) (value : CodeOperand)
  /-- RETIRE_CODE (R76). -/
  | retireCode (port : Port) (tag code : Nat)
  /-- READ_CODES (R77). -/
  | readCodes (port : Port) (tag : Nat)
  /-- READ_SEGMENT (R86). -/
  | readSegment (port : Port) (tag entry : Nat)
  /-- LIST_SEGMENTS (R87). -/
  | listSegments (port : Port) (tag source firstDay lastDay start : Nat)
  /-- SET_CHANNEL (R93). -/
  | setChannel (port : Port) (tag channel mode : Nat)
  /-- READ_CHANNEL (R100). -/
  | readChannel (port : Port) (tag channel : Nat)
  /-- ADVANCE_DAY (R103). -/
  | advanceDay (port : Port) (tag : Nat)
  /-- SET_CLASS (R107). -/
  | setClass (port : Port) (tag cls days : Nat)
  /-- READ_RETENTION (R122). -/
  | readRetention (port : Port) (tag : Nat)
  /-- DAY_SWEEP_ENTRY (R111). -/
  | daySweepEntry
  /-- EXTEND_SWEEP_ENTRY (R115). -/
  | extendSweepEntry
  /-- ENTRY_ERASE_COMPLETE (R118). -/
  | entryEraseComplete (channel : Nat) (ok : Bool)
  /-- DIRTY_SLOT_ERASE_COMPLETE (R119). -/
  | dirtySlotEraseComplete (channel : Nat) (ok : Bool)
  /-- CREATE_HOLD (R127). -/
  | createHold (port : Port) (tag : Nat) (scope : HoldScope) (note : Nat)
  /-- EDIT_HOLD (R128). -/
  | editHold (port : Port) (tag hold : Nat) (scope : HoldScope) (note : Nat)
  /-- DISCARD_HOLD (R128). -/
  | discardHold (port : Port) (tag hold : Nat)
  /-- ACTIVATE_HOLD (R129). -/
  | activateHold (port : Port) (tag hold : Nat)
  /-- APPLY_SWEEP_ENTRY (R130). -/
  | applySweepEntry
  /-- HOLD_LOSS (R132). -/
  | holdLoss
  /-- RELEASE_HOLD (R134). -/
  | releaseHold (port : Port) (tag hold : Nat)
  /-- RELEASE_SWEEP_ENTRY (R135). -/
  | releaseSweepEntry
  /-- READ_HOLD (R137). -/
  | readHold (port : Port) (tag hold : Nat)
  /-- FETCH_FINDINGS (R141). -/
  | fetchFindings (port : Port) (tag start count : Nat)
  /-- ACK_FINDINGS (R142): the order of the producers that seek the freed places (R143). -/
  | ackFindings (port : Port) (tag through : Nat) (order : AckOrder)
  /-- VERIFY (R145). -/
  | verify (port : Port) (tag first last : Nat)
  /-- VERIFY_READ_COMPLETE (R147). -/
  | verifyReadComplete (channel : Nat) (result : ReadResult)
  /-- RECONCILE (R145). -/
  | reconcile (port : Port) (tag : Nat)
  /-- RECONCILE_READ_COMPLETE (R149). -/
  | reconcileReadComplete (channel : Nat) (result : ReadResult)
  /-- AUDIT_FINDING_RESUMED (R151). -/
  | auditFindingResumed
  /-- CANCEL_AUDIT (R152). -/
  | cancelAudit (port : Port) (tag : Nat)
  /-- READ_AUDIT (R155). -/
  | readAudit (port : Port) (tag : Nat)
  /-- OPEN_CURSOR (R158). -/
  | openCursor (port : Port) (tag source firstDay lastDay : Nat) (filter : Option FilterOperand) (direction : Nat)
  /-- CURSOR_READ_COMPLETE (R159): with the cursor pages whose check will fail, as pairs of the number of a load that
  decodes from the copy, counted from 0, and the index of a record that lies in such a page at that load. -/
  | cursorReadComplete (channel : Nat) (result : ReadResult) (badPages : List (Nat × Nat))
  /-- READ_RECORDS (R161). -/
  | readRecords (port : Port) (tag cursor count : Nat)
  /-- SEEK (R162). -/
  | seek (port : Port) (tag cursor : Nat) (target : SeekOperand)
  /-- SET_DIRECTION (R163). -/
  | setDirection (port : Port) (tag cursor direction : Nat)
  /-- CLOSE_CURSOR (R164). -/
  | closeCursor (port : Port) (tag cursor : Nat)
  /-- CURSOR_IDLE_CLOSE (R164). -/
  | cursorIdleClose (cursor : Nat)
  /-- READ_CURSOR (R165). -/
  | readCursor (port : Port) (tag cursor : Nat)
  /-- CHECKPOINT (R174). -/
  | checkpoint (port : Port) (tag : Nat)
  /-- CATALOG_WRITE_OK (R172): how many waiting closes reach acceptance before an owed checkpoint is taken. -/
  | catalogWriteOk (closesFirst : Nat)
  /-- CATALOG_WRITE_FAIL (R173). -/
  | catalogWriteFail
  /-- SET_PARAMETER (R175). -/
  | setParameter (port : Port) (tag parameter value : Nat)
  /-- READ_CATALOG (R176). -/
  | readCatalog (port : Port) (tag : Nat)
  /-- RESET_CONTROLLER (R179). -/
  | resetController (port : Port) (tag : Nat)
  /-- FORMAT (R180). -/
  | format (port : Port) (tag channel : Nat)
  /-- CONSENT_FORMAT (R181). -/
  | consentFormat (port : Port) (tag number : Nat)
  /-- FORMAT_CONSENT_EXPIRY (R181). -/
  | formatConsentExpiry
  /-- FORMAT_ERASE_COMPLETE (R182). -/
  | formatEraseComplete (channel : Nat) (ok : Bool)
  /-- FORMAT_IMAGE_WRITE_COMPLETE (R182). -/
  | formatImageWriteComplete (ok : Bool)
  /-- FETCH_FAULT (R186): 1 GENERAL, 2 MEDIA, 3 HALT. -/
  | fetchFault (port : Port) (tag context : Nat)
  /-- RESUME (R187): 1 COMPACTION, 2 ERASER, 3 CATALOG. -/
  | resume (port : Port) (tag engine : Nat)
  /-- ABANDON (R188). -/
  | abandon (port : Port) (tag engine : Nat)
  deriving DecidableEq, Repr

end Sys2Proof
end

