-- ==== Sys2Proof/Decode.lean ====
section
/-!
DEFINITION. Decode.lean: the command a word spells by the table's bits. No row of spec/opcode_table.json gives bits, so
every word is rejected.
-/

namespace Sys2Proof

/-- The command that the word `w` of `nbits` bits spells: none, for no row of the table gives bits. -/
def decodeTableWord (_nbits _w : Nat) : Option Instr := none

end Sys2Proof
end

