-- ==== Sys2Proof/Config.lean ====
section
/-!
DEFINITION. Config.lean: what the book fixes as numbers once for the whole part, and the free values: constants without
a body, so that no proof can rest on one.
-/

namespace Sys2Proof

/-- Number of sources (R13). -/
def Config.sources : Nat := 1024
/-- Number of Intake Slots (R34). -/
def Config.intakeSlots : Nat := 8
/-- Most files the Compaction Queue holds (R58). -/
def Config.queueFiles : Nat := 64
/-- Number of Segment Builders (R60). -/
def Config.builders : Nat := 32
/-- Number of intake pool pages (R57). -/
def Config.intakePages : Nat := 3808
/-- Bytes of a staging page (spec/00 Sizes). -/
def Config.pageBytes : Nat := 262144
/-- Most Day Tally entries (R52). -/
def Config.tallyPlaces : Nat := 8192
/-- Number of Segment Directory entries (R81). -/
def Config.entries : Nat := 65536
/-- Number of channels (R88). -/
def Config.channels : Nat := 8
/-- Slots of one channel (R88). -/
def Config.slotsPerChannel : Nat := 8192
/-- Catalog slots of the catalog channel (R94). -/
def Config.catalogSlots : Nat := 16
/-- Most operations in a channel's queue (R95). -/
def Config.queueOps : Nat := 16
/-- Most bytes of a segment's payload (R65). -/
def Config.payloadLimit : Nat := 2097152
/-- Most records of a segment (R65). -/
def Config.recordLimit : Nat := 65535
/-- Most dynamic codes of a builder (R64). -/
def Config.dynamicCodes : Nat := 240
/-- Most sweeps the Sweep Queue holds (R108). -/
def Config.sweeps : Nat := 8
/-- Number of holds (R123). -/
def Config.holds : Nat := 16
/-- Most findings the log holds (R138). -/
def Config.findings : Nat := 512
/-- The next finding number at which the log has no free place (R138). -/
def Config.findingNumbers : Nat := 4294967296
/-- Number of cursors (R156). -/
def Config.cursors : Nat := 4
/-- Most outstanding requests of a port (R194). -/
def Config.outstanding : Nat := 16
/-- Most gap records of a source (R15). -/
def Config.gaps : Nat := 16
/-- Longest run a gap record holds (R15). -/
def Config.gapRun : Nat := 32767
/-- Seconds until an unused cursor is closed (R164). -/
def Config.cursorIdle : Nat := 120
/-- Seconds allowed for consent to a Format (R181). -/
def Config.consent : Nat := 60
/-- Seconds an operation may run (R97). -/
def Config.operationLimit : Nat := 2

/-- What a segment's payload is made of: header contents, dynamic code list and records (R63). -/
structure SegmentContents where
  source  : Nat
  day     : Nat
  span    : Option (Nat × Nat)
  used    : List Nat
  dyn     : List CodeValue
  records : List CodedRecord
  deriving DecidableEq, Repr

/-- Free value (log 5): the bytes of a segment's payload. R63 gives the size of each part; the arrangement of the
bytes is "kept on the flash and is not seen on the ports", so the book gives no layout. -/
opaque Config.payloadBytes : SegmentContents → List Byte

/-- Free value (log 8): the bytes of a catalog image that its CRC-32 is taken over, the image given with the CRC-32 field
0. "The image's arrangement within its shares is not seen on the ports" (R167), so the book gives no layout. -/
opaque Config.imageBytes : Image → List Byte

/-- Free value (log 5, log 8): the payload read from a slot whose contents no operation of the part described,
applied to the free value counter. -/
opaque Config.unknownPayload : Nat → Payload

/-- Free value (log 5, log 8): what a CATALOG-READ returns from a slot whose contents no operation of the part
described, applied to the free value counter. -/
opaque Config.unknownCatalogData : Nat → CatalogData

end Sys2Proof
end

