-- ==== Sys2Proof/Machine/State.lean ====
section
/-!
DEFINITION. Machine/State.lean: everything the book gives the part to hold, as plain data, block by block, and the
part as it stands before its first power-up (`State.reset`, log 3). INVENTORY.md lists each field with its rule.
-/

namespace Sys2Proof.Machine
open Sys2Proof

/-- The model stops at no command: what the book calls a fault is state of the part (R183), so there is no
constructor. -/
inductive Fault : Type
  deriving DecidableEq, Repr

/-- Why exec has no meaning for a command. -/
inductive Refusal
  /-- Raised by an arm of `exec` whose command has no meaning yet. Safe: the model stops. No arm uses it. -/
  | notModelled (mnemonic : String)
  deriving DecidableEq, Repr

/-- The answer of a meaning. -/
abbrev Result (σ : Type) := Host.Outcome σ Fault Refusal

/-! ### Link Interfaces (spec/12) -/

/-- The statuses of replies (R195, R200). -/
inductive Status
  | ok | opened | accepted | consentNeeded | endOfWalk | cancelled
  | badField | notPermitted | wrongState | busy | halted | locked | inUse | noSpace | reset | notDurable
  | windowFull | tagInUse
  | unknownSource | futureDay | tooOld | tooLarge | inProgress | duplicate | stale | gapsFull | noSlot | tallyFull
  | stagingFull | chunkOrder | overrun | lengthMismatch | checkMismatch | countMismatch | tooManyBad | limit
  | notPresent | expired | formatFailed
  deriving DecidableEq, Repr

/-- A request in hand somewhere in the part: its port, tag and kind code, and the port's epoch when it was entered.
A Link Reset raises the epoch, so a reply to a discarded request is dropped (R195, R196). -/
structure ReqRef where
  port  : Port
  tag   : Nat
  kind  : Nat
  epoch : Nat
  deriving DecidableEq, Repr

/-- An entry of the outstanding-request list (R194). -/
structure Outstanding where
  tag  : Nat
  kind : Nat
  deriving DecidableEq, Repr

/-- A reply produced and not yet sent (R195). `entered`: its request stands in the outstanding-request list. -/
structure Reply where
  kind    : Nat
  tag     : Nat
  status  : Status
  body    : List Byte
  entered : Bool
  deriving DecidableEq, Repr

/-- The frame the transmitter is sending: a reply, or a notice with the count and subject taken when sending
began (R197). -/
inductive Sending
  | reply (r : Reply)
  | notice (code count subject : Nat)
  deriving DecidableEq, Repr

/-- A line of the Notice Set (R197). -/
structure NoticeLine where
  count   : Nat        := 0
  subject : Option Nat := none
  masked  : Bool       := false
  deriving DecidableEq, Repr

/-- A Link Interface (R192, R194, R195, R197). `frames` is the model's record of the frames whose sending began at the
last command taken, oldest first. -/
structure LinkIf where
  up          : Bool             := false
  epoch       : Nat              := 0
  outstanding : List Outstanding := []
  replies     : List Reply       := []
  sending     : Option Sending   := none
  replyTurn   : Bool             := false
  lines       : Tbl NoticeLine   := []
  frames      : List (List Byte) := []
  deriving DecidableEq, Repr

/-! ### Intake Unit (spec/02, spec/03) -/

/-- The state of an Intake Slot (R35). -/
inductive SlotPhase
  | idle
  | receiving
  | closing
  deriving DecidableEq, Repr

/-- The seven rejection counts (R8), in the order R7 first names the reasons. -/
structure Rejects where
  badLength     : Nat := 0
  unknownKind   : Nat := 0
  badSubscriber : Nat := 0
  badOtherParty : Nat := 0
  volumeNotData : Nat := 0
  badStart      : Nat := 0
  badDuration   : Nat := 0
  deriving DecidableEq, Repr

/-- An Intake Slot; the field defaults are those of an IDLE slot (R34). `records` are the accepted records its
reserved pages hold (R8); `closeReq` is the CLOSE-FILE outstanding for it (R43). -/
structure IntakeSlot where
  phase           : SlotPhase     := .idle
  source          : Nat           := 0
  sequence        : Nat           := 0
  day             : Nat           := 0
  declaredRecords : Nat           := 0
  declaredLength  : Nat           := 0
  received        : Nat           := 0
  pages           : Nat           := 0
  begun           : List Byte     := []
  check           : Crc           := 0
  seen            : Nat           := 0
  accepted        : Nat           := 0
  rejects         : Rejects       := {}
  lastActivity    : Nat           := 0
  records         : List Record   := []
  closeReq        : Option ReqRef := none
  deriving DecidableEq, Repr

/-- The Intake Unit. `closing` lists the CLOSING slots in the order their CLOSE-FILE requests were taken (R45);
`freePages` is the number of FREE intake pages (R57, log 6). The tally's index of a key is `day * 1024 + source`.
`ageings` keeps, rising, the day before which records were aged at each earlier ageing that left some for want of room:
they go before any record aged later (R25). -/
structure IntakeUnit where
  sources   : Tbl SourceEntry := []
  slots     : Tbl IntakeSlot  := []
  closing   : List Nat        := []
  tally     : Tbl TallyEntry  := []
  freePages : Nat             := 3808
  ageings   : List Nat        := []
  deriving DecidableEq, Repr

/-! ### Compaction Unit (spec/04) -/

/-- A file of the Compaction Queue (R58). -/
structure QueuedFile where
  source   : Nat
  sequence : Nat
  day      : Nat
  pages    : Nat
  toAppend : Nat
  appended : Nat
  records  : List Record
  deriving DecidableEq, Repr

/-- The state of a Segment Builder (R60). -/
inductive BuilderPhase
  | free
  | filling
  | closing
  deriving DecidableEq, Repr

/-- A Segment Builder; the field defaults are those of a FREE builder (R60). `records` are the records appended, in the
form each was given (R63, R64); `pageHeld` says that a builder page error holds it CLOSING (R78, R184). -/
structure Builder where
  phase      : BuilderPhase       := .free
  source     : Nat                := 0
  day        : Nat                := 0
  entry      : Nat                := 0
  records    : List CodedRecord   := []
  bytesUsed  : Nat                := 0
  dyn        : List CodeValue     := []
  used       : List Nat           := []
  span       : Option (Nat × Nat) := none
  lastAppend : Nat                := 0
  failures   : Nat                := 0
  pageHeld   : Bool               := false
  deriving DecidableEq, Repr

/-- What the opening of a builder waits for: a FREE builder (R62), a FREE directory entry (R61), or RESUME after
SPACE-EXHAUSTED (R61, R184). -/
inductive OpenWait
  | builder
  | entry
  | held
  deriving DecidableEq, Repr

/-- The Compaction Unit. `headHeld`: a file page error holds the head file (R78). `closesOwed`: compaction became
STOPPED as a day advanced, and the closes of that advance begin when it runs again (R71). -/
structure CompactionUnit where
  queue      : List QueuedFile := []
  headHeld   : Bool            := false
  builders   : Tbl Builder     := []
  opening    : Option OpenWait := none
  stopped    : Bool            := false
  closesOwed : Bool            := false
  codes      : Tbl SharedCode  := []
  deriving DecidableEq, Repr

/-! ### Segment Directory and Media Controller (spec/05) -/

/-- The state of a flash slot (R88). -/
inductive SlotState
  | clean
  | dirty
  | used
  | defective
  | catalog
  deriving DecidableEq, Repr

/-- What a flash slot holds as the part left it (log 8). -/
inductive SlotContent
  | unknown
  | blank
  | segment (p : Payload)
  | share (s : Share)
  deriving DecidableEq, Repr

/-- The five kinds of channel operation (R95). -/
inductive OpKind
  | write
  | read
  | erase
  | catalogWrite
  | catalogRead
  deriving DecidableEq, Repr

/-- Who asked an operation, or that its result is to be discarded (R95, R96, R99). -/
inductive Requester
  | builder (b : Nat)
  | audit
  | cursor (c : Nat)
  | eraser
  | format
  | catalog
  | load
  | discarded
  deriving DecidableEq, Repr

/-- A channel operation (R95). `data` is what the slot holds once the operation has been carried out. -/
structure Op where
  kind      : OpKind
  slot      : Nat
  requester : Requester
  entry     : Option Nat
  data      : SlotContent
  deriving DecidableEq, Repr

/-- A channel and its part of the Slot Map (R88, R92, R95): slots not listed are in state `rest`. The operation in
progress is the head of the queue when `started` holds the second at which it was started. -/
structure Channel where
  present : Bool          := false
  setMode : ChanMode      := .online
  rest    : SlotState     := .dirty
  slots   : Tbl SlotState := []
  queue   : List Op       := []
  started : Option Nat    := none
  outside : List Op       := []
  deriving DecidableEq, Repr

/-- The Media Controller with the Segment Directory. The index of a slot in `flash` is
`channel * 8192 + slot`; slots not listed hold contents the part has not described (log 8). -/
structure MediaUnit where
  dir      : Tbl DirEntry    := []
  channels : Tbl Channel     := []
  pointer  : Nat             := 7
  slotWait : List Nat        := []
  flash    : Tbl SlotContent := []
  deriving DecidableEq, Repr

/-! ### Retention Unit (spec/06, spec/07) -/

/-- The kinds of sweep (R108). -/
inductive SweepKind
  | day
  | extend (cls : Nat)
  | apply (hold : Nat)
  | release (hold : Nat)
  deriving DecidableEq, Repr

/-- A sweep of the Sweep Queue (R108) with the counts it keeps while it runs (R113, R116, R135; an APPLY sweep's
counts stand in its hold) and the requests that wait on it. -/
structure Sweep where
  kind      : SweepKind
  position  : Nat := 0
  marked    : Nat := 0
  held      : Nat := 0
  read      : Nat := 0
  tallied   : Nat := 0
  extended  : Nat := 0
  reclaimed : Nat := 0
  tooLate   : Nat := 0
  cleared   : Nat := 0
  reqs      : List ReqRef := []
  deriving DecidableEq, Repr

/-- The record of the last DAY sweep: its counts and the day on which it ended (R113, R122). -/
structure DayRecord where
  marked  : Nat
  held    : Nat
  read    : Nat
  tallied : Nat
  day     : Nat
  deriving DecidableEq, Repr

/-- The record of the last EXTEND sweep: its counts and class (R116, R122). -/
structure ExtendRecord where
  extended  : Nat
  reclaimed : Nat
  tooLate   : Nat
  cls       : Nat
  deriving DecidableEq, Repr

/-- An erase of the Eraser in flight: its slot, and its entry when it erases an ERASING entry (R118, R119). -/
structure EraseWork where
  slot  : Nat
  entry : Option Nat
  deriving DecidableEq, Repr

/-- The Retention Unit with the Eraser. `erasing` lists the Eraser's erase in flight on each channel. -/
structure RetentionUnit where
  today         : Nat                 := 0
  lastSwept     : Nat                 := 0
  classes       : Tbl ClassEntry      := []
  holds         : Tbl Hold            := []
  sweeps        : List Sweep          := []
  suspended     : Bool                := false
  lastDay       : Option DayRecord    := none
  lastExtend    : Option ExtendRecord := none
  eraserStopped : Bool                := false
  erasing       : Tbl EraseWork       := []
  deriving DecidableEq, Repr

/-! ### Audit Unit (spec/08) -/

/-- The two audit jobs (R144). -/
inductive JobKind
  | verify (first last : Nat)
  | reconcile
  deriving DecidableEq, Repr

/-- The audit job in hand (R144, R153). For VERIFY the position and the segment are entry numbers; for RECONCILE the
position is a tally index, `counting` says that its key is being counted, `lastRead` is the last entry of the key
whose contribution was added, and `counted` the key's records counted (R149). `reading` says that the READ of the segment in
hand has been asked and has not ended (R155, log 63). -/
structure Job where
  kind         : JobKind
  position     : Option Nat         := none
  inHand       : Option Nat         := none
  reading      : Bool               := false
  counting     : Bool               := false
  lastRead     : Option Nat         := none
  counted      : Nat                := 0
  owed         : Option FindingBody := none
  good         : Nat                := 0
  bad          : Nat                := 0
  skipped      : Nat                := 0
  failed       : Nat                := 0
  matched      : Nat                := 0
  mismatched   : Nat                := 0
  skippedOpen  : Nat                := 0
  skippedBusy  : Nat                := 0
  segmentsRead : Nat                := 0
  badReads     : Nat                := 0
  req          : ReqRef
  deriving DecidableEq, Repr

/-- The Audit Unit with the Findings Log (R138, R144). `buffer` is the audit read buffer: the payload of the segment in
hand once its read has delivered it, none when empty or without meaning. -/
structure AuditUnit where
  findings : List Finding   := []
  next     : Nat            := 1
  job      : Option Job     := none
  buffer   : Option Payload := none
  deriving DecidableEq, Repr

/-! ### Cursor Unit (spec/09) -/

/-- The place of a record in the walk (R157). -/
structure Place where
  day   : Nat
  entry : Nat
  index : Nat
  deriving DecidableEq, Repr

/-- The direction of a walk (R156). -/
inductive Direction
  | up
  | down
  deriving DecidableEq, Repr

/-- A cursor's filter (R156). -/
structure Filter where
  subscriber : List Nat
  kinds      : List RecordKind
  deriving DecidableEq, Repr

/-- Where the walk begins while the position is absent (R156). -/
inductive SeekPoint
  | start
  | stop
  | place (p : Place)
  deriving DecidableEq, Repr

/-- The prefetch latch (R156). -/
inductive Latch
  | empty
  | loading
  | ready (p : Place) (r : Record)
  | atEnd
  deriving DecidableEq, Repr

/-- The copy of a segment in a cursor's pages (R159): its payload, the number of loads that have decoded from it, and the
pages whose check fails, as CURSOR_READ_COMPLETE gives them (log 7). -/
structure SegmentCopy where
  payload : Payload
  loads   : Nat               := 0
  bad     : List (Nat × Nat)  := []
  deriving DecidableEq, Repr

/-- A record gathered for a READ-RECORDS reply (R161). -/
structure Gathered where
  place  : Place
  record : Record
  deriving DecidableEq, Repr

/-- An outstanding READ-RECORDS (R161). -/
structure ReadWait where
  req   : ReqRef
  count : Nat
  got   : List Gathered
  deriving DecidableEq, Repr

/-- A cursor; the field defaults are those of a FREE cursor (R156). `copy` is present while the copy in its pages is
valid, `last` is the entry the load in progress has left or passed over last (R159, as day and entry). -/
structure Cursor where
  isOpen     : Bool               := false
  owner      : Port               := .a
  source     : Nat                := 0
  firstDay   : Nat                := 0
  lastDay    : Nat                := 0
  filter     : Option Filter      := none
  direction  : Direction          := .up
  seekPoint  : SeekPoint          := .start
  position   : Option Place       := none
  latch      : Latch              := .empty
  held       : Option Nat         := none
  copy       : Option SegmentCopy := none
  last       : Option (Nat × Nat) := none
  notStored  : Nat                := 0
  bad        : Nat                := 0
  unreadable : Nat                := 0
  lastUse    : Nat                := 0
  reading    : Option ReadWait    := none
  deriving DecidableEq, Repr

/-! ### Catalog Unit (spec/10) -/

/-- The archive state (R166). -/
inductive ArchiveState
  | loading
  | unformatted
  | catalogFault
  | service
  | formatting
  | halted
  deriving DecidableEq, Repr

/-- The catalog state (R168). -/
inductive CatalogState
  | idle
  | quiescing
  | writing
  | stopped
  deriving DecidableEq, Repr

/-- What waits for the end of a checkpoint: a request with its reply bodies for OK and NOT-DURABLE, whether the OK body
is the number completed (R174), and the day whose DAY-DONE is raised with the answer (R104). -/
structure Waiter where
  req      : Option ReqRef
  okBody   : List Byte  := []
  failBody : List Byte  := []
  number   : Bool       := false
  dayDone  : Option Nat := none
  deriving DecidableEq, Repr

/-- What a load looks for: a catalog on any present channel, or the images of one channel (R177). -/
inductive LoadTarget
  | search
  | channel (c : Nat)
  deriving DecidableEq, Repr

/-- A CATALOG-READ noted by a load: its slot and what it returned, none for FAIL (R177). -/
structure Noted where
  channel : Nat
  slot    : Nat
  data    : Option CatalogData
  deriving DecidableEq, Repr

/-- A load in progress (R177). `asked`: its reads have been asked; before that it waits for the operations in
progress to end. -/
structure Load where
  target  : LoadTarget
  asked   : Bool          := false
  noted   : List Noted    := []
  starter : Option ReqRef := none
  deriving DecidableEq, Repr

/-- A pending format (R180). -/
structure PendingFormat where
  number  : Nat
  channel : Nat
  madeAt  : Nat
  deriving DecidableEq, Repr

/-- The phases of FORMATTING, erasing in its three stages (R182). -/
inductive FormatPhase
  | clearing
  | erasingOld
  | erasingFirst
  | erasingRest
  | image
  deriving DecidableEq, Repr

/-- A Format in progress (R182): its starter, the channel chosen and the archive's former catalog channel. -/
structure FormatOp where
  phase    : FormatPhase
  starter  : ReqRef
  consent  : Bool
  channel  : Nat
  oldChan  : Option Nat
  deriving DecidableEq, Repr

/-- The Catalog Unit (R166, R168, R175, R177, R180, R182). -/
structure CatalogUnit where
  archive       : ArchiveState         := .loading
  profile       : Profile              := .none
  params        : Params               := {}
  channel       : Option Nat           := none
  state         : CatalogState         := .idle
  last          : Nat                  := 0
  newer         : Option Nat           := none
  waiters       : List Waiter          := []
  owed          : Bool                 := false
  owedWaiters   : List Waiter          := []
  buffer        : Option Image         := none
  sharesOk      : Nat                  := 0
  load          : Option Load          := none
  pendingFormat : Option PendingFormat := none
  formatCounter : Nat                  := 1
  format        : Option FormatOp      := none
  deriving DecidableEq, Repr

/-! ### Fault Unit (spec/11) -/

/-- The engines a fault can stop (R183). -/
inductive Engine
  | compaction
  | eraser
  | catalog
  deriving DecidableEq, Repr

/-- The fault kinds (R184). -/
inductive FaultKind
  | segmentWriteFailed
  | eraseTimeout
  | catalogWriteFailed
  | filePageError
  | builderPageError
  | spaceExhausted
  deriving DecidableEq, Repr

/-- A fault's description (R183). -/
structure FaultInfo where
  kind    : FaultKind
  segment : Option Nat         := none
  slot    : Option SlotRef     := none
  file    : Option (Nat × Nat) := none
  retries : Nat                := 0
  deriving DecidableEq, Repr

/-- A fault context (R183). -/
inductive FaultContext
  | empty
  | held (number : Nat) (f : FaultInfo)
  | taken (number : Nat) (f : FaultInfo)
  deriving DecidableEq, Repr

/-- The Fault Unit (R183). -/
structure FaultUnit where
  general : FaultContext              := .empty
  media   : FaultContext              := .empty
  halt    : Option (Nat × FaultInfo)  := none
  counter : Nat                       := 1
  deriving DecidableEq, Repr

/-! ### The part -/

/-- The part as a whole. -/
structure State where
  pending : List Instr     := []
  powered : Bool           := false
  second  : Nat            := 0
  free    : Nat            := 0
  portA   : LinkIf         := {}
  portB   : LinkIf         := {}
  intake  : IntakeUnit     := {}
  comp    : CompactionUnit := {}
  media   : MediaUnit      := {}
  ret     : RetentionUnit  := {}
  audit   : AuditUnit      := {}
  cursors : Tbl Cursor     := []
  cat     : CatalogUnit    := {}
  fault   : FaultUnit      := {}
  deriving DecidableEq, Repr

/-- The part before its first power-up: supply absent, every field at the value its rule gives after power-up or
after a load ending in UNFORMATTED (log 3). -/
def State.reset : State := {}

end Sys2Proof.Machine
end

