-- ==== Sys2Proof/Machine/Tables.lean ====
section
/-!
DEFINITION. Machine/Tables.lean: the operations over a table indexed by number (`Tbl`): only indexes whose entry
differs from the table's empty entry are listed, in strictly rising order, so that equal tables are equal data.
-/

namespace Sys2Proof

/-- The listed entry at index `k`, if any. -/
def Tbl.find {α : Type} : Tbl α → Nat → Option α
  | [], _ => none
  | (j, v) :: t, k => if j = k then some v else Tbl.find t k

/-- The entry at index `k`, where an unlisted index holds `d`. -/
def Tbl.get {α : Type} (d : α) (t : Tbl α) (k : Nat) : α :=
  (Tbl.find t k).getD d

/-- List `v` at index `k`. -/
def Tbl.put {α : Type} : Tbl α → Nat → α → Tbl α
  | [], k, v => [(k, v)]
  | (j, w) :: t, k, v =>
    if k < j then (k, v) :: (j, w) :: t
    else if k = j then (k, v) :: t
    else (j, w) :: Tbl.put t k v

/-- Leave index `k` unlisted. -/
def Tbl.drop {α : Type} (t : Tbl α) (k : Nat) : Tbl α :=
  t.filter (fun e => e.1 != k)

/-- Write `v` at index `k`, keeping the form of the table. -/
def Tbl.set {α : Type} [DecidableEq α] (d : α) (t : Tbl α) (k : Nat) (v : α) : Tbl α :=
  if v = d then Tbl.drop t k else Tbl.put t k v

/-- The indexes of a table are strictly rising. -/
def Tbl.rising {α : Type} (t : Tbl α) : Bool :=
  (t.map Prod.fst).Pairwise (· < ·)

/-- A table in its canonical form: rising indexes below `bound`, no entry equal to the empty one. -/
def Tbl.wf {α : Type} [DecidableEq α] (d : α) (bound : Nat) (t : Tbl α) : Bool :=
  Tbl.rising t && t.all (fun e => decide (e.1 < bound) && decide (e.2 ≠ d))

/-- The lowest index from `n` up and below `bound` whose entry satisfies `p`, an unlisted index satisfying it when
`empty` says so. -/
def Tbl.nextFrom {α : Type} (p : Nat → α → Bool) (empty : Bool) (bound : Nat) : Nat → Tbl α → Option Nat
  | n, [] => if empty && decide (n < bound) then some n else none
  | n, (j, v) :: t =>
    if j < n then Tbl.nextFrom p empty bound n t
    else if empty && decide (n < j) && decide (n < bound) then some n
    else if p j v && decide (j < bound) then some j
    else Tbl.nextFrom p empty bound (j + 1) t

/-- The number of indexes below `bound` whose entry satisfies `p`. -/
def Tbl.count {α : Type} (p : α → Bool) (empty : Bool) (bound : Nat) (t : Tbl α) : Nat :=
  (t.filter (fun e => p e.2)).length + (if empty then bound - t.length else 0)

/-- Apply `f` at every listed index, dropping the entries that become `d`. -/
def Tbl.mapListed {α : Type} [DecidableEq α] (d : α) (f : Nat → α → α) (t : Tbl α) : Tbl α :=
  (t.map (fun e => (e.1, f e.1 e.2))).filter (fun e => decide (e.2 ≠ d))

/-- Put a number into a set kept as a rising list. -/
def insertRising (k : Nat) : List Nat → List Nat
  | [] => [k]
  | j :: t => if k < j then k :: j :: t else if k = j then j :: t else j :: insertRising k t

end Sys2Proof
end

