-- ==== Sys2Proof/Machine/Formats.lean ====
section
/-!
DEFINITION. Machine/Formats.lean: the layouts of spec/13: the CRC-32, the fields of bodies, frames, status and state
codes, and the carried forms of a call record and of a finding.
-/

namespace Sys2Proof.Machine
open Sys2Proof

/-! ### The check (R200) -/

/-- One bit into the reflected CRC-32 register; EDB88320 is 04C11DB7 with its bits in reverse order (R200). -/
def crcBit (c : Crc) : Crc :=
  if c.getLsbD 0 then (c >>> 1) ^^^ 0xEDB88320#32 else c >>> 1

/-- One byte into the register, least significant bit first (R200). -/
def crcByte (c : Crc) (b : Byte) : Crc :=
  crcBit (crcBit (crcBit (crcBit (crcBit (crcBit (crcBit (crcBit (c ^^^ b.setWidth 32))))))))

/-- Bytes into the register (R200). -/
def crcBytes (c : Crc) (bs : List Byte) : Crc :=
  bs.foldl crcByte c

/-- The register at its start: all ones (R200). -/
def crcStart : Crc := 0xFFFFFFFF#32

/-- The result of a register: inverted in every bit; the register is already reflected (R200). -/
def crcResult (c : Crc) : Crc := ~~~ c

/-- The CRC-32 over some bytes (R200). -/
def crc32 (bs : List Byte) : Crc := crcResult (crcBytes crcStart bs)

/-! ### Fields (R204) -/

/-- A number in `n` bytes, most significant byte first. -/
def be : Nat → Nat → List Byte
  | 0, _ => []
  | n + 1, v => BitVec.ofNat 8 (v / 256 ^ n) :: be n v

/-- A count or number whose range is not stated, or a count of whole seconds: four bytes, saturating. -/
def count4 (v : Nat) : List Byte := be 4 (min v max32)

/-- Yes or no, set or clear: 1 or 0. -/
def flag (b : Bool) : List Byte := if b then [1#8] else [0#8]

/-- An optional field: its presence byte, then the field when present. -/
def opt {α : Type} (f : α → List Byte) : Option α → List Byte
  | none => [0#8]
  | some v => 1#8 :: f v

/-- A list: the number of members, then the members. -/
def listBody {α : Type} (f : α → List Byte) (l : List α) : List Byte :=
  be 1 l.length ++ l.flatMap f

/-- A digit string: the digit count, then one byte for each digit. -/
def digitsBody (ds : List Nat) : List Byte := listBody (be 1) ds

/-- A set: one bit for each possible member of `members`, the lowest in the least significant bit, in the fewest
whole bytes. -/
def setBody (members : List Nat) (isIn : Nat → Bool) : List Byte :=
  be ((members.length + 7) / 8)
    (((members.zipIdx).map (fun m => if isIn m.1 then 2 ^ m.2 else 0)).sum)

/-- A key: source, then day. -/
def keyBody (source day : Nat) : List Byte := be 2 source ++ be 2 day

/-- A place: day, entry and record index. -/
def placeBody (p : Place) : List Byte := be 2 p.day ++ be 2 p.entry ++ be 2 p.index

/-- A slot: the channel, then the slot number. -/
def slotBody (r : SlotRef) : List Byte := be 1 r.channel ++ be 2 r.slot

/-- A CRC-32 value. -/
def crcBody (c : Crc) : List Byte := be 4 c.toNat

/-! ### Codes (R200, R202, R203) -/

/-- The status codes of replies (R200). -/
def statusCode : Status → Nat
  | .ok => 0
  | .opened => 1
  | .accepted => 2
  | .consentNeeded => 3
  | .endOfWalk => 4
  | .cancelled => 5
  | .badField => 16
  | .notPermitted => 17
  | .wrongState => 18
  | .busy => 19
  | .halted => 20
  | .locked => 21
  | .inUse => 22
  | .noSpace => 23
  | .reset => 24
  | .notDurable => 25
  | .windowFull => 26
  | .tagInUse => 27
  | .unknownSource => 32
  | .futureDay => 33
  | .tooOld => 34
  | .tooLarge => 35
  | .inProgress => 36
  | .duplicate => 37
  | .stale => 38
  | .gapsFull => 39
  | .noSlot => 40
  | .tallyFull => 41
  | .stagingFull => 42
  | .chunkOrder => 43
  | .overrun => 44
  | .lengthMismatch => 45
  | .checkMismatch => 46
  | .countMismatch => 47
  | .tooManyBad => 48
  | .limit => 49
  | .notPresent => 50
  | .expired => 51
  | .formatFailed => 52

/-- The reason codes of LINK-ERROR (R202). -/
def frameFaultCode : FrameFault → Nat
  | .sync => 1
  | .length => 2
  | .check => 3
  | .frameClass => 4
  | .frameKind => 5

/-- The archive state's code (R203). -/
def archiveCode : ArchiveState → Nat
  | .loading => 1
  | .unformatted => 2
  | .catalogFault => 3
  | .service => 4
  | .formatting => 5
  | .halted => 6

/-- The catalog state's code (R203). -/
def catalogCode : CatalogState → Nat
  | .idle => 1
  | .quiescing => 2
  | .writing => 3
  | .stopped => 4

/-- The profile's code in the STATUS reply (R203). -/
def profileCode : Profile → Nat
  | .none => 0
  | .p1 => 1
  | .p2 => 2
  | .p3 => 3
  | .p4 => 4

/-- The number of a record kind (R2). -/
def kindNumber : RecordKind → Nat
  | .voiceOut => 1
  | .voiceIn => 2
  | .textOut => 3
  | .textIn => 4
  | .data => 5
  | .forward => 6

/-- The record kind of a number (R2). -/
def kindOfNumber : Nat → Option RecordKind
  | 1 => some .voiceOut
  | 2 => some .voiceIn
  | 3 => some .textOut
  | 4 => some .textIn
  | 5 => some .data
  | 6 => some .forward
  | _ => none

/-- The engine's code (R203). -/
def engineCode : Engine → Nat
  | .compaction => 1
  | .eraser => 2
  | .catalog => 3

/-- The fault kind's code (R203). -/
def faultKindCode : FaultKind → Nat
  | .segmentWriteFailed => 1
  | .eraseTimeout => 2
  | .catalogWriteFailed => 3
  | .filePageError => 4
  | .builderPageError => 5
  | .spaceExhausted => 6

/-- The finding kind's code (R202). -/
def findingKindCode : FindingKind → Nat
  | .gapFinal => 1
  | .resequenced => 2
  | .partialFile => 3
  | .segmentLost => 4
  | .segmentBad => 5
  | .tallyMismatch => 6
  | .holdLoss => 7

/-- The gap reason's code (R202). -/
def gapReasonCode : GapReason → Nat
  | .aged => 1
  | .overflow => 2
  | .retired => 3

/-! ### The carried form of a call record (R6, R201) -/

/-- Digits two to a byte, the first in the upper half; the unused half of the last byte is 0 (R201). -/
def packDigits : List Nat → List Byte
  | [] => []
  | [d] => [BitVec.ofNat 8 (d * 16)]
  | d :: e :: t => BitVec.ofNat 8 (d * 16 + e) :: packDigits t

/-- The record after its length byte, in the order of R6 (R201). -/
def recordTail (r : Record) : List Byte :=
  be 1 (kindNumber r.kind) ++ be 1 r.subscriber.length ++ packDigits r.subscriber ++
    be 3 r.start ++ be 3 r.duration ++ be 4 r.charge ++
    (match r.other with | none => [] | some ds => digitsBody ds) ++
    (match r.trunk with | none => [] | some n => be 2 n) ++
    (match r.cell with | none => [] | some n => be 4 n) ++
    (match r.volume with | none => [] | some n => be 4 n)

/-- The carried form of a record, the length byte first (R6, R201). -/
def recordBytes (r : Record) : List Byte :=
  be 1 ((recordTail r).length + 1) ++ recordTail r

/-! ### Findings (R202) -/

/-- A finding's 27 bytes (R202). -/
def findingBytes (f : Finding) : List Byte :=
  let b := f.body
  let has := fun (present : Bool) (bit : Nat) => if present then bit else 0
  be 4 f.number ++ be 1 (findingKindCode b.kind) ++ be 2 f.recorded ++
    be 1 (has b.source.isSome 1 + has b.dataDay.isSome 2 + has b.segment.isSome 4 + has b.range.isSome 8 +
      has b.pair.isSome 16 + has b.reason.isSome 32) ++
    be 2 (b.source.getD 0) ++ be 2 (b.dataDay.getD 0) ++ be 2 (b.segment.getD 0) ++
    be 2 ((b.range.map Prod.fst).getD 0) ++ be 2 ((b.range.map Prod.snd).getD 0) ++
    be 4 (min ((b.pair.map Prod.fst).getD 0) max32) ++ be 4 (min ((b.pair.map Prod.snd).getD 0) max32) ++
    be 1 ((b.reason.map gapReasonCode).getD 0)

/-! ### Frames (R200) -/

/-- The header of a frame and its body, without the check (R200). -/
def frameHead (cls kind tag status : Nat) (body : List Byte) : List Byte :=
  0xA5#8 :: be 2 (body.length + 12) ++ be 1 cls ++ be 1 kind ++ be 2 tag ++ be 1 status ++ body

/-- A frame (R200). -/
def frame (cls kind tag status : Nat) (body : List Byte) : List Byte :=
  frameHead cls kind tag status body ++ crcBody (crc32 (frameHead cls kind tag status body))

/-- The frame of a reply (R200). -/
def replyFrame (r : Reply) : List Byte :=
  frame 2 r.kind r.tag (statusCode r.status) r.body

/-- The frame of a notice: the count sent and the last subject (R202). -/
def noticeFrame (code count subject : Nat) : List Byte :=
  frame 3 code 0 0 (be 2 count ++ be 4 subject)

/-- The LINK-READY frame (R192, R200). -/
def linkReadyFrame : List Byte := frame 4 1 0 0 []

end Sys2Proof.Machine
end

