-- ==== Sys2Proof/Machine/Flags.lean ====
section
/-!
DEFINITION. Machine/Flags.lean: the Notice Set of each port: raising a line, masking, and which line is sent next
(R197).
-/

namespace Sys2Proof.Machine
open Sys2Proof

/-- The Link Interface of a port. -/
def State.link (s : State) : Port → LinkIf
  | .a => s.portA
  | .b => s.portB

/-- Write the Link Interface of a port. -/
def State.setLink (s : State) (p : Port) (l : LinkIf) : State :=
  match p with
  | .a => { s with portA := l }
  | .b => { s with portB := l }

/-- The nine notice kinds, by the code of their line (R197). -/
def noticeHalted : Nat := 1
/-- FAULT (R197). -/
def noticeFault : Nat := 2
/-- LINK-ERROR (R197). -/
def noticeLinkError : Nat := 3
/-- FILE-ABORTED (R197). -/
def noticeFileAborted : Nat := 4
/-- CURSOR-CLOSED (R197). -/
def noticeCursorClosed : Nat := 5
/-- CHECKPOINT-DONE (R197). -/
def noticeCheckpointDone : Nat := 6
/-- DAY-DONE (R197). -/
def noticeDayDone : Nat := 7
/-- HOLD-CHANGED (R197). -/
def noticeHoldChanged : Nat := 8
/-- FINDINGS-WAITING (R197). -/
def noticeFindings : Nat := 9

/-- The line of a notice code. -/
def LinkIf.line (l : LinkIf) (code : Nat) : NoticeLine := Tbl.get {} l.lines code

/-- Write the line of a notice code. -/
def LinkIf.setLine (l : LinkIf) (code : Nat) (n : NoticeLine) : LinkIf :=
  { l with lines := Tbl.set {} l.lines code n }

/-- Raise a line: its count rises by one, saturating, and its subject is replaced, whatever the mask (R197). -/
def NoticeLine.raise (n : NoticeLine) (subject : Nat) : NoticeLine :=
  { n with count := min (n.count + 1) max16, subject := some subject }

/-- Raise a notice on a port (R197). -/
def raiseOn (p : Port) (code subject : Nat) (s : State) : State :=
  s.setLink p ((s.link p).setLine code (((s.link p).line code).raise subject))

/-- Raise a notice on both ports (R197). -/
def raiseBoth (code subject : Nat) (s : State) : State :=
  raiseOn .b code subject (raiseOn .a code subject s)

/-- The line is pending and enabled (R197). -/
def NoticeLine.offered (n : NoticeLine) : Bool := decide (0 < n.count) && !n.masked

/-- The enabled pending line to be served next: the first in the order of the Notice Set table (R195). -/
def LinkIf.nextNotice (l : LinkIf) : Option Nat :=
  [1, 2, 3, 4, 5, 6, 7, 8, 9].find? (fun c => (l.line c).offered)

/-- A notice frame sent: the count is reduced by the count sent (R197). -/
def NoticeLine.sent (n : NoticeLine) (count : Nat) : NoticeLine :=
  { n with count := n.count - count }

end Sys2Proof.Machine
end

