-- ==== Sys2Proof/Machine/Ports.lean ====
section
/-!
DEFINITION. Machine/Ports.lean: replies, the transmitter, and how a request is taken (R192 to R197).
-/

namespace Sys2Proof.Machine
open Sys2Proof

/-! ### The transmitter (R195) -/

/-- Begin to send the oldest waiting reply. `turn`: whether a reply is next after it while both wait. -/
def LinkIf.sendReply (l : LinkIf) : LinkIf :=
  match l.replies with
  | [] => l
  | r :: rest =>
    { l with replies := rest, sending := some (.reply r), replyTurn := false, frames := l.frames ++ [replyFrame r] }

/-- Begin to send the notice of a line, with its count and last subject as they stand. -/
def LinkIf.sendNotice (l : LinkIf) (code : Nat) : LinkIf :=
  let n := l.line code
  let subject := n.subject.getD 0
  { l with
    sending := some (.notice code n.count subject)
    replyTurn := !l.replies.isEmpty
    frames := l.frames ++ [noticeFrame code n.count subject] }

/-- At a frame boundary on an UP link, begin the next frame: while replies and enabled pending lines both wait they
alternate, beginning with a notice (R195). -/
def LinkIf.transmit (l : LinkIf) : LinkIf :=
  if l.up && l.sending.isNone then
    match l.nextNotice with
    | none => l.sendReply
    | some code => if l.replyTurn && !l.replies.isEmpty then l.sendReply else l.sendNotice code
  else l

/-- A frame boundary on both ports. -/
def transmitBoth (s : State) : State :=
  { s with portA := s.portA.transmit, portB := s.portB.transmit }

/-- Forget the frames begun at the command before. -/
def clearFrames (s : State) : State :=
  { s with portA := { s.portA with frames := [] }, portB := { s.portB with frames := [] } }

/-- One command: `f` is everything it does inside the part; then each idle transmitter begins its next frame. -/
def turn (f : State → State) (s : State) : Result State :=
  .next (transmitBoth (f (clearFrames s)))

/-! ### Replies (R195) -/

/-- Hand a reply to a port's transmitter, which keeps waiting replies in the order they were produced. -/
def pushReply (p : Port) (r : Reply) (s : State) : State :=
  s.setLink p { s.link p with replies := (s.link p).replies ++ [r] }

/-- The request still stands: no Link Reset has discarded it (R195, log 26). -/
def State.isLive (s : State) (r : ReqRef) : Bool := decide ((s.link r.port).epoch = r.epoch)

/-- Answer a request; the reply to a discarded one is dropped (R195). -/
def answer (r : ReqRef) (st : Status) (body : List Byte) (s : State) : State :=
  if s.isLive r then
    pushReply r.port { kind := r.kind, tag := r.tag, status := st, body := body, entered := true } s
  else s

/-- Refuse a request: a reply without a body. -/
def refuse (r : ReqRef) (st : Status) (s : State) : State := answer r st [] s

/-- Answer every request of a list alike, in order. -/
def answerAll (rs : List ReqRef) (st : Status) (body : List Byte) (s : State) : State :=
  rs.foldl (fun t r => answer r st body t) s

/-! ### Requests (R194) -/

/-- A reply to a request refused before it is entered (R194). -/
def bounce (p : Port) (tag kind : Nat) (st : Status) (s : State) : State :=
  pushReply p { kind := kind, tag := tag, status := st, body := [], entered := false } s

/-- Some entry of the list holds the tag (R194). -/
def LinkIf.holdsTag (l : LinkIf) (tag : Nat) : Bool := l.outstanding.any (fun o => o.tag == tag)

/-- Enter a request in the outstanding-request list (R194). -/
def enter (p : Port) (tag kind : Nat) (s : State) : State :=
  s.setLink p { s.link p with outstanding := (s.link p).outstanding ++ [{ tag := tag, kind := kind }] }

/-- The request just taken, as the block that owns its kind knows it. -/
def reqOf (p : Port) (tag kind : Nat) (s : State) : ReqRef :=
  { port := p, tag := tag, kind := kind, epoch := (s.link p).epoch }

/-- Which ports the table of requests allows for a kind. -/
inductive Rights
  | aOnly
  | bOnly
  | both
  deriving DecidableEq, Repr

/-- The table allows the kind on the port. -/
def Rights.allows : Rights → Port → Bool
  | .aOnly, .a => true
  | .bOnly, .b => true
  | .both, _ => true
  | _, _ => false

/-- Take a request frame of a known kind: on a DOWN link nothing is taken (R192); then the checks of R194 in order;
a request that passes is entered and handed to the block that owns its kind. -/
def takeRequest (p : Port) (tag kind : Nat) (rights : Rights) (act : ReqRef → State → State) (s : State) : State :=
  if !(s.link p).up then s
  else if (s.link p).holdsTag tag then bounce p tag kind .tagInUse s
  else if Config.outstanding ≤ (s.link p).outstanding.length then bounce p tag kind .windowFull s
  else if !rights.allows p then bounce p tag kind .notPermitted s
  else act (reqOf p tag kind s) (enter p tag kind s)

/-- A request as a command. -/
def request (p : Port) (tag kind : Nat) (rights : Rights) (act : ReqRef → State → State) (s : State) :
    Result State :=
  turn (takeRequest p tag kind rights act) s

/-- A list of checks in order: the first that fails gives the refusal (each chapter's tables). -/
def firstRefusal : List (Bool × Status) → Option Status
  | [] => none
  | (ok, st) :: rest => if ok then firstRefusal rest else some st

/-- Answer by a table of checks, and act when every check passes. -/
def checked (r : ReqRef) (checks : List (Bool × Status)) (act : State → State) (s : State) : State :=
  match firstRefusal checks with
  | some st => refuse r st s
  | none => act s

/-- The part is not HALTED. -/
def State.notHalted (s : State) : Bool := decide (s.cat.archive ≠ .halted)

/-- The archive state is SERVICE. -/
def State.inService (s : State) : Bool := decide (s.cat.archive = .service)

/-- Neither compaction nor the catalog is STOPPED. -/
def State.enginesUp (s : State) : Bool := !s.comp.stopped && decide (s.cat.state ≠ .stopped)

/-- The checks most tables begin with, after the port: part not HALTED, archive state SERVICE. -/
def State.serviceChecks (s : State) : List (Bool × Status) :=
  [(s.notHalted, .halted), (s.inService, .wrongState)]

/-- The checks a catalog request begins with, after the port (for example R10): not HALTED, SERVICE, and neither
compaction nor the catalog STOPPED. -/
def State.catalogChecks (s : State) : List (Bool × Status) :=
  s.serviceChecks ++ [(s.enginesUp, .wrongState)]

end Sys2Proof.Machine
end

