-- ==== Sys2Proof/Machine/Records.lean ====
section
/-!
DEFINITION. Machine/Records.lean: the profile's fields, the length rule and validation of call records, and how records
are cut from a file's bytes (R1 to R8).
-/

namespace Sys2Proof.Machine
open Sys2Proof

/-- The profile names other party and trunk group (R4). -/
def hasParty : Profile → Bool
  | .p2 => true
  | .p4 => true
  | _ => false

/-- The profile names the cell, and on DATA the volume (R4). -/
def hasCell : Profile → Bool
  | .p3 => true
  | .p4 => true
  | _ => false

/-- Carried size of a digit string of the subscriber: its count byte and half a byte per digit, rounded up (R6). -/
def subscriberSize (digits : Nat) : Nat := 1 + (digits + 1) / 2

/-- The required length of a record, from its digit counts (R6). -/
def requiredLength (p : Profile) (isData : Bool) (digits otherDigits : Nat) : Nat :=
  12 + subscriberSize digits +
    (if hasParty p then 1 + otherDigits + 2 else 0) +
    (if hasCell p then 4 + (if isData then 4 else 0) else 0)

/-- The seven reasons of rejection (R7). -/
inductive RejectReason
  | badLength
  | unknownKind
  | badSubscriber
  | badOtherParty
  | volumeNotData
  | badStart
  | badDuration
  deriving DecidableEq, Repr

/-- Byte `i` of a record, as a number. -/
def byteAt (bs : List Byte) (i : Nat) : Nat := (bs.getD i 0#8).toNat

/-- A number of `n` bytes at position `i`, most significant byte first. -/
def numAt (bs : List Byte) (i : Nat) : Nat → Nat
  | 0 => 0
  | n + 1 => byteAt bs i * 256 ^ n + numAt bs (i + 1) n

/-- Digit `k` of the subscriber: the first digit is the upper half of byte 3 (R201). -/
def subscriberDigit (bs : List Byte) (k : Nat) : Nat :=
  if k % 2 = 0 then byteAt bs (3 + k / 2) / 16 else byteAt bs (3 + k / 2) % 16

/-- The subscriber's digits (R201). -/
def subscriberDigits (bs : List Byte) : List Nat :=
  (List.range (byteAt bs 2)).map (subscriberDigit bs)

/-- Where the start second stands (R6). -/
def startAt (bs : List Byte) : Nat := 2 + subscriberSize (byteAt bs 2)

/-- Where the other party's digit count stands (R6). -/
def partyAt (bs : List Byte) : Nat := startAt bs + 10

/-- The other party's digits (R201). -/
def partyDigits (bs : List Byte) : List Nat :=
  (List.range (byteAt bs (partyAt bs))).map (fun k => byteAt bs (partyAt bs + 1 + k))

/-- Where the cell stands: after trunk group, when the profile has one (R6). -/
def cellAt (p : Profile) (bs : List Byte) : Nat :=
  if hasParty p then partyAt bs + 1 + byteAt bs (partyAt bs) + 2 else partyAt bs

/-- The field values of a record's bytes under a profile (R1, R6). -/
def readRecord (p : Profile) (kind : RecordKind) (bs : List Byte) : Record :=
  { kind := kind
    subscriber := subscriberDigits bs
    start := numAt bs (startAt bs) 3
    duration := numAt bs (startAt bs + 3) 3
    charge := numAt bs (startAt bs + 6) 4
    other := if hasParty p then some (partyDigits bs) else none
    trunk := if hasParty p then some (numAt bs (partyAt bs + 1 + byteAt bs (partyAt bs)) 2) else none
    cell := if hasCell p then some (numAt bs (cellAt p bs) 4) else none
    volume := if hasCell p && decide (kind = .data) then some (numAt bs (cellAt p bs + 4) 4) else none }

/-- Validation: the eleven checks of R7 in order; the first that fails gives the reason. -/
def validate (p : Profile) (bs : List Byte) : Except RejectReason Record :=
  let len := byteAt bs 0
  if len < 16 ∨ 52 < len then .error .badLength
  else match kindOfNumber (byteAt bs 1) with
  | none => .error .unknownKind
  | some kind =>
    let digits := byteAt bs 2
    let required := requiredLength p (kind = .data) digits (byteAt bs (partyAt bs))
    if digits < 5 ∨ 15 < digits then .error .badSubscriber
    else if hasParty p ∧ len ≤ partyAt bs then .error .badLength
    else if hasParty p ∧ 20 < byteAt bs (partyAt bs) then .error .badOtherParty
    else if hasCell p ∧ kind ≠ .data ∧ len = required + 4 then .error .volumeNotData
    else if len ≠ required then .error .badLength
    else if (subscriberDigits bs).any (fun d => 9 < d) then .error .badSubscriber
    else if hasParty p ∧ (partyDigits bs).any (fun d => 9 < d) then .error .badOtherParty
    else if 86399 < numAt bs (startAt bs) 3 then .error .badStart
    else if 86400 < numAt bs (startAt bs + 3) 3 then .error .badDuration
    else .ok (readRecord p kind bs)

/-- Count a rejection (R8). -/
def Rejects.add (r : Rejects) : RejectReason → Rejects
  | .badLength => { r with badLength := r.badLength + 1 }
  | .unknownKind => { r with unknownKind := r.unknownKind + 1 }
  | .badSubscriber => { r with badSubscriber := r.badSubscriber + 1 }
  | .badOtherParty => { r with badOtherParty := r.badOtherParty + 1 }
  | .volumeNotData => { r with volumeNotData := r.volumeNotData + 1 }
  | .badStart => { r with badStart := r.badStart + 1 }
  | .badDuration => { r with badDuration := r.badDuration + 1 }

/-- The sum of the rejection counts (R8). -/
def Rejects.sum (r : Rejects) : Nat :=
  r.badLength + r.unknownKind + r.badSubscriber + r.badOtherParty + r.volumeNotData + r.badStart + r.badDuration

/-- Judge one whole record of the file a slot receives (R8). -/
def IntakeSlot.judge (p : Profile) (f : IntakeSlot) (bs : List Byte) : IntakeSlot :=
  match validate p bs with
  | .ok r => { f with seen := f.seen + 1, accepted := f.accepted + 1, records := f.records ++ [r] }
  | .error e => { f with seen := f.seen + 1, rejects := f.rejects.add e }

/-- Take one byte of the file: it begins a record or goes on with the one begun; a length byte of 0 is a record of
one byte (R5). -/
def IntakeSlot.takeByte (p : Profile) (f : IntakeSlot) (b : Byte) : IntakeSlot :=
  let bs := f.begun ++ [b]
  if byteAt bs 0 ≤ bs.length then ({ f with begun := [] }).judge p bs
  else { f with begun := bs }

/-- Take the bytes of a chunk (R5, R40). -/
def IntakeSlot.takeBytes (p : Profile) (f : IntakeSlot) (bs : List Byte) : IntakeSlot :=
  bs.foldl (IntakeSlot.takeByte p) f

end Sys2Proof.Machine
end

