-- ==== Sys2Proof/Machine/Ops.lean ====
section
/-!
DEFINITION. Machine/Ops.lean: reading and writing the tables of the part, and the shared acts of the Day Tally, the
intake pages, the Findings Log, the release test and the shared-code counts.
-/

namespace Sys2Proof.Machine
open Sys2Proof

/-! ### Tables of the state -/

/-- A Segment Directory entry (R81). -/
def State.entry (s : State) (e : Nat) : DirEntry := Tbl.get {} s.media.dir e

/-- Write a Segment Directory entry. -/
def State.setEntry (s : State) (e : Nat) (v : DirEntry) : State :=
  { s with media := { s.media with dir := Tbl.set {} s.media.dir e v } }

/-- A channel (R92). -/
def State.channel (s : State) (c : Nat) : Channel := Tbl.get {} s.media.channels c

/-- Write a channel. -/
def State.setChannel (s : State) (c : Nat) (v : Channel) : State :=
  { s with media := { s.media with channels := Tbl.set {} s.media.channels c v } }

/-- The state of a slot of a channel (R88). -/
def Channel.slot (ch : Channel) (k : Nat) : SlotState := Tbl.get ch.rest ch.slots k

/-- Write the state of a slot of a channel. -/
def Channel.setSlot (ch : Channel) (k : Nat) (v : SlotState) : Channel :=
  { ch with slots := Tbl.set ch.rest ch.slots k v }

/-- The state of a slot (R88). -/
def State.slotState (s : State) (r : SlotRef) : SlotState := (s.channel r.channel).slot r.slot

/-- Write the state of a slot. -/
def State.setSlotState (s : State) (r : SlotRef) (v : SlotState) : State :=
  s.setChannel r.channel ((s.channel r.channel).setSlot r.slot v)

/-- The mode in force of a channel (R92). -/
def Channel.mode (ch : Channel) : ChanMode := if ch.present then ch.setMode else .offline

/-- What a slot holds as the part left it (log 8). -/
def State.flashAt (s : State) (c k : Nat) : SlotContent :=
  Tbl.get .unknown s.media.flash (c * Config.slotsPerChannel + k)

/-- Record what a slot holds. -/
def State.setFlash (s : State) (c k : Nat) (v : SlotContent) : State :=
  { s with media := { s.media with
      flash := Tbl.set .unknown s.media.flash (c * Config.slotsPerChannel + k) v } }

/-- A Segment Builder (R60). -/
def State.builder (s : State) (b : Nat) : Builder := Tbl.get {} s.comp.builders b

/-- Write a Segment Builder. -/
def State.setBuilder (s : State) (b : Nat) (v : Builder) : State :=
  { s with comp := { s.comp with builders := Tbl.set {} s.comp.builders b v } }

/-- A shared code (R73). -/
def State.code (s : State) (c : Nat) : SharedCode := Tbl.get {} s.comp.codes c

/-- Write a shared code. -/
def State.setCode (s : State) (c : Nat) (v : SharedCode) : State :=
  { s with comp := { s.comp with codes := Tbl.set {} s.comp.codes c v } }

/-- A source (R13). -/
def State.source (s : State) (n : Nat) : SourceEntry := Tbl.get {} s.intake.sources n

/-- Write a source. -/
def State.setSource (s : State) (n : Nat) (v : SourceEntry) : State :=
  { s with intake := { s.intake with sources := Tbl.set {} s.intake.sources n v } }

/-- An Intake Slot (R34). -/
def State.intakeSlot (s : State) (k : Nat) : IntakeSlot := Tbl.get {} s.intake.slots k

/-- Write an Intake Slot. -/
def State.setIntakeSlot (s : State) (k : Nat) (v : IntakeSlot) : State :=
  { s with intake := { s.intake with slots := Tbl.set {} s.intake.slots k v } }

/-- A retention class (R105). -/
def State.retClass (s : State) (c : Nat) : ClassEntry := Tbl.get {} s.ret.classes c

/-- Write a retention class. -/
def State.setRetClass (s : State) (c : Nat) (v : ClassEntry) : State :=
  { s with ret := { s.ret with classes := Tbl.set {} s.ret.classes c v } }

/-- A hold (R123). -/
def State.hold (s : State) (h : Nat) : Hold := Tbl.get {} s.ret.holds h

/-- Write a hold. -/
def State.setHold (s : State) (h : Nat) (v : Hold) : State :=
  { s with ret := { s.ret with holds := Tbl.set {} s.ret.holds h v } }

/-- A cursor (R156). -/
def State.cursor (s : State) (c : Nat) : Cursor := Tbl.get {} s.cursors c

/-- Write a cursor. -/
def State.setCursor (s : State) (c : Nat) (v : Cursor) : State :=
  { s with cursors := Tbl.set {} s.cursors c v }

/-- The Day Counter (R101). -/
def State.today (s : State) : Nat := s.ret.today

/-- The lookback in force (R175). -/
def State.lookback (s : State) : Nat := s.cat.params.lookback

/-! ### The Day Tally (R52 to R55) -/

/-- The index of a key: in ascending order of day and, within a day, of source (R148). -/
def tallyIndex (source day : Nat) : Nat := day * Config.sources + source

/-- The source of a tally index. -/
def tallySource (i : Nat) : Nat := i % Config.sources

/-- The day of a tally index. -/
def tallyDay (i : Nat) : Nat := i / Config.sources

/-- The tally entry of a key, if one exists (R52). -/
def State.tallyEntry (s : State) (source day : Nat) : Option TallyEntry :=
  Tbl.find s.intake.tally (tallyIndex source day)

/-- Write the tally entry of a key. -/
def State.setTally (s : State) (source day : Nat) (v : TallyEntry) : State :=
  { s with intake := { s.intake with tally := Tbl.put s.intake.tally (tallyIndex source day) v } }

/-- Change the tally entry of a key where one exists. -/
def State.changeTally (s : State) (source day : Nat) (f : TallyEntry → TallyEntry) : State :=
  match s.tallyEntry source day with
  | none => s
  | some t => s.setTally source day (f t)

/-- The closing test: an OPEN entry whose day is earlier than today − lookback and which has no file in flight becomes
CLOSED (R55). -/
def closingTest (today lookback day : Nat) (t : TallyEntry) : TallyEntry :=
  if t.state = .opened ∧ day + lookback < today ∧ t.inFlight = 0 then { t with state := .closed } else t

/-- One file of the key is no longer in flight; at 0 the entry is tested (R55). -/
def leaveFlight (source day : Nat) (s : State) : State :=
  s.changeTally source day (fun t => closingTest s.today s.lookback day { t with inFlight := t.inFlight - 1 })

/-- A saturating count (R52). -/
def satAdd (a b : Nat) : Nat := min (a + b) max32

/-- A file ACCEPTED (R54). -/
def tallyAccept (t : TallyEntry) (declared accepted rejected : Nat) : TallyEntry :=
  { t with
    filesAccepted := satAdd t.filesAccepted 1
    declared := satAdd t.declared declared
    recordsAccepted := satAdd t.recordsAccepted accepted
    recordsRejected := satAdd t.recordsRejected rejected }

/-- A file refused at close or by overrun (R54). -/
def tallyRefuse (t : TallyEntry) (declared : Nat) : TallyEntry :=
  { t with filesRefused := satAdd t.filesRefused 1, declared := satAdd t.declared declared }

/-- Records abandoned (R54). -/
def tallyReduce (t : TallyEntry) (n : Nat) : TallyEntry :=
  { t with recordsAccepted := t.recordsAccepted - n }

/-! ### Intake Slots leaving their file (R47 to R51) -/

/-- The slot becomes IDLE and gives up every field; it no longer closes. -/
def clearSlot (k : Nat) (s : State) : State :=
  let t := s.setIntakeSlot k {}
  { t with intake := { t.intake with closing := t.intake.closing.filter (fun j => j != k) } }

/-- Return pages to the free intake pages (R57). -/
def freePages (n : Nat) (s : State) : State :=
  { s with intake := { s.intake with freePages := s.intake.freePages + n } }

/-- Abort a file: the slot becomes IDLE, its pages are freed, and its files in flight falls by one (R49). -/
def abortSlot (k : Nat) (s : State) : State :=
  let f := s.intakeSlot k
  leaveFlight f.source f.day (freePages f.pages (clearSlot k s))

/-- Refuse a file at close or by overrun: counted as refused, and then as an abort (R47, R42). -/
def refuseFile (k : Nat) (s : State) : State :=
  let f := s.intakeSlot k
  abortSlot k (s.changeTally f.source f.day (fun t => tallyRefuse t f.declaredRecords))

/-! ### The Findings Log (R138, R140) -/

/-- Free places of the log (R138). -/
def State.freePlaces (s : State) : Nat :=
  if Config.findingNumbers ≤ s.audit.next then 0 else Config.findings - s.audit.findings.length

/-- Write a finding where the log has a free place; with none, nothing is written (R140). -/
def writeFinding (b : FindingBody) (s : State) : State :=
  if s.freePlaces = 0 then s
  else
    let n := s.audit.next
    raiseBoth noticeFindings n
      { s with audit := { s.audit with
          findings := s.audit.findings ++ [{ number := n, recorded := s.today, body := b }], next := n + 1 } }

/-- The GAP-FINAL finding of a gap record (R24). -/
def gapFinal (source : Nat) (reason : GapReason) (g : GapRecord) : FindingBody :=
  { kind := .gapFinal, source := some source, dataDay := some g.day, range := some (g.first, g.last),
    reason := some reason }

/-- Export gap records as GAP-FINAL findings, in list order (R24). Where the finding numbers run out partway, the records
left over leave the list all the same and no finding is written for them: the book's room check counts places alone
(log 32). -/
def exportGaps (source : Nat) (reason : GapReason) (gs : List GapRecord) (s : State) : State :=
  gs.foldl (fun t g => writeFinding (gapFinal source reason g) t) s

/-! ### Ageing (R25) -/

/-- The day before which a record is aged: today − lookback; none is while that is below 0 (R25). -/
def State.ageLine (s : State) : Nat := s.today - s.lookback

/-- The record is aged (R25). -/
def isAged (line : Nat) (g : GapRecord) : Bool := decide (g.day < line)

/-- Some gap record is aged before a day (R25). -/
def State.hasAged (s : State) (line : Nat) : Bool := s.intake.sources.any (fun e => e.2.gaps.any (isAged line))

/-- The ageings kept are those that left a record, the present one with them where it reaches a later day (R25). -/
def keepAgeing (line : Nat) (s : State) : State :=
  let lines := if s.intake.ageings.all (fun h => decide (h < line)) then s.intake.ageings ++ [line] else s.intake.ageings
  { s with intake := { s.intake with ageings := lines.filter s.hasAged } }

/-! ### The release test and the shared-code counts (R30, R74) -/

/-- Every directory entry keyed to the source is FREE and no tally entry names it (R30). -/
def State.released (s : State) (source : Nat) : Bool :=
  s.media.dir.all (fun e => e.2.source != source || e.2.state = .free) &&
    s.intake.tally.all (fun t => tallySource t.1 != source)

/-- The release test, applied to a RETIRED source (R30). -/
def releaseTest (source : Nat) (s : State) : State :=
  if (s.source source).state = .retired && s.released source then s.setSource source {} else s

/-- One entry less holds the code; a RETIRED code at 0 becomes EMPTY (R74). -/
def dropUse (c : SharedCode) : SharedCode :=
  if c.state = .retired ∧ c.count ≤ 1 then {} else { c with count := c.count - 1 }

/-- A directory entry becomes FREE: every field but its state becomes absent, and the count of each shared code of its
used set falls by one (R82, R74). -/
def freeEntry (e : Nat) (s : State) : State :=
  let used := (s.entry e).used
  used.foldl (fun t c => t.setCode c (dropUse (t.code c))) (s.setEntry e {})

/-- A directory entry becomes FREE, and its source is tested (R30). -/
def freeEntryAndTest (e : Nat) (s : State) : State :=
  releaseTest (s.entry e).source (freeEntry e s)

end Sys2Proof.Machine
end

