-- ==== Sys2Proof/Machine/Encoding.lean ====
section
/-!
DEFINITION. Machine/Encoding.lean: how a record is coded for a builder, the bytes it takes, and how the records of a
payload are decoded (R4, R9, R63 to R65, R147).
-/

namespace Sys2Proof.Machine
open Sys2Proof

/-! ### Codes (R64) -/

/-- The codes a segment has in use: its used set of shared codes, its dynamic list, and the list cost of the dynamic codes
made for the record in hand. -/
structure Codes where
  used : List Nat
  dyn  : List CodeValue
  cost : Nat := 0
  deriving DecidableEq, Repr

/-- The list cost of a dynamic code (R64). -/
def codeCost : CodeValue → Nat
  | .cell _ => 5
  | .trunk _ => 3
  | .pfx _ => 4

/-- The number of the first dynamic code (R64). -/
def firstDynamic : Nat := 16

/-- The DEFINED shared code that holds a field and value (R64 case 1). -/
def sharedCodeFor (codes : Tbl SharedCode) (v : CodeValue) : Option Nat :=
  (List.range firstDynamic).find? (fun c =>
    decide ((Tbl.get {} codes c).state = .defined) && decide ((Tbl.get {} codes c).value = some v))

/-- The code a value is written under, by the first case of R64 that applies; none where it is written literal. -/
def codeFor (codes : Tbl SharedCode) (v : CodeValue) (c : Codes) : Option Nat × Codes :=
  match sharedCodeFor codes v with
  | some k => (some k, { c with used := insertRising k c.used })
  | none =>
    match c.dyn.idxOf? v with
    | some i => (some (firstDynamic + i), c)
    | none =>
      if c.dyn.length < Config.dynamicCodes then
        (some (firstDynamic + c.dyn.length), { c with dyn := c.dyn ++ [v], cost := c.cost + codeCost v })
      else (none, c)

/-- The digits of a prefix (R64). -/
def pfxDigits : Nat := 6

/-- Code the other party: by its prefix of six digits when it has as many, and otherwise literal (R63, R64). -/
def codeParty (codes : Tbl SharedCode) (other : Option (List Nat)) (c : Codes) : Option CodedParty × Codes :=
  match other with
  | none => (none, c)
  | some ds =>
    if ds.length < pfxDigits then (some (.literal ds), c)
    else
      match codeFor codes (.pfx (ds.take pfxDigits)) c with
      | (some k, d) => (some (.code k (ds.drop pfxDigits)), d)
      | (none, d) => (some (.literal ds), d)

/-- Code a trunk group or a cell, given as the value `make` forms (R63, R64). -/
def codeNum (codes : Tbl SharedCode) (make : Nat → CodeValue) (value : Option Nat) (c : Codes) :
    Option CodedNum × Codes :=
  match value with
  | none => (none, c)
  | some n =>
    match codeFor codes (make n) c with
    | (some k, d) => (some (.code k), d)
    | (none, d) => (some (.literal n), d)

/-! ### Sizes (R63) -/

/-- Bytes of a start-second difference (R63). -/
def startBytes (d : Int) : Nat :=
  if -64 ≤ d ∧ d ≤ 63 then 1 else if -8192 ≤ d ∧ d ≤ 8191 then 2 else 3

/-- Bytes of a duration (R63). -/
def durationBytes (v : Nat) : Nat := if v ≤ 127 then 1 else if v ≤ 16383 then 2 else 3

/-- Bytes of charge units or of a volume (R63). -/
def chargeBytes (v : Nat) : Nat :=
  if v ≤ 127 then 1 else if v ≤ 16383 then 2 else if v ≤ 2097151 then 3 else if v ≤ 268435455 then 4 else 5

/-- Bytes of an other party (R63). -/
def partyBytes : CodedParty → Nat
  | .code _ rest => 2 + (rest.length + 1) / 2
  | .literal ds => 1 + (ds.length + 1) / 2

/-- Bytes of a trunk group or a cell, whose literal form takes `literal` (R63). -/
def numBytes (literal : Nat) : CodedNum → Nat
  | .code _ => 1
  | .literal _ => literal

/-- Bytes of an encoded record, after one that started in the second `previous` (R63). -/
def codedBytes (previous : Nat) (r : CodedRecord) : Nat :=
  1 + (1 + (r.subscriber.length + 1) / 2) + startBytes ((r.start : Int) - (previous : Int)) +
    durationBytes r.duration + chargeBytes r.charge + (r.other.map partyBytes).getD 0 +
    (r.trunk.map (numBytes 2)).getD 0 + (r.cell.map (numBytes 4)).getD 0 + (r.volume.map chargeBytes).getD 0

/-! ### Encoding for a builder (R59, R65) -/

/-- What encoding one record does to its builder: the record in its coded form, the used set and the dynamic list after
it, the bytes of the record and the list cost of the codes it makes. -/
structure Coding where
  record : CodedRecord
  used   : List Nat
  dyn    : List CodeValue
  bytes  : Nat
  cost   : Nat
  deriving DecidableEq, Repr

/-- The start second of the builder's previous record, 0 for its first (R63). -/
def previousStart (b : Builder) : Nat :=
  match b.records.getLast? with
  | none => 0
  | some r => r.start

/-- A record with its coded fields given. -/
def codedRecord (r : Record) (other : Option CodedParty) (trunk cell : Option CodedNum) : CodedRecord :=
  { kind := r.kind, subscriber := r.subscriber, start := r.start, duration := r.duration, charge := r.charge,
    other := other, trunk := trunk, cell := cell, volume := r.volume }

/-- Encode a record for a builder: its coded fields in the order of R63 (log 18). -/
def encodeRecord (codes : Tbl SharedCode) (b : Builder) (r : Record) : Coding :=
  let party := codeParty codes r.other { used := b.used, dyn := b.dyn }
  let trunk := codeNum codes .trunk r.trunk party.2
  let cell := codeNum codes .cell r.cell trunk.2
  let record := codedRecord r party.1 trunk.1 cell.1
  { record := record, used := cell.2.used, dyn := cell.2.dyn, bytes := codedBytes (previousStart b) record,
    cost := cell.2.cost }

/-- The record fits (R65). -/
def recordFits (codes : Tbl SharedCode) (b : Builder) (r : Record) : Bool :=
  decide (b.records.length < Config.recordLimit) &&
    decide (b.bytesUsed + (encodeRecord codes b r).bytes + (encodeRecord codes b r).cost ≤ Config.payloadLimit)

/-- The contents of the builder's segment (R63). -/
def segmentOf (b : Builder) : SegmentContents :=
  { source := b.source, day := b.day, span := b.span, used := b.used, dyn := b.dyn, records := b.records }

/-- The payload the builder's write leaves on the flash: its bytes are a free value (log 5). -/
def payloadOf (b : Builder) : Payload :=
  { crc := crc32 (Config.payloadBytes (segmentOf b)), dyn := b.dyn, records := b.records }

/-! ### Decoding (R9, R147) -/

/-- The value a code stands for in a segment: a shared code of the entry's used set as the Shared Code Table holds it, or
a dynamic code of the payload's list (R147). -/
def codeValue (codes : Tbl SharedCode) (used : List Nat) (dyn : List CodeValue) (k : Nat) : Option CodeValue :=
  if k < firstDynamic then (if used.contains k then (Tbl.get {} codes k).value else none) else dyn[k - firstDynamic]?

/-- An other party from its coded form; a code of another field gives none (log 33). -/
def decodeParty (value : Nat → Option CodeValue) : CodedParty → Option (List Nat)
  | .literal ds => some ds
  | .code k rest =>
    match value k with
    | some (.pfx ds) => some (ds ++ rest)
    | _ => none

/-- A trunk group from its coded form; a code of another field gives none (log 33). -/
def decodeTrunk (value : Nat → Option CodeValue) : CodedNum → Option Nat
  | .literal n => some n
  | .code k =>
    match value k with
    | some (.trunk n) => some n
    | _ => none

/-- A cell from its coded form; a code of another field gives none (log 33). -/
def decodeCell (value : Nat → Option CodeValue) : CodedNum → Option Nat
  | .literal n => some n
  | .code k =>
    match value k with
    | some (.cell n) => some n
    | _ => none

/-- Decode an optional field: an absent one is absent, and one that cannot be decoded gives none. -/
def decodeField {α β : Type} (f : α → Option β) : Option α → Option (Option β)
  | none => some none
  | some v => (f v).map some

/-- The optional fields of a coded record are those a profile names for its kind; NONE names no optional field (R4,
log 40). -/
def fieldsNamed (f : Profile) (r : CodedRecord) : Bool :=
  (r.other.isSome == hasParty f) && (r.trunk.isSome == hasParty f) && (r.cell.isSome == hasCell f) &&
    (r.volume.isSome == (hasCell f && decide (r.kind = .data)))

/-- The fields of a coded record brought back; none when it names a code that stands for nothing (R147). -/
def decodeFields (value : Nat → Option CodeValue) (r : CodedRecord) : Option Record :=
  match decodeField (decodeParty value) r.other, decodeField (decodeTrunk value) r.trunk,
      decodeField (decodeCell value) r.cell with
  | some other, some trunk, some cell =>
    some { kind := r.kind, subscriber := r.subscriber, start := r.start, duration := r.duration, charge := r.charge,
           other := other, trunk := trunk, cell := cell, volume := r.volume }
  | _, _, _ => none

/-- Decode one record under the profile in force; one that carries a field the profile does not name, or lacks one that
it names, cannot be decoded (R4, R147, log 40). -/
def decodeRecord (f : Profile) (value : Nat → Option CodeValue) (r : CodedRecord) : Option Record :=
  if fieldsNamed f r then decodeFields value r else none

/-- Decode the records that follow `offset` bytes of a payload of `limit` bytes; a record whose head or fields run past
the payload bytes cannot be decoded (R147). -/
def decodeFrom (f : Profile) (value : Nat → Option CodeValue) (limit : Nat) :
    Nat → Nat → List CodedRecord → List (Option Record)
  | _, _, [] => []
  | offset, previous, r :: rest =>
    let next := offset + codedBytes previous r
    (if next ≤ limit then decodeRecord f value r else none) :: decodeFrom f value limit next r.start rest

/-- Bytes of a segment's header (R63). -/
def headerBytes : Nat := 32

/-- The records of a payload read for an entry, each decoded where it can be: under the profile in force, with the entry's
payload bytes and used set, the payload's dynamic list, and the Shared Code Table as it stands (R4, R147). -/
def decodePayload (f : Profile) (codes : Tbl SharedCode) (v : DirEntry) (p : Payload) : List (Option Record) :=
  decodeFrom f (codeValue codes v.used p.dyn) v.payloadBytes (headerBytes + (p.dyn.map codeCost).sum) 0 p.records

/-- Records decoded from a payload, in order up to the first that cannot be decoded; none from a failed read (R147). -/
def decodedCount (f : Profile) (codes : Tbl SharedCode) (v : DirEntry) (p : Option Payload) : Nat :=
  match p with
  | none => 0
  | some p => ((decodePayload f codes v p).takeWhile Option.isSome).length

end Sys2Proof.Machine
end

