-- ==== Sys2Proof/Machine/FaultOps.lean ====
section
/-!
DEFINITION. Machine/FaultOps.lean: answering the waiters of a checkpoint, abandoning it, stopping an engine, raising a
fault and entering HALTED (R48, R104, R169, R170, R183 to R185, R191).
-/

namespace Sys2Proof.Machine
open Sys2Proof

/-! ### Waiters of a checkpoint -/

/-- Answer one waiter: OK when its checkpoint completed, and NOT-DURABLE when it was abandoned or failed; DAY-DONE is
raised as the reply of an ADVANCE-DAY is produced (R104, R169). -/
def answerWaiter (done : Bool) (w : Waiter) (s : State) : State :=
  let body := if done then (if w.number then be 4 s.cat.last else w.okBody) else w.failBody
  let t := match w.req with
    | none => s
    | some r => answer r (if done then .ok else .notDurable) body s
  match w.dayDone with
  | none => t
  | some d => raiseBoth noticeDayDone d t

/-- Answer waiters in the order they joined (log 52). -/
def answerWaiters (done : Bool) (ws : List Waiter) (s : State) : State :=
  ws.foldl (fun t w => answerWaiter done w t) s

/-- The checkpoint in progress is abandoned: the catalog becomes IDLE and every current waiter is answered NOT-DURABLE
(R170). -/
def abandonCheckpoint (s : State) : State :=
  answerWaiters false s.cat.waiters { s with cat := { s.cat with state := .idle, waiters := [] } }

/-! ### Engines -/

/-- Compaction becomes STOPPED; a checkpoint QUIESCING is abandoned (R70, R170). -/
def stopCompaction (s : State) : State :=
  let t := { s with comp := { s.comp with stopped := true } }
  if t.cat.state = .quiescing then abandonCheckpoint t else t

/-- An engine becomes STOPPED: compaction by R70, the Eraser by R117, the catalog by R168. -/
def stopEngine : Engine → State → State
  | .compaction, s => stopCompaction s
  | .eraser, s => { s with ret := { s.ret with eraserStopped := true } }
  | .catalog, s => { s with cat := { s.cat with state := .stopped } }

/-- The engine a fault kind stops (R184). -/
def engineOf : FaultKind → Engine
  | .segmentWriteFailed => .compaction
  | .eraseTimeout => .eraser
  | .catalogWriteFailed => .catalog
  | .filePageError => .compaction
  | .builderPageError => .compaction
  | .spaceExhausted => .compaction

/-- The fault kinds whose context is the Media Fault Context (R184). -/
def isMediaKind : FaultKind → Bool
  | .segmentWriteFailed => true
  | .eraseTimeout => true
  | .catalogWriteFailed => true
  | _ => false

/-- A STOPPED engine (R187 check 5). -/
def State.engineStopped (s : State) : Engine → Bool
  | .compaction => s.comp.stopped
  | .eraser => s.ret.eraserStopped
  | .catalog => decide (s.cat.state = .stopped)

/-! ### HALTED (R48, R191) -/

/-- A waiting close ends: its CLOSE-FILE is answered HALTED and its slot released (R48, log 12). -/
def haltClose (k : Nat) (s : State) : State :=
  let t := match (s.intakeSlot k).closeReq with
    | none => s
    | some r => refuse r .halted s
  abortSlot k t

/-- The part enters HALTED: the waiting closes are answered in the order their CLOSE-FILEs were taken (R48, R191,
log 45). -/
def enterHalted (s : State) : State :=
  s.intake.closing.foldl (fun t k => haltClose k t) { s with cat := { s.cat with archive := .halted } }

/-! ### Faults (R185) -/

/-- The number after a fault number (R183). -/
def nextFaultNumber (n : Nat) : Nat := if n = max32 then 1 else n + 1

/-- The context a fault of a kind arrives at (R184). -/
def State.contextOf (s : State) (k : FaultKind) : FaultContext :=
  if isMediaKind k then s.fault.media else s.fault.general

/-- Write the context of a kind. -/
def State.setContextOf (s : State) (k : FaultKind) (c : FaultContext) : State :=
  if isMediaKind k then { s with fault := { s.fault with media := c } }
  else { s with fault := { s.fault with general := c } }

/-- A context holds a fault that port A has not fetched (R183). -/
def FaultContext.isHeld : FaultContext → Bool
  | .held _ _ => true
  | _ => false

/-- Take the next fault number (R183). -/
def takeFaultNumber (s : State) : State :=
  { s with fault := { s.fault with counter := nextFaultNumber s.fault.counter } }

/-- A fault is raised; outside SERVICE none is (R185). At an EMPTY or TAKEN context it is saved and FAULT is raised;
at a HELD context it goes into the halt record and the part enters HALTED. The waiters of a checkpoint that the stopped
compaction abandons are answered before the closes are answered HALTED (log 54). -/
def raiseFault (f : FaultInfo) (s : State) : State :=
  if s.cat.archive ≠ .service then s
  else
    let n := s.fault.counter
    let t := takeFaultNumber s
    if (s.contextOf f.kind).isHeld then
      let u := { t with fault := { t.fault with halt := some (n, f) } }
      enterHalted (raiseBoth noticeHalted n (stopEngine (engineOf f.kind) u))
    else
      raiseBoth noticeFault n (stopEngine (engineOf f.kind) (t.setContextOf f.kind (.held n f)))

end Sys2Proof.Machine
end

