-- ==== Sys2Proof/Machine/ChannelOps.lean ====
section
/-!
DEFINITION. Machine/ChannelOps.lean: the operation queues of the channels, what an operation leaves in its slot, and
the search for slots (R88, R91, R92, R95 to R99).
-/

namespace Sys2Proof.Machine
open Sys2Proof

/-! ### Operation queues (R95) -/

/-- The operation in progress on a channel (R96). -/
def Channel.current (ch : Channel) : Option Op :=
  if ch.started.isSome then ch.queue.head? else none

/-- The operation is a CATALOG-WRITE. -/
def Op.isCatalogWrite (op : Op) : Bool := decide (op.kind = .catalogWrite)

/-- Join a queue: an ordinary operation at the tail; a CATALOG-WRITE directly behind the operation in progress and any
CATALOG-WRITE already waiting there (R95). -/
def Channel.join (ch : Channel) (op : Op) : Channel :=
  if op.isCatalogWrite then
    let n := if ch.started.isSome then 1 else 0
    let rest := ch.queue.drop n
    { ch with queue := ch.queue.take n ++ rest.takeWhile Op.isCatalogWrite ++
        op :: rest.dropWhile Op.isCatalogWrite }
  else { ch with queue := ch.queue ++ [op] }

/-- Ask an operation: it joins the queue if that holds fewer than 16, and otherwise waits outside (R95). -/
def Channel.ask (ch : Channel) (op : Op) : Channel :=
  if ch.queue.length < Config.queueOps then ch.join op else { ch with outside := ch.outside ++ [op] }

/-- A place is free: the waiting CATALOG-WRITE operations are taken first, then the ordinary ones, each in the order
asked (R95). -/
def Channel.refillOne (ch : Channel) : Channel :=
  if ch.queue.length < Config.queueOps then
    match ch.outside.find? Op.isCatalogWrite with
    | some op => { ch with outside := ch.outside.eraseP Op.isCatalogWrite }.join op
    | none =>
      match ch.outside with
      | [] => ch
      | op :: rest => { ch with outside := rest }.join op
  else ch

/-- Take waiting operations into the places free (R95). -/
def Channel.refill (ch : Channel) : Channel :=
  (List.range ch.outside.length).foldl (fun c _ => c.refillOne) ch

/-- Start the head operation when none is in progress; in HALTED no operation is started (R96, R99). -/
def startNext (c : Nat) (s : State) : State :=
  let ch := s.channel c
  if s.notHalted && ch.started.isNone && !ch.queue.isEmpty then
    s.setChannel c { ch with started := some s.second }
  else s

/-- Ask an operation of a channel (R95, R96). -/
def askOp (c : Nat) (op : Op) (s : State) : State :=
  startNext c (s.setChannel c ((s.channel c).ask op))

/-- The operation in progress leaves the queue, and the place it frees is taken from outside; in HALTED the operations
waiting outside stay where they are (R95, R96, R99). That the place is taken before the next head operation starts is the model's
choice: a CATALOG-WRITE from outside then starts ahead of the ordinary operation at the head (log 61). -/
def endOp (c : Nat) (s : State) : State :=
  let ch := s.channel c
  let rest : Channel := { ch with queue := ch.queue.tail, started := none }
  s.setChannel c (if s.notHalted then rest.refill else rest)

/-- What an operation that ended leaves in its slot: its data when it was carried out, and otherwise contents the part
does not know; a read leaves the slot as it was (log 8). -/
def leaveInSlot (c : Nat) (op : Op) (ok : Bool) (s : State) : State :=
  match op.kind with
  | .read => s
  | .catalogRead => s
  | _ => s.setFlash c op.slot (if ok then op.data else .unknown)

/-- A completion: it is handed to the requester, whose handling is `act`; the operation then leaves the queue, the place it
frees is taken, and the channel starts the next one (R96, log 61). -/
def complete (c : Nat) (op : Op) (ok : Bool) (act : State → State) (s : State) : State :=
  startNext c (endOp c (act (leaveInSlot c op ok s)))

/-- Give an event to `act` with the operation in progress on the channel when `p` says that it is the event's; any other
event has not come about and changes nothing (log 4). -/
def onOp (c : Nat) (p : Op → Bool) (act : Op → State → State) (s : State) : State :=
  match (s.channel c).current with
  | none => s
  | some op => if p op then act op s else s

/-- Remove every operation not yet started; the one in progress runs on with its result discarded (R99, R182). -/
def Channel.dropUnstarted (ch : Channel) : Channel :=
  { ch with
    queue := (ch.current.map (fun op => { op with requester := .discarded })).toList
    outside := [] }

/-- Discard the result of the operations in progress or waiting whose requester satisfies `p`: each still runs (R96).
In HALTED, where none starts any more, a closed cursor's queued READ keeps its place so and READ-CHANNEL still counts it (R99
beside R164): the model's choice (log 67). -/
def Channel.discard (ch : Channel) (p : Requester → Bool) : Channel :=
  let f := fun (op : Op) => if p op.requester then { op with requester := .discarded } else op
  { ch with queue := ch.queue.map f, outside := ch.outside.map f }

/-- Apply `f` on every channel. -/
def mapChannels (f : Channel → Channel) (s : State) : State :=
  (List.range Config.channels).foldl (fun t c => t.setChannel c (f (t.channel c))) s

/-- No channel has an operation in progress. -/
def State.channelsQuiet (s : State) : Bool :=
  (List.range Config.channels).all (fun c => (s.channel c).started.isNone)

/-! ### Searching the Slot Map (R88, R91) -/

/-- The lowest-numbered slot of a channel in a state. -/
def Channel.lowest (ch : Channel) (st : SlotState) : Option Nat :=
  Tbl.nextFrom (fun _ v => v = st) (ch.rest = st) Config.slotsPerChannel 0 ch.slots

/-- The number of slots of a channel in a state (R88). -/
def Channel.countSlots (ch : Channel) (st : SlotState) : Nat :=
  Tbl.count (fun v => v = st) (ch.rest = st) Config.slotsPerChannel ch.slots

/-- The channel is ONLINE and holds a CLEAN slot (R91). -/
def Channel.offers (ch : Channel) : Bool :=
  decide (ch.mode = .online) && (ch.lowest .clean).isSome

/-- The order in which an allocation tries the channels: ascending from the one after the pointer, wrapping (R91). -/
def channelOrder (pointer : Nat) : List Nat :=
  (List.range Config.channels).map (fun i => (pointer + 1 + i) % Config.channels)

/-- The slot an allocation gives: the lowest CLEAN slot of the first channel that offers one, passing over the channel
`avoid` of a failed slot as long as another offers one (R91). -/
def State.pickSlot (s : State) (avoid : Option Nat) : Option SlotRef :=
  let cs := (channelOrder s.media.pointer).filter (fun c => (s.channel c).offers)
  let chosen := (cs.find? (fun c => some c != avoid)).orElse (fun _ => cs.head?)
  match chosen with
  | none => none
  | some c => ((s.channel c).lowest .clean).map (fun k => { channel := c, slot := k })

/-- The slot lies on a channel whose mode satisfies `p`. -/
def State.slotOn (s : State) (p : ChanMode → Bool) (r : Option SlotRef) : Bool :=
  match r with
  | none => false
  | some r => p (s.channel r.channel).mode

/-- The entry is EXPIRED or ERASING. -/
def isLeaving (e : DirEntry) : Bool := decide (e.state = .expired) || decide (e.state = .erasing)

/-- Some slot will become CLEAN: a DIRTY slot on an ONLINE channel, or a slot there of an EXPIRED or ERASING entry
(R91). -/
def State.willBecomeClean (s : State) : Bool :=
  (List.range Config.channels).any (fun c =>
      decide ((s.channel c).mode = .online) && ((s.channel c).lowest .dirty).isSome) ||
    s.media.dir.any (fun e => isLeaving e.2 && s.slotOn (fun m => m = .online) e.2.slot)

/-- Some entry is EXPIRED or ERASING with its slot on an ONLINE or DRAINING channel, so that the Eraser will return an
entry to FREE (R61, R184). -/
def State.willBecomeFree (s : State) : Bool :=
  s.media.dir.any (fun e => isLeaving e.2 && s.slotOn (fun m => m != .offline) e.2.slot)

end Sys2Proof.Machine
end

