-- ==== Sys2Proof/Machine/Snapshot.lean ====
section
/-!
DEFINITION. Machine/Snapshot.lean: the catalog image and the beginning of WRITING (R85, R167, R171).
-/

namespace Sys2Proof.Machine
open Sys2Proof

/-- An entry as an image records it: without its reader count, an ERASING entry as EXPIRED (R85, R167). -/
def imageEntry (e : DirEntry) : DirEntry :=
  { e with readers := 0, state := if e.state = .erasing then .expired else e.state }

/-- The DEFECTIVE slots of a channel (R167). -/
def defectiveOn (c : Nat) (ch : Channel) : List SlotRef :=
  (ch.slots.filter (fun e => decide (e.2 = .defective))).map (fun e => { channel := c, slot := e.1 })

/-- The set mode of each channel, the ones ONLINE unlisted (R167). -/
def State.setModes (s : State) : Tbl ChanMode :=
  (s.media.channels.map (fun e => (e.1, e.2.setMode))).filter (fun e => decide (e.2 ≠ .online))

/-- The CRC-32 over an image's contents: all of it but the check itself (R167, R200; log 8). -/
def imageCheck (i : Image) : Crc := crc32 (Config.imageBytes { i with crc := 0 })

/-- The image with its CRC-32 made over its contents (R167). -/
def sealImage (i : Image) : Image := { i with crc := imageCheck i }

/-- The durable state of the archive as it stands, its CRC-32 not yet made (R167). -/
def State.contents (s : State) (number channel : Nat) : Image :=
  { number := number
    today := s.ret.today
    lastSwept := s.ret.lastSwept
    params := s.cat.params
    profile := s.cat.profile
    channel := channel
    modes := s.setModes
    classes := s.ret.classes
    sources := s.intake.sources
    tally := s.intake.tally.map (fun e => (e.1, { e.2 with inFlight := 0 }))
    dir := s.media.dir.map (fun e => (e.1, imageEntry e.2))
    codes := (s.comp.codes.map (fun e => (e.1, { e.2 with count := 0 }))).filter (fun e => decide (e.2 ≠ {}))
    holds := s.ret.holds
    findings := s.audit.findings
    nextFinding := s.audit.next
    defective := s.media.channels.flatMap (fun e => defectiveOn e.1 e.2)
    crc := 0 }

/-- The snapshot: the durable state of the archive as it stands, with its CRC-32 (R167). -/
def State.snapshot (s : State) (number channel : Nat) : Image := sealImage (s.contents number channel)

/-- The CATALOG-WRITE of share `k` of an image to an area: it lies in slot 8a + k of the catalog channel (R167). -/
def shareWrite (img : Image) (area k : Nat) : Op :=
  { kind := .catalogWrite, slot := 8 * area + k, requester := .catalog, entry := none
    data := .share { number := img.number, index := k, channel := img.channel, area := area, image := img } }

/-- Ask the eight CATALOG-WRITE operations of an image (R171), in the order of the shares (log 53). -/
def writeImage (img : Image) (area : Nat) (s : State) : State :=
  (List.range 8).foldl (fun t k => askOp img.channel (shareWrite img area k) t) s

/-- The area an image is written to: the one that is not the newer area, or area 0 (R171). -/
def State.nextArea (s : State) : Nat := if s.cat.newer = some 0 then 1 else 0

/-- WRITING begins: the snapshot is taken, numbered one above the last completed, and its shares are asked (R171). -/
def beginWriting (s : State) : State :=
  let img := s.snapshot (s.cat.last + 1) (s.cat.channel.getD 0)
  writeImage img s.nextArea { s with cat := { s.cat with state := .writing, buffer := some img, sharesOk := 0 } }

end Sys2Proof.Machine
end

