-- ==== Sys2Proof/Machine/CompactionOps.lean ====
section
/-!
DEFINITION. Machine/CompactionOps.lean: allocation and the slot wait list, the close and the opening of builders, the
append of a record, the drain, and the checkpoint trigger (R58 to R72, R91, R169, R170).
-/

namespace Sys2Proof.Machine
open Sys2Proof

/-- Compaction may start work: the archive is in SERVICE and compaction is not STOPPED (R70, R80). -/
def State.compacting (s : State) : Bool := s.inService && !s.comp.stopped

/-! ### Allocation (R67, R91) -/

/-- A hold covers a key (R125). -/
def scopeCovers (h : HoldScope) (source day : Nat) : Bool :=
  decide (h.firstSource ≤ source) && decide (source ≤ h.lastSource) &&
    decide (h.firstDay ≤ day) && decide (day ≤ h.lastDay)

/-- The holds that are APPLYING or ACTIVE and cover a key, in ascending order (R67, R125). -/
def State.holdsCovering (s : State) (source day : Nat) : List Nat :=
  (List.range Config.holds).filter (fun h =>
    (decide ((s.hold h).state = .applying) || decide ((s.hold h).state = .active)) &&
      scopeCovers (s.hold h).scope source day)

/-- The entry of a closing builder as a slot is given to it; a retry keeps expiry day and hold mask (R67, R69). -/
def State.writingEntry (s : State) (b : Builder) (r : SlotRef) (retry : Bool) : DirEntry :=
  let e := s.entry b.entry
  { e with
    state := .writing
    slot := some r
    payloadBytes := b.bytesUsed
    crc := some (payloadOf b).crc
    expiryDay := if retry then e.expiryDay else some (e.day + (s.retClass (e.cls.getD 0)).days)
    holds := if retry then e.holds else s.holdsCovering e.source e.day }

/-- The WRITE of a builder's pages to a slot (R95). -/
def builderWrite (b : Nat) (v : Builder) (slot : Nat) : Op :=
  { kind := .write, slot := slot, requester := .builder b, entry := some v.entry, data := .segment (payloadOf v) }

/-- Give a slot to a closing builder (R67, R91). -/
def giveSlot (b : Nat) (r : SlotRef) (retry : Bool) (s : State) : State :=
  let v := s.builder b
  let t := s.setEntry v.entry (s.writingEntry v r retry)
  let t := t.setSlotState r .used
  let t := { t with media := { t.media with pointer := r.channel } }
  askOp r.channel (builderWrite b v r.slot) t

/-- The fault SPACE-EXHAUSTED for a closing builder (R67, R184). -/
def spaceExhausted (entry : Option Nat) : FaultInfo := { kind := .spaceExhausted, segment := entry }

/-- No slot is given: the close joins the slot wait list, or SPACE-EXHAUSTED is raised (R67, R91). -/
def waitForSlot (b : Nat) (s : State) : State :=
  if s.willBecomeClean then { s with media := { s.media with slotWait := s.media.slotWait ++ [b] } }
  else raiseFault (spaceExhausted (some (s.builder b).entry)) s

/-- A closing builder asks for a slot (R67). -/
def askSlot (b : Nat) (s : State) : State :=
  match s.pickSlot none with
  | some r => giveSlot b r false s
  | none => waitForSlot b s

/-- Give a slot to the close at the head of the wait list, if one is to be had (R91). A retry that has waited here no longer
passes over the channel of the slot that failed (log 43). -/
def serveOne (s : State) : State :=
  match s.media.slotWait, s.pickSlot none with
  | b :: rest, some r =>
    if s.compacting then giveSlot b r false { s with media := { s.media with slotWait := rest } } else s
  | _, _ => s

/-- Serve the slot wait list from its head while CLEAN slots remain on ONLINE channels; not in HALTED nor while
compaction is STOPPED (R91). -/
def serveWait (s : State) : State :=
  s.media.slotWait.foldl (fun t _ => serveOne t) s

/-- Test the wait list: if it is not empty and no slot is or will become CLEAN, SPACE-EXHAUSTED is raised for the head,
which leaves the list (R91, log 28). -/
def testWait (s : State) : State :=
  match s.media.slotWait with
  | [] => s
  | b :: rest =>
    if s.inService && (s.pickSlot none).isNone && !s.willBecomeClean then
      raiseFault (spaceExhausted (some (s.builder b).entry)) { s with media := { s.media with slotWait := rest } }
    else s

/-! ### Closing (R66, R69) -/

/-- The close of a builder begins (R66). -/
def beginClose (b : Nat) (s : State) : State :=
  let v := s.builder b
  let e := s.entry v.entry
  askSlot b ((s.setBuilder b { v with phase := .closing, failures := 0 }).setEntry v.entry
    { e with cls := some (s.source v.source).cls })

/-- Begin the close of every FILLING builder that `p` names, in builder-number order, while compaction runs (R71, R72). -/
def closeBuilders (p : Builder → Bool) (s : State) : State :=
  (List.range Config.builders).foldl (fun t b =>
    if t.compacting && decide ((t.builder b).phase = .filling) && p (t.builder b) then beginClose b t else t) s

/-- A WRITING entry returns to FILLING: slot, CRC-32, expiry day and hold mask become absent; its class is kept
(R69, R82). -/
def toFilling (e : Nat) (s : State) : State :=
  s.setEntry e { s.entry e with state := .filling, slot := none, crc := none, expiryDay := none, holds := [] }

/-! ### Opening (R61, R62) -/

/-- The FILLING builder of a key (R60). -/
def State.fillingBuilder (s : State) (source day : Nat) : Option Nat :=
  Tbl.nextFrom (fun _ b => decide (b.phase = .filling) && decide (b.source = source) && decide (b.day = day)) false
    Config.builders 0 s.comp.builders

/-- The lowest-numbered FREE builder (R61). -/
def State.freeBuilder (s : State) : Option Nat :=
  Tbl.nextFrom (fun _ b => decide (b.phase = .free)) true Config.builders 0 s.comp.builders

/-- The lowest-numbered FREE directory entry (R61). -/
def State.freeEntryNumber (s : State) : Option Nat :=
  Tbl.nextFrom (fun _ e => decide (e.state = .free)) true Config.entries 0 s.media.dir

/-- The FILLING builder with the oldest last append, the lower-numbered of two alike (R62). -/
def State.oldestFilling (s : State) : Option Nat :=
  (s.comp.builders.foldl (fun (best : Option (Nat × Nat)) e =>
    if e.2.phase = .filling then
      match best with
      | none => some (e.1, e.2.lastAppend)
      | some (b, t) => if e.2.lastAppend < t then some (e.1, e.2.lastAppend) else some (b, t)
    else best) none).map Prod.fst

/-- Set what the opening waits for. -/
def setOpening (w : Option OpenWait) (s : State) : State := { s with comp := { s.comp with opening := w } }

/-- Builder `b` and entry `e` become FILLING for a key (R61). -/
def openBuilder (b e source day : Nat) (s : State) : State :=
  setOpening none ((s.setBuilder b
      { phase := .filling, source := source, day := day, entry := e, bytesUsed := 32, lastAppend := s.second }).setEntry e
    { state := .filling, source := source, day := day, payloadBytes := 32 })

/-- Open builder `b` for a key on the lowest FREE entry; without one the opening waits, or SPACE-EXHAUSTED is raised
(R61, R184). -/
def openOn (b source day : Nat) (s : State) : State :=
  match s.freeEntryNumber with
  | some e => openBuilder b e source day s
  | none =>
    if s.willBecomeFree then setOpening (some .entry) s
    else raiseFault (spaceExhausted none) (setOpening (some .held) s)

/-- Open a builder for a key: with all 32 in use, the oldest FILLING one is closed and the opening waits (R61, R62). -/
def tryOpen (source day : Nat) (s : State) : State :=
  match s.freeBuilder with
  | some b => openOn b source day s
  | none =>
    let t := setOpening (some .builder) s
    match t.oldestFilling with
    | none => t
    | some b => beginClose b t

/-- A sweep has reclaimed an entry: an opening that waits for a directory entry finds whether one will still become FREE,
and if not SPACE-EXHAUSTED is raised and the opening held (R61, R184). Where it stands beside the end of the sweep's run is
log 56. -/
def testOpening (s : State) : State :=
  if s.compacting && decide (s.comp.opening = some .entry) && s.freeEntryNumber.isNone && !s.willBecomeFree then
    raiseFault (spaceExhausted none) (setOpening (some .held) s)
  else s

/-- The pending opening goes on when what it waits for has come: it opens for the head file's key, if that has no
FILLING builder (R61, R62). -/
def resolveOpening (s : State) : State :=
  match s.comp.opening, s.comp.queue with
  | none, _ => s
  | some .held, _ => s
  | some _, [] => setOpening none s
  | some _, f :: _ =>
    match s.fillingBuilder f.source f.day, s.freeBuilder with
    | some _, _ => setOpening none s
    | none, some b => openOn b f.source f.day s
    | none, none => s

/-! ### Appending (R59, R64, R65) -/

/-- A code joins an entry's used set: its reference count rises (R74). -/
def addUse (c : Nat) (s : State) : State :=
  s.setCode c { s.code c with count := (s.code c).count + 1 }

/-- One more record of the head file is appended (R59). -/
def advanceHead (s : State) : State :=
  match s.comp.queue with
  | [] => s
  | f :: rest => { s with comp := { s.comp with queue := { f with appended := f.appended + 1 } :: rest } }

/-- The span after a record of a file is appended (R59). -/
def spanAfter (span : Option (Nat × Nat)) (sequence : Nat) : Nat × Nat :=
  match span with
  | none => (sequence, sequence)
  | some (first, _) => (first, sequence)

/-- Append a record of the head file to builder `b`, all at once (R59). -/
def appendTo (b : Nat) (sequence : Nat) (r : Record) (s : State) : State :=
  let v := s.builder b
  let c := encodeRecord s.comp.codes v r
  let bytes := v.bytesUsed + c.bytes + c.cost
  let span := some (spanAfter v.span sequence)
  let e := s.entry v.entry
  let fresh := c.used.filter (fun k => !v.used.contains k)
  let t := s.setBuilder b
    { v with records := v.records ++ [c.record], bytesUsed := bytes, dyn := c.dyn, used := c.used, span := span,
             lastAppend := s.second }
  let t := t.setEntry v.entry
    { e with recordCount := e.recordCount + 1, payloadBytes := bytes, used := c.used, span := span }
  advanceHead (fresh.foldl (fun u k => addUse k u) t)

/-- The head file leaves the queue: its pages become FREE and its files in flight falls by one (R59). -/
def leaveQueue (s : State) : State :=
  match s.comp.queue with
  | [] => s
  | f :: rest =>
    leaveFlight f.source f.day (freePages f.pages { s with comp := { s.comp with queue := rest } })

/-- The head file leaves when its records are all appended; a file with none leaves as it becomes the head (R59). -/
def dropFinished (s : State) : State :=
  s.comp.queue.foldl (fun t _ =>
    match t.comp.queue with
    | [] => t
    | f :: _ => if f.toAppend ≤ f.appended then leaveQueue t else t) s

/-- Append record `r` of the head file to the FILLING builder of its key, if the opening left one (R59). -/
def appendIfOpen (f : QueuedFile) (r : Record) (s : State) : State :=
  match s.fillingBuilder f.source f.day with
  | none => s
  | some b => if s.compacting then appendTo b f.sequence r s else s

/-- Open a builder for the head file and append its record there, while compaction runs (R59, R61, R65). -/
def openAndAppend (f : QueuedFile) (r : Record) (s : State) : State :=
  if s.compacting then appendIfOpen f r (tryOpen f.source f.day s) else s

/-- Append the head file's next record: to its key's builder where it fits; otherwise that builder is closed and a new
one opened (R59, R61, R65). -/
def appendNext (f : QueuedFile) (r : Record) (s : State) : State :=
  match s.fillingBuilder f.source f.day with
  | none => openAndAppend f r s
  | some b =>
    if recordFits s.comp.codes (s.builder b) r then appendTo b f.sequence r s
    else openAndAppend f r (beginClose b s)

/-! ### The drain and the running of compaction (R72) -/

/-- The queue is empty and every builder is FREE (R72). -/
def State.drained (s : State) : Bool := s.comp.queue.isEmpty && s.comp.builders.isEmpty

/-- A drain is under way and compaction may work. -/
def State.draining (s : State) : Bool := decide (s.cat.state = .quiescing) && s.compacting

/-- In a drain with the queue empty, the close of every FILLING builder begins (R72). -/
def drainCloses (s : State) : State :=
  if s.draining && s.comp.queue.isEmpty then closeBuilders (fun _ => true) s else s

/-- A drain that is complete begins WRITING (R72, R170). -/
def drainComplete (s : State) : State :=
  if s.draining && s.drained then beginWriting s else s

/-- Compaction goes on as far as it can without a further record: finished files leave, the pending opening is tried,
and a drain closes its builders or is reported complete. -/
def runCompaction (s : State) : State :=
  if s.compacting then drainComplete (drainCloses (resolveOpening (dropFinished s))) else s

/-! ### The checkpoint trigger (R169, R170) -/

/-- A checkpoint begins with its waiters; while compaction is STOPPED it is abandoned at once (R169, R170). -/
def beginCheckpoint (ws : List Waiter) (s : State) : State :=
  let t := { s with cat := { s.cat with state := .quiescing, waiters := ws } }
  if t.comp.stopped then abandonCheckpoint t else runCompaction t

/-- No checkpoint begins beyond the last number (R169). -/
def State.numbersSpent (s : State) : Bool := decide (max32 ≤ s.cat.last)

/-- A checkpoint trigger, with what waits on it (R169). -/
def trigger (ws : List Waiter) (s : State) : State :=
  match s.cat.state with
  | .idle => if s.numbersSpent then answerWaiters false ws s else beginCheckpoint ws s
  | .quiescing => { s with cat := { s.cat with waiters := s.cat.waiters ++ ws } }
  | .writing => { s with cat := { s.cat with owed := true, owedWaiters := s.cat.owedWaiters ++ ws } }
  | .stopped => answerWaiters false ws s

/-- A catalog request whose change has been made waits for the first checkpoint whose snapshot includes it; the two
bodies are those of OK and of NOT-DURABLE (R169, log 23). -/
def triggerFor (r : ReqRef) (okBody failBody : List Byte) (s : State) : State :=
  trigger [{ req := some r, okBody := okBody, failBody := failBody }] s

/-- The check every catalog request ends with: the last completed number is below the limit (R169). -/
def State.limitCheck (s : State) : Bool × Status := (!s.numbersSpent, .limit)

end Sys2Proof.Machine
end

