-- ==== Sys2Proof/Machine/EraserOps.lean ====
section
/-!
DEFINITION. Machine/EraserOps.lean: how the Eraser finds work, what the end of one of its erases does, and how a
checkpoint completes (R117 to R120, R172).
-/

namespace Sys2Proof.Machine
open Sys2Proof

/-- The Eraser's erase in flight on a channel (R117). -/
def State.eraseOn (s : State) (c : Nat) : Option EraseWork := Tbl.find s.ret.erasing c

/-- The entry's slot lies on channel `c`. -/
def onChannel (c : Nat) (e : DirEntry) : Bool :=
  match e.slot with
  | none => false
  | some r => decide (r.channel = c)

/-- An EXPIRED entry the Eraser may take: its mark is durable and its class has no extension pending (R117). -/
def State.eligible (s : State) (e : DirEntry) : Bool :=
  decide (e.state = .expired) &&
    (match e.expiryCkpt with | none => false | some n => decide (n ≤ s.cat.last)) &&
    !(s.retClass (e.cls.getD 0)).pending

/-- The lowest-numbered entry on a channel that satisfies `p`. -/
def State.lowestEntry (s : State) (c : Nat) (p : DirEntry → Bool) : Option Nat :=
  Tbl.nextFrom (fun _ e => onChannel c e && p e) false Config.entries 0 s.media.dir

/-- The Eraser asks an ERASE on a channel (R118, R119). -/
def askErase (c slot : Nat) (entry : Option Nat) (s : State) : State :=
  askOp c { kind := .erase, slot := slot, requester := .eraser, entry := entry, data := .blank }
    { s with ret := { s.ret with erasing := Tbl.put s.ret.erasing c { slot := slot, entry := entry } } }

/-- The Eraser takes an entry: an EXPIRED one becomes ERASING, one left ERASING by a timeout stays so
(R118, R120). -/
def eraseEntry (c e : Nat) (s : State) : State :=
  let v := s.entry e
  askErase c ((v.slot.map SlotRef.slot).getD 0) (some e) (s.setEntry e { v with state := .erasing })

/-- The Eraser may work on a channel: ONLINE or DRAINING, with no Eraser erase in flight (R117). -/
def State.eraserFree (s : State) (c : Nat) : Bool :=
  (s.channel c).mode != .offline && (s.eraseOn c).isNone

/-- Give one channel work: an entry left ERASING, then an eligible EXPIRED entry, then a DIRTY slot
(R117, R120). -/
def eraserWork (c : Nat) (s : State) : State :=
  if s.eraserFree c then
    match s.lowestEntry c (fun e => decide (e.state = .erasing)) with
    | some e => eraseEntry c e s
    | none =>
      match s.lowestEntry c s.eligible with
      | some e => eraseEntry c e s
      | none =>
        match (s.channel c).lowest .dirty with
        | some k => askErase c k none s
        | none => s
  else s

/-- The Eraser looks for work, channels in ascending order, while it is not STOPPED and the archive is in SERVICE
(R117). -/
def lookForWork (s : State) : State :=
  if s.inService && !s.ret.eraserStopped then
    (List.range Config.channels).foldl (fun t c => eraserWork c t) s
  else s

/-- The Eraser's erase on a channel is no longer in flight. -/
def endErase (c : Nat) (s : State) : State :=
  { s with ret := { s.ret with erasing := Tbl.drop s.ret.erasing c } }

/-- What follows a change of the slots or of the channels' modes: the wait list is served and tested, the pending
opening is tried, and the Eraser looks for work, after them (R61, R91, R117, log 50). That the list is tested, and
SPACE-EXHAUSTED raised, before the opening takes an entry just freed is the model's choice (log 58). -/
def afterSlots (s : State) : State :=
  lookForWork (runCompaction (testWait (serveWait s)))

/-- An Eraser erase completes OK or FAIL: the slot becomes CLEAN or DEFECTIVE, and the ERASING entry, if it was of one,
becomes FREE (R118, R119). -/
def finishErase (c : Nat) (w : EraseWork) (ok : Bool) (s : State) : State :=
  let t := (endErase c s).setSlotState { channel := c, slot := w.slot } (if ok then .clean else .defective)
  match w.entry with
  | none => t
  | some e => freeEntryAndTest e t

/-- An Eraser erase that times out raises ERASE-TIMEOUT; the entry stays ERASING and the slot as it was (R120). -/
def timeoutErase (c : Nat) (w : EraseWork) (s : State) : State :=
  raiseFault { kind := .eraseTimeout, segment := w.entry, slot := some { channel := c, slot := w.slot } } (endErase c s)

/-- The checkpoint in progress completes (R172). -/
def completeCheckpoint (s : State) : State :=
  let n := s.cat.last + 1
  let t := { s with cat := { s.cat with last := n, newer := some s.nextArea, state := .idle, waiters := [],
                                        buffer := none, sharesOk := 0 } }
  lookForWork (answerWaiters true s.cat.waiters (raiseBoth noticeCheckpointDone n t))

/-- An owed checkpoint begins at once; when the numbers are spent its waiters are answered NOT-DURABLE
(R172, log 21). -/
def takeOwed (s : State) : State :=
  if s.cat.owed then
    let ws := s.cat.owedWaiters
    let t := { s with cat := { s.cat with owed := false, owedWaiters := [] } }
    if t.numbersSpent then answerWaiters false ws t else beginCheckpoint ws t
  else s

end Sys2Proof.Machine
end

