-- ==== Sys2Proof/Machine/SweepOps.lean ====
section
/-!
DEFINITION. Machine/SweepOps.lean: the Sweep Queue, and how each kind of sweep ends (R104, R108, R109, R113, R116, R132,
R135).
-/

namespace Sys2Proof.Machine
open Sys2Proof

/-- Write the Sweep Queue. -/
def State.setSweeps (s : State) (q : List Sweep) : State := { s with ret := { s.ret with sweeps := q } }

/-- A sweep becomes the head at position 0; an APPLY run begins with its hold's counts at 0 (R108, R130). -/
def beginHead (s : State) : State :=
  match s.ret.sweeps with
  | { kind := .apply h, .. } :: _ =>
    s.setHold h { s.hold h with marked := 0, reclaimed := 0, lost := 0, firstLost := none }
  | _ => s

/-- A sweep joins the tail of the queue (R108). -/
def pushSweep (k : SweepKind) (reqs : List ReqRef) (s : State) : State :=
  let t := s.setSweeps (s.ret.sweeps ++ [{ kind := k, reqs := reqs }])
  if s.ret.sweeps.isEmpty then beginHead t else t

/-- The head leaves the queue and the next sweep becomes the head (R108). -/
def popSweep (s : State) : State :=
  beginHead { s with ret := { s.ret with sweeps := s.ret.sweeps.tail, suspended := false } }

/-- Write the head sweep. -/
def setHead (w : Sweep) (s : State) : State := s.setSweeps (w :: s.ret.sweeps.tail)

/-- The last entry a sweep handles (R108). -/
def lastEntry : Nat := 65535

/-! ### The ends of the sweeps -/

/-- The new today and the four counts of a DAY sweep (R104). -/
def dayBody (today : Nat) (w : Sweep) : List Byte :=
  be 2 today ++ count4 w.marked ++ count4 w.held ++ count4 w.read ++ count4 w.tallied

/-- A DAY sweep ends (R113, R104). -/
def endDay (w : Sweep) (s : State) : State :=
  let body := dayBody s.today w
  let t := { s with ret := { s.ret with
    lastSwept := s.ret.today
    lastDay := some { marked := w.marked, held := w.held, read := w.read, tallied := w.tallied, day := s.ret.today } } }
  trigger [{ req := w.reqs.head?, okBody := body, failBody := body, dayDone := some s.today }] (popSweep t)

/-- The three counts of an EXTEND sweep (R107). -/
def extendBody (w : Sweep) : List Byte := count4 w.extended ++ count4 w.reclaimed ++ count4 w.tooLate

/-- An EXTEND sweep for the class remains in the queue (R116). -/
def extendQueued (c : Nat) (q : List Sweep) : Bool := q.any (fun w => decide (w.kind = .extend c))

/-- An EXTEND sweep ends: extension pending is cleared when no other is queued for the class, and the Eraser looks for
work (R116, R117). The checkpoint is triggered before the Eraser looks (log 50). -/
def endExtend (c : Nat) (w : Sweep) (s : State) : State :=
  let t := { s with ret := { s.ret with
    lastExtend := some { extended := w.extended, reclaimed := w.reclaimed, tooLate := w.tooLate, cls := c } } }
  let t := popSweep t
  let t := if extendQueued c t.ret.sweeps then t else t.setRetClass c { t.retClass c with pending := false }
  lookForWork (trigger (w.reqs.map (fun r => { req := some r, okBody := extendBody w, failBody := extendBody w })) t)

/-- A hold's number and its three counts (R132). -/
def applyBody (n : Nat) (h : Hold) : List Byte :=
  be 1 n ++ be 3 h.marked ++ be 3 h.reclaimed ++ be 3 h.lost

/-- An APPLY run ends: the hold becomes ACTIVE, HOLD-CHANGED is raised, and a checkpoint is triggered (R132). -/
def endApply (h : Nat) (w : Sweep) (s : State) : State :=
  let body := applyBody h (s.hold h)
  let t := raiseBoth noticeHoldChanged h (s.setHold h { s.hold h with state := .active })
  trigger (w.reqs.map (fun r => { req := some r, okBody := body, failBody := body })) (popSweep t)

/-- The HOLD-LOSS finding of a hold (R132). -/
def holdLossFinding (n : Nat) (h : Hold) : FindingBody :=
  { kind := .holdLoss
    source := h.firstLost.map LostEntry.source
    dataDay := h.firstLost.map LostEntry.day
    segment := h.firstLost.map LostEntry.entry
    pair := some (n, h.lost) }

/-- The APPLY run has handled its last entry: with segments lost, the finding is written first, or the Retention Unit
becomes SUSPENDED until a place is free (R132). -/
def runOutApply (h : Nat) (w : Sweep) (s : State) : State :=
  if (s.hold h).lost = 0 then endApply h w s
  else if s.freePlaces = 0 then { s with ret := { s.ret with suspended := true } }
  else endApply h w (writeFinding (holdLossFinding h (s.hold h)) s)

/-- A SUSPENDED APPLY sweep takes a free place and ends (R132). -/
def resumeSweep (s : State) : State :=
  match s.ret.sweeps with
  | w :: _ =>
    match w.kind with
    | .apply h => if s.inService && s.ret.suspended && decide (0 < s.freePlaces) then runOutApply h w s else s
    | _ => s
  | [] => s

/-- A RELEASE sweep ends: the hold becomes EMPTY (R135). -/
def endRelease (h : Nat) (w : Sweep) (s : State) : State :=
  let body := be 1 h ++ count4 w.cleared
  let t := raiseBoth noticeHoldChanged h (s.setHold h {})
  trigger (w.reqs.map (fun r => { req := some r, okBody := body, failBody := body })) (popSweep t)

/-- The running sweep, when one may advance: the archive is in SERVICE and the head is not waiting for room
(R109). -/
def State.runningSweep (s : State) : Option Sweep :=
  if s.inService && !s.ret.suspended then s.ret.sweeps.head? else none

/-- The head has handled the entry at its position: its position rises, or `finish` ends it after entry 65,535
(R108). -/
def stepSweep (w : Sweep) (finish : Sweep → State → State) (s : State) : State :=
  if w.position = lastEntry then finish w s else setHead { w with position := w.position + 1 } s

end Sys2Proof.Machine
end

