-- ==== Sys2Proof/Machine/CursorOps.lean ====
section
/-!
DEFINITION. Machine/CursorOps.lean: the walk of a cursor, the load of its latch, the gathering of records, and closing
(R156 to R164); with the raise and the lowering of reader counts (R84) and what a read delivers (log 8).
-/

namespace Sys2Proof.Machine
open Sys2Proof

/-! ### Reader counts and reads (R84, R96, R98) -/

/-- Raise the reader count of a STORED entry (R84). -/
def raiseReader (e : Nat) (s : State) : State :=
  s.setEntry e { s.entry e with readers := (s.entry e).readers + 1 }

/-- Lower the reader count, in every state, down to 0 (R84). -/
def lowerReader (e : Nat) (s : State) : State :=
  s.setEntry e { s.entry e with readers := (s.entry e).readers - 1 }

/-- The channel of an entry's slot takes reads; on an OFFLINE channel a READ ends FAIL at once (R98). -/
def State.readable (s : State) (e : Nat) : Bool := s.slotOn (fun m => m != .offline) (s.entry e).slot

/-- Ask the READ of an entry's slot (R95). -/
def askRead (e : Nat) (who : Requester) (s : State) : State :=
  match (s.entry e).slot with
  | none => s
  | some r => askOp r.channel { kind := .read, slot := r.slot, requester := who, entry := some e, data := .unknown } s

/-- The free value of the moment, and the counter moved on (log 5). -/
def useFree (s : State) : State := { s with free := s.free + 1 }

/-- What a segment READ delivers: nothing on FAIL; the payload as it lies on the flash; or another (R96, log 8). -/
def readPayload (c slot : Nat) (r : ReadResult) (s : State) : Option Payload :=
  match r with
  | .fail => none
  | .delivered p => some p
  | .asLeft =>
    match s.flashAt c slot with
    | .segment p => some p
    | _ => some (Config.unknownPayload s.free)

/-! ### Places (R157) -/

/-- Key `a` of an entry (day, entry) lies before key `b`. -/
def keyBefore (a b : Nat × Nat) : Bool := decide (a.1 < b.1) || (decide (a.1 = b.1) && decide (a.2 < b.2))

/-- Key `b` lies beyond key `a` in a direction. -/
def keyBeyond (d : Direction) (a b : Nat × Nat) : Bool :=
  match d with
  | .up => keyBefore a b
  | .down => keyBefore b a

/-- Where a load seeks from: the place, and whether the record there is sought itself (R159). -/
inductive Bound
  | all
  | nothing
  | since (p : Place) (inclusive : Bool)
  deriving DecidableEq, Repr

/-- The bound of a cursor's load: its position, or its seek point while the position is absent (R159). -/
def Cursor.bound (k : Cursor) : Bound :=
  match k.position with
  | some p => .since p false
  | none =>
    match k.seekPoint, k.direction with
    | .start, .up => .all
    | .start, .down => .nothing
    | .stop, .up => .nothing
    | .stop, .down => .all
    | .place p, _ => .since p true

/-- The index at which the search within an entry of `n` records begins, from the bound's index: none where no record
of the entry lies beyond it (R159, R162). -/
def indexFrom (d : Direction) (index : Nat) (inclusive : Bool) (n : Nat) : Option Nat :=
  match d with
  | .up =>
    let i := if inclusive then index else index + 1
    if i < n then some i else none
  | .down =>
    if n = 0 then none
    else if inclusive then some (min index (n - 1))
    else if index = 0 then none
    else some (min (index - 1) (n - 1))

/-- An entry with key `key` and `n` records may be entered by a load from the bound: it lies beyond the place's entry, or
is that entry itself and the place does not lie past its end. A position's entry is entered again whether or not a record
of it lies beyond the position (R163, log 41). A seek point's index at or beyond the record count lies past the end of the
entry in UP, and before the entry is reached in DOWN (R162). -/
def boundAdmits (d : Direction) (b : Bound) (key : Nat × Nat) (n : Nat) : Bool :=
  match b with
  | .all => true
  | .nothing => false
  | .since p inclusive =>
    keyBeyond d (p.day, p.entry) key ||
      (decide ((p.day, p.entry) = key) && (!inclusive || decide (d = .down) || decide (p.index < n)))

/-- The entry lies in the cursor's scope (R157). -/
def Cursor.covers (k : Cursor) (e : DirEntry) : Bool :=
  decide (e.state ≠ .free) && decide (e.source = k.source) && decide (k.firstDay ≤ e.day) && decide (e.day ≤ k.lastDay)

/-- The entry may be taken next by the load: in the scope, and beyond the entry last left or passed over, or else beyond
the bound (R159 step 3, log 24). -/
def Cursor.admits (k : Cursor) (n : Nat) (e : DirEntry) : Bool :=
  k.covers e &&
    (match k.last with
     | some key => keyBeyond k.direction key (e.day, n)
     | none => boundAdmits k.direction k.bound (e.day, n) e.recordCount)

/-- The next entry in walk order (R159 step 3). -/
def State.nextInWalk (s : State) (k : Cursor) : Option Nat :=
  (s.media.dir.foldl (fun (best : Option (Nat × Nat)) e =>
    if k.admits e.1 e.2 then
      match best with
      | none => some (e.2.day, e.1)
      | some key => if keyBeyond k.direction (e.2.day, e.1) key then some (e.2.day, e.1) else best
    else best) none).map Prod.snd

/-! ### Decoding from the copy (R159 step 1) -/

/-- A record matches the filter (R157). -/
def recordMatches (f : Option Filter) (r : Record) : Bool :=
  match f with
  | none => true
  | some f => f.kinds.contains r.kind && decide (r.subscriber = f.subscriber)

/-- What decoding from a copy comes to. -/
inductive Decoded
  | found (index : Nat) (r : Record)
  | exhausted
  | broken
  deriving DecidableEq, Repr

/-- Decode the records of `indexes` in order: the first that matches is found; one that cannot be decoded, or that lies in
a page whose check fails, ends the segment. `records` are the copy's records, `failing` the indexes in such pages. -/
def decodeAlong (f : Option Filter) (records : List (Option Record)) (failing : List Nat) : List Nat → Decoded
  | [] => .exhausted
  | i :: rest =>
    if failing.contains i then .broken
    else
      match records[i]? with
      | some (some r) => if recordMatches f r then .found i r else decodeAlong f records failing rest
      | _ => .broken

/-- The indexes in pages whose check fails at the present load from a copy (R159, log 7). -/
def SegmentCopy.failing (copy : SegmentCopy) : List Nat :=
  (copy.bad.filter (fun b => decide (b.1 = copy.loads))).map Prod.snd

/-- The copy after one more load has decoded from it. -/
def SegmentCopy.used (copy : SegmentCopy) : SegmentCopy := { copy with loads := copy.loads + 1 }

/-- The indexes sought in the held segment `e`, in the direction of the walk. -/
def Cursor.indexes (k : Cursor) (day e n : Nat) : List Nat :=
  let first : Option Nat :=
    match k.bound with
    | .since p inclusive =>
      if p.day = day ∧ p.entry = e then indexFrom k.direction p.index inclusive n
      else if n = 0 then none else some (match k.direction with | .up => 0 | .down => n - 1)
    | _ => if n = 0 then none else some (match k.direction with | .up => 0 | .down => n - 1)
  match first, k.direction with
  | none, _ => []
  | some i, .up => (List.range n).drop i
  | some i, .down => (List.range (i + 1)).reverse

/-! ### The load (R159) -/

/-- Add one to a skip count (R159). -/
def skipUp (n : Nat) : Nat := min (n + 1) max16

/-- Leave the held segment: its reader count is lowered and it becomes absent (R159 step 2). -/
def releaseHeld (c : Nat) (s : State) : State :=
  match (s.cursor c).held with
  | none => s
  | some e => (lowerReader e s).setCursor c { s.cursor c with held := none, copy := none }

/-- The load has left or passed over an entry. -/
def passEntry (c e : Nat) (s : State) : State :=
  s.setCursor c { s.cursor c with last := some ((s.entry e).day, e) }

/-- Enter an entry: raise its reader count and ask its READ (R159 step 4). -/
def enterEntry (c e : Nat) (s : State) : State :=
  askRead e (.cursor c) ((raiseReader e s).setCursor c { s.cursor c with held := some e, copy := none })

/-- Seek the next entry until one is entered or none is left (R159 steps 3 and 4); `fuel` bounds the entries passed
over. -/
def seekEntry (c : Nat) : Nat → State → State
  | 0, s => s
  | fuel + 1, s =>
    let k := s.cursor c
    match s.nextInWalk k with
    | none => s.setCursor c { k with latch := .atEnd }
    | some e =>
      if (s.entry e).state ≠ .stored then
        seekEntry c fuel (passEntry c e (s.setCursor c { k with notStored := skipUp k.notStored }))
      else if (s.entry e).verify = .bad then
        seekEntry c fuel (passEntry c e (s.setCursor c { k with bad := skipUp k.bad }))
      else if s.readable e then enterEntry c e s
      else seekEntry c fuel (passEntry c e (s.setCursor c { k with unreadable := skipUp k.unreadable }))

/-- Seek over the whole directory. -/
def seekOn (c : Nat) (s : State) : State := seekEntry c (s.media.dir.length + 1) s

/-- Go on from the copy of the held segment `e`, over the record indexes of its entry (R157): the first matching record
makes the latch READY; otherwise the segment is left and the next entry sought (R159 steps 1 and 2). -/
def loadFromCopy (c e : Nat) (copy : SegmentCopy) (s : State) : State :=
  let k := s.cursor c
  let v := s.entry e
  match decodeAlong k.filter (decodePayload s.cat.profile s.comp.codes v copy.payload) copy.failing
      (k.indexes v.day e v.recordCount) with
  | .found i r =>
    s.setCursor c { k with copy := some copy.used, latch := .ready { day := v.day, entry := e, index := i } r }
  | .exhausted => seekOn c (passEntry c e (releaseHeld c s))
  | .broken =>
    seekOn c (passEntry c e (releaseHeld c (s.setCursor c { k with unreadable := skipUp k.unreadable })))

/-- The places sought lie within the held segment (R159 step 1). A seek point of the held entry at or beyond its record count,
which DOWN meets before the entry is reached, is taken to lie within it: the pin and the copy are kept (R162, log 51). -/
def Cursor.seeksIn (k : Cursor) (day e : Nat) : Bool :=
  match k.bound with
  | .since p _ => decide (p.day = day) && decide (p.entry = e)
  | _ => false

/-- Begin a load (R159). -/
def startLoad (c : Nat) (s : State) : State :=
  let s := s.setCursor c { s.cursor c with latch := .loading, last := none }
  let k := s.cursor c
  match k.held, k.copy with
  | some e, some copy =>
    if k.seeksIn (s.entry e).day e then loadFromCopy c e copy s else seekOn c (releaseHeld c s)
  | _, _ => seekOn c s

/-- End a load in progress: the completion of its read is discarded and the pin it raised is lowered (R160); a queued read
keeps its place, in HALTED too (log 67). -/
def endLoad (c : Nat) (s : State) : State :=
  if (s.cursor c).copy.isNone && (s.cursor c).held.isSome then
    releaseHeld c (mapChannels (fun ch => ch.discard (fun r => decide (r = .cursor c))) s)
  else s

/-! ### Gathering (R161) -/

/-- The READ-RECORDS reply body (R201). -/
def recordsBody (k : Cursor) (got : List Gathered) : List Byte :=
  be 2 k.notStored ++ be 2 k.bad ++ be 2 k.unreadable ++
    listBody (fun g => be 2 g.place.entry ++ be 2 g.place.index ++ be 2 g.place.day ++ recordBytes g.record) got

/-- Send the READ-RECORDS reply: the skip counts are then 0 and last use is set (R161). From here the request is no longer
outstanding for the cursor, though its reply may wait for the transmitter (log 25). -/
def sendRecords (c : Nat) (w : ReadWait) (st : Status) (s : State) : State :=
  let k := s.cursor c
  answer w.req st (recordsBody k w.got)
    (s.setCursor c { k with reading := none, notStored := 0, bad := 0, unreadable := 0, lastUse := s.second })

/-- Gather records while the latch is READY (R161); `fuel` bounds the records of one reply. -/
def gather (c : Nat) : Nat → State → State
  | 0, s => s
  | fuel + 1, s =>
    let k := s.cursor c
    match k.reading, k.latch with
    | some w, .ready p r =>
      let w := { w with got := w.got ++ [{ place := p, record := r }] }
      let t := s.setCursor c { k with position := some p, latch := .empty, reading := some w }
      if w.count ≤ w.got.length then startLoad c (sendRecords c w .ok t)
      else gather c fuel (startLoad c t)
    | some w, .atEnd => sendRecords c w .endOfWalk s
    | _, _ => s

/-- Gather up to the 16 records of a reply (R161). -/
def gatherAll (c : Nat) (s : State) : State := gather c 17 s

/-! ### Closing (R164) -/

/-- A cursor becomes FREE: a load in progress ends and the held segment is left (R164). -/
def freeCursor (c : Nat) (s : State) : State :=
  (releaseHeld c (endLoad c s)).setCursor c {}

end Sys2Proof.Machine
end

