-- ==== Sys2Proof/Machine/AuditOps.lean ====
section
/-!
DEFINITION. Machine/AuditOps.lean: the walk of an audit job, the judgement of a segment and of a key, suspension and the
job's end (R146 to R153).
-/

namespace Sys2Proof.Machine
open Sys2Proof

/-- Write the job in hand; the audit read buffer has no meaning while no segment is in hand (R144). -/
def State.setJob (s : State) (j : Option Job) : State :=
  { s with audit := { s.audit with
      job := j, buffer := if (j.bind Job.inHand).isSome then s.audit.buffer else none } }

/-! ### The job's end (R153) -/

/-- A key given by its tally index. -/
def tallyKeyBody (i : Nat) : List Byte := keyBody (tallySource i) (tallyDay i)

/-- The job's summary, with the reads it counts at a cancellation (R153, log 62). -/
def jobSummary (j : Job) : List Byte :=
  match j.kind with
  | .verify first last =>
    be 2 first ++ be 2 last ++ opt (be 2) j.position ++ count4 j.good ++ count4 j.bad ++ count4 j.skipped ++
      count4 j.failed
  | .reconcile =>
    opt tallyKeyBody j.position ++ count4 j.matched ++ count4 j.mismatched ++ count4 j.skippedOpen ++
      count4 j.skippedBusy ++ count4 j.segmentsRead ++ count4 j.badReads

/-- The job ends and its request is answered (R153). -/
def endJob (j : Job) (st : Status) (s : State) : State :=
  answer j.req st (jobSummary j) (s.setJob none)

/-! ### VERIFY (R146, R147) -/

/-- The SEGMENT-BAD finding of an entry (R139, R147); an entry without records has no span, and its finding no range
(log 47). -/
def segmentBad (e : Nat) (v : DirEntry) (decoded : Nat) : FindingBody :=
  { kind := .segmentBad, source := some v.source, dataDay := some v.day, segment := some e, range := v.span,
    pair := some (v.recordCount, decoded) }

/-- Set an entry's verify status with today as its verify day, and lower its reader count (R147). -/
def setVerify (e : Nat) (st : VerifyStatus) (s : State) : State :=
  lowerReader e (s.setEntry e { s.entry e with verify := st, verifyDay := some s.today })

/-- A SEGMENT-BAD or TALLY-MISMATCH finding is owed: the job becomes SUSPENDED (R151). -/
def suspendJob (j : Job) (b : FindingBody) (s : State) : State :=
  s.setJob (some { j with owed := some b, reading := false })

/-- A BAD outcome whose finding has a place: the finding is written and the entry is marked (R147). -/
def markBad (j : Job) (e : Nat) (b : FindingBody) (s : State) : State :=
  (setVerify e .bad (writeFinding b s)).setJob
    (some { j with bad := j.bad + 1, inHand := none, reading := false, owed := none })

/-- A GOOD outcome (R147). -/
def markGood (j : Job) (e : Nat) (s : State) : State :=
  (setVerify e .good s).setJob (some { j with good := j.good + 1, inHand := none, reading := false })

/-- The payload agrees with the entry's CRC-32 (R147, R149, R159). -/
def crcAgrees (v : DirEntry) (p : Option Payload) : Bool :=
  match p with
  | none => false
  | some p => decide (v.crc = some p.crc)

/-- Records decoded from the payload read for an entry, under the profile in force (R4, R147). -/
def State.decoded (s : State) (e : Nat) (p : Option Payload) : Nat :=
  decodedCount s.cat.profile s.comp.codes (s.entry e) p

/-- The segment is GOOD: its payload was read, agrees with the entry's check, and decodes to its record count
(R147). -/
def State.segmentGood (s : State) (e : Nat) (p : Option Payload) : Bool :=
  crcAgrees (s.entry e) p && decide (s.decoded e p = (s.entry e).recordCount)

/-- The audit read buffer holds what the read of the segment in hand delivered (R144). -/
def fillBuffer (p : Option Payload) (s : State) : State := { s with audit := { s.audit with buffer := p } }

/-- Judge the segment in hand: GOOD, BAD, or SUSPENDED for want of a place (R147, R151). -/
def judgeSegment (j : Job) (e : Nat) (p : Option Payload) (s : State) : State :=
  let j := { j with failed := if p.isNone then j.failed + 1 else j.failed }
  let b := segmentBad e (s.entry e) (s.decoded e p)
  if s.segmentGood e p then markGood j e s
  else if s.freePlaces = 0 then suspendJob j b s
  else markBad j e b s

/-- The number the walk of a VERIFY job takes up next. -/
def nextToVerify (first : Nat) (j : Job) : Nat :=
  match j.position with
  | none => first
  | some n => n + 1

/-- Take up entries in ascending order: the ones that are not STORED are skipped, and the next STORED one is read; the
job ends after its last entry. It stops at a read, at a suspension, and in HALTED; `fuel` bounds the entries whose read
fails at once (R146, R154). -/
def verifyRun : Nat → State → State
  | 0, s => s
  | fuel + 1, s =>
    match s.audit.job with
    | none => s
    | some j =>
      match j.kind with
      | .reconcile => s
      | .verify first last =>
        if !s.inService || j.inHand.isSome || j.owed.isSome then s
        else
          let n := nextToVerify first j
          match Tbl.nextFrom (fun _ v => decide (v.state = .stored)) false (last + 1) n s.media.dir with
          | none => endJob { j with skipped := j.skipped + (last + 1 - n), position := some last } .ok s
          | some e =>
            let j := { j with skipped := j.skipped + (e - n), position := some e, inHand := some e }
            let t := raiseReader e s
            if t.readable e then askRead e .audit (t.setJob (some { j with reading := true }))
            else verifyRun fuel (judgeSegment j e none t)

/-- Run a VERIFY job over the whole directory. -/
def verifyOn (s : State) : State := verifyRun (s.media.dir.length + 2) s

/-! ### RECONCILE (R148 to R150) -/

/-- The bound of tally indexes. -/
def tallyBound : Nat := 67108864

/-- The entry has the key of a tally index. -/
def hasKey (i : Nat) (v : DirEntry) : Bool :=
  decide (v.source = tallySource i) && decide (v.day = tallyDay i)

/-- Some directory entry of the key is FILLING or WRITING (R148). -/
def State.keyBusy (s : State) (i : Nat) : Bool :=
  s.media.dir.any (fun e => hasKey i e.2 && (decide (e.2.state = .filling) || decide (e.2.state = .writing)))

/-- The next STORED entry of the key to count (R149). -/
def State.nextToCount (s : State) (i : Nat) (j : Job) : Option Nat :=
  Tbl.nextFrom (fun _ v => hasKey i v && decide (v.state = .stored)) false Config.entries
    (match j.lastRead with | none => 0 | some e => e + 1) s.media.dir

/-- A contribution to the key's records counted: the decoded records where the check agrees, and otherwise 0 with a bad
read; the reader count is lowered (R149). -/
def addContribution (j : Job) (e : Nat) (p : Option Payload) (s : State) : State :=
  let good := crcAgrees (s.entry e) p
  let j := { j with
    inHand := none, reading := false, lastRead := some e, segmentsRead := j.segmentsRead + 1
    counted := if good then j.counted + s.decoded e p else j.counted
    badReads := if good then j.badReads else j.badReads + 1 }
  (lowerReader e s).setJob (some j)

/-- Remove the key's tally entry, which applies the release test to a RETIRED source (R150). -/
def removeTally (i : Nat) (s : State) : State :=
  releaseTest (tallySource i) { s with intake := { s.intake with tally := Tbl.drop s.intake.tally i } }

/-- The TALLY-MISMATCH finding of a key (R139, R150). -/
def tallyMismatch (i accepted counted : Nat) : FindingBody :=
  { kind := .tallyMismatch, source := some (tallySource i), dataDay := some (tallyDay i),
    pair := some (accepted, counted) }

/-- A mismatch whose finding has a place: it is written and the key removed (R150). -/
def settleMismatch (j : Job) (i : Nat) (b : FindingBody) (s : State) : State :=
  (removeTally i (writeFinding b s)).setJob
    (some { j with mismatched := j.mismatched + 1, counting := false, owed := none })

/-- Settle a key whose STORED entries have all been counted (R150, R151). -/
def settleKey (j : Job) (i : Nat) (s : State) : State :=
  let accepted := ((Tbl.find s.intake.tally i).map TallyEntry.recordsAccepted).getD 0
  if j.counted = accepted then
    (removeTally i s).setJob (some { j with matched := j.matched + 1, counting := false })
  else if s.freePlaces = 0 then suspendJob j (tallyMismatch i accepted j.counted) s
  else settleMismatch j i (tallyMismatch i accepted j.counted) s

/-- Take up the next key above the position: skipped while OPEN or busy, and otherwise counted (R148). -/
def takeKey (j : Job) (s : State) : State :=
  let n := match j.position with | none => 0 | some i => i + 1
  match Tbl.nextFrom (fun _ _ => true) false tallyBound n s.intake.tally with
  | none => endJob j .ok s
  | some i =>
    let j := { j with position := some i }
    let state := (Tbl.find s.intake.tally i).map TallyEntry.state
    if state = some .opened then s.setJob (some { j with skippedOpen := j.skippedOpen + 1 })
    else if s.keyBusy i then s.setJob (some { j with skippedBusy := j.skippedBusy + 1 })
    else s.setJob (some { j with counting := true, lastRead := none, counted := 0 })

/-- Count the next STORED entry of the key in hand, or settle the key (R149, R150). -/
def countKey (j : Job) (i : Nat) (s : State) : State :=
  match s.nextToCount i j with
  | none => settleKey j i s
  | some e =>
    let j := { j with inHand := some e }
    let t := raiseReader e s
    if t.readable e then askRead e .audit (t.setJob (some { j with reading := true }))
    else addContribution j e none t

/-- Run a RECONCILE job until it reads, suspends or ends; in HALTED it takes nothing up (R148, R154). -/
def reconcileRun : Nat → State → State
  | 0, s => s
  | fuel + 1, s =>
    match s.audit.job with
    | none => s
    | some j =>
      if !s.inService || j.inHand.isSome || j.owed.isSome then s
      else
        match j.kind, j.counting, j.position with
        | .reconcile, true, some i => reconcileRun fuel (countKey j i s)
        | .reconcile, _, _ => reconcileRun fuel (takeKey j s)
        | _, _, _ => s

/-- Run a RECONCILE job over every key and segment there can be. -/
def reconcileOn (s : State) : State :=
  reconcileRun (2 * s.intake.tally.length + s.media.dir.length + 3) s

/-- Go on with the job in hand. -/
def jobOn (s : State) : State := reconcileOn (verifyOn s)

/-! ### Resumption (R151) -/

/-- A SUSPENDED job takes a free place: its owed finding is written and the outcome made; it then goes on (R151). -/
def resumeJob (s : State) : State :=
  match s.audit.job with
  | none => s
  | some j =>
    match j.owed with
    | none => s
    | some b =>
      if s.inService && decide (0 < s.freePlaces) then
        match j.kind, j.inHand, j.position with
        | .verify _ _, some e, _ => jobOn (markBad j e b s)
        | .reconcile, _, some i => jobOn (settleMismatch j i b s)
        | _, _, _ => s
      else s

end Sys2Proof.Machine
end

