-- ==== Sys2Proof/Machine/Lengths.lean ====
section
/-!
DEFINITION. Machine/Lengths.lean: how many bytes may follow a field code or a target code that the book does not list, so
that check 3 of R194 can refuse every other length (R75, R162, R204).
-/

namespace Sys2Proof.Machine
open Sys2Proof

/-- A digit string that takes the whole of some bytes (R204). -/
def wholeDigits : List Byte → Option (List Nat)
  | [] => none
  | n :: ds => if ds.length = n.toNat then some (ds.map BitVec.toNat) else none

/-- The bytes after an unlisted target code are as many as some target has after its code: none, as START and END, or the
four of an entry and its record index (R162, R194 check 3, log 27). -/
def targetLengthOk (raw : List Byte) : Bool := decide (raw.length = 0) || decide (raw.length = 4)

/-- The bytes after an unlisted field code are as many as some field's value has: the four of a CELL, the two of a TRUNK, or
those that the digit count of a PREFIX gives (R75, R194 check 3, log 27). -/
def codeLengthOk (raw : List Byte) : Bool :=
  decide (raw.length = 4) || decide (raw.length = 2) || (wholeDigits raw).isSome

end Sys2Proof.Machine
end

