-- ==== Sys2Proof/Machine/Sequence.lean ====
section
/-!
DEFINITION. Machine/Sequence.lean: sequence numbers modulo 65,536, and which of them a gap record holds (R15, R16).
-/

namespace Sys2Proof.Machine
open Sys2Proof

/-- Sequence numbers run from 0 to 65,535 and start again at 0. -/
def seqModulus : Nat := 65536

/-- The distance of a number from another, modulo 65,536 (R16). -/
def distance (n base : Nat) : Nat := (n + seqModulus - base % seqModulus) % seqModulus

/-- A number moved on, in modular sequence. -/
def seqAdd (n k : Nat) : Nat := (n + k) % seqModulus

/-- A number moved back, in modular sequence. -/
def seqSub (n k : Nat) : Nat := (n + seqModulus - k % seqModulus) % seqModulus

/-- The record holds the number (R15). -/
def gapHolds (n : Nat) (g : GapRecord) : Bool :=
  decide (distance n g.first ≤ distance g.last g.first)

/-- The record lies wholly behind a base; a record of one number has one distance (R15, log 29). -/
def whollyBehind (base : Nat) (g : GapRecord) : Bool :=
  decide (32768 ≤ distance g.first base) && decide (32768 ≤ distance g.last base) &&
    decide (distance g.first base ≤ distance g.last base)

/-- The numbers a run holds. -/
def runLength (first last : Nat) : Nat := distance last first + 1

end Sys2Proof.Machine
end

