-- ==== Sys2Proof/WellFormed.lean ====
section
/-!
DEFINITION. WellFormed.lean: which commands a frame, a module or the part itself can give: each number of a request fits
the bytes R204 gives its field, each event names what exists, and what a module delivers is data the part could have
written. It refuses no value that a request's own checks are to refuse.
-/

namespace Sys2Proof

/-! ### Fields (R204) -/

/-- The number fits in `w` bytes. -/
def fits (w v : Nat) : Bool := decide (v < 256 ^ w)

/-- A digit string as a frame carries it: its count in one byte, each digit in one. -/
def digitsFit (ds : List Nat) : Bool := fits 1 ds.length && ds.all (fits 1)

/-- Most bytes a body holds (R200). -/
def Config.bodyLimit : Nat := 4188

/-- The value fits its field's layout (R73, R204). -/
def CodeValue.fits : CodeValue → Bool
  | .cell n => Sys2Proof.fits 4 n
  | .trunk n => Sys2Proof.fits 2 n
  | .pfx ds => digitsFit ds

/-- The field and value of a DEFINE-CODE (R75); behind an unlisted field code stand as many bytes as some field's value has
(R194 check 3, log 27). -/
def CodeOperand.wf : CodeOperand → Bool
  | .known v => v.fits
  | .unknown code raw => fits 1 code && !([1, 2, 3].contains code) && Machine.codeLengthOk raw

/-- The target of a SEEK (R162); behind an unlisted target code stand as many bytes as some target has (R194 check 3,
log 27). -/
def SeekOperand.wf : SeekOperand → Bool
  | .start => true
  | .stop => true
  | .place e i => fits 2 e && fits 2 i
  | .unknown code raw => fits 1 code && !([1, 2, 3].contains code) && Machine.targetLengthOk raw

/-- The filter of an OPEN-CURSOR as a frame carries it (R158). -/
def FilterOperand.wf (f : FilterOperand) : Bool := digitsFit f.digits

/-- The scope of a hold as a frame carries it (R127). -/
def HoldScope.wf (c : HoldScope) : Bool :=
  fits 2 c.firstSource && fits 2 c.lastSource && fits 2 c.firstDay && fits 2 c.lastDay

/-! ### Data the flash modules hold -/

/-- The table's indexes rise and no entry listed equals the empty one. -/
def Tbl.canon {α : Type} [DecidableEq α] (d : α) (t : Tbl α) : Bool :=
  Tbl.rising t && t.all (fun e => decide (e.2 ≠ d))

/-- The law of the Findings Log (R138): ascending numbers from 1, each below the next finding number, and 512 places. -/
def findingsOk (findings : List Finding) (next : Nat) : Bool :=
  decide (1 ≤ next) && decide (next ≤ Config.findingNumbers) && decide (findings.length ≤ Config.findings) &&
    decide ((findings.map Finding.number).Pairwise (· < ·)) &&
    findings.all (fun f => decide (1 ≤ f.number) && decide (f.number < next))

/-- The law of the Class Table (R105): the lookback lies below least days, which never exceeds days. -/
def classesOk (lookback : Nat) (classes : Tbl ClassEntry) : Bool :=
  (List.range 8).all (fun c =>
    let v := Tbl.get {} classes c
    decide (lookback < v.least) && decide (v.least ≤ v.days) && decide (v.days ≤ 4000))

/-- A directory entry as an image holds it: FREE, STORED or EXPIRED (R72, R80, R85). -/
def entryAtRest (e : DirEntry) : Bool :=
  decide (e.state = .free) || decide (e.state = .stored) || decide (e.state = .expired)

/-- The sweeps an image is owed: an extension pending, a hold in motion, and a day not yet swept (R121). -/
def Image.sweepsOwed (i : Image) : Nat :=
  ((List.range 8).filter (fun c => (Tbl.get {} i.classes c).pending)).length +
    ((List.range Config.holds).filter (fun h =>
      decide ((Tbl.get {} i.holds h).state = .applying) || decide ((Tbl.get {} i.holds h).state = .releasing))).length +
    (if i.lastSwept < i.today then 1 else 0)

/-- The slots that the entries of a directory name, in entry order. -/
def namedSlots (dir : Tbl DirEntry) : List SlotRef := dir.filterMap (fun e => e.2.slot)

/-- The law of the Slot Map in an image (R82, R88, R90): every entry but a FREE one names a slot, which exists and is none of
the catalog slots, and no two entries name one slot. -/
def Image.slotsOk (i : Image) : Bool :=
  i.dir.all (fun e =>
      match e.2.slot with
      | none => decide (e.2.state = .free)
      | some r =>
        decide (e.2.state ≠ .free) && decide (r.channel < Config.channels) && decide (r.slot < Config.slotsPerChannel) &&
          !(decide (r.channel = i.channel) && decide (r.slot < Config.catalogSlots))) &&
    decide (namedSlots i.dir).Nodup

/-- The law of a gap list (R15): its base and its numbers are sequence numbers; at most 16 records, each a run of at most
32,767 numbers wholly behind the base; oldest first, each record ending before the next begins, so that no two share a
number. -/
def SourceEntry.gapsOk (e : SourceEntry) : Bool :=
  decide (e.base < 65536) && decide (e.gaps.length ≤ Config.gaps) &&
    e.gaps.all (fun g =>
      decide (g.first < 65536) && decide (g.last < 65536) && Machine.whollyBehind e.base g &&
        decide (Machine.runLength g.first g.last ≤ Config.gapRun)) &&
    decide (e.gaps.Pairwise (fun g h => Machine.distance g.last e.base < Machine.distance h.first e.base))

/-- The law of an image's shared codes (R73, R74): every code it lists is in use, and every code that an entry's used set
holds, in ascending order, is listed; a FREE entry holds none. -/
def Image.codesOk (i : Image) : Bool :=
  i.codes.all (fun c => decide (c.2.state ≠ .empty)) &&
    i.dir.all (fun e =>
      decide (e.2.used.Pairwise (· < ·)) && (decide (e.2.state ≠ .free) || e.2.used.isEmpty) &&
        e.2.used.all (fun c => decide ((Tbl.get {} i.codes c).state ≠ .empty)))

/-- An image as the part could have laid it out (R167, log 8): its tables in their form, the laws of R15, R74, R88, R105 and
R138, no entry in a state a snapshot cannot hold, and no more sweeps owed than the Sweep Queue holds (R108, R121). -/
def Image.wf (i : Image) : Bool :=
  Tbl.canon .online i.modes && Tbl.canon {} i.classes && Tbl.canon {} i.sources && Tbl.rising i.tally &&
    Tbl.canon {} i.dir && Tbl.canon {} i.codes && Tbl.canon {} i.holds &&
    findingsOk i.findings i.nextFinding && classesOk i.params.lookback i.classes &&
    i.dir.all (fun e => entryAtRest e.2) && i.slotsOk &&
    i.sources.all (fun e => e.2.gapsOk) && i.codesOk && decide (i.sweepsOwed ≤ Config.sweeps)

/-- A record of a payload: its fields within the ranges that R63 gives a form (R1 to R3). -/
def CodedRecord.wf (r : CodedRecord) : Bool :=
  decide (5 ≤ r.subscriber.length) && decide (r.subscriber.length ≤ 15) && r.subscriber.all (fun d => decide (d ≤ 9)) &&
    decide (r.start ≤ 86399) && decide (r.duration ≤ 86400) && decide (r.charge ≤ max32)

/-- A payload as a segment READ delivers it: at most 65,535 records and 240 dynamic codes (R64, R65, R96). -/
def Payload.wf (p : Payload) : Bool :=
  decide (p.records.length ≤ Config.recordLimit) && decide (p.dyn.length ≤ Config.dynamicCodes) &&
    p.records.all CodedRecord.wf

/-- What a segment READ delivers is a payload that a flash slot could hold. -/
def ReadResult.wf : ReadResult → Bool
  | .fail => true
  | .asLeft => true
  | .delivered p => p.wf

/-- What a CATALOG-READ delivers: a share of an image that could have been laid out. -/
def CatalogResult.wf : CatalogResult → Bool
  | .delivered (.share s) => s.image.wf
  | _ => true

/-! ### Commands -/

/-- The number of a channel (R88). -/
def channelOk (c : Nat) : Bool := decide (c < Config.channels)

/-- The command is one that can be given. -/
def Instr.wf : Instr → Bool
  | .powerUp present => decide (present.length = Config.channels)
  | .powerLoss => true
  | .catalogReadComplete c r => channelOk c && r.wf
  | .linkUp _ => true
  | .laneLoss _ => true
  | .linkResetFrame _ => true
  | .badFrame _ _ => true
  | .requestUnknownKind _ t k => fits 2 t && fits 1 k
  | .replySent _ => true
  | .noticeSent _ => true
  | .status _ t => fits 2 t
  | .setNoticeMask _ t ms => fits 2 t && decide (ms.length = 9) && ms.all (fits 1)
  | .setProfile _ t v => fits 2 t && fits 1 v
  | .enrolSource _ t n c b => fits 2 t && fits 2 n && fits 1 c && fits 2 b
  | .retireSource _ t n => fits 2 t && fits 2 n
  | .setSourceClass _ t n c => fits 2 t && fits 2 n && fits 1 c
  | .resequenceSource _ t n b => fits 2 t && fits 2 n && fits 2 b
  | .readSource _ t n => fits 2 t && fits 2 n
  | .openFile _ t n q d r l => fits 2 t && fits 2 n && fits 2 q && fits 2 d && fits 3 r && fits 4 l
  | .chunk _ t k o bs => fits 2 t && fits 1 k && fits 4 o && decide (bs.length + 5 ≤ Config.bodyLimit)
  | .closeFile _ t k _ => fits 2 t && fits 1 k
  | .fileAcceptance => true
  | .abortFile _ t k => fits 2 t && fits 1 k
  | .intakeIdleLimit k => decide (k < Config.intakeSlots)
  | .readSlots _ t => fits 2 t
  | .readTally _ t n d => fits 2 t && fits 2 n && fits 2 d
  | .appendRecord _ => true
  | .segmentWriteOk c => channelOk c
  | .segmentWriteFail c => channelOk c
  | .builderPageError c => channelOk c
  | .channelTimeout c => channelOk c
  | .operationEndDiscarded c _ => channelOk c
  | .readCompaction _ t => fits 2 t
  | .defineCode _ t c v => fits 2 t && fits 1 c && v.wf
  | .retireCode _ t c => fits 2 t && fits 1 c
  | .readCodes _ t => fits 2 t
  | .readSegment _ t e => fits 2 t && fits 2 e
  | .listSegments _ t n a b k => fits 2 t && fits 2 n && fits 2 a && fits 2 b && fits 2 k
  | .setChannel _ t c m => fits 2 t && fits 1 c && fits 1 m
  | .readChannel _ t c => fits 2 t && fits 1 c
  | .advanceDay _ t => fits 2 t
  | .setClass _ t c d => fits 2 t && fits 1 c && fits 2 d
  | .readRetention _ t => fits 2 t
  | .daySweepEntry => true
  | .extendSweepEntry => true
  | .entryEraseComplete c _ => channelOk c
  | .dirtySlotEraseComplete c _ => channelOk c
  | .createHold _ t c n => fits 2 t && c.wf && fits 4 n
  | .editHold _ t h c n => fits 2 t && fits 1 h && c.wf && fits 4 n
  | .discardHold _ t h => fits 2 t && fits 1 h
  | .activateHold _ t h => fits 2 t && fits 1 h
  | .applySweepEntry => true
  | .holdLoss => true
  | .releaseHold _ t h => fits 2 t && fits 1 h
  | .releaseSweepEntry => true
  | .readHold _ t h => fits 2 t && fits 1 h
  | .fetchFindings _ t a n => fits 2 t && fits 4 a && fits 1 n
  | .ackFindings _ t n _ => fits 2 t && fits 4 n
  | .verify _ t a b => fits 2 t && fits 2 a && fits 2 b
  | .verifyReadComplete c r => channelOk c && r.wf
  | .reconcile _ t => fits 2 t
  | .reconcileReadComplete c r => channelOk c && r.wf
  | .auditFindingResumed => true
  | .cancelAudit _ t => fits 2 t
  | .readAudit _ t => fits 2 t
  | .openCursor _ t n a b f d => fits 2 t && fits 2 n && fits 2 a && fits 2 b && f.all FilterOperand.wf && fits 1 d
  | .cursorReadComplete c r bad => channelOk c && r.wf && bad.all (fun b => decide (b.2 < Config.recordLimit))
  | .readRecords _ t c n => fits 2 t && fits 1 c && fits 1 n
  | .seek _ t c v => fits 2 t && fits 1 c && v.wf
  | .setDirection _ t c d => fits 2 t && fits 1 c && fits 1 d
  | .closeCursor _ t c => fits 2 t && fits 1 c
  | .cursorIdleClose c => decide (c < Config.cursors)
  | .readCursor _ t c => fits 2 t && fits 1 c
  | .checkpoint _ t => fits 2 t
  | .catalogWriteOk n => decide (n ≤ Config.intakeSlots)
  | .catalogWriteFail => true
  | .setParameter _ t p v => fits 2 t && fits 1 p && fits 1 v
  | .readCatalog _ t => fits 2 t
  | .resetController _ t => fits 2 t
  | .format _ t c => fits 2 t && fits 1 c
  | .consentFormat _ t n => fits 2 t && fits 2 n
  | .formatConsentExpiry => true
  | .formatEraseComplete c _ => channelOk c
  | .formatImageWriteComplete _ => true
  | .fetchFault _ t c => fits 2 t && fits 1 c
  | .resume _ t e => fits 2 t && fits 1 e
  | .abandon _ t e => fits 2 t && fits 1 e

end Sys2Proof
end

