-- ==== Sys2Proof/Machine/LoadOps.lean ====
section
/-!
DEFINITION. Machine/LoadOps.lean: clearing the state that no image holds, answering RESET, the load, and the stages of a
Format (R90, R99, R121, R166, R177 to R182).
-/

namespace Sys2Proof.Machine
open Sys2Proof

/-! ### Clearing (R179, R182) -/

/-- A reply whose request no longer stands in the outstanding-request list (log 13). -/
def Reply.unlisted (r : Reply) : Reply := { r with entered := false }

/-- A frame being sent whose request no longer stands in the list (log 13). -/
def Sending.unlisted : Sending → Sending
  | .reply r => .reply r.unlisted
  | n => n

/-- A reply to the request with this tag has been produced and not yet sent in full (R194, R195). -/
def LinkIf.answered (l : LinkIf) (tag : Nat) : Bool :=
  l.replies.any (fun r => r.entered && r.tag == tag) ||
    (match l.sending with
     | some (.reply r) => r.entered && r.tag == tag
     | _ => false)

/-- The RESET reply to an outstanding request (R179). -/
def resetReply (o : Outstanding) : Reply :=
  { kind := o.kind, tag := o.tag, status := .reset, body := [], entered := false }

/-- Answer RESET to every outstanding request of a port but the one with tag `keep`, which alone stays in the list
(R179, R182, R194, log 13). The RESET replies follow those already waiting, in the order of the list (log 48). -/
def LinkIf.resetAll (l : LinkIf) (keep : Option Nat) : LinkIf :=
  let others := l.outstanding.filter (fun o => some o.tag != keep)
  { l with
    outstanding := l.outstanding.filter (fun o => some o.tag == keep)
    replies := l.replies.map Reply.unlisted ++
      (others.filter (fun o => !l.answered o.tag)).map resetReply
    sending := l.sending.map Sending.unlisted }

/-- Answer RESET to every outstanding request on both ports but `keep`. -/
def resetRequests (keep : ReqRef) (s : State) : State :=
  let tagOn := fun (p : Port) => if keep.port = p ∧ s.isLive keep then some keep.tag else none
  { s with portA := s.portA.resetAll (tagOn .a), portB := s.portB.resetAll (tagOn .b) }

/-- A channel without the state a load sets: presence is kept, and the operation in progress runs on with its result
discarded (R92, R99). -/
def Channel.blank (ch : Channel) : Channel :=
  { present := ch.present, queue := ch.dropUnstarted.queue, started := ch.started }

/-- The archive's blocks at the values of a load ending in UNFORMATTED or CATALOG-FAULT, with the archive state given.
Links, Notice Sets, presence, the fault counter, the format number counter and the flash are kept (R179, R183, R180). -/
def blankArchive (a : ArchiveState) (s : State) : State :=
  { s with
    intake := {}
    comp := {}
    media := { channels := Tbl.mapListed {} (fun _ ch => ch.blank) s.media.channels, flash := s.media.flash }
    ret := {}
    audit := {}
    cursors := []
    cat := { archive := a, formatCounter := s.cat.formatCounter }
    fault := { counter := s.fault.counter } }

/-! ### Taking an image (R90, R178) -/

/-- Slots 0 to 15 of the catalog channel are CATALOG (R90). -/
def catalogSlots (c : Nat) (s : State) : State :=
  (List.range Config.catalogSlots).foldl (fun t k => t.setSlotState { channel := c, slot := k } .catalog) s

/-- The Slot Map as an image gives it, the catalog slots apart: slots named by entries USED, listed DEFECTIVE slots
DEFECTIVE, every other slot DIRTY (R90). -/
def loadSlots (img : Image) (s : State) : State :=
  let t := img.defective.foldl (fun t r => t.setSlotState r .defective) s
  img.dir.foldl (fun t e =>
    match e.2.slot with
    | none => t
    | some r => t.setSlotState r .used) t

/-- Each channel's set mode as the image records it (R92). -/
def loadModes (img : Image) (s : State) : State :=
  (List.range Config.channels).foldl (fun t c =>
    t.setChannel c { t.channel c with setMode := Tbl.get .online img.modes c }) s

/-- The number of non-FREE entries whose used set holds a code (R73, R74). -/
def useCount (dir : Tbl DirEntry) (c : Nat) : Nat :=
  (dir.filter (fun e => e.2.used.contains c)).length

/-- The counts of the shared codes, and the removal of RETIRED codes at 0 (R73). -/
def loadCodes (img : Image) : Tbl SharedCode :=
  Tbl.mapListed {} (fun c v =>
    if v.state = .retired ∧ useCount img.dir c = 0 then {} else { v with count := useCount img.dir c }) img.codes

/-- Every block takes its state from the image, what no image holds starting empty: files in flight and reader counts are 0
(R52, R85, R178). The ageing of the image's day has left what the image still lists as aged (log 34). -/
def restore (img : Image) (s : State) : State :=
  let t := { s with
    intake := { sources := img.sources, tally := img.tally.map (fun e => (e.1, { e.2 with inFlight := 0 })) }
    comp := { codes := img.codes }
    media := { s.media with dir := Tbl.mapListed {} (fun _ e => { e with readers := 0 }) img.dir
                            pointer := 7, slotWait := [] }
    ret := { today := img.today, lastSwept := img.lastSwept, classes := img.classes, holds := img.holds }
    audit := { findings := img.findings, next := img.nextFinding }
    cursors := []
    cat := { s.cat with profile := img.profile, params := img.params } }
  loadSlots img (loadModes img (keepAgeing t.ageLine t))

/-- The load takes an image of an area: the blocks take their state from it, with the catalog channel, the last completed
number and the newer area (R178). An EXPIRED entry whose expiry checkpoint lies one above the image's number (R112) keeps
it and waits for that checkpoint, where R121 calls every EXPIRED entry eligible (log 37). -/
def takeImage (img : Image) (area : Nat) (s : State) : State :=
  let t := catalogSlots img.channel (restore img s)
  { t with cat := { t.cat with channel := some img.channel, last := img.number, newer := some area } }

/-- The release test to each RETIRED source (R30, R178). -/
def loadReleases (s : State) : State :=
  s.intake.sources.foldl (fun t e => releaseTest e.1 t) s

/-- The closing test to each OPEN tally entry (R55, R178). -/
def loadClosings (s : State) : State :=
  { s with intake := { s.intake with
      tally := s.intake.tally.map (fun e => (e.1, closingTest s.today s.lookback (tallyDay e.1) e.2)) } }

/-- The sweep a hold in motion is owed (R121, R136). -/
def sweepOfHold (h : Nat) (v : Hold) : List SweepKind :=
  match v.state with
  | .applying => [.apply h]
  | .releasing => [.release h]
  | _ => []

/-- The sweeps the load queues, in order (R121). -/
def State.owedSweeps (s : State) : List SweepKind :=
  ((List.range 8).filter (fun c => (s.retClass c).pending)).map SweepKind.extend ++
    (List.range Config.holds).flatMap (fun h => sweepOfHold h (s.hold h)) ++
    (if s.ret.lastSwept < s.ret.today then [.day] else [])

/-- Rebuild the Sweep Queue (R121). -/
def rebuildSweeps (s : State) : State :=
  s.owedSweeps.foldl (fun t k => pushSweep k [] t) s

/-- The tests a load applies, in the order of R178. -/
def loadTests (img : Image) (s : State) : State :=
  let t := loadClosings (loadReleases s)
  rebuildSweeps { t with comp := { t.comp with codes := loadCodes img } }

/-- The load ends in an archive state: its RESET-CONTROLLER, if one started it, is answered with that state (R179). -/
def endLoadWith (a : ArchiveState) (s : State) : State :=
  let starter := match s.cat.load with
    | none => none
    | some l => l.starter
  let t := { s with cat := { s.cat with archive := a, load := none } }
  match starter with
  | none => t
  | some r => answer r .ok (be 1 (archiveCode a)) t

/-- The load takes an image: SERVICE, and the Eraser looks for work (R178). -/
def loadImage (img : Image) (area : Nat) (s : State) : State :=
  lookForWork (endLoadWith .service (loadTests img (takeImage img area s)))

/-! ### The load (R177) -/

/-- Write the load in progress. -/
def State.setLoad (s : State) (l : Option Load) : State := { s with cat := { s.cat with load := l } }

/-- Ask the CATALOG-READ of a slot (R177). -/
def askCatalogRead (c k : Nat) (s : State) : State :=
  askOp c { kind := .catalogRead, slot := k, requester := .load, entry := none, data := .unknown } s

/-- The PRESENT channels, ascending (R92). -/
def State.presentChannels (s : State) : List Nat :=
  (List.range Config.channels).filter (fun c => (s.channel c).present)

/-- Ask the reads a load begins with, once no channel has an operation in progress (R177, R99); those of one channel in
ascending slot order (log 57). -/
def beginReads (s : State) : State :=
  match s.cat.load with
  | none => s
  | some l =>
    if l.asked || !s.channelsQuiet then s
    else
      let t := s.setLoad (some { l with asked := true })
      match l.target with
      | .channel c => (List.range Config.catalogSlots).foldl (fun u k => askCatalogRead c k u) t
      | .search =>
        if s.presentChannels.isEmpty then endLoadWith .unformatted t
        else s.presentChannels.foldl (fun u c => askCatalogRead c 8 (askCatalogRead c 0 u)) t

/-- The share a noted read returned names the channel it was read from and the area of its slot (R177). -/
def Noted.names (n : Noted) : Bool :=
  match n.data with
  | some (.share sh) => decide (sh.channel = n.channel) && decide (sh.area = n.slot / 8)
  | _ => false

/-- The candidates among the channels read (R177). -/
def candidates (notes : List Noted) : List Nat :=
  (List.range Config.channels).filter (fun c => notes.any (fun n => decide (n.channel = c) && n.names))

/-- The share noted for a slot. -/
def shareAt (notes : List Noted) (slot : Nat) : Option Share :=
  match notes.find? (fun n => decide (n.slot = slot)) with
  | some { data := some (.share sh), .. } => some sh
  | _ => none

/-- The share is piece `k` of the image and carries its marks (R167, log 8). -/
def shareFits (c area k : Nat) (img : Image) (sh : Option Share) : Bool :=
  match sh with
  | none => false
  | some sh =>
    decide (sh.number = img.number) && decide (sh.channel = c) && decide (sh.area = area) &&
      decide (sh.index = k) && decide (sh.image = img)

/-- The CRC-32 over the image agrees (R167). -/
def imageAgrees (i : Image) : Bool := decide (i.crc = imageCheck i)

/-- The valid image of an area, if it holds one: eight shares that fit, of an image whose CRC-32 agrees and that a part
could have laid out (R167, log 8). -/
def validImage (c area : Nat) (notes : List Noted) : Option Image :=
  match shareAt notes (8 * area) with
  | none => none
  | some sh =>
    if imageAgrees sh.image && sh.image.wf &&
        (List.range 8).all (fun k => shareFits c area k sh.image (shareAt notes (8 * area + k))) then
      some sh.image
    else none

/-- The image to take and its area: the valid one with the higher number, area 0 of two alike (R177). -/
def chooseImage (a b : Option Image) : Option (Image × Nat) :=
  match a, b with
  | none, none => none
  | some i, none => some (i, 0)
  | none, some j => some (j, 1)
  | some i, some j => if i.number < j.number then some (j, 1) else some (i, 0)

/-- Judge the two areas of the catalog channel, all 16 slots read (R177). -/
def judgeAreas (c : Nat) (l : Load) (s : State) : State :=
  match chooseImage (validImage c 0 l.noted) (validImage c 1 l.noted) with
  | none => endLoadWith .catalogFault s
  | some (img, area) => loadImage img area s

/-- Judge the candidates of a search (R177). The 14 slots of the one candidate not yet read are asked in ascending slot
order (log 57). -/
def judgeCandidates (l : Load) (s : State) : State :=
  match candidates l.noted with
  | [] =>
    if l.noted.all (fun n => decide (n.data = some .blank)) then endLoadWith .unformatted s
    else endLoadWith .catalogFault s
  | [c] =>
    let t := s.setLoad (some { l with
      target := .channel c, noted := l.noted.filter (fun n => decide (n.channel = c)) })
    ((List.range Config.catalogSlots).filter (fun k => k != 0 && k != 8)).foldl (fun u k => askCatalogRead c k u) t
  | _ => endLoadWith .catalogFault s

/-- Note a read of the load, and judge when every read asked has ended (R177). -/
def noteRead (n : Noted) (s : State) : State :=
  match s.cat.load with
  | none => s
  | some l =>
    let l := { l with noted := l.noted ++ [n] }
    let t := s.setLoad (some l)
    match l.target with
    | .channel c => if l.noted.length = Config.catalogSlots then judgeAreas c l t else t
    | .search => if l.noted.length = 2 * s.presentChannels.length then judgeCandidates l t else t

/-- What a CATALOG-READ returns (R177, log 8). -/
def readCatalogData (c slot : Nat) (r : CatalogResult) (s : State) : Option CatalogData :=
  match r with
  | .fail => none
  | .delivered d => some d
  | .asLeft =>
    match s.flashAt c slot with
    | .blank => some .blank
    | .share sh => some (.share sh)
    | .segment _ => some .other
    | .unknown => some (Config.unknownCatalogData s.free)

/-- A load searching as at power-up begins (R177, R182). -/
def searchLoad (s : State) : State := beginReads (s.setLoad (some { target := .search }))

/-! ### Format (R182) -/

/-- Write the Format in progress. -/
def State.setFormat (s : State) (f : Option FormatOp) : State := { s with cat := { s.cat with format := f } }

/-- Ask the erase of a slot for Format (R182). -/
def askFormatErase (c k : Nat) (s : State) : State :=
  askOp c { kind := .erase, slot := k, requester := .format, entry := none, data := .blank } s

/-- The former catalog channel is `c`. -/
def FormatOp.isOld (f : FormatOp) (c : Nat) : Bool := decide (f.oldChan = some c)

/-- The channels a stage erases (R182 phase 2). -/
def State.stageChannels (s : State) (f : FormatOp) : List Nat :=
  match f.phase with
  | .erasingOld => s.presentChannels.filter f.isOld
  | .erasingFirst => s.presentChannels.filter (fun c => !f.isOld c)
  | .erasingRest => s.presentChannels
  | _ => []

/-- The first slot of a stage, and the slot it ends before. -/
def stageSlots : FormatPhase → Nat × Nat
  | .erasingRest => (Config.catalogSlots, Config.slotsPerChannel)
  | _ => (0, Config.catalogSlots)

/-- The stage after a stage. -/
def nextStage : FormatPhase → FormatPhase
  | .clearing => .erasingOld
  | .erasingOld => .erasingFirst
  | .erasingFirst => .erasingRest
  | _ => .image

/-- The Slot Map as the first image finds it: DEFECTIVE where an erase failed, slots 0 to 15 of the chosen channel
CATALOG, every other slot CLEAN (R90, R182). -/
def formatSlots (chosen : Nat) (s : State) : State :=
  let clean := fun (ch : Channel) =>
    { ch with rest := .clean, slots := ch.slots.filter (fun e => decide (e.2 = .defective)) }
  catalogSlots chosen (mapChannels clean s)

/-- The archive's blocks at their values after Format; the channels, the flash, the Format itself and the format number
counter are kept (R182 phase 3). -/
def afterFormat (chosen : Nat) (s : State) : State :=
  { s with
    intake := {}
    comp := {}
    media := { channels := s.media.channels, flash := s.media.flash }
    ret := {}
    audit := {}
    cursors := []
    cat := { archive := s.cat.archive, formatCounter := s.cat.formatCounter, format := s.cat.format,
             channel := some chosen } }

/-- The first image is written to area 0 (R182 phase 3). -/
def beginFirstImage (f : FormatOp) (s : State) : State :=
  let t := afterFormat f.channel (formatSlots f.channel s)
  let img := t.snapshot 1 f.channel
  writeImage img 0 { t with cat := { t.cat with buffer := some img, format := some { f with phase := .image } } }

/-- Go on to the next stage that has a slot to erase, or to the first image; `fuel` bounds the stages. -/
def advanceStage : Nat → State → State
  | 0, s => s
  | fuel + 1, s =>
    match s.cat.format with
    | none => s
    | some f =>
      match nextStage f.phase with
      | .image => beginFirstImage f s
      | p =>
        let f := { f with phase := p }
        let t := s.setFormat (some f)
        match t.stageChannels f with
        | [] => advanceStage fuel t
        | cs => cs.foldl (fun u c => askFormatErase c (stageSlots p).1 u) t

/-- The Format is clearing (R182 phase 1). -/
def State.clearing (s : State) : Bool :=
  match s.cat.format with
  | none => false
  | some f => decide (f.phase = .clearing)

/-- As erasing begins, every channel's set mode becomes ONLINE, and the slots of an ABSENT one CLEAN without an erase
(R182 phase 2). -/
def Channel.opened (ch : Channel) : Channel :=
  if ch.present then { ch with setMode := .online } else { ch with setMode := .online, rest := .clean, slots := [] }

/-- Clearing ends when no channel has an operation in progress: erasing begins (R182). -/
def endClearing (s : State) : State :=
  if s.clearing && s.channelsQuiet then advanceStage 4 (mapChannels Channel.opened s) else s

/-- What waits for the channels to fall quiet: a load's reads (R99), or Format's erases (R182). -/
def afterQuiet (s : State) : State := endClearing (beginReads s)

/-- An entry as no image could hold it otherwise: FILLING and WRITING ones are FREE (R72, R80), an ERASING one EXPIRED,
reader counts 0 (R85). -/
def entryKept (e : DirEntry) : DirEntry :=
  match e.state with
  | .filling => {}
  | .writing => {}
  | _ => imageEntry e

/-- All state that no image holds is discarded; what an image would hold stands, with the counts of the shared codes that the
entries left give, the catalog channel and the last completed number (R74, R182 phase 1). -/
def discardTransient (a : ArchiveState) (s : State) : State :=
  let img := { s.contents s.cat.last (s.cat.channel.getD 0) with
    dir := Tbl.mapListed {} (fun _ e => entryKept e) s.media.dir }
  let t := restore img (blankArchive a s)
  let t := { t with comp := { t.comp with codes := loadCodes img } }
  let t := match s.cat.channel with
    | none => t
    | some c => catalogSlots c t
  { t with cat := { t.cat with channel := s.cat.channel, last := s.cat.last, newer := s.cat.newer } }

/-- FORMATTING begins (R182). -/
def beginFormat (starter : ReqRef) (consent : Bool) (chosen : Nat) (s : State) : State :=
  let t := discardTransient .formatting (resetRequests starter s)
  endClearing (t.setFormat (some
    { phase := .clearing, starter := starter, consent := consent, channel := chosen, oldChan := s.cat.channel }))

/-- The Format fails: no further erase starts, the starter is answered FORMAT-FAILED with the chosen channel and the
failing slot, and the archive state becomes CATALOG-FAULT (R182); it stays listed until that reply is sent (log 13). -/
def failFormat (f : FormatOp) (r : SlotRef) (s : State) : State :=
  answer f.starter .formatFailed (be 1 f.channel ++ slotBody r) (blankArchive .catalogFault s)

/-- The failed erase of one of these slots fails the Format: the former catalog channel's 16 slots, and slots 0 to 15 of
the chosen channel (R182). -/
def FormatOp.fatal (f : FormatOp) (r : SlotRef) : Bool :=
  decide (r.slot < Config.catalogSlots) && (f.isOld r.channel || decide (r.channel = f.channel))

/-- An erase of Format ends: CLEAN or DEFECTIVE; the channel erases its next slot of the stage (R182). -/
def formatErased (f : FormatOp) (r : SlotRef) (ok : Bool) (s : State) : State :=
  if !ok && f.fatal r then failFormat f r s
  else
    let t := s.setSlotState r (if ok then .clean else .defective)
    if r.slot + 1 < (stageSlots f.phase).2 then askFormatErase r.channel (r.slot + 1) t else t

/-- The Format is in a stage of its erasing (R182). -/
def State.erasingStage (s : State) : Bool :=
  match s.cat.format with
  | none => false
  | some f =>
    decide (s.cat.archive = .formatting) &&
      (decide (f.phase = .erasingOld) || decide (f.phase = .erasingFirst) || decide (f.phase = .erasingRest))

/-- The next stage begins when every channel is done with this one (R182). -/
def nextStageWhenQuiet (s : State) : State :=
  if s.erasingStage && s.channelsQuiet then advanceStage 4 s else s

/-- A share of the first image has been written; with all eight the Format ends (R182). Its starter, answered here, stays in
its port's list until the reply has been sent, where R194 says that the list is empty after Format (log 13). -/
def firstImageShare (f : FormatOp) (s : State) : State :=
  if s.cat.sharesOk + 1 < 8 then { s with cat := { s.cat with sharesOk := s.cat.sharesOk + 1 } }
  else
    let t := { s with cat := { s.cat with archive := .service, last := 1, newer := some 0, buffer := none,
                                          sharesOk := 0, format := none } }
    answer f.starter .ok [] (raiseBoth noticeCheckpointDone 1 t)

end Sys2Proof.Machine
end

