-- ==== Sys2Proof/Machine/Operands.lean ====
section
/-!
DEFINITION. Machine/Operands.lean: the coded fields of requests and replies: a value named from a list is carried as the
code spec/13 gives, and otherwise as 1 upward in the order its rule first lists the values (R204).
-/

namespace Sys2Proof.Machine
open Sys2Proof

/-! ### Codes read from requests -/

/-- SET-PROFILE's profile: P1 to P4 (R10, R203). -/
def profileOf : Nat → Option Profile
  | 1 => some .p1
  | 2 => some .p2
  | 3 => some .p3
  | 4 => some .p4
  | _ => none

/-- SET-CHANNEL's mode (R92, R93). -/
def modeOf : Nat → Option ChanMode
  | 1 => some .online
  | 2 => some .draining
  | 3 => some .offline
  | _ => none

/-- A direction (R156). -/
def directionOf : Nat → Option Direction
  | 1 => some .up
  | 2 => some .down
  | _ => none

/-- An engine (R187, R203). -/
def engineOfCode : Nat → Option Engine
  | 1 => some .compaction
  | 2 => some .eraser
  | 3 => some .catalog
  | _ => none

/-- A mask: 1 enabled, 2 masked (R197, R198, log 22). -/
def maskOf : Nat → Option Bool
  | 1 => some false
  | 2 => some true
  | _ => none

/-! ### Codes carried in replies -/

/-- Port A is 1 and port B is 2 (R123, R156). -/
def portCode : Port → Nat
  | .a => 1
  | .b => 2

/-- A source's state (R14). -/
def sourceStateCode : SourceState → Nat
  | .empty => 1
  | .active => 2
  | .retired => 3

/-- A tally entry's state (R52). -/
def tallyStateCode : TallyState → Nat
  | .opened => 1
  | .closed => 2

/-- An Intake Slot's state (R34). -/
def slotPhaseCode : SlotPhase → Nat
  | .idle => 1
  | .receiving => 2
  | .closing => 3

/-- A directory entry's state (R81). -/
def entryStateCode : EntryState → Nat
  | .free => 1
  | .filling => 2
  | .writing => 3
  | .stored => 4
  | .expired => 5
  | .erasing => 6

/-- A verify status (R81). -/
def verifyCode : VerifyStatus → Nat
  | .unverified => 1
  | .good => 2
  | .bad => 3

/-- A builder's state (R60). -/
def builderCode : BuilderPhase → Nat
  | .free => 1
  | .filling => 2
  | .closing => 3

/-- A shared code's state (R73). -/
def codeStateCode : CodeState → Nat
  | .empty => 1
  | .defined => 2
  | .retired => 3

/-- The field a code stands for (R73). -/
def codeFieldCode : CodeValue → Nat
  | .cell _ => 1
  | .trunk _ => 2
  | .pfx _ => 3

/-- The value a code stands for (R73, R204). -/
def codeValueBody : CodeValue → List Byte
  | .cell n => be 4 n
  | .trunk n => be 2 n
  | .pfx ds => digitsBody ds

/-- A channel's set mode or mode in force (R92). -/
def modeCode : ChanMode → Nat
  | .online => 1
  | .draining => 2
  | .offline => 3

/-- PRESENT is 1 and ABSENT is 2 (R92). -/
def presenceCode (present : Bool) : Nat := if present then 1 else 2

/-- The kind of a channel operation (R95). -/
def opKindCode : OpKind → Nat
  | .write => 1
  | .read => 2
  | .erase => 3
  | .catalogWrite => 4
  | .catalogRead => 5

/-- A sweep's kind and its parameter (R108, log 22). -/
def sweepBody : SweepKind → List Byte
  | .day => be 1 1
  | .extend c => be 1 2 ++ be 1 c
  | .apply h => be 1 3 ++ be 1 h
  | .release h => be 1 4 ++ be 1 h

/-- A hold's state (R123). -/
def holdStateCode : HoldState → Nat
  | .empty => 1
  | .draft => 2
  | .applying => 3
  | .active => 4
  | .releasing => 5

/-- A hold's scope (R123). -/
def scopeBody (c : HoldScope) : List Byte :=
  be 2 c.firstSource ++ be 2 c.lastSource ++ be 2 c.firstDay ++ be 2 c.lastDay

/-- A direction (R156). -/
def directionCode : Direction → Nat
  | .up => 1
  | .down => 2

/-- A seek point (R156). -/
def seekPointBody : SeekPoint → List Byte
  | .start => be 1 1
  | .stop => be 1 2
  | .place p => be 1 3 ++ placeBody p

/-- A latch's state: EMPTY, LOADING, READY holding a record, READY holding END (R156, log 22). -/
def latchCode : Latch → Nat
  | .empty => 1
  | .loading => 2
  | .ready _ _ => 3
  | .atEnd => 4

/-- A filter (R156). -/
def filterBody (f : Filter) : List Byte :=
  digitsBody f.subscriber ++
    setBody [1, 2, 3, 4, 5, 6] (fun n => f.kinds.any (fun k => kindNumber k == n))

/-- A set of shared codes (R204). -/
def codesBody (used : List Nat) : List Byte := setBody (List.range 16) (fun c => used.contains c)

/-- A span (R81). -/
def spanBody (p : Nat × Nat) : List Byte := be 2 p.1 ++ be 2 p.2

/-! ### The states that follow from others -/

/-- Some builder is CLOSING (R70). -/
def State.closing (s : State) : Bool := s.comp.builders.any (fun e => decide (e.2.phase = .closing))

/-- The compaction state: 1 IDLE, 2 RUNNING, 3 DRAINING, 4 STOPPED (R70, R203). -/
def State.compactionCode (s : State) : Nat :=
  if s.comp.stopped then 4
  else if s.cat.state = .quiescing then 3
  else if s.comp.queue.isEmpty && !s.closing then 1
  else 2

/-- The Retention Unit's state: 1 IDLE, 2 SWEEPING, 3 SUSPENDED (R109, R203). -/
def State.retentionCode (s : State) : Nat :=
  if s.ret.suspended then 3 else if s.ret.sweeps.isEmpty then 1 else 2

/-- The Eraser's state: 1 IDLE, 2 ERASING, 3 STOPPED (R117, R203). -/
def State.eraserCode (s : State) : Nat :=
  if s.ret.eraserStopped then 3 else if s.ret.erasing.isEmpty then 1 else 2

/-- The Audit Unit's state: 1 IDLE, 2 VERIFYING, 3 RECONCILING, 4 SUSPENDED (R144, R203). -/
def State.auditCode (s : State) : Nat :=
  match s.audit.job with
  | none => 1
  | some j =>
    if j.owed.isSome then 4
    else
      match j.kind with
      | .verify _ _ => 2
      | .reconcile => 3

/-- A context's state: 0 EMPTY, 1 HELD, 2 TAKEN (R203). -/
def contextCode : FaultContext → Nat
  | .empty => 0
  | .held _ _ => 1
  | .taken _ _ => 2

/-- The halt record's state: 0 EMPTY, or 3 when it holds a fault (R203). -/
def haltCode (h : Option (Nat × FaultInfo)) : Nat := if h.isSome then 3 else 0

/-- The slots in a state over all channels (R88). -/
def State.totalSlots (s : State) (st : SlotState) : Nat :=
  ((List.range Config.channels).map (fun c => (s.channel c).countSlots st)).sum

/-- The archive states in which a request of the kind READ-RETENTION, READ-HOLD, FETCH-FINDINGS or READ-AUDIT is taken
(R122, R137, R141, R155). -/
def State.serviceOrHalted (s : State) : Bool := s.inService || !s.notHalted

end Sys2Proof.Machine
end

