-- ==== Sys2Proof/Machine/Windows.lean ====
section
/-!
DEFINITION. Machine/Windows.lean: positions, windows, gap lists and their fitting (R15 to R26, R32).
-/

namespace Sys2Proof.Machine
open Sys2Proof

/-- A position of a sequence number (R16). -/
inductive Position
  | inside (i : Nat)
  | ahead (d : Nat)
  | behind
  deriving DecidableEq, Repr

/-- The position of a number relative to a base (R16). -/
def positionOf (n base : Nat) : Position :=
  let d := distance n base
  if d < 64 then .inside d else if d < 32768 then .ahead d else .behind

/-- The position test at OPEN-FILE (R16). -/
def openPosition (e : SourceEntry) (n : Nat) : Option Status :=
  match positionOf n e.base with
  | .inside i => if e.marks.getLsbD i then some .duplicate else none
  | .ahead _ => none
  | .behind => if e.gaps.any (gapHolds n) then none else some .stale

/-! ### Fitting gap records (R20) -/

/-- Step 1: the newest record is extended by the first run where they join and hold no more than 32,767 numbers;
otherwise every run is a record of its own. -/
def extendNewest (list : List GapRecord) (runs : List GapRecord) : List GapRecord :=
  match list.getLast?, runs with
  | some newest, r :: rest =>
    if seqAdd newest.last 1 = r.first ∧ runLength newest.first r.last ≤ Config.gapRun then
      list.dropLast ++ { newest with last := r.last } :: rest
    else list ++ runs
  | _, _ => list ++ runs

/-- Put a record where its distance from the base places it. -/
def insertByAge (base : Nat) (g : GapRecord) : List GapRecord → List GapRecord
  | [] => [g]
  | h :: t => if distance g.first base < distance h.first base then g :: h :: t else h :: insertByAge base g t

/-- Step 2: oldest first, measured from the base that will stand. -/
def orderByAge (base : Nat) (gs : List GapRecord) : List GapRecord :=
  gs.foldl (fun acc g => insertByAge base g acc) []

/-- Step 3, on a list in order: every record that does not lie wholly behind the base is displaced, and of the others the
oldest `excess`: the records kept, and the displaced ones, oldest first (R15, R20, R32; log 33). -/
def trimGaps (base : Nat) : Nat → List GapRecord → List GapRecord × List GapRecord
  | _, [] => ([], [])
  | excess, g :: t =>
    let behind := whollyBehind base g
    let r := trimGaps base (if behind then excess - 1 else excess) t
    if behind && decide (excess = 0) then (g :: r.1, r.2) else (r.1, g :: r.2)

/-- The records by which a list exceeds 16, those that do not lie wholly behind the base apart (R20). -/
def excessGaps (base : Nat) (gs : List GapRecord) : Nat := gs.countP (whollyBehind base) - Config.gaps

/-- Steps 1 to 3 of R20: the records kept and those displaced. -/
def fitGaps (base : Nat) (list runs : List GapRecord) : List GapRecord × List GapRecord :=
  let gs := orderByAge base (extendNewest list runs)
  trimGaps base (excessGaps base gs) gs

/-! ### Runs of unreceived numbers -/

/-- Add an offset to runs kept newest first. -/
def addOffset (runs : List (Nat × Nat)) (i : Nat) : List (Nat × Nat) :=
  match runs with
  | [] => [(i, i)]
  | (a, b) :: t => if b + 1 = i then (a, i) :: t else (i, i) :: (a, b) :: t

/-- The runs of clear marks among the first `n` offsets, newest first. -/
def clearRuns (marks : Marks) (n : Nat) : List (Nat × Nat) :=
  ((List.range n).filter (fun i => !marks.getLsbD i)).foldl addOffset []

/-- The runs of unreceived numbers among the first `d` offsets; beyond the 64 marks every number is unreceived. -/
def unreceivedRuns (marks : Marks) (d : Nat) : List (Nat × Nat) :=
  if d ≤ 64 then (clearRuns marks d).reverse
  else
    match clearRuns marks 64 with
    | (a, 63) :: t => ((a, d - 1) :: t).reverse
    | rs => ((64, d - 1) :: rs).reverse

/-- The gap record of a run of offsets from a base, detected today (R18, R32). -/
def gapOfRun (base today : Nat) (r : Nat × Nat) : GapRecord :=
  { first := seqAdd base r.1, last := seqAdd base r.2, day := today }

/-! ### Moving the window (R17, R18) -/

/-- Base and marks. -/
structure Window where
  base  : Nat
  marks : Marks
  deriving DecidableEq, Repr

/-- The base advances past every consecutive set mark that begins at it (R17). -/
def advanceWindow : Nat → Window → Window
  | 0, w => w
  | fuel + 1, w =>
    if w.marks.getLsbD 0 then advanceWindow fuel { base := seqAdd w.base 1, marks := w.marks >>> 1 } else w

/-- Set the mark of an offset. -/
def setMark (m : Marks) (i : Nat) : Marks := m ||| (1#64 <<< i)

/-- The outcome of the judgement of a file at acceptance. -/
inductive Verdict
  | refused (st : Status)
  | gapsFull
  | accepted (e : SourceEntry) (displaced : List GapRecord) (pos : Nat)
  deriving DecidableEq, Repr

/-- The codes of the position in the CLOSE-FILE reply: INSIDE, AHEAD, LATE (R46). -/
def posInside : Nat := 1
/-- AHEAD (R46). -/
def posAhead : Nat := 2
/-- LATE (R46). -/
def posLate : Nat := 3

/-- Step 4 of R20: the change stands when the log has as many free places as records are displaced. -/
def settleFit (e : SourceEntry) (w : Window) (fit : List GapRecord × List GapRecord) (places pos : Nat) : Verdict :=
  if fit.2.length ≤ places then
    .accepted { e with base := w.base, marks := w.marks, gaps := fit.1 } fit.2 pos
  else .gapsFull

/-- A file inside the window (R17). -/
def judgeInside (e : SourceEntry) (i places : Nat) : Verdict :=
  if e.marks.getLsbD i then .refused .duplicate
  else
    let w := advanceWindow 64 { base := e.base, marks := setMark e.marks i }
    if w.base = e.base then .accepted { e with marks := w.marks } [] posInside
    else settleFit e w (fitGaps w.base e.gaps []) places posInside

/-- A file ahead of the window, at distance `d` (R18, log 17). -/
def judgeAhead (e : SourceEntry) (d today places : Nat) : Verdict :=
  let moved := d - 63
  let runs := (unreceivedRuns e.marks moved).map (gapOfRun e.base today)
  let w := advanceWindow 64 { base := seqAdd e.base moved, marks := setMark (e.marks >>> moved) 63 }
  settleFit e w (fitGaps w.base e.gaps runs) places posAhead

/-- The parts left of a gap record when a number is taken from it (R19). -/
def takeFromGap (n : Nat) (g : GapRecord) : List GapRecord × Option GapRecord :=
  if g.first = n ∧ g.last = n then ([], none)
  else if g.first = n then ([{ g with first := seqAdd n 1 }], none)
  else if g.last = n then ([{ g with last := seqSub n 1 }], none)
  else ([{ g with last := seqSub n 1 }], some { g with first := seqAdd n 1 })

/-- A file behind the window (R19). -/
def judgeBehind (e : SourceEntry) (n places : Nat) : Verdict :=
  match e.gaps.find? (gapHolds n) with
  | none => .refused .stale
  | some g =>
    let rest := e.gaps.flatMap (fun h => if h = g then (takeFromGap n g).1 else [h])
    match (takeFromGap n g).2 with
    | none => .accepted { e with gaps := rest } [] posLate
    | some second =>
      settleFit e { base := e.base, marks := e.marks } (fitGaps e.base rest [second]) places posLate

/-- The judgement of a file at acceptance (R16 to R20). -/
def judgeFile (e : SourceEntry) (n today places : Nat) : Verdict :=
  match positionOf n e.base with
  | .inside i => judgeInside e i places
  | .ahead d => judgeAhead e d today places
  | .behind => judgeBehind e n places

/-! ### Resequencing (R32) -/

/-- The highest set mark of a window. -/
def highestMark (m : Marks) : Option Nat := (List.range 64).reverse.find? (fun i => m.getLsbD i)

/-- The runs a resequencing forms: unreceived numbers up to the highest set mark (R32). -/
def resequenceRuns (e : SourceEntry) (today : Nat) : List GapRecord :=
  match highestMark e.marks with
  | none => []
  | some h => (unreceivedRuns e.marks h).map (gapOfRun e.base today)

/-! ### Ageing (R25, R26) -/

/-- Export one record of a source where the log has a place, taking it from the list (R24). -/
def exportOne (source : Nat) (reason : GapReason) (g : GapRecord) (s : State) : State :=
  if s.freePlaces = 0 then s
  else
    let e := s.source source
    (writeFinding (gapFinal source reason g) s).setSource source { e with gaps := e.gaps.erase g }

/-- Export the aged records of one source, oldest first, as far as room allows (R25). -/
def ageSource (line source : Nat) (s : State) : State :=
  ((s.source source).gaps.filter (isAged line)).foldl (fun t g => exportOne source .aged g t) s

/-- Export the records aged before a day, every source in source-number order (R25). -/
def ageBefore (line : Nat) (s : State) : State :=
  s.intake.sources.foldl (fun t e => ageSource line e.1 t) s

/-- Age the gap lists: the records that earlier ageings left, in the order they were aged, and then those aged now; each
judged by the test as it stands (R25, R26 pass 2, log 34). -/
def ageGaps (s : State) : State :=
  let line := s.ageLine
  keepAgeing line (ageBefore line (s.intake.ageings.foldl (fun t h => ageBefore (min h line) t) s))

/-- Take one flagged source: its oldest record is exported and its flag cleared; an empty list has the flag cleared
alone; nothing once no place is free (R26 pass 1, log 20). -/
def unflag (source : Nat) (s : State) : State :=
  let e := s.source source
  if !e.overflow || s.freePlaces = 0 then s
  else
    let t := match e.gaps with
      | [] => s
      | g :: _ => exportOne source .overflow g s
    t.setSource source { t.source source with overflow := false }

/-- Flagged sources, in source-number order (R26 pass 1). -/
def unflagSources (s : State) : State :=
  s.intake.sources.foldl (fun t e => unflag e.1 t) s

end Sys2Proof.Machine
end

