-- ==== Sys2Proof/Machine/Audit.lean ====
section
/-!
DEFINITION. Machine/Audit.lean: FETCH-FINDINGS, ACK-FINDINGS, the audit jobs and their reads, CANCEL-AUDIT and READ-AUDIT
(R138 to R155).
-/

namespace Sys2Proof.Machine
open Sys2Proof

/-! ### The Findings Log (R141 to R143) -/

/-- The findings a FETCH-FINDINGS gives (R141). -/
def State.findingsFrom (s : State) (start count : Nat) : List Finding :=
  (s.audit.findings.filter (fun f => decide (start ≤ f.number))).take count

/-- The FETCH-FINDINGS reply body (R202). -/
def findingsBody (s : State) (start count : Nat) : List Byte :=
  be 2 s.freePlaces ++ be 4 ((s.audit.findings.head?.map Finding.number).getD 0) ++ be 5 s.audit.next ++
    listBody findingBytes (s.findingsFrom start count)

/-- FETCH_FINDINGS (R141). -/
def execFetchFindings (p : Port) (tag start count : Nat) (s : State) : Result State :=
  request p tag 64 .both (fun r s =>
    checked r [(s.serviceOrHalted, .wrongState), (decide (1 ≤ count) && decide (count ≤ 16), .badField)] (fun s =>
      answer r .ok (findingsBody s start count) s) s) s

/-- Remove every finding numbered at or below the through number (R142). -/
def removeFindings (through : Nat) (s : State) : State :=
  { s with audit := { s.audit with findings := s.audit.findings.filter (fun f => decide (through < f.number)) } }

/-- The number of findings a through number removes (R142). -/
def State.removedBy (s : State) (through : Nat) : Nat :=
  (s.audit.findings.filter (fun f => decide (f.number ≤ through))).length

/-- The suspended producers that take the freed places before the intake passes do (R143, log 9). -/
def freedFirst (o : AckOrder) (s : State) : State :=
  match o with
  | .intakeFirst => s
  | .sweepFirst => resumeSweep s
  | .jobFirst => resumeJob s
  | .sweepThenJob => resumeJob (resumeSweep s)
  | .jobThenSweep => resumeSweep (resumeJob s)

/-- The intake passes of R26; none where the request removed nothing (log 20). -/
def intakePasses (removed : Nat) (s : State) : State :=
  if removed = 0 then s else ageGaps (unflagSources s)

/-- The removals, the use of the places freed, and the trigger (R142, R143). Where a sweep resumed first ends and the drain of its
checkpoint halts the part, the intake passes and this trigger still come after it, and the reply is NOT-DURABLE: the model's
choice (log 66). -/
def acknowledge (r : ReqRef) (through : Nat) (o : AckOrder) (s : State) : State :=
  let n := s.removedBy through
  triggerFor r (count4 n) [] (intakePasses n (freedFirst o (removeFindings through s)))

/-- ACK_FINDINGS (R142): a STOPPED compaction does not refuse it. -/
def execAckFindings (p : Port) (tag through : Nat) (o : AckOrder) (s : State) : Result State :=
  request p tag 65 .bOnly (fun r s =>
    checked r (s.serviceChecks ++
        [(decide (s.cat.state ≠ .stopped), .wrongState), (decide (through < s.audit.next), .badField), s.limitCheck])
      (acknowledge r through o) s) s

/-! ### Jobs (R145 to R152) -/

/-- VERIFY (R145). -/
def execVerify (p : Port) (tag first last : Nat) (s : State) : Result State :=
  request p tag 66 .bOnly (fun r s =>
    checked r (s.serviceChecks ++
        [(decide (first ≤ last), .badField), (decide (s.audit.job = none), .busy)]) (fun s =>
      verifyOn (s.setJob (some { kind := .verify first last, req := r }))) s) s

/-- RECONCILE (R145). -/
def execReconcile (p : Port) (tag : Nat) (s : State) : Result State :=
  request p tag 67 .bOnly (fun r s =>
    checked r (s.serviceChecks ++ [(decide (s.audit.job = none), .busy)]) (fun s =>
      reconcileOn (s.setJob (some { kind := .reconcile, req := r }))) s) s

/-- The operation is a READ of the Audit Unit. -/
def isAuditRead (op : Op) : Bool := decide (op.kind = .read) && decide (op.requester = .audit)

/-- The read of a VERIFY job's segment in hand completes (R147). -/
def verifyRead (c slot : Nat) (res : ReadResult) (s : State) : State :=
  match s.audit.job with
  | none => s
  | some j =>
    match j.kind, j.inHand with
    | .verify _ _, some e =>
      let p := readPayload c slot res s
      verifyOn (judgeSegment j e p (fillBuffer p (useFree s)))
    | _, _ => s

/-- The read of a RECONCILE job's segment in hand completes (R149). -/
def reconcileRead (c slot : Nat) (res : ReadResult) (s : State) : State :=
  match s.audit.job with
  | none => s
  | some j =>
    match j.kind, j.inHand with
    | .reconcile, some e =>
      let p := readPayload c slot res s
      reconcileAfter (addContribution j e p (fillBuffer p (useFree s)))
    | _, _ => s
where
  /-- The contribution has been added; when it was the key's last, the key is settled, and the job goes on (R150). In
  HALTED the settlement alone is made (R154). -/
  reconcileAfter (s : State) : State :=
    match s.audit.job with
    | none => s
    | some j =>
      match j.position with
      | none => s
      | some i => if s.inService then reconcileOn s else if (s.nextToCount i j).isNone then settleKey j i s else s

/-- The job in hand is of a kind. -/
def State.jobIs (s : State) (verify : Bool) : Bool :=
  match s.audit.job with
  | none => false
  | some j =>
    match j.kind with
    | .verify _ _ => verify
    | .reconcile => !verify

/-- A read of the Audit Unit completes for the job in hand. -/
def auditRead (c : Nat) (op : Op) (res : ReadResult) (s : State) : State :=
  complete c op true (fun t => if t.jobIs true then verifyRead c op.slot res t else reconcileRead c op.slot res t) s

/-- VERIFY_READ_COMPLETE (R147). -/
def execVerifyReadComplete (c : Nat) (res : ReadResult) (s : State) : Result State :=
  turn (fun s => if s.jobIs true then onOp c isAuditRead (fun op s => auditRead c op res s) s else s) s

/-- RECONCILE_READ_COMPLETE (R149). -/
def execReconcileReadComplete (c : Nat) (res : ReadResult) (s : State) : Result State :=
  turn (fun s => if s.jobIs false then onOp c isAuditRead (fun op s => auditRead c op res s) s else s) s

/-- AUDIT_FINDING_RESUMED (R151). -/
def execAuditFindingResumed (s : State) : Result State := turn resumeJob s

/-- The segment in hand loses the job's pin, if it has one (R152). -/
def releaseInHand (j : Job) (s : State) : State :=
  match j.inHand with
  | none => s
  | some e => lowerReader e s

/-- The read of a cancelled job runs on, its completion discarded (R96, R152). -/
def discardAuditRead (s : State) : State :=
  mapChannels (fun ch => ch.discard (fun r => decide (r = .audit))) s

/-- Cancel the job in hand: its reply is CANCELLED, and CANCEL-AUDIT is answered OK (R152, R153). That the summary keeps the reads
already made of the segment or key that gets no outcome is the model's choice (log 62). -/
def cancelJob (r : ReqRef) (s : State) : State :=
  match s.audit.job with
  | none => s
  | some j => answer r .ok [] (endJob j .cancelled (discardAuditRead (releaseInHand j s)))

/-- CANCEL_AUDIT (R152). -/
def execCancelAudit (p : Port) (tag : Nat) (s : State) : Result State :=
  request p tag 68 .bOnly (fun r s =>
    checked r (s.serviceChecks ++ [(s.audit.job.isSome, .wrongState)]) (cancelJob r) s) s

/-! ### READ-AUDIT (R155) -/

/-- The kind of a job in a reply, with its fields for VERIFY (R155). -/
def jobKindBody : JobKind → List Byte
  | .verify first last => be 1 1 ++ be 2 first ++ be 2 last
  | .reconcile => be 1 2

/-- The position of a job: an entry number, or a key (R144). -/
def jobPositionBody (j : Job) : List Byte :=
  match j.kind with
  | .verify _ _ => opt (be 2) j.position
  | .reconcile => opt tallyKeyBody j.position

/-- The summary counts so far (R153, R155). -/
def jobCountsBody (j : Job) : List Byte :=
  match j.kind with
  | .verify _ _ => count4 j.good ++ count4 j.bad ++ count4 j.skipped ++ count4 j.failed
  | .reconcile =>
    count4 j.matched ++ count4 j.mismatched ++ count4 j.skippedOpen ++ count4 j.skippedBusy ++ count4 j.segmentsRead ++
      count4 j.badReads

/-- A job in the READ-AUDIT reply: kind, position, segment in hand with whether its read is in flight, owed finding's
kind, counts (R155, log 22). That a read is in flight from its asking, started or not, is the model's choice (log 63). -/
def jobBody (j : Job) : List Byte :=
  jobKindBody j.kind ++ jobPositionBody j ++ opt (fun e => be 2 e ++ flag j.reading) j.inHand ++
    opt (fun (b : FindingBody) => be 1 (findingKindCode b.kind)) j.owed ++ jobCountsBody j

/-- READ_AUDIT (R155); in IDLE one absence byte stands for everything that belongs to a job (log 22). -/
def execReadAudit (p : Port) (tag : Nat) (s : State) : Result State :=
  request p tag 69 .both (fun r s =>
    checked r [(s.serviceOrHalted, .wrongState)] (fun s =>
      answer r .ok (be 1 s.auditCode ++ opt jobBody s.audit.job ++ be 5 s.audit.next ++ be 2 s.freePlaces) s) s) s

end Sys2Proof.Machine
end

