-- ==== Sys2Proof/Machine/Intake.lean ====
section
/-!
DEFINITION. Machine/Intake.lean: the Intake Slots: opening, receiving, closing, acceptance and aborting a file; READ-SLOTS
and READ-TALLY (R34 to R56).
-/

namespace Sys2Proof.Machine
open Sys2Proof

/-! ### Opening (R37, R38) -/

/-- The pages a file takes (R38). -/
def pagesFor (length : Nat) : Nat := (length + (Config.pageBytes - 1)) / Config.pageBytes

/-- The lowest-numbered IDLE slot (R38). -/
def State.idleSlot (s : State) : Option Nat :=
  Tbl.nextFrom (fun _ f => decide (f.phase = .idle)) true Config.intakeSlots 0 s.intake.slots

/-- The key's tally entry is CLOSED. -/
def State.tallyClosed (s : State) (source day : Nat) : Bool :=
  decide ((s.tallyEntry source day).map TallyEntry.state = some .closed)

/-- A slot in RECEIVING or CLOSING holds the source and sequence (R37 check 10). -/
def State.fileOpen (s : State) (source sequence : Nat) : Bool :=
  s.intake.slots.any (fun e =>
    decide (e.2.phase ≠ .idle) && decide (e.2.source = source) && decide (e.2.sequence = sequence))

/-- The checks of OPEN-FILE after the port (R37). -/
def State.openChecks (s : State) (source sequence day records length : Nat) : List (Bool × Status) :=
  let e := s.source source
  s.serviceChecks ++
    [(decide (s.cat.profile ≠ .none), .wrongState),
     (decide (source < Config.sources) && decide (1 ≤ records) && decide (records ≤ 1000000) && decide (1 ≤ length),
       .badField),
     (decide (e.state = .active), .unknownSource),
     (decide (day ≤ s.today), .futureDay),
     (decide (s.today ≤ day + s.lookback) && !s.tallyClosed source day, .tooOld),
     (decide (length ≤ 268435456), .tooLarge),
     (!s.fileOpen source sequence, .inProgress),
     (decide (openPosition e sequence ≠ some .duplicate), .duplicate),
     (decide (openPosition e sequence ≠ some .stale), .stale),
     (!e.overflow, .gapsFull),
     (s.idleSlot.isSome, .noSlot),
     ((s.tallyEntry source day).isSome || decide (s.intake.tally.length < Config.tallyPlaces), .tallyFull),
     (decide (pagesFor length ≤ s.intake.freePages), .stagingFull)]

/-- The entry's files in flight rises by one; an absent entry is created (R38, R53). -/
def joinFlight (source day : Nat) (s : State) : State :=
  let t := (s.tallyEntry source day).getD {}
  s.setTally source day { t with inFlight := t.inFlight + 1 }

/-- The slot, pages and tally entry of an opened file (R38). -/
def openSlot (k source sequence day records length : Nat) (s : State) : State :=
  let t := s.setIntakeSlot k
    { phase := .receiving, source := source, sequence := sequence, day := day, declaredRecords := records,
      declaredLength := length, pages := pagesFor length, check := crcStart, lastActivity := s.second }
  let t := { t with intake := { t.intake with freePages := t.intake.freePages - pagesFor length } }
  joinFlight source day t

/-- OPEN_FILE (R37, R38). -/
def execOpenFile (p : Port) (tag source sequence day records length : Nat) (s : State) : Result State :=
  request p tag 24 .aOnly (fun r s =>
    checked r (s.openChecks source sequence day records length) (fun s =>
      let k := s.idleSlot.getD 0
      answer r .opened (be 1 k) (openSlot k source sequence day records length s)) s) s

/-! ### Receiving (R40 to R42) -/

/-- The rejection counts in the order of the reasons (R8). -/
def rejectsBody (r : Rejects) : List Byte :=
  count4 r.badLength ++ count4 r.unknownKind ++ count4 r.badSubscriber ++ count4 r.badOtherParty ++
    count4 r.volumeNotData ++ count4 r.badStart ++ count4 r.badDuration

/-- The record counts of a slot (R34). -/
def countsBody (f : IntakeSlot) : List Byte := count4 f.seen ++ count4 f.accepted ++ rejectsBody f.rejects

/-- The slot after an in-order chunk (R40, R41). -/
def IntakeSlot.receive (f : IntakeSlot) (p : Profile) (now : Nat) (data : List Byte) : IntakeSlot :=
  { f.takeBytes p data with
    received := f.received + data.length, check := crcBytes f.check data, lastActivity := now }

/-- A chunk for a RECEIVING slot: in order, out of order, or past the declared length (R40, R42). The OVERRUN reply carries
what R42 names and not the counts that R47 gives every refused file (log 39). -/
def takeChunk (r : ReqRef) (k offset : Nat) (data : List Byte) (s : State) : State :=
  let f := s.intakeSlot k
  if offset ≠ f.received then answer r .chunkOrder (be 4 f.received) s
  else if f.declaredLength < f.received + data.length then
    answer r .overrun (be 4 f.declaredLength ++ be 4 f.received) (refuseFile k s)
  else
    let g := f.receive s.cat.profile s.second data
    answer r .ok (be 4 g.received ++ countsBody g) (s.setIntakeSlot k g)

/-- CHUNK (R40). -/
def execChunk (p : Port) (tag k offset : Nat) (data : List Byte) (s : State) : Result State :=
  request p tag 25 .aOnly (fun r s =>
    checked r (s.serviceChecks ++
        [(decide (k < Config.intakeSlots) && decide (1 ≤ data.length) && decide (data.length ≤ 4096), .badField),
         (decide ((s.intakeSlot k).phase = .receiving), .wrongState)]) (takeChunk r k offset data) s) s

/-! ### Closing (R43, R44, R47) -/

/-- The slot as it becomes CLOSING: a truncated record at the end of a whole file is counted and rejected; the pending
bytes of a short file are discarded (R43, R5). -/
def IntakeSlot.close (f : IntakeSlot) (r : ReqRef) : IntakeSlot :=
  let g := { f with phase := .closing, begun := [], closeReq := some r }
  if f.begun.isEmpty || f.received ≠ f.declaredLength then g
  else { g with seen := f.seen + 1, rejects := f.rejects.add .badLength }

/-- The content checks (R44). -/
def contentChecks (f : IntakeSlot) (crc : Crc) (tolerance : Nat) : List (Bool × Status) :=
  [(decide (f.received = f.declaredLength), .lengthMismatch),
   (decide (crcResult f.check = crc), .checkMismatch),
   (decide (f.seen = f.declaredRecords), .countMismatch),
   (decide (f.rejects.sum ≤ tolerance), .tooManyBad)]

/-- What the reply to a refused close carries (R47). -/
def refusalBody (f : IntakeSlot) : List Byte := be 4 f.received ++ countsBody f

/-- A refused close: its file is refused and its CLOSE-FILE answered (R47). -/
def refuseClose (k : Nat) (st : Status) (s : State) : State :=
  let f := s.intakeSlot k
  let t := refuseFile k s
  match f.closeReq with
  | none => t
  | some r => answer r st (refusalBody f) t

/-- A RECEIVING slot becomes CLOSING and meets the content checks; a file that passes them waits for its acceptance, the
step FILE_ACCEPTANCE (R43, R44, R45, log 30). -/
def beginFileClose (r : ReqRef) (k : Nat) (crc : Crc) (s : State) : State :=
  let f := (s.intakeSlot k).close r
  let t := s.setIntakeSlot k f
  let t := { t with intake := { t.intake with closing := t.intake.closing ++ [k] } }
  match firstRefusal (contentChecks f crc s.cat.params.tolerance) with
  | some st => refuseClose k st t
  | none => t

/-- CLOSE_FILE (R43). -/
def execCloseFile (p : Port) (tag k : Nat) (crc : Crc) (s : State) : Result State :=
  request p tag 26 .aOnly (fun r s =>
    checked r (s.serviceChecks ++
        [(decide (k < Config.intakeSlots), .badField),
         (decide ((s.intakeSlot k).phase = .receiving), .wrongState)]) (beginFileClose r k crc) s) s

/-! ### Acceptance (R45, R46) -/

/-- A closing file waits for a checkpoint (R45). -/
def State.waitsCheckpoint (s : State) : Bool :=
  decide (s.cat.state = .quiescing) || decide (s.cat.state = .writing)

/-- A closing file waits for queue room (R45). -/
def State.waitsRoom (s : State) : Bool := decide (Config.queueFiles ≤ s.comp.queue.length)

/-- A file joins the tail of the Compaction Queue with its pages and accepted records (R46, R58). -/
def joinQueue (f : IntakeSlot) (s : State) : State :=
  { s with comp := { s.comp with queue := s.comp.queue ++
      [{ source := f.source, sequence := f.sequence, day := f.day, pages := f.pages, toAppend := f.accepted,
         appended := 0, records := f.records }] } }

/-- The ACCEPTED reply: position, counts, and the durable checkpoint number (R46). -/
def acceptedBody (f : IntakeSlot) (pos last : Nat) : List Byte :=
  be 1 pos ++ count4 f.accepted ++ count4 f.rejects.sum ++ rejectsBody f.rejects ++ count4 (last + 1)

/-- The source's entry after an acceptance (R21). -/
def countAccepted (e : SourceEntry) (day : Nat) : SourceEntry :=
  { e with accepted := satAdd e.accepted 1, lastDay := some day }

/-- A file is ACCEPTED (R46). -/
def acceptFile (k : Nat) (e : SourceEntry) (displaced : List GapRecord) (pos : Nat) (s : State) : State :=
  let f := s.intakeSlot k
  let t := exportGaps f.source .overflow displaced s
  let t := t.setSource f.source (countAccepted e f.day)
  let t := t.changeTally f.source f.day (fun y => tallyAccept y f.declaredRecords f.accepted f.rejects.sum)
  let t := clearSlot k (joinQueue f t)
  let t := match f.closeReq with
    | none => t
    | some r => answer r .accepted (acceptedBody f pos s.cat.last) t
  runCompaction t

/-- A file is judged on its source's window (R46, R23). -/
def judgeClose (k : Nat) (s : State) : State :=
  let f := s.intakeSlot k
  let e := s.source f.source
  match judgeFile e f.sequence s.today s.freePlaces with
  | .refused st => refuseClose k st s
  | .gapsFull => refuseClose k .gapsFull (s.setSource f.source { e with overflow := true })
  | .accepted e displaced pos => acceptFile k e displaced pos s

/-- The earliest closing file reaches acceptance when neither condition of R45 holds. -/
def acceptNext (s : State) : State :=
  match s.intake.closing with
  | [] => s
  | k :: _ => if s.inService && !s.waitsCheckpoint && !s.waitsRoom then judgeClose k s else s

/-- FILE_ACCEPTANCE (R46). -/
def execFileAcceptance (s : State) : Result State := turn acceptNext s

/-! ### Aborting (R49, R50) -/

/-- ABORT_FILE (R49). -/
def execAbortFile (p : Port) (tag k : Nat) (s : State) : Result State :=
  request p tag 27 .aOnly (fun r s =>
    checked r (s.serviceChecks ++
        [(decide (k < Config.intakeSlots), .badField),
         (decide ((s.intakeSlot k).phase ≠ .idle), .wrongState),
         (decide ((s.intakeSlot k).phase ≠ .closing), .busy)]) (fun s =>
      answer r .ok [] (abortSlot k s)) s) s

/-- INTAKE_IDLE_LIMIT (R50): a RECEIVING slot whose last activity lies the limit or more in the past. -/
def execIntakeIdleLimit (k : Nat) (s : State) : Result State :=
  turn (fun s =>
    let f := s.intakeSlot k
    if f.phase = .receiving ∧ f.lastActivity + s.cat.params.idleLimit ≤ s.second then
      raiseOn .a noticeFileAborted k (abortSlot k s)
    else s) s

/-! ### Reading (R36, R56) -/

/-- What a close waits for: NOTHING, QUEUE-ROOM or CHECKPOINT (R36, log 16). -/
def State.closeWait (s : State) : Nat := if s.waitsCheckpoint then 3 else if s.waitsRoom then 2 else 1

/-- A slot in the READ-SLOTS reply (R36). -/
def slotDescription (s : State) (k : Nat) : List Byte :=
  let f := s.intakeSlot k
  match f.phase with
  | .idle => be 1 1
  | ph =>
    be 1 (slotPhaseCode ph) ++ be 2 f.source ++ be 2 f.sequence ++ be 2 f.day ++ be 3 f.declaredRecords ++
      be 4 f.declaredLength ++ be 4 f.received ++ be 2 f.pages ++ countsBody f ++
      count4 (s.second - f.lastActivity) ++ (if ph = .closing then be 1 s.closeWait else [])

/-- READ_SLOTS (R36). -/
def execReadSlots (p : Port) (tag : Nat) (s : State) : Result State :=
  request p tag 28 .both (fun r s =>
    checked r s.serviceChecks (fun s =>
      answer r .ok ((List.range Config.intakeSlots).flatMap (slotDescription s)) s) s) s

/-- A tally entry in a reply (R52, R56). -/
def tallyBody (source day : Nat) (t : TallyEntry) : List Byte :=
  keyBody source day ++ be 1 (tallyStateCode t.state) ++ be 1 t.inFlight ++ be 4 t.filesAccepted ++
    be 4 t.filesRefused ++ be 4 t.declared ++ be 4 t.recordsAccepted ++ be 4 t.recordsRejected

/-- READ_TALLY (R56). The reply tells absence by one presence byte before the whole entry, 1 and every field or a lone 0, which is
the model's choice (log 22): R56 says only that the reply "says that the entry is absent". -/
def execReadTally (p : Port) (tag source day : Nat) (s : State) : Result State :=
  request p tag 29 .both (fun r s =>
    checked r (s.serviceChecks ++ [(decide (source < Config.sources), .badField)]) (fun s =>
      answer r .ok (opt (tallyBody source day) (s.tallyEntry source day)) s) s) s

end Sys2Proof.Machine
end

