-- ==== Sys2Proof/Machine/Catalog.lean ====
section
/-!
DEFINITION. Machine/Catalog.lean: power-up, power loss, the load's reads, checkpoints, parameters, READ-CATALOG,
RESET-CONTROLLER and Format (R166 to R182).
-/

namespace Sys2Proof.Machine
open Sys2Proof

/-! ### Supply (R177, R179) -/

/-- The channels with the presence found at power-up (R92). -/
def detectChannels (present : List Bool) : Tbl Channel :=
  (List.range Config.channels).foldl (fun t c =>
    Tbl.set {} t c { present := present.getD c false }) []

/-- The part as power-up begins: what no power loss touches is the flash, and the model's own queue and counter. -/
def poweredUp (present : List Bool) (s : State) : State :=
  { pending := s.pending, powered := true, free := s.free
    media := { channels := detectChannels present, flash := s.media.flash } }

/-- POWER_UP (R177): a load searching for a catalog begins. -/
def execPowerUp (present : List Bool) (s : State) : Result State :=
  turn (fun s => if s.powered then s else searchLoad (poweredUp present s)) s

/-- The operation in progress on a channel at power loss leaves its slot unknown (log 8). -/
def cutShort (c : Nat) (s : State) : State :=
  match (s.channel c).current with
  | none => s
  | some op => leaveInSlot c op false s

/-- The part without its supply (log 3). -/
def unpowered (s : State) : State :=
  let t := (List.range Config.channels).foldl (fun t c => cutShort c t) s
  { pending := s.pending, free := s.free, media := { flash := t.media.flash } }

/-- POWER_LOSS (R179). -/
def execPowerLoss (s : State) : Result State :=
  turn (fun s => if s.powered then unpowered s else s) s

/-! ### The load (R177) -/

/-- The operation is a read of the load. -/
def isLoadRead (op : Op) : Bool := decide (op.kind = .catalogRead) && decide (op.requester = .load)

/-- A CATALOG-READ of the load ends (R177). -/
def loadReadEnds (c : Nat) (op : Op) (res : CatalogResult) (s : State) : State :=
  complete c op true (fun t =>
    noteRead { channel := c, slot := op.slot, data := readCatalogData c op.slot res t } (useFree t)) s

/-- CATALOG_READ_COMPLETE (R177). -/
def execCatalogReadComplete (c : Nat) (res : CatalogResult) (s : State) : Result State :=
  turn (onOp c isLoadRead (fun op s => loadReadEnds c op res s)) s

/-! ### Checkpoints (R172 to R174) -/

/-- CHECKPOINT (R174). -/
def execCheckpoint (p : Port) (tag : Nat) (s : State) : Result State :=
  request p tag 80 .aOnly (fun r s =>
    checked r (s.catalogChecks ++ [s.limitCheck]) (trigger [{ req := some r, number := true }]) s) s

/-- The operation is a share of a checkpoint image. -/
def isShareWrite (op : Op) : Bool := decide (op.kind = .catalogWrite) && decide (op.requester = .catalog)

/-- Let waiting closes reach acceptance, one at a time (R45, R172). -/
def acceptSome : Nat → State → State
  | 0, s => s
  | n + 1, s => acceptSome n (acceptNext s)

/-- A share of the checkpoint image has been written; with all eight the checkpoint completes, and an owed one begins
after the closes that were taken first (R172). -/
def shareWritten (closesFirst : Nat) (s : State) : State :=
  if s.cat.sharesOk + 1 < 8 then { s with cat := { s.cat with sharesOk := s.cat.sharesOk + 1 } }
  else takeOwed (acceptSome (min closesFirst Config.intakeSlots) (completeCheckpoint s))

/-- A checkpoint is WRITING in SERVICE; in HALTED its completions end their operations alone (R171, log 11). -/
def State.writingNow (s : State) : Bool := s.inService && decide (s.cat.state = .writing)

/-- CATALOG_WRITE_OK (R172). In HALTED a share that completes is written all the same: where it is the eighth, its area
holds eight whole shares, and the next load takes that image (R167, R171, log 11). -/
def execCatalogWriteOk (closesFirst : Nat) (s : State) : Result State :=
  turn (fun s =>
    let c := s.cat.channel.getD 0
    if s.cat.state = .writing then
      onOp c isShareWrite (fun op s =>
        complete c op true (fun t => if t.writingNow then shareWritten closesFirst t else t) s) s
    else s) s

/-- The shares not yet started leave the channel's queue; the operation in progress stays (R173). -/
def Channel.dropShares (ch : Channel) : Channel :=
  { ch with
    queue := ch.current.toList ++ (ch.queue.drop ch.current.toList.length).filter (fun op => !isShareWrite op)
    outside := ch.outside.filter (fun op => !isShareWrite op) }

/-- The checkpoint fails: its image is given up, CATALOG-WRITE-FAILED is raised, and every current and owed waiter is
answered NOT-DURABLE, the current ones first (R173, log 52). Where the fault halts the part, the closes it answers HALTED come
before them (log 54). -/
def failCheckpoint (c slot : Nat) (s : State) : State :=
  let t := s.setChannel c (s.channel c).dropShares.refill
  let t := { t with cat := { t.cat with
    waiters := [], owed := false, owedWaiters := [], buffer := none, sharesOk := 0, state := .stopped } }
  let t := raiseFault { kind := .catalogWriteFailed, slot := some { channel := c, slot := slot } } t
  answerWaiters false (s.cat.waiters ++ s.cat.owedWaiters) t

/-- A share of the checkpoint image ends FAIL (R173, R97). -/
def shareFails (c : Nat) (op : Op) (s : State) : State :=
  complete c op false (fun t => if t.writingNow then failCheckpoint c op.slot t else t) s

/-- CATALOG_WRITE_FAIL (R173). -/
def execCatalogWriteFail (s : State) : Result State :=
  turn (fun s =>
    let c := s.cat.channel.getD 0
    if s.cat.state = .writing then onOp c isShareWrite (fun op s => shareFails c op s) s else s) s

/-! ### Parameters (R175) -/

/-- The parameters with one replaced, where the one named is one of the four and the value lies in its range (R175). -/
def setParam (p : Params) (parameter value : Nat) : Option Params :=
  match parameter with
  | 1 => if 1 ≤ value ∧ value ≤ 60 then some { p with lookback := value } else none
  | 2 => if 5 ≤ value ∧ value ≤ 255 then some { p with idleLimit := value } else none
  | 3 => if value ≤ 255 then some { p with tolerance := value } else none
  | 4 => if 1 ≤ value ∧ value ≤ 15 then some { p with retry := value } else none
  | _ => none

/-- A lookback lies below the least days of every class (R175 check 6). -/
def State.lookbackAllowed (s : State) (parameter value : Nat) : Bool :=
  decide (parameter ≠ 1) || (List.range 8).all (fun c => decide (value < (s.retClass c).least))

/-- SET_PARAMETER (R175). -/
def execSetParameter (p : Port) (tag parameter value : Nat) (s : State) : Result State :=
  request p tag 81 .aOnly (fun r s =>
    checked r (s.catalogChecks ++
        [((setParam s.cat.params parameter value).isSome, .badField),
         (s.lookbackAllowed parameter value, .badField), s.limitCheck]) (fun s =>
      triggerFor r [] [] { s with cat := { s.cat with
        params := (setParam s.cat.params parameter value).getD s.cat.params } }) s) s

/-! ### READ-CATALOG (R176) -/

/-- The pending format in a reply: number, catalog channel, seconds remaining (R176). -/
def pendingFormatBody (now : Nat) (f : PendingFormat) : List Byte :=
  be 2 f.number ++ be 1 f.channel ++ count4 (f.madeAt + Config.consent - now)

/-- The READ-CATALOG reply body (R176): the pending format's three fields stand under one presence byte (log 22). -/
def catalogBody (s : State) : List Byte :=
  be 1 (archiveCode s.cat.archive) ++ be 1 (catalogCode s.cat.state) ++ be 4 s.cat.last ++ opt (be 1) s.cat.newer ++
    flag s.cat.owed ++ count4 (s.cat.waiters.filter (fun w => w.req.isSome)).length ++
    count4 (s.cat.owedWaiters.filter (fun w => w.req.isSome)).length ++ be 1 (s.cat.channel.getD 0) ++
    be 1 s.cat.params.lookback ++ be 1 s.cat.params.idleLimit ++ be 1 s.cat.params.tolerance ++
    be 1 s.cat.params.retry ++ be 1 (profileCode s.cat.profile) ++ opt (pendingFormatBody s.second) s.cat.pendingFormat

/-- READ_CATALOG (R176). -/
def execReadCatalog (p : Port) (tag : Nat) (s : State) : Result State :=
  request p tag 85 .both (fun r s =>
    checked r [(s.serviceOrHalted, .wrongState)] (fun s => answer r .ok (catalogBody s) s) s) s

/-! ### Controller Reset (R179) -/

/-- What a load at Controller Reset reads: the known catalog channel (R177). -/
def resetTarget (s : State) : LoadTarget :=
  match s.cat.channel with
  | none => .search
  | some c => .channel c

/-- A Controller Reset (R179). -/
def controllerReset (r : ReqRef) (s : State) : State :=
  let target := resetTarget s
  beginReads ((blankArchive .loading (resetRequests r s)).setLoad (some { target := target, starter := some r }))

/-- RESET_CONTROLLER (R179): answered when the load ends. -/
def execResetController (p : Port) (tag : Nat) (s : State) : Result State :=
  request p tag 82 .aOnly (fun r s =>
    checked r [(s.serviceOrHalted, .wrongState)] (controllerReset r) s) s

/-! ### Format (R180 to R182) -/

/-- The number after a format number (R180). -/
def nextFormatNumber (n : Nat) : Nat := if n = max16 then 1 else n + 1

/-- The archive states in which FORMAT is taken (R180). -/
def mayFormat (a : ArchiveState) : Bool :=
  decide (a = .unformatted) || decide (a = .catalogFault) || decide (a = .service)

/-- A pending format is made; FORMAT is answered CONSENT-NEEDED with its number and the 60 s allowed (R180). -/
def pendFormat (r : ReqRef) (c : Nat) (s : State) : State :=
  let n := s.cat.formatCounter
  answer r .consentNeeded (be 2 n ++ count4 Config.consent)
    { s with cat := { s.cat with
        pendingFormat := some { number := n, channel := c, madeAt := s.second }
        formatCounter := nextFormatNumber n } }

/-- FORMAT (R180). -/
def execFormat (p : Port) (tag c : Nat) (s : State) : Result State :=
  request p tag 83 .aOnly (fun r s =>
    checked r
      [(s.notHalted, .halted), (mayFormat s.cat.archive, .wrongState), (decide (c < Config.channels), .badField),
       ((s.channel c).present, .notPresent), (s.cat.pendingFormat.isNone, .busy)] (fun s =>
      if s.cat.archive = .unformatted then beginFormat r false c s else pendFormat r c s) s) s

/-- The pending format that bears a number (R181). -/
def State.pendingNumber (s : State) (n : Nat) : Option PendingFormat :=
  match s.cat.pendingFormat with
  | none => none
  | some f => if f.number = n then some f else none

/-- CONSENT_FORMAT (R181). -/
def execConsentFormat (p : Port) (tag number : Nat) (s : State) : Result State :=
  request p tag 84 .bOnly (fun r s =>
    checked r
      [(s.notHalted, .halted), (s.inService || decide (s.cat.archive = .catalogFault), .wrongState),
       ((s.pendingNumber number).isSome, .expired)] (fun s =>
      match s.pendingNumber number with
      | none => s
      | some f => beginFormat r true f.channel s) s) s

/-- FORMAT_CONSENT_EXPIRY (R181): 60 s have passed since the pending format was made. -/
def execFormatConsentExpiry (s : State) : Result State :=
  turn (fun s =>
    match s.cat.pendingFormat with
    | none => s
    | some f =>
      if f.madeAt + Config.consent ≤ s.second then { s with cat := { s.cat with pendingFormat := none } } else s) s

/-- The operation is an erase of Format. -/
def isFormatErase (op : Op) : Bool := decide (op.kind = .erase) && decide (op.requester = .format)

/-- An erase of Format ends; when no channel has one left of its stage, the next stage begins (R182). -/
def formatEraseEnds (c : Nat) (op : Op) (ok : Bool) (s : State) : State :=
  nextStageWhenQuiet (complete c op ok (fun t =>
    match t.cat.format with
    | none => t
    | some f => formatErased f { channel := c, slot := op.slot } ok t) s)

/-- FORMAT_ERASE_COMPLETE (R182). -/
def execFormatEraseComplete (c : Nat) (ok : Bool) (s : State) : Result State :=
  turn (onOp c isFormatErase (fun op s => formatEraseEnds c op ok s)) s

/-- A share of the first image ends (R182). -/
def firstImageEnds (c : Nat) (op : Op) (ok : Bool) (s : State) : State :=
  complete c op ok (fun t =>
    match t.cat.format with
    | none => t
    | some f => if ok then firstImageShare f t else failFormat f { channel := c, slot := op.slot } t) s

/-- A share of Format's first image is being written on the chosen channel. -/
def State.writingFirstImage (s : State) : Option Nat :=
  match s.cat.format with
  | none => none
  | some f => if f.phase = .image then some f.channel else none

/-- FORMAT_IMAGE_WRITE_COMPLETE (R182). -/
def execFormatImageWriteComplete (ok : Bool) (s : State) : Result State :=
  turn (fun s =>
    match s.writingFirstImage with
    | none => s
    | some c => onOp c isShareWrite (fun op s => firstImageEnds c op ok s) s) s

end Sys2Proof.Machine
end

