-- ==== Sys2Proof/Machine/Compaction.lean ====
section
/-!
DEFINITION. Machine/Compaction.lean: appending, the ends of builder writes, READ-COMPACTION and the Shared Code Table
(R59 to R80).
-/

namespace Sys2Proof.Machine
open Sys2Proof

/-! ### Appending (R59, R78) -/

/-- A file page fails its check: the head file is held at its record and the fault is raised (R78, R184). -/
def filePageError (f : QueuedFile) (s : State) : State :=
  raiseFault { kind := .filePageError, file := some (f.source, f.sequence) }
    { s with comp := { s.comp with headHeld := true } }

/-- Compaction reads the head file's next accepted record and appends it (R59, R78). The page is read before a builder is
opened for the file's key, so that a page error opens none (log 42). -/
def appendStep (pageOk : Bool) (s : State) : State :=
  match s.comp.queue, s.comp.opening with
  | f :: _, none =>
    match f.records[f.appended]? with
    | none => s
    | some r =>
      if !s.compacting then s
      else if !pageOk then filePageError f s
      else runCompaction (appendNext f r s)
  | _, _ => s

/-- APPEND_RECORD (R59): no effect while compaction has no record to append or waits for an opening (log 4). -/
def execAppendRecord (pageOk : Bool) (s : State) : Result State := turn (appendStep pageOk) s

/-! ### The ends of builder writes (R68, R69, R78) -/

/-- The operation is a WRITE of a builder. -/
def isBuilderWrite (op : Op) : Bool :=
  match op.kind, op.requester with
  | .write, .builder _ => true
  | _, _ => false

/-- The builder an operation is for. -/
def opBuilder (op : Op) : Nat :=
  match op.requester with
  | .builder b => b
  | _ => 0

/-- A write completes OK: the entry becomes STORED and the builder FREE (R68). -/
def storeSegment (b : Nat) (s : State) : State :=
  let e := (s.builder b).entry
  runCompaction ((s.setEntry e { s.entry e with state := .stored }).setBuilder b {})

/-- SEGMENT_WRITE_OK (R68). -/
def execSegmentWriteOk (c : Nat) (s : State) : Result State :=
  turn (onOp c isBuilderWrite (fun op s => complete c op true (storeSegment (opBuilder op)) s)) s

/-- The failed write's slot is DEFECTIVE and the builder's failures rise by one (R69). -/
def countFailure (b : Nat) (r : SlotRef) (s : State) : State :=
  let t := s.setSlotState r .defective
  t.setBuilder b { t.builder b with failures := (t.builder b).failures + 1 }

/-- Failures at the write retry limit, or a timeout: the entry returns to FILLING and SEGMENT-WRITE-FAILED is raised
(R69, R97). -/
def failAtLimit (b : Nat) (r : SlotRef) (s : State) : State :=
  let v := s.builder b
  raiseFault { kind := .segmentWriteFailed, segment := some v.entry, slot := some r, retries := v.failures }
    (toFilling v.entry s)

/-- Failures below the limit: the close asks for a slot again, away from the failed channel where another offers one;
without a slot at once the entry returns to FILLING (R69, R91). -/
def retryWrite (b : Nat) (r : SlotRef) (s : State) : State :=
  let v := s.builder b
  if !s.compacting then toFilling v.entry s
  else
    match s.pickSlot (some r.channel) with
    | some r' => giveSlot b r' true s
    | none => waitForSlot b (toFilling v.entry s)

/-- A builder write completes FAIL, or times out (R69, R97). -/
def failSegment (timeout : Bool) (b : Nat) (r : SlotRef) (s : State) : State :=
  let t := countFailure b r s
  if timeout || decide (s.cat.params.retry ≤ (t.builder b).failures) then failAtLimit b r t else retryWrite b r t

/-- SEGMENT_WRITE_FAIL (R69). -/
def execSegmentWriteFail (c : Nat) (s : State) : Result State :=
  turn (onOp c isBuilderWrite (fun op s =>
    complete c op false (failSegment false (opBuilder op) { channel := c, slot := op.slot }) s)) s

/-- A builder page fails its check as the write starts: nothing is programmed, the slot returns to CLEAN, the entry to
FILLING, and the builder is held (R78, R184). -/
def builderPageFault (b : Nat) (r : SlotRef) (s : State) : State :=
  let v := s.builder b
  let t := toFilling v.entry (s.setSlotState r .clean)
  raiseFault { kind := .builderPageError, segment := some v.entry } (t.setBuilder b { v with pageHeld := true })

/-- BUILDER_PAGE_ERROR (R78): the slot keeps the contents it had. -/
def execBuilderPageError (c : Nat) (s : State) : Result State :=
  turn (onOp c isBuilderWrite (fun op s =>
    startNext c (endOp c (builderPageFault (opBuilder op) { channel := c, slot := op.slot } s)))) s

/-! ### READ-COMPACTION (R79) -/

/-- What compaction waits for: NOTHING, BUILDER, DIRECTORY-ENTRY or DRAIN-WRITES (R79). An opening held after
SPACE-EXHAUSTED is given as DIRECTORY-ENTRY, on which the book is silent (log 35). -/
def State.compactionWait (s : State) : Nat :=
  match s.comp.opening with
  | some .builder => 2
  | some _ => 3
  | none => if s.cat.state = .quiescing ∧ s.comp.queue.isEmpty ∧ s.closing then 4 else 1

/-- A queued file in a reply (R58). -/
def queuedBody (f : QueuedFile) : List Byte :=
  be 2 f.source ++ be 2 f.sequence ++ be 2 f.day ++ be 2 f.pages ++ be 3 f.toAppend ++ be 3 f.appended

/-- A builder in a reply: FREE by its state alone; any other by its state, which R79 does not list there, and then the
fields R79 lists, a CLOSING one's last of them whether it waits for a slot (R79, log 22). -/
def builderBody (s : State) (b : Nat) : List Byte :=
  let v := s.builder b
  match v.phase with
  | .free => be 1 1
  | ph =>
    be 1 (builderCode ph) ++ keyBody v.source v.day ++ be 2 v.entry ++ be 2 v.records.length ++ be 3 v.bytesUsed ++
      be 1 v.dyn.length ++ codesBody v.used ++ opt spanBody v.span ++ be 1 v.failures ++
      count4 (s.second - v.lastAppend) ++
      (if ph = .closing then flag (s.media.slotWait.contains b) else [])

/-- The READ-COMPACTION reply body (R79). -/
def compactionBody (s : State) : List Byte :=
  be 1 s.compactionCode ++ be 1 s.compactionWait ++ listBody queuedBody s.comp.queue ++
    (List.range Config.builders).flatMap (builderBody s)

/-- READ_COMPACTION (R79). -/
def execReadCompaction (p : Port) (tag : Nat) (s : State) : Result State :=
  request p tag 35 .both (fun r s =>
    checked r s.serviceChecks (fun s => answer r .ok (compactionBody s) s) s) s

/-! ### The Shared Code Table (R75 to R77) -/

/-- The value lies within its field's range (R73, R75). -/
def valueInRange : CodeValue → Bool
  | .cell n => decide (n ≤ max32)
  | .trunk n => decide (n ≤ max16)
  | .pfx ds => decide (ds.length = 6) && ds.all (fun d => decide (d ≤ 9))

/-- The value a DEFINE-CODE gives, when its field is known and the value in range (R75 check 5). -/
def operandValue : CodeOperand → Option CodeValue
  | .known v => if valueInRange v then some v else none
  | .unknown _ _ => none

/-- The entry may be defined: EMPTY, or DEFINED with count 0 (R75 check 6). -/
def mayDefine (c : SharedCode) : Bool :=
  decide (c.state = .empty) || (decide (c.state = .defined) && decide (c.count = 0))

/-- No other DEFINED entry holds the value (R75 check 7). -/
def State.valueUnused (s : State) (code : Nat) (v : Option CodeValue) : Bool :=
  s.comp.codes.all (fun e => decide (e.1 = code) || decide (e.2.state ≠ .defined) || decide (e.2.value ≠ v))

/-- DEFINE_CODE (R75). -/
def execDefineCode (p : Port) (tag code : Nat) (value : CodeOperand) (s : State) : Result State :=
  request p tag 32 .aOnly (fun r s =>
    checked r (s.catalogChecks ++
        [(decide (code < 16) && (operandValue value).isSome, .badField), (mayDefine (s.code code), .inUse),
         (s.valueUnused code (operandValue value), .inUse), s.limitCheck]) (fun s =>
      triggerFor r [] [] (s.setCode code { state := .defined, value := operandValue value, count := 0 })) s) s

/-- The entry after RETIRE-CODE: RETIRED with a count above 0, and EMPTY with 0 (R76). -/
def retireEntry (c : SharedCode) : SharedCode := if c.count = 0 then {} else { c with state := .retired }

/-- RETIRE_CODE (R76). -/
def execRetireCode (p : Port) (tag code : Nat) (s : State) : Result State :=
  request p tag 33 .aOnly (fun r s =>
    checked r (s.catalogChecks ++
        [(decide (code < 16), .badField), (decide ((s.code code).state = .defined), .wrongState),
         s.limitCheck]) (fun s =>
      triggerFor r [] [] (s.setCode code (retireEntry (s.code code)))) s) s

/-- A shared code in a reply: state, field, value and reference count; field and value are absent when EMPTY
(R73, R77, log 22). -/
def sharedCodeBody (c : SharedCode) : List Byte :=
  be 1 (codeStateCode c.state) ++ opt (fun v => be 1 (codeFieldCode v)) c.value ++ opt codeValueBody c.value ++
    be 3 c.count

/-- READ_CODES (R77). -/
def execReadCodes (p : Port) (tag : Nat) (s : State) : Result State :=
  request p tag 34 .both (fun r s =>
    checked r s.serviceChecks (fun s =>
      answer r .ok ((List.range 16).flatMap (fun c => sharedCodeBody (s.code c))) s) s) s

end Sys2Proof.Machine
end

