-- ==== Sys2Proof/Machine/Cursors.lean ====
section
/-!
DEFINITION. Machine/Cursors.lean: the cursor requests, the read of a load, and the idle close (R156 to R165).
-/

namespace Sys2Proof.Machine
open Sys2Proof

/-- The filter an OPEN-CURSOR gives: 5 to 15 digits and a set of kinds, not empty and within 1 to 6 (R158 check 4). -/
def filterOk (f : FilterOperand) : Bool :=
  decide (5 ≤ f.digits.length) && decide (f.digits.length ≤ 15) && f.digits.all (fun d => decide (d ≤ 9)) &&
    decide (f.kinds ≠ 0#8) && decide (f.kinds &&& 0xC0#8 = 0#8)

/-- The filter of an operand (R156): bit `i` of the set is kind `i + 1` (R204). -/
def filterOf (f : FilterOperand) : Filter :=
  { subscriber := f.digits
    kinds := ((List.range 6).filter (fun i => f.kinds.getLsbD i)).filterMap (fun i => kindOfNumber (i + 1)) }

/-- The lowest-numbered FREE cursor (R158). -/
def State.freeCursorNumber (s : State) : Option Nat :=
  (List.range Config.cursors).find? (fun c => !(s.cursor c).isOpen)

/-- The checks of OPEN-CURSOR (R158). -/
def State.openCursorChecks (s : State) (source firstDay lastDay : Nat) (f : Option FilterOperand) (d : Nat) :
    List (Bool × Status) :=
  s.serviceChecks ++
    [(decide (source < Config.sources) && decide (firstDay ≤ lastDay) && (directionOf d).isSome, .badField),
     ((match f with | none => true | some f => filterOk f), .badField), (s.freeCursorNumber.isSome, .noSlot)]

/-- A cursor as it opens (R158). -/
def openedCursor (p : Port) (source firstDay lastDay : Nat) (f : Option FilterOperand) (d : Direction) (now : Nat) :
    Cursor :=
  { isOpen := true, owner := p, source := source, firstDay := firstDay, lastDay := lastDay,
    filter := f.map filterOf, direction := d, seekPoint := match d with | .up => .start | .down => .stop,
    lastUse := now }

/-- OPEN_CURSOR (R158): the latch begins to load at once. -/
def execOpenCursor (p : Port) (tag source firstDay lastDay : Nat) (f : Option FilterOperand) (d : Nat) (s : State) :
    Result State :=
  request p tag 72 .both (fun r s =>
    checked r (s.openCursorChecks source firstDay lastDay f d) (fun s =>
      let c := s.freeCursorNumber.getD 0
      let k := openedCursor p source firstDay lastDay f ((directionOf d).getD .up) s.second
      answer r .ok (be 1 c) (startLoad c (s.setCursor c k))) s) s

/-- The checks every other cursor request makes before its own (R158). -/
def State.cursorChecks (s : State) (p : Port) (c : Nat) : List (Bool × Status) :=
  s.serviceChecks ++
    [(decide (c < Config.cursors), .badField), ((s.cursor c).isOpen, .wrongState),
     (decide ((s.cursor c).owner = p), .notPermitted)]

/-- A request of the cursor is taken: its last use is now (R158, log 25). -/
def touchCursor (c : Nat) (s : State) : State := s.setCursor c { s.cursor c with lastUse := s.second }

/-- The operation is a READ of cursor `c`'s load. -/
def isCursorRead (op : Op) : Bool :=
  match op.kind, op.requester with
  | .read, .cursor _ => true
  | _, _ => false

/-- The cursor an operation is for. -/
def opCursor (op : Op) : Nat :=
  match op.requester with
  | .cursor c => c
  | _ => 0

/-- The read of a load completes (R159 step 5). -/
def cursorRead (c : Nat) (p : Option Payload) (badPages : List (Nat × Nat)) (s : State) : State :=
  match (s.cursor c).held with
  | none => s
  | some e =>
    match p.filter (fun p => crcAgrees (s.entry e) (some p)) with
    | some p => gatherAll c (loadFromCopy c e { payload := p, bad := badPages } s)
    | none =>
      let k := s.cursor c
      gatherAll c (seekOn c (passEntry c e
        (releaseHeld c (s.setCursor c { k with unreadable := skipUp k.unreadable }))))

/-- A READ of a cursor ends (R159, R160). -/
def cursorReadEnds (ch : Nat) (op : Op) (res : ReadResult) (badPages : List (Nat × Nat)) (s : State) : State :=
  complete ch op true (fun t => cursorRead (opCursor op) (readPayload ch op.slot res t) badPages (useFree t)) s

/-- CURSOR_READ_COMPLETE (R159). -/
def execCursorReadComplete (ch : Nat) (res : ReadResult) (badPages : List (Nat × Nat)) (s : State) : Result State :=
  turn (onOp ch isCursorRead (fun op s => cursorReadEnds ch op res badPages s)) s

/-- READ_RECORDS (R161). -/
def execReadRecords (p : Port) (tag c count : Nat) (s : State) : Result State :=
  request p tag 75 .both (fun r s =>
    checked r (s.cursorChecks p c ++
        [(decide (1 ≤ count) && decide (count ≤ 16), .badField), ((s.cursor c).reading.isNone, .busy)]) (fun s =>
      let t := touchCursor c s
      gatherAll c (t.setCursor c { t.cursor c with reading := some { req := r, count := count, got := [] } })) s) s

/-- The entry target of a SEEK: an entry that is not FREE and whose key lies in the cursor's scope (R162). -/
def State.seekOk (s : State) (c : Nat) (t : SeekOperand) : Bool :=
  match t with
  | .start => true
  | .stop => true
  | .place e _ => (s.cursor c).covers (s.entry e)
  | .unknown _ _ => false

/-- The seek point of a target, as the entry stands (R162). -/
def State.seekPointOf (s : State) (t : SeekOperand) : SeekPoint :=
  match t with
  | .start => .start
  | .stop => .stop
  | .place e i => .place { day := (s.entry e).day, entry := e, index := i }
  | .unknown _ _ => .start

/-- A target of a known form (R162, R204). -/
def targetKnown : SeekOperand → Bool
  | .unknown _ _ => false
  | _ => true

/-- Move the cursor: a load in progress ends and a new one begins (R162). -/
def seekCursor (c : Nat) (sp : SeekPoint) (s : State) : State :=
  let t := endLoad c (touchCursor c s)
  startLoad c (t.setCursor c { t.cursor c with
    position := none, seekPoint := sp, latch := .empty, notStored := 0, bad := 0, unreadable := 0 })

/-- SEEK (R162). A target of an unlisted form is refused with the entry target's check, after BUSY (log 44). -/
def execSeek (p : Port) (tag c : Nat) (target : SeekOperand) (s : State) : Result State :=
  request p tag 73 .both (fun r s =>
    checked r (s.cursorChecks p c ++
        [((s.cursor c).reading.isNone, .busy), (targetKnown target && s.seekOk c target, .badField)]) (fun s =>
      answer r .ok [] (seekCursor c (s.seekPointOf target) s)) s) s

/-- A change of direction ends any load in progress and begins a new one; the direction already set changes nothing
(R163). -/
def turnCursor (c : Nat) (d : Direction) (s : State) : State :=
  let t := touchCursor c s
  if (t.cursor c).direction = d then t
  else
    let u := endLoad c t
    startLoad c (u.setCursor c { u.cursor c with direction := d, latch := .empty })

/-- SET_DIRECTION (R163). -/
def execSetDirection (p : Port) (tag c direction : Nat) (s : State) : Result State :=
  request p tag 74 .both (fun r s =>
    checked r (s.cursorChecks p c ++
        [((directionOf direction).isSome, .badField), ((s.cursor c).reading.isNone, .busy)]) (fun s =>
      answer r .ok [] (turnCursor c ((directionOf direction).getD .up) s)) s) s

/-- A READ-RECORDS outstanding for a closing cursor is answered CANCELLED with no records, in the layout of R201
(R164, log 22). -/
def cancelReading (c : Nat) (s : State) : State :=
  match (s.cursor c).reading with
  | none => s
  | some w => answer w.req .cancelled (recordsBody (s.cursor c) []) s

/-- CLOSE_CURSOR (R164). -/
def execCloseCursor (p : Port) (tag c : Nat) (s : State) : Result State :=
  request p tag 76 .both (fun r s =>
    checked r (s.cursorChecks p c) (fun s => answer r .ok [] (freeCursor c (cancelReading c s))) s) s

/-- CURSOR_IDLE_CLOSE (R164): no request outstanding, and 120 s or more since the last use. -/
def execCursorIdleClose (c : Nat) (s : State) : Result State :=
  turn (fun s =>
    let k := s.cursor c
    if k.isOpen ∧ k.reading.isNone ∧ k.lastUse + Config.cursorIdle ≤ s.second then
      raiseOn k.owner noticeCursorClosed c (freeCursor c s)
    else s) s

/-- A cursor in a reply: FREE by its state alone; an OPEN one by its state, which R165 does not list there, and then the
fields R165 lists (log 22). -/
def cursorBody (now : Nat) (k : Cursor) : List Byte :=
  if k.isOpen then
    be 1 2 ++ be 1 (portCode k.owner) ++ be 2 k.source ++ be 2 k.firstDay ++ be 2 k.lastDay ++
      opt filterBody k.filter ++ be 1 (directionCode k.direction) ++ seekPointBody k.seekPoint ++
      opt placeBody k.position ++ be 1 (latchCode k.latch) ++ opt (be 2) k.held ++ be 2 k.notStored ++ be 2 k.bad ++
      be 2 k.unreadable ++ flag k.reading.isSome ++ count4 (now - k.lastUse)
  else be 1 1

/-- A READ-CURSOR from the owner's port sets the cursor's last use (R158, R165, log 25). -/
def touchOwned (p : Port) (c : Nat) (s : State) : State :=
  if (s.cursor c).isOpen ∧ (s.cursor c).owner = p then touchCursor c s else s

/-- READ_CURSOR (R165). -/
def execReadCursor (p : Port) (tag c : Nat) (s : State) : Result State :=
  request p tag 77 .both (fun r s =>
    checked r (s.serviceChecks ++ [(decide (c < Config.cursors), .badField)]) (fun s =>
      answer r .ok (cursorBody s.second (s.cursor c)) (touchOwned p c s)) s) s

end Sys2Proof.Machine
end

