-- ==== Sys2Proof/Machine/Directory.lean ====
section
/-!
DEFINITION. Machine/Directory.lean: READ-SEGMENT, LIST-SEGMENTS, SET-CHANNEL and READ-CHANNEL (R86, R87, R93, R100).
-/

namespace Sys2Proof.Machine
open Sys2Proof

/-! ### Reading the directory (R82, R86, R87) -/

/-- The states in which expiry day, hold mask, slot and CRC-32 are present (R82). -/
def hasSlotFields (st : EntryState) : Bool :=
  match st with
  | .free => false
  | .filling => false
  | _ => true

/-- The hold mask, as the list of hold numbers in ascending order (R86). -/
def holdsBody (hs : List Nat) : List Byte := listBody (be 1) hs

/-- Slot and CRC-32 of an entry. -/
def placeOnFlash (e : DirEntry) : List Byte :=
  (match e.slot with | none => [] | some r => slotBody r) ++
    (match e.crc with | none => [] | some c => crcBody c)

/-- The READ-SEGMENT reply body: the state and every field R82 makes present in it. That they come in the order of R81's table,
not of R82's, and that the fields R82 makes present only later in FILLING carry a presence byte there, are the model's choices
(R86, log 22). An entry past FILLING that was closed before its first append has no span, and 0 to 0 is given for it
(R82, log 47). -/
def segmentBody (e : DirEntry) : List Byte :=
  match e.state with
  | .free => be 1 1
  | st =>
    let early := decide (st = .filling)
    let late := hasSlotFields st
    be 1 (entryStateCode st) ++ keyBody e.source e.day ++
      (if early then opt spanBody e.span else spanBody (e.span.getD (0, 0))) ++
      be 2 e.recordCount ++ be 3 e.payloadBytes ++ codesBody e.used ++
      (if early then opt (be 1) e.cls else be 1 (e.cls.getD 0)) ++
      (if late then be 3 (e.expiryDay.getD 0) ++ holdsBody e.holds else []) ++
      be 1 e.readers ++ be 1 (verifyCode e.verify) ++ opt (be 2) e.verifyDay ++
      (if late then placeOnFlash e else []) ++
      (match e.expiryCkpt with | none => [] | some n => count4 n)

/-- READ_SEGMENT (R86). -/
def execReadSegment (p : Port) (tag entry : Nat) (s : State) : Result State :=
  request p tag 40 .both (fun r s =>
    checked r s.serviceChecks (fun s => answer r .ok (segmentBody (s.entry entry)) s) s) s

/-- The entries a LIST-SEGMENTS lists, ascending, at most 64 (R87). -/
def State.listed (s : State) (source firstDay lastDay start : Nat) : List Nat :=
  ((s.media.dir.filter (fun e =>
    decide (e.2.state ≠ .free) && decide (e.2.source = source) && decide (firstDay ≤ e.2.day) &&
      decide (e.2.day ≤ lastDay) && decide (start ≤ e.1))).map Prod.fst).take 64

/-- The resume number: one above the last listed, when 64 are listed and the last is below 65,535 (R87). -/
def resumeNumber (l : List Nat) : Option Nat :=
  match l.getLast? with
  | none => none
  | some n => if l.length = 64 ∧ n < 65535 then some (n + 1) else none

/-- The count of entries in a state over the whole directory (R87). -/
def State.entriesIn (s : State) (st : EntryState) : Nat :=
  Tbl.count (fun e => decide (e.state = st)) (decide (st = .free)) Config.entries s.media.dir

/-- The LIST-SEGMENTS reply body (R87); a count of entries is 0 to 65,536. -/
def listingBody (s : State) (l : List Nat) : List Byte :=
  listBody (be 2) l ++ opt (be 2) (resumeNumber l) ++
    [EntryState.free, .filling, .writing, .stored, .expired, .erasing].flatMap (fun st => count4 (s.entriesIn st))

/-- LIST_SEGMENTS (R87). -/
def execListSegments (p : Port) (tag source firstDay lastDay start : Nat) (s : State) : Result State :=
  request p tag 41 .both (fun r s =>
    checked r (s.serviceChecks ++
        [(decide (source < Config.sources), .badField), (decide (firstDay ≤ lastDay), .badField)]) (fun s =>
      answer r .ok (listingBody s (s.listed source firstDay lastDay start)) s) s) s

/-! ### Channels (R93, R100) -/

/-- The channel holds no USED, DIRTY or CATALOG slot, and its queue is empty (R93 check 8). -/
def Channel.emptied (ch : Channel) : Bool :=
  (ch.lowest .used).isNone && (ch.lowest .dirty).isNone && (ch.lowest .catalog).isNone && ch.queue.isEmpty

/-- Every CLEAN slot of a channel becomes DIRTY (R93). -/
def Channel.dirtyClean (ch : Channel) : Channel :=
  let f := fun (st : SlotState) => if st = .clean then SlotState.dirty else st
  { ch with rest := f ch.rest, slots := (ch.slots.map (fun e => (e.1, f e.2))).filter (fun e => decide (e.2 ≠ f ch.rest)) }

/-- The channel with its new set mode; coming from OFFLINE its CLEAN slots become DIRTY (R93). -/
def Channel.withMode (ch : Channel) (m : ChanMode) : Channel :=
  if ch.setMode = .offline ∧ m ≠ .offline then { ch.dirtyClean with setMode := m } else { ch with setMode := m }

/-- A channel takes a new mode (R93). -/
def takeMode (c : Nat) (m : ChanMode) (s : State) : State :=
  s.setChannel c ((s.channel c).withMode m)

/-- The checks of SET-CHANNEL after the port (R93). OFFLINE named on a channel whose set mode is OFFLINE already is no change
to OFFLINE, so that checks 7 and 8 do not refuse it (log 46). -/
def State.setChannelChecks (s : State) (c mode : Nat) : List (Bool × Status) :=
  let toOffline := decide (modeOf mode = some .offline) && decide ((s.channel c).setMode ≠ .offline)
  s.catalogChecks ++
    [(decide (c < Config.channels) && (modeOf mode).isSome, .badField), ((s.channel c).present, .notPresent),
     (!(toOffline && decide (s.cat.channel = some c)), .locked),
     (!toOffline || (s.channel c).emptied, .inUse), s.limitCheck]

/-- The mode is taken; where it changed, the wait list is served and tested and the Eraser looks for work; then the request
waits for its checkpoint (R91, R93, R117, R169). That the Eraser looks before the trigger is the model's choice (log 60).
Where that test halts the part, the trigger comes after the halt, and compaction being STOPPED the checkpoint is abandoned at
once (log 49). -/
def setChannelMode (r : ReqRef) (c : Nat) (m : ChanMode) (s : State) : State :=
  triggerFor r [] [] (if (s.channel c).setMode = m then s else afterSlots (takeMode c m s))

/-- SET_CHANNEL (R93). -/
def execSetChannel (p : Port) (tag c mode : Nat) (s : State) : Result State :=
  request p tag 42 .aOnly (fun r s =>
    checked r (s.setChannelChecks c mode) (setChannelMode r c ((modeOf mode).getD .online)) s) s

/-- The operation in progress in a reply: kind and slot, and the whole seconds since it started (R100, log 22). -/
def operationBody (c now : Nat) (op : Op) (since : Nat) : List Byte :=
  be 1 (opKindCode op.kind) ++ slotBody { channel := c, slot := op.slot } ++ count4 (now - since)

/-- The READ-CHANNEL reply body (R100). -/
def channelBody (c : Nat) (s : State) : List Byte :=
  let ch := s.channel c
  be 1 (presenceCode ch.present) ++ be 1 (modeCode ch.setMode) ++ be 1 (modeCode ch.mode) ++
    flag (decide (s.cat.channel = some c)) ++
    [SlotState.clean, .dirty, .used, .defective, .catalog].flatMap (fun st => be 2 (ch.countSlots st)) ++
    be 1 ch.queue.length ++ count4 ch.outside.length ++
    opt (fun op => operationBody c s.second op (ch.started.getD s.second)) ch.current ++
    be 1 s.media.pointer ++ be 1 s.media.slotWait.length

/-- READ_CHANNEL (R100). -/
def execReadChannel (p : Port) (tag c : Nat) (s : State) : Result State :=
  request p tag 43 .both (fun r s =>
    checked r [(s.serviceOrHalted, .wrongState), (decide (c < Config.channels), .badField)] (fun s =>
      answer r .ok (channelBody c s) s) s) s

end Sys2Proof.Machine
end

