-- ==== Sys2Proof/Machine/Retention.lean ====
section
/-!
DEFINITION. Machine/Retention.lean: ADVANCE-DAY, SET-CLASS, the DAY and EXTEND sweeps, the ends of the Eraser's erases,
and READ-RETENTION (R101 to R122).
-/

namespace Sys2Proof.Machine
open Sys2Proof

/-! ### ADVANCE-DAY (R102, R103) -/

/-- A DAY sweep stands in the queue (R102). -/
def State.dayQueued (s : State) : Bool := s.ret.sweeps.any (fun w => decide (w.kind = .day))

/-- The Sweep Queue has room (R108). -/
def State.sweepRoom (s : State) : Bool := decide (s.ret.sweeps.length < Config.sweeps)

/-- The closing test to every OPEN entry at a day advance (R55). -/
def closeTallies (s : State) : State :=
  { s with intake := { s.intake with
      tally := s.intake.tally.map (fun e => (e.1, closingTest s.today s.lookback (tallyDay e.1) e.2)) } }

/-- A FILLING builder's day is earlier than today (R71). -/
def State.hasOldBuilder (s : State) : Bool :=
  s.comp.builders.any (fun e => decide (e.2.phase = .filling) && decide (e.2.day < s.today))

/-- Note whether closes of the day advance are still to begin, compaction having become STOPPED (R71). -/
def noteCloses (s : State) : State :=
  { s with comp := { s.comp with closesOwed := !s.compacting && s.hasOldBuilder } }

/-- The closes of a day advance: builders of days earlier than today; those that a STOPPED compaction keeps from beginning
are owed (R71). -/
def closeOldBuilders (s : State) : State :=
  noteCloses (closeBuilders (fun b => decide (b.day < s.today)) s)

/-- The day advances (R103). -/
def advance (r : ReqRef) (s : State) : State :=
  let t := { s with ret := { s.ret with today := s.ret.today + 1 } }
  pushSweep .day [r] (runCompaction (closeOldBuilders (closeTallies (ageGaps t))))

/-- ADVANCE_DAY (R102, R103): answered at the end of its sweep's checkpoint (R104). -/
def execAdvanceDay (p : Port) (tag : Nat) (s : State) : Result State :=
  request p tag 48 .aOnly (fun r s =>
    checked r (s.catalogChecks ++
        [(decide (s.today < 65535), .limit), (!s.dayQueued, .busy), (s.sweepRoom, .busy)]) (advance r) s) s

/-! ### SET-CLASS (R106, R107) -/

/-- An EXTEND for the class that has not yet started stands in the queue (R107). -/
def State.extendWaiting (s : State) (c : Nat) : Bool := extendQueued c s.ret.sweeps.tail

/-- The request waits on the first EXTEND for the class that has not yet started. -/
def joinExtend (c : Nat) (r : ReqRef) : List Sweep → List Sweep
  | [] => []
  | w :: t => if w.kind = .extend c then { w with reqs := w.reqs ++ [r] } :: t else w :: joinExtend c r t

/-- A lengthening finds its EXTEND sweep (R107). -/
def oweExtend (c : Nat) (r : ReqRef) (s : State) : State :=
  match s.ret.sweeps with
  | w :: t => if extendQueued c t then s.setSweeps (w :: joinExtend c r t) else pushSweep (.extend c) [r] s
  | [] => pushSweep (.extend c) [r] s

/-- The class after a change of its days (R107). -/
def withDays (v : ClassEntry) (days : Nat) : ClassEntry :=
  { days := days, least := min v.least days, pending := v.pending || decide (v.days < days) }

/-- The change of a class: a lengthening owes a sweep and triggers with no waiter; anything else is answered as a catalog
request (R107, R169). -/
def changeClass (r : ReqRef) (c days : Nat) (s : State) : State :=
  let v := s.retClass c
  let t := s.setRetClass c (withDays v days)
  if v.days < days then trigger [] (oweExtend c r t) else triggerFor r [] [] t

/-- SET_CLASS (R106). -/
def execSetClass (p : Port) (tag c days : Nat) (s : State) : Result State :=
  request p tag 49 .aOnly (fun r s =>
    checked r (s.catalogChecks ++
        [(decide (c < 8) && decide (1 ≤ days) && decide (days ≤ 4000), .badField),
         (decide (s.lookback < days), .badField),
         (decide (days ≤ (s.retClass c).days) || s.extendWaiting c || s.sweepRoom, .busy), s.limitCheck])
      (changeClass r c days) s) s

/-! ### The DAY sweep (R111, R112) -/

/-- The number of the first checkpoint whose snapshot will be taken after now (R112). -/
def State.nextSnapshot (s : State) : Nat :=
  if s.cat.state = .writing then s.cat.last + 2 else s.cat.last + 1

/-- A STORED entry whose expiry day has come (R111). -/
def State.due (s : State) (e : DirEntry) : Bool :=
  decide (e.state = .stored) && (match e.expiryDay with | none => false | some d => decide (d ≤ s.today))

/-- The DAY sweep judges one entry: marked EXPIRED when unpinned, and otherwise counted under the first failing test
(R111). -/
def judgeExpiry (w : Sweep) (s : State) : Sweep × State :=
  let e := s.entry w.position
  if !s.due e then (w, s)
  else if !e.holds.isEmpty then ({ w with held := w.held + 1 }, s)
  else if e.readers ≠ 0 then ({ w with read := w.read + 1 }, s)
  else if (s.tallyEntry e.source e.day).isSome then ({ w with tallied := w.tallied + 1 }, s)
  else ({ w with marked := w.marked + 1 },
        s.setEntry w.position { e with state := .expired, expiryCkpt := some s.nextSnapshot })

/-- DAY_SWEEP_ENTRY (R111, R113). -/
def execDaySweepEntry (s : State) : Result State :=
  turn (fun s =>
    match s.runningSweep with
    | none => s
    | some w =>
      match w.kind with
      | .day => stepSweep (judgeExpiry w s).1 endDay (judgeExpiry w s).2
      | _ => s) s

/-! ### The EXTEND sweep (R115) -/

/-- The EXTEND sweep handles one entry of its class (R115). -/
def extendEntry (c : Nat) (w : Sweep) (s : State) : Sweep × State :=
  let e := s.entry w.position
  let new := e.day + (s.retClass c).days
  let later := decide (e.expiryDay.getD 0 < new)
  if e.cls ≠ some c then (w, s)
  else
    match e.state with
    | .writing =>
      if later then ({ w with extended := w.extended + 1 }, s.setEntry w.position { e with expiryDay := some new })
      else (w, s)
    | .stored =>
      if later then ({ w with extended := w.extended + 1 }, s.setEntry w.position { e with expiryDay := some new })
      else (w, s)
    | .expired =>
      if s.today < new then
        ({ w with reclaimed := w.reclaimed + 1 },
         s.setEntry w.position { e with state := .stored, expiryDay := some new, expiryCkpt := none })
      else if later then (w, s.setEntry w.position { e with expiryDay := some new })
      else (w, s)
    | .erasing => ({ w with tooLate := w.tooLate + 1 }, s)
    | .free => (w, s)
    | .filling => (w, s)

/-- EXTEND_SWEEP_ENTRY (R115, R116); an entry reclaimed may have been the last that an opening waited for (R61). At entry
65,535 the sweep ends, its checkpoint triggered and the Eraser's look made, before that opening is tested (log 56). -/
def execExtendSweepEntry (s : State) : Result State :=
  turn (fun s =>
    match s.runningSweep with
    | none => s
    | some w =>
      match w.kind with
      | .extend c => testOpening (stepSweep (extendEntry c w s).1 (endExtend c) (extendEntry c w s).2)
      | _ => s) s

/-! ### The Eraser (R118, R119) -/

/-- The operation is an erase of the Eraser. -/
def isErasing (op : Op) : Bool := decide (op.kind = .erase) && decide (op.requester = .eraser)

/-- The end of an Eraser erase (R118, R119). -/
def eraserEnds (c : Nat) (op : Op) (ok : Bool) (s : State) : State :=
  complete c op ok (fun t => afterSlots (finishErase c { slot := op.slot, entry := op.entry } ok t)) s

/-- ENTRY_ERASE_COMPLETE (R118). -/
def execEntryEraseComplete (c : Nat) (ok : Bool) (s : State) : Result State :=
  turn (onOp c (fun op => isErasing op && op.entry.isSome) (fun op s => eraserEnds c op ok s)) s

/-- DIRTY_SLOT_ERASE_COMPLETE (R119). -/
def execDirtySlotEraseComplete (c : Nat) (ok : Bool) (s : State) : Result State :=
  turn (onOp c (fun op => isErasing op && op.entry.isNone) (fun op s => eraserEnds c op ok s)) s

/-! ### READ-RETENTION (R122) -/

/-- A class in a reply (R105). -/
def classBody (v : ClassEntry) : List Byte := be 2 v.days ++ be 2 v.least ++ flag v.pending

/-- The Sweep Queue in a reply, the head with its position (R122). -/
def sweepsBody (q : List Sweep) : List Byte :=
  match q with
  | [] => be 1 0
  | w :: t => be 1 q.length ++ sweepBody w.kind ++ be 2 w.position ++ t.flatMap (fun v => sweepBody v.kind)

/-- The record of the last DAY sweep (R113). -/
def dayRecordBody (d : DayRecord) : List Byte :=
  count4 d.marked ++ count4 d.held ++ count4 d.read ++ count4 d.tallied ++ be 2 d.day

/-- The record of the last EXTEND sweep (R116). -/
def extendRecordBody (x : ExtendRecord) : List Byte :=
  count4 x.extended ++ count4 x.reclaimed ++ count4 x.tooLate ++ be 1 x.cls

/-- A channel's Eraser erase in a reply: slot and entry (R122). -/
def eraseBody (s : State) (c : Nat) : List Byte :=
  let w := s.eraseOn c
  opt (fun w => slotBody { channel := c, slot := w.slot }) w ++
    opt (be 2) (w.bind EraseWork.entry)

/-- The EXPIRED entries eligible now (R117, R122). -/
def State.eligibleCount (s : State) : Nat := (s.media.dir.filter (fun e => s.eligible e.2)).length

/-- The EXPIRED entries that wait for their checkpoint or for an extension (R122). -/
def State.waitingCount (s : State) : Nat :=
  (s.media.dir.filter (fun e => decide (e.2.state = .expired) && !s.eligible e.2)).length

/-- The READ-RETENTION reply body (R122): each of the two records stands under one presence byte, the slot and the entry of an
erase under one each (log 22). -/
def retentionBody (s : State) : List Byte :=
  be 2 s.ret.today ++ be 2 s.ret.lastSwept ++
    (List.range 8).flatMap (fun c => classBody (s.retClass c)) ++
    be 1 s.retentionCode ++ sweepsBody s.ret.sweeps ++
    opt dayRecordBody s.ret.lastDay ++ opt extendRecordBody s.ret.lastExtend ++
    be 1 s.eraserCode ++ (List.range Config.channels).flatMap (eraseBody s) ++
    count4 s.eligibleCount ++ count4 s.waitingCount

/-- READ_RETENTION (R122). -/
def execReadRetention (p : Port) (tag : Nat) (s : State) : Result State :=
  request p tag 50 .both (fun r s =>
    checked r [(s.serviceOrHalted, .wrongState)] (fun s => answer r .ok (retentionBody s) s) s) s

end Sys2Proof.Machine
end

