-- ==== Sys2Proof/Machine/Faults.lean ====
section
/-!
DEFINITION. Machine/Faults.lean: CHANNEL-TIMEOUT and the discarded ends of operations, FETCH-FAULT, RESUME and ABANDON
(R97, R99, R183 to R191).
-/

namespace Sys2Proof.Machine
open Sys2Proof

/-! ### Operations that end without their completion (R97, R99) -/

/-- An operation whose result is discarded ends; a load or a Format may wait for the channels to fall quiet (R99,
R182). -/
def discardedEnds (c : Nat) (op : Op) (ok : Bool) (s : State) : State := afterQuiet (complete c op ok id s)

/-- The result of the operation is discarded (R96, R99). -/
def isDiscarded (op : Op) : Bool := decide (op.requester = .discarded)

/-- OPERATION_END_DISCARDED (R99). -/
def execOperationEndDiscarded (c : Nat) (ok : Bool) (s : State) : Result State :=
  turn (onOp c isDiscarded (fun op s => discardedEnds c op ok s)) s

/-- The operation has run 2 s or more since the channel started it (R97). -/
def State.overLimit (s : State) (c : Nat) : Bool :=
  match (s.channel c).started with
  | none => false
  | some t => decide (t + Config.operationLimit ≤ s.second)

/-- An Eraser erase times out (R120). -/
def eraseTimesOut (c : Nat) (op : Op) (s : State) : State :=
  complete c op false (timeoutErase c { slot := op.slot, entry := op.entry }) s

/-- A CATALOG-WRITE times out: FAIL (R97). -/
def catalogWriteTimesOut (c : Nat) (op : Op) (s : State) : State :=
  if s.cat.archive = .formatting then firstImageEnds c op false s else shareFails c op s

/-- The completion handed to the requester on a timeout, by kind (R97). -/
def timeOut (c : Nat) (op : Op) (s : State) : State :=
  match op.requester with
  | .discarded => discardedEnds c op false s
  | .builder b => complete c op false (failSegment true b { channel := c, slot := op.slot }) s
  | .eraser => eraseTimesOut c op s
  | .format => formatEraseEnds c op false s
  | .audit => auditRead c op .fail s
  | .cursor _ => cursorReadEnds c op .fail [] s
  | .load => loadReadEnds c op .fail s
  | .catalog => catalogWriteTimesOut c op s

/-- CHANNEL_TIMEOUT (R97). -/
def execChannelTimeout (c : Nat) (s : State) : Result State :=
  turn (fun s => if s.overLimit c then onOp c (fun _ => true) (fun op s => timeOut c op s) s else s) s

/-! ### FETCH-FAULT (R186, R203) -/

/-- The allowed responses of a kind: 1 RESUME, 3 RESUME and ABANDON (R184, R203). -/
def responsesCode : FaultKind → Nat
  | .filePageError => 3
  | .builderPageError => 3
  | _ => 1

/-- The fields of a fault after the state byte, with retries and responses given (R203). -/
def faultFields (n : Nat) (f : FaultInfo) (retries responses : Nat) : List Byte :=
  be 4 n ++ be 1 (faultKindCode f.kind) ++ be 1 (engineCode (engineOf f.kind)) ++
    be 1 ((if f.segment.isSome then 1 else 0) + (if f.slot.isSome then 2 else 0) + (if f.file.isSome then 4 else 0)) ++
    be 2 (f.segment.getD 0) ++ slotBody (f.slot.getD { channel := 0, slot := 0 }) ++
    be 2 ((f.file.map Prod.fst).getD 0) ++ be 2 ((f.file.map Prod.snd).getD 0) ++ be 1 retries ++ be 1 responses

/-- A context in the FETCH-FAULT reply (R203). -/
def contextBody (code : Nat) (c : FaultContext) : List Byte :=
  match c with
  | .empty => be 1 code ++ List.replicate 19 0#8
  | .held n f => be 1 code ++ be 1 1 ++ faultFields n f f.retries (responsesCode f.kind)
  | .taken n f => be 1 code ++ be 1 2 ++ faultFields n f f.retries (responsesCode f.kind)

/-- The halt record in the FETCH-FAULT reply: its last two bytes are zero (R203). -/
def haltBody (h : Option (Nat × FaultInfo)) : List Byte :=
  match h with
  | none => be 1 3 ++ List.replicate 19 0#8
  | some (n, f) => be 1 3 ++ be 1 3 ++ faultFields n f 0 0

/-- The FETCH-FAULT reply body (R203). -/
def fetchBody (s : State) (context : Nat) : List Byte :=
  match context with
  | 1 => contextBody 1 s.fault.general
  | 2 => contextBody 2 s.fault.media
  | _ => haltBody s.fault.halt

/-- A HELD context becomes TAKEN (R186). -/
def takeContext : FaultContext → FaultContext
  | .held n f => .taken n f
  | c => c

/-- The host's acknowledgement of a context: from port A alone (R186). -/
def acknowledgeFault (p : Port) (context : Nat) (s : State) : State :=
  match p, context with
  | .a, 1 => { s with fault := { s.fault with general := takeContext s.fault.general } }
  | .a, 2 => { s with fault := { s.fault with media := takeContext s.fault.media } }
  | _, _ => s

/-- FETCH_FAULT (R186). -/
def execFetchFault (p : Port) (tag context : Nat) (s : State) : Result State :=
  request p tag 88 .both (fun r s =>
    checked r [(s.serviceOrHalted, .wrongState), (decide (1 ≤ context) && decide (context ≤ 3), .badField)] (fun s =>
      answer r .ok (fetchBody s context) (acknowledgeFault p context s)) s) s

/-! ### RESUME (R187) -/

/-- A context whose stopped engine is the one named becomes EMPTY (R187). -/
def emptyIf (e : Engine) (c : FaultContext) : FaultContext :=
  match c with
  | .held n f => if engineOf f.kind = e then .empty else .held n f
  | .taken n f => if engineOf f.kind = e then .empty else .taken n f
  | .empty => .empty

/-- Every context of an engine becomes EMPTY (R187). -/
def emptyContexts (e : Engine) (s : State) : State :=
  { s with fault := { s.fault with general := emptyIf e s.fault.general, media := emptyIf e s.fault.media } }

/-- For each builder in number order that `p` names, while compaction runs, apply `f` and ask for its slot. The number order is
the model's choice (log 64), as is that a builder which compaction, stopped again by an earlier one, does not come to is left as it
is, its failures among the rest (log 65). -/
def askAgain (p : State → Nat → Bool) (f : Builder → Builder) (s : State) : State :=
  (List.range Config.builders).foldl (fun t b =>
    if t.compacting && p t b then askSlot b (t.setBuilder b (f (t.builder b))) else t) s

/-- A close that holds no slot, is not on the wait list and is not held by a page error (R184, R187). -/
def State.slotless (s : State) (b : Nat) : Bool :=
  decide ((s.builder b).phase = .closing) && !(s.builder b).pageHeld &&
    decide ((s.entry (s.builder b).entry).state = .filling) && !s.media.slotWait.contains b

/-- The held opening is tried again (R187). -/
def retryOpening (s : State) : State :=
  if s.comp.opening = some .held ∧ s.compacting then resolveOpening (setOpening (some .entry) s) else s

/-- The closes that a day advance still owes begin, where compaction runs (R71). -/
def takeCloses (s : State) : State := if s.comp.closesOwed && s.compacting then closeOldBuilders s else s

/-- Compaction leaves STOPPED and takes up its held items in the order of R187; then the closes that a day advance still
owes begin (R71, log 19). A builder held by a page error keeps its failures: R187 sets to 0 those of the closes it names
after it (log 36). The head file is no longer held from here on, though its page is read again only at the next append, and
also where a held item taken up here stops compaction before that (log 19). A builder is no longer held from the moment it
asks for its slot here, also where it is given none and its pages are not yet read again (log 59). Within each group the
builders ask in number order (log 64), and those not come to keep their failures (log 65). -/
def resumeCompaction (s : State) : State :=
  let t := { s with comp := { s.comp with stopped := false, headHeld := false } }
  let t := askAgain (fun u b => (u.builder b).pageHeld) (fun v => { v with pageHeld := false }) t
  let t := askAgain State.slotless (fun v => { v with failures := 0 }) t
  let t := serveWait (retryOpening t)
  runCompaction (takeCloses t)

/-- An engine leaves STOPPED (R187). -/
def resumeEngine : Engine → State → State
  | .compaction, s => resumeCompaction s
  | .eraser, s => lookForWork { s with ret := { s.ret with eraserStopped := false } }
  | .catalog, s => trigger [] { s with cat := { s.cat with state := .idle } }

/-- The engine named, and STOPPED (R187 check 5). -/
def State.namedStopped (s : State) (engine : Nat) : Bool :=
  match engineOfCode engine with
  | none => false
  | some e => s.engineStopped e

/-- A RESUME that passes: answered at once, and the engine goes on (R187). -/
def resumeNamed (r : ReqRef) (engine : Nat) (s : State) : State :=
  match engineOfCode engine with
  | none => s
  | some e => resumeEngine e (emptyContexts e (answer r .ok [] s))

/-- RESUME (R187). -/
def execResume (p : Port) (tag engine : Nat) (s : State) : Result State :=
  request p tag 89 .aOnly (fun r s =>
    checked r (s.serviceChecks ++
        [((engineOfCode engine).isSome, .badField), (s.namedStopped engine, .wrongState)]) (resumeNamed r engine) s) s

/-! ### ABANDON (R188 to R190) -/

/-- The builders held by a page error, in number order (R188). -/
def State.heldBuilders (s : State) : List Nat :=
  (List.range Config.builders).filter (fun b => (s.builder b).pageHeld)

/-- The findings an abandonment writes (R188 check 8). -/
def State.abandonCount (s : State) : Nat :=
  (if s.comp.headHeld then 1 else 0) + s.heldBuilders.length

/-- The PARTIAL-FILE finding of a file (R189). -/
def partialFile (f : QueuedFile) : FindingBody :=
  { kind := .partialFile, source := some f.source, dataDay := some f.day, range := some (f.sequence, f.sequence),
    pair := some (f.appended, f.toAppend - f.appended) }

/-- Abandon the held head file (R189). -/
def abandonHead (s : State) : State :=
  if s.comp.headHeld then
    match s.comp.queue with
    | [] => s
    | f :: _ =>
      let t := s.changeTally f.source f.day (fun y => tallyReduce y (f.toAppend - f.appended))
      writeFinding (partialFile f) (leaveQueue { t with comp := { t.comp with headHeld := false } })
  else s

/-- The SEGMENT-LOST finding of an entry, with the tally's records accepted after the reduction (R190). An entry without
records has no span, and its finding no range (log 47). -/
def segmentLost (n : Nat) (e : DirEntry) (left : Nat) : FindingBody :=
  { kind := .segmentLost, source := some e.source, dataDay := some e.day, segment := some n, range := e.span,
    pair := some (e.recordCount, left) }

/-- Abandon a builder held by a page error (R190). -/
def abandonBuilder (b : Nat) (s : State) : State :=
  let n := (s.builder b).entry
  let e := s.entry n
  let t := s.changeTally e.source e.day (fun y => tallyReduce y e.recordCount)
  let left := ((t.tallyEntry e.source e.day).map TallyEntry.recordsAccepted).getD 0
  let t := writeFinding (segmentLost n e left) (freeEntry n t)
  releaseTest e.source (t.setBuilder b {})

/-- The numbers of the findings an abandonment writes (R188). Check 8 counts places alone, so that where the finding numbers
run out partway a number is listed whose finding finds no place (log 32). -/
def abandonBody (s : State) : List Byte :=
  listBody (be 4) ((List.range s.abandonCount).map (fun i => s.audit.next + i))

/-- An ABANDON that passes (R188). -/
def abandon (r : ReqRef) (s : State) : State :=
  let t := s.heldBuilders.foldl (fun u b => abandonBuilder b u) (abandonHead s)
  resumeCompaction (emptyContexts .compaction (answer r .ok (abandonBody s) t))

/-- ABANDON (R188). -/
def execAbandon (p : Port) (tag engine : Nat) (s : State) : Result State :=
  request p tag 90 .aOnly (fun r s =>
    checked r (s.serviceChecks ++
        [((engineOfCode engine).isSome, .badField), (decide (engineOfCode engine = some .compaction), .wrongState),
         (s.comp.stopped, .wrongState), (decide (s.abandonCount ≠ 0), .wrongState),
         (decide (s.abandonCount ≤ s.freePlaces), .noSpace)]) (abandon r) s) s

end Sys2Proof.Machine
end

