-- ==== Sys2Proof/Machine/Holds.lean ====
section
/-!
DEFINITION. Machine/Holds.lean: the hold requests, the APPLY and RELEASE sweeps, HOLD-LOSS and READ-HOLD (R123 to R137).
-/

namespace Sys2Proof.Machine
open Sys2Proof

/-- Write a hold and raise HOLD-CHANGED on both ports (R124). -/
def changeHold (h : Nat) (v : Hold) (s : State) : State :=
  raiseBoth noticeHoldChanged h (s.setHold h v)

/-- Check 4 of R127. -/
def scopeOk (c : HoldScope) : Bool :=
  decide (c.firstSource ≤ c.lastSource) && decide (c.lastSource < Config.sources) && decide (c.firstDay ≤ c.lastDay)

/-- The lowest-numbered EMPTY hold (R127). -/
def State.emptyHold (s : State) : Option Nat :=
  (List.range Config.holds).find? (fun h => decide ((s.hold h).state = .empty))

/-- CREATE_HOLD (R127): the NOT-DURABLE reply carries the hold number too (log 23). -/
def execCreateHold (p : Port) (tag : Nat) (scope : HoldScope) (note : Nat) (s : State) : Result State :=
  request p tag 56 .both (fun r s =>
    checked r (s.catalogChecks ++ [(scopeOk scope, .badField), (s.emptyHold.isSome, .noSlot), s.limitCheck]) (fun s =>
      let h := s.emptyHold.getD 0
      triggerFor r (be 1 h) (be 1 h)
        (changeHold h { state := .draft, owner := p, scope := scope, note := note } s)) s) s

/-- The checks of a request on a hold that its owner alone may send, up to check 6 (R128, R129). -/
def State.ownerChecks (s : State) (p : Port) (h : Nat) (fieldsOk : Bool) : List (Bool × Status) :=
  s.catalogChecks ++
    [(decide (h < Config.holds) && fieldsOk, .badField), (decide ((s.hold h).state ≠ .empty), .wrongState),
     (decide ((s.hold h).owner = p), .notPermitted)]

/-- EDIT_HOLD (R128). -/
def execEditHold (p : Port) (tag h : Nat) (scope : HoldScope) (note : Nat) (s : State) : Result State :=
  request p tag 57 .both (fun r s =>
    checked r (s.ownerChecks p h (scopeOk scope) ++
        [(decide ((s.hold h).state = .draft), .locked), s.limitCheck]) (fun s =>
      triggerFor r [] [] (changeHold h { s.hold h with scope := scope, note := note } s)) s) s

/-- DISCARD_HOLD (R128). -/
def execDiscardHold (p : Port) (tag h : Nat) (s : State) : Result State :=
  request p tag 58 .both (fun r s =>
    checked r (s.ownerChecks p h true ++ [(decide ((s.hold h).state = .draft), .locked), s.limitCheck]) (fun s =>
      triggerFor r [] [] (changeHold h {} s)) s) s

/-- The Sweep Queue holds fewer than 8 sweeps (R129 check 8, R134 check 9). -/
def State.roomForSweep (s : State) : Bool := decide (s.ret.sweeps.length < Config.sweeps)

/-- ACTIVATE_HOLD (R129): answered at the end of its sweep's checkpoint (R132). -/
def execActivateHold (p : Port) (tag h : Nat) (s : State) : Result State :=
  request p tag 59 .both (fun r s =>
    checked r (s.ownerChecks p h true ++
        [(decide ((s.hold h).state = .draft), .wrongState), (s.roomForSweep, .busy), s.limitCheck]) (fun s =>
      trigger [] (pushSweep (.apply h) [r] (changeHold h { s.hold h with state := .applying } s))) s) s

/-- The entry with the mark of a hold set. -/
def withMark (h : Nat) (e : DirEntry) : DirEntry := { e with holds := insertRising h e.holds }

/-- The APPLY sweep handles one entry the hold covers (R130). -/
def applyEntry (h n : Nat) (s : State) : State :=
  let e := s.entry n
  let v := s.hold h
  if !scopeCovers v.scope e.source e.day then s
  else
    match e.state with
    | .writing => (s.setEntry n (withMark h e)).setHold h { v with marked := v.marked + 1 }
    | .stored => (s.setEntry n (withMark h e)).setHold h { v with marked := v.marked + 1 }
    | .expired =>
      (s.setEntry n { withMark h e with state := .stored, expiryCkpt := none }).setHold h
        { v with marked := v.marked + 1, reclaimed := v.reclaimed + 1 }
    | .erasing =>
      s.setHold h { v with
        lost := v.lost + 1
        firstLost := match v.firstLost with
          | some f => some f
          | none => some { entry := n, source := e.source, day := e.day } }
    | .free => s
    | .filling => s

/-- APPLY_SWEEP_ENTRY (R130, R132); an entry reclaimed may have been the last that an opening waited for (R61). At entry
65,535 the run ends, its hold ACTIVE and its checkpoint triggered, before that opening is tested (log 56). -/
def execApplySweepEntry (s : State) : Result State :=
  turn (fun s =>
    match s.runningSweep with
    | none => s
    | some w =>
      match w.kind with
      | .apply h => testOpening (stepSweep w (runOutApply h) (applyEntry h w.position s))
      | _ => s) s

/-- HOLD_LOSS (R132): a SUSPENDED APPLY sweep takes a free place, writes its finding and ends. -/
def execHoldLoss (s : State) : Result State := turn resumeSweep s

/-- The port may release the hold: port B any, port A its own (R134 check 6). -/
def mayRelease (p : Port) (v : Hold) : Bool :=
  match p with
  | .b => true
  | .a => decide (v.owner = .a)

/-- RELEASE_HOLD (R134): answered at the end of its sweep's checkpoint (R135). -/
def execReleaseHold (p : Port) (tag h : Nat) (s : State) : Result State :=
  request p tag 60 .both (fun r s =>
    checked r (s.catalogChecks ++
        [(decide (h < Config.holds), .badField), (decide ((s.hold h).state ≠ .empty), .wrongState),
         (mayRelease p (s.hold h), .notPermitted), (decide ((s.hold h).state ≠ .applying), .busy),
         (decide ((s.hold h).state = .active), .wrongState), (s.roomForSweep, .busy), s.limitCheck]) (fun s =>
      trigger [] (pushSweep (.release h) [r] (changeHold h { s.hold h with state := .releasing } s))) s) s

/-- The RELEASE sweep clears the hold's mark from one entry (R135). -/
def releaseEntry (h : Nat) (w : Sweep) (s : State) : Sweep × State :=
  let e := s.entry w.position
  if e.holds.contains h then
    ({ w with cleared := w.cleared + 1 }, s.setEntry w.position { e with holds := e.holds.filter (fun k => k != h) })
  else (w, s)

/-- RELEASE_SWEEP_ENTRY (R135). -/
def execReleaseSweepEntry (s : State) : Result State :=
  turn (fun s =>
    match s.runningSweep with
    | none => s
    | some w =>
      match w.kind with
      | .release h => stepSweep (releaseEntry h w s).1 (endRelease h) (releaseEntry h w s).2
      | _ => s) s

/-- How many sweeps stand ahead of the hold's own (R137). -/
def sweepsAhead (h : Nat) (q : List Sweep) : Option Nat :=
  q.findIdx? (fun w => decide (w.kind = .apply h) || decide (w.kind = .release h))

/-- Where the sweep of an APPLYING or RELEASING hold stands: QUEUED with the sweeps ahead, RUNNING with its position, or
WAITING-FOR-ROOM (R137, log 22). -/
def holdSweepBody (s : State) (h : Nat) : List Byte :=
  match sweepsAhead h s.ret.sweeps with
  | none => []
  | some 0 =>
    if s.ret.suspended then be 1 3
    else be 1 2 ++ be 2 ((s.ret.sweeps.head?.map Sweep.position).getD 0)
  | some n => be 1 1 ++ count4 n

/-- A hold in a reply: EMPTY by its state alone; any other by its state, which R137 does not list there, and then the fields
R137 lists (R123, log 22). -/
def holdBody (s : State) (h : Nat) : List Byte :=
  let v := s.hold h
  match v.state with
  | .empty => be 1 1
  | st =>
    be 1 (holdStateCode st) ++ be 1 (portCode v.owner) ++ scopeBody v.scope ++ be 4 v.note ++ be 3 v.marked ++
      be 3 v.reclaimed ++ be 3 v.lost ++
      opt (fun (f : LostEntry) => be 2 f.entry ++ keyBody f.source f.day) v.firstLost ++
      (if st = .applying ∨ st = .releasing then holdSweepBody s h else [])

/-- READ_HOLD (R137). -/
def execReadHold (p : Port) (tag h : Nat) (s : State) : Result State :=
  request p tag 61 .both (fun r s =>
    checked r [(s.serviceOrHalted, .wrongState), (decide (h < Config.holds), .badField)] (fun s =>
      answer r .ok (holdBody s h) s) s) s

end Sys2Proof.Machine
end

