-- ==== Sys2Proof/Machine/Links.lean ====
section
/-!
DEFINITION. Machine/Links.lean: the events of the links and the transmitters, STATUS and SET-NOTICE-MASK
(R192 to R199).
-/

namespace Sys2Proof.Machine
open Sys2Proof

/-! ### Links (R192, R196) -/

/-- The Link Interface after a Link Reset: requests discarded, Notice Set cleared (R196, log 14). -/
def LinkIf.reset (l : LinkIf) : LinkIf :=
  { up := l.up, epoch := l.epoch + 1, frames := l.frames }

/-- Close every cursor a port owns (R164, R196). -/
def freeCursorsOf (p : Port) (s : State) : State :=
  (List.range Config.cursors).foldl (fun t c =>
    if (t.cursor c).isOpen && decide ((t.cursor c).owner = p) then freeCursor c t else t) s

/-- Abort every RECEIVING or CLOSING slot (R51). -/
def abortAllSlots (s : State) : State :=
  (List.range Config.intakeSlots).foldl (fun t k =>
    if (t.intakeSlot k).phase = .idle then t else abortSlot k t) s

/-- The consent of a Format that is clearing is withdrawn: the archive state becomes LOADING, with the values log 3 gives
while it is, and a load searches as at power-up (R182). -/
def withdrawConsent (s : State) : State :=
  match s.cat.format with
  | none => s
  | some f =>
    if f.phase = .clearing ∧ f.consent then
      searchLoad (blankArchive .loading s)
    else s

/-- What a Link Reset does on the port's side of the part (R196). -/
def linkResetActs (p : Port) (s : State) : State :=
  match p with
  | .a =>
    let t := abortAllSlots s
    { t with cat := { t.cat with pendingFormat := none } }
  | .b => withdrawConsent s

/-- A Link Reset of a port (R196). -/
def linkReset (p : Port) (s : State) : State :=
  linkResetActs p (freeCursorsOf p (s.setLink p (s.link p).reset))

/-- Send LINK-READY (R192). It stands before every other frame of its port and has no sending state of its own: the next reply or
notice may begin in the same command (log 15). -/
def sendReady (p : Port) (s : State) : State :=
  s.setLink p { s.link p with frames := (s.link p).frames ++ [linkReadyFrame] }

/-- LINK_UP (R192): the lane of a DOWN link has been up for 10 ms. -/
def execLinkUp (p : Port) (s : State) : Result State :=
  turn (fun s =>
    if s.powered && !(s.link p).up then sendReady p (s.setLink p { s.link p with up := true }) else s) s

/-- LANE_LOSS (R192): the lane of an UP link has been lost for more than 10 ms. -/
def execLaneLoss (p : Port) (s : State) : Result State :=
  turn (fun s =>
    if (s.link p).up then linkReset p (s.setLink p { s.link p with up := false }) else s) s

/-- LINK_RESET_FRAME (R192): a LINK-RESET taken on an UP link. -/
def execLinkResetFrame (p : Port) (s : State) : Result State :=
  turn (fun s => if (s.link p).up then sendReady p (linkReset p s) else s) s

/-- BAD_FRAME (R193): discarded whole; LINK-ERROR is raised on the port with the reason as subject. -/
def execBadFrame (p : Port) (f : FrameFault) (s : State) : Result State :=
  turn (fun s => if (s.link p).up then raiseOn p noticeLinkError (frameFaultCode f) s else s) s

/-! ### The transmitter (R194, R195, R197) -/

/-- REPLY_SENT (R194): a reply has been sent in full; its request is no longer outstanding. -/
def execReplySent (p : Port) (s : State) : Result State :=
  turn (fun s =>
    let l := s.link p
    match l.sending with
    | some (.reply r) =>
      s.setLink p { l with
        sending := none
        outstanding := if r.entered then l.outstanding.filter (fun o => o.tag != r.tag) else l.outstanding }
    | _ => s) s

/-- NOTICE_SENT (R197): a notice has been sent; its line's count is reduced by the count sent. A line raised at 65,535 while
its notice is sent has saturated, and ends at 0 (log 38). -/
def execNoticeSent (p : Port) (s : State) : Result State :=
  turn (fun s =>
    let l := s.link p
    match l.sending with
    | some (.notice code count _) =>
      s.setLink p { l.setLine code ((l.line code).sent count) with sending := none }
    | _ => s) s

/-! ### Requests -/

/-- REQUEST_UNKNOWN_KIND (R194): a request whose kind, or whose length for its kind, fails check 3. -/
def execRequestUnknownKind (p : Port) (tag kind : Nat) (s : State) : Result State :=
  turn (fun s =>
    if !(s.link p).up then s
    else if (s.link p).holdsTag tag then bounce p tag kind .tagInUse s
    else if Config.outstanding ≤ (s.link p).outstanding.length then bounce p tag kind .windowFull s
    else bounce p tag kind .badField s) s

/-- The body of a STATUS reply (R199, R203): short in LOADING and FORMATTING. -/
def statusBody (p : Port) (s : State) : List Byte :=
  let faults := be 1 (contextCode s.fault.general) ++ be 1 (contextCode s.fault.media) ++ be 1 (haltCode s.fault.halt)
  let count := be 1 (s.link p).outstanding.length
  if s.cat.archive = .loading ∨ s.cat.archive = .formatting then be 1 (archiveCode s.cat.archive) ++ faults ++ count
  else
    be 1 (archiveCode s.cat.archive) ++ be 2 s.ret.today ++ be 2 s.ret.lastSwept ++ be 1 (profileCode s.cat.profile) ++
      be 4 s.cat.last ++ be 1 (catalogCode s.cat.state) ++ be 1 s.compactionCode ++ be 1 s.retentionCode ++
      be 1 s.eraserCode ++ be 1 s.auditCode ++
      be 4 (s.totalSlots .clean) ++ be 4 (s.totalSlots .dirty) ++ be 4 (s.totalSlots .used) ++
      be 4 (s.totalSlots .defective) ++ be 4 (s.totalSlots .catalog) ++
      be 2 s.intake.freePages ++ be 2 (Config.tallyPlaces - s.intake.tally.length) ++ be 2 s.freePlaces ++
      faults ++ count

/-- STATUS (R199). -/
def execStatus (p : Port) (tag : Nat) (s : State) : Result State :=
  request p tag 1 .both (fun r s => answer r .ok (statusBody p s) s) s

/-- The masks are nine values of the list, and HALTED and FAULT stay enabled (R197, R198). -/
def masksAllowed (masks : List Nat) : Bool :=
  decide (masks.length = 9) && masks.all (fun m => (maskOf m).isSome) &&
    decide (masks[0]? = some 1) && decide (masks[1]? = some 1)

/-- Give each line its mask, the first to line `code` (R198). -/
def setMasks (l : LinkIf) : Nat → List Nat → LinkIf
  | _, [] => l
  | code, m :: rest =>
    setMasks (l.setLine code { l.line code with masked := decide (m = 2) }) (code + 1) rest

/-- The nine pending counts (R198). -/
def pendingCounts (l : LinkIf) : List Byte :=
  [1, 2, 3, 4, 5, 6, 7, 8, 9].flatMap (fun c => be 2 (l.line c).count)

/-- SET_NOTICE_MASK (R198). -/
def execSetNoticeMask (p : Port) (tag : Nat) (masks : List Nat) (s : State) : Result State :=
  request p tag 2 .both (fun r s =>
    checked r (s.serviceChecks ++ [(masksAllowed masks, .badField)]) (fun s =>
      let t := s.setLink p (setMasks (s.link p) 1 masks)
      answer r .ok (pendingCounts (t.link p)) t) s) s

end Sys2Proof.Machine
end

