-- ==== Sys2Proof/Machine/Sources.lean ====
section
/-!
DEFINITION. Machine/Sources.lean: SET-PROFILE and the requests on the Source Table (R10, R11, R27 to R33).
-/

namespace Sys2Proof.Machine
open Sys2Proof

/-- The profile lock is clear (R11). -/
def State.profileLockClear (s : State) : Bool :=
  s.media.dir.isEmpty && s.intake.slots.isEmpty && s.comp.queue.isEmpty

/-- SET_PROFILE (R10). -/
def execSetProfile (p : Port) (tag profile : Nat) (s : State) : Result State :=
  request p tag 8 .aOnly (fun r s =>
    checked r (s.catalogChecks ++
        [((profileOf profile).isSome, .badField), (s.profileLockClear, .locked), s.limitCheck]) (fun s =>
      triggerFor r [] [] { s with cat := { s.cat with profile := (profileOf profile).getD .none } }) s) s

/-- The checks of R27 after the port. -/
def State.sourceChecks (s : State) (source : Nat) : List (Bool × Status) :=
  s.catalogChecks ++ [(decide (source < Config.sources), .badField)]

/-- ENROL_SOURCE (R28). -/
def execEnrolSource (p : Port) (tag source cls base : Nat) (s : State) : Result State :=
  request p tag 16 .aOnly (fun r s =>
    checked r (s.sourceChecks source ++
        [(decide (cls < 8), .badField), (decide ((s.source source).state ≠ .retired), .wrongState),
         (decide ((s.source source).state = .empty), .inUse), s.limitCheck]) (fun s =>
      triggerFor r [] [] (s.setSource source { state := .active, cls := cls, base := base })) s) s

/-- A file of the source stands in an Intake Slot or in the Compaction Queue (R29). -/
def State.hasFileOf (s : State) (source : Nat) : Bool :=
  s.intake.slots.any (fun e => decide (e.2.phase ≠ .idle) && decide (e.2.source = source)) ||
    s.comp.queue.any (fun f => decide (f.source = source))

/-- RETIRED: every gap record is exported, the list becomes empty and the flag is cleared (R29). -/
def retire (source : Nat) (s : State) : State :=
  let e := s.source source
  releaseTest source ((exportGaps source .retired e.gaps s).setSource source
    { e with state := .retired, gaps := [], overflow := false })

/-- RETIRE_SOURCE (R29). -/
def execRetireSource (p : Port) (tag source : Nat) (s : State) : Result State :=
  request p tag 17 .aOnly (fun r s =>
    checked r (s.sourceChecks source ++
        [(decide ((s.source source).state ≠ .empty), .unknownSource),
         (decide ((s.source source).state ≠ .retired), .wrongState), (!s.hasFileOf source, .busy),
         (decide ((s.source source).gaps.length ≤ s.freePlaces), .noSpace), s.limitCheck]) (fun s =>
      triggerFor r [] [] (retire source s)) s) s

/-- SET_SOURCE_CLASS (R31). -/
def execSetSourceClass (p : Port) (tag source cls : Nat) (s : State) : Result State :=
  request p tag 18 .aOnly (fun r s =>
    checked r (s.sourceChecks source ++
        [(decide (cls < 8), .badField), (decide ((s.source source).state ≠ .empty), .unknownSource),
         (decide ((s.source source).state ≠ .retired), .wrongState), s.limitCheck]) (fun s =>
      triggerFor r [] [] (s.setSource source { s.source source with cls := cls })) s) s

/-- How the records of a resequencing fit its new base (R32 step 2). -/
def resequenceFit (e : SourceEntry) (base today : Nat) : List GapRecord × List GapRecord :=
  fitGaps base e.gaps (resequenceRuns e today)

/-- Check 7 of R32: 17 free places, and one more than trimming will export. -/
def State.roomToResequence (s : State) (source base : Nat) : Bool :=
  decide (17 ≤ s.freePlaces) &&
    decide ((resequenceFit (s.source source) base s.today).2.length + 1 ≤ s.freePlaces)

/-- The RESEQUENCED finding (R32 step 3). -/
def resequenced (source old new formed exported : Nat) : FindingBody :=
  { kind := .resequenced, source := some source, range := some (old, new), pair := some (formed, exported) }

/-- Resequence a source, in the order of R32. -/
def resequence (source base : Nat) (s : State) : State :=
  let e := s.source source
  let fit := resequenceFit e base s.today
  let t := exportGaps source .overflow fit.2 s
  let t := writeFinding (resequenced source e.base base (resequenceRuns e s.today).length fit.2.length) t
  t.setSource source { e with base := base, marks := 0, gaps := fit.1, overflow := false }

/-- RESEQUENCE_SOURCE (R32). -/
def execResequenceSource (p : Port) (tag source base : Nat) (s : State) : Result State :=
  request p tag 19 .aOnly (fun r s =>
    checked r (s.sourceChecks source ++
        [(decide ((s.source source).state ≠ .empty), .unknownSource),
         (decide ((s.source source).state ≠ .retired), .wrongState),
         (s.roomToResequence source base, .noSpace), s.limitCheck]) (fun s =>
      triggerFor r [] [] (resequence source base s)) s) s

/-- A gap record in a reply (R15, R33). -/
def gapBody (g : GapRecord) : List Byte := be 2 g.first ++ be 2 g.last ++ be 2 g.day

/-- The READ-SOURCE reply body (R33). -/
def sourceBody (e : SourceEntry) : List Byte :=
  be 1 (sourceStateCode e.state) ++ be 1 e.cls ++ be 2 e.base ++
    (List.range 64).flatMap (fun i => flag (e.marks.getLsbD i)) ++
    listBody gapBody e.gaps ++ flag e.overflow ++ be 4 e.accepted ++ opt (be 2) e.lastDay

/-- READ_SOURCE (R33). -/
def execReadSource (p : Port) (tag source : Nat) (s : State) : Result State :=
  request p tag 20 .both (fun r s =>
    checked r (s.serviceChecks ++ [(decide (source < Config.sources), .badField)]) (fun s =>
      answer r .ok (sourceBody (s.source source)) s) s) s

end Sys2Proof.Machine
end

