-- ==== Sys2Proof/Machine/Dispatch.lean ====
section
/-!
DEFINITION. Machine/Dispatch.lean: the effect of each command on everything but the queue, one arm per row of the table.
-/

namespace Sys2Proof.Machine
open Sys2Proof

def exec (i : Instr) (s : State) : Host.Outcome State Fault Refusal :=
  match i with
  | .powerUp present => Sys2Proof.Machine.execPowerUp present s
  | .powerLoss => Sys2Proof.Machine.execPowerLoss s
  | .catalogReadComplete channel result => Sys2Proof.Machine.execCatalogReadComplete channel result s
  | .linkUp port => Sys2Proof.Machine.execLinkUp port s
  | .laneLoss port => Sys2Proof.Machine.execLaneLoss port s
  | .linkResetFrame port => Sys2Proof.Machine.execLinkResetFrame port s
  | .badFrame port reason => Sys2Proof.Machine.execBadFrame port reason s
  | .requestUnknownKind port tag kind => Sys2Proof.Machine.execRequestUnknownKind port tag kind s
  | .replySent port => Sys2Proof.Machine.execReplySent port s
  | .noticeSent port => Sys2Proof.Machine.execNoticeSent port s
  | .status port tag => Sys2Proof.Machine.execStatus port tag s
  | .setNoticeMask port tag masks => Sys2Proof.Machine.execSetNoticeMask port tag masks s
  | .setProfile port tag profile => Sys2Proof.Machine.execSetProfile port tag profile s
  | .enrolSource port tag source cls base => Sys2Proof.Machine.execEnrolSource port tag source cls base s
  | .retireSource port tag source => Sys2Proof.Machine.execRetireSource port tag source s
  | .setSourceClass port tag source cls => Sys2Proof.Machine.execSetSourceClass port tag source cls s
  | .resequenceSource port tag source base => Sys2Proof.Machine.execResequenceSource port tag source base s
  | .readSource port tag source => Sys2Proof.Machine.execReadSource port tag source s
  | .openFile port tag source sequence day records length => Sys2Proof.Machine.execOpenFile port tag source sequence day records length s
  | .chunk port tag slot offset data => Sys2Proof.Machine.execChunk port tag slot offset data s
  | .closeFile port tag slot crc => Sys2Proof.Machine.execCloseFile port tag slot crc s
  | .fileAcceptance => Sys2Proof.Machine.execFileAcceptance s
  | .abortFile port tag slot => Sys2Proof.Machine.execAbortFile port tag slot s
  | .intakeIdleLimit slot => Sys2Proof.Machine.execIntakeIdleLimit slot s
  | .readSlots port tag => Sys2Proof.Machine.execReadSlots port tag s
  | .readTally port tag source day => Sys2Proof.Machine.execReadTally port tag source day s
  | .appendRecord pageOk => Sys2Proof.Machine.execAppendRecord pageOk s
  | .segmentWriteOk channel => Sys2Proof.Machine.execSegmentWriteOk channel s
  | .segmentWriteFail channel => Sys2Proof.Machine.execSegmentWriteFail channel s
  | .builderPageError channel => Sys2Proof.Machine.execBuilderPageError channel s
  | .channelTimeout channel => Sys2Proof.Machine.execChannelTimeout channel s
  | .operationEndDiscarded channel ok => Sys2Proof.Machine.execOperationEndDiscarded channel ok s
  | .readCompaction port tag => Sys2Proof.Machine.execReadCompaction port tag s
  | .defineCode port tag code value => Sys2Proof.Machine.execDefineCode port tag code value s
  | .retireCode port tag code => Sys2Proof.Machine.execRetireCode port tag code s
  | .readCodes port tag => Sys2Proof.Machine.execReadCodes port tag s
  | .readSegment port tag entry => Sys2Proof.Machine.execReadSegment port tag entry s
  | .listSegments port tag source firstDay lastDay start => Sys2Proof.Machine.execListSegments port tag source firstDay lastDay start s
  | .setChannel port tag channel mode => Sys2Proof.Machine.execSetChannel port tag channel mode s
  | .readChannel port tag channel => Sys2Proof.Machine.execReadChannel port tag channel s
  | .advanceDay port tag => Sys2Proof.Machine.execAdvanceDay port tag s
  | .setClass port tag cls days => Sys2Proof.Machine.execSetClass port tag cls days s
  | .readRetention port tag => Sys2Proof.Machine.execReadRetention port tag s
  | .daySweepEntry => Sys2Proof.Machine.execDaySweepEntry s
  | .extendSweepEntry => Sys2Proof.Machine.execExtendSweepEntry s
  | .entryEraseComplete channel ok => Sys2Proof.Machine.execEntryEraseComplete channel ok s
  | .dirtySlotEraseComplete channel ok => Sys2Proof.Machine.execDirtySlotEraseComplete channel ok s
  | .createHold port tag scope note => Sys2Proof.Machine.execCreateHold port tag scope note s
  | .editHold port tag hold scope note => Sys2Proof.Machine.execEditHold port tag hold scope note s
  | .discardHold port tag hold => Sys2Proof.Machine.execDiscardHold port tag hold s
  | .activateHold port tag hold => Sys2Proof.Machine.execActivateHold port tag hold s
  | .applySweepEntry => Sys2Proof.Machine.execApplySweepEntry s
  | .holdLoss => Sys2Proof.Machine.execHoldLoss s
  | .releaseHold port tag hold => Sys2Proof.Machine.execReleaseHold port tag hold s
  | .releaseSweepEntry => Sys2Proof.Machine.execReleaseSweepEntry s
  | .readHold port tag hold => Sys2Proof.Machine.execReadHold port tag hold s
  | .fetchFindings port tag start count => Sys2Proof.Machine.execFetchFindings port tag start count s
  | .ackFindings port tag through order => Sys2Proof.Machine.execAckFindings port tag through order s
  | .verify port tag first last => Sys2Proof.Machine.execVerify port tag first last s
  | .verifyReadComplete channel result => Sys2Proof.Machine.execVerifyReadComplete channel result s
  | .reconcile port tag => Sys2Proof.Machine.execReconcile port tag s
  | .reconcileReadComplete channel result => Sys2Proof.Machine.execReconcileReadComplete channel result s
  | .auditFindingResumed => Sys2Proof.Machine.execAuditFindingResumed s
  | .cancelAudit port tag => Sys2Proof.Machine.execCancelAudit port tag s
  | .readAudit port tag => Sys2Proof.Machine.execReadAudit port tag s
  | .openCursor port tag source firstDay lastDay filter direction => Sys2Proof.Machine.execOpenCursor port tag source firstDay lastDay filter direction s
  | .cursorReadComplete channel result badPages => Sys2Proof.Machine.execCursorReadComplete channel result badPages s
  | .readRecords port tag cursor count => Sys2Proof.Machine.execReadRecords port tag cursor count s
  | .seek port tag cursor target => Sys2Proof.Machine.execSeek port tag cursor target s
  | .setDirection port tag cursor direction => Sys2Proof.Machine.execSetDirection port tag cursor direction s
  | .closeCursor port tag cursor => Sys2Proof.Machine.execCloseCursor port tag cursor s
  | .cursorIdleClose cursor => Sys2Proof.Machine.execCursorIdleClose cursor s
  | .readCursor port tag cursor => Sys2Proof.Machine.execReadCursor port tag cursor s
  | .checkpoint port tag => Sys2Proof.Machine.execCheckpoint port tag s
  | .catalogWriteOk closesFirst => Sys2Proof.Machine.execCatalogWriteOk closesFirst s
  | .catalogWriteFail => Sys2Proof.Machine.execCatalogWriteFail s
  | .setParameter port tag parameter value => Sys2Proof.Machine.execSetParameter port tag parameter value s
  | .readCatalog port tag => Sys2Proof.Machine.execReadCatalog port tag s
  | .resetController port tag => Sys2Proof.Machine.execResetController port tag s
  | .format port tag channel => Sys2Proof.Machine.execFormat port tag channel s
  | .consentFormat port tag number => Sys2Proof.Machine.execConsentFormat port tag number s
  | .formatConsentExpiry => Sys2Proof.Machine.execFormatConsentExpiry s
  | .formatEraseComplete channel ok => Sys2Proof.Machine.execFormatEraseComplete channel ok s
  | .formatImageWriteComplete ok => Sys2Proof.Machine.execFormatImageWriteComplete ok s
  | .fetchFault port tag context => Sys2Proof.Machine.execFetchFault port tag context s
  | .resume port tag engine => Sys2Proof.Machine.execResume port tag engine s
  | .abandon port tag engine => Sys2Proof.Machine.execAbandon port tag engine s

end Sys2Proof.Machine
end

