-- ==== Sys2Proof/Machine/Step.lean ====
section
/-!
DEFINITION. Machine/Step.lean: one step of the part: the command at the front of the queue, or, with the queue empty,
one second of the reference clock (log 1).
-/

namespace Sys2Proof.Machine
open Sys2Proof

/-- One second passes: the second counter counts while the part has its supply (log 1, log 2). -/
def tick (s : State) : State := if s.powered then { s with second := s.second + 1 } else s

/-- One step: the front command's effect on the state with the queue's rest; on an empty queue a second passes. -/
def step (s : State) : Host.Outcome State Fault Refusal :=
  match s.pending with
  | [] => .next (tick s)
  | c :: rest => exec c { s with pending := rest }

/-- The command a word spells put at the front of the queue; no row of the table gives bits, so no word spells one. -/
def State.withFetchWord (s : State) (nbits w : Nat) : State :=
  match decodeTableWord nbits w with
  | none => s
  | some c => { s with pending := c :: s.pending }

end Sys2Proof.Machine
end

