-- ==== Sys2Proof/Machine/Frames.lean ====
section
/-!
DEFINITION. Machine/Frames.lean: what arrives on a lane: from the bytes of one frame to the command it gives (R193, R194,
R200, R204), how a lane's bytes are cut into frames (R193, log 31), and the frame that carries a request.
-/

namespace Sys2Proof.Machine
open Sys2Proof

/-! ### Fields of a request's body (R204) -/

/-- The numbers of a body of fields of the given widths. -/
def readNums : List Nat → List Byte → List Nat
  | [], _ => []
  | w :: ws, bs => numAt bs 0 w :: readNums ws (bs.drop w)

/-- A body of fixed fields: any other length fails check 3 of R194. -/
def fixedBody (ws : List Nat) (body : List Byte) (f : (Nat → Nat) → Instr) : Option Instr :=
  if body.length = ws.sum then some (f (fun i => (readNums ws body).getD i 0)) else none

/-- A value of a field, by the field's code. An unlisted code passes with as many bytes behind it as some field's value has;
check 5 of R75 then refuses it (R73, R75, R194 check 3, R204, log 27). -/
def readCodeValue (code : Nat) (raw : List Byte) : Option CodeOperand :=
  match code with
  | 1 => if raw.length = 4 then some (.known (.cell (numAt raw 0 4))) else none
  | 2 => if raw.length = 2 then some (.known (.trunk (numAt raw 0 2))) else none
  | 3 => (wholeDigits raw).map (fun ds => .known (.pfx ds))
  | n => if codeLengthOk raw then some (.unknown n raw) else none

/-- A target by its code. An unlisted code passes with as many bytes behind it as some target has; the request's own checks then
refuse it (R162, R194 check 3, R204, log 27, log 44). -/
def readTarget (code : Nat) (raw : List Byte) : Option SeekOperand :=
  match code with
  | 1 => if raw = [] then some .start else none
  | 2 => if raw = [] then some .stop else none
  | 3 => if raw.length = 4 then some (.place (numAt raw 0 2) (numAt raw 2 2)) else none
  | n => if targetLengthOk raw then some (.unknown n raw) else none

/-- The optional filter and the direction that end an OPEN-CURSOR (R158, R204). -/
def readFilter : List Byte → Option (Option FilterOperand × Nat)
  | [0#8, d] => some (none, d.toNat)
  | 1#8 :: n :: rest =>
    match rest.drop n.toNat with
    | [ks, d] => some (some { digits := (rest.take n.toNat).map BitVec.toNat, kinds := ks }, d.toNat)
    | _ => none
  | _ => none

/-- The scope in the fields from `i` on (R127). -/
def scopeAt (v : Nat → Nat) (i : Nat) : HoldScope :=
  { firstSource := v i, lastSource := v (i + 1), firstDay := v (i + 2), lastDay := v (i + 3) }

/-! ### Requests (R199's table) -/

/-- The requests of the Intake Unit and the Compaction Unit (kinds 8 to 35). -/
def readIntakeRequest (p : Port) (tag kind : Nat) (body : List Byte) : Option Instr :=
  match kind with
  | 8 => fixedBody [1] body (fun v => .setProfile p tag (v 0))
  | 16 => fixedBody [2, 1, 2] body (fun v => .enrolSource p tag (v 0) (v 1) (v 2))
  | 17 => fixedBody [2] body (fun v => .retireSource p tag (v 0))
  | 18 => fixedBody [2, 1] body (fun v => .setSourceClass p tag (v 0) (v 1))
  | 19 => fixedBody [2, 2] body (fun v => .resequenceSource p tag (v 0) (v 1))
  | 20 => fixedBody [2] body (fun v => .readSource p tag (v 0))
  | 24 => fixedBody [2, 2, 2, 3, 4] body (fun v => .openFile p tag (v 0) (v 1) (v 2) (v 3) (v 4))
  | 25 =>
    if 5 ≤ body.length then some (.chunk p tag (numAt body 0 1) (numAt body 1 4) (body.drop 5)) else none
  | 26 => fixedBody [1, 4] body (fun v => .closeFile p tag (v 0) (BitVec.ofNat 32 (v 1)))
  | 27 => fixedBody [1] body (fun v => .abortFile p tag (v 0))
  | 28 => fixedBody [] body (fun _ => .readSlots p tag)
  | 29 => fixedBody [2, 2] body (fun v => .readTally p tag (v 0) (v 1))
  | 32 =>
    match body with
    | c :: field :: raw => (readCodeValue field.toNat raw).map (.defineCode p tag c.toNat)
    | _ => none
  | 33 => fixedBody [1] body (fun v => .retireCode p tag (v 0))
  | 34 => fixedBody [] body (fun _ => .readCodes p tag)
  | 35 => fixedBody [] body (fun _ => .readCompaction p tag)
  | _ => none

/-- The requests of the directory, the Retention Unit and the holds (kinds 40 to 61). -/
def readRetentionRequest (p : Port) (tag kind : Nat) (body : List Byte) : Option Instr :=
  match kind with
  | 40 => fixedBody [2] body (fun v => .readSegment p tag (v 0))
  | 41 => fixedBody [2, 2, 2, 2] body (fun v => .listSegments p tag (v 0) (v 1) (v 2) (v 3))
  | 42 => fixedBody [1, 1] body (fun v => .setChannel p tag (v 0) (v 1))
  | 43 => fixedBody [1] body (fun v => .readChannel p tag (v 0))
  | 48 => fixedBody [] body (fun _ => .advanceDay p tag)
  | 49 => fixedBody [1, 2] body (fun v => .setClass p tag (v 0) (v 1))
  | 50 => fixedBody [] body (fun _ => .readRetention p tag)
  | 56 => fixedBody [2, 2, 2, 2, 4] body (fun v => .createHold p tag (scopeAt v 0) (v 4))
  | 57 => fixedBody [1, 2, 2, 2, 2, 4] body (fun v => .editHold p tag (v 0) (scopeAt v 1) (v 5))
  | 58 => fixedBody [1] body (fun v => .discardHold p tag (v 0))
  | 59 => fixedBody [1] body (fun v => .activateHold p tag (v 0))
  | 60 => fixedBody [1] body (fun v => .releaseHold p tag (v 0))
  | 61 => fixedBody [1] body (fun v => .readHold p tag (v 0))
  | _ => none

/-- The requests of the Audit Unit and the Cursor Unit (kinds 64 to 77). `o` is the order that an ACK-FINDINGS's
producers will take (log 9), which no frame carries. -/
def readAuditRequest (o : AckOrder) (p : Port) (tag kind : Nat) (body : List Byte) : Option Instr :=
  match kind with
  | 64 => fixedBody [4, 1] body (fun v => .fetchFindings p tag (v 0) (v 1))
  | 65 => fixedBody [4] body (fun v => .ackFindings p tag (v 0) o)
  | 66 => fixedBody [2, 2] body (fun v => .verify p tag (v 0) (v 1))
  | 67 => fixedBody [] body (fun _ => .reconcile p tag)
  | 68 => fixedBody [] body (fun _ => .cancelAudit p tag)
  | 69 => fixedBody [] body (fun _ => .readAudit p tag)
  | 72 =>
    (readFilter (body.drop 6)).map (fun f =>
      .openCursor p tag (numAt body 0 2) (numAt body 2 2) (numAt body 4 2) f.1 f.2)
  | 73 =>
    match body with
    | c :: target :: raw => (readTarget target.toNat raw).map (.seek p tag c.toNat)
    | _ => none
  | 74 => fixedBody [1, 1] body (fun v => .setDirection p tag (v 0) (v 1))
  | 75 => fixedBody [1, 1] body (fun v => .readRecords p tag (v 0) (v 1))
  | 76 => fixedBody [1] body (fun v => .closeCursor p tag (v 0))
  | 77 => fixedBody [1] body (fun v => .readCursor p tag (v 0))
  | _ => none

/-- The requests of the links, the Catalog Unit and the Fault Unit (kinds 1, 2 and 80 to 90). -/
def readCatalogRequest (p : Port) (tag kind : Nat) (body : List Byte) : Option Instr :=
  match kind with
  | 1 => fixedBody [] body (fun _ => .status p tag)
  | 2 => if body.length = 9 then some (.setNoticeMask p tag (body.map BitVec.toNat)) else none
  | 80 => fixedBody [] body (fun _ => .checkpoint p tag)
  | 81 => fixedBody [1, 1] body (fun v => .setParameter p tag (v 0) (v 1))
  | 82 => fixedBody [] body (fun _ => .resetController p tag)
  | 83 => fixedBody [1] body (fun v => .format p tag (v 0))
  | 84 => fixedBody [2] body (fun v => .consentFormat p tag (v 0))
  | 85 => fixedBody [] body (fun _ => .readCatalog p tag)
  | 88 => fixedBody [1] body (fun v => .fetchFault p tag (v 0))
  | 89 => fixedBody [1] body (fun v => .resume p tag (v 0))
  | 90 => fixedBody [1] body (fun v => .abandon p tag (v 0))
  | _ => none

/-- A request of the table by its kind, when its body's length is one the kind allows (R194 check 3). -/
def readRequest (o : AckOrder) (p : Port) (tag kind : Nat) (body : List Byte) : Option Instr :=
  if kind < 8 ∨ 80 ≤ kind then readCatalogRequest p tag kind body
  else if kind < 40 then readIntakeRequest p tag kind body
  else if kind < 64 then readRetentionRequest p tag kind body
  else readAuditRequest o p tag kind body

/-! ### Frames (R193, R200) -/

/-- The part of a frame its check covers. -/
def checkedBytes (bs : List Byte) : List Byte := bs.take (bs.length - 4)

/-- The frame's check agrees with its contents (R193, R200). -/
def checkAgrees (bs : List Byte) : Bool :=
  decide (numAt bs (bs.length - 4) 4 = (crc32 (checkedBytes bs)).toNat)

/-- The body of a frame (R200). -/
def bodyOf (bs : List Byte) : List Byte := (checkedBytes bs).drop 8

/-- A frame whose check agrees, by its class: 1 REQUEST, 4 LINK (R193, R194). A LINK-RESET is taken whatever its body holds
(log 55). -/
def readClass (o : AckOrder) (p : Port) (bs : List Byte) : Instr :=
  let kind := byteAt bs 4
  let tag := numAt bs 5 2
  match byteAt bs 3 with
  | 1 => (readRequest o p tag kind (bodyOf bs)).getD (.requestUnknownKind p tag kind)
  | 4 => if kind = 2 then .linkResetFrame p else .badFrame p .frameKind
  | _ => .badFrame p .frameClass

/-- The command that one piece of what arrives on a port gives: a run of bytes without the sync pattern, or bytes that
begin with it and run to the end of their frame. The reasons of R193 are tried in the order its table lists them. A
piece cut off before its frame's end gives none. -/
def readFrame (o : AckOrder) (p : Port) (bs : List Byte) : Option Instr :=
  if bs = [] then none
  else if byteAt bs 0 ≠ 0xA5 then some (.badFrame p .sync)
  else if bs.length < 3 then none
  else if numAt bs 1 2 < 12 ∨ 4200 < numAt bs 1 2 then some (.badFrame p .length)
  else if bs.length ≠ numAt bs 1 2 then none
  else if !checkAgrees bs then some (.badFrame p .check)
  else some (readClass o p bs)

/-! ### What arrives on a lane (R193) -/

/-- The sync byte of a frame (R200). -/
def syncByte : Byte := 0xA5#8

/-- The bytes before the next sync pattern (R193). -/
def straySpan (bs : List Byte) : Nat := (bs.takeWhile (fun b => b != syncByte)).length

/-- The number of bytes of the first piece of what has arrived: a run of bytes without the sync pattern; a frame whose length
field is out of range, which is taken to end before the next sync pattern (log 31); or a frame. None while the piece may still
go on. -/
def pieceLength (bs : List Byte) : Option Nat :=
  if bs = [] then none
  else if byteAt bs 0 ≠ 0xA5 then some (straySpan bs)
  else if bs.length < 3 then none
  else if numAt bs 1 2 < 12 ∨ 4200 < numAt bs 1 2 then some (3 + straySpan (bs.drop 3))
  else if bs.length < numAt bs 1 2 then none
  else some (numAt bs 1 2)

/-- The commands of the pieces of what has arrived, in order; `fuel` bounds the pieces. -/
def readPieces (o : AckOrder) (p : Port) : Nat → List Byte → List Instr
  | 0, _ => []
  | fuel + 1, bs =>
    match pieceLength bs with
    | none => []
    | some n => (readFrame o p (bs.take n)).toList ++ readPieces o p fuel (bs.drop n)

/-- The commands that everything a lane has brought since its link came UP gives: each frame its own, each run of bytes that do
not begin with the sync pattern one bad frame, and a frame not yet whole none (R193). -/
def readLane (o : AckOrder) (p : Port) (bs : List Byte) : List Instr := readPieces o p bs.length bs

/-- What a lane has brought joins the commands that wait. -/
def arrive (o : AckOrder) (p : Port) (bs : List Byte) (s : State) : State :=
  { s with pending := s.pending ++ readLane o p bs }

/-! ### The frame of a request -/

/-- A request as a frame carries it. -/
structure RequestFrame where
  port : Port
  tag  : Nat
  kind : Nat
  body : List Byte
  deriving DecidableEq, Repr

/-- The bytes after the field code of a DEFINE-CODE, with the code. -/
def codeOperandBody : CodeOperand → List Byte
  | .known (.cell n) => be 1 1 ++ be 4 n
  | .known (.trunk n) => be 1 2 ++ be 2 n
  | .known (.pfx ds) => be 1 3 ++ digitsBody ds
  | .unknown code raw => be 1 code ++ raw

/-- The target of a SEEK. -/
def targetBody : SeekOperand → List Byte
  | .start => be 1 1
  | .stop => be 1 2
  | .place e i => be 1 3 ++ be 2 e ++ be 2 i
  | .unknown code raw => be 1 code ++ raw

/-- The scope of a hold as a request carries it. -/
def scopeFields (c : HoldScope) : List Byte := be 2 c.firstSource ++ be 2 c.lastSource ++ be 2 c.firstDay ++ be 2 c.lastDay

/-- The request a command is, as its frame carries it; none for an event. -/
def requestOf : Instr → Option RequestFrame
  | .status p t => some ⟨p, t, 1, []⟩
  | .setNoticeMask p t ms => some ⟨p, t, 2, ms.flatMap (be 1)⟩
  | .setProfile p t v => some ⟨p, t, 8, be 1 v⟩
  | .enrolSource p t n c b => some ⟨p, t, 16, be 2 n ++ be 1 c ++ be 2 b⟩
  | .retireSource p t n => some ⟨p, t, 17, be 2 n⟩
  | .setSourceClass p t n c => some ⟨p, t, 18, be 2 n ++ be 1 c⟩
  | .resequenceSource p t n b => some ⟨p, t, 19, be 2 n ++ be 2 b⟩
  | .readSource p t n => some ⟨p, t, 20, be 2 n⟩
  | .openFile p t n q d r l => some ⟨p, t, 24, be 2 n ++ be 2 q ++ be 2 d ++ be 3 r ++ be 4 l⟩
  | .chunk p t k o bs => some ⟨p, t, 25, be 1 k ++ be 4 o ++ bs⟩
  | .closeFile p t k c => some ⟨p, t, 26, be 1 k ++ crcBody c⟩
  | .abortFile p t k => some ⟨p, t, 27, be 1 k⟩
  | .readSlots p t => some ⟨p, t, 28, []⟩
  | .readTally p t n d => some ⟨p, t, 29, be 2 n ++ be 2 d⟩
  | .defineCode p t c v => some ⟨p, t, 32, be 1 c ++ codeOperandBody v⟩
  | .retireCode p t c => some ⟨p, t, 33, be 1 c⟩
  | .readCodes p t => some ⟨p, t, 34, []⟩
  | .readCompaction p t => some ⟨p, t, 35, []⟩
  | .readSegment p t e => some ⟨p, t, 40, be 2 e⟩
  | .listSegments p t n a b k => some ⟨p, t, 41, be 2 n ++ be 2 a ++ be 2 b ++ be 2 k⟩
  | .setChannel p t c m => some ⟨p, t, 42, be 1 c ++ be 1 m⟩
  | .readChannel p t c => some ⟨p, t, 43, be 1 c⟩
  | .advanceDay p t => some ⟨p, t, 48, []⟩
  | .setClass p t c d => some ⟨p, t, 49, be 1 c ++ be 2 d⟩
  | .readRetention p t => some ⟨p, t, 50, []⟩
  | .createHold p t c n => some ⟨p, t, 56, scopeFields c ++ be 4 n⟩
  | .editHold p t h c n => some ⟨p, t, 57, be 1 h ++ scopeFields c ++ be 4 n⟩
  | .discardHold p t h => some ⟨p, t, 58, be 1 h⟩
  | .activateHold p t h => some ⟨p, t, 59, be 1 h⟩
  | .releaseHold p t h => some ⟨p, t, 60, be 1 h⟩
  | .readHold p t h => some ⟨p, t, 61, be 1 h⟩
  | .fetchFindings p t a n => some ⟨p, t, 64, be 4 a ++ be 1 n⟩
  | .ackFindings p t n _ => some ⟨p, t, 65, be 4 n⟩
  | .verify p t a b => some ⟨p, t, 66, be 2 a ++ be 2 b⟩
  | .reconcile p t => some ⟨p, t, 67, []⟩
  | .cancelAudit p t => some ⟨p, t, 68, []⟩
  | .readAudit p t => some ⟨p, t, 69, []⟩
  | .openCursor p t n a b f d =>
    some ⟨p, t, 72, be 2 n ++ be 2 a ++ be 2 b ++ opt (fun f => digitsBody f.digits ++ [f.kinds]) f ++ be 1 d⟩
  | .readRecords p t c n => some ⟨p, t, 75, be 1 c ++ be 1 n⟩
  | .seek p t c v => some ⟨p, t, 73, be 1 c ++ targetBody v⟩
  | .setDirection p t c d => some ⟨p, t, 74, be 1 c ++ be 1 d⟩
  | .closeCursor p t c => some ⟨p, t, 76, be 1 c⟩
  | .readCursor p t c => some ⟨p, t, 77, be 1 c⟩
  | .checkpoint p t => some ⟨p, t, 80, []⟩
  | .setParameter p t k v => some ⟨p, t, 81, be 1 k ++ be 1 v⟩
  | .resetController p t => some ⟨p, t, 82, []⟩
  | .format p t c => some ⟨p, t, 83, be 1 c⟩
  | .consentFormat p t n => some ⟨p, t, 84, be 2 n⟩
  | .readCatalog p t => some ⟨p, t, 85, []⟩
  | .fetchFault p t c => some ⟨p, t, 88, be 1 c⟩
  | .resume p t e => some ⟨p, t, 89, be 1 e⟩
  | .abandon p t e => some ⟨p, t, 90, be 1 e⟩
  | _ => none

/-- The bytes of a request's frame; its status byte is 0 (R200). -/
def RequestFrame.bytes (r : RequestFrame) : List Byte := frame 1 r.kind r.tag 0 r.body

/-- The order an ACK-FINDINGS is given with; any for another command (log 9). -/
def ackOrderOf : Instr → AckOrder
  | .ackFindings _ _ _ o => o
  | _ => .intakeFirst

end Sys2Proof.Machine
end

