-- ==== Sys2Proof/Safety.lean ====
section
/-!
DEFINITION. Safety.lean: the words the statements are made of: when a request is admitted and served, what an answer is,
what stands beside the links, and the laws every reachable state keeps.
-/

namespace Sys2Proof

/-- A digit 0 to 9. -/
def isDigit (d : Nat) : Bool := decide (d ≤ 9)

/-- A record that a profile's file can carry: its optional fields are those the profile names, and every field lies in its
range (R1 to R4, R6). -/
def Record.fitsProfile (r : Record) (p : Profile) : Bool :=
  decide (5 ≤ r.subscriber.length) && decide (r.subscriber.length ≤ 15) && r.subscriber.all isDigit &&
    decide (r.start ≤ 86399) && decide (r.duration ≤ 86400) && fits 4 r.charge &&
    (if Machine.hasParty p then
      (match r.other with | none => false | some ds => decide (ds.length ≤ 20) && ds.all isDigit) &&
        (match r.trunk with | none => false | some n => fits 2 n)
     else r.other.isNone && r.trunk.isNone) &&
    (if Machine.hasCell p then
      (match r.cell with | none => false | some n => fits 4 n) &&
        (match r.volume with | none => decide (r.kind ≠ .data) | some v => decide (r.kind = .data) && fits 4 v)
     else r.cell.isNone && r.volume.isNone)

/-! ### Taking an image (R90, R178) -/

/-- Nothing of an image keeps a RETIRED source: no entry but FREE ones is keyed to it, and no tally entry names it (R30). -/
def Image.released (i : Image) (source : Nat) : Bool :=
  i.dir.all (fun e => decide (e.2.source ≠ source) || decide (e.2.state = .free)) &&
    i.tally.all (fun e => decide (e.1 % 1024 ≠ source))

/-- The Slot Map that an image gives: the catalog slots CATALOG, the slots its entries name USED, the slots it lists DEFECTIVE,
and every other slot DIRTY (R90). -/
def Image.slotGiven (i : Image) (r : SlotRef) : Machine.SlotState :=
  if r.channel = i.channel ∧ r.slot < 16 then .catalog
  else if r ∈ namedSlots i.dir then .used
  else if r ∈ i.defective then .defective
  else .dirty

/-- The sweeps that an image leaves owed, in order: EXTEND of each class with an extension pending, APPLY or RELEASE of each
hold in motion, and DAY where the last day swept lies before today (R121). -/
def Image.sweepsGiven (i : Image) : List Machine.SweepKind :=
  ((List.range 8).filter (fun c => (Tbl.get {} i.classes c).pending)).map Machine.SweepKind.extend ++
    (List.range 16).flatMap (fun h =>
      match (Tbl.get {} i.holds h).state with
      | .applying => [.apply h]
      | .releasing => [.release h]
      | _ => []) ++
    (if i.lastSwept < i.today then [.day] else [])

end Sys2Proof

namespace Sys2Proof.Machine
open Sys2Proof

/-! ### Requests -/

/-- A request with this tag, arriving on this port, is entered: its link is UP, no outstanding request holds the tag, and
fewer than 16 are outstanding (R192, R194 checks 1 and 2). -/
def State.admits (s : State) (p : Port) (tag : Nat) : Bool :=
  (s.link p).up && !(s.link p).holdsTag tag && decide ((s.link p).outstanding.length < Config.outstanding)

/-- The conditions common to the catalog requests: SERVICE, neither compaction nor the catalog STOPPED, and a checkpoint
number left (R27, R75, R93, R106, R126, R169). -/
def State.catalogOpen (s : State) : Bool := s.inService && s.enginesUp && !s.numbersSpent

/-- The reply has been produced on the port: it waits for the transmitter or is being sent (R195). -/
def State.replied (t : State) (p : Port) (r : Reply) : Bool :=
  (t.link p).replies.contains r || decide ((t.link p).sending = some (.reply r))

/-- The reply to an entered request. -/
def replyTo (tag kind : Nat) (st : Status) (body : List Byte) : Reply :=
  { kind := kind, tag := tag, status := st, body := body, entered := true }

/-- Everything the part holds beside its two Link Interfaces. -/
def State.beside (s : State) : State := { s with portA := {}, portB := {} }

/-- The request stands in the outstanding-request list of its port (R194). -/
def State.waits (t : State) (p : Port) (tag kind : Nat) : Bool :=
  (t.link p).outstanding.contains { tag := tag, kind := kind }

/-- The request waits for the checkpoint: among the current waiters or the owed ones (R169). -/
def State.awaitsCheckpoint (t : State) (r : ReqRef) : Bool :=
  (t.cat.waiters ++ t.cat.owedWaiters).any (fun w => decide (w.req = some r))

/-- A checkpoint trigger taken in `s`, its command ending in `t`, waits for its checkpoint: it joins the one QUIESCING or
WRITING, or begins one whose drain no fault ends in that command (R169, R170, R172). -/
def State.triggerJoins (s t : State) : Prop :=
  s.cat.state = .writing ∨ s.cat.state = .quiescing ∨
    s.cat.state = .idle ∧ s.cat.last < 4294967295 ∧ t.comp.stopped = false

/-- Of every other trigger, what it carries is answered NOT-DURABLE at once: the catalog is STOPPED, the numbers are spent, or
compaction, STOPPED already or by a fault of the drain's beginning, abandons the checkpoint (R169, R170). -/
def State.triggerFails (s t : State) : Prop :=
  s.cat.state = .stopped ∨ s.cat.state = .idle ∧ (4294967295 ≤ s.cat.last ∨ t.comp.stopped = true)

/-- The request waits for the checkpoint with the body of its reply (R169). -/
def State.awaitsWith (t : State) (r : ReqRef) (body : List Byte) : Bool :=
  (t.cat.waiters ++ t.cat.owedWaiters).any
    (fun w => decide (w.req = some r) && decide (w.okBody = body) && decide (w.failBody = body) && !w.number)

/-- How a sweep's end is answered (R104, R107, R132, R135, R169, R170): its requests wait with its counts, or are answered
NOT-DURABLE with them. -/
def State.sweepAnswered (s t : State) (reqs : List ReqRef) (body : List Byte) : Prop :=
  ∀ q ∈ reqs,
    (s.triggerJoins t → t.awaitsWith q body = true) ∧
      (s.triggerFails t → s.isLive q = true →
        t.replied q.port (replyTo q.tag q.kind .notDurable body) = true)

/-- From `s` to `t` an opening that waits for a directory entry, compaction running, finds none left: in `t` no entry is FREE,
and none is EXPIRED or ERASING with its slot on an ONLINE or DRAINING channel (R61, R184, log 28). -/
def State.openingStarves (s t : State) : Prop :=
  s.comp.opening = some .entry ∧ s.comp.stopped = false ∧ t.freeEntryNumber = none ∧ t.willBecomeFree = false

/-- How an opening stands once a sweep has handled an entry (R61, R70, R184, R185): one that starves is held, compaction is
STOPPED, and SPACE-EXHAUSTED is HELD in the General Fault Context or, that context HELD already, halts the part; of any other
nothing changes. -/
def State.openingTested (s t : State) : Prop :=
  (s.openingStarves t →
    t.comp = { s.comp with opening := some .held, stopped := true } ∧
      (s.fault.general.isHeld = false → t.fault.general = .held s.fault.counter { kind := .spaceExhausted }) ∧
      (s.fault.general.isHeld = true → t.cat.archive = .halted)) ∧
  (¬ s.openingStarves t → t.comp = s.comp ∧ t.fault = s.fault)

/-- How the end of a sweep that reclaims is answered: as every sweep's end, but where a checkpoint is QUIESCING and an opening
starves, SPACE-EXHAUSTED abandons that checkpoint and the requests are answered NOT-DURABLE (R61, R70, R170, R184), also
where that fault halts the part (log 10). The run ends before the opening is tested (log 56). -/
def State.reclaimAnswered (s t : State) (reqs : List ReqRef) (body : List Byte) : Prop :=
  (s.cat.state ≠ .idle → s.openingTested t) ∧
  (¬ (s.cat.state = .quiescing ∧ s.openingStarves t) → s.sweepAnswered t reqs body) ∧
  (s.cat.state = .quiescing → s.openingStarves t →
    t.cat.state = .idle ∧ ∀ q ∈ reqs, s.isLive q = true →
      t.replied q.port (replyTo q.tag q.kind .notDurable body) = true)

/-- The ports the table of requests allows for a kind; none for a kind not in the table (R199's table). -/
def portsOf (kind : Nat) : Option Rights :=
  if [1, 2, 20, 28, 29, 34, 35, 40, 41, 43, 50, 56, 57, 58, 59, 60, 61, 64, 69, 72, 73, 74, 75, 76, 77, 85, 88].contains
      kind then some .both
  else if [8, 16, 17, 18, 19, 24, 25, 26, 27, 32, 33, 42, 48, 49, 80, 81, 82, 83, 89, 90].contains kind then some .aOnly
  else if [65, 66, 67, 68, 84].contains kind then some .bOnly
  else none

/-- What a request of a kind that its port may send is refused with for the archive state alone, none where it is taken
(R166, R191, and the first checks of each request's rule): STATUS is taken in every state, the requests that read the fault
and audit units, retention, holds, channels and the catalog, and RESET-CONTROLLER, in SERVICE and HALTED, the two Format
requests where R180 and R181 say, and every other request in SERVICE alone. -/
def State.stateRefusal (s : State) (kind : Nat) : Option Status :=
  let a := s.cat.archive
  if kind = 1 then none
  else if [43, 50, 61, 64, 69, 82, 85, 88].contains kind then
    if a = .service ∨ a = .halted then none else some .wrongState
  else if a = .halted then some .halted
  else if kind = 83 then if a = .service ∨ a = .catalogFault ∨ a = .unformatted then none else some .wrongState
  else if kind = 84 then if a = .service ∨ a = .catalogFault then none else some .wrongState
  else if a = .service then none else some .wrongState

/-- A read request is answered by a table of checks and a body, and nothing beside the links changes. -/
def answersReading (c : Instr) (s : State) (p : Port) (tag kind : Nat) (checks : List (Bool × Status))
    (body : List Byte) : Prop :=
  ∃ t, exec c s = .next t ∧ t.beside = s.beside ∧
    match firstRefusal checks with
    | some st => t.replied p (replyTo tag kind st []) = true
    | none => t.replied p (replyTo tag kind .ok body) = true

/-! ### Channels -/

/-- The channel has an operation in progress and this is it (R96). -/
def State.inProgress (s : State) (c : Nat) (op : Op) : Bool := decide ((s.channel c).current = some op)

/-- The operations of a channel, in its queue or waiting outside (R95). -/
def State.asked (s : State) (c : Nat) : List Op := (s.channel c).queue ++ (s.channel c).outside

/-- The operation in progress on the channel has run 2 s or more (R97). -/
def State.ranOut (s : State) (c : Nat) : Prop := ∀ k, (s.channel c).started = some k → k + 2 ≤ s.second

/-! ### The Day Tally -/

/-- From `s` to `t` no tally entry but the key's changes (R54). -/
def State.othersTallied (s t : State) (source day : Nat) : Prop :=
  ∀ i, i ≠ tallyIndex source day → Tbl.find t.intake.tally i = Tbl.find s.intake.tally i

/-- From `s` to `t` the key's tally entry, where there is one, counts a file refused, and no other entry changes
(R47, R54, R55). -/
def State.tallyRefused (s t : State) (f : IntakeSlot) : Prop :=
  (∀ y, s.tallyEntry f.source f.day = some y → ∃ z, t.tallyEntry f.source f.day = some z ∧
    z.filesRefused = min (y.filesRefused + 1) 4294967295 ∧
    z.declared = min (y.declared + f.declaredRecords) 4294967295 ∧ z.inFlight = y.inFlight - 1 ∧
    z.filesAccepted = y.filesAccepted ∧ z.recordsAccepted = y.recordsAccepted ∧
    z.recordsRejected = y.recordsRejected) ∧
  s.othersTallied t f.source f.day

/-- From `s` to `t` the key's tally entry, where there is one, counts a file accepted (R54). -/
def State.tallyAccepted (s t : State) (f : IntakeSlot) : Prop :=
  ∀ y, s.tallyEntry f.source f.day = some y → ∃ z, t.tallyEntry f.source f.day = some z ∧
    z.filesAccepted = min (y.filesAccepted + 1) 4294967295 ∧ z.filesRefused = y.filesRefused ∧
    z.declared = min (y.declared + f.declaredRecords) 4294967295 ∧
    z.recordsAccepted = min (y.recordsAccepted + f.accepted) 4294967295 ∧
    z.recordsRejected = min (y.recordsRejected + f.rejects.sum) 4294967295 ∧
    (0 < f.accepted → z.inFlight = y.inFlight ∧ z.state = y.state)

/-! ### Gap records (R25, R26) -/

/-- The GAP-FINAL findings, reason AGED, of the gap records detected on the days from `lo` up to but not including `hi`:
the sources in number order, each source's records oldest first (R25). -/
def agedFindings (sources : Tbl SourceEntry) (lo hi : Nat) : List FindingBody :=
  sources.flatMap (fun e =>
    (e.2.gaps.filter (fun g => isAged hi g && !isAged lo g)).map (gapFinal e.1 .aged))

/-- The one ageing that left records for want of room, and the day it reached; 0 where none did (R25, log 34). -/
def State.leftFrom (s : State) (h : Nat) : Prop := s.intake.ageings = [] ∧ h = 0 ∨ s.intake.ageings = [h]

/-- A source with its flag cleared, and without its oldest gap record where the flag was set (R26 pass 1). -/
def unflagged (e : SourceEntry) : SourceEntry :=
  if e.overflow then { e with gaps := e.gaps.tail, overflow := false } else e

/-- The GAP-FINAL findings, reason OVERFLOW, of the flagged sources' oldest records, in source-number order (R26
pass 1). -/
def flaggedFindings (sources : Tbl SourceEntry) : List FindingBody :=
  sources.flatMap (fun e => if e.2.overflow then (e.2.gaps.take 1).map (gapFinal e.1 .overflow) else [])

/-- The law of the gap lists (R15): every source's list stands in it, and the files being received bear sequence numbers. -/
def State.gapLaw (s : State) : Prop :=
  (∀ n, (s.source n).gapsOk = true) ∧ ∀ k, (s.intakeSlot k).sequence < 65536

/-! ### Records received -/

/-- The count of a reason of rejection (R8). -/
def Rejects.count (r : Rejects) : RejectReason → Nat
  | .badLength => r.badLength
  | .unknownKind => r.unknownKind
  | .badSubscriber => r.badSubscriber
  | .badOtherParty => r.badOtherParty
  | .volumeNotData => r.volumeNotData
  | .badStart => r.badStart
  | .badDuration => r.badDuration

/-! ### Builders -/

/-- The entry of a builder with the class its source has as the close begins (R66). -/
def State.closingEntry (s : State) (b : Nat) : DirEntry :=
  { s.entry (s.builder b).entry with cls := some (s.source (s.builder b).source).cls }

/-- From `s` to `t` a builder's close began and was given a slot: builder, entry, Slot Map, allocation pointer and the
WRITE asked (R66, R67, R91). -/
def State.closeBegan (s t : State) (b : Nat) (r : SlotRef) : Prop :=
  let v := s.builder b
  let e := s.closingEntry b
  t.builder b = { v with phase := .closing, failures := 0 } ∧
    t.entry v.entry = { e with
      state := .writing, slot := some r, payloadBytes := v.bytesUsed, crc := some (payloadOf v).crc,
      expiryDay := some (e.day + (s.retClass (s.source v.source).cls).days), holds := s.holdsCovering e.source e.day } ∧
    t.slotState r = .used ∧ t.media.pointer = r.channel ∧ builderWrite b v r.slot ∈ t.asked r.channel

/-- Builder `b`, first on the slot wait list before `rest`, is CLOSING and has its entry for itself: it stands nowhere else on
the list, and neither a close behind it nor a FILLING builder has that entry (R60, R61, R91). -/
def State.waitsFirst (s : State) (b : Nat) (rest : List Nat) : Prop :=
  s.media.slotWait = b :: rest ∧ (s.builder b).phase = .closing ∧ b ∉ rest ∧
    ∀ d, d ≠ b → d ∈ rest ∨ (s.builder d).phase = .filling → (s.builder d).entry ≠ (s.builder b).entry

/-- From `s` to `t` the close of builder `b`, which waited for a slot, is given slot `r`: its entry is WRITING there, with the
class's days and the holds of that moment, and its WRITE is asked (R67, R91). -/
def State.closeServed (s t : State) (b : Nat) (r : SlotRef) : Prop :=
  t.builder b = s.builder b ∧ t.entry (s.builder b).entry = s.writingEntry (s.builder b) r false ∧
    t.slotState r = .used ∧ builderWrite b (s.builder b) r.slot ∈ t.asked r.channel

/-- The wait list, its first close served before `rest`, has been served from its head while CLEAN slots remained on ONLINE
channels (R91). -/
def State.servedFromHead (t : State) (rest : List Nat) : Prop :=
  (∃ n, t.media.slotWait = rest.drop n) ∧ (t.media.slotWait ≠ [] → t.pickSlot none = none)

/-! ### Drains (R72, R170, R171) -/

/-- No drain is under way, or one that has nothing to begin now: the head file has a record to append, or the queue is empty, no
builder is FILLING, and one in use is still to be written. -/
def State.drainStands (s : State) : Prop :=
  s.cat.state ≠ .quiescing ∨ s.compacting = false ∨
    (∃ f rest, s.comp.queue = f :: rest ∧ f.appended < f.toAppend) ∨
    s.comp.queue = [] ∧ s.comp.builders ≠ [] ∧ ∀ b, b < 32 → (s.builder b).phase ≠ .filling

/-- The waiters are answered NOT-DURABLE, those whose request is live (R170). -/
def State.waitersRefused (s t : State) (ws : List Waiter) : Prop :=
  ∀ w ∈ ws, ∀ r, w.req = some r → s.isLive r = true →
    t.replied r.port (replyTo r.tag r.kind .notDurable w.failBody) = true

/-- From `s` to `t` a fault has stopped compaction: a checkpoint QUIESCING is abandoned, its waiters answered NOT-DURABLE, and
of any other nothing changes (R170). -/
def State.checkpointAbandoned (s t : State) : Prop :=
  (s.cat.state ≠ .quiescing → t.cat = s.cat) ∧
    (s.cat.state = .quiescing →
      t.cat = { s.cat with state := .idle, waiters := [] } ∧ s.waitersRefused t s.cat.waiters)

/-- The snapshot is taken as things stand in `t`, numbered one above the last completed of `s`, and the shares of its image are
asked of the catalog channel (R167, R171). -/
def State.snapshotTaken (s t : State) : Prop :=
  ∃ img, t.cat.buffer = some img ∧ img.number = s.cat.last + 1 ∧ img.today = t.ret.today ∧
    img.lastSwept = t.ret.lastSwept ∧ img.params = t.cat.params ∧ img.profile = t.cat.profile ∧
    img.classes = t.ret.classes ∧ img.sources = t.intake.sources ∧
    img.tally = t.intake.tally.map (fun e => (e.1, { e.2 with inFlight := 0 })) ∧
    img.dir = t.media.dir.map (fun e => (e.1, imageEntry e.2)) ∧ img.holds = t.ret.holds ∧
    img.findings = t.audit.findings ∧ img.nextFinding = t.audit.next ∧
    ∀ k, k < 8 → shareWrite img s.nextArea k ∈ t.asked (s.cat.channel.getD 0)

/-- From `s` to `t` a checkpoint with the waiters `ws` drains (R70, R72, R170, R171). While a file is queued or a builder in use
it is QUIESCING, with no builder FILLING once the queue is empty; with neither, the drain is complete and the checkpoint WRITING.
A fault that stops compaction abandons it. -/
def State.drains (s t : State) (ws : List Waiter) : Prop :=
  t.cat.last = s.cat.last ∧ t.cat.newer = s.cat.newer ∧
    (t.comp.stopped = false → t.cat.waiters = ws ∧
      (t.comp.queue ≠ [] ∨ t.comp.builders ≠ [] → t.cat.state = .quiescing) ∧
      (t.comp.queue = [] → ∀ b, b < 32 → (t.builder b).phase ≠ .filling) ∧
      (t.comp.queue = [] → t.comp.builders = [] → t.cat.state = .writing ∧ s.snapshotTaken t)) ∧
    (t.comp.stopped = true → t.cat.state = .idle ∧ t.cat.waiters = [] ∧ s.waitersRefused t ws)

/-! ### The Eraser -/

/-- The Eraser has begun an erase on a channel: it is in flight and its ERASE is asked (R118, R119). -/
def State.eraseBegun (t : State) (c slot : Nat) (entry : Option Nat) : Prop :=
  t.eraseOn c = some { slot := slot, entry := entry } ∧
    ∃ op ∈ t.asked c, op.kind = .erase ∧ op.slot = slot ∧ op.requester = .eraser ∧ op.entry = entry

/-- Entry `e` is the lowest one with its slot on channel `c` that satisfies `p`. -/
def State.lowestOn (s : State) (c e : Nat) (p : DirEntry → Prop) : Prop :=
  e < 65536 ∧ (∃ k, (s.entry e).slot = some { channel := c, slot := k }) ∧ p (s.entry e) ∧
    ∀ n, n < e → ∀ k, (s.entry n).slot = some { channel := c, slot := k } → ¬ p (s.entry n)

/-- The Eraser may take the entry: EXPIRED, its expiry checkpoint completed, and no extension of its class pending
(R112, R114, R117). -/
def State.mayErase (s : State) (e : DirEntry) : Prop :=
  e.state = .expired ∧ (∃ n, e.expiryCkpt = some n ∧ n ≤ s.cat.last) ∧ (s.retClass (e.cls.getD 0)).pending = false

/-- The end of an Eraser erase, as the command its entry gives (R118, R119). -/
def eraseEnd (c : Nat) (op : Op) (ok : Bool) : Instr :=
  if op.entry.isSome then .entryEraseComplete c ok else .dirtySlotEraseComplete c ok

/-- The Slot Map and the directory as the end of an Eraser erase leaves them: the slot CLEAN or DEFECTIVE, and the entry, where
it was of one, FREE (R118, R119). -/
def State.erased (s : State) (c : Nat) (op : Op) (ok : Bool) : State :=
  let u := s.setSlotState { channel := c, slot := op.slot } (if ok then .clean else .defective)
  match op.entry with
  | none => u
  | some e => u.setEntry e {}

/-! ### Format (R182) -/

/-- The ERASE of slot `k` for Format (R182). -/
def formatErase (k : Nat) : Op :=
  { kind := .erase, slot := k, requester := .format, entry := none, data := .blank }

/-- `op` is all that is asked of channel `c`, and nothing is asked of any other of the eight. -/
def State.asksOnly (s : State) (c : Nat) (op : Op) : Prop :=
  s.asked c = [op] ∧ ∀ d, d < 8 → d ≠ c → s.asked d = [] ∧ (s.channel d).started = none

/-- A stage of Format begins: each channel that `p` names erases slot `k`, and nothing else is asked of the eight (R182). -/
def State.stageBegins (t : State) (k : Nat) (p : Nat → Prop) : Prop :=
  ∀ d, d < 8 →
    (p d → t.asked d = [formatErase k] ∧ t.inProgress d (formatErase k) = true) ∧ (¬ p d → t.asked d = [])

/-! ### The laws of the part -/

/-- The outstanding-request list of a port (R194): at most 16 entries, no two with one tag. -/
def LinkIf.listOk (l : LinkIf) : Bool :=
  decide (l.outstanding.length ≤ Config.outstanding) && decide ((l.outstanding.map Outstanding.tag).Nodup)

/-- Both ports' lists (R194). -/
def State.listsOk (s : State) : Bool := s.portA.listOk && s.portB.listOk

/-- The law of the Findings Log (R138). -/
def State.logOk (s : State) : Bool := findingsOk s.audit.findings s.audit.next

/-- The law of the Class Table (R105). -/
def State.classLaw (s : State) : Bool := classesOk s.cat.params.lookback s.ret.classes

/-- The Compaction Queue holds at most 64 files (R58). -/
def State.queueOk (s : State) : Bool := decide (s.comp.queue.length ≤ Config.queueFiles)

/-- Every intake page is FREE, RESERVED for a slot that is not IDLE, or HELD for a file of the Compaction Queue, and there are
3,808 (R57). -/
def State.pagesOk (s : State) : Bool :=
  s.intake.slots.all (fun e => decide (e.2.phase ≠ .idle)) &&
    decide (s.intake.freePages + (s.intake.slots.map (fun e => e.2.pages)).sum +
      (s.comp.queue.map QueuedFile.pages).sum = 3808)

/-- The tables of a port, a channel and the part stand in their canonical form: indexes rising, no entry equal to the empty
one, so that equal contents are equal data. -/
def State.tablesOk (s : State) : Bool :=
  Tbl.canon {} s.portA.lines && Tbl.canon {} s.portB.lines &&
    Tbl.canon {} s.intake.sources && Tbl.canon {} s.intake.slots && Tbl.rising s.intake.tally &&
    Tbl.canon {} s.comp.builders && Tbl.canon {} s.comp.codes &&
    Tbl.canon {} s.media.dir && Tbl.canon {} s.media.channels && Tbl.canon .unknown s.media.flash &&
    s.media.channels.all (fun e => Tbl.canon e.2.rest e.2.slots) &&
    Tbl.canon {} s.ret.classes && Tbl.canon {} s.ret.holds && Tbl.rising s.ret.erasing && Tbl.canon {} s.cursors

/-! ### What a trigger leaves (R169, R170) -/

/-- A trigger taken now moves no file and no builder: it begins no checkpoint, or one with nothing to drain (R169, R170). -/
def State.triggerMovesNothing (s : State) : Prop :=
  s.cat.state ≠ .idle ∨ 4294967295 ≤ s.cat.last ∨ s.comp.stopped = true ∨ s.comp.queue = [] ∧ s.comp.builders = []

/-- What a trigger taken now leaves of the directory: every entry where it moves nothing, and otherwise every entry that is not
FREE and that no FILLING builder has (R60, R72, R170). -/
def State.triggerSpares (s : State) (n : Nat) : Prop :=
  s.triggerMovesNothing ∨
    s.tablesOk = true ∧ (s.entry n).state ≠ .free ∧ ∀ b, (s.builder b).phase = .filling → (s.builder b).entry ≠ n

/-! ### The law of the shared codes (R74) -/

/-- The directory entries, FREE ones apart, whose used set holds a code (R74). -/
def State.uses (s : State) (c : Nat) : Nat :=
  s.media.dir.countP (fun e => decide (e.2.state ≠ .free) && e.2.used.contains c)

/-- Each shared code's count is the number of entries that hold it, with what keeps it so: an EMPTY code has no other field, an
entry's used set stands in ascending order, a FREE entry's is empty, and a FILLING builder's is that of its entry (R60, R64,
R73, R74). -/
def State.codesLaw (s : State) : Prop :=
  (∀ c, (s.code c).count = s.uses c) ∧ (∀ c, (s.code c).state = .empty → s.code c = {}) ∧
    (∀ e, (s.entry e).used.Pairwise (· < ·) ∧ ((s.entry e).state = .free → (s.entry e).used = [])) ∧
    ∀ b, (s.builder b).phase = .filling → (s.entry (s.builder b).entry).used = (s.builder b).used

/-! ### The law of the Slot Map (R88)

What keeps it are the links between the directory and the units at work on its entries. -/

/-- A slot is USED exactly when one entry in WRITING, STORED, EXPIRED or ERASING names it, and every such entry names one
(R82, R88). -/
def State.slotsNamed (s : State) : Prop :=
  (∀ e, (s.entry e).slot.isSome =
    (decide ((s.entry e).state = .writing) || decide ((s.entry e).state = .stored) ||
      decide ((s.entry e).state = .expired) || decide ((s.entry e).state = .erasing))) ∧
  (∀ e r, (s.entry e).slot = some r → r.channel < 8 ∧ r.slot < 8192 ∧ s.slotState r = .used ∧
    ∀ f, (s.entry f).slot = some r → f = e) ∧
  (∀ r, r.channel < 8 → s.slotState r = .used → ∃ e, (s.entry e).slot = some r)

/-- Slots 0 to 15 of the catalog channel are CATALOG (R88, R90). -/
def State.catalogKept (s : State) : Prop :=
  ∀ c k, s.cat.channel = some c → k < 16 → s.slotState { channel := c, slot := k } = .catalog

/-- Each builder in use has an entry of its own: a FILLING one a FILLING entry, a CLOSING one a FILLING or WRITING entry, the
former where its close waits or a page error holds it; no builder waits twice (R60, R66, R69, R91). -/
def State.buildersLinked (s : State) : Prop :=
  (∀ b, (s.builder b).phase ≠ .free →
    ((s.entry (s.builder b).entry).state = .filling ∨
      (s.builder b).phase = .closing ∧ (s.entry (s.builder b).entry).state = .writing) ∧
    ∀ d, (s.builder d).phase ≠ .free → (s.builder d).entry = (s.builder b).entry → d = b) ∧
  (∀ b, (s.builder b).pageHeld = true ∨ b ∈ s.media.slotWait →
    (s.builder b).phase = .closing ∧ (s.entry (s.builder b).entry).state = .filling) ∧
  (∀ b ∈ s.media.slotWait, (s.builder b).pageHeld = false) ∧ s.media.slotWait.Nodup

/-- The operation is one its requester still stands behind: a builder's is for the slot its WRITING entry names; the Eraser's is
its erase in flight, of the slot an ERASING entry names or of a DIRTY slot (R67, R118, R119). -/
def State.opLinked (s : State) (c : Nat) (op : Op) : Prop :=
  match op.requester with
  | .builder b =>
    (s.builder b).phase = .closing ∧ (s.entry (s.builder b).entry).state = .writing ∧
      (s.entry (s.builder b).entry).slot = some { channel := c, slot := op.slot }
  | .eraser =>
    (s.eraseOn c).isSome = true ∧
      match op.entry with
      | some e => (s.entry e).state = .erasing ∧ (s.entry e).slot = some { channel := c, slot := op.slot }
      | none => s.slotState { channel := c, slot := op.slot } = .dirty
  | _ => True

/-- Every operation asked is linked so, and no builder, and not the Eraser, has two on one channel (R95, R117). -/
def State.opsLinked (s : State) : Prop :=
  ∀ c, (∀ op ∈ s.asked c, s.opLinked c op) ∧
    (s.asked c).Pairwise (fun a b =>
      (a.requester = .eraser → b.requester ≠ .eraser) ∧ ∀ n, a.requester = .builder n → b.requester ≠ .builder n)

/-- The builders, the Eraser and the wait list are at rest, and every operation asked is of one of the requesters or has its
result discarded. -/
def State.onlyAsks (s : State) (who : Requester → Bool) : Prop :=
  s.comp.builders = [] ∧ s.media.slotWait = [] ∧ s.ret.erasing = [] ∧
    ∀ c, ∀ op ∈ s.asked c, op.requester = .discarded ∨ who op.requester = true

/-- A load runs in LOADING on a part without a directory, the Slot Map all DIRTY (R90, R177). -/
def State.loadLaw (s : State) : Prop :=
  s.cat.load.isSome = true → s.cat.archive = .loading ∧ s.cat.format = none ∧ s.media.dir = [] ∧
    s.onlyAsks (fun r => r = .load) ∧ ∀ c, (s.channel c).slots = [] ∧ (s.channel c).rest = .dirty

/-- The Format in progress is in one of its erasing stages (R182). -/
def FormatOp.erasing (f : FormatOp) : Bool := decide (f.phase ≠ .clearing) && decide (f.phase ≠ .image)

/-- A Format runs in FORMATTING: while it clears it asks nothing; in its erasing stages erases of its own, on channels that
are never idle with one waiting; and with the directory empty the shares of the first image (R182). -/
def State.formatLaw (s : State) : Prop :=
  ∀ f, s.cat.format = some f → s.cat.archive = .formatting ∧
    s.onlyAsks (fun r => f.erasing && decide (r = .format) || decide (f.phase = .image) && decide (r = .catalog)) ∧
    (f.phase ≠ .image →
      (∀ c, c < 8 → (s.channel c).started = none → s.asked c = []) ∧
      ∀ c, ∀ op ∈ s.asked c, op.requester = .format → c < 8) ∧
    (f.phase = .image → s.media.dir = [])

/-- The law of the Slot Map, with what keeps it; while Format erases, the slots have been cleared and the directory not yet
(R88, R182). -/
def State.slotMapLaw (s : State) : Prop :=
  s.loadLaw ∧ s.formatLaw ∧ s.buildersLinked ∧ s.opsLinked ∧
    ((∀ f, s.cat.format = some f → f.erasing = false) → s.slotsNamed ∧ s.catalogKept)

end Sys2Proof.Machine
end

