-- ==== Sys2Proof/Certificates/Slice0/Obligations.lean ====
section
/-!
DEFINITION. Certificates/Slice0/Obligations.lean: the statements about the part, by chapter of spec/. OBLIGATIONS.json
lists them with the rules they rest on.
-/

open Sys2Proof Sys2Proof.Machine

/-! ### The step -/

/-- A step takes the command at the front of the queue and runs it on the state with the queue's rest. -/
def Obligations.StepRunsTheFrontCommand : Prop :=
  ∀ (c : Instr) (rest : List Instr) (s : State),
    step { s with pending := c :: rest } = exec c { s with pending := rest }

/-- With an empty queue one second passes while the part has its supply; nothing else changes. The model's choice
(log 1). -/
def Obligations.IdleStepCountsOneSecond : Prop :=
  ∀ s : State, s.pending = [] →
    step s = .next { s with second := if s.powered then s.second + 1 else s.second }

/-- Every command answers a next state and leaves the queue as it is; none but POWER_UP and POWER_LOSS moves the second
counter or the supply: the model's choice (commands take no time, log 1; the counter is kept through Controller Reset and
Format, log 2). -/
def Obligations.EveryCommandAnswersNext : Prop :=
  ∀ (c : Instr) (s : State), ∃ t, exec c s = .next t ∧ t.pending = s.pending ∧
    ((∀ present, c ≠ .powerUp present) → c ≠ .powerLoss → t.second = s.second ∧ t.powered = s.powered)

/-! ### The laws every step keeps -/

/-- The part before its first power-up: both links DOWN with empty lists, LOADING, and every law of the part holds.
The values are those of log 3. -/
def Obligations.LawsHoldAtReset : Prop :=
  State.reset.listsOk = true ∧ State.reset.logOk = true ∧ State.reset.classLaw = true ∧
    State.reset.tablesOk = true ∧ State.reset.queueOk = true ∧ State.reset.pagesOk = true ∧ State.reset.slotMapLaw ∧
    State.reset.codesLaw ∧ State.reset.gapLaw ∧
    State.reset.pending = [] ∧
    State.reset.cat.archive = .loading ∧
    State.reset.cat.params = { lookback := 7, idleLimit := 30, tolerance := 16, retry := 3 } ∧
    (∀ p, (State.reset.link p).up = false ∧ (State.reset.link p).outstanding = []) ∧
    (∀ c, State.reset.retClass c = { days := 400, least := 400, pending := false }) ∧
    State.reset.fault.counter = 1 ∧ State.reset.cat.formatCounter = 1 ∧ State.reset.media.pointer = 7

/-- R194: no port has more than 16 requests outstanding, and no two share a tag. -/
def Obligations.OutstandingListLawKept : Prop :=
  ∀ s t : State, s.listsOk = true → step s = .next t → t.listsOk = true

/-- R138: the findings stand in ascending number order, each below the next finding number, at most 512. -/
def Obligations.FindingsLogLawKept : Prop :=
  ∀ s t : State, s.logOk = true → step s = .next t → t.logOk = true

/-- R105: every class's days exceed the lookback, through least days. -/
def Obligations.ClassTableLawKept : Prop :=
  ∀ s t : State, s.classLaw = true → step s = .next t → t.classLaw = true

/-- Every table keeps its canonical form. -/
def Obligations.TablesStayCanonical : Prop :=
  ∀ s t : State, s.tablesOk = true → step s = .next t → t.tablesOk = true

/-- R58, R45: the Compaction Queue never holds more than 64 files. R57: the FREE pages, those reserved for the slots and those
held for the queued files are 3,808 together. R74: the count of each shared code is the number of directory entries, FREE ones
apart, whose used set holds it, and in SERVICE its value stays while that count is above 0. The codes' law is stated with what
keeps it. -/
def Obligations.CompactionQueueStaysBounded : Prop :=
  ∀ s t : State, step s = .next t →
    (s.queueOk = true → t.queueOk = true) ∧
    (s.tablesOk = true → s.pagesOk = true → t.pagesOk = true) ∧
    (s.tablesOk = true → s.slotMapLaw → s.codesLaw →
      t.codesLaw ∧
        (s.cat.archive = .service → t.cat.archive = .service → ∀ c, 0 < (s.code c).count → 0 < (t.code c).count →
          (t.code c).value = (s.code c).value))

/-! ### Frames and links (spec/12, spec/13) -/

/-- R200, R204: the frame that carries a request gives that request back, for every request that a frame can carry. R194, R204:
a REQUEST frame gives no other request: what check 3 lets pass is a request that a frame can carry, with this port, tag, kind and
body, and every other frame is answered by that check, a SEEK whose body has neither 2 nor 6 bytes and a DEFINE-CODE whose body has
fewer than 3 among them. What may follow a target code or a field code that is not listed is log 27. How a frame's bytes are read
is log 31; the order an ACK-FINDINGS is given with is no part of its frame (log 9). -/
def Obligations.RequestFramesReadBack : Prop :=
  (∀ (c : Instr) (r : RequestFrame), c.wf = true → requestOf c = some r →
    readFrame (ackOrderOf c) r.port r.bytes = some c) ∧
  (∀ (o : AckOrder) (p : Port) (tag status : Nat) (body : List Byte), tag < 65536 → body.length ≤ 4188 →
    (∀ (kind : Nat) (c : Instr), kind < 256 → readFrame o p (frame 1 kind tag status body) = some c →
      c = .requestUnknownKind p tag kind ∨
        c.wf = true ∧ requestOf c = some { port := p, tag := tag, kind := kind, body := body }) ∧
    (body.length ≠ 2 → body.length ≠ 6 →
      readFrame o p (frame 1 73 tag status body) = some (.requestUnknownKind p tag 73)) ∧
    (body.length < 3 → readFrame o p (frame 1 32 tag status body) = some (.requestUnknownKind p tag 32)))

/-- R193: what is wrong with a frame names the reason; a LINK-RESET is the one LINK frame taken. Of what a lane brings, a run
of bytes that do not begin with the sync pattern is discarded up to the next one and gives one bad frame; a frame is then read
whole, whatever is wrong with it, its check among it, and what follows it as though it came first; a frame that has not yet
come whole gives nothing. That a LINK-RESET is taken whatever its body holds is the model's choice (log 55). That the reasons
are tried in the order of the table, so that a failed check is CHECK whatever the class, and that a frame whose length field
is bad ends before the next sync pattern, are the model's choices (log 31). -/
def Obligations.BadFramesNamed : Prop :=
  ∀ (o : AckOrder) (p : Port) (cls kind tag status : Nat) (body : List Byte),
    cls < 256 → kind < 256 → tag < 65536 → body.length ≤ 4188 →
    (cls ≠ 1 → cls ≠ 4 →
      readFrame o p (frame cls kind tag status body) = some (.badFrame p .frameClass)) ∧
    (cls = 4 → kind = 2 → readFrame o p (frame cls kind tag status body) = some (.linkResetFrame p)) ∧
    (cls = 4 → kind ≠ 2 → readFrame o p (frame cls kind tag status body) = some (.badFrame p .frameKind)) ∧
    (∀ b, b ≠ 0#8 → readFrame o p ((frame cls kind tag status body).dropLast ++
        [((frame cls kind tag status body).getLastD 0#8) ^^^ b]) = some (.badFrame p .check)) ∧
    (∀ b rest, b ≠ 0xA5#8 → readFrame o p (b :: rest) = some (.badFrame p .sync)) ∧
    (∀ n rest, n < 12 ∨ 4200 < n → n < 65536 → readFrame o p (0xA5#8 :: be 2 n ++ rest) = some (.badFrame p .length)) ∧
    (∀ rest, readLane o p (frame cls kind tag status body ++ rest) =
      (readFrame o p (frame cls kind tag status body)).toList ++ readLane o p rest) ∧
    (∀ stray rest : List Byte, stray ≠ [] → (∀ b ∈ stray, b ≠ 0xA5#8) → (rest = [] ∨ rest.head? = some 0xA5#8) →
      readLane o p (stray ++ rest) = .badFrame p .sync :: readLane o p rest) ∧
    (∀ n (junk rest : List Byte), n < 12 ∨ 4200 < n → n < 65536 → (∀ b ∈ junk, b ≠ 0xA5#8) →
      (rest = [] ∨ rest.head? = some 0xA5#8) →
      readLane o p (0xA5#8 :: be 2 n ++ junk ++ rest) = .badFrame p .length :: readLane o p rest) ∧
    (∀ k, k < (frame cls kind tag status body).length → readLane o p ((frame cls kind tag status body).take k) = []) ∧
    (∀ bs rest : List Byte, bs.head? = some 0xA5#8 → bs.length = numAt bs 1 2 → 12 ≤ bs.length → bs.length ≤ 4200 →
      readLane o p (bs ++ rest) = (readFrame o p bs).toList ++ readLane o p rest ∧
        (numAt bs (bs.length - 4) 4 ≠ (crc32 (bs.take (bs.length - 4))).toNat →
          readFrame o p bs = some (.badFrame p .check)) ∧
        ∀ k, k < bs.length → readLane o p (bs.take k) = [])

/-- R192, R193: a lane up for 10 ms brings its link UP with LINK-READY first; a bad frame on an UP link raises LINK-ERROR
with its reason on that port alone. -/
def Obligations.LinkComesUpAndBadFramesAreRaised : Prop :=
  ∀ (p : Port) (s : State),
    (s.powered = true → (s.link p).up = false →
      ∃ t, exec (.linkUp p) s = .next t ∧ (t.link p).up = true ∧ (t.link p).frames.head? = some linkReadyFrame ∧
        (t.link p).lines = (s.link p).lines ∧ (t.link p).outstanding = (s.link p).outstanding ∧ t.beside = s.beside) ∧
    (∀ f, (s.link p).up = true →
      ∃ t, exec (.badFrame p f) s = .next t ∧ t.beside = s.beside ∧
        (t.link p).line noticeLinkError = ((s.link p).line noticeLinkError).raise (frameFaultCode f) ∧
        (∀ k, k ≠ noticeLinkError → (t.link p).line k = (s.link p).line k) ∧
        ∀ q, (t.link q).outstanding = (s.link q).outstanding ∧ (q ≠ p → (t.link q).lines = (s.link q).lines))

/-- R196, R181, R182: what a Link Reset of a port clears, and what it leaves to the other port; on port B the consent of a
Format that is clearing is withdrawn, and a load searches. That waiting replies and the frame being sent are cleared too is
the model's choice (log 14), as is what a withdrawn consent leaves (log 3). -/
def Obligations.LinkResetClearsThePort : Prop :=
  ∀ (p : Port) (c : Instr) (s : State), c = .laneLoss p ∨ c = .linkResetFrame p → (s.link p).up = true →
    let withdrawn := p = .b ∧ ∃ f, s.cat.format = some f ∧ f.phase = .clearing ∧ f.consent = true
    ∃ t, exec c s = .next t ∧
      ((t.link p).up = decide (c = .linkResetFrame p)) ∧
      (c = .linkResetFrame p → (t.link p).frames = [linkReadyFrame]) ∧
      (t.link p).outstanding = [] ∧ (t.link p).replies = [] ∧ (t.link p).sending = none ∧ (t.link p).lines = [] ∧
      (∀ k, k < 4 → (s.cursor k).isOpen = true → (s.cursor k).owner = p → t.cursor k = {}) ∧
      (¬withdrawn → ∀ k, (s.cursor k).owner ≠ p → t.cursor k = s.cursor k) ∧
      (p = .a → (∀ k, k < 8 → (t.intakeSlot k).phase = .idle) ∧ t.cat.pendingFormat = none) ∧
      (p = .b → ¬withdrawn → t.intake = s.intake ∧ t.cat = s.cat) ∧
      (withdrawn → s.channelsQuiet = false →
        t.cat.archive = .loading ∧ t.cat.format = none ∧ t.cat.load = some { target := .search }) ∧
      (∀ q, q ≠ p → (t.link q).outstanding = (s.link q).outstanding ∧ (t.link q).lines = (s.link q).lines)

/-- R192, R194: while a link is DOWN its port takes none of the 52 requests; on an UP link a request whose tag is
outstanding, that finds 16 outstanding, or whose kind its port may not send is refused at the link; and one of a kind not
in the table, or of a length its kind does not allow, is answered BAD-FIELD. Nothing beside the links changes and none is
entered. R166, R180, R181, R191: an entered request that the archive state does not admit is refused WRONG-STATE, or HALTED in
HALTED, and nothing beside the links changes. -/
def Obligations.RequestsRefusedAtTheLink : Prop :=
  ∀ s : State,
    (∀ (c : Instr) (r : RequestFrame), requestOf c = some r → (s.link r.port).up = false →
      ∃ t, exec c s = .next t ∧ t.beside = s.beside ∧
        ∀ q, (t.link q).outstanding = (s.link q).outstanding ∧ (t.link q).lines = (s.link q).lines) ∧
    (∀ (c : Instr) (r : RequestFrame) (st : Status), requestOf c = some r → (s.link r.port).up = true →
      ((s.link r.port).holdsTag r.tag = true ∧ st = .tagInUse) ∨
        ((s.link r.port).holdsTag r.tag = false ∧ 16 ≤ (s.link r.port).outstanding.length ∧ st = .windowFull) ∨
        (s.admits r.port r.tag = true ∧ (∃ g, portsOf r.kind = some g ∧ g.allows r.port = false) ∧
          st = .notPermitted) →
      ∃ t, exec c s = .next t ∧ t.beside = s.beside ∧ (t.link r.port).outstanding = (s.link r.port).outstanding ∧
        t.replied r.port { kind := r.kind, tag := r.tag, status := st, body := [], entered := false } = true) ∧
    (∀ (p : Port) (tag kind : Nat), s.admits p tag = true →
      ∃ t, exec (.requestUnknownKind p tag kind) s = .next t ∧ t.beside = s.beside ∧
        (t.link p).outstanding = (s.link p).outstanding ∧
        t.replied p { kind := kind, tag := tag, status := .badField, body := [], entered := false } = true) ∧
    (∀ (c : Instr) (r : RequestFrame) (st : Status), requestOf c = some r → s.admits r.port r.tag = true →
      (∃ g, portsOf r.kind = some g ∧ g.allows r.port = true) → s.stateRefusal r.kind = some st →
      ∃ t, exec c s = .next t ∧ t.beside = s.beside ∧ t.replied r.port (replyTo r.tag r.kind st []) = true)

/-- R194: a request that passes the checks at the link is outstanding when its command has been taken. -/
def Obligations.AdmittedRequestIsOutstanding : Prop :=
  ∀ (c : Instr) (r : RequestFrame) (s : State), requestOf c = some r → s.admits r.port r.tag = true →
    (∃ g, portsOf r.kind = some g ∧ g.allows r.port = true) →
    ∃ t, exec c s = .next t ∧ t.waits r.port r.tag r.kind = true

/-- R194, R197: a reply sent in full frees its tag; a notice sent reduces its line by the count it carried. -/
def Obligations.SentFramesSettle : Prop :=
  ∀ (p : Port) (s : State),
    (∀ r, (s.link p).sending = some (.reply r) → r.entered = true →
      ∃ t, exec (.replySent p) s = .next t ∧ t.beside = s.beside ∧ (t.link p).lines = (s.link p).lines ∧
        (t.link p).outstanding = (s.link p).outstanding.filter (fun o => o.tag != r.tag)) ∧
    (∀ code n x, (s.link p).sending = some (.notice code n x) →
      ∃ t, exec (.noticeSent p) s = .next t ∧ t.beside = s.beside ∧
        (t.link p).outstanding = (s.link p).outstanding ∧
        (t.link p).line code = { (s.link p).line code with count := ((s.link p).line code).count - n } ∧
        ∀ k, k ≠ code → (t.link p).line k = (s.link p).line k)

/-- R195, R197: the transmitter begins with a notice and alternates while both wait; a raise counts on its line, whatever
the mask, and replaces the subject. After a command no UP link is idle while a reply or an unmasked pending notice waits; the
end of a reply or of a notice, and a bad frame's LINK-ERROR, are followed by the transmitter of each port beginning its next
frame. That it begins it in the same command is the model's choice (log 15). -/
def Obligations.NoticesCountAndAlternate : Prop :=
  (∀ l : LinkIf, l.up = true → l.sending = none →
    (∀ r rest, l.replies = r :: rest → (l.nextNotice = none ∨ l.replyTurn = true) →
      l.transmit.sending = some (.reply r) ∧ l.transmit.replies = rest ∧ l.transmit.replyTurn = false) ∧
    (∀ code, l.nextNotice = some code → (l.replyTurn = false ∨ l.replies = []) →
      l.transmit.sending = some (.notice code (l.line code).count ((l.line code).subject.getD 0)) ∧
        l.transmit.replies = l.replies ∧ l.transmit.replyTurn = !l.replies.isEmpty)) ∧
  (∀ (p : Port) (code x : Nat) (s : State),
    ((raiseOn p code x s).link p).line code =
      { count := min (((s.link p).line code).count + 1) 65535, subject := some x, masked := ((s.link p).line code).masked } ∧
    (∀ k, k ≠ code → ((raiseOn p code x s).link p).line k = (s.link p).line k) ∧
    (∀ q, q ≠ p → (raiseOn p code x s).link q = s.link q) ∧ (raiseOn p code x s).beside = s.beside) ∧
  (∀ (c : Instr) (p : Port) (s t : State), exec c s = .next t → (t.link p).up = true → (t.link p).sending = none →
    (t.link p).replies = [] ∧ ∀ code, 1 ≤ code → code ≤ 9 → ((t.link p).line code).count = 0 ∨
      ((t.link p).line code).masked = true) ∧
  (∀ (p : Port) (s : State),
    let begun := fun (l : LinkIf) => ({ l with frames := [] } : LinkIf).transmit
    let l := s.link p
    let others := fun (t : State) => ∀ q, q ≠ p → t.link q = begun (s.link q)
    (∀ r, l.sending = some (.reply r) →
      ∃ t, exec (.replySent p) s = .next t ∧ others t ∧ t.link p = begun { l with
        sending := none
        outstanding := if r.entered then l.outstanding.filter (fun o => o.tag != r.tag) else l.outstanding }) ∧
    (∀ code n x, l.sending = some (.notice code n x) →
      ∃ t, exec (.noticeSent p) s = .next t ∧ others t ∧ t.link p = begun { l with
        sending := none
        lines := (l.setLine code { l.line code with count := (l.line code).count - n }).lines }) ∧
    (∀ f, l.up = true →
      ∃ t, exec (.badFrame p f) s = .next t ∧ others t ∧
        t.link p = begun (l.setLine noticeLinkError ((l.line noticeLinkError).raise (frameFaultCode f)))))

/-- R198: the nine masks are taken and the counts answered; masking HALTED or FAULT is refused and changes no line. -/
def Obligations.NoticeMasksAreTaken : Prop :=
  ∀ (p : Port) (tag : Nat) (masks : List Nat) (s : State), s.admits p tag = true → s.cat.archive = .service →
    (masks.length = 9 → (∀ m ∈ masks, m = 1 ∨ m = 2) → masks[0]? = some 1 → masks[1]? = some 1 →
      ∃ t, exec (.setNoticeMask p tag masks) s = .next t ∧ t.beside = s.beside ∧
        t.replied p (replyTo tag 2 .ok (pendingCounts (s.link p))) = true ∧
        ∀ code, 1 ≤ code → code ≤ 9 →
          (t.link p).line code = { (s.link p).line code with masked := decide (masks[code - 1]? = some 2) }) ∧
    (masks[0]? = some 2 ∨ masks[1]? = some 2 →
      ∃ t, exec (.setNoticeMask p tag masks) s = .next t ∧ t.beside = s.beside ∧
        t.replied p (replyTo tag 2 .badField []) = true ∧ ∀ q, (t.link q).lines = (s.link q).lines)

/-! ### Requests that read -/

/-- R33, R36, R56, R77, R79, R86, R87, R122, R137, R141, R155, R176: each read request, on either port, is refused by the
first check of its table that fails and otherwise answered OK as things stand; nothing beside the links changes. The bodies are the
model's where the book leaves them open: their layouts, the field order of READ-SEGMENT among them (log 22), the wait READ-SLOTS
names when both hold (log 16), that of a held opening in READ-COMPACTION (log 35), the span of a segment without a record (log 47),
and from when READ-AUDIT shows a read in flight (log 63). -/
def Obligations.ReadRequestsAnswerAndChangeNothing : Prop :=
  ∀ (p : Port) (tag : Nat) (s : State), s.admits p tag = true →
    let live := [(decide (s.cat.archive ≠ .halted), Status.halted), (decide (s.cat.archive = .service), Status.wrongState)]
    let kept := [(decide (s.cat.archive = .service) || decide (s.cat.archive = .halted), Status.wrongState)]
    (∀ n, answersReading (.readSource p tag n) s p tag 20 (live ++ [(decide (n ≤ 1023), .badField)])
      (sourceBody (s.source n))) ∧
    answersReading (.readSlots p tag) s p tag 28 live ((List.range 8).flatMap (slotDescription s)) ∧
    (∀ n d, answersReading (.readTally p tag n d) s p tag 29 (live ++ [(decide (n ≤ 1023), .badField)])
      (opt (tallyBody n d) (s.tallyEntry n d))) ∧
    answersReading (.readCodes p tag) s p tag 34 live ((List.range 16).flatMap (fun c => sharedCodeBody (s.code c))) ∧
    answersReading (.readCompaction p tag) s p tag 35 live (compactionBody s) ∧
    (∀ e, answersReading (.readSegment p tag e) s p tag 40 live (segmentBody (s.entry e))) ∧
    (∀ n a b k, answersReading (.listSegments p tag n a b k) s p tag 41
      (live ++ [(decide (n ≤ 1023), .badField), (decide (a ≤ b), .badField)]) (listingBody s (s.listed n a b k))) ∧
    answersReading (.readRetention p tag) s p tag 50 kept (retentionBody s) ∧
    (∀ h, answersReading (.readHold p tag h) s p tag 61 (kept ++ [(decide (h ≤ 15), .badField)]) (holdBody s h)) ∧
    (∀ a n, answersReading (.fetchFindings p tag a n) s p tag 64
      (kept ++ [(decide (1 ≤ n) && decide (n ≤ 16), .badField)]) (findingsBody s a n)) ∧
    answersReading (.readAudit p tag) s p tag 69 kept
      (be 1 s.auditCode ++ opt jobBody s.audit.job ++ be 5 s.audit.next ++ be 2 s.freePlaces) ∧
    answersReading (.readCatalog p tag) s p tag 85 kept (catalogBody s)

/-- R100, R199, R203: READ-CHANNEL and STATUS are answered as things stand and change nothing; the STATUS body is 45 bytes,
or 5 in LOADING and FORMATTING, and begins with the archive state's code. -/
def Obligations.StatusAndChannelsAreRead : Prop :=
  ∀ (p : Port) (tag : Nat) (s : State), s.admits p tag = true →
    (∀ c, answersReading (.readChannel p tag c) s p tag 43
      [(decide (s.cat.archive = .service) || decide (s.cat.archive = .halted), .wrongState), (decide (c ≤ 7), .badField)]
      (channelBody c s)) ∧
    answersReading (.status p tag) s p tag 1 [] (statusBody p (enter p tag 1 s)) ∧
    (statusBody p s).length = (if s.cat.archive = .loading ∨ s.cat.archive = .formatting then 5 else 45) ∧
    (statusBody p s).head? = some (BitVec.ofNat 8 (archiveCode s.cat.archive))

/-! ### Settings (spec/01, 02, 04, 10) -/

/-- R10, R28, R31, R75, R76, R175: what each setting request makes of its setting once its checks pass, with every other
entry of its table, the cursors and the Findings Log left as they were. -/
def Obligations.SettingRequestsTakeEffect : Prop :=
  ∀ (tag : Nat) (s : State), s.admits .a tag = true → s.catalogOpen = true →
    (∀ v f, profileOf v = some f → s.profileLockClear = true →
      ∃ t, exec (.setProfile .a tag v) s = .next t ∧ t.cat.profile = f ∧ t.cursors = s.cursors ∧ t.audit = s.audit ∧
        t.intake.sources = s.intake.sources ∧ t.ret = s.ret) ∧
    (∀ n c b, n < 1024 → c < 8 → (s.source n).state = .empty →
      ∃ t, exec (.enrolSource .a tag n c b) s = .next t ∧ t.source n = { state := .active, cls := c, base := b } ∧
        (∀ m, m ≠ n → t.source m = s.source m) ∧ t.cursors = s.cursors ∧ t.audit = s.audit ∧ t.ret = s.ret) ∧
    (∀ n c, n < 1024 → c < 8 → (s.source n).state = .active →
      ∃ t, exec (.setSourceClass .a tag n c) s = .next t ∧ t.source n = { s.source n with cls := c } ∧
        (∀ m, m ≠ n → t.source m = s.source m) ∧ t.cursors = s.cursors ∧ t.audit = s.audit ∧ t.ret = s.ret) ∧
    (∀ c o v, c < 16 → operandValue o = some v →
      ((s.code c).state = .empty ∨ (s.code c).state = .defined ∧ (s.code c).count = 0) →
      s.valueUnused c (some v) = true →
      ∃ t, exec (.defineCode .a tag c o) s = .next t ∧ t.code c = { state := .defined, value := some v, count := 0 } ∧
        (∀ k, k ≠ c → t.code k = s.code k) ∧ t.cursors = s.cursors ∧ t.audit = s.audit ∧ t.ret = s.ret) ∧
    (∀ c, c < 16 → (s.code c).state = .defined →
      ∃ t, exec (.retireCode .a tag c) s = .next t ∧
        t.code c = (if (s.code c).count = 0 then {} else { s.code c with state := .retired }) ∧
        (∀ k, k ≠ c → t.code k = s.code k) ∧ t.cursors = s.cursors ∧ t.audit = s.audit ∧ t.ret = s.ret) ∧
    (∀ k v q, setParam s.cat.params k v = some q → (k = 1 → ∀ c, c < 8 → v < (s.retClass c).least) →
      ∃ t, exec (.setParameter .a tag k v) s = .next t ∧ t.cat.params = q ∧ t.cat.profile = s.cat.profile ∧
        t.intake.sources = s.intake.sources ∧ t.cursors = s.cursors ∧ t.audit = s.audit ∧ t.ret = s.ret)

/-! ### Sources, windows and gaps (spec/02) -/

/-- R24, R29, R30: RETIRE-SOURCE exports every gap record as a RETIRED finding, in list order, and the source becomes
RETIRED, or EMPTY when nothing of it is left. -/
def Obligations.RetireSourceExportsItsGaps : Prop :=
  ∀ (tag n : Nat) (s : State), s.admits .a tag = true → s.catalogOpen = true → n < 1024 →
    (s.source n).state = .active → s.hasFileOf n = false → (s.source n).gaps.length ≤ s.freePlaces →
    s.audit.next + (s.source n).gaps.length ≤ 4294967296 →
    ∃ t, exec (.retireSource .a tag n) s = .next t ∧
      t.source n = (if s.released n then {} else { s.source n with state := .retired, gaps := [], overflow := false }) ∧
      (∀ m, m ≠ n → t.source m = s.source m) ∧
      t.audit.findings.map Finding.body =
        s.audit.findings.map Finding.body ++ (s.source n).gaps.map (gapFinal n .retired) ∧
      t.audit.next = s.audit.next + (s.source n).gaps.length

/-- R32: RESEQUENCE-SOURCE exports the records displaced, then writes RESEQUENCED, and the source starts at its new base
with no mark set. -/
def Obligations.ResequenceStartsANewNumbering : Prop :=
  ∀ (tag n base : Nat) (s : State), s.admits .a tag = true → s.catalogOpen = true → n < 1024 →
    (s.source n).state = .active → s.roomToResequence n base = true →
    s.audit.next + (resequenceFit (s.source n) base s.today).2.length + 1 ≤ 4294967296 →
    ∃ t, exec (.resequenceSource .a tag n base) s = .next t ∧
      t.source n = { s.source n with
        base := base, marks := 0, gaps := (resequenceFit (s.source n) base s.today).1, overflow := false } ∧
      (∀ m, m ≠ n → t.source m = s.source m) ∧
      t.audit.findings.map Finding.body =
        s.audit.findings.map Finding.body ++
          (resequenceFit (s.source n) base s.today).2.map (gapFinal n .overflow) ++
          [resequenced n (s.source n).base base (resequenceRuns (s.source n) s.today).length
            (resequenceFit (s.source n) base s.today).2.length]

/-- R16, R17, R18: where a number lies relative to a base; a base that advances passes set marks alone and stops at the
first that is clear; a file inside the window is refused DUPLICATE on a set mark, and on a clear one has its mark set,
nothing else of the entry changing while the base is unreceived; the base itself, received, is passed with the marks that
follow it and the list is trimmed from the new base, or the file is refused GAPS-FULL; a file ahead moves the base to 63
below it, its own mark set, and every number passed whose mark is clear, and no other, comes into a run of today; a file
behind is STALE where no gap record holds its number, and otherwise late: its number leaves the record that holds it, which
goes, is shrunk at that end, or is split, its second part joining the list as a new record, or the file is refused GAPS-FULL.
The base a forward move's records are fitted from is log 17. -/
def Obligations.WindowsJudgeAndAdvance : Prop :=
  (∀ n b, n < 65536 → b < 65536 →
    match positionOf n b with
    | .inside i => i < 64 ∧ (b + i) % 65536 = n
    | .ahead d => 64 ≤ d ∧ d < 32768 ∧ (b + d) % 65536 = n
    | .behind => ∀ d, d < 32768 → (b + d) % 65536 ≠ n) ∧
  (∀ w : Window, w.base < 65536 → ∃ k, k ≤ 64 ∧ (advanceWindow 64 w).base = (w.base + k) % 65536 ∧
    (advanceWindow 64 w).marks = w.marks >>> k ∧ (∀ i, i < k → w.marks.getLsbD i = true) ∧
    (advanceWindow 64 w).marks.getLsbD 0 = false) ∧
  (∀ (e : SourceEntry) (i places : Nat), i < 64 →
    (e.marks.getLsbD i = true → judgeInside e i places = .refused .duplicate) ∧
    (e.marks.getLsbD i = false → 0 < i → e.marks.getLsbD 0 = false →
      judgeInside e i places = .accepted { e with marks := e.marks ||| (1#64 <<< i) } [] posInside)) ∧
  (∀ (e : SourceEntry) (places : Nat), e.base < 65536 → e.marks.getLsbD 0 = false →
    let w := advanceWindow 64 { base := e.base, marks := e.marks ||| 1#64 }
    let fit := fitGaps w.base e.gaps []
    (∃ k, 1 ≤ k ∧ k ≤ 64 ∧ w.base = (e.base + k) % 65536) ∧
      judgeInside e 0 places =
        if fit.2.length ≤ places then
          .accepted { e with base := w.base, marks := w.marks, gaps := fit.1 } fit.2 posInside
        else .gapsFull) ∧
  (∀ (marks : Marks) (d i : Nat), i < d →
    (∀ r ∈ unreceivedRuns marks d, r.1 ≤ r.2 ∧ r.2 < d) ∧
      (unreceivedRuns marks d).any (fun r => decide (r.1 ≤ i) && decide (i ≤ r.2)) =
        (decide (64 ≤ i) || !marks.getLsbD i)) ∧
  (∀ (e : SourceEntry) (n d today places : Nat), positionOf n e.base = .ahead d →
    let runs := (unreceivedRuns e.marks (d - 63)).map (fun r =>
      ({ first := (e.base + r.1) % 65536, last := (e.base + r.2) % 65536, day := today } : GapRecord))
    let w := advanceWindow 64 { base := (e.base + (d - 63)) % 65536, marks := (e.marks >>> (d - 63)) ||| (1#64 <<< 63) }
    let fit := fitGaps w.base e.gaps runs
    judgeFile e n today places =
      if fit.2.length ≤ places then
        .accepted { e with base := w.base, marks := w.marks, gaps := fit.1 } fit.2 posAhead
      else .gapsFull) ∧
  (∀ (e : SourceEntry) (n i today places : Nat), positionOf n e.base = .inside i →
    judgeFile e n today places = judgeInside e i places) ∧
  (∀ (e : SourceEntry) (n today places : Nat), positionOf n e.base = .behind →
    ((∀ g ∈ e.gaps, gapHolds n g = false) → judgeFile e n today places = .refused .stale) ∧
    (∀ pre g post, e.gaps = pre ++ g :: post → gapHolds n g = true → (∀ h ∈ pre, gapHolds n h = false) → g ∉ post →
      let late := fun (gs : List GapRecord) => Verdict.accepted { e with gaps := gs } [] posLate
      let low : GapRecord := { g with last := (n + 65535) % 65536 }
      let high : GapRecord := { g with first := (n + 1) % 65536 }
      let fit := fitGaps e.base (pre ++ low :: post) [high]
      judgeFile e n today places =
        if g.first = n ∧ g.last = n then late (pre ++ post)
        else if g.first = n then late (pre ++ high :: post)
        else if g.last = n then late (pre ++ low :: post)
        else if fit.2.length ≤ places then .accepted { e with gaps := fit.1 } fit.2 posLate
        else .gapsFull))

/-- R15: every step keeps the law of the gap lists: a source's list holds at most 16 records, each a run of at most 32,767
numbers wholly behind the base, oldest first, no two with a number in common. A record of one number lies wholly behind as the
model reads R15 (log 29). R19, R20: after fitting, every record kept lies wholly behind the base, as many of them as there are up
to 16; the oldest of those are displaced, and every record that does not lie wholly behind (log 33), in the order of age; a late
number is taken from its gap record and from nothing else: the parts left hold every other number of the record, and no more. -/
def Obligations.GapRecordsFitAndSplit : Prop :=
  (∀ s t : State, (∀ c, s.pending.head? = some c → c.wf = true) → s.tablesOk = true → s.gapLaw → step s = .next t →
    t.gapLaw) ∧
  (∀ (base : Nat) (list runs : List GapRecord),
    let gs := orderByAge base (extendNewest list runs)
    let fit := fitGaps base list runs
    fit.1.length = min 16 (gs.countP (whollyBehind base)) ∧ (∀ g ∈ fit.1, whollyBehind base g = true) ∧
      fit.2.filter (whollyBehind base) ++ fit.1 = gs.filter (whollyBehind base) ∧
      fit.2.filter (fun g => !whollyBehind base g) = gs.filter (fun g => !whollyBehind base g) ∧
      fit.2.Sublist gs) ∧
  (∀ (n m : Nat) (g : GapRecord), n < 65536 → m < 65536 → g.first < 65536 → g.last < 65536 →
    runLength g.first g.last ≤ 32767 → gapHolds n g = true →
    (((takeFromGap n g).1 ++ (takeFromGap n g).2.toList).any (gapHolds m) = (gapHolds m g && decide (m ≠ n))))

/-! ### Files (spec/01, spec/03) -/

/-- R6, R7, R201: the carried form of a record that fits the profile is validated as that record; a record is rejected with
the reason of the first check of R7 that fails, and one that passes all eleven is accepted, its field values fitting the
profile. -/
def Obligations.CarriedRecordsReadBack : Prop :=
  (∀ (p : Profile) (r : Record), r.fitsProfile p = true → validate p (recordBytes r) = .ok r) ∧
  (∀ (p : Profile) (bs : List Byte),
    let len := byteAt bs 0
    let digits := byteAt bs 2
    let start := 3 + (digits + 1) / 2
    let party := start + 10
    let named := p = .p2 ∨ p = .p4
    let located := p = .p3 ∨ p = .p4
    let required := 13 + (digits + 1) / 2 + (if named then 3 + byteAt bs party else 0) +
      (if located then (if byteAt bs 1 = 5 then 8 else 4) else 0)
    let digit := fun k => if k % 2 = 0 then byteAt bs (3 + k / 2) / 16 else byteAt bs (3 + k / 2) % 16
    let checks : List (Bool × RejectReason) :=
      [(decide (16 ≤ len ∧ len ≤ 52), .badLength),
       (decide (1 ≤ byteAt bs 1 ∧ byteAt bs 1 ≤ 6), .unknownKind),
       (decide (5 ≤ digits ∧ digits ≤ 15), .badSubscriber),
       (decide (named → party < len), .badLength),
       (decide (named → byteAt bs party ≤ 20), .badOtherParty),
       (decide (located → byteAt bs 1 = 5 ∨ len ≠ required + 4), .volumeNotData),
       (decide (len = required), .badLength),
       ((List.range digits).all (fun k => decide (digit k ≤ 9)), .badSubscriber),
       (decide (¬named) || (List.range (byteAt bs party)).all (fun k => decide (byteAt bs (party + 1 + k) ≤ 9)),
         .badOtherParty),
       (decide (numAt bs start 3 ≤ 86399), .badStart),
       (decide (numAt bs (start + 3) 3 ≤ 86400), .badDuration)]
    (∀ c, checks.find? (fun c => !c.1) = some c → validate p bs = .error c.2) ∧
      (checks.find? (fun c => !c.1) = none → ∃ r, validate p bs = .ok r ∧ r.fitsProfile p = true))

/-- R37, R38: an OPEN-FILE is refused by the first check of its table that fails, and then nothing beside the links
changes; one that passes every check takes the lowest IDLE slot, its pages, and its key's place in the tally. -/
def Obligations.OpenFileTakesASlot : Prop :=
  ∀ (tag n q d r l : Nat) (s : State), s.admits .a tag = true →
    (∀ st, firstRefusal (s.openChecks n q d r l) = some st →
      ∃ t, exec (.openFile .a tag n q d r l) s = .next t ∧ t.beside = s.beside ∧
        t.replied .a (replyTo tag 24 st []) = true) ∧
    (firstRefusal (s.openChecks n q d r l) = none →
    ∃ k t, s.idleSlot = some k ∧ exec (.openFile .a tag n q d r l) s = .next t ∧
      t.replied .a (replyTo tag 24 .opened (be 1 k)) = true ∧
      t.intakeSlot k =
        { phase := .receiving, source := n, sequence := q, day := d, declaredRecords := r, declaredLength := l,
          pages := (l + 262143) / 262144, check := crcStart, lastActivity := s.second } ∧
      (∀ j, j ≠ k → t.intakeSlot j = s.intakeSlot j) ∧
      t.intake.freePages = s.intake.freePages - (l + 262143) / 262144 ∧
      t.tallyEntry n d = some { (s.tallyEntry n d).getD {} with inFlight := ((s.tallyEntry n d).getD {}).inFlight + 1 } ∧
      s.othersTallied t n d ∧
      t.intake.sources = s.intake.sources ∧ t.comp = s.comp ∧ t.media = s.media ∧ t.ret = s.ret ∧ t.cat = s.cat)

/-- R5, R7, R8, R40, R41, R42, R54: a chunk in order is received, its bytes cut into records by their length bytes: a record
that fits the profile is kept and counts as seen and accepted, one that fails a check of R7 as seen and for its reason alone,
bytes that do not end a record wait and count nothing, and bytes in two chunks count as in one; a chunk out of order is
refused with the bytes received and changes nothing; one past the declared length ends the file, which its key's tally entry
counts as refused. The body of the OVERRUN reply is the model's reading (log 39). -/
def Obligations.ChunksAreReceivedInOrder : Prop :=
  (∀ (f : IntakeSlot) (p : Profile) (now : Nat) (bs : List Byte),
    let taken : IntakeSlot :=
      { f with received := f.received + bs.length, check := crcBytes f.check bs, lastActivity := now }
    let g := f.receive p now bs
    (∀ r, f.begun = [] → r.fitsProfile p = true → bs = recordBytes r →
      g = { taken with seen := f.seen + 1, accepted := f.accepted + 1, records := f.records ++ [r] }) ∧
    (∀ e, f.begun = [] → bs ≠ [] → bs.length = max 1 (byteAt bs 0) → validate p bs = .error e →
      g = { taken with seen := f.seen + 1, rejects := g.rejects } ∧
        ∀ d, g.rejects.count d = f.rejects.count d + (if d = e then 1 else 0)) ∧
    (f.begun = [] → bs ≠ [] → bs.length < byteAt bs 0 → g = { taken with begun := bs }) ∧
    (∀ later more, g.receive p later more = f.receive p later (bs ++ more))) ∧
  (∀ (tag k o : Nat) (bs : List Byte) (s : State), s.admits .a tag = true → s.cat.archive = .service → k < 8 →
    1 ≤ bs.length → bs.length ≤ 4096 → (s.intakeSlot k).phase = .receiving →
    (o = (s.intakeSlot k).received → o + bs.length ≤ (s.intakeSlot k).declaredLength →
      ∃ t, exec (.chunk .a tag k o bs) s = .next t ∧
        t.intakeSlot k = (s.intakeSlot k).receive s.cat.profile s.second bs ∧
        (t.intakeSlot k).received = o + bs.length ∧ (t.intakeSlot k).check = crcBytes (s.intakeSlot k).check bs ∧
        t.replied .a (replyTo tag 25 .ok (be 4 (o + bs.length) ++ countsBody (t.intakeSlot k))) = true ∧
        (∀ j, j ≠ k → t.intakeSlot j = s.intakeSlot j) ∧ t.intake.tally = s.intake.tally ∧
        t.intake.freePages = s.intake.freePages ∧ t.intake.sources = s.intake.sources ∧ t.comp = s.comp) ∧
    (o ≠ (s.intakeSlot k).received →
      ∃ t, exec (.chunk .a tag k o bs) s = .next t ∧ t.beside = s.beside ∧
        t.replied .a (replyTo tag 25 .chunkOrder (be 4 (s.intakeSlot k).received)) = true) ∧
    (o = (s.intakeSlot k).received → (s.intakeSlot k).declaredLength < o + bs.length →
      ∃ t, exec (.chunk .a tag k o bs) s = .next t ∧ t.intakeSlot k = {} ∧
        t.intake.freePages = s.intake.freePages + (s.intakeSlot k).pages ∧ t.intake.sources = s.intake.sources ∧
        t.replied .a (replyTo tag 25 .overrun (be 4 (s.intakeSlot k).declaredLength ++ be 4 o)) = true ∧
        s.tallyRefused t (s.intakeSlot k) ∧ (∀ j, j ≠ k → t.intakeSlot j = s.intakeSlot j) ∧ t.comp = s.comp))

/-- R5, R43, R44, R47, R54: a CLOSE-FILE makes its slot CLOSING, a record that the end of the whole file cuts off counted as
seen and as BAD-LENGTH; a file that fails a content check is refused: its slot and pages are given up, and its key's tally
entry counts it as refused. That a file that passes stays CLOSING until the step FILE_ACCEPTANCE, even when neither condition
of R45 holds, is the model's choice (log 30). -/
def Obligations.CloseFileChecksTheContent : Prop :=
  ∀ (tag k : Nat) (crc : Crc) (s : State), s.admits .a tag = true → s.cat.archive = .service → k < 8 →
    (s.intakeSlot k).phase = .receiving →
    let r : ReqRef := { port := .a, tag := tag, kind := 26, epoch := s.portA.epoch }
    let f := (s.intakeSlot k).close r
    let cut := (s.intakeSlot k).begun ≠ [] ∧ (s.intakeSlot k).received = (s.intakeSlot k).declaredLength
    (f = { s.intakeSlot k with
        phase := .closing, begun := [], closeReq := some r, seen := f.seen, rejects := f.rejects } ∧
      f.seen = (s.intakeSlot k).seen + (if cut then 1 else 0) ∧
      (∀ d, f.rejects.count d = (s.intakeSlot k).rejects.count d + (if cut ∧ d = .badLength then 1 else 0)) ∧
      contentChecks f crc s.cat.params.tolerance =
        [(decide (f.received = f.declaredLength), .lengthMismatch), (decide (crcResult f.check = crc), .checkMismatch),
         (decide (f.seen = f.declaredRecords), .countMismatch),
         (decide (f.rejects.sum ≤ s.cat.params.tolerance), .tooManyBad)]) ∧
    (firstRefusal (contentChecks f crc s.cat.params.tolerance) = none →
      ∃ t, exec (.closeFile .a tag k crc) s = .next t ∧ t.intakeSlot k = f ∧ f.phase = .closing ∧
        t.intake.closing = s.intake.closing ++ [k] ∧ (∀ j, j ≠ k → t.intakeSlot j = s.intakeSlot j) ∧
        t.intake.tally = s.intake.tally ∧ t.intake.sources = s.intake.sources ∧ t.comp = s.comp) ∧
    (∀ st, firstRefusal (contentChecks f crc s.cat.params.tolerance) = some st →
      ∃ t, exec (.closeFile .a tag k crc) s = .next t ∧ t.intakeSlot k = {} ∧
        t.replied .a (replyTo tag 26 st (refusalBody f)) = true ∧
        t.intake.freePages = s.intake.freePages + (s.intakeSlot k).pages ∧ t.intake.sources = s.intake.sources ∧
        s.tallyRefused t f ∧ t.comp = s.comp)

/-- R20, R21, R23, R24, R46, R47, R54: the earliest closing file that no longer waits is judged on its source's window, and its
key's tally entry counts it as refused or as accepted; the gap records an acceptance displaces are exported as OVERFLOW
findings, oldest first. -/
def Obligations.FileAcceptanceJudgesTheWindow : Prop :=
  ∀ (k : Nat) (rest : List Nat) (r : ReqRef) (s : State), s.intake.closing = k :: rest → s.cat.archive = .service →
    s.cat.state ≠ .quiescing → s.cat.state ≠ .writing → s.comp.queue.length < 64 →
    (s.intakeSlot k).closeReq = some r → s.isLive r = true →
    let f := s.intakeSlot k
    (∀ st, judgeFile (s.source f.source) f.sequence s.today s.freePlaces = .refused st →
      ∃ t, exec .fileAcceptance s = .next t ∧ t.intakeSlot k = {} ∧ t.intake.sources = s.intake.sources ∧
        t.replied r.port (replyTo r.tag r.kind st (refusalBody f)) = true ∧ s.tallyRefused t f ∧ t.comp = s.comp) ∧
    (judgeFile (s.source f.source) f.sequence s.today s.freePlaces = .gapsFull →
      ∃ t, exec .fileAcceptance s = .next t ∧ t.intakeSlot k = {} ∧
        t.source f.source = { s.source f.source with overflow := true } ∧
        t.replied r.port (replyTo r.tag r.kind .gapsFull (refusalBody f)) = true ∧ s.tallyRefused t f ∧
        t.comp = s.comp) ∧
    (∀ e gone pos, judgeFile (s.source f.source) f.sequence s.today s.freePlaces = .accepted e gone pos →
      ∃ t, exec .fileAcceptance s = .next t ∧ t.intakeSlot k = {} ∧
        t.source f.source = { e with accepted := min (e.accepted + 1) 4294967295, lastDay := some f.day } ∧
        (∀ m, m ≠ f.source → t.source m = s.source m) ∧
        t.replied r.port (replyTo r.tag r.kind .accepted (acceptedBody f pos s.cat.last)) = true ∧
        (0 < f.accepted → ∃ g ∈ t.comp.queue, g.source = f.source ∧ g.sequence = f.sequence ∧ g.day = f.day ∧
          g.pages = f.pages ∧ g.records = f.records ∧ g.toAppend = f.accepted ∧ g.appended = 0) ∧
        (s.audit.next + gone.length ≤ 4294967296 →
          t.audit.findings.map Finding.body =
              s.audit.findings.map Finding.body ++ gone.map (gapFinal f.source .overflow) ∧
            t.audit.next = s.audit.next + gone.length) ∧
        (s.comp.opening = none → (∀ g ∈ s.comp.queue, g.appended < g.toAppend) →
          s.tallyAccepted t f ∧ s.othersTallied t f.source f.day))

/-- R49: ABORT-FILE by the checks of its rule; an aborted file gives up its slot and its pages, its files in flight falls by
one, and it is counted nowhere. R50: an idle abort has the same effects and raises FILE-ABORTED on port A. -/
def Obligations.AbortedFilesAreCountedNowhere : Prop :=
  ∀ (k : Nat) (s : State),
    let f := s.intakeSlot k
    let checks := [(decide (s.cat.archive ≠ .halted), Status.halted), (decide (s.cat.archive = .service), .wrongState),
      (decide (k < 8), .badField), (decide (f.phase ≠ .idle), .wrongState), (decide (f.phase ≠ .closing), .busy)]
    let aborted := fun (t : State) => t.intakeSlot k = {} ∧ (∀ j, j ≠ k → t.intakeSlot j = s.intakeSlot j) ∧
      t.intake.freePages = s.intake.freePages + f.pages ∧ t.intake.sources = s.intake.sources ∧
      (∀ y, s.tallyEntry f.source f.day = some y → ∃ z, t.tallyEntry f.source f.day = some z ∧
        z.inFlight = y.inFlight - 1 ∧ z.filesAccepted = y.filesAccepted ∧ z.filesRefused = y.filesRefused ∧
        z.declared = y.declared ∧ z.recordsAccepted = y.recordsAccepted ∧ z.recordsRejected = y.recordsRejected) ∧
      s.othersTallied t f.source f.day ∧ t.comp = s.comp ∧ t.media = s.media ∧ t.ret = s.ret ∧ t.audit = s.audit ∧
      t.cursors = s.cursors ∧ t.cat = s.cat
    (∀ tag, s.admits .b tag = true →
      ∃ t, exec (.abortFile .b tag k) s = .next t ∧ t.beside = s.beside ∧
        t.replied .b { kind := 27, tag := tag, status := .notPermitted, body := [], entered := false } = true) ∧
    (∀ tag st, s.admits .a tag = true → firstRefusal checks = some st →
      ∃ t, exec (.abortFile .a tag k) s = .next t ∧ t.beside = s.beside ∧
        t.replied .a (replyTo tag 27 st []) = true) ∧
    (∀ tag, s.admits .a tag = true → firstRefusal checks = none →
      ∃ t, exec (.abortFile .a tag k) s = .next t ∧ aborted t ∧ t.replied .a (replyTo tag 27 .ok []) = true) ∧
    (f.phase = .receiving → f.lastActivity + s.cat.params.idleLimit ≤ s.second →
      ∃ t, exec (.intakeIdleLimit k) s = .next t ∧ aborted t ∧
        t.portA.line noticeFileAborted = (s.portA.line noticeFileAborted).raise k)

/-! ### Compaction (spec/04) -/

/-- R55, R59, R61, R62, R64, R65, R78: a record that fits is appended to its key's builder, all at once, and with the file's
last record the file leaves the queue, its pages become FREE, and its key's files in flight falls by one, which at 0 may close
the entry; with no builder for the key one is opened and the record appended there; with all 32 in use the opening waits, and
the builder longest without an append is closed; a builder the record does not fit is closed; a file page that fails its check
holds the head file and stops compaction, which abandons a checkpoint QUIESCING (R70, R170). A drain appends in the same way
(R72); how the append of the last queued record ends a drain's queue is stated with the checkpoint. That such a page is read
before a builder is opened, so that it opens none, is the model's choice (log 42). -/
def Obligations.RecordsAreAppended : Prop :=
  ∀ (f : QueuedFile) (rest : List QueuedFile) (r : Record) (s : State), s.cat.archive = .service →
    s.comp.stopped = false → s.comp.opening = none → s.comp.queue = f :: rest → f.records[f.appended]? = some r →
    let drainsOn := s.cat.state = .quiescing → f.appended + 1 < f.toAppend ∨
      ∃ g, rest.head? = some g ∧ g.appended < g.toAppend
    (∀ b, drainsOn → s.fillingBuilder f.source f.day = some b → recordFits s.comp.codes (s.builder b) r = true →
      let v := s.builder b
      let c := encodeRecord s.comp.codes v r
      ∃ t, exec (.appendRecord true) s = .next t ∧
        t.builder b = { v with
          records := v.records ++ [c.record], bytesUsed := v.bytesUsed + c.bytes + c.cost, dyn := c.dyn, used := c.used,
          span := some (spanAfter v.span f.sequence), lastAppend := s.second } ∧
        t.entry v.entry = { s.entry v.entry with
          recordCount := (s.entry v.entry).recordCount + 1, payloadBytes := v.bytesUsed + c.bytes + c.cost,
          used := c.used, span := some (spanAfter v.span f.sequence) } ∧
        (∀ e, e ≠ v.entry → t.entry e = s.entry e) ∧
        (f.appended + 1 < f.toAppend →
          t.comp.queue = { f with appended := f.appended + 1 } :: rest ∧ t.intake = s.intake) ∧
        (f.toAppend ≤ f.appended + 1 → (∀ g, rest.head? = some g → g.appended < g.toAppend) →
          t.comp.queue = rest ∧ t.intake.freePages = s.intake.freePages + f.pages ∧
            t.intake.slots = s.intake.slots ∧ t.intake.sources = s.intake.sources ∧
            (∀ y, s.tallyEntry f.source f.day = some y → t.tallyEntry f.source f.day = some { y with
              inFlight := y.inFlight - 1
              state := if y.state = .opened ∧ f.day + s.lookback < s.ret.today ∧ y.inFlight - 1 = 0 then .closed
                       else y.state }) ∧
            s.othersTallied t f.source f.day)) ∧
    (∀ b n, drainsOn → s.tablesOk = true → s.fillingBuilder f.source f.day = none → s.freeBuilder = some b →
      s.freeEntryNumber = some n →
      let v : Builder :=
        { phase := .filling, source := f.source, day := f.day, entry := n, bytesUsed := 32, lastAppend := s.second }
      let c := encodeRecord s.comp.codes v r
      ∃ t, exec (.appendRecord true) s = .next t ∧
        t.builder b = { v with
          records := [c.record], bytesUsed := 32 + c.bytes + c.cost, dyn := c.dyn, used := c.used,
          span := some (f.sequence, f.sequence) } ∧
        t.entry n = { state := .filling, source := f.source, day := f.day, recordCount := 1,
                      payloadBytes := 32 + c.bytes + c.cost, used := c.used, span := some (f.sequence, f.sequence) } ∧
        (∀ e, e ≠ n → t.entry e = s.entry e) ∧ ∀ i, i ≠ b → t.builder i = s.builder i) ∧
    (f.appended < f.toAppend → s.fillingBuilder f.source f.day = none → s.freeBuilder = none →
      (s.oldestFilling = none →
        ∃ t, exec (.appendRecord true) s = .next t ∧ t.comp = { s.comp with opening := some .builder } ∧
          t.media = s.media ∧ t.intake = s.intake) ∧
      (∀ b k, s.tablesOk = true → s.oldestFilling = some b → s.pickSlot none = some k →
        ∃ t, exec (.appendRecord true) s = .next t ∧ t.comp.opening = some .builder ∧ t.comp.queue = s.comp.queue ∧
          s.closeBegan t b k)) ∧
    (∀ b k, s.tablesOk = true → s.fillingBuilder f.source f.day = some b →
      recordFits s.comp.codes (s.builder b) r = false → s.pickSlot none = some k →
      ∃ t, exec (.appendRecord true) s = .next t ∧
        t.builder b = { s.builder b with phase := .closing, failures := 0 } ∧ t.slotState k = .used ∧
        builderWrite b (s.builder b) k.slot ∈ t.asked k.channel) ∧
    (s.fault.general.isHeld = false →
      ∃ t, exec (.appendRecord false) s = .next t ∧ t.comp.headHeld = true ∧ t.comp.stopped = true ∧
        t.fault.general = .held s.fault.counter { kind := .filePageError, file := some (f.source, f.sequence) } ∧
        t.comp.queue = s.comp.queue ∧ t.media = s.media ∧ s.checkpointAbandoned t)

/-- R66, R67, R91: a close that begins is given a slot, or joins the wait list while one will become CLEAN, or raises
SPACE-EXHAUSTED. R61, R184: an opening without a FREE entry waits while an EXPIRED or ERASING one has its slot on an ONLINE or
DRAINING channel, and otherwise raises SPACE-EXHAUSTED; that it does not wait for such an entry on an OFFLINE channel, where
R61 names any, is the model's reading of the two rules (log 28). R4, R64, R147: what is encoded for
a builder decodes to its record under a profile that names its fields, and under no other (log 40). R68: a builder's
write that completes OK makes its entry STORED and its builder FREE, and an opening that waits for a builder then opens one for
its key (R61, R62). -/
def Obligations.WrittenSegmentIsStored : Prop :=
  (∀ (b : Nat) (s : State),
    (∀ k, s.pickSlot none = some k → s.closeBegan (beginClose b s) b k) ∧
    (s.pickSlot none = none →
      (beginClose b s).builder b = { s.builder b with phase := .closing, failures := 0 } ∧
        (beginClose b s).entry (s.builder b).entry = s.closingEntry b ∧
        (s.willBecomeClean = true →
          (beginClose b s).media.slotWait = s.media.slotWait ++ [b] ∧ (beginClose b s).fault = s.fault) ∧
        (s.willBecomeClean = false → s.cat.archive = .service → s.fault.general.isHeld = false →
          (beginClose b s).media.slotWait = s.media.slotWait ∧ (beginClose b s).comp.stopped = true ∧
            (beginClose b s).fault.general =
              .held s.fault.counter { kind := .spaceExhausted, segment := some (s.builder b).entry }))) ∧
  (∀ (b n d : Nat) (s : State), s.freeEntryNumber = none →
    (s.willBecomeFree = true → openOn b n d s = { s with comp := { s.comp with opening := some .entry } }) ∧
    (s.willBecomeFree = false → s.cat.archive = .service → s.fault.general.isHeld = false →
      (openOn b n d s).comp.opening = some .held ∧ (openOn b n d s).comp.stopped = true ∧
        (openOn b n d s).fault.general = .held s.fault.counter { kind := .spaceExhausted } ∧
        (openOn b n d s).media = s.media)) ∧
  (∀ (codes : Tbl SharedCode) (b : Builder) (r : Record) (p : Profile),
    let c := encodeRecord codes b r
    decodeRecord p (codeValue codes c.used c.dyn) c.record = (if fieldsNamed p c.record then some r else none) ∧
      (r.fitsProfile p = true → fieldsNamed p c.record = true)) ∧
  (∀ (c b : Nat) (op : Op) (s : State), s.inProgress c op = true → op.kind = .write → op.requester = .builder b →
    let stored := { s.entry (s.builder b).entry with state := .stored }
    let u := (s.setEntry (s.builder b).entry stored).setBuilder b {}
    (u.drainStands → s.comp.opening = none ∨ s.comp.opening = some .held →
      ∃ t, exec (.segmentWriteOk c) s = .next t ∧
        t.entry (s.builder b).entry = stored ∧ t.builder b = {} ∧
        (∀ e, e ≠ (s.builder b).entry → t.entry e = s.entry e) ∧ (∀ i, i ≠ b → t.builder i = s.builder i) ∧
        t.flashAt c op.slot = op.data ∧ t.ret = s.ret ∧ t.cat = s.cat) ∧
    (∀ f rest d n, s.tablesOk = true → s.cat.archive = .service → s.comp.stopped = false →
      s.comp.opening = some .builder → s.comp.queue = f :: rest → f.appended < f.toAppend →
      u.fillingBuilder f.source f.day = none → u.freeBuilder = some d → u.freeEntryNumber = some n →
      ∃ t, exec (.segmentWriteOk c) s = .next t ∧ t.entry (s.builder b).entry = stored ∧
        t.comp.opening = none ∧ t.comp.queue = s.comp.queue ∧
        t.builder d = { phase := .filling, source := f.source, day := f.day, entry := n, bytesUsed := 32,
                        lastAppend := s.second } ∧
        t.entry n = { state := .filling, source := f.source, day := f.day, payloadBytes := 32 } ∧
        (∀ i, i ≠ b → i ≠ d → t.builder i = s.builder i) ∧ t.cat = s.cat))

/-- R69, R78, R91, R97, R184: a failed write counts on its builder and its slot is DEFECTIVE; below the limit, with
compaction running, the close is given another slot at once, away from that channel where another offers one, its entry
WRITING there with its expiry day and hold mask kept, or else its entry returns to FILLING and it waits, or
SPACE-EXHAUSTED is raised; with compaction STOPPED its entry returns to FILLING; at the write retry limit the entry
returns to FILLING, the slot is DEFECTIVE and SEGMENT-WRITE-FAILED stops compaction; a builder page that fails its check as
its write starts leaves the slot CLEAN, returns the entry to FILLING, and holds the builder with compaction STOPPED. A fault that
stops compaction here abandons a checkpoint QUIESCING (R70, R170). -/
def Obligations.FailedWritesAreHeld : Prop :=
  ∀ (c b : Nat) (op : Op) (s : State), s.inProgress c op = true → op.kind = .write → op.requester = .builder b →
    s.cat.archive = .service →
    (s.comp.stopped = false → (s.builder b).failures + 1 < s.cat.params.retry →
      ∃ t, exec (.segmentWriteFail c) s = .next t ∧ (t.builder b).failures = (s.builder b).failures + 1 ∧
        (t.builder b).records = (s.builder b).records) ∧
    (s.comp.stopped = false → (s.builder b).failures + 1 < s.cat.params.retry →
      let u := s.setSlotState { channel := c, slot := op.slot } .defective
      let v := s.builder b
      let back := { s.entry v.entry with state := .filling, slot := none, crc := none, expiryDay := none, holds := [] }
      (∀ k, u.pickSlot (some c) = some k →
        ∃ t, exec (.segmentWriteFail c) s = .next t ∧ t.builder b = { v with failures := v.failures + 1 } ∧
          t.slotState { channel := c, slot := op.slot } = .defective ∧ t.slotState k = .used ∧
          t.entry v.entry = { s.entry v.entry with
            state := .writing, slot := some k, payloadBytes := v.bytesUsed, crc := some (payloadOf v).crc } ∧
          builderWrite b v k.slot ∈ t.asked k.channel ∧ t.media.slotWait = s.media.slotWait ∧ t.fault = s.fault) ∧
      (u.pickSlot (some c) = none → (u.setEntry v.entry back).willBecomeClean = true →
        ∃ t, exec (.segmentWriteFail c) s = .next t ∧ t.builder b = { v with failures := v.failures + 1 } ∧
          t.slotState { channel := c, slot := op.slot } = .defective ∧ t.entry v.entry = back ∧
          t.media.slotWait = s.media.slotWait ++ [b] ∧ t.fault = s.fault) ∧
      (u.pickSlot (some c) = none → (u.setEntry v.entry back).willBecomeClean = false → s.fault.general.isHeld = false →
        ∃ t, exec (.segmentWriteFail c) s = .next t ∧ t.builder b = { v with failures := v.failures + 1 } ∧
          t.slotState { channel := c, slot := op.slot } = .defective ∧ t.entry v.entry = back ∧
          t.media.slotWait = s.media.slotWait ∧ t.comp.stopped = true ∧ s.checkpointAbandoned t ∧
          t.fault.general = .held s.fault.counter { kind := .spaceExhausted, segment := some v.entry })) ∧
    (s.comp.stopped = true → (s.builder b).failures + 1 < s.cat.params.retry →
      ∃ t, exec (.segmentWriteFail c) s = .next t ∧
        t.builder b = { s.builder b with failures := (s.builder b).failures + 1 } ∧
        t.slotState { channel := c, slot := op.slot } = .defective ∧
        t.entry (s.builder b).entry = { s.entry (s.builder b).entry with
          state := .filling, slot := none, crc := none, expiryDay := none, holds := [] } ∧
        t.fault = s.fault ∧ t.media.slotWait = s.media.slotWait) ∧
    (s.cat.params.retry ≤ (s.builder b).failures + 1 → s.fault.media.isHeld = false →
      ∃ t, exec (.segmentWriteFail c) s = .next t ∧ (t.builder b).failures = (s.builder b).failures + 1 ∧
        t.slotState { channel := c, slot := op.slot } = .defective ∧
        t.entry (s.builder b).entry = { s.entry (s.builder b).entry with
          state := .filling, slot := none, crc := none, expiryDay := none, holds := [] } ∧
        t.comp.stopped = true ∧ s.checkpointAbandoned t ∧
        t.fault.media = .held s.fault.counter
          { kind := .segmentWriteFailed, segment := some (s.builder b).entry,
            slot := some { channel := c, slot := op.slot }, retries := (s.builder b).failures + 1 }) ∧
    (s.fault.general.isHeld = false →
      ∃ t, exec (.builderPageError c) s = .next t ∧ (t.builder b).pageHeld = true ∧
        t.slotState { channel := c, slot := op.slot } = .clean ∧
        t.entry (s.builder b).entry = { s.entry (s.builder b).entry with
          state := .filling, slot := none, crc := none, expiryDay := none, holds := [] } ∧
        t.comp.stopped = true ∧ s.checkpointAbandoned t ∧
        t.fault.general = .held s.fault.counter { kind := .builderPageError, segment := some (s.builder b).entry })

/-- R97, R99, R120: an operation that ran 2 s ends. An Eraser erase stops the Eraser with its entry and slot as they were;
a builder's write raises SEGMENT-WRITE-FAILED whatever its failures, which abandons a checkpoint QUIESCING (R170); every other
operation is handed to its requester as the same operation's FAIL. An operation whose result is discarded ends and touches nothing
beside its channel and its slot's contents, which are as log 8 says. -/
def Obligations.TimeoutsAndDiscardedEnds : Prop :=
  ∀ (c : Nat) (op : Op) (s : State), s.inProgress c op = true →
    (op.requester = .eraser → s.ranOut c → s.cat.archive = .service → s.fault.media.isHeld = false →
      ∃ t, exec (.channelTimeout c) s = .next t ∧ t.ret.eraserStopped = true ∧ t.eraseOn c = none ∧
        t.media.dir = s.media.dir ∧
        t.slotState { channel := c, slot := op.slot } = s.slotState { channel := c, slot := op.slot } ∧
        t.fault.media = .held s.fault.counter
          { kind := .eraseTimeout, segment := op.entry, slot := some { channel := c, slot := op.slot } }) ∧
    (∀ b, op.requester = .builder b → s.ranOut c → s.cat.archive = .service → s.fault.media.isHeld = false →
      ∃ t, exec (.channelTimeout c) s = .next t ∧ (t.builder b).failures = (s.builder b).failures + 1 ∧
        t.slotState { channel := c, slot := op.slot } = .defective ∧
        t.entry (s.builder b).entry = { s.entry (s.builder b).entry with
          state := .filling, slot := none, crc := none, expiryDay := none, holds := [] } ∧
        t.comp.stopped = true ∧ s.checkpointAbandoned t ∧
        t.fault.media = .held s.fault.counter
          { kind := .segmentWriteFailed, segment := some (s.builder b).entry,
            slot := some { channel := c, slot := op.slot }, retries := (s.builder b).failures + 1 }) ∧
    (s.ranOut c →
      (∀ ok, op.requester = .discarded → exec (.channelTimeout c) s = exec (.operationEndDiscarded c false) s ∧
        ∃ t, exec (.operationEndDiscarded c ok) s = .next t) ∧
      (op.requester = .audit → op.kind = .read → s.audit.job.isSome = true →
        exec (.channelTimeout c) s =
          if s.jobIs true = true then exec (.verifyReadComplete c .fail) s
          else exec (.reconcileReadComplete c .fail) s) ∧
      (∀ k, op.requester = .cursor k → op.kind = .read →
        exec (.channelTimeout c) s = exec (.cursorReadComplete c .fail []) s) ∧
      (op.requester = .load → op.kind = .catalogRead →
        exec (.channelTimeout c) s = exec (.catalogReadComplete c .fail) s) ∧
      (op.requester = .format → op.kind = .erase →
        exec (.channelTimeout c) s = exec (.formatEraseComplete c false) s) ∧
      (op.requester = .catalog → op.kind = .catalogWrite → s.cat.archive = .service → s.cat.state = .writing →
        s.cat.channel = some c → exec (.channelTimeout c) s = exec .catalogWriteFail s) ∧
      (∀ f, op.requester = .catalog → op.kind = .catalogWrite → s.cat.archive = .formatting → s.cat.format = some f →
        f.phase = .image → f.channel = c → exec (.channelTimeout c) s = exec (.formatImageWriteComplete false) s)) ∧
    (op.requester = .discarded → s.cat.load = none → s.cat.format = none → ∀ ok,
      ∃ t, exec (.operationEndDiscarded c ok) s = .next t ∧ t.media.dir = s.media.dir ∧ t.intake = s.intake ∧
        t.comp = s.comp ∧ t.ret = s.ret ∧ t.audit = s.audit ∧ t.cursors = s.cursors ∧ t.cat = s.cat ∧ t.fault = s.fault ∧
        t.media.pointer = s.media.pointer ∧ t.media.slotWait = s.media.slotWait ∧
        (∀ d, d ≠ c → t.channel d = s.channel d) ∧
        (∀ k, (t.channel c).slot k = (s.channel c).slot k) ∧ (t.channel c).setMode = (s.channel c).setMode ∧
        (∀ d k, d * 8192 + k ≠ c * 8192 + op.slot → t.flashAt d k = s.flashAt d k) ∧
        t.flashAt c op.slot = (if op.kind = .read ∨ op.kind = .catalogRead then s.flashAt c op.slot
          else if ok = true then op.data else .unknown) ∧
        ((s.channel c).outside = [] → (t.channel c).queue = (s.channel c).queue.tail))

/-! ### Channels and slots (spec/05) -/

/-- R93: SET-CHANNEL takes its mode; a channel that leaves OFFLINE has its CLEAN slots made DIRTY and no other slot
changed. R91: where the new mode leaves a CLEAN slot on an ONLINE channel, the slot wait list is served from its head. -/
def Obligations.SetChannelTakesItsMode : Prop :=
  (∀ (tag c mode : Nat) (m : ChanMode) (s : State), s.admits .a tag = true → modeOf mode = some m →
    firstRefusal (s.setChannelChecks c mode) = none →
    ∃ t, exec (.setChannel .a tag c mode) s = .next t ∧ (t.channel c).setMode = m ∧
      (s.tablesOk = true → (s.channel c).setMode = .offline → m ≠ .offline → ∀ k,
        (t.channel c).slot k = (if (s.channel c).slot k = .clean then .dirty else (s.channel c).slot k)) ∧
      (t.channel c).present = (s.channel c).present ∧ (∀ d, d ≠ c → (t.channel d).setMode = (s.channel d).setMode) ∧
      t.intake.sources = s.intake.sources ∧ t.cursors = s.cursors ∧ t.audit = s.audit) ∧
  (∀ (tag c mode b : Nat) (rest : List Nat) (m : ChanMode) (k : SlotRef) (s : State), s.admits .a tag = true →
    modeOf mode = some m → firstRefusal (s.setChannelChecks c mode) = none → m ≠ (s.channel c).setMode →
    s.tablesOk = true → s.waitsFirst b rest → (takeMode c m s).pickSlot none = some k →
    ∃ t, exec (.setChannel .a tag c mode) s = .next t ∧ s.closeServed t b k ∧
      (s.cat.state ≠ .idle → s.drainStands → t.comp.stopped = false → t.servedFromHead rest)) ∧
  (∀ (ch : Channel) (m : ChanMode) (k : Nat), Tbl.canon ch.rest ch.slots = true → ch.setMode = .offline →
    m ≠ .offline → (ch.withMode m).slot k = (if ch.slot k = .clean then .dirty else ch.slot k))

/-- R91, R95: an allocation gives a CLEAN slot of an ONLINE channel, and the channel of a failed slot only when no other
offers one; a CATALOG-WRITE joins ahead of every ordinary operation waiting, behind the one in progress. R82, R88: every step
keeps the law that a slot is USED exactly when one entry in WRITING, STORED, EXPIRED or ERASING names it. The law is stated
with what keeps it, and set aside while Format erases, when the slots have been cleared and the directory not yet (R182). -/
def Obligations.AllocationAndQueueOrder : Prop :=
  (∀ s t : State, s.tablesOk = true → s.slotMapLaw → step s = .next t → t.slotMapLaw) ∧
  (∀ (s : State) (avoid : Option Nat) (r : SlotRef), s.tablesOk = true → s.pickSlot avoid = some r →
    s.slotState r = .clean ∧ (s.channel r.channel).mode = .online ∧ r.channel < 8 ∧ r.slot < 8192 ∧
      (avoid = some r.channel → ∀ c, c < 8 → c ≠ r.channel → (s.channel c).offers = false)) ∧
  (∀ (ch : Channel) (op : Op), op.isCatalogWrite = true →
    ∃ pre post, ch.queue = pre ++ post ∧ (ch.join op).queue = pre ++ op :: post ∧
      (ch.started.isSome = true → ch.queue ≠ [] → pre ≠ []) ∧
      (∀ o ∈ pre.drop (if ch.started.isSome then 1 else 0), o.isCatalogWrite = true) ∧
      ∀ o, post.head? = some o → o.isCatalogWrite = false) ∧
  (∀ (ch : Channel) (op : Op), op.isCatalogWrite = false → (ch.join op).queue = ch.queue ++ [op])

/-! ### Retention (spec/06) -/

/-- R25, R55, R71, R102, R103: ADVANCE-DAY raises the day by one and queues a DAY sweep that its request waits on; tally
entries that the day leaves behind are closed; the close of every FILLING builder of an earlier day begins, and those that a
compaction STOPPED by one of these closes keeps from beginning are owed; and the gap records it ages are exported, as many as
the log has room for, those that an earlier ageing left before the others, and with room for all of them no source keeps an
aged record. How the records left are told is log 34. -/
def Obligations.AdvanceDayMovesTheDay : Prop :=
  ∀ (tag : Nat) (s : State), s.admits .a tag = true → s.cat.archive = .service → s.enginesUp = true →
    s.ret.today < 65535 → s.dayQueued = false → s.ret.sweeps.length < 8 →
    (∃ t, exec (.advanceDay .a tag) s = .next t ∧ t.ret.today = s.ret.today + 1 ∧ t.ret.lastSwept = s.ret.lastSwept ∧
      t.ret.sweeps = s.ret.sweeps ++
        [{ kind := .day, reqs := [{ port := .a, tag := tag, kind := 48, epoch := s.portA.epoch }] }] ∧
      t.ret.classes = s.ret.classes ∧ t.cursors = s.cursors ∧
      ∀ n d y, n < 1024 → s.tallyEntry n d = some y → y.state = .opened → d + s.lookback < s.ret.today + 1 →
        y.inFlight = 0 → t.tallyEntry n d = some { y with state := .closed }) ∧
    (s.tablesOk = true → ∀ h, s.leftFrom h → h ≤ s.ret.today + 1 - s.lookback →
      let line := s.ret.today + 1 - s.lookback
      let aged := agedFindings s.intake.sources 0 h ++ agedFindings s.intake.sources h line
      let room := min s.freePlaces (4294967296 - s.audit.next)
      ∃ t, exec (.advanceDay .a tag) s = .next t ∧
        t.audit.findings.map Finding.body = s.audit.findings.map Finding.body ++ aged.take room ∧
        t.audit.next = s.audit.next + min aged.length room ∧
        (aged.length ≤ room →
          ∀ n, t.source n = { s.source n with gaps := (s.source n).gaps.filter (fun g => !isAged line g) })) ∧
    (s.tablesOk = true → s.comp.opening = none → (∀ e ∈ s.comp.builders, e.1 < 32) →
      ∃ t, exec (.advanceDay .a tag) s = .next t ∧
        (t.comp.stopped = false → ∀ b, (s.builder b).phase = .filling → (s.builder b).day < s.ret.today + 1 →
          t.builder b = { s.builder b with phase := .closing, failures := 0 }) ∧
        (t.comp.stopped = true →
          (t.comp.closesOwed = true ↔ ∃ b, (t.builder b).phase = .filling ∧ (t.builder b).day < s.ret.today + 1))) ∧
    (∀ b v k, s.comp.opening = none → b < 32 → s.comp.builders = [(b, v)] → v.phase = .filling →
      v.day < s.ret.today + 1 → s.pickSlot none = some k →
      ∃ t, exec (.advanceDay .a tag) s = .next t ∧ s.closeBegan t b k) ∧
    (∀ b v d u, s.comp.opening = none → b < d → d < 32 → s.comp.builders = [(b, v), (d, u)] → v.phase = .filling →
      u.phase = .filling → v.day < s.ret.today + 1 → u.day < s.ret.today + 1 → s.pickSlot none = none →
      s.willBecomeClean = false → s.fault.general.isHeld = false →
      ∃ t, exec (.advanceDay .a tag) s = .next t ∧ t.builder b = { v with phase := .closing, failures := 0 } ∧
        t.builder d = u ∧ t.comp.stopped = true ∧ t.comp.closesOwed = true ∧
        t.fault.general = .held s.fault.counter { kind := .spaceExhausted, segment := some v.entry })

/-- R105, R107: SET-CLASS sets days and least days; a lengthening sets extension pending and waits on an EXTEND sweep. -/
def Obligations.SetClassKeepsLeastDays : Prop :=
  ∀ (tag c days : Nat) (s : State), s.admits .a tag = true → s.catalogOpen = true → c < 8 → 1 ≤ days → days ≤ 4000 →
    s.lookback < days →
    (days ≤ (s.retClass c).days →
      ∃ t, exec (.setClass .a tag c days) s = .next t ∧
        t.retClass c = { days := days, least := min (s.retClass c).least days, pending := (s.retClass c).pending } ∧
        (∀ k, k ≠ c → t.retClass k = s.retClass k) ∧ t.ret.sweeps = s.ret.sweeps ∧ t.ret.today = s.ret.today) ∧
    ((s.retClass c).days < days → s.ret.sweeps.length < 8 →
      ∃ t, exec (.setClass .a tag c days) s = .next t ∧
        t.retClass c = { days := days, least := min (s.retClass c).least days, pending := true } ∧
        (∀ k, k ≠ c → t.retClass k = s.retClass k) ∧ t.ret.today = s.ret.today ∧
        ∃ w ∈ t.ret.sweeps, w.kind = .extend c ∧
          { port := .a, tag := tag, kind := 49, epoch := s.portA.epoch } ∈ w.reqs)

/-- R104, R111, R112, R113, R169, R170: the DAY sweep handles one entry: a due, unpinned STORED entry is marked EXPIRED with the
number of the next snapshot, and a due one that is pinned stays STORED and is counted under the first of hold, reader and tally
that pins it; after entry 65,535, handled like the others, the sweep ends and its counts are recorded; its request waits with
them for a checkpoint, DAY-DONE with it, whatever that checkpoint has to drain, or is answered NOT-DURABLE and DAY-DONE raised:
at once where the catalog is STOPPED, the numbers are spent or compaction is STOPPED, and by a fault of the drain's own
beginning. -/
def Obligations.DaySweepMarksDueEntries : Prop :=
  ∀ (w : Sweep) (rest : List Sweep) (s : State), s.cat.archive = .service → s.ret.suspended = false →
    s.ret.sweeps = w :: rest → w.kind = .day →
    let e := s.entry w.position
    let counted : Sweep :=
      if s.due e = false then w
      else if e.holds ≠ [] then { w with held := w.held + 1 }
      else if e.readers ≠ 0 then { w with read := w.read + 1 }
      else if (s.tallyEntry e.source e.day).isSome then { w with tallied := w.tallied + 1 }
      else { w with marked := w.marked + 1 }
    let kept : DirEntry :=
      if s.due e = true ∧ e.holds = [] ∧ e.readers = 0 ∧ s.tallyEntry e.source e.day = none then
        { e with
          state := .expired, expiryCkpt := some (if s.cat.state = .writing then s.cat.last + 2 else s.cat.last + 1) }
      else e
    (s.due e = true ↔ e.state = .stored ∧ ∃ d, e.expiryDay = some d ∧ d ≤ s.ret.today) ∧
    (w.position < 65535 →
      ∃ t, exec .daySweepEntry s = .next t ∧ t.entry w.position = kept ∧
        (∀ n, n ≠ w.position → t.entry n = s.entry n) ∧
        t.ret.sweeps = { counted with position := w.position + 1 } :: rest ∧ t.cat = s.cat ∧ t.intake = s.intake) ∧
    (w.position = 65535 →
      ∃ t, exec .daySweepEntry s = .next t ∧ t.ret.sweeps = rest ∧ t.ret.lastSwept = s.ret.today ∧
        t.ret.lastDay = some { marked := counted.marked, held := counted.held, read := counted.read,
                               tallied := counted.tallied, day := s.ret.today } ∧
        s.sweepAnswered t w.reqs.head?.toList (dayBody s.ret.today counted) ∧
        (s.triggerJoins t →
          ∃ x ∈ t.cat.waiters ++ t.cat.owedWaiters, x.req = w.reqs.head? ∧ x.dayDone = some s.ret.today) ∧
        (s.triggerFails t →
          ∀ q, (t.link q).line noticeDayDone = ((s.link q).line noticeDayDone).raise s.ret.today) ∧
        ∀ n, s.triggerSpares n → t.entry n = if n = 65535 then kept else s.entry n)

/-- R61, R70, R107, R115, R116, R170, R184: the EXTEND sweep handles one entry: it raises the expiry day of a STORED or
WRITING entry of its class, reclaims an EXPIRED one whose new day lies ahead, raises the expiry day alone of one whose new day
does not, counts an ERASING one too late, and leaves an entry of another class; after entry 65,535, handled like the others,
its counts are recorded, extension pending is cleared unless another EXTEND waits for the class, and its requests wait with
the counts for a checkpoint, or are answered NOT-DURABLE where the catalog is STOPPED. An opening that waits for a directory
entry where none is left that will become FREE (log 28) is held with SPACE-EXHAUSTED, which abandons a checkpoint QUIESCING,
so that the requests are answered NOT-DURABLE. That this holds also where the fault halts the part (log 10), and that the
sweep ends before that opening is tested (log 56), are the model's. -/
def Obligations.ExtendSweepReclaims : Prop :=
  ∀ (w : Sweep) (rest : List Sweep) (c : Nat) (s : State), s.cat.archive = .service → s.ret.suspended = false →
    s.ret.sweeps = w :: rest → w.kind = .extend c →
    let e := s.entry w.position
    let new := e.day + (s.retClass c).days
    let live := e.state = .stored ∨ e.state = .writing
    let reclaimed := e.state = .expired ∧ s.ret.today < new
    let counted : Sweep :=
      if e.cls ≠ some c then w
      else if live ∧ e.expiryDay.getD 0 < new then { w with extended := w.extended + 1 }
      else if reclaimed then { w with reclaimed := w.reclaimed + 1 }
      else if e.state = .erasing then { w with tooLate := w.tooLate + 1 }
      else w
    let kept : DirEntry :=
      if e.cls ≠ some c then e
      else if reclaimed then { e with state := .stored, expiryDay := some new, expiryCkpt := none }
      else if (live ∨ e.state = .expired) ∧ e.expiryDay.getD 0 < new then { e with expiryDay := some new }
      else e
    (w.position < 65535 →
      ∃ t, exec .extendSweepEntry s = .next t ∧ t.entry w.position = kept ∧
        (∀ n, n ≠ w.position → t.entry n = s.entry n) ∧ (kept = e → t.media = s.media) ∧
        t.ret.sweeps = { counted with position := w.position + 1 } :: rest ∧ t.ret.classes = s.ret.classes ∧
        s.openingTested t ∧ (¬ s.openingStarves t → t.cat = s.cat)) ∧
    (w.position = 65535 →
      ∃ t, exec .extendSweepEntry s = .next t ∧ t.ret.sweeps = rest ∧
        t.ret.lastExtend = some { extended := counted.extended, reclaimed := counted.reclaimed,
                                  tooLate := counted.tooLate, cls := c } ∧
        t.retClass c = { s.retClass c with pending := extendQueued c rest && (s.retClass c).pending } ∧
        (∀ k, k ≠ c → t.retClass k = s.retClass k) ∧ t.ret.today = s.ret.today ∧
        s.reclaimAnswered t w.reqs (extendBody counted) ∧
        (s.triggerSpares 65535 → kept.state ≠ .expired → t.entry 65535 = kept))

/-- R118, R119: the end of an Eraser erase makes its slot CLEAN or DEFECTIVE, and an ERASING entry FREE. What the slot then
holds, a failed erase's contents not described, is the model's (log 8). R67, R91: the closes of the slot wait list are then given
the slots there are, from its head; in HALTED, or with compaction STOPPED, none is given; and with no slot left and none to come,
SPACE-EXHAUSTED is raised for the close at the head, which leaves the list. R61: an opening that waits for a directory entry
takes one; that the wait list is tested before it is the model's choice (log 58). R112, R114, R117, R120: on a channel that is not
OFFLINE and has no erase of its in flight the Eraser erases first the lowest entry left ERASING, then the lowest EXPIRED entry
whose expiry checkpoint has completed and whose class has no extension pending, which becomes ERASING, and then a DIRTY slot;
in no other case, and in no step of an archive that is loaded, does an entry become ERASING. -/
def Obligations.EraseFreesItsEntry : Prop :=
  (∀ (c : Nat) (op : Op) (ok : Bool) (s : State), s.inProgress c op = true → op.kind = .erase →
    op.requester = .eraser → s.media.slotWait = [] → s.comp.opening = none ∨ s.comp.opening = some .held →
    s.drainStands →
    (∀ e, op.entry = some e →
      ∃ t, exec (.entryEraseComplete c ok) s = .next t ∧ t.entry e = {} ∧
        t.slotState { channel := c, slot := op.slot } = (if ok then .clean else .defective) ∧
        t.flashAt c op.slot = (if ok then op.data else .unknown) ∧ t.audit = s.audit ∧ t.cat = s.cat) ∧
    (op.entry = none →
      ∃ t, exec (.dirtySlotEraseComplete c ok) s = .next t ∧
        t.slotState { channel := c, slot := op.slot } = (if ok then .clean else .defective) ∧
        t.flashAt c op.slot = (if ok then op.data else .unknown) ∧ t.audit = s.audit ∧ t.cat = s.cat ∧
        t.intake.sources = s.intake.sources)) ∧
  (∀ (c b : Nat) (rest : List Nat) (op : Op) (ok : Bool) (s : State), s.inProgress c op = true → op.kind = .erase →
    op.requester = .eraser → s.tablesOk = true → s.waitsFirst b rest → op.entry ≠ some (s.builder b).entry →
    let u := s.erased c op ok
    let entryFreed := fun (t : State) => ∀ e, op.entry = some e → t.entry e = {}
    let opens := s.comp.opening ≠ none ∧ s.comp.opening ≠ some .held
    (∀ k, s.cat.archive = .service → s.comp.stopped = false → u.pickSlot none = some k →
      ∃ t, exec (eraseEnd c op ok) s = .next t ∧ s.closeServed t b k ∧
        (s.drainStands → t.comp.stopped = false → t.servedFromHead rest)) ∧
    (s.cat.archive ≠ .service ∨ s.comp.stopped = true ∧ u.pickSlot none ≠ none →
      ∃ t, exec (eraseEnd c op ok) s = .next t ∧ t.slotState { channel := c, slot := op.slot } =
          (if ok then .clean else .defective) ∧ entryFreed t ∧ t.media.slotWait = s.media.slotWait ∧
        t.media.pointer = s.media.pointer ∧ t.comp.builders = s.comp.builders ∧ t.fault = s.fault ∧ t.cat = s.cat) ∧
    (s.cat.archive = .service → u.pickSlot none = none → u.willBecomeClean = true → ¬ opens → s.drainStands →
      ∃ t, exec (eraseEnd c op ok) s = .next t ∧ t.slotState { channel := c, slot := op.slot } =
          (if ok then .clean else .defective) ∧ entryFreed t ∧ t.media.slotWait = s.media.slotWait ∧
        t.fault = s.fault ∧ t.cat = s.cat) ∧
    (s.cat.archive = .service → u.pickSlot none = none → u.willBecomeClean = false → s.fault.general.isHeld = false →
      ∃ t, exec (eraseEnd c op ok) s = .next t ∧ t.slotState { channel := c, slot := op.slot } =
          (if ok then .clean else .defective) ∧ entryFreed t ∧ t.media.slotWait = rest ∧ t.comp.stopped = true ∧
        t.comp.opening = s.comp.opening ∧ t.comp.builders = s.comp.builders ∧ s.checkpointAbandoned t ∧
        t.fault.general =
          .held s.fault.counter { kind := .spaceExhausted, segment := some (s.builder b).entry })) ∧
  (∀ (c e d n : Nat) (f : QueuedFile) (rest : List QueuedFile) (op : Op) (ok : Bool) (s : State),
    s.inProgress c op = true → op.kind = .erase → op.requester = .eraser → op.entry = some e → s.tablesOk = true →
    s.cat.archive = .service → s.comp.stopped = false → s.media.slotWait = [] → s.comp.opening = some .entry →
    s.comp.queue = f :: rest → f.appended < f.toAppend → s.fillingBuilder f.source f.day = none →
    s.freeBuilder = some d → (s.erased c op ok).freeEntryNumber = some n →
    ∃ t, exec (.entryEraseComplete c ok) s = .next t ∧ t.comp.opening = none ∧ t.comp.queue = s.comp.queue ∧
      t.builder d = { phase := .filling, source := f.source, day := f.day, entry := n, bytesUsed := 32,
                      lastAppend := s.second } ∧
      t.entry n = { state := .filling, source := f.source, day := f.day, payloadBytes := 32 } ∧
      (n ≠ e → t.entry e = {}) ∧ (∀ i, i ≠ d → t.builder i = s.builder i) ∧ t.cat = s.cat) ∧
  (∀ (c : Nat) (s : State), s.tablesOk = true →
    let t := eraserWork c s
    let free := (s.channel c).mode ≠ .offline ∧ s.eraseOn c = none
    (∀ e k v, free → v = s.entry e → v.slot = some { channel := c, slot := k } →
      (s.lowestOn c e (fun v => v.state = .erasing) ∨
        (∀ n, n < 65536 → ∀ j, (s.entry n).slot = some { channel := c, slot := j } → (s.entry n).state ≠ .erasing) ∧
          s.lowestOn c e s.mayErase) →
      t.eraseBegun c k (some e) ∧ t.entry e = { v with state := .erasing } ∧
        (∀ n, n ≠ e → t.entry n = s.entry n) ∧ ∀ r, t.slotState r = s.slotState r) ∧
    ((∀ n, n < 65536 → ∀ j, (s.entry n).slot = some { channel := c, slot := j } →
        (s.entry n).state ≠ .erasing ∧ ¬ s.mayErase (s.entry n)) →
      t.media.dir = s.media.dir ∧
        (∀ k, free → (s.channel c).lowest .dirty = some k →
          k < 8192 ∧ s.slotState { channel := c, slot := k } = .dirty ∧ t.eraseBegun c k none ∧
            ∀ r, t.slotState r = s.slotState r) ∧
        ((s.channel c).lowest .dirty = none → t = s)) ∧
    (¬ free → t = s) ∧
    (s.cat.archive ≠ .service ∨ s.ret.eraserStopped = true → lookForWork s = s)) ∧
  (∀ (e : Nat) (s t : State), s.tablesOk = true → s.cat.load = none → step s = .next t → (t.entry e).state = .erasing →
    (s.entry e).state = .erasing ∨
      (s.entry e).state = .expired ∧ (∃ n, (s.entry e).expiryCkpt = some n ∧ n ≤ t.cat.last) ∧
        (t.retClass ((s.entry e).cls.getD 0)).pending = false)

/-! ### Holds (spec/07) -/

/-- R124, R127, R128, R129, R134: what each hold request makes of its hold, with HOLD-CHANGED raised on both ports and
every other hold left as it was. -/
def Obligations.HoldRequestsChangeTheirHold : Prop :=
  ∀ (p : Port) (tag h : Nat) (s : State), s.admits p tag = true → s.catalogOpen = true → h < 16 →
    let told := fun (t : State) => ∀ q, (t.link q).line noticeHoldChanged = ((s.link q).line noticeHoldChanged).raise h
    (∀ c note, scopeOk c = true → s.emptyHold = some h →
      ∃ t, exec (.createHold p tag c note) s = .next t ∧
        t.hold h = { state := .draft, owner := p, scope := c, note := note } ∧
        (∀ k, k ≠ h → t.hold k = s.hold k) ∧ told t ∧ t.audit = s.audit ∧ t.cursors = s.cursors) ∧
    (∀ c note, scopeOk c = true → (s.hold h).state = .draft → (s.hold h).owner = p →
      ∃ t, exec (.editHold p tag h c note) s = .next t ∧ t.hold h = { s.hold h with scope := c, note := note } ∧
        (∀ k, k ≠ h → t.hold k = s.hold k) ∧ told t ∧ t.audit = s.audit ∧ t.cursors = s.cursors) ∧
    ((s.hold h).state = .draft → (s.hold h).owner = p →
      ∃ t, exec (.discardHold p tag h) s = .next t ∧ t.hold h = {} ∧
        (∀ k, k ≠ h → t.hold k = s.hold k) ∧ told t ∧ t.audit = s.audit ∧ t.cursors = s.cursors) ∧
    ((s.hold h).state = .draft → (s.hold h).owner = p → s.ret.sweeps.length < 8 →
      ∃ t, exec (.activateHold p tag h) s = .next t ∧ (t.hold h).state = .applying ∧
        (t.hold h).scope = (s.hold h).scope ∧ (∀ k, k ≠ h → t.hold k = s.hold k) ∧ told t ∧
        t.ret.sweeps = s.ret.sweeps ++
          [{ kind := .apply h, reqs := [{ port := p, tag := tag, kind := 59, epoch := (s.link p).epoch }] }]) ∧
    ((s.hold h).state = .active → (p = .b ∨ (s.hold h).owner = .a) → s.ret.sweeps.length < 8 →
      ∃ t, exec (.releaseHold p tag h) s = .next t ∧ t.hold h = { s.hold h with state := .releasing } ∧
        (∀ k, k ≠ h → t.hold k = s.hold k) ∧ told t ∧
        t.ret.sweeps = s.ret.sweeps ++
          [{ kind := .release h, reqs := [{ port := p, tag := tag, kind := 60, epoch := (s.link p).epoch }] }])

/-- R61, R70, R125, R130, R132, R135, R170, R184: the APPLY sweep handles one entry: it marks what its hold covers, reclaims
an EXPIRED entry and counts an ERASING one lost; after entry 65,535, handled like the others, its hold becomes ACTIVE, at once
where none was lost and otherwise with its HOLD-LOSS finding, or waits SUSPENDED for a place of the log, where the finding is
written when there is one. The RELEASE sweep clears the mark, and after entry 65,535 its hold is EMPTY. Both ends raise
HOLD-CHANGED on both ports, and their requests wait with the counts for a checkpoint, or are answered NOT-DURABLE where the
catalog is STOPPED. Once APPLY has handled an entry, an opening that waits for a directory entry where none is left that will
become FREE (log 28) is held with SPACE-EXHAUSTED, which abandons a checkpoint QUIESCING, so that the requests of a run ended
are answered NOT-DURABLE. That this holds also where the fault halts the part (log 10), and that the run ends before that
opening is tested (log 56), are the model's. -/
def Obligations.HoldSweepsMarkAndRelease : Prop :=
  ∀ (w : Sweep) (rest : List Sweep) (h : Nat) (s : State), s.cat.archive = .service → s.ret.sweeps = w :: rest →
    (∀ v, rest.head? = some v → v.kind ≠ .apply h) →
    let told := fun (t : State) => ∀ q, (t.link q).line noticeHoldChanged = ((s.link q).line noticeHoldChanged).raise h
    let ended := fun (t : State) => t.ret.sweeps = rest ∧ t.ret.suspended = false ∧ told t
    let lossOf := fun (v : Hold) =>
      ({ number := s.audit.next, recorded := s.ret.today, body := holdLossFinding h v } : Finding)
    let settled := s.triggerSpares 65535
    let e := s.entry w.position
    let v := s.hold h
    (w.kind = .apply h → s.ret.suspended = false →
      let covered := v.scope.firstSource ≤ e.source ∧ e.source ≤ v.scope.lastSource ∧
        v.scope.firstDay ≤ e.day ∧ e.day ≤ v.scope.lastDay
      let live := e.state = .stored ∨ e.state = .writing
      let counted : Hold :=
        if ¬covered then v
        else if live then { v with marked := v.marked + 1 }
        else if e.state = .expired then { v with marked := v.marked + 1, reclaimed := v.reclaimed + 1 }
        else if e.state = .erasing then
          { v with
            lost := v.lost + 1
            firstLost := v.firstLost.or (some { entry := w.position, source := e.source, day := e.day }) }
        else v
      let kept : DirEntry :=
        if ¬covered then e
        else if live then withMark h e
        else if e.state = .expired then { withMark h e with state := .stored, expiryCkpt := none }
        else e
      (w.position < 65535 →
        ∃ t, exec .applySweepEntry s = .next t ∧ t.ret.sweeps = { w with position := w.position + 1 } :: rest ∧
          t.entry w.position = kept ∧ (∀ n, n ≠ w.position → t.entry n = s.entry n) ∧ t.hold h = counted ∧
          t.audit = s.audit ∧ s.openingTested t ∧ (¬ s.openingStarves t → t.cat = s.cat)) ∧
      (w.position = 65535 →
        (counted.lost = 0 →
          ∃ t, exec .applySweepEntry s = .next t ∧ ended t ∧ s.reclaimAnswered t w.reqs (applyBody h counted) ∧
            t.hold h = { counted with state := .active } ∧
            t.audit = s.audit ∧ (settled → t.entry 65535 = kept)) ∧
        (counted.lost ≠ 0 → 0 < s.freePlaces →
          ∃ t, exec .applySweepEntry s = .next t ∧ ended t ∧ s.reclaimAnswered t w.reqs (applyBody h counted) ∧
            t.hold h = { counted with state := .active } ∧
            t.audit = { s.audit with findings := s.audit.findings ++ [lossOf counted], next := s.audit.next + 1 } ∧
            (settled → t.entry 65535 = kept)) ∧
        (counted.lost ≠ 0 → s.freePlaces = 0 →
          ∃ t, exec .applySweepEntry s = .next t ∧ t.hold h = counted ∧ t.ret.suspended = true ∧
            t.ret.sweeps = s.ret.sweeps ∧ t.audit = s.audit ∧ t.entry 65535 = kept ∧ s.openingTested t ∧
            ∀ q, (t.link q).line noticeHoldChanged = (s.link q).line noticeHoldChanged))) ∧
    (w.kind = .apply h → s.ret.suspended = true → v.lost ≠ 0 → 0 < s.freePlaces →
      ∃ t, exec .holdLoss s = .next t ∧ ended t ∧ s.sweepAnswered t w.reqs (applyBody h v) ∧
        t.hold h = { v with state := .active } ∧
        t.audit = { s.audit with findings := s.audit.findings ++ [lossOf v], next := s.audit.next + 1 }) ∧
    (w.kind = .release h → s.ret.suspended = false →
      let marked := e.holds.contains h = true
      let kept : DirEntry := if marked then { e with holds := e.holds.filter (fun k => k != h) } else e
      (w.position < 65535 →
        ∃ t, exec .releaseSweepEntry s = .next t ∧ t.entry w.position = kept ∧
          (∀ n, n ≠ w.position → t.entry n = s.entry n) ∧ t.ret.holds = s.ret.holds ∧
          t.ret.sweeps =
            { w with cleared := w.cleared + (if marked then 1 else 0), position := w.position + 1 } :: rest) ∧
      (w.position = 65535 →
        ∃ t, exec .releaseSweepEntry s = .next t ∧
          ended t ∧ s.sweepAnswered t w.reqs (be 1 h ++ count4 (w.cleared + (if marked then 1 else 0))) ∧
          t.hold h = {} ∧ t.audit = s.audit ∧
          (settled → t.entry 65535 = kept)))

/-! ### Findings and audit jobs (spec/08) -/

/-- R26, R142: ACK-FINDINGS removes every finding at or below its number and keeps every other; where it removed one, and
no sweep or job takes the room first, it is followed by the oldest record of every flagged source, each flag cleared, and
then by the aged records, those that an earlier ageing left before the others (log 34). -/
def Obligations.AcknowledgedFindingsLeave : Prop :=
  ∀ (tag through : Nat) (o : AckOrder) (s : State), s.admits .b tag = true → s.cat.archive = .service →
    s.cat.state ≠ .stopped → s.cat.last < 4294967295 → through < s.audit.next →
    (∃ t, exec (.ackFindings .b tag through o) s = .next t ∧ (∀ f ∈ t.audit.findings, through < f.number) ∧
      (∀ f ∈ s.audit.findings, through < f.number → f ∈ t.audit.findings) ∧ s.audit.next ≤ t.audit.next) ∧
    (s.tablesOk = true → s.ret.suspended = false → s.audit.job = none → (∃ f ∈ s.audit.findings, f.number ≤ through) →
      ∀ h, s.leftFrom h → h ≤ s.ageLine →
      let left := s.audit.findings.filter (fun f => decide (through < f.number))
      let calm := s.intake.sources.map (fun e => (e.1, unflagged e.2))
      let gone := flaggedFindings s.intake.sources ++ agedFindings calm 0 h ++ agedFindings calm h s.ageLine
      gone.length < min (512 - left.length) (4294967296 - s.audit.next) →
      ∃ t, exec (.ackFindings .b tag through o) s = .next t ∧
        t.audit.findings.map Finding.body = left.map Finding.body ++ gone ∧
        t.audit.next = s.audit.next + gone.length ∧
        ∀ n, t.source n = { unflagged (s.source n) with
          gaps := (unflagged (s.source n)).gaps.filter (fun g => !isAged s.ageLine g) })

/-- R144, R145, R146, R148, R152, R153: a VERIFY takes up the first STORED entry of its range, or ends at once; a RECONCILE
with no key ends at once and otherwise reads the first segment of its first key; CANCEL-AUDIT ends the job in hand. The
presence byte before a summary's position is the model's choice (log 22), as is that the summary of a cancelled job keeps the
reads made of what gets no outcome (log 62), and that a read is in flight from its asking (log 63). -/
def Obligations.AuditJobsStartAndEnd : Prop :=
  ∀ (tag : Nat) (s : State), s.admits .b tag = true → s.cat.archive = .service →
    (∀ a b, a ≤ b → s.audit.job = none →
      (∀ e, Tbl.nextFrom (fun _ v => decide (v.state = .stored)) false (b + 1) a s.media.dir = some e →
        s.readable e = true →
        ∃ t, exec (.verify .b tag a b) s = .next t ∧ (t.entry e).readers = (s.entry e).readers + 1 ∧
          t.audit.job = some { kind := .verify a b, position := some e, inHand := some e, reading := true,
                               skipped := e - a, req := { port := .b, tag := tag, kind := 66, epoch := s.portB.epoch } } ∧
          t.audit.findings = s.audit.findings ∧ t.intake = s.intake) ∧
      (Tbl.nextFrom (fun _ v => decide (v.state = .stored)) false (b + 1) a s.media.dir = none →
        ∃ t, exec (.verify .b tag a b) s = .next t ∧ t.audit = { s.audit with buffer := none } ∧ t.media = s.media ∧
          t.replied .b (replyTo tag 66 .ok
            (be 2 a ++ be 2 b ++ [1#8] ++ be 2 b ++ count4 0 ++ count4 0 ++ count4 (b + 1 - a) ++ count4 0)) = true)) ∧
    (s.audit.job = none → s.intake.tally = [] →
      ∃ t, exec (.reconcile .b tag) s = .next t ∧ t.audit = { s.audit with buffer := none } ∧ t.media = s.media ∧
        t.replied .b (replyTo tag 67 .ok
          ([0#8] ++ count4 0 ++ count4 0 ++ count4 0 ++ count4 0 ++ count4 0 ++ count4 0)) = true) ∧
    (∀ i y rest e, s.audit.job = none → s.intake.tally = (i, y) :: rest → i < 67108864 → y.state = .closed →
      s.keyBusy i = false →
      Tbl.nextFrom (fun _ v => hasKey i v && decide (v.state = .stored)) false 65536 0 s.media.dir = some e →
      s.readable e = true →
      ∃ t, exec (.reconcile .b tag) s = .next t ∧ (t.entry e).readers = (s.entry e).readers + 1 ∧
        t.intake = s.intake ∧ ∃ j, t.audit.job = some j ∧ j.position = some i ∧ j.inHand = some e ∧ j.reading = true) ∧
    (∀ j, s.audit.job = some j →
      ∃ t, exec (.cancelAudit .b tag) s = .next t ∧ t.audit = { s.audit with job := none, buffer := none } ∧
        t.replied .b (replyTo tag 68 .ok []) = true ∧
        (s.isLive j.req = true → t.replied j.req.port (replyTo j.req.tag j.req.kind .cancelled (jobSummary j)) = true) ∧
        (∀ e, j.inHand = some e → (t.entry e).readers = (s.entry e).readers - 1) ∧ t.intake = s.intake)

/-- R147, R149, R150, R151: a segment whose check agrees and whose records all decode is GOOD, and any other, one whose read
fails among them, is BAD with its finding; the records of a segment whose check agrees count for its key, and of any other
none does, the bad reads rising by one; a key whose records all count leaves the tally, and one whose records differ leaves it
with its finding, or stays while the log has no place; a suspended job keeps what it has read, and writes its finding when a
place is free, which marks the entry or removes the key. The model's choices: the next segment's read counts as in flight from
its asking, started or not (log 63), and the finding of a segment whose entry has no span has no range (log 47). -/
def Obligations.AuditReadsAreJudged : Prop :=
  (∀ (c e : Nat) (op : Op) (j : Job) (got : ReadResult) (p : Option Payload) (s : State),
    s.audit.job = some j → j.inHand = some e → s.inProgress c op = true → op.kind = .read → op.requester = .audit →
    (got = .fail ∧ p = none ∨ ∃ q, got = .delivered q ∧ p = some q) →
    let agrees := p.any (fun q => decide ((s.entry e).crc = some q.crc))
    let decoded := s.decoded e p
    (p = none → decoded = 0) ∧
    (∀ a b, j.kind = .verify a b → j.position = some e →
      (agrees = true → decoded = (s.entry e).recordCount →
        ∃ t, exec (.verifyReadComplete c got) s = .next t ∧ (t.entry e).verify = .good ∧
          (t.entry e).verifyDay = some s.ret.today ∧ (t.entry e).readers = (s.entry e).readers - 1) ∧
      (agrees = false ∨ decoded ≠ (s.entry e).recordCount → 0 < s.freePlaces →
        ∃ t, exec (.verifyReadComplete c got) s = .next t ∧ (t.entry e).verify = .bad ∧
          (t.entry e).verifyDay = some s.ret.today ∧ (t.entry e).readers = (s.entry e).readers - 1 ∧
          ({ number := s.audit.next, recorded := s.ret.today, body := segmentBad e (s.entry e) decoded } : Finding) ∈
            t.audit.findings) ∧
      (agrees = false ∨ decoded ≠ (s.entry e).recordCount → s.freePlaces = 0 → j.owed = none →
        ∃ t, exec (.verifyReadComplete c got) s = .next t ∧ t.media.dir = s.media.dir ∧
          t.audit.findings = s.audit.findings ∧ t.audit.buffer = p ∧
          t.audit.job = some { j with
            failed := if p = none then j.failed + 1 else j.failed
            owed := some (segmentBad e (s.entry e) decoded), reading := false })) ∧
    (∀ i y, j.kind = .reconcile → j.counting = true → j.position = some i → j.owed = none → s.cat.archive = .service →
      s.tallyEntry (tallySource i) (tallyDay i) = some y →
      let counted := j.counted + (if agrees then decoded else 0)
      let read : Job := { j with
        inHand := none, reading := false, lastRead := some e, segmentsRead := j.segmentsRead + 1, counted := counted
        badReads := if agrees then j.badReads else j.badReads + 1 }
      (∀ n, Tbl.nextFrom (fun _ v => hasKey i v && decide (v.state = .stored)) false 65536 (e + 1) s.media.dir = some n →
        s.readable n = true →
        ∃ t, exec (.reconcileReadComplete c got) s = .next t ∧ t.intake.tally = s.intake.tally ∧
          t.audit.findings = s.audit.findings ∧ t.audit.job = some { read with inHand := some n, reading := true }) ∧
      (Tbl.nextFrom (fun _ v => hasKey i v && decide (v.state = .stored)) false 65536 (e + 1) s.media.dir = none →
        (counted = y.recordsAccepted →
          ∃ t, exec (.reconcileReadComplete c got) s = .next t ∧
            t.tallyEntry (tallySource i) (tallyDay i) = none ∧ (t.entry e).crc = (s.entry e).crc) ∧
        (counted ≠ y.recordsAccepted → 0 < s.freePlaces →
          ∃ t, exec (.reconcileReadComplete c got) s = .next t ∧
            t.tallyEntry (tallySource i) (tallyDay i) = none ∧
            ({ number := s.audit.next, recorded := s.ret.today,
               body := tallyMismatch i y.recordsAccepted counted } : Finding) ∈ t.audit.findings) ∧
        (counted ≠ y.recordsAccepted → s.freePlaces = 0 →
          ∃ t, exec (.reconcileReadComplete c got) s = .next t ∧ t.intake.tally = s.intake.tally ∧
            t.audit.findings = s.audit.findings ∧ (t.entry e).readers = (s.entry e).readers - 1 ∧
            t.audit.job = some { read with owed := some (tallyMismatch i y.recordsAccepted counted) })))) ∧
  (∀ (e a b : Nat) (j : Job) (body : FindingBody) (s : State), s.audit.job = some j → j.inHand = some e →
    j.kind = .verify a b → j.position = some e → j.owed = some body → s.cat.archive = .service → 0 < s.freePlaces →
    ∃ t, exec .auditFindingResumed s = .next t ∧ (t.entry e).verify = .bad ∧
      ({ number := s.audit.next, recorded := s.ret.today, body := body } : Finding) ∈ t.audit.findings) ∧
  (∀ (i : Nat) (j : Job) (body : FindingBody) (s : State), s.audit.job = some j → j.kind = .reconcile →
    j.position = some i → j.owed = some body → s.cat.archive = .service → 0 < s.freePlaces →
    ∃ t, exec .auditFindingResumed s = .next t ∧ t.tallyEntry (tallySource i) (tallyDay i) = none ∧
      ({ number := s.audit.next, recorded := s.ret.today, body := body } : Finding) ∈ t.audit.findings)

/-! ### Cursors (spec/09) -/

/-- R158, R162, R163, R164, R165: what opening, moving, turning, closing and reading a cursor makes of it, with every other
cursor left as it was; the idle close runs in HALTED too (R191). The layout of the READ-CURSOR reply, its state byte, the codes
of the latch and its presence bytes are the model's (log 22). That a READ-RECORDS is outstanding until its reply is produced,
so that SEEK, SET-DIRECTION and the idle close are barred no longer, and which requests set the last use, are log 25. -/
def Obligations.CursorRequestsMoveTheirCursor : Prop :=
  ∀ (p : Port) (tag c : Nat) (s : State), c < 4 →
    ((s.cursor c).isOpen = true → (s.cursor c).reading = none → (s.cursor c).lastUse + 120 ≤ s.second →
      ∃ t, exec (.cursorIdleClose c) s = .next t ∧ t.cursor c = {} ∧
        (t.link (s.cursor c).owner).line noticeCursorClosed =
          ((s.link (s.cursor c).owner).line noticeCursorClosed).raise c ∧ ∀ k, k ≠ c → t.cursor k = s.cursor k) ∧
    (s.cat.archive = .service →
      (∀ n a b f d, s.admits p tag = true → n < 1024 → a ≤ b → (∀ x, f = some x → filterOk x = true) →
        s.freeCursorNumber = some c →
        ∃ t, exec (.openCursor p tag n a b f (directionCode d)) s = .next t ∧ (t.cursor c).isOpen = true ∧
          (t.cursor c).filter = f.map filterOf ∧
          (t.cursor c).owner = p ∧ (t.cursor c).source = n ∧ (t.cursor c).firstDay = a ∧ (t.cursor c).lastDay = b ∧
          (t.cursor c).direction = d ∧ (t.cursor c).position = none ∧
          t.replied p (replyTo tag 72 .ok (be 1 c)) = true ∧ ∀ k, k ≠ c → t.cursor k = s.cursor k) ∧
      (∀ n a b x d, s.admits p tag = true → filterOk x = false →
        ∃ t, exec (.openCursor p tag n a b (some x) d) s = .next t ∧ t.beside = s.beside ∧
          t.replied p (replyTo tag 72 .badField []) = true) ∧
      (∀ v, s.admits p tag = true → (s.cursor c).isOpen = true → (s.cursor c).owner = p → (s.cursor c).reading = none →
        targetKnown v = true → s.seekOk c v = true →
        ∃ t, exec (.seek p tag c v) s = .next t ∧ (t.cursor c).position = none ∧
          (t.cursor c).seekPoint = s.seekPointOf v ∧ t.replied p (replyTo tag 73 .ok []) = true ∧
          ∀ k, k ≠ c → t.cursor k = s.cursor k) ∧
      (∀ d, s.admits p tag = true → (s.cursor c).isOpen = true → (s.cursor c).owner = p → (s.cursor c).reading = none →
        ∃ t, exec (.setDirection p tag c (directionCode d)) s = .next t ∧ (t.cursor c).direction = d ∧
          (t.cursor c).position = (s.cursor c).position ∧ t.replied p (replyTo tag 74 .ok []) = true ∧
          ∀ k, k ≠ c → t.cursor k = s.cursor k) ∧
      (s.admits p tag = true → (s.cursor c).isOpen = true → (s.cursor c).owner = p →
        ∃ t, exec (.closeCursor p tag c) s = .next t ∧ t.cursor c = {} ∧ t.replied p (replyTo tag 76 .ok []) = true ∧
          ∀ k, k ≠ c → t.cursor k = s.cursor k) ∧
      (s.admits p tag = true →
        ∃ t, exec (.readCursor p tag c) s = .next t ∧
          t.replied p (replyTo tag 77 .ok (cursorBody s.second (s.cursor c))) = true ∧
          t.cursor c = (if (s.cursor c).isOpen = true ∧ (s.cursor c).owner = p then { s.cursor c with lastUse := s.second }
            else s.cursor c) ∧ (∀ k, k ≠ c → t.cursor k = s.cursor k) ∧ t.media = s.media))

/-- R159, R161: a READ-RECORDS takes the record the latch holds, answers END at the end of the walk, and waits while the
latch loads; a read that agrees makes the latch READY with the first matching record whose pages do not fail (log 7). That
the request is no longer outstanding, and the last use set, as its reply is produced is log 25. -/
def Obligations.CursorRecordsAreGathered : Prop :=
  ∀ (c : Nat) (s : State), c < 4 → (s.cursor c).isOpen = true → (s.cursor c).reading = none →
    (∀ p tag, s.admits p tag = true → s.cat.archive = .service → (s.cursor c).owner = p →
      (∀ pl r, (s.cursor c).latch = .ready pl r →
        ∃ t, exec (.readRecords p tag c 1) s = .next t ∧ (t.cursor c).position = some pl ∧ (t.cursor c).reading = none ∧
          t.replied p (replyTo tag 75 .ok (recordsBody (s.cursor c) [{ place := pl, record := r }])) = true) ∧
      (∀ n, 1 ≤ n → n ≤ 16 → (s.cursor c).latch = .atEnd →
        ∃ t, exec (.readRecords p tag c n) s = .next t ∧
          t.cursor c = { s.cursor c with notStored := 0, bad := 0, unreadable := 0, lastUse := s.second } ∧
          t.replied p (replyTo tag 75 .endOfWalk (recordsBody (s.cursor c) [])) = true) ∧
      (∀ n, 1 ≤ n → n ≤ 16 → (s.cursor c).latch = .loading →
        ∃ t, exec (.readRecords p tag c n) s = .next t ∧ t.waits p tag 75 = true ∧
          t.cursor c = { s.cursor c with
            lastUse := s.second
            reading := some { req := { port := p, tag := tag, kind := 75, epoch := (s.link p).epoch },
                              count := n, got := [] } })) ∧
    (∀ ch op e pay bad i r, s.inProgress ch op = true → op.kind = .read → op.requester = .cursor c →
      (s.cursor c).held = some e → (s.entry e).crc = some pay.crc →
      let copy : SegmentCopy := { payload := pay, bad := bad }
      decodeAlong (s.cursor c).filter (decodePayload s.cat.profile s.comp.codes (s.entry e) pay) copy.failing
        ((s.cursor c).indexes (s.entry e).day e (s.entry e).recordCount) = .found i r →
      ∃ t, exec (.cursorReadComplete ch (.delivered pay) bad) s = .next t ∧
        t.cursor c = { s.cursor c with
          copy := some copy.used, latch := .ready { day := (s.entry e).day, entry := e, index := i } r } ∧
        t.media.dir = s.media.dir)

/-! ### Checkpoints, loads and Format (spec/10) -/

/-- R45, R70, R72, R170, R171, R174: a checkpoint with nothing to drain takes its snapshot at once, numbered one above the last
completed, and its eight shares are asked. One that finds a file queued or a builder in use is QUIESCING while the drain runs:
the queued files are appended, and with none left the close of every FILLING builder begins; where neither a close nor an
opening can begin it changes nothing. After each append and each segment write completed OK the drain goes on, and once the queue
is empty and every builder is FREE the snapshot is taken; a fault that stops compaction abandons the checkpoint, its waiters
answered NOT-DURABLE. While a checkpoint is QUIESCING or WRITING no closing file reaches acceptance. -/
def Obligations.CheckpointTakesItsSnapshot : Prop :=
  (∀ (tag : Nat) (s : State), s.admits .a tag = true → s.catalogOpen = true → s.cat.state = .idle →
    let r : ReqRef := { port := .a, tag := tag, kind := 80, epoch := s.portA.epoch }
    let ws : List Waiter := [{ req := some r, number := true }]
    let started := { s.cat with state := .quiescing, waiters := ws }
    (s.comp.queue = [] → s.comp.builders = [] → s.comp.opening = none →
      ∃ t img, exec (.checkpoint .a tag) s = .next t ∧ t.cat.state = .writing ∧ t.cat.buffer = some img ∧
        img.number = s.cat.last + 1 ∧ img.today = s.ret.today ∧ img.classes = s.ret.classes ∧
        img.sources = s.intake.sources ∧ img.holds = s.ret.holds ∧ img.findings = s.audit.findings ∧
        img.nextFinding = s.audit.next ∧ img.params = s.cat.params ∧ img.profile = s.cat.profile ∧
        t.cat.last = s.cat.last ∧ t.cat.newer = s.cat.newer ∧ t.awaitsCheckpoint r = true ∧
        (t.asked (s.cat.channel.getD 0)).countP isShareWrite = (s.asked (s.cat.channel.getD 0)).countP isShareWrite + 8 ∧
        t.ret = s.ret ∧ t.audit = s.audit ∧ t.intake = s.intake ∧ t.media.dir = s.media.dir ∧ t.cursors = s.cursors) ∧
    (∃ t, exec (.checkpoint .a tag) s = .next t ∧ s.drains t ws) ∧
    (s.comp.opening = none → (∃ f rest, s.comp.queue = f :: rest ∧ f.appended < f.toAppend) ∨
        s.comp.queue = [] ∧ s.comp.builders ≠ [] ∧ (∀ b, b < 32 → (s.builder b).phase ≠ .filling) →
      ∃ t, exec (.checkpoint .a tag) s = .next t ∧ t.cat = started ∧ t.comp = s.comp ∧ t.media = s.media ∧
        t.intake = s.intake) ∧
    (∀ b v k, b < 32 → s.comp.queue = [] → s.comp.opening = none → s.comp.builders = [(b, v)] → v.phase = .filling →
      s.pickSlot none = some k →
      ∃ t, exec (.checkpoint .a tag) s = .next t ∧ t.cat = started ∧ s.closeBegan t b k)) ∧
  (∀ (c b : Nat) (op : Op) (s : State), s.inProgress c op = true → op.kind = .write → op.requester = .builder b →
    s.cat.archive = .service → s.cat.state = .quiescing → s.comp.stopped = false →
    ∃ t, exec (.segmentWriteOk c) s = .next t ∧ s.drains t s.cat.waiters ∧
      (∀ v, s.tablesOk = true → s.comp.queue = [] → s.comp.builders = [(b, v)] → t.cat.state = .writing)) ∧
  (∀ (f : QueuedFile) (rest : List QueuedFile) (r : Record) (s : State), s.cat.archive = .service →
    s.cat.state = .quiescing → s.comp.stopped = false → s.comp.opening = none → s.comp.queue = f :: rest →
    f.records[f.appended]? = some r →
    ∃ t, exec (.appendRecord true) s = .next t ∧ s.drains t s.cat.waiters) ∧
  (∀ s : State, s.cat.state = .quiescing ∨ s.cat.state = .writing →
    ∃ t, exec .fileAcceptance s = .next t ∧ t.beside = s.beside)

/-- R172, R173: a share written counts; the eighth completes the checkpoint, raises its number, tells both ports and answers
every waiter OK, and an owed checkpoint begins at once with the owed waiters, draining what there is, or is abandoned where
compaction is STOPPED (R170); a share that fails stops the catalog, leaves the number, and answers every waiter NOT-DURABLE. -/
def Obligations.CheckpointCompletesOrFails : Prop :=
  ∀ (op : Op) (s : State), s.cat.archive = .service → s.cat.state = .writing →
    s.inProgress (s.cat.channel.getD 0) op = true → op.kind = .catalogWrite → op.requester = .catalog →
    (∀ n, s.cat.sharesOk < 7 →
      ∃ t, exec (.catalogWriteOk n) s = .next t ∧ t.cat = { s.cat with sharesOk := s.cat.sharesOk + 1 } ∧
        t.intake = s.intake ∧ t.comp = s.comp ∧ t.ret = s.ret) ∧
    (∀ n, s.cat.sharesOk = 7 → s.cat.owed = false →
      ∃ t, exec (.catalogWriteOk n) s = .next t ∧ t.cat.last = s.cat.last + 1 ∧ t.cat.newer = some s.nextArea ∧
        t.cat.state = .idle ∧ t.cat.waiters = [] ∧
        ∀ q, (t.link q).line noticeCheckpointDone = ((s.link q).line noticeCheckpointDone).raise (s.cat.last + 1)) ∧
    (∀ n, s.cat.sharesOk = 7 →
      ∃ t, exec (.catalogWriteOk n) s = .next t ∧ t.cat.last = s.cat.last + 1 ∧ t.cat.owed = false ∧
        ∀ w ∈ s.cat.waiters, ∀ r, w.req = some r → s.isLive r = true →
          t.replied r.port (replyTo r.tag r.kind .ok
            (if w.number = true then be 4 (s.cat.last + 1) else w.okBody)) = true) ∧
    (s.cat.sharesOk = 7 → s.cat.owed = true → s.cat.last + 1 < 4294967295 →
      ∃ t, exec (.catalogWriteOk 0) s = .next t ∧ t.cat.owed = false ∧ t.cat.owedWaiters = [] ∧
        ({ s with cat := { s.cat with last := s.cat.last + 1, newer := some s.nextArea } } : State).drains t
          s.cat.owedWaiters) ∧
    (s.cat.sharesOk = 7 → s.cat.owed = true → s.cat.last + 1 < 4294967295 → s.comp.stopped = false →
      s.comp.queue = [] → s.comp.builders = [] → s.comp.opening = none →
      ∃ t, exec (.catalogWriteOk 0) s = .next t ∧ t.cat.state = .writing ∧ t.cat.last = s.cat.last + 1 ∧
        t.cat.waiters = s.cat.owedWaiters ∧ t.cat.owedWaiters = [] ∧
        ∃ img, t.cat.buffer = some img ∧ img.number = s.cat.last + 2) ∧
    (∃ t, exec .catalogWriteFail s = .next t ∧ t.cat.state = .stopped ∧ t.cat.last = s.cat.last ∧
      t.cat.newer = s.cat.newer ∧ t.cat.waiters = [] ∧ t.cat.owed = false ∧ t.cat.owedWaiters = [] ∧
      ∀ w ∈ s.cat.waiters ++ s.cat.owedWaiters, ∀ r, w.req = some r → s.isLive r = true →
        t.replied r.port (replyTo r.tag r.kind .notDurable w.failBody) = true)

/-- R92, R177, R179: power-up brings both links DOWN, finds the modules and asks slots 0 and 8 of each, and with no module the
archive is UNFORMATTED; power loss leaves nothing but what the flash holds. That slot 0 is asked before slot 8 is the model's
choice (log 57). -/
def Obligations.SupplyBeginsAndEnds : Prop :=
  ∀ s : State,
    (∀ present : List Bool, present.length = 8 → s.powered = false → present.any id = true →
      ∃ t, exec (.powerUp present) s = .next t ∧ t.powered = true ∧ t.cat.archive = .loading ∧
        (∀ q, (t.link q).up = false ∧ (t.link q).outstanding = []) ∧
        (∀ c, c < 8 → (t.channel c).present = present.getD c false) ∧
        (∀ c, c < 8 → present.getD c false = true → (t.channel c).queue.map Op.slot = [0, 8] ∧
          ∀ o ∈ (t.channel c).queue, o.kind = .catalogRead) ∧
        t.media.flash = s.media.flash ∧ t.media.dir = []) ∧
    (∀ present : List Bool, s.powered = false → present.any id = false →
      ∃ t, exec (.powerUp present) s = .next t ∧ t.powered = true ∧ t.cat.archive = .unformatted ∧ t.cat.load = none ∧
        (∀ q, (t.link q).up = false) ∧ t.media.flash = s.media.flash) ∧
    (s.powered = true →
      ∃ t, exec .powerLoss s = .next t ∧ t.powered = false ∧ t.intake = {} ∧ t.comp = {} ∧ t.media.dir = [] ∧
        t.ret = {} ∧ t.audit = {} ∧ t.cursors = [] ∧ t.cat = {} ∧ t.fault = {} ∧
        ∀ c k, (∀ d op, d < 8 → s.inProgress d op = true → d * 8192 + op.slot ≠ c * 8192 + k) →
          t.flashAt c k = s.flashAt c k)

/-- R30, R52, R55, R73, R85, R90, R92, R121, R177, R178: the sixteenth read of a known catalog channel ends the load: with no
valid image the archive is in CATALOG-FAULT, and otherwise it is in SERVICE as the newest valid image holds it: sources, tally,
directory, holds, codes, set modes and the rest, with what no image holds at its start, the Slot Map the image gives, the
tests of a load made, the sweeps owed queued, and the Eraser at work; a RESET-CONTROLLER that began the load is answered. The
last read of a search chooses: one candidate channel has its 14 other slots read; with several, or none and a slot not blank,
the archive is in CATALOG-FAULT; with every slot read blank it is UNFORMATTED. That an image which no part could have laid out
is not valid is the model's choice (log 8), and an EXPIRED entry whose expiry checkpoint lies above the image's number waits
for it (log 37). -/
def Obligations.LoadTakesTheNewestImage : Prop :=
  ∀ (c k : Nat) (op : Op) (l : Load) (d : CatalogData) (s : State), s.inProgress c op = true →
    op.kind = .catalogRead → op.requester = .load → s.cat.load = some l →
    let notes := l.noted ++ [{ channel := c, slot := op.slot, data := some d }]
    (l.target = .channel k → l.noted.length < 15 →
      ∃ t, exec (.catalogReadComplete c (.delivered d)) s = .next t ∧
        t.cat = { s.cat with load := some { l with noted := notes } } ∧
        t.intake = s.intake ∧ t.ret = s.ret) ∧
    (l.target = .channel k → l.noted.length = 15 → validImage k 0 notes = none → validImage k 1 notes = none →
      ∃ t, exec (.catalogReadComplete c (.delivered d)) s = .next t ∧ t.cat.archive = .catalogFault ∧ t.cat.load = none) ∧
    (∀ img area, l.target = .channel k → l.noted.length = 15 →
      chooseImage (validImage k 0 notes) (validImage k 1 notes) = some (img, area) →
      ∃ t, exec (.catalogReadComplete c (.delivered d)) s = .next t ∧ t.cat.archive = .service ∧ t.cat.load = none ∧
        t.cat.last = img.number ∧ t.cat.newer = some area ∧ t.ret.today = img.today ∧ t.ret.classes = img.classes ∧
        t.audit.findings = img.findings ∧ t.audit.next = img.nextFinding ∧ t.cat.params = img.params ∧
        t.cat.profile = img.profile ∧ t.cat.channel = some img.channel ∧ t.ret.lastSwept = img.lastSwept ∧
        t.comp.queue = [] ∧ t.comp.builders = [] ∧ t.intake.slots = [] ∧ t.intake.freePages = 3808 ∧ t.cursors = [] ∧
        t.audit.job = none ∧
        (∀ h, (t.hold h).state = (Tbl.get {} img.holds h).state ∧ (t.hold h).owner = (Tbl.get {} img.holds h).owner ∧
          (t.hold h).scope = (Tbl.get {} img.holds h).scope ∧ (t.hold h).note = (Tbl.get {} img.holds h).note) ∧
        (∀ n, let v := Tbl.get {} img.sources n
          t.source n = if v.state = .retired ∧ img.released n = true then {} else v) ∧
        (∀ n d, n < 1024 → t.tallyEntry n d = (Tbl.find img.tally (d * 1024 + n)).map (fun y => { y with
          inFlight := 0
          state := if y.state = .opened ∧ d + img.params.lookback < img.today then .closed else y.state })) ∧
        (∀ e, let v : DirEntry := { Tbl.get {} img.dir e with readers := 0 }
          t.entry e = v ∨ t.entry e = { v with state := .erasing } ∧ t.mayErase v) ∧
        (∀ k, let v := Tbl.get {} img.codes k
          let uses := img.dir.countP (fun e => e.2.used.contains k)
          t.code k = if v = {} ∨ v.state = .retired ∧ uses = 0 then {} else { v with count := uses }) ∧
        (∀ j, j < 8 → (t.channel j).setMode = Tbl.get .online img.modes j) ∧
        ((∀ j, (s.channel j).slots = [] ∧ (s.channel j).rest = .dirty) →
          ∀ r, r.channel < 8 → t.slotState r = img.slotGiven r) ∧
        t.ret.sweeps.map Sweep.kind = img.sweepsGiven ∧
        (∀ r, l.starter = some r → s.isLive r = true →
          t.replied r.port (replyTo r.tag r.kind .ok (be 1 4)) = true)) ∧
    (l.target = .search → l.noted.length + 1 = 2 * s.presentChannels.length →
      (candidates notes = [] →
        ∃ t, exec (.catalogReadComplete c (.delivered d)) s = .next t ∧ t.cat.load = none ∧
          t.cat.archive = if ∀ n ∈ notes, n.data = some .blank then .unformatted else .catalogFault) ∧
      (2 ≤ (candidates notes).length →
        ∃ t, exec (.catalogReadComplete c (.delivered d)) s = .next t ∧ t.cat.load = none ∧
          t.cat.archive = .catalogFault) ∧
      (∀ j, candidates notes = [j] →
        ∃ t, exec (.catalogReadComplete c (.delivered d)) s = .next t ∧ t.cat.archive = s.cat.archive ∧
          t.cat.load = some
            { l with target := .channel j, noted := notes.filter (fun n => decide (n.channel = j)) } ∧
          ∀ i, i < 16 → i ≠ 0 → i ≠ 8 →
            ∃ o ∈ t.asked j, o.kind = .catalogRead ∧ o.requester = .load ∧ o.slot = i))

/-- R179, R194: RESET-CONTROLLER clears what no image holds, answers every other outstanding request RESET, keeps itself
alone outstanding, and begins the load of the known catalog channel. That what an image does hold stands blank too until the
load sets it is the model's choice (log 3), as is that this request alone stays listed until its reply is sent (log 13). -/
def Obligations.ControllerResetClears : Prop :=
  ∀ (tag c : Nat) (s : State), s.admits .a tag = true → (s.cat.archive = .service ∨ s.cat.archive = .halted) →
    s.cat.channel = some c →
    ∃ t, exec (.resetController .a tag) s = .next t ∧ t.cat.archive = .loading ∧ t.intake = {} ∧ t.comp = {} ∧
      t.media.dir = [] ∧ t.ret = {} ∧ t.audit = {} ∧ t.cursors = [] ∧ t.portA.outstanding = [{ tag := tag, kind := 82 }] ∧
      t.portB.outstanding = [] ∧ t.cat.formatCounter = s.cat.formatCounter ∧ t.fault.counter = s.fault.counter ∧
      (∀ q, (t.link q).up = (s.link q).up ∧ (t.link q).lines = (s.link q).lines) ∧
      (∃ l, t.cat.load = some l ∧ l.target = .channel c ∧
        l.starter = some { port := .a, tag := tag, kind := 82, epoch := s.portA.epoch }) ∧
      ∀ q, ∀ o ∈ (s.link q).outstanding, (s.link q).answered o.tag = false →
        t.replied q { kind := o.kind, tag := o.tag, status := .reset, body := [], entered := false } = true

/-- R180, R181, R182: FORMAT in SERVICE or CATALOG-FAULT asks for consent; consent begins FORMATTING, which discards what no
image holds and leaves what one would hold; without consent the pending format ends after 60 s; in UNFORMATTED FORMATTING
begins at once. -/
def Obligations.FormatNeedsConsent : Prop :=
  ∀ (tag c : Nat) (s : State),
    (s.admits .a tag = true → c < 8 → (s.channel c).present = true → s.cat.pendingFormat = none →
      (s.cat.archive = .service ∨ s.cat.archive = .catalogFault) →
      ∃ t, exec (.format .a tag c) s = .next t ∧
        t.cat = { s.cat with
          pendingFormat := some { number := s.cat.formatCounter, channel := c, madeAt := s.second }
          formatCounter := if s.cat.formatCounter = 65535 then 1 else s.cat.formatCounter + 1 } ∧
        t.replied .a (replyTo tag 83 .consentNeeded (be 2 s.cat.formatCounter ++ be 4 60)) = true ∧
        t.intake = s.intake ∧ t.comp = s.comp ∧ t.media = s.media) ∧
    (s.admits .a tag = true → c < 8 → (s.channel c).present = true → s.cat.pendingFormat = none →
      s.cat.archive = .unformatted →
      ∃ t, exec (.format .a tag c) s = .next t ∧ t.cat.archive = .formatting ∧ ∃ f, t.cat.format = some f ∧
        f.channel = c ∧ f.consent = false) ∧
    (∀ m, s.admits .b tag = true → (s.cat.archive = .service ∨ s.cat.archive = .catalogFault) →
      s.cat.pendingFormat = some m → m.channel < 8 → (s.channel m.channel).present = true →
      ∃ t, exec (.consentFormat .b tag m.number) s = .next t ∧ t.cat.archive = .formatting ∧
        t.intake.slots = [] ∧ t.intake.closing = [] ∧ t.comp.queue = [] ∧ t.comp.builders = [] ∧
        t.comp.opening = none ∧ t.comp.stopped = false ∧ t.media.slotWait = [] ∧ (∀ e, (t.entry e).readers = 0) ∧
        t.ret.sweeps = [] ∧ t.audit.job = none ∧ t.audit.buffer = none ∧ t.cursors = [] ∧
        t.fault.general = .empty ∧ t.fault.media = .empty ∧ t.fault.halt = none ∧ t.cat.pendingFormat = none ∧
        t.intake.sources = s.intake.sources ∧ t.ret.today = s.ret.today ∧ t.ret.classes = s.ret.classes ∧
        t.ret.holds = s.ret.holds ∧ t.audit.findings = s.audit.findings ∧ t.audit.next = s.audit.next ∧
        t.media.flash = s.media.flash ∧
        ∃ f, t.cat.format = some f ∧ f.channel = m.channel ∧ f.consent = true) ∧
    (∀ m, s.cat.pendingFormat = some m → m.madeAt + 60 ≤ s.second →
      ∃ t, exec .formatConsentExpiry s = .next t ∧ t.cat = { s.cat with pendingFormat := none } ∧ t.media = s.media)

/-- R182: where no channel has an operation left as Format clears, each channel is ONLINE, an ABSENT one's slots are CLEAN, and
a PRESENT former catalog channel erases first. An erase of Format on a channel of the part makes its slot CLEAN, or DEFECTIVE,
and asks the next of its stage of that channel alone; the last of its channel asks nothing of any channel while another still
erases, and the last of all begins the next stage: slots 0 to 15 of every PRESENT channel but the former catalog channel, then,
or at once where there is no other, the remaining slots of every PRESENT channel, and then the first image; a failed erase of a
catalog slot of the chosen channel, or of the former catalog channel, ends the Format; the eighth share of the first image
brings SERVICE, and a failed share ends the Format. -/
def Obligations.FormatErasesAndEnds : Prop :=
  ∀ (f : FormatOp) (op : Op) (c : Nat) (s : State), s.cat.format = some f →
    (∀ ok old, s.cat.archive = .formatting → f.phase = .clearing → s.cat.load = none → s.inProgress c op = true →
      op.requester = .discarded → s.asksOnly c op → f.oldChan = some old → old < 8 → (s.channel old).present = true →
      ∃ t, exec (.operationEndDiscarded c ok) s = .next t ∧
        t.cat = { s.cat with format := some { f with phase := .erasingOld } } ∧ t.stageBegins 0 (fun d => d = old) ∧
        ∀ d, d < 8 → (t.channel d).setMode = .online ∧
          ∀ k, (t.channel d).slot k = if (s.channel d).present = true then (s.channel d).slot k else .clean) ∧
    (∀ ok, c < 8 → s.inProgress c op = true → op.kind = .erase → op.requester = .format →
      (ok = false → f.fatal { channel := c, slot := op.slot } = false) → op.slot + 1 < (stageSlots f.phase).2 →
      ∃ t, exec (.formatEraseComplete c ok) s = .next t ∧
        t.slotState { channel := c, slot := op.slot } = (if ok then .clean else .defective) ∧ t.cat = s.cat ∧
        formatErase (op.slot + 1) ∈ t.asked c ∧ ∀ d, d ≠ c → t.channel d = s.channel d) ∧
    (∀ ok, c < 8 → s.inProgress c op = true → op.kind = .erase → op.requester = .format →
      (ok = false → f.fatal { channel := c, slot := op.slot } = false) → (stageSlots f.phase).2 ≤ op.slot + 1 →
      let present := fun (d : Nat) => (s.channel d).present = true
      let other := fun (d : Nat) => present d ∧ f.oldChan ≠ some d
      ((∃ d, d < 8 ∧ d ≠ c ∧ (s.channel d).started.isSome = true) →
        ∃ t, exec (.formatEraseComplete c ok) s = .next t ∧
          t.slotState { channel := c, slot := op.slot } = (if ok then .clean else .defective) ∧ t.cat = s.cat ∧
          (t.asked c).Perm (s.asked c).tail ∧ ∀ d, d ≠ c → t.channel d = s.channel d) ∧
      (s.cat.archive = .formatting → s.asksOnly c op → f.phase = .erasingOld → (∃ d, d < 8 ∧ other d) →
        ∃ t, exec (.formatEraseComplete c ok) s = .next t ∧
          t.slotState { channel := c, slot := op.slot } = (if ok then .clean else .defective) ∧
          t.cat = { s.cat with format := some { f with phase := .erasingFirst } } ∧ t.stageBegins 0 other) ∧
      (s.cat.archive = .formatting → s.asksOnly c op → (∃ d, d < 8 ∧ present d) →
        f.phase = .erasingFirst ∨ f.phase = .erasingOld ∧ (∀ d, d < 8 → ¬ other d) →
        ∃ t, exec (.formatEraseComplete c ok) s = .next t ∧
          t.slotState { channel := c, slot := op.slot } = (if ok then .clean else .defective) ∧
          t.cat = { s.cat with format := some { f with phase := .erasingRest } } ∧ t.stageBegins 16 present) ∧
      (s.cat.archive = .formatting → f.phase = .erasingRest → (s.channel c).queue = [op] → (s.channel c).outside = [] →
        (∀ d, d < 8 → d ≠ c → (s.channel d).started = none) →
        ∃ t, exec (.formatEraseComplete c ok) s = .next t ∧ t.cat.archive = .formatting ∧
          t.cat.format = some { f with phase := .image } ∧ t.cat.channel = some f.channel ∧
          ∃ img, t.cat.buffer = some img ∧ img.number = 1 ∧ img.profile = .none ∧ img.today = 0)) ∧
    (s.inProgress c op = true → op.kind = .erase → op.requester = .format →
      f.fatal { channel := c, slot := op.slot } = true → s.isLive f.starter = true →
      ∃ t, exec (.formatEraseComplete c false) s = .next t ∧ t.cat.archive = .catalogFault ∧ t.cat.format = none ∧
        t.replied f.starter.port (replyTo f.starter.tag f.starter.kind .formatFailed
          (be 1 f.channel ++ be 1 c ++ be 2 op.slot)) = true) ∧
    (f.phase = .image → s.inProgress f.channel op = true → op.kind = .catalogWrite → op.requester = .catalog →
      (s.cat.sharesOk < 7 →
        ∃ t, exec (.formatImageWriteComplete true) s = .next t ∧
          t.cat = { s.cat with sharesOk := s.cat.sharesOk + 1 }) ∧
      (s.cat.sharesOk = 7 → s.isLive f.starter = true →
        ∃ t, exec (.formatImageWriteComplete true) s = .next t ∧ t.cat.archive = .service ∧ t.cat.last = 1 ∧
          t.cat.newer = some 0 ∧ t.cat.format = none ∧
          t.replied f.starter.port (replyTo f.starter.tag f.starter.kind .ok []) = true ∧
          ∀ q, (t.link q).line noticeCheckpointDone = ((s.link q).line noticeCheckpointDone).raise 1) ∧
      (s.isLive f.starter = true →
        ∃ t, exec (.formatImageWriteComplete false) s = .next t ∧ t.cat.archive = .catalogFault ∧ t.cat.format = none ∧
          t.replied f.starter.port (replyTo f.starter.tag f.starter.kind .formatFailed
            (be 1 f.channel ++ be 1 f.channel ++ be 2 op.slot)) = true))

/-! ### Faults (spec/11) -/

/-- R185: a fault at an EMPTY or TAKEN context is HELD there with the next fault number, its engine stopped and FAULT raised
on both ports; at a HELD context it goes into the halt record, its engine is stopped, the part is HALTED and HALTED is
raised on both ports; the other context is left alone; outside SERVICE none is raised. -/
def Obligations.FaultsAreHeldOrHalt : Prop :=
  ∀ (f : FaultInfo) (s : State),
    let t := raiseFault f s
    let next := if s.fault.counter = 4294967295 then 1 else s.fault.counter + 1
    (s.cat.archive = .service → (s.contextOf f.kind).isHeld = false →
      t.contextOf f.kind = .held s.fault.counter f ∧
        (∀ k, isMediaKind k ≠ isMediaKind f.kind → t.contextOf k = s.contextOf k) ∧
        t.fault.halt = s.fault.halt ∧ t.fault.counter = next ∧ t.engineStopped (engineOf f.kind) = true ∧
        t.cat.archive = .service ∧ t.media = s.media ∧
        ∀ q, (t.link q).line noticeFault = ((s.link q).line noticeFault).raise s.fault.counter ∧
          (t.link q).line noticeHalted = (s.link q).line noticeHalted) ∧
    (s.cat.archive = .service → (s.contextOf f.kind).isHeld = true →
      (∀ k, t.contextOf k = s.contextOf k) ∧
        t.fault.halt = some (s.fault.counter, f) ∧ t.fault.counter = next ∧ t.engineStopped (engineOf f.kind) = true ∧
        t.cat.archive = .halted ∧ t.media = s.media ∧
        ∀ q, (t.link q).line noticeHalted = ((s.link q).line noticeHalted).raise s.fault.counter ∧
          (t.link q).line noticeFault = (s.link q).line noticeFault) ∧
    (s.cat.archive ≠ .service → t = s)

/-- R186: FETCH-FAULT reads a context or the halt record as it stands; port A's fetch alone makes a HELD context TAKEN. -/
def Obligations.FetchFaultTakesTheContext : Prop :=
  ∀ (p : Port) (tag k : Nat) (s : State), s.admits p tag = true →
    (s.cat.archive ≠ .service → s.cat.archive ≠ .halted →
      ∃ t, exec (.fetchFault p tag k) s = .next t ∧ t.beside = s.beside ∧
        t.replied p (replyTo tag 88 .wrongState []) = true) ∧
    (s.cat.archive = .service ∨ s.cat.archive = .halted →
      (k < 1 ∨ 3 < k →
        ∃ t, exec (.fetchFault p tag k) s = .next t ∧ t.beside = s.beside ∧
          t.replied p (replyTo tag 88 .badField []) = true) ∧
      (1 ≤ k → k ≤ 3 →
        ∃ t, exec (.fetchFault p tag k) s = .next t ∧ t.replied p (replyTo tag 88 .ok (fetchBody s k)) = true ∧
          t.fault.halt = s.fault.halt ∧ t.fault.counter = s.fault.counter ∧
          t.fault.general = (if p = .a ∧ k = 1 then takeContext s.fault.general else s.fault.general) ∧
          t.fault.media = (if p = .a ∧ k = 2 then takeContext s.fault.media else s.fault.media) ∧
          ({ t with fault := s.fault } : State).beside = s.beside))

/-- R187: RESUME of a STOPPED engine is answered OK, empties the engine's contexts, and the engine goes on: a builder
held by a page error, a close without a slot, and a close on the wait list are given the slot there is, on the channel where
its write failed too, which R91 passes over at a retry (log 43; a page error keeps the failures, log 36, and its hold ends as it
asks, log 59; the wait list its place), a held opening opens its builder, and a builder of an earlier day that a day
advance found while compaction was STOPPED is closed (R71, log 19). The Eraser erases first, on each channel, the entry that a
timeout left ERASING there (R120). The Catalog begins a checkpoint without a waiter, which drains what there is
(R170, R173). -/
def Obligations.ResumeRestartsTheEngine : Prop :=
  ∀ (tag : Nat) (s : State), s.admits .a tag = true → s.cat.archive = .service →
    (s.ret.eraserStopped = true →
      ∃ t, exec (.resume .a tag 2) s = .next t ∧ t.ret.eraserStopped = false ∧
        t.fault.media = emptyIf .eraser s.fault.media ∧ t.fault.general = emptyIf .eraser s.fault.general ∧
        t.replied .a (replyTo tag 89 .ok []) = true ∧ t.cat = s.cat ∧ t.comp = s.comp ∧ t.intake = s.intake ∧
        (s.tablesOk = true → ∀ c e k, c < 8 → (s.channel c).mode ≠ .offline → s.eraseOn c = none →
          (s.entry e).slot = some { channel := c, slot := k } → s.lowestOn c e (fun v => v.state = .erasing) →
          t.eraseBegun c k (some e) ∧ t.entry e = s.entry e)) ∧
    (s.comp.stopped = true → s.comp.builders = [] → s.comp.opening = none → s.media.slotWait = [] →
      s.cat.state ≠ .quiescing →
      ∃ t, exec (.resume .a tag 1) s = .next t ∧ t.comp.stopped = false ∧ t.comp.headHeld = false ∧
        t.fault.general = emptyIf .compaction s.fault.general ∧ t.fault.media = emptyIf .compaction s.fault.media ∧
        t.replied .a (replyTo tag 89 .ok []) = true ∧ t.cat = s.cat ∧ t.media = s.media) ∧
    (∀ b v k, s.comp.stopped = true → s.cat.state ≠ .quiescing → s.comp.queue = [] → s.comp.opening = none →
      b < 32 → s.comp.builders = [(b, v)] → s.pickSlot none = some k →
      (v.phase = .closing → (s.entry v.entry).state = .filling → s.comp.closesOwed = false →
        (s.media.slotWait = [] ∨ s.media.slotWait = [b] ∧ v.pageHeld = false) →
        ∃ t, exec (.resume .a tag 1) s = .next t ∧ t.comp.stopped = false ∧
          t.builder b = { v with
            pageHeld := false
            failures := if v.pageHeld = true ∨ s.media.slotWait = [b] then v.failures else 0 } ∧
          t.entry v.entry = s.writingEntry v k false ∧ t.slotState k = .used ∧ t.media.slotWait = [] ∧
          builderWrite b v k.slot ∈ t.asked k.channel ∧ t.replied .a (replyTo tag 89 .ok []) = true) ∧
      (v.phase = .filling → v.day < s.ret.today → s.comp.closesOwed = true → s.media.slotWait = [] → v.pageHeld = false →
        ∃ t, exec (.resume .a tag 1) s = .next t ∧ t.comp.stopped = false ∧ t.comp.closesOwed = false ∧
          s.closeBegan t b k) ∧
      (v.phase = .filling → s.comp.closesOwed = false → s.media.slotWait = [] → v.pageHeld = false →
        ∃ t, exec (.resume .a tag 1) s = .next t ∧ t.comp.stopped = false ∧ t.comp.builders = s.comp.builders ∧
          t.media = s.media)) ∧
    (∀ f rest n, s.comp.stopped = true → s.cat.state ≠ .quiescing → s.comp.builders = [] → s.media.slotWait = [] →
      s.comp.closesOwed = false → s.comp.opening = some .held → s.comp.queue = f :: rest → f.appended < f.toAppend →
      s.freeEntryNumber = some n →
      ∃ t, exec (.resume .a tag 1) s = .next t ∧ t.comp.stopped = false ∧ t.comp.opening = none ∧
        t.comp.queue = s.comp.queue ∧
        t.builder 0 = { phase := .filling, source := f.source, day := f.day, entry := n, bytesUsed := 32,
                        lastAppend := s.second } ∧
        t.entry n = { state := .filling, source := f.source, day := f.day, payloadBytes := 32 }) ∧
    (s.cat.state = .stopped → s.cat.last < 4294967295 →
      ∃ t, exec (.resume .a tag 3) s = .next t ∧ s.drains t [] ∧ t.replied .a (replyTo tag 89 .ok []) = true) ∧
    (s.cat.state = .stopped → s.comp.stopped = false → s.cat.last < 4294967295 → s.comp.queue = [] →
      s.comp.builders = [] → s.comp.opening = none →
      ∃ t, exec (.resume .a tag 3) s = .next t ∧ t.cat.state = .writing ∧ t.cat.last = s.cat.last ∧
        t.cat.newer = s.cat.newer ∧ t.fault.media = emptyIf .catalog s.fault.media ∧
        t.replied .a (replyTo tag 89 .ok []) = true)

/-- R188, R189, R190: ABANDON of a held head file writes PARTIAL-FILE, gives up the file and its pages, reduces its tally, and
compaction runs again; of a builder held by a page error it writes SEGMENT-LOST, frees builder and entry, and reduces its
tally. -/
def Obligations.AbandonGivesUpTheHeadFile : Prop :=
  ∀ (tag : Nat) (s : State), s.admits .a tag = true → s.cat.archive = .service → s.comp.stopped = true →
    s.comp.opening = none → s.media.slotWait = [] → s.cat.state ≠ .quiescing → 1 ≤ s.freePlaces →
    (∀ f, s.comp.headHeld = true → s.comp.queue = [f] → s.comp.builders = [] →
    ∃ t, exec (.abandon .a tag 1) s = .next t ∧ t.comp.queue = [] ∧ t.comp.headHeld = false ∧ t.comp.stopped = false ∧
      t.intake.freePages = s.intake.freePages + f.pages ∧
      t.audit.findings = s.audit.findings ++
        [{ number := s.audit.next, recorded := s.ret.today, body := partialFile f }] ∧
      t.fault.general = emptyIf .compaction s.fault.general ∧
      (∀ y, s.tallyEntry f.source f.day = some y → ∃ z, t.tallyEntry f.source f.day = some z ∧
        z.recordsAccepted = y.recordsAccepted - (f.toAppend - f.appended) ∧ z.inFlight = y.inFlight - 1) ∧
      t.replied .a (replyTo tag 90 .ok (be 1 1 ++ be 4 s.audit.next)) = true) ∧
    (∀ b v, s.comp.headHeld = false → s.comp.queue = [] → b < 32 → s.comp.builders = [(b, v)] → v.pageHeld = true →
    let e := s.entry v.entry
    let left := ((s.tallyEntry e.source e.day).map TallyEntry.recordsAccepted).getD 0 - e.recordCount
    ∃ t, exec (.abandon .a tag 1) s = .next t ∧ t.comp.builders = [] ∧ t.entry v.entry = {} ∧ t.comp.stopped = false ∧
      (∀ n, n ≠ v.entry → t.entry n = s.entry n) ∧
      t.audit.findings = s.audit.findings ++
        [{ number := s.audit.next, recorded := s.ret.today, body := segmentLost v.entry e left }] ∧
      t.fault.general = emptyIf .compaction s.fault.general ∧
      (∀ y, s.tallyEntry e.source e.day = some y →
        t.tallyEntry e.source e.day = some { y with recordsAccepted := y.recordsAccepted - e.recordCount }) ∧
      s.othersTallied t e.source e.day ∧
      t.replied .a (replyTo tag 90 .ok (be 1 1 ++ be 4 s.audit.next)) = true)
end

