-- ==== Sys2Proof/Laws/Tables.lean ====
section
/-!
SUPPORT. Laws/Tables.lean: reading a table after a write, and the canonical form that every table operation keeps.
-/

namespace Sys2Proof

variable {α : Type}

theorem Tbl.rising_iff (t : Tbl α) : Tbl.rising t = true ↔ (t.map Prod.fst).Pairwise (· < ·) := by
  simp [Tbl.rising]

/-! ### Reading after a write -/

theorem Tbl.find_put_same (t : Tbl α) (k : Nat) (v : α) : Tbl.find (Tbl.put t k v) k = some v := by
  induction t with
  | nil => simp [Tbl.put, Tbl.find]
  | cons e t ih =>
    obtain ⟨j, w⟩ := e
    simp only [Tbl.put]
    split
    · simp [Tbl.find]
    · split
      · simp [Tbl.find]
      · rename_i h1 h2
        have : j ≠ k := fun h => h2 h.symm
        simp [Tbl.find, this, ih]

theorem Tbl.find_put_ne (t : Tbl α) {k i : Nat} (v : α) (h : i ≠ k) :
    Tbl.find (Tbl.put t k v) i = Tbl.find t i := by
  induction t with
  | nil => simp [Tbl.put, Tbl.find, Ne.symm h]
  | cons e t ih =>
    obtain ⟨j, w⟩ := e
    simp only [Tbl.put]
    split
    · simp [Tbl.find, Ne.symm h]
    · split
      · rename_i h1 h2
        subst h2
        simp [Tbl.find, Ne.symm h]
      · simp only [Tbl.find, ih]

theorem Tbl.find_drop_same (t : Tbl α) (k : Nat) : Tbl.find (Tbl.drop t k) k = none := by
  induction t with
  | nil => rfl
  | cons e t ih =>
    obtain ⟨j, w⟩ := e
    by_cases h : j = k
    · subst h
      simpa [Tbl.drop] using ih
    · simp only [Tbl.drop] at ih
      simp [Tbl.drop, h, Tbl.find, ih]

theorem Tbl.find_drop_ne (t : Tbl α) {k i : Nat} (h : i ≠ k) : Tbl.find (Tbl.drop t k) i = Tbl.find t i := by
  induction t with
  | nil => rfl
  | cons e t ih =>
    obtain ⟨j, w⟩ := e
    simp only [Tbl.drop] at ih
    by_cases hj : j = k
    · subst hj
      simp [Tbl.drop, Tbl.find, Ne.symm h, ih]
    · simp [Tbl.drop, hj, Tbl.find, ih]

@[simp] theorem Tbl.get_nil (d : α) (k : Nat) : Tbl.get d ([] : Tbl α) k = d := rfl

/-- What was written is read. -/
@[simp] theorem Tbl.get_set_same [DecidableEq α] (d : α) (t : Tbl α) (k : Nat) (v : α) :
    Tbl.get d (Tbl.set d t k v) k = v := by
  unfold Tbl.set
  split
  · rename_i h
    simp [Tbl.get, Tbl.find_drop_same, h]
  · simp [Tbl.get, Tbl.find_put_same]

/-- Every other index reads as before. -/
theorem Tbl.get_set_ne [DecidableEq α] (d : α) (t : Tbl α) {k i : Nat} (v : α) (h : i ≠ k) :
    Tbl.get d (Tbl.set d t k v) i = Tbl.get d t i := by
  unfold Tbl.set
  split
  · simp [Tbl.get, Tbl.find_drop_ne t h]
  · simp [Tbl.get, Tbl.find_put_ne t v h]

theorem Tbl.get_set [DecidableEq α] (d : α) (t : Tbl α) (k i : Nat) (v : α) :
    Tbl.get d (Tbl.set d t k v) i = if i = k then v else Tbl.get d t i := by
  split
  · rename_i h
    rw [h, Tbl.get_set_same]
  · rename_i h
    exact Tbl.get_set_ne d t v h

/-! ### The canonical form -/

theorem Tbl.put_fst_lt {t : Tbl α} {k : Nat} {v : α} {i : Nat} (hi : ∀ e ∈ t, i < e.1) (hk : i < k) :
    ∀ e ∈ Tbl.put t k v, i < e.1 := by
  induction t with
  | nil => simpa [Tbl.put] using hk
  | cons e t ih =>
    obtain ⟨j, w⟩ := e
    have hj : i < j := hi (j, w) (by simp)
    have ht : ∀ e ∈ t, i < e.1 := fun e he => hi e (by simp [he])
    simp only [Tbl.put]
    split
    · intro e he
      simp only [List.mem_cons] at he
      rcases he with rfl | rfl | he
      · exact hk
      · exact hj
      · exact ht e he
    · split
      · intro e he
        simp only [List.mem_cons] at he
        rcases he with rfl | he
        · exact hk
        · exact ht e he
      · intro e he
        simp only [List.mem_cons] at he
        rcases he with rfl | he
        · exact hj
        · exact ih ht e he

theorem Tbl.rising_cons (j : Nat) (w : α) (t : Tbl α) :
    Tbl.rising ((j, w) :: t) = true ↔ (∀ e ∈ t, j < e.1) ∧ Tbl.rising t = true := by
  simp [Tbl.rising_iff]

theorem Tbl.rising_put {t : Tbl α} (h : Tbl.rising t = true) (k : Nat) (v : α) :
    Tbl.rising (Tbl.put t k v) = true := by
  induction t with
  | nil => simp [Tbl.put, Tbl.rising]
  | cons e t ih =>
    obtain ⟨j, w⟩ := e
    rw [Tbl.rising_cons] at h
    simp only [Tbl.put]
    split
    · rename_i hk
      rw [Tbl.rising_cons, Tbl.rising_cons]
      refine ⟨?_, h⟩
      intro e he
      simp only [List.mem_cons] at he
      rcases he with rfl | he
      · exact hk
      · exact lt_trans hk (h.1 e he)
    · split
      · rename_i h1 h2
        subst h2
        rw [Tbl.rising_cons]
        exact h
      · rename_i h1 h2
        rw [Tbl.rising_cons]
        exact ⟨Tbl.put_fst_lt h.1 (by omega), ih h.2⟩

theorem Tbl.rising_filter {t : Tbl α} (h : Tbl.rising t = true) (p : Nat × α → Bool) :
    Tbl.rising (t.filter p) = true := by
  rw [Tbl.rising_iff] at h ⊢
  exact List.Pairwise.sublist (List.Sublist.map _ List.filter_sublist) h

theorem Tbl.rising_drop {t : Tbl α} (h : Tbl.rising t = true) (k : Nat) : Tbl.rising (Tbl.drop t k) = true :=
  Tbl.rising_filter h _

theorem Tbl.rising_set [DecidableEq α] {t : Tbl α} (h : Tbl.rising t = true) (d : α) (k : Nat) (v : α) :
    Tbl.rising (Tbl.set d t k v) = true := by
  unfold Tbl.set
  split
  · exact Tbl.rising_drop h k
  · exact Tbl.rising_put h k v

theorem Tbl.rising_map {β : Type} {t : Tbl α} (h : Tbl.rising t = true) (f : Nat × α → β) :
    Tbl.rising (t.map (fun e => (e.1, f e))) = true := by
  rw [Tbl.rising_iff] at h ⊢
  simpa [List.map_map, Function.comp_def] using h

theorem Tbl.mem_put {t : Tbl α} {k : Nat} {v : α} {e : Nat × α} (h : e ∈ Tbl.put t k v) : e ∈ t ∨ e = (k, v) := by
  induction t with
  | nil => simpa [Tbl.put] using h
  | cons x t ih =>
    obtain ⟨j, w⟩ := x
    simp only [Tbl.put] at h
    split at h
    · simp only [List.mem_cons] at h ⊢
      tauto
    · split at h
      · simp only [List.mem_cons] at h ⊢
        tauto
      · simp only [List.mem_cons] at h ⊢
        rcases h with h | h
        · exact Or.inl (Or.inl h)
        · rcases ih h with h | h
          · exact Or.inl (Or.inr h)
          · exact Or.inr h

theorem Tbl.canon_iff [DecidableEq α] (d : α) (t : Tbl α) :
    Tbl.canon d t = true ↔ Tbl.rising t = true ∧ ∀ e ∈ t, e.2 ≠ d := by
  simp [Tbl.canon]

/-- The empty table is in its form. -/
@[simp] theorem Tbl.canon_nil [DecidableEq α] (d : α) : Tbl.canon d ([] : Tbl α) = true := by
  simp [Tbl.canon, Tbl.rising]

@[simp] theorem Tbl.rising_nil : Tbl.rising ([] : Tbl α) = true := by
  simp [Tbl.rising]

/-- A write keeps the canonical form. -/
theorem Tbl.canon_set [DecidableEq α] {d : α} {t : Tbl α} (h : Tbl.canon d t = true) (k : Nat) (v : α) :
    Tbl.canon d (Tbl.set d t k v) = true := by
  rw [Tbl.canon_iff] at h ⊢
  unfold Tbl.set
  split
  · refine ⟨Tbl.rising_drop h.1 k, ?_⟩
    intro e he
    exact h.2 e (List.mem_of_mem_filter he)
  · rename_i hv
    refine ⟨Tbl.rising_put h.1 k v, ?_⟩
    intro e he
    rcases Tbl.mem_put he with he | rfl
    · exact h.2 e he
    · exact hv

/-- A change of every listed entry keeps the canonical form. -/
theorem Tbl.canon_mapListed [DecidableEq α] {d : α} {t : Tbl α} (h : Tbl.rising t = true) (f : Nat → α → α) :
    Tbl.canon d (Tbl.mapListed d f t) = true := by
  rw [Tbl.canon_iff]
  refine ⟨Tbl.rising_filter (Tbl.rising_map h (fun e => f e.1 e.2)) _, ?_⟩
  intro e he
  simpa using (List.mem_filter.mp he).2

/-! ### Searching -/

/-- In a rising table, an entry that is listed is the one found. -/
theorem Tbl.find_of_mem {t : Tbl α} (h : Tbl.rising t = true) {j : Nat} {v : α} (hm : (j, v) ∈ t) :
    Tbl.find t j = some v := by
  induction t with
  | nil => simp at hm
  | cons e t ih =>
    obtain ⟨i, w⟩ := e
    rw [Tbl.rising_cons] at h
    simp only [List.mem_cons, Prod.mk.injEq] at hm
    rcases hm with ⟨rfl, rfl⟩ | hm
    · simp [Tbl.find]
    · have := h.1 (j, v) hm
      have hne : i ≠ j := by simp at this; omega
      simp [Tbl.find, hne, ih h.2 hm]

/-- What a reading finds is listed. -/
theorem Tbl.mem_of_find {t : Tbl α} {k : Nat} {v : α} (h : Tbl.find t k = some v) : (k, v) ∈ t := by
  induction t with
  | nil => cases h
  | cons e t ih =>
    obtain ⟨j, w⟩ := e
    rw [Tbl.find] at h
    split at h
    · cases h
      simp_all
    · exact List.mem_cons_of_mem _ (ih h)

/-- Writing an entry that a test finds as the one it replaces leaves the test's answer over the table. -/
theorem Tbl.any_put (p : α → Bool) (d : α) (t : Tbl α) (k : Nat) (v : α) (hv : p v = p (Tbl.get d t k))
    (hd : p d = false) : (Tbl.put t k v).any (fun e => p e.2) = t.any (fun e => p e.2) := by
  induction t with
  | nil => simp [Tbl.put, hv, hd]
  | cons e t ih =>
    obtain ⟨j, w⟩ := e
    simp only [Tbl.put]
    by_cases h1 : k < j
    · rw [if_pos h1, List.any_cons]
      by_cases hp : p v = true
      · have : p (Tbl.get d ((j, w) :: t) k) = true := hv ▸ hp
        rw [Tbl.get] at this
        cases hf : Tbl.find ((j, w) :: t) k with
        | none => simp [hf, hd] at this
        | some x =>
          have hx : (k, x) ∈ (j, w) :: t := Tbl.mem_of_find hf
          have : (((j, w) :: t).any fun e => p e.2) = true :=
            List.any_eq_true.mpr ⟨(k, x), hx, by simpa [hf] using this⟩
          rw [this, Bool.or_true]
      · simp [hp]
    · rw [if_neg h1]
      by_cases h2 : k = j
      · subst h2
        simp [Tbl.get, Tbl.find] at hv
        simp [hv]
      · rw [if_neg h2, List.any_cons, List.any_cons]
        rw [ih (by simpa [Tbl.get, Tbl.find, Ne.symm h2] using hv)]

theorem Tbl.find_none_of_lt {t : Tbl α} {k : Nat} (h : ∀ e ∈ t, k < e.1) : Tbl.find t k = none := by
  induction t with
  | nil => rfl
  | cons e t ih =>
    obtain ⟨i, w⟩ := e
    have hi : k < i := h (i, w) (by simp)
    have : i ≠ k := by omega
    simp [Tbl.find, this, ih (fun e he => h e (by simp [he]))]

/-- What a search gives: an index from `n` up, below the bound, whose entry satisfies the test (an unlisted one where the
empty entry does). -/
theorem Tbl.nextFrom_spec (p : Nat → α → Bool) (empty : Bool) (bound : Nat) {n : Nat} {t : Tbl α}
    (hr : Tbl.rising t = true) {k : Nat} (h : Tbl.nextFrom p empty bound n t = some k) :
    n ≤ k ∧ k < bound ∧
      match Tbl.find t k with
      | none => empty = true
      | some v => p k v = true := by
  induction t generalizing n with
  | nil =>
    simp only [Tbl.nextFrom] at h
    split at h
    · rename_i hc
      simp only [Bool.and_eq_true, decide_eq_true_eq] at hc
      simp only [Option.some.injEq] at h
      subst h
      exact ⟨le_refl _, hc.2, by simp [Tbl.find, hc.1]⟩
    · simp at h
  | cons e t ih =>
    obtain ⟨j, v⟩ := e
    rw [Tbl.rising_cons] at hr
    simp only [Tbl.nextFrom] at h
    split at h
    · rename_i hj
      obtain ⟨h1, h2, h3⟩ := ih hr.2 h
      have : j ≠ k := by omega
      exact ⟨h1, h2, by simpa [Tbl.find, this] using h3⟩
    · rename_i hj
      split at h
      · rename_i hc
        simp only [Bool.and_eq_true, decide_eq_true_eq] at hc
        simp only [Option.some.injEq] at h
        subst h
        have hne : j ≠ n := by omega
        have hn : Tbl.find t n = none := Tbl.find_none_of_lt (fun e he => lt_trans hc.1.2 (hr.1 e he))
        exact ⟨le_refl _, hc.2, by simp [Tbl.find, hne, hn, hc.1.1]⟩
      · split at h
        · rename_i hc
          simp only [Bool.and_eq_true, decide_eq_true_eq] at hc
          simp only [Option.some.injEq] at h
          subst h
          exact ⟨by omega, hc.2, by simp [Tbl.find, hc.1]⟩
        · obtain ⟨h1, h2, h3⟩ := ih hr.2 h
          have : j ≠ k := by omega
          exact ⟨by omega, h2, by simpa [Tbl.find, this] using h3⟩

/-! ### Loops -/

/-- What every turn of a loop keeps, the loop keeps. -/
theorem foldl_keeps {σ β γ : Type} (g : σ → γ) (f : σ → β → σ) (h : ∀ t a, g (f t a) = g t) (l : List β) (s : σ) :
    g (l.foldl f s) = g s := by
  induction l generalizing s with
  | nil => rfl
  | cons a l ih => rw [List.foldl_cons, ih, h]

/-- An invariant of every turn of a loop is one of the loop. -/
theorem foldl_inv {σ β : Type} (P : σ → Prop) (f : σ → β → σ) (h : ∀ t a, P t → P (f t a)) (l : List β) (s : σ)
    (hs : P s) : P (l.foldl f s) := by
  induction l generalizing s with
  | nil => exact hs
  | cons a l ih => exact ih (f s a) (h s a hs)

end Sys2Proof
end

