-- ==== Sys2Proof/Laws/State.lean ====
section
/-!
SUPPORT. Laws/State.lean: what each named write of the state leaves alone, field by field, and what reading after it gives,
so that no proof unfolds a record update.
-/

namespace Sys2Proof.Machine
open Sys2Proof


/-! ### `State.setEntry` -/

@[simp] theorem State.setEntry_pending (s : State) (k : Nat) (v : DirEntry) :
    (s.setEntry k v).pending = s.pending := rfl
@[simp] theorem State.setEntry_powered (s : State) (k : Nat) (v : DirEntry) :
    (s.setEntry k v).powered = s.powered := rfl
@[simp] theorem State.setEntry_second (s : State) (k : Nat) (v : DirEntry) : (s.setEntry k v).second = s.second := rfl
@[simp] theorem State.setEntry_free (s : State) (k : Nat) (v : DirEntry) : (s.setEntry k v).free = s.free := rfl
@[simp] theorem State.setEntry_portA (s : State) (k : Nat) (v : DirEntry) : (s.setEntry k v).portA = s.portA := rfl
@[simp] theorem State.setEntry_portB (s : State) (k : Nat) (v : DirEntry) : (s.setEntry k v).portB = s.portB := rfl
@[simp] theorem State.setEntry_intake (s : State) (k : Nat) (v : DirEntry) : (s.setEntry k v).intake = s.intake := rfl
@[simp] theorem State.setEntry_comp (s : State) (k : Nat) (v : DirEntry) : (s.setEntry k v).comp = s.comp := rfl
@[simp] theorem State.setEntry_ret (s : State) (k : Nat) (v : DirEntry) : (s.setEntry k v).ret = s.ret := rfl
@[simp] theorem State.setEntry_audit (s : State) (k : Nat) (v : DirEntry) : (s.setEntry k v).audit = s.audit := rfl
@[simp] theorem State.setEntry_cursors (s : State) (k : Nat) (v : DirEntry) :
    (s.setEntry k v).cursors = s.cursors := rfl
@[simp] theorem State.setEntry_cat (s : State) (k : Nat) (v : DirEntry) : (s.setEntry k v).cat = s.cat := rfl
@[simp] theorem State.setEntry_fault (s : State) (k : Nat) (v : DirEntry) : (s.setEntry k v).fault = s.fault := rfl
@[simp] theorem State.setEntry_media_channels (s : State) (k : Nat) (v : DirEntry) :
    (s.setEntry k v).media.channels = s.media.channels := rfl
@[simp] theorem State.setEntry_media_pointer (s : State) (k : Nat) (v : DirEntry) :
    (s.setEntry k v).media.pointer = s.media.pointer := rfl
@[simp] theorem State.setEntry_media_slotWait (s : State) (k : Nat) (v : DirEntry) :
    (s.setEntry k v).media.slotWait = s.media.slotWait := rfl
@[simp] theorem State.setEntry_media_flash (s : State) (k : Nat) (v : DirEntry) :
    (s.setEntry k v).media.flash = s.media.flash := rfl
@[simp] theorem State.setEntry_link (s : State) (k : Nat) (v : DirEntry) (p : Port) :
    (s.setEntry k v).link p = s.link p := by cases p <;> rfl
@[simp] theorem State.setEntry_today (s : State) (k : Nat) (v : DirEntry) : (s.setEntry k v).today = s.today := rfl
@[simp] theorem State.setEntry_lookback (s : State) (k : Nat) (v : DirEntry) :
    (s.setEntry k v).lookback = s.lookback := rfl
@[simp] theorem State.setEntry_channel (s : State) (k : Nat) (v : DirEntry) (c : Nat) :
    (s.setEntry k v).channel c = s.channel c := rfl
@[simp] theorem State.setEntry_flashAt (s : State) (k : Nat) (v : DirEntry) (c i : Nat) :
    (s.setEntry k v).flashAt c i = s.flashAt c i := rfl
@[simp] theorem State.setEntry_builder (s : State) (k : Nat) (v : DirEntry) (b : Nat) :
    (s.setEntry k v).builder b = s.builder b := rfl
@[simp] theorem State.setEntry_code (s : State) (k : Nat) (v : DirEntry) (c : Nat) :
    (s.setEntry k v).code c = s.code c := rfl
@[simp] theorem State.setEntry_source (s : State) (k : Nat) (v : DirEntry) (n : Nat) :
    (s.setEntry k v).source n = s.source n := rfl
@[simp] theorem State.setEntry_intakeSlot (s : State) (k : Nat) (v : DirEntry) (i : Nat) :
    (s.setEntry k v).intakeSlot i = s.intakeSlot i := rfl
@[simp] theorem State.setEntry_retClass (s : State) (k : Nat) (v : DirEntry) (c : Nat) :
    (s.setEntry k v).retClass c = s.retClass c := rfl
@[simp] theorem State.setEntry_hold (s : State) (k : Nat) (v : DirEntry) (h : Nat) :
    (s.setEntry k v).hold h = s.hold h := rfl
@[simp] theorem State.setEntry_cursor (s : State) (k : Nat) (v : DirEntry) (c : Nat) :
    (s.setEntry k v).cursor c = s.cursor c := rfl
@[simp] theorem State.setEntry_tallyEntry (s : State) (k : Nat) (v : DirEntry) (n d : Nat) :
    (s.setEntry k v).tallyEntry n d = s.tallyEntry n d := rfl
@[simp] theorem State.setEntry_entry_same (s : State) (k : Nat) (v : DirEntry) :
    (s.setEntry k v).entry k = v := Tbl.get_set_same _ _ _ _
theorem State.setEntry_entry_ne (s : State) (k : Nat) (v : DirEntry) {i : Nat} (h : i ≠ k) : (s.setEntry k v).entry i = s.entry i :=
  Tbl.get_set_ne _ _ _ h
theorem State.setEntry_entry (s : State) (k : Nat) (v : DirEntry) (i : Nat) :
    (s.setEntry k v).entry i = if i = k then v else s.entry i := Tbl.get_set _ _ _ _ _

/-! ### `State.setChannel` -/

@[simp] theorem State.setChannel_pending (s : State) (k : Nat) (v : Channel) :
    (s.setChannel k v).pending = s.pending := rfl
@[simp] theorem State.setChannel_powered (s : State) (k : Nat) (v : Channel) :
    (s.setChannel k v).powered = s.powered := rfl
@[simp] theorem State.setChannel_second (s : State) (k : Nat) (v : Channel) :
    (s.setChannel k v).second = s.second := rfl
@[simp] theorem State.setChannel_free (s : State) (k : Nat) (v : Channel) : (s.setChannel k v).free = s.free := rfl
@[simp] theorem State.setChannel_portA (s : State) (k : Nat) (v : Channel) : (s.setChannel k v).portA = s.portA := rfl
@[simp] theorem State.setChannel_portB (s : State) (k : Nat) (v : Channel) : (s.setChannel k v).portB = s.portB := rfl
@[simp] theorem State.setChannel_intake (s : State) (k : Nat) (v : Channel) :
    (s.setChannel k v).intake = s.intake := rfl
@[simp] theorem State.setChannel_comp (s : State) (k : Nat) (v : Channel) : (s.setChannel k v).comp = s.comp := rfl
@[simp] theorem State.setChannel_ret (s : State) (k : Nat) (v : Channel) : (s.setChannel k v).ret = s.ret := rfl
@[simp] theorem State.setChannel_audit (s : State) (k : Nat) (v : Channel) : (s.setChannel k v).audit = s.audit := rfl
@[simp] theorem State.setChannel_cursors (s : State) (k : Nat) (v : Channel) :
    (s.setChannel k v).cursors = s.cursors := rfl
@[simp] theorem State.setChannel_cat (s : State) (k : Nat) (v : Channel) : (s.setChannel k v).cat = s.cat := rfl
@[simp] theorem State.setChannel_fault (s : State) (k : Nat) (v : Channel) : (s.setChannel k v).fault = s.fault := rfl
@[simp] theorem State.setChannel_media_dir (s : State) (k : Nat) (v : Channel) :
    (s.setChannel k v).media.dir = s.media.dir := rfl
@[simp] theorem State.setChannel_media_pointer (s : State) (k : Nat) (v : Channel) :
    (s.setChannel k v).media.pointer = s.media.pointer := rfl
@[simp] theorem State.setChannel_media_slotWait (s : State) (k : Nat) (v : Channel) :
    (s.setChannel k v).media.slotWait = s.media.slotWait := rfl
@[simp] theorem State.setChannel_media_flash (s : State) (k : Nat) (v : Channel) :
    (s.setChannel k v).media.flash = s.media.flash := rfl
@[simp] theorem State.setChannel_link (s : State) (k : Nat) (v : Channel) (p : Port) :
    (s.setChannel k v).link p = s.link p := by cases p <;> rfl
@[simp] theorem State.setChannel_today (s : State) (k : Nat) (v : Channel) : (s.setChannel k v).today = s.today := rfl
@[simp] theorem State.setChannel_lookback (s : State) (k : Nat) (v : Channel) :
    (s.setChannel k v).lookback = s.lookback := rfl
@[simp] theorem State.setChannel_entry (s : State) (k : Nat) (v : Channel) (e : Nat) :
    (s.setChannel k v).entry e = s.entry e := rfl
@[simp] theorem State.setChannel_flashAt (s : State) (k : Nat) (v : Channel) (c i : Nat) :
    (s.setChannel k v).flashAt c i = s.flashAt c i := rfl
@[simp] theorem State.setChannel_builder (s : State) (k : Nat) (v : Channel) (b : Nat) :
    (s.setChannel k v).builder b = s.builder b := rfl
@[simp] theorem State.setChannel_code (s : State) (k : Nat) (v : Channel) (c : Nat) :
    (s.setChannel k v).code c = s.code c := rfl
@[simp] theorem State.setChannel_source (s : State) (k : Nat) (v : Channel) (n : Nat) :
    (s.setChannel k v).source n = s.source n := rfl
@[simp] theorem State.setChannel_intakeSlot (s : State) (k : Nat) (v : Channel) (i : Nat) :
    (s.setChannel k v).intakeSlot i = s.intakeSlot i := rfl
@[simp] theorem State.setChannel_retClass (s : State) (k : Nat) (v : Channel) (c : Nat) :
    (s.setChannel k v).retClass c = s.retClass c := rfl
@[simp] theorem State.setChannel_hold (s : State) (k : Nat) (v : Channel) (h : Nat) :
    (s.setChannel k v).hold h = s.hold h := rfl
@[simp] theorem State.setChannel_cursor (s : State) (k : Nat) (v : Channel) (c : Nat) :
    (s.setChannel k v).cursor c = s.cursor c := rfl
@[simp] theorem State.setChannel_tallyEntry (s : State) (k : Nat) (v : Channel) (n d : Nat) :
    (s.setChannel k v).tallyEntry n d = s.tallyEntry n d := rfl
@[simp] theorem State.setChannel_channel_same (s : State) (k : Nat) (v : Channel) :
    (s.setChannel k v).channel k = v := Tbl.get_set_same _ _ _ _
theorem State.setChannel_channel_ne (s : State) (k : Nat) (v : Channel) {i : Nat} (h : i ≠ k) : (s.setChannel k v).channel i = s.channel i :=
  Tbl.get_set_ne _ _ _ h
theorem State.setChannel_channel (s : State) (k : Nat) (v : Channel) (i : Nat) :
    (s.setChannel k v).channel i = if i = k then v else s.channel i := Tbl.get_set _ _ _ _ _

/-! ### `State.setFlash` -/

@[simp] theorem State.setFlash_pending (s : State) (x y : Nat) (v : SlotContent) :
    (s.setFlash x y v).pending = s.pending := rfl
@[simp] theorem State.setFlash_powered (s : State) (x y : Nat) (v : SlotContent) :
    (s.setFlash x y v).powered = s.powered := rfl
@[simp] theorem State.setFlash_second (s : State) (x y : Nat) (v : SlotContent) :
    (s.setFlash x y v).second = s.second := rfl
@[simp] theorem State.setFlash_free (s : State) (x y : Nat) (v : SlotContent) : (s.setFlash x y v).free = s.free := rfl
@[simp] theorem State.setFlash_portA (s : State) (x y : Nat) (v : SlotContent) :
    (s.setFlash x y v).portA = s.portA := rfl
@[simp] theorem State.setFlash_portB (s : State) (x y : Nat) (v : SlotContent) :
    (s.setFlash x y v).portB = s.portB := rfl
@[simp] theorem State.setFlash_intake (s : State) (x y : Nat) (v : SlotContent) :
    (s.setFlash x y v).intake = s.intake := rfl
@[simp] theorem State.setFlash_comp (s : State) (x y : Nat) (v : SlotContent) : (s.setFlash x y v).comp = s.comp := rfl
@[simp] theorem State.setFlash_ret (s : State) (x y : Nat) (v : SlotContent) : (s.setFlash x y v).ret = s.ret := rfl
@[simp] theorem State.setFlash_audit (s : State) (x y : Nat) (v : SlotContent) :
    (s.setFlash x y v).audit = s.audit := rfl
@[simp] theorem State.setFlash_cursors (s : State) (x y : Nat) (v : SlotContent) :
    (s.setFlash x y v).cursors = s.cursors := rfl
@[simp] theorem State.setFlash_cat (s : State) (x y : Nat) (v : SlotContent) : (s.setFlash x y v).cat = s.cat := rfl
@[simp] theorem State.setFlash_fault (s : State) (x y : Nat) (v : SlotContent) :
    (s.setFlash x y v).fault = s.fault := rfl
@[simp] theorem State.setFlash_media_dir (s : State) (x y : Nat) (v : SlotContent) :
    (s.setFlash x y v).media.dir = s.media.dir := rfl
@[simp] theorem State.setFlash_media_channels (s : State) (x y : Nat) (v : SlotContent) :
    (s.setFlash x y v).media.channels = s.media.channels := rfl
@[simp] theorem State.setFlash_media_pointer (s : State) (x y : Nat) (v : SlotContent) :
    (s.setFlash x y v).media.pointer = s.media.pointer := rfl
@[simp] theorem State.setFlash_media_slotWait (s : State) (x y : Nat) (v : SlotContent) :
    (s.setFlash x y v).media.slotWait = s.media.slotWait := rfl
@[simp] theorem State.setFlash_link (s : State) (x y : Nat) (v : SlotContent) (p : Port) :
    (s.setFlash x y v).link p = s.link p := by cases p <;> rfl
@[simp] theorem State.setFlash_today (s : State) (x y : Nat) (v : SlotContent) :
    (s.setFlash x y v).today = s.today := rfl
@[simp] theorem State.setFlash_lookback (s : State) (x y : Nat) (v : SlotContent) :
    (s.setFlash x y v).lookback = s.lookback := rfl
@[simp] theorem State.setFlash_entry (s : State) (x y : Nat) (v : SlotContent) (e : Nat) :
    (s.setFlash x y v).entry e = s.entry e := rfl
@[simp] theorem State.setFlash_channel (s : State) (x y : Nat) (v : SlotContent) (c : Nat) :
    (s.setFlash x y v).channel c = s.channel c := rfl
@[simp] theorem State.setFlash_builder (s : State) (x y : Nat) (v : SlotContent) (b : Nat) :
    (s.setFlash x y v).builder b = s.builder b := rfl
@[simp] theorem State.setFlash_code (s : State) (x y : Nat) (v : SlotContent) (c : Nat) :
    (s.setFlash x y v).code c = s.code c := rfl
@[simp] theorem State.setFlash_source (s : State) (x y : Nat) (v : SlotContent) (n : Nat) :
    (s.setFlash x y v).source n = s.source n := rfl
@[simp] theorem State.setFlash_intakeSlot (s : State) (x y : Nat) (v : SlotContent) (i : Nat) :
    (s.setFlash x y v).intakeSlot i = s.intakeSlot i := rfl
@[simp] theorem State.setFlash_retClass (s : State) (x y : Nat) (v : SlotContent) (c : Nat) :
    (s.setFlash x y v).retClass c = s.retClass c := rfl
@[simp] theorem State.setFlash_hold (s : State) (x y : Nat) (v : SlotContent) (h : Nat) :
    (s.setFlash x y v).hold h = s.hold h := rfl
@[simp] theorem State.setFlash_cursor (s : State) (x y : Nat) (v : SlotContent) (c : Nat) :
    (s.setFlash x y v).cursor c = s.cursor c := rfl
@[simp] theorem State.setFlash_tallyEntry (s : State) (x y : Nat) (v : SlotContent) (n d : Nat) :
    (s.setFlash x y v).tallyEntry n d = s.tallyEntry n d := rfl

/-! ### `State.setBuilder` -/

@[simp] theorem State.setBuilder_pending (s : State) (k : Nat) (v : Builder) :
    (s.setBuilder k v).pending = s.pending := rfl
@[simp] theorem State.setBuilder_powered (s : State) (k : Nat) (v : Builder) :
    (s.setBuilder k v).powered = s.powered := rfl
@[simp] theorem State.setBuilder_second (s : State) (k : Nat) (v : Builder) :
    (s.setBuilder k v).second = s.second := rfl
@[simp] theorem State.setBuilder_free (s : State) (k : Nat) (v : Builder) : (s.setBuilder k v).free = s.free := rfl
@[simp] theorem State.setBuilder_portA (s : State) (k : Nat) (v : Builder) : (s.setBuilder k v).portA = s.portA := rfl
@[simp] theorem State.setBuilder_portB (s : State) (k : Nat) (v : Builder) : (s.setBuilder k v).portB = s.portB := rfl
@[simp] theorem State.setBuilder_intake (s : State) (k : Nat) (v : Builder) :
    (s.setBuilder k v).intake = s.intake := rfl
@[simp] theorem State.setBuilder_media (s : State) (k : Nat) (v : Builder) : (s.setBuilder k v).media = s.media := rfl
@[simp] theorem State.setBuilder_ret (s : State) (k : Nat) (v : Builder) : (s.setBuilder k v).ret = s.ret := rfl
@[simp] theorem State.setBuilder_audit (s : State) (k : Nat) (v : Builder) : (s.setBuilder k v).audit = s.audit := rfl
@[simp] theorem State.setBuilder_cursors (s : State) (k : Nat) (v : Builder) :
    (s.setBuilder k v).cursors = s.cursors := rfl
@[simp] theorem State.setBuilder_cat (s : State) (k : Nat) (v : Builder) : (s.setBuilder k v).cat = s.cat := rfl
@[simp] theorem State.setBuilder_fault (s : State) (k : Nat) (v : Builder) : (s.setBuilder k v).fault = s.fault := rfl
@[simp] theorem State.setBuilder_comp_queue (s : State) (k : Nat) (v : Builder) :
    (s.setBuilder k v).comp.queue = s.comp.queue := rfl
@[simp] theorem State.setBuilder_comp_headHeld (s : State) (k : Nat) (v : Builder) :
    (s.setBuilder k v).comp.headHeld = s.comp.headHeld := rfl
@[simp] theorem State.setBuilder_comp_opening (s : State) (k : Nat) (v : Builder) :
    (s.setBuilder k v).comp.opening = s.comp.opening := rfl
@[simp] theorem State.setBuilder_comp_stopped (s : State) (k : Nat) (v : Builder) :
    (s.setBuilder k v).comp.stopped = s.comp.stopped := rfl
@[simp] theorem State.setBuilder_comp_closesOwed (s : State) (k : Nat) (v : Builder) :
    (s.setBuilder k v).comp.closesOwed = s.comp.closesOwed := rfl
@[simp] theorem State.setBuilder_comp_codes (s : State) (k : Nat) (v : Builder) :
    (s.setBuilder k v).comp.codes = s.comp.codes := rfl
@[simp] theorem State.setBuilder_link (s : State) (k : Nat) (v : Builder) (p : Port) :
    (s.setBuilder k v).link p = s.link p := by cases p <;> rfl
@[simp] theorem State.setBuilder_today (s : State) (k : Nat) (v : Builder) : (s.setBuilder k v).today = s.today := rfl
@[simp] theorem State.setBuilder_lookback (s : State) (k : Nat) (v : Builder) :
    (s.setBuilder k v).lookback = s.lookback := rfl
@[simp] theorem State.setBuilder_entry (s : State) (k : Nat) (v : Builder) (e : Nat) :
    (s.setBuilder k v).entry e = s.entry e := rfl
@[simp] theorem State.setBuilder_channel (s : State) (k : Nat) (v : Builder) (c : Nat) :
    (s.setBuilder k v).channel c = s.channel c := rfl
@[simp] theorem State.setBuilder_flashAt (s : State) (k : Nat) (v : Builder) (c i : Nat) :
    (s.setBuilder k v).flashAt c i = s.flashAt c i := rfl
@[simp] theorem State.setBuilder_code (s : State) (k : Nat) (v : Builder) (c : Nat) :
    (s.setBuilder k v).code c = s.code c := rfl
@[simp] theorem State.setBuilder_source (s : State) (k : Nat) (v : Builder) (n : Nat) :
    (s.setBuilder k v).source n = s.source n := rfl
@[simp] theorem State.setBuilder_intakeSlot (s : State) (k : Nat) (v : Builder) (i : Nat) :
    (s.setBuilder k v).intakeSlot i = s.intakeSlot i := rfl
@[simp] theorem State.setBuilder_retClass (s : State) (k : Nat) (v : Builder) (c : Nat) :
    (s.setBuilder k v).retClass c = s.retClass c := rfl
@[simp] theorem State.setBuilder_hold (s : State) (k : Nat) (v : Builder) (h : Nat) :
    (s.setBuilder k v).hold h = s.hold h := rfl
@[simp] theorem State.setBuilder_cursor (s : State) (k : Nat) (v : Builder) (c : Nat) :
    (s.setBuilder k v).cursor c = s.cursor c := rfl
@[simp] theorem State.setBuilder_tallyEntry (s : State) (k : Nat) (v : Builder) (n d : Nat) :
    (s.setBuilder k v).tallyEntry n d = s.tallyEntry n d := rfl
@[simp] theorem State.setBuilder_builder_same (s : State) (k : Nat) (v : Builder) :
    (s.setBuilder k v).builder k = v := Tbl.get_set_same _ _ _ _
theorem State.setBuilder_builder_ne (s : State) (k : Nat) (v : Builder) {i : Nat} (h : i ≠ k) : (s.setBuilder k v).builder i = s.builder i :=
  Tbl.get_set_ne _ _ _ h
theorem State.setBuilder_builder (s : State) (k : Nat) (v : Builder) (i : Nat) :
    (s.setBuilder k v).builder i = if i = k then v else s.builder i := Tbl.get_set _ _ _ _ _

/-! ### `State.setCode` -/

@[simp] theorem State.setCode_pending (s : State) (k : Nat) (v : SharedCode) :
    (s.setCode k v).pending = s.pending := rfl
@[simp] theorem State.setCode_powered (s : State) (k : Nat) (v : SharedCode) :
    (s.setCode k v).powered = s.powered := rfl
@[simp] theorem State.setCode_second (s : State) (k : Nat) (v : SharedCode) : (s.setCode k v).second = s.second := rfl
@[simp] theorem State.setCode_free (s : State) (k : Nat) (v : SharedCode) : (s.setCode k v).free = s.free := rfl
@[simp] theorem State.setCode_portA (s : State) (k : Nat) (v : SharedCode) : (s.setCode k v).portA = s.portA := rfl
@[simp] theorem State.setCode_portB (s : State) (k : Nat) (v : SharedCode) : (s.setCode k v).portB = s.portB := rfl
@[simp] theorem State.setCode_intake (s : State) (k : Nat) (v : SharedCode) : (s.setCode k v).intake = s.intake := rfl
@[simp] theorem State.setCode_media (s : State) (k : Nat) (v : SharedCode) : (s.setCode k v).media = s.media := rfl
@[simp] theorem State.setCode_ret (s : State) (k : Nat) (v : SharedCode) : (s.setCode k v).ret = s.ret := rfl
@[simp] theorem State.setCode_audit (s : State) (k : Nat) (v : SharedCode) : (s.setCode k v).audit = s.audit := rfl
@[simp] theorem State.setCode_cursors (s : State) (k : Nat) (v : SharedCode) :
    (s.setCode k v).cursors = s.cursors := rfl
@[simp] theorem State.setCode_cat (s : State) (k : Nat) (v : SharedCode) : (s.setCode k v).cat = s.cat := rfl
@[simp] theorem State.setCode_fault (s : State) (k : Nat) (v : SharedCode) : (s.setCode k v).fault = s.fault := rfl
@[simp] theorem State.setCode_comp_queue (s : State) (k : Nat) (v : SharedCode) :
    (s.setCode k v).comp.queue = s.comp.queue := rfl
@[simp] theorem State.setCode_comp_headHeld (s : State) (k : Nat) (v : SharedCode) :
    (s.setCode k v).comp.headHeld = s.comp.headHeld := rfl
@[simp] theorem State.setCode_comp_builders (s : State) (k : Nat) (v : SharedCode) :
    (s.setCode k v).comp.builders = s.comp.builders := rfl
@[simp] theorem State.setCode_comp_opening (s : State) (k : Nat) (v : SharedCode) :
    (s.setCode k v).comp.opening = s.comp.opening := rfl
@[simp] theorem State.setCode_comp_stopped (s : State) (k : Nat) (v : SharedCode) :
    (s.setCode k v).comp.stopped = s.comp.stopped := rfl
@[simp] theorem State.setCode_comp_closesOwed (s : State) (k : Nat) (v : SharedCode) :
    (s.setCode k v).comp.closesOwed = s.comp.closesOwed := rfl
@[simp] theorem State.setCode_link (s : State) (k : Nat) (v : SharedCode) (p : Port) :
    (s.setCode k v).link p = s.link p := by cases p <;> rfl
@[simp] theorem State.setCode_today (s : State) (k : Nat) (v : SharedCode) : (s.setCode k v).today = s.today := rfl
@[simp] theorem State.setCode_lookback (s : State) (k : Nat) (v : SharedCode) :
    (s.setCode k v).lookback = s.lookback := rfl
@[simp] theorem State.setCode_entry (s : State) (k : Nat) (v : SharedCode) (e : Nat) :
    (s.setCode k v).entry e = s.entry e := rfl
@[simp] theorem State.setCode_channel (s : State) (k : Nat) (v : SharedCode) (c : Nat) :
    (s.setCode k v).channel c = s.channel c := rfl
@[simp] theorem State.setCode_flashAt (s : State) (k : Nat) (v : SharedCode) (c i : Nat) :
    (s.setCode k v).flashAt c i = s.flashAt c i := rfl
@[simp] theorem State.setCode_builder (s : State) (k : Nat) (v : SharedCode) (b : Nat) :
    (s.setCode k v).builder b = s.builder b := rfl
@[simp] theorem State.setCode_source (s : State) (k : Nat) (v : SharedCode) (n : Nat) :
    (s.setCode k v).source n = s.source n := rfl
@[simp] theorem State.setCode_intakeSlot (s : State) (k : Nat) (v : SharedCode) (i : Nat) :
    (s.setCode k v).intakeSlot i = s.intakeSlot i := rfl
@[simp] theorem State.setCode_retClass (s : State) (k : Nat) (v : SharedCode) (c : Nat) :
    (s.setCode k v).retClass c = s.retClass c := rfl
@[simp] theorem State.setCode_hold (s : State) (k : Nat) (v : SharedCode) (h : Nat) :
    (s.setCode k v).hold h = s.hold h := rfl
@[simp] theorem State.setCode_cursor (s : State) (k : Nat) (v : SharedCode) (c : Nat) :
    (s.setCode k v).cursor c = s.cursor c := rfl
@[simp] theorem State.setCode_tallyEntry (s : State) (k : Nat) (v : SharedCode) (n d : Nat) :
    (s.setCode k v).tallyEntry n d = s.tallyEntry n d := rfl
@[simp] theorem State.setCode_code_same (s : State) (k : Nat) (v : SharedCode) :
    (s.setCode k v).code k = v := Tbl.get_set_same _ _ _ _
theorem State.setCode_code_ne (s : State) (k : Nat) (v : SharedCode) {i : Nat} (h : i ≠ k) : (s.setCode k v).code i = s.code i :=
  Tbl.get_set_ne _ _ _ h
theorem State.setCode_code (s : State) (k : Nat) (v : SharedCode) (i : Nat) :
    (s.setCode k v).code i = if i = k then v else s.code i := Tbl.get_set _ _ _ _ _

/-! ### `State.setSource` -/

@[simp] theorem State.setSource_pending (s : State) (k : Nat) (v : SourceEntry) :
    (s.setSource k v).pending = s.pending := rfl
@[simp] theorem State.setSource_powered (s : State) (k : Nat) (v : SourceEntry) :
    (s.setSource k v).powered = s.powered := rfl
@[simp] theorem State.setSource_second (s : State) (k : Nat) (v : SourceEntry) :
    (s.setSource k v).second = s.second := rfl
@[simp] theorem State.setSource_free (s : State) (k : Nat) (v : SourceEntry) : (s.setSource k v).free = s.free := rfl
@[simp] theorem State.setSource_portA (s : State) (k : Nat) (v : SourceEntry) : (s.setSource k v).portA = s.portA := rfl
@[simp] theorem State.setSource_portB (s : State) (k : Nat) (v : SourceEntry) : (s.setSource k v).portB = s.portB := rfl
@[simp] theorem State.setSource_comp (s : State) (k : Nat) (v : SourceEntry) : (s.setSource k v).comp = s.comp := rfl
@[simp] theorem State.setSource_media (s : State) (k : Nat) (v : SourceEntry) : (s.setSource k v).media = s.media := rfl
@[simp] theorem State.setSource_ret (s : State) (k : Nat) (v : SourceEntry) : (s.setSource k v).ret = s.ret := rfl
@[simp] theorem State.setSource_audit (s : State) (k : Nat) (v : SourceEntry) : (s.setSource k v).audit = s.audit := rfl
@[simp] theorem State.setSource_cursors (s : State) (k : Nat) (v : SourceEntry) :
    (s.setSource k v).cursors = s.cursors := rfl
@[simp] theorem State.setSource_cat (s : State) (k : Nat) (v : SourceEntry) : (s.setSource k v).cat = s.cat := rfl
@[simp] theorem State.setSource_fault (s : State) (k : Nat) (v : SourceEntry) : (s.setSource k v).fault = s.fault := rfl
@[simp] theorem State.setSource_intake_slots (s : State) (k : Nat) (v : SourceEntry) :
    (s.setSource k v).intake.slots = s.intake.slots := rfl
@[simp] theorem State.setSource_intake_closing (s : State) (k : Nat) (v : SourceEntry) :
    (s.setSource k v).intake.closing = s.intake.closing := rfl
@[simp] theorem State.setSource_intake_tally (s : State) (k : Nat) (v : SourceEntry) :
    (s.setSource k v).intake.tally = s.intake.tally := rfl
@[simp] theorem State.setSource_intake_freePages (s : State) (k : Nat) (v : SourceEntry) :
    (s.setSource k v).intake.freePages = s.intake.freePages := rfl
@[simp] theorem State.setSource_intake_ageings (s : State) (k : Nat) (v : SourceEntry) :
    (s.setSource k v).intake.ageings = s.intake.ageings := rfl
@[simp] theorem State.setSource_link (s : State) (k : Nat) (v : SourceEntry) (p : Port) :
    (s.setSource k v).link p = s.link p := by cases p <;> rfl
@[simp] theorem State.setSource_today (s : State) (k : Nat) (v : SourceEntry) : (s.setSource k v).today = s.today := rfl
@[simp] theorem State.setSource_lookback (s : State) (k : Nat) (v : SourceEntry) :
    (s.setSource k v).lookback = s.lookback := rfl
@[simp] theorem State.setSource_entry (s : State) (k : Nat) (v : SourceEntry) (e : Nat) :
    (s.setSource k v).entry e = s.entry e := rfl
@[simp] theorem State.setSource_channel (s : State) (k : Nat) (v : SourceEntry) (c : Nat) :
    (s.setSource k v).channel c = s.channel c := rfl
@[simp] theorem State.setSource_flashAt (s : State) (k : Nat) (v : SourceEntry) (c i : Nat) :
    (s.setSource k v).flashAt c i = s.flashAt c i := rfl
@[simp] theorem State.setSource_builder (s : State) (k : Nat) (v : SourceEntry) (b : Nat) :
    (s.setSource k v).builder b = s.builder b := rfl
@[simp] theorem State.setSource_code (s : State) (k : Nat) (v : SourceEntry) (c : Nat) :
    (s.setSource k v).code c = s.code c := rfl
@[simp] theorem State.setSource_intakeSlot (s : State) (k : Nat) (v : SourceEntry) (i : Nat) :
    (s.setSource k v).intakeSlot i = s.intakeSlot i := rfl
@[simp] theorem State.setSource_retClass (s : State) (k : Nat) (v : SourceEntry) (c : Nat) :
    (s.setSource k v).retClass c = s.retClass c := rfl
@[simp] theorem State.setSource_hold (s : State) (k : Nat) (v : SourceEntry) (h : Nat) :
    (s.setSource k v).hold h = s.hold h := rfl
@[simp] theorem State.setSource_cursor (s : State) (k : Nat) (v : SourceEntry) (c : Nat) :
    (s.setSource k v).cursor c = s.cursor c := rfl
@[simp] theorem State.setSource_tallyEntry (s : State) (k : Nat) (v : SourceEntry) (n d : Nat) :
    (s.setSource k v).tallyEntry n d = s.tallyEntry n d := rfl
@[simp] theorem State.setSource_source_same (s : State) (k : Nat) (v : SourceEntry) :
    (s.setSource k v).source k = v := Tbl.get_set_same _ _ _ _
theorem State.setSource_source_ne (s : State) (k : Nat) (v : SourceEntry) {i : Nat} (h : i ≠ k) : (s.setSource k v).source i = s.source i :=
  Tbl.get_set_ne _ _ _ h
theorem State.setSource_source (s : State) (k : Nat) (v : SourceEntry) (i : Nat) :
    (s.setSource k v).source i = if i = k then v else s.source i := Tbl.get_set _ _ _ _ _

/-! ### `State.setIntakeSlot` -/

@[simp] theorem State.setIntakeSlot_pending (s : State) (k : Nat) (v : IntakeSlot) :
    (s.setIntakeSlot k v).pending = s.pending := rfl
@[simp] theorem State.setIntakeSlot_powered (s : State) (k : Nat) (v : IntakeSlot) :
    (s.setIntakeSlot k v).powered = s.powered := rfl
@[simp] theorem State.setIntakeSlot_second (s : State) (k : Nat) (v : IntakeSlot) :
    (s.setIntakeSlot k v).second = s.second := rfl
@[simp] theorem State.setIntakeSlot_free (s : State) (k : Nat) (v : IntakeSlot) :
    (s.setIntakeSlot k v).free = s.free := rfl
@[simp] theorem State.setIntakeSlot_portA (s : State) (k : Nat) (v : IntakeSlot) :
    (s.setIntakeSlot k v).portA = s.portA := rfl
@[simp] theorem State.setIntakeSlot_portB (s : State) (k : Nat) (v : IntakeSlot) :
    (s.setIntakeSlot k v).portB = s.portB := rfl
@[simp] theorem State.setIntakeSlot_comp (s : State) (k : Nat) (v : IntakeSlot) :
    (s.setIntakeSlot k v).comp = s.comp := rfl
@[simp] theorem State.setIntakeSlot_media (s : State) (k : Nat) (v : IntakeSlot) :
    (s.setIntakeSlot k v).media = s.media := rfl
@[simp] theorem State.setIntakeSlot_ret (s : State) (k : Nat) (v : IntakeSlot) :
    (s.setIntakeSlot k v).ret = s.ret := rfl
@[simp] theorem State.setIntakeSlot_audit (s : State) (k : Nat) (v : IntakeSlot) :
    (s.setIntakeSlot k v).audit = s.audit := rfl
@[simp] theorem State.setIntakeSlot_cursors (s : State) (k : Nat) (v : IntakeSlot) :
    (s.setIntakeSlot k v).cursors = s.cursors := rfl
@[simp] theorem State.setIntakeSlot_cat (s : State) (k : Nat) (v : IntakeSlot) :
    (s.setIntakeSlot k v).cat = s.cat := rfl
@[simp] theorem State.setIntakeSlot_fault (s : State) (k : Nat) (v : IntakeSlot) :
    (s.setIntakeSlot k v).fault = s.fault := rfl
@[simp] theorem State.setIntakeSlot_intake_sources (s : State) (k : Nat) (v : IntakeSlot) :
    (s.setIntakeSlot k v).intake.sources = s.intake.sources := rfl
@[simp] theorem State.setIntakeSlot_intake_closing (s : State) (k : Nat) (v : IntakeSlot) :
    (s.setIntakeSlot k v).intake.closing = s.intake.closing := rfl
@[simp] theorem State.setIntakeSlot_intake_tally (s : State) (k : Nat) (v : IntakeSlot) :
    (s.setIntakeSlot k v).intake.tally = s.intake.tally := rfl
@[simp] theorem State.setIntakeSlot_intake_freePages (s : State) (k : Nat) (v : IntakeSlot) :
    (s.setIntakeSlot k v).intake.freePages = s.intake.freePages := rfl
@[simp] theorem State.setIntakeSlot_intake_ageings (s : State) (k : Nat) (v : IntakeSlot) :
    (s.setIntakeSlot k v).intake.ageings = s.intake.ageings := rfl
@[simp] theorem State.setIntakeSlot_link (s : State) (k : Nat) (v : IntakeSlot) (p : Port) :
    (s.setIntakeSlot k v).link p = s.link p := by cases p <;> rfl
@[simp] theorem State.setIntakeSlot_today (s : State) (k : Nat) (v : IntakeSlot) :
    (s.setIntakeSlot k v).today = s.today := rfl
@[simp] theorem State.setIntakeSlot_lookback (s : State) (k : Nat) (v : IntakeSlot) :
    (s.setIntakeSlot k v).lookback = s.lookback := rfl
@[simp] theorem State.setIntakeSlot_entry (s : State) (k : Nat) (v : IntakeSlot) (e : Nat) :
    (s.setIntakeSlot k v).entry e = s.entry e := rfl
@[simp] theorem State.setIntakeSlot_channel (s : State) (k : Nat) (v : IntakeSlot) (c : Nat) :
    (s.setIntakeSlot k v).channel c = s.channel c := rfl
@[simp] theorem State.setIntakeSlot_flashAt (s : State) (k : Nat) (v : IntakeSlot) (c i : Nat) :
    (s.setIntakeSlot k v).flashAt c i = s.flashAt c i := rfl
@[simp] theorem State.setIntakeSlot_builder (s : State) (k : Nat) (v : IntakeSlot) (b : Nat) :
    (s.setIntakeSlot k v).builder b = s.builder b := rfl
@[simp] theorem State.setIntakeSlot_code (s : State) (k : Nat) (v : IntakeSlot) (c : Nat) :
    (s.setIntakeSlot k v).code c = s.code c := rfl
@[simp] theorem State.setIntakeSlot_source (s : State) (k : Nat) (v : IntakeSlot) (n : Nat) :
    (s.setIntakeSlot k v).source n = s.source n := rfl
@[simp] theorem State.setIntakeSlot_retClass (s : State) (k : Nat) (v : IntakeSlot) (c : Nat) :
    (s.setIntakeSlot k v).retClass c = s.retClass c := rfl
@[simp] theorem State.setIntakeSlot_hold (s : State) (k : Nat) (v : IntakeSlot) (h : Nat) :
    (s.setIntakeSlot k v).hold h = s.hold h := rfl
@[simp] theorem State.setIntakeSlot_cursor (s : State) (k : Nat) (v : IntakeSlot) (c : Nat) :
    (s.setIntakeSlot k v).cursor c = s.cursor c := rfl
@[simp] theorem State.setIntakeSlot_tallyEntry (s : State) (k : Nat) (v : IntakeSlot) (n d : Nat) :
    (s.setIntakeSlot k v).tallyEntry n d = s.tallyEntry n d := rfl
@[simp] theorem State.setIntakeSlot_intakeSlot_same (s : State) (k : Nat) (v : IntakeSlot) :
    (s.setIntakeSlot k v).intakeSlot k = v := Tbl.get_set_same _ _ _ _
theorem State.setIntakeSlot_intakeSlot_ne (s : State) (k : Nat) (v : IntakeSlot) {i : Nat} (h : i ≠ k) : (s.setIntakeSlot k v).intakeSlot i = s.intakeSlot i :=
  Tbl.get_set_ne _ _ _ h
theorem State.setIntakeSlot_intakeSlot (s : State) (k : Nat) (v : IntakeSlot) (i : Nat) :
    (s.setIntakeSlot k v).intakeSlot i = if i = k then v else s.intakeSlot i := Tbl.get_set _ _ _ _ _

/-! ### `State.setTally` -/

@[simp] theorem State.setTally_pending (s : State) (x y : Nat) (v : TallyEntry) :
    (s.setTally x y v).pending = s.pending := rfl
@[simp] theorem State.setTally_powered (s : State) (x y : Nat) (v : TallyEntry) :
    (s.setTally x y v).powered = s.powered := rfl
@[simp] theorem State.setTally_second (s : State) (x y : Nat) (v : TallyEntry) :
    (s.setTally x y v).second = s.second := rfl
@[simp] theorem State.setTally_free (s : State) (x y : Nat) (v : TallyEntry) : (s.setTally x y v).free = s.free := rfl
@[simp] theorem State.setTally_portA (s : State) (x y : Nat) (v : TallyEntry) :
    (s.setTally x y v).portA = s.portA := rfl
@[simp] theorem State.setTally_portB (s : State) (x y : Nat) (v : TallyEntry) :
    (s.setTally x y v).portB = s.portB := rfl
@[simp] theorem State.setTally_comp (s : State) (x y : Nat) (v : TallyEntry) : (s.setTally x y v).comp = s.comp := rfl
@[simp] theorem State.setTally_media (s : State) (x y : Nat) (v : TallyEntry) :
    (s.setTally x y v).media = s.media := rfl
@[simp] theorem State.setTally_ret (s : State) (x y : Nat) (v : TallyEntry) : (s.setTally x y v).ret = s.ret := rfl
@[simp] theorem State.setTally_audit (s : State) (x y : Nat) (v : TallyEntry) :
    (s.setTally x y v).audit = s.audit := rfl
@[simp] theorem State.setTally_cursors (s : State) (x y : Nat) (v : TallyEntry) :
    (s.setTally x y v).cursors = s.cursors := rfl
@[simp] theorem State.setTally_cat (s : State) (x y : Nat) (v : TallyEntry) : (s.setTally x y v).cat = s.cat := rfl
@[simp] theorem State.setTally_fault (s : State) (x y : Nat) (v : TallyEntry) :
    (s.setTally x y v).fault = s.fault := rfl
@[simp] theorem State.setTally_intake_sources (s : State) (x y : Nat) (v : TallyEntry) :
    (s.setTally x y v).intake.sources = s.intake.sources := rfl
@[simp] theorem State.setTally_intake_slots (s : State) (x y : Nat) (v : TallyEntry) :
    (s.setTally x y v).intake.slots = s.intake.slots := rfl
@[simp] theorem State.setTally_intake_closing (s : State) (x y : Nat) (v : TallyEntry) :
    (s.setTally x y v).intake.closing = s.intake.closing := rfl
@[simp] theorem State.setTally_intake_freePages (s : State) (x y : Nat) (v : TallyEntry) :
    (s.setTally x y v).intake.freePages = s.intake.freePages := rfl
@[simp] theorem State.setTally_intake_ageings (s : State) (x y : Nat) (v : TallyEntry) :
    (s.setTally x y v).intake.ageings = s.intake.ageings := rfl
@[simp] theorem State.setTally_link (s : State) (x y : Nat) (v : TallyEntry) (p : Port) :
    (s.setTally x y v).link p = s.link p := by cases p <;> rfl
@[simp] theorem State.setTally_today (s : State) (x y : Nat) (v : TallyEntry) :
    (s.setTally x y v).today = s.today := rfl
@[simp] theorem State.setTally_lookback (s : State) (x y : Nat) (v : TallyEntry) :
    (s.setTally x y v).lookback = s.lookback := rfl
@[simp] theorem State.setTally_entry (s : State) (x y : Nat) (v : TallyEntry) (e : Nat) :
    (s.setTally x y v).entry e = s.entry e := rfl
@[simp] theorem State.setTally_channel (s : State) (x y : Nat) (v : TallyEntry) (c : Nat) :
    (s.setTally x y v).channel c = s.channel c := rfl
@[simp] theorem State.setTally_flashAt (s : State) (x y : Nat) (v : TallyEntry) (c i : Nat) :
    (s.setTally x y v).flashAt c i = s.flashAt c i := rfl
@[simp] theorem State.setTally_builder (s : State) (x y : Nat) (v : TallyEntry) (b : Nat) :
    (s.setTally x y v).builder b = s.builder b := rfl
@[simp] theorem State.setTally_code (s : State) (x y : Nat) (v : TallyEntry) (c : Nat) :
    (s.setTally x y v).code c = s.code c := rfl
@[simp] theorem State.setTally_source (s : State) (x y : Nat) (v : TallyEntry) (n : Nat) :
    (s.setTally x y v).source n = s.source n := rfl
@[simp] theorem State.setTally_intakeSlot (s : State) (x y : Nat) (v : TallyEntry) (i : Nat) :
    (s.setTally x y v).intakeSlot i = s.intakeSlot i := rfl
@[simp] theorem State.setTally_retClass (s : State) (x y : Nat) (v : TallyEntry) (c : Nat) :
    (s.setTally x y v).retClass c = s.retClass c := rfl
@[simp] theorem State.setTally_hold (s : State) (x y : Nat) (v : TallyEntry) (h : Nat) :
    (s.setTally x y v).hold h = s.hold h := rfl
@[simp] theorem State.setTally_cursor (s : State) (x y : Nat) (v : TallyEntry) (c : Nat) :
    (s.setTally x y v).cursor c = s.cursor c := rfl

/-! ### `State.setRetClass` -/

@[simp] theorem State.setRetClass_pending (s : State) (k : Nat) (v : ClassEntry) :
    (s.setRetClass k v).pending = s.pending := rfl
@[simp] theorem State.setRetClass_powered (s : State) (k : Nat) (v : ClassEntry) :
    (s.setRetClass k v).powered = s.powered := rfl
@[simp] theorem State.setRetClass_second (s : State) (k : Nat) (v : ClassEntry) :
    (s.setRetClass k v).second = s.second := rfl
@[simp] theorem State.setRetClass_free (s : State) (k : Nat) (v : ClassEntry) : (s.setRetClass k v).free = s.free := rfl
@[simp] theorem State.setRetClass_portA (s : State) (k : Nat) (v : ClassEntry) :
    (s.setRetClass k v).portA = s.portA := rfl
@[simp] theorem State.setRetClass_portB (s : State) (k : Nat) (v : ClassEntry) :
    (s.setRetClass k v).portB = s.portB := rfl
@[simp] theorem State.setRetClass_intake (s : State) (k : Nat) (v : ClassEntry) :
    (s.setRetClass k v).intake = s.intake := rfl
@[simp] theorem State.setRetClass_comp (s : State) (k : Nat) (v : ClassEntry) : (s.setRetClass k v).comp = s.comp := rfl
@[simp] theorem State.setRetClass_media (s : State) (k : Nat) (v : ClassEntry) :
    (s.setRetClass k v).media = s.media := rfl
@[simp] theorem State.setRetClass_audit (s : State) (k : Nat) (v : ClassEntry) :
    (s.setRetClass k v).audit = s.audit := rfl
@[simp] theorem State.setRetClass_cursors (s : State) (k : Nat) (v : ClassEntry) :
    (s.setRetClass k v).cursors = s.cursors := rfl
@[simp] theorem State.setRetClass_cat (s : State) (k : Nat) (v : ClassEntry) : (s.setRetClass k v).cat = s.cat := rfl
@[simp] theorem State.setRetClass_fault (s : State) (k : Nat) (v : ClassEntry) :
    (s.setRetClass k v).fault = s.fault := rfl
@[simp] theorem State.setRetClass_ret_today (s : State) (k : Nat) (v : ClassEntry) :
    (s.setRetClass k v).ret.today = s.ret.today := rfl
@[simp] theorem State.setRetClass_ret_lastSwept (s : State) (k : Nat) (v : ClassEntry) :
    (s.setRetClass k v).ret.lastSwept = s.ret.lastSwept := rfl
@[simp] theorem State.setRetClass_ret_holds (s : State) (k : Nat) (v : ClassEntry) :
    (s.setRetClass k v).ret.holds = s.ret.holds := rfl
@[simp] theorem State.setRetClass_ret_sweeps (s : State) (k : Nat) (v : ClassEntry) :
    (s.setRetClass k v).ret.sweeps = s.ret.sweeps := rfl
@[simp] theorem State.setRetClass_ret_suspended (s : State) (k : Nat) (v : ClassEntry) :
    (s.setRetClass k v).ret.suspended = s.ret.suspended := rfl
@[simp] theorem State.setRetClass_ret_lastDay (s : State) (k : Nat) (v : ClassEntry) :
    (s.setRetClass k v).ret.lastDay = s.ret.lastDay := rfl
@[simp] theorem State.setRetClass_ret_lastExtend (s : State) (k : Nat) (v : ClassEntry) :
    (s.setRetClass k v).ret.lastExtend = s.ret.lastExtend := rfl
@[simp] theorem State.setRetClass_ret_eraserStopped (s : State) (k : Nat) (v : ClassEntry) :
    (s.setRetClass k v).ret.eraserStopped = s.ret.eraserStopped := rfl
@[simp] theorem State.setRetClass_ret_erasing (s : State) (k : Nat) (v : ClassEntry) :
    (s.setRetClass k v).ret.erasing = s.ret.erasing := rfl
@[simp] theorem State.setRetClass_link (s : State) (k : Nat) (v : ClassEntry) (p : Port) :
    (s.setRetClass k v).link p = s.link p := by cases p <;> rfl
@[simp] theorem State.setRetClass_today (s : State) (k : Nat) (v : ClassEntry) :
    (s.setRetClass k v).today = s.today := rfl
@[simp] theorem State.setRetClass_lookback (s : State) (k : Nat) (v : ClassEntry) :
    (s.setRetClass k v).lookback = s.lookback := rfl
@[simp] theorem State.setRetClass_entry (s : State) (k : Nat) (v : ClassEntry) (e : Nat) :
    (s.setRetClass k v).entry e = s.entry e := rfl
@[simp] theorem State.setRetClass_channel (s : State) (k : Nat) (v : ClassEntry) (c : Nat) :
    (s.setRetClass k v).channel c = s.channel c := rfl
@[simp] theorem State.setRetClass_flashAt (s : State) (k : Nat) (v : ClassEntry) (c i : Nat) :
    (s.setRetClass k v).flashAt c i = s.flashAt c i := rfl
@[simp] theorem State.setRetClass_builder (s : State) (k : Nat) (v : ClassEntry) (b : Nat) :
    (s.setRetClass k v).builder b = s.builder b := rfl
@[simp] theorem State.setRetClass_code (s : State) (k : Nat) (v : ClassEntry) (c : Nat) :
    (s.setRetClass k v).code c = s.code c := rfl
@[simp] theorem State.setRetClass_source (s : State) (k : Nat) (v : ClassEntry) (n : Nat) :
    (s.setRetClass k v).source n = s.source n := rfl
@[simp] theorem State.setRetClass_intakeSlot (s : State) (k : Nat) (v : ClassEntry) (i : Nat) :
    (s.setRetClass k v).intakeSlot i = s.intakeSlot i := rfl
@[simp] theorem State.setRetClass_hold (s : State) (k : Nat) (v : ClassEntry) (h : Nat) :
    (s.setRetClass k v).hold h = s.hold h := rfl
@[simp] theorem State.setRetClass_cursor (s : State) (k : Nat) (v : ClassEntry) (c : Nat) :
    (s.setRetClass k v).cursor c = s.cursor c := rfl
@[simp] theorem State.setRetClass_tallyEntry (s : State) (k : Nat) (v : ClassEntry) (n d : Nat) :
    (s.setRetClass k v).tallyEntry n d = s.tallyEntry n d := rfl
@[simp] theorem State.setRetClass_retClass_same (s : State) (k : Nat) (v : ClassEntry) :
    (s.setRetClass k v).retClass k = v := Tbl.get_set_same _ _ _ _
theorem State.setRetClass_retClass_ne (s : State) (k : Nat) (v : ClassEntry) {i : Nat} (h : i ≠ k) : (s.setRetClass k v).retClass i = s.retClass i :=
  Tbl.get_set_ne _ _ _ h
theorem State.setRetClass_retClass (s : State) (k : Nat) (v : ClassEntry) (i : Nat) :
    (s.setRetClass k v).retClass i = if i = k then v else s.retClass i := Tbl.get_set _ _ _ _ _

/-! ### `State.setHold` -/

@[simp] theorem State.setHold_pending (s : State) (k : Nat) (v : Hold) : (s.setHold k v).pending = s.pending := rfl
@[simp] theorem State.setHold_powered (s : State) (k : Nat) (v : Hold) : (s.setHold k v).powered = s.powered := rfl
@[simp] theorem State.setHold_second (s : State) (k : Nat) (v : Hold) : (s.setHold k v).second = s.second := rfl
@[simp] theorem State.setHold_free (s : State) (k : Nat) (v : Hold) : (s.setHold k v).free = s.free := rfl
@[simp] theorem State.setHold_portA (s : State) (k : Nat) (v : Hold) : (s.setHold k v).portA = s.portA := rfl
@[simp] theorem State.setHold_portB (s : State) (k : Nat) (v : Hold) : (s.setHold k v).portB = s.portB := rfl
@[simp] theorem State.setHold_intake (s : State) (k : Nat) (v : Hold) : (s.setHold k v).intake = s.intake := rfl
@[simp] theorem State.setHold_comp (s : State) (k : Nat) (v : Hold) : (s.setHold k v).comp = s.comp := rfl
@[simp] theorem State.setHold_media (s : State) (k : Nat) (v : Hold) : (s.setHold k v).media = s.media := rfl
@[simp] theorem State.setHold_audit (s : State) (k : Nat) (v : Hold) : (s.setHold k v).audit = s.audit := rfl
@[simp] theorem State.setHold_cursors (s : State) (k : Nat) (v : Hold) : (s.setHold k v).cursors = s.cursors := rfl
@[simp] theorem State.setHold_cat (s : State) (k : Nat) (v : Hold) : (s.setHold k v).cat = s.cat := rfl
@[simp] theorem State.setHold_fault (s : State) (k : Nat) (v : Hold) : (s.setHold k v).fault = s.fault := rfl
@[simp] theorem State.setHold_ret_today (s : State) (k : Nat) (v : Hold) :
    (s.setHold k v).ret.today = s.ret.today := rfl
@[simp] theorem State.setHold_ret_lastSwept (s : State) (k : Nat) (v : Hold) :
    (s.setHold k v).ret.lastSwept = s.ret.lastSwept := rfl
@[simp] theorem State.setHold_ret_classes (s : State) (k : Nat) (v : Hold) :
    (s.setHold k v).ret.classes = s.ret.classes := rfl
@[simp] theorem State.setHold_ret_sweeps (s : State) (k : Nat) (v : Hold) :
    (s.setHold k v).ret.sweeps = s.ret.sweeps := rfl
@[simp] theorem State.setHold_ret_suspended (s : State) (k : Nat) (v : Hold) :
    (s.setHold k v).ret.suspended = s.ret.suspended := rfl
@[simp] theorem State.setHold_ret_lastDay (s : State) (k : Nat) (v : Hold) :
    (s.setHold k v).ret.lastDay = s.ret.lastDay := rfl
@[simp] theorem State.setHold_ret_lastExtend (s : State) (k : Nat) (v : Hold) :
    (s.setHold k v).ret.lastExtend = s.ret.lastExtend := rfl
@[simp] theorem State.setHold_ret_eraserStopped (s : State) (k : Nat) (v : Hold) :
    (s.setHold k v).ret.eraserStopped = s.ret.eraserStopped := rfl
@[simp] theorem State.setHold_ret_erasing (s : State) (k : Nat) (v : Hold) :
    (s.setHold k v).ret.erasing = s.ret.erasing := rfl
@[simp] theorem State.setHold_link (s : State) (k : Nat) (v : Hold) (p : Port) :
    (s.setHold k v).link p = s.link p := by cases p <;> rfl
@[simp] theorem State.setHold_today (s : State) (k : Nat) (v : Hold) : (s.setHold k v).today = s.today := rfl
@[simp] theorem State.setHold_lookback (s : State) (k : Nat) (v : Hold) : (s.setHold k v).lookback = s.lookback := rfl
@[simp] theorem State.setHold_entry (s : State) (k : Nat) (v : Hold) (e : Nat) :
    (s.setHold k v).entry e = s.entry e := rfl
@[simp] theorem State.setHold_channel (s : State) (k : Nat) (v : Hold) (c : Nat) :
    (s.setHold k v).channel c = s.channel c := rfl
@[simp] theorem State.setHold_flashAt (s : State) (k : Nat) (v : Hold) (c i : Nat) :
    (s.setHold k v).flashAt c i = s.flashAt c i := rfl
@[simp] theorem State.setHold_builder (s : State) (k : Nat) (v : Hold) (b : Nat) :
    (s.setHold k v).builder b = s.builder b := rfl
@[simp] theorem State.setHold_code (s : State) (k : Nat) (v : Hold) (c : Nat) : (s.setHold k v).code c = s.code c := rfl
@[simp] theorem State.setHold_source (s : State) (k : Nat) (v : Hold) (n : Nat) :
    (s.setHold k v).source n = s.source n := rfl
@[simp] theorem State.setHold_intakeSlot (s : State) (k : Nat) (v : Hold) (i : Nat) :
    (s.setHold k v).intakeSlot i = s.intakeSlot i := rfl
@[simp] theorem State.setHold_retClass (s : State) (k : Nat) (v : Hold) (c : Nat) :
    (s.setHold k v).retClass c = s.retClass c := rfl
@[simp] theorem State.setHold_cursor (s : State) (k : Nat) (v : Hold) (c : Nat) :
    (s.setHold k v).cursor c = s.cursor c := rfl
@[simp] theorem State.setHold_tallyEntry (s : State) (k : Nat) (v : Hold) (n d : Nat) :
    (s.setHold k v).tallyEntry n d = s.tallyEntry n d := rfl
@[simp] theorem State.setHold_hold_same (s : State) (k : Nat) (v : Hold) :
    (s.setHold k v).hold k = v := Tbl.get_set_same _ _ _ _
theorem State.setHold_hold_ne (s : State) (k : Nat) (v : Hold) {i : Nat} (h : i ≠ k) : (s.setHold k v).hold i = s.hold i :=
  Tbl.get_set_ne _ _ _ h
theorem State.setHold_hold (s : State) (k : Nat) (v : Hold) (i : Nat) :
    (s.setHold k v).hold i = if i = k then v else s.hold i := Tbl.get_set _ _ _ _ _

/-! ### `State.setSweeps` -/

@[simp] theorem State.setSweeps_pending (s : State) (q : List Sweep) : (s.setSweeps q).pending = s.pending := rfl
@[simp] theorem State.setSweeps_powered (s : State) (q : List Sweep) : (s.setSweeps q).powered = s.powered := rfl
@[simp] theorem State.setSweeps_second (s : State) (q : List Sweep) : (s.setSweeps q).second = s.second := rfl
@[simp] theorem State.setSweeps_free (s : State) (q : List Sweep) : (s.setSweeps q).free = s.free := rfl
@[simp] theorem State.setSweeps_portA (s : State) (q : List Sweep) : (s.setSweeps q).portA = s.portA := rfl
@[simp] theorem State.setSweeps_portB (s : State) (q : List Sweep) : (s.setSweeps q).portB = s.portB := rfl
@[simp] theorem State.setSweeps_intake (s : State) (q : List Sweep) : (s.setSweeps q).intake = s.intake := rfl
@[simp] theorem State.setSweeps_comp (s : State) (q : List Sweep) : (s.setSweeps q).comp = s.comp := rfl
@[simp] theorem State.setSweeps_media (s : State) (q : List Sweep) : (s.setSweeps q).media = s.media := rfl
@[simp] theorem State.setSweeps_audit (s : State) (q : List Sweep) : (s.setSweeps q).audit = s.audit := rfl
@[simp] theorem State.setSweeps_cursors (s : State) (q : List Sweep) : (s.setSweeps q).cursors = s.cursors := rfl
@[simp] theorem State.setSweeps_cat (s : State) (q : List Sweep) : (s.setSweeps q).cat = s.cat := rfl
@[simp] theorem State.setSweeps_fault (s : State) (q : List Sweep) : (s.setSweeps q).fault = s.fault := rfl
@[simp] theorem State.setSweeps_ret_today (s : State) (q : List Sweep) : (s.setSweeps q).ret.today = s.ret.today := rfl
@[simp] theorem State.setSweeps_ret_lastSwept (s : State) (q : List Sweep) :
    (s.setSweeps q).ret.lastSwept = s.ret.lastSwept := rfl
@[simp] theorem State.setSweeps_ret_classes (s : State) (q : List Sweep) :
    (s.setSweeps q).ret.classes = s.ret.classes := rfl
@[simp] theorem State.setSweeps_ret_holds (s : State) (q : List Sweep) : (s.setSweeps q).ret.holds = s.ret.holds := rfl
@[simp] theorem State.setSweeps_ret_suspended (s : State) (q : List Sweep) :
    (s.setSweeps q).ret.suspended = s.ret.suspended := rfl
@[simp] theorem State.setSweeps_ret_lastDay (s : State) (q : List Sweep) :
    (s.setSweeps q).ret.lastDay = s.ret.lastDay := rfl
@[simp] theorem State.setSweeps_ret_lastExtend (s : State) (q : List Sweep) :
    (s.setSweeps q).ret.lastExtend = s.ret.lastExtend := rfl
@[simp] theorem State.setSweeps_ret_eraserStopped (s : State) (q : List Sweep) :
    (s.setSweeps q).ret.eraserStopped = s.ret.eraserStopped := rfl
@[simp] theorem State.setSweeps_ret_erasing (s : State) (q : List Sweep) :
    (s.setSweeps q).ret.erasing = s.ret.erasing := rfl
@[simp] theorem State.setSweeps_link (s : State) (q : List Sweep) (p : Port) :
    (s.setSweeps q).link p = s.link p := by cases p <;> rfl
@[simp] theorem State.setSweeps_today (s : State) (q : List Sweep) : (s.setSweeps q).today = s.today := rfl
@[simp] theorem State.setSweeps_lookback (s : State) (q : List Sweep) : (s.setSweeps q).lookback = s.lookback := rfl
@[simp] theorem State.setSweeps_entry (s : State) (q : List Sweep) (e : Nat) :
    (s.setSweeps q).entry e = s.entry e := rfl
@[simp] theorem State.setSweeps_channel (s : State) (q : List Sweep) (c : Nat) :
    (s.setSweeps q).channel c = s.channel c := rfl
@[simp] theorem State.setSweeps_flashAt (s : State) (q : List Sweep) (c i : Nat) :
    (s.setSweeps q).flashAt c i = s.flashAt c i := rfl
@[simp] theorem State.setSweeps_builder (s : State) (q : List Sweep) (b : Nat) :
    (s.setSweeps q).builder b = s.builder b := rfl
@[simp] theorem State.setSweeps_code (s : State) (q : List Sweep) (c : Nat) : (s.setSweeps q).code c = s.code c := rfl
@[simp] theorem State.setSweeps_source (s : State) (q : List Sweep) (n : Nat) :
    (s.setSweeps q).source n = s.source n := rfl
@[simp] theorem State.setSweeps_intakeSlot (s : State) (q : List Sweep) (i : Nat) :
    (s.setSweeps q).intakeSlot i = s.intakeSlot i := rfl
@[simp] theorem State.setSweeps_retClass (s : State) (q : List Sweep) (c : Nat) :
    (s.setSweeps q).retClass c = s.retClass c := rfl
@[simp] theorem State.setSweeps_hold (s : State) (q : List Sweep) (h : Nat) : (s.setSweeps q).hold h = s.hold h := rfl
@[simp] theorem State.setSweeps_cursor (s : State) (q : List Sweep) (c : Nat) :
    (s.setSweeps q).cursor c = s.cursor c := rfl
@[simp] theorem State.setSweeps_tallyEntry (s : State) (q : List Sweep) (n d : Nat) :
    (s.setSweeps q).tallyEntry n d = s.tallyEntry n d := rfl

/-! ### `State.setJob` -/

@[simp] theorem State.setJob_pending (s : State) (j : Option Job) : (s.setJob j).pending = s.pending := rfl
@[simp] theorem State.setJob_powered (s : State) (j : Option Job) : (s.setJob j).powered = s.powered := rfl
@[simp] theorem State.setJob_second (s : State) (j : Option Job) : (s.setJob j).second = s.second := rfl
@[simp] theorem State.setJob_free (s : State) (j : Option Job) : (s.setJob j).free = s.free := rfl
@[simp] theorem State.setJob_portA (s : State) (j : Option Job) : (s.setJob j).portA = s.portA := rfl
@[simp] theorem State.setJob_portB (s : State) (j : Option Job) : (s.setJob j).portB = s.portB := rfl
@[simp] theorem State.setJob_intake (s : State) (j : Option Job) : (s.setJob j).intake = s.intake := rfl
@[simp] theorem State.setJob_comp (s : State) (j : Option Job) : (s.setJob j).comp = s.comp := rfl
@[simp] theorem State.setJob_media (s : State) (j : Option Job) : (s.setJob j).media = s.media := rfl
@[simp] theorem State.setJob_ret (s : State) (j : Option Job) : (s.setJob j).ret = s.ret := rfl
@[simp] theorem State.setJob_cursors (s : State) (j : Option Job) : (s.setJob j).cursors = s.cursors := rfl
@[simp] theorem State.setJob_cat (s : State) (j : Option Job) : (s.setJob j).cat = s.cat := rfl
@[simp] theorem State.setJob_fault (s : State) (j : Option Job) : (s.setJob j).fault = s.fault := rfl
@[simp] theorem State.setJob_audit_findings (s : State) (j : Option Job) :
    (s.setJob j).audit.findings = s.audit.findings := rfl
@[simp] theorem State.setJob_audit_next (s : State) (j : Option Job) : (s.setJob j).audit.next = s.audit.next := rfl
@[simp] theorem State.setJob_link (s : State) (j : Option Job) (p : Port) :
    (s.setJob j).link p = s.link p := by cases p <;> rfl
@[simp] theorem State.setJob_today (s : State) (j : Option Job) : (s.setJob j).today = s.today := rfl
@[simp] theorem State.setJob_lookback (s : State) (j : Option Job) : (s.setJob j).lookback = s.lookback := rfl
@[simp] theorem State.setJob_entry (s : State) (j : Option Job) (e : Nat) : (s.setJob j).entry e = s.entry e := rfl
@[simp] theorem State.setJob_channel (s : State) (j : Option Job) (c : Nat) :
    (s.setJob j).channel c = s.channel c := rfl
@[simp] theorem State.setJob_flashAt (s : State) (j : Option Job) (c i : Nat) :
    (s.setJob j).flashAt c i = s.flashAt c i := rfl
@[simp] theorem State.setJob_builder (s : State) (j : Option Job) (b : Nat) :
    (s.setJob j).builder b = s.builder b := rfl
@[simp] theorem State.setJob_code (s : State) (j : Option Job) (c : Nat) : (s.setJob j).code c = s.code c := rfl
@[simp] theorem State.setJob_source (s : State) (j : Option Job) (n : Nat) : (s.setJob j).source n = s.source n := rfl
@[simp] theorem State.setJob_intakeSlot (s : State) (j : Option Job) (i : Nat) :
    (s.setJob j).intakeSlot i = s.intakeSlot i := rfl
@[simp] theorem State.setJob_retClass (s : State) (j : Option Job) (c : Nat) :
    (s.setJob j).retClass c = s.retClass c := rfl
@[simp] theorem State.setJob_hold (s : State) (j : Option Job) (h : Nat) : (s.setJob j).hold h = s.hold h := rfl
@[simp] theorem State.setJob_cursor (s : State) (j : Option Job) (c : Nat) : (s.setJob j).cursor c = s.cursor c := rfl
@[simp] theorem State.setJob_tallyEntry (s : State) (j : Option Job) (n d : Nat) :
    (s.setJob j).tallyEntry n d = s.tallyEntry n d := rfl

/-! ### `State.setCursor` -/

@[simp] theorem State.setCursor_pending (s : State) (k : Nat) (v : Cursor) :
    (s.setCursor k v).pending = s.pending := rfl
@[simp] theorem State.setCursor_powered (s : State) (k : Nat) (v : Cursor) :
    (s.setCursor k v).powered = s.powered := rfl
@[simp] theorem State.setCursor_second (s : State) (k : Nat) (v : Cursor) : (s.setCursor k v).second = s.second := rfl
@[simp] theorem State.setCursor_free (s : State) (k : Nat) (v : Cursor) : (s.setCursor k v).free = s.free := rfl
@[simp] theorem State.setCursor_portA (s : State) (k : Nat) (v : Cursor) : (s.setCursor k v).portA = s.portA := rfl
@[simp] theorem State.setCursor_portB (s : State) (k : Nat) (v : Cursor) : (s.setCursor k v).portB = s.portB := rfl
@[simp] theorem State.setCursor_intake (s : State) (k : Nat) (v : Cursor) : (s.setCursor k v).intake = s.intake := rfl
@[simp] theorem State.setCursor_comp (s : State) (k : Nat) (v : Cursor) : (s.setCursor k v).comp = s.comp := rfl
@[simp] theorem State.setCursor_media (s : State) (k : Nat) (v : Cursor) : (s.setCursor k v).media = s.media := rfl
@[simp] theorem State.setCursor_ret (s : State) (k : Nat) (v : Cursor) : (s.setCursor k v).ret = s.ret := rfl
@[simp] theorem State.setCursor_audit (s : State) (k : Nat) (v : Cursor) : (s.setCursor k v).audit = s.audit := rfl
@[simp] theorem State.setCursor_cat (s : State) (k : Nat) (v : Cursor) : (s.setCursor k v).cat = s.cat := rfl
@[simp] theorem State.setCursor_fault (s : State) (k : Nat) (v : Cursor) : (s.setCursor k v).fault = s.fault := rfl
@[simp] theorem State.setCursor_link (s : State) (k : Nat) (v : Cursor) (p : Port) :
    (s.setCursor k v).link p = s.link p := by cases p <;> rfl
@[simp] theorem State.setCursor_today (s : State) (k : Nat) (v : Cursor) : (s.setCursor k v).today = s.today := rfl
@[simp] theorem State.setCursor_lookback (s : State) (k : Nat) (v : Cursor) :
    (s.setCursor k v).lookback = s.lookback := rfl
@[simp] theorem State.setCursor_entry (s : State) (k : Nat) (v : Cursor) (e : Nat) :
    (s.setCursor k v).entry e = s.entry e := rfl
@[simp] theorem State.setCursor_channel (s : State) (k : Nat) (v : Cursor) (c : Nat) :
    (s.setCursor k v).channel c = s.channel c := rfl
@[simp] theorem State.setCursor_flashAt (s : State) (k : Nat) (v : Cursor) (c i : Nat) :
    (s.setCursor k v).flashAt c i = s.flashAt c i := rfl
@[simp] theorem State.setCursor_builder (s : State) (k : Nat) (v : Cursor) (b : Nat) :
    (s.setCursor k v).builder b = s.builder b := rfl
@[simp] theorem State.setCursor_code (s : State) (k : Nat) (v : Cursor) (c : Nat) :
    (s.setCursor k v).code c = s.code c := rfl
@[simp] theorem State.setCursor_source (s : State) (k : Nat) (v : Cursor) (n : Nat) :
    (s.setCursor k v).source n = s.source n := rfl
@[simp] theorem State.setCursor_intakeSlot (s : State) (k : Nat) (v : Cursor) (i : Nat) :
    (s.setCursor k v).intakeSlot i = s.intakeSlot i := rfl
@[simp] theorem State.setCursor_retClass (s : State) (k : Nat) (v : Cursor) (c : Nat) :
    (s.setCursor k v).retClass c = s.retClass c := rfl
@[simp] theorem State.setCursor_hold (s : State) (k : Nat) (v : Cursor) (h : Nat) :
    (s.setCursor k v).hold h = s.hold h := rfl
@[simp] theorem State.setCursor_tallyEntry (s : State) (k : Nat) (v : Cursor) (n d : Nat) :
    (s.setCursor k v).tallyEntry n d = s.tallyEntry n d := rfl
@[simp] theorem State.setCursor_cursor_same (s : State) (k : Nat) (v : Cursor) :
    (s.setCursor k v).cursor k = v := Tbl.get_set_same _ _ _ _
theorem State.setCursor_cursor_ne (s : State) (k : Nat) (v : Cursor) {i : Nat} (h : i ≠ k) : (s.setCursor k v).cursor i = s.cursor i :=
  Tbl.get_set_ne _ _ _ h
theorem State.setCursor_cursor (s : State) (k : Nat) (v : Cursor) (i : Nat) :
    (s.setCursor k v).cursor i = if i = k then v else s.cursor i := Tbl.get_set _ _ _ _ _

/-! ### `State.setLoad` -/

@[simp] theorem State.setLoad_pending (s : State) (l : Option Load) : (s.setLoad l).pending = s.pending := rfl
@[simp] theorem State.setLoad_powered (s : State) (l : Option Load) : (s.setLoad l).powered = s.powered := rfl
@[simp] theorem State.setLoad_second (s : State) (l : Option Load) : (s.setLoad l).second = s.second := rfl
@[simp] theorem State.setLoad_free (s : State) (l : Option Load) : (s.setLoad l).free = s.free := rfl
@[simp] theorem State.setLoad_portA (s : State) (l : Option Load) : (s.setLoad l).portA = s.portA := rfl
@[simp] theorem State.setLoad_portB (s : State) (l : Option Load) : (s.setLoad l).portB = s.portB := rfl
@[simp] theorem State.setLoad_intake (s : State) (l : Option Load) : (s.setLoad l).intake = s.intake := rfl
@[simp] theorem State.setLoad_comp (s : State) (l : Option Load) : (s.setLoad l).comp = s.comp := rfl
@[simp] theorem State.setLoad_media (s : State) (l : Option Load) : (s.setLoad l).media = s.media := rfl
@[simp] theorem State.setLoad_ret (s : State) (l : Option Load) : (s.setLoad l).ret = s.ret := rfl
@[simp] theorem State.setLoad_audit (s : State) (l : Option Load) : (s.setLoad l).audit = s.audit := rfl
@[simp] theorem State.setLoad_cursors (s : State) (l : Option Load) : (s.setLoad l).cursors = s.cursors := rfl
@[simp] theorem State.setLoad_fault (s : State) (l : Option Load) : (s.setLoad l).fault = s.fault := rfl
@[simp] theorem State.setLoad_cat_archive (s : State) (l : Option Load) :
    (s.setLoad l).cat.archive = s.cat.archive := rfl
@[simp] theorem State.setLoad_cat_profile (s : State) (l : Option Load) :
    (s.setLoad l).cat.profile = s.cat.profile := rfl
@[simp] theorem State.setLoad_cat_params (s : State) (l : Option Load) : (s.setLoad l).cat.params = s.cat.params := rfl
@[simp] theorem State.setLoad_cat_channel (s : State) (l : Option Load) :
    (s.setLoad l).cat.channel = s.cat.channel := rfl
@[simp] theorem State.setLoad_cat_state (s : State) (l : Option Load) : (s.setLoad l).cat.state = s.cat.state := rfl
@[simp] theorem State.setLoad_cat_last (s : State) (l : Option Load) : (s.setLoad l).cat.last = s.cat.last := rfl
@[simp] theorem State.setLoad_cat_newer (s : State) (l : Option Load) : (s.setLoad l).cat.newer = s.cat.newer := rfl
@[simp] theorem State.setLoad_cat_waiters (s : State) (l : Option Load) :
    (s.setLoad l).cat.waiters = s.cat.waiters := rfl
@[simp] theorem State.setLoad_cat_owed (s : State) (l : Option Load) : (s.setLoad l).cat.owed = s.cat.owed := rfl
@[simp] theorem State.setLoad_cat_owedWaiters (s : State) (l : Option Load) :
    (s.setLoad l).cat.owedWaiters = s.cat.owedWaiters := rfl
@[simp] theorem State.setLoad_cat_buffer (s : State) (l : Option Load) : (s.setLoad l).cat.buffer = s.cat.buffer := rfl
@[simp] theorem State.setLoad_cat_sharesOk (s : State) (l : Option Load) :
    (s.setLoad l).cat.sharesOk = s.cat.sharesOk := rfl
@[simp] theorem State.setLoad_cat_pendingFormat (s : State) (l : Option Load) :
    (s.setLoad l).cat.pendingFormat = s.cat.pendingFormat := rfl
@[simp] theorem State.setLoad_cat_formatCounter (s : State) (l : Option Load) :
    (s.setLoad l).cat.formatCounter = s.cat.formatCounter := rfl
@[simp] theorem State.setLoad_cat_format (s : State) (l : Option Load) : (s.setLoad l).cat.format = s.cat.format := rfl
@[simp] theorem State.setLoad_link (s : State) (l : Option Load) (p : Port) :
    (s.setLoad l).link p = s.link p := by cases p <;> rfl
@[simp] theorem State.setLoad_today (s : State) (l : Option Load) : (s.setLoad l).today = s.today := rfl
@[simp] theorem State.setLoad_lookback (s : State) (l : Option Load) : (s.setLoad l).lookback = s.lookback := rfl
@[simp] theorem State.setLoad_entry (s : State) (l : Option Load) (e : Nat) : (s.setLoad l).entry e = s.entry e := rfl
@[simp] theorem State.setLoad_channel (s : State) (l : Option Load) (c : Nat) :
    (s.setLoad l).channel c = s.channel c := rfl
@[simp] theorem State.setLoad_flashAt (s : State) (l : Option Load) (c i : Nat) :
    (s.setLoad l).flashAt c i = s.flashAt c i := rfl
@[simp] theorem State.setLoad_builder (s : State) (l : Option Load) (b : Nat) :
    (s.setLoad l).builder b = s.builder b := rfl
@[simp] theorem State.setLoad_code (s : State) (l : Option Load) (c : Nat) : (s.setLoad l).code c = s.code c := rfl
@[simp] theorem State.setLoad_source (s : State) (l : Option Load) (n : Nat) :
    (s.setLoad l).source n = s.source n := rfl
@[simp] theorem State.setLoad_intakeSlot (s : State) (l : Option Load) (i : Nat) :
    (s.setLoad l).intakeSlot i = s.intakeSlot i := rfl
@[simp] theorem State.setLoad_retClass (s : State) (l : Option Load) (c : Nat) :
    (s.setLoad l).retClass c = s.retClass c := rfl
@[simp] theorem State.setLoad_hold (s : State) (l : Option Load) (h : Nat) : (s.setLoad l).hold h = s.hold h := rfl
@[simp] theorem State.setLoad_cursor (s : State) (l : Option Load) (c : Nat) :
    (s.setLoad l).cursor c = s.cursor c := rfl
@[simp] theorem State.setLoad_tallyEntry (s : State) (l : Option Load) (n d : Nat) :
    (s.setLoad l).tallyEntry n d = s.tallyEntry n d := rfl

/-! ### `State.setFormat` -/

@[simp] theorem State.setFormat_pending (s : State) (f : Option FormatOp) : (s.setFormat f).pending = s.pending := rfl
@[simp] theorem State.setFormat_powered (s : State) (f : Option FormatOp) : (s.setFormat f).powered = s.powered := rfl
@[simp] theorem State.setFormat_second (s : State) (f : Option FormatOp) : (s.setFormat f).second = s.second := rfl
@[simp] theorem State.setFormat_free (s : State) (f : Option FormatOp) : (s.setFormat f).free = s.free := rfl
@[simp] theorem State.setFormat_portA (s : State) (f : Option FormatOp) : (s.setFormat f).portA = s.portA := rfl
@[simp] theorem State.setFormat_portB (s : State) (f : Option FormatOp) : (s.setFormat f).portB = s.portB := rfl
@[simp] theorem State.setFormat_intake (s : State) (f : Option FormatOp) : (s.setFormat f).intake = s.intake := rfl
@[simp] theorem State.setFormat_comp (s : State) (f : Option FormatOp) : (s.setFormat f).comp = s.comp := rfl
@[simp] theorem State.setFormat_media (s : State) (f : Option FormatOp) : (s.setFormat f).media = s.media := rfl
@[simp] theorem State.setFormat_ret (s : State) (f : Option FormatOp) : (s.setFormat f).ret = s.ret := rfl
@[simp] theorem State.setFormat_audit (s : State) (f : Option FormatOp) : (s.setFormat f).audit = s.audit := rfl
@[simp] theorem State.setFormat_cursors (s : State) (f : Option FormatOp) : (s.setFormat f).cursors = s.cursors := rfl
@[simp] theorem State.setFormat_fault (s : State) (f : Option FormatOp) : (s.setFormat f).fault = s.fault := rfl
@[simp] theorem State.setFormat_cat_archive (s : State) (f : Option FormatOp) :
    (s.setFormat f).cat.archive = s.cat.archive := rfl
@[simp] theorem State.setFormat_cat_profile (s : State) (f : Option FormatOp) :
    (s.setFormat f).cat.profile = s.cat.profile := rfl
@[simp] theorem State.setFormat_cat_params (s : State) (f : Option FormatOp) :
    (s.setFormat f).cat.params = s.cat.params := rfl
@[simp] theorem State.setFormat_cat_channel (s : State) (f : Option FormatOp) :
    (s.setFormat f).cat.channel = s.cat.channel := rfl
@[simp] theorem State.setFormat_cat_state (s : State) (f : Option FormatOp) :
    (s.setFormat f).cat.state = s.cat.state := rfl
@[simp] theorem State.setFormat_cat_last (s : State) (f : Option FormatOp) :
    (s.setFormat f).cat.last = s.cat.last := rfl
@[simp] theorem State.setFormat_cat_newer (s : State) (f : Option FormatOp) :
    (s.setFormat f).cat.newer = s.cat.newer := rfl
@[simp] theorem State.setFormat_cat_waiters (s : State) (f : Option FormatOp) :
    (s.setFormat f).cat.waiters = s.cat.waiters := rfl
@[simp] theorem State.setFormat_cat_owed (s : State) (f : Option FormatOp) :
    (s.setFormat f).cat.owed = s.cat.owed := rfl
@[simp] theorem State.setFormat_cat_owedWaiters (s : State) (f : Option FormatOp) :
    (s.setFormat f).cat.owedWaiters = s.cat.owedWaiters := rfl
@[simp] theorem State.setFormat_cat_buffer (s : State) (f : Option FormatOp) :
    (s.setFormat f).cat.buffer = s.cat.buffer := rfl
@[simp] theorem State.setFormat_cat_sharesOk (s : State) (f : Option FormatOp) :
    (s.setFormat f).cat.sharesOk = s.cat.sharesOk := rfl
@[simp] theorem State.setFormat_cat_load (s : State) (f : Option FormatOp) :
    (s.setFormat f).cat.load = s.cat.load := rfl
@[simp] theorem State.setFormat_cat_pendingFormat (s : State) (f : Option FormatOp) :
    (s.setFormat f).cat.pendingFormat = s.cat.pendingFormat := rfl
@[simp] theorem State.setFormat_cat_formatCounter (s : State) (f : Option FormatOp) :
    (s.setFormat f).cat.formatCounter = s.cat.formatCounter := rfl
@[simp] theorem State.setFormat_link (s : State) (f : Option FormatOp) (p : Port) :
    (s.setFormat f).link p = s.link p := by cases p <;> rfl
@[simp] theorem State.setFormat_today (s : State) (f : Option FormatOp) : (s.setFormat f).today = s.today := rfl
@[simp] theorem State.setFormat_lookback (s : State) (f : Option FormatOp) :
    (s.setFormat f).lookback = s.lookback := rfl
@[simp] theorem State.setFormat_entry (s : State) (f : Option FormatOp) (e : Nat) :
    (s.setFormat f).entry e = s.entry e := rfl
@[simp] theorem State.setFormat_channel (s : State) (f : Option FormatOp) (c : Nat) :
    (s.setFormat f).channel c = s.channel c := rfl
@[simp] theorem State.setFormat_flashAt (s : State) (f : Option FormatOp) (c i : Nat) :
    (s.setFormat f).flashAt c i = s.flashAt c i := rfl
@[simp] theorem State.setFormat_builder (s : State) (f : Option FormatOp) (b : Nat) :
    (s.setFormat f).builder b = s.builder b := rfl
@[simp] theorem State.setFormat_code (s : State) (f : Option FormatOp) (c : Nat) :
    (s.setFormat f).code c = s.code c := rfl
@[simp] theorem State.setFormat_source (s : State) (f : Option FormatOp) (n : Nat) :
    (s.setFormat f).source n = s.source n := rfl
@[simp] theorem State.setFormat_intakeSlot (s : State) (f : Option FormatOp) (i : Nat) :
    (s.setFormat f).intakeSlot i = s.intakeSlot i := rfl
@[simp] theorem State.setFormat_retClass (s : State) (f : Option FormatOp) (c : Nat) :
    (s.setFormat f).retClass c = s.retClass c := rfl
@[simp] theorem State.setFormat_hold (s : State) (f : Option FormatOp) (h : Nat) :
    (s.setFormat f).hold h = s.hold h := rfl
@[simp] theorem State.setFormat_cursor (s : State) (f : Option FormatOp) (c : Nat) :
    (s.setFormat f).cursor c = s.cursor c := rfl
@[simp] theorem State.setFormat_tallyEntry (s : State) (f : Option FormatOp) (n d : Nat) :
    (s.setFormat f).tallyEntry n d = s.tallyEntry n d := rfl

/-! ### `State.setSlotState`, `State.setLink` -/

@[simp] theorem State.setSlotState_pending (s : State) (r : SlotRef) (v : SlotState) :
    (s.setSlotState r v).pending = s.pending := rfl
@[simp] theorem State.setSlotState_powered (s : State) (r : SlotRef) (v : SlotState) :
    (s.setSlotState r v).powered = s.powered := rfl
@[simp] theorem State.setSlotState_second (s : State) (r : SlotRef) (v : SlotState) :
    (s.setSlotState r v).second = s.second := rfl
@[simp] theorem State.setSlotState_free (s : State) (r : SlotRef) (v : SlotState) :
    (s.setSlotState r v).free = s.free := rfl
@[simp] theorem State.setSlotState_portA (s : State) (r : SlotRef) (v : SlotState) :
    (s.setSlotState r v).portA = s.portA := rfl
@[simp] theorem State.setSlotState_portB (s : State) (r : SlotRef) (v : SlotState) :
    (s.setSlotState r v).portB = s.portB := rfl
@[simp] theorem State.setSlotState_intake (s : State) (r : SlotRef) (v : SlotState) :
    (s.setSlotState r v).intake = s.intake := rfl
@[simp] theorem State.setSlotState_comp (s : State) (r : SlotRef) (v : SlotState) :
    (s.setSlotState r v).comp = s.comp := rfl
@[simp] theorem State.setSlotState_ret (s : State) (r : SlotRef) (v : SlotState) :
    (s.setSlotState r v).ret = s.ret := rfl
@[simp] theorem State.setSlotState_audit (s : State) (r : SlotRef) (v : SlotState) :
    (s.setSlotState r v).audit = s.audit := rfl
@[simp] theorem State.setSlotState_cursors (s : State) (r : SlotRef) (v : SlotState) :
    (s.setSlotState r v).cursors = s.cursors := rfl
@[simp] theorem State.setSlotState_cat (s : State) (r : SlotRef) (v : SlotState) :
    (s.setSlotState r v).cat = s.cat := rfl
@[simp] theorem State.setSlotState_fault (s : State) (r : SlotRef) (v : SlotState) :
    (s.setSlotState r v).fault = s.fault := rfl
@[simp] theorem State.setSlotState_media_dir (s : State) (r : SlotRef) (v : SlotState) :
    (s.setSlotState r v).media.dir = s.media.dir := rfl
@[simp] theorem State.setSlotState_media_pointer (s : State) (r : SlotRef) (v : SlotState) :
    (s.setSlotState r v).media.pointer = s.media.pointer := rfl
@[simp] theorem State.setSlotState_media_slotWait (s : State) (r : SlotRef) (v : SlotState) :
    (s.setSlotState r v).media.slotWait = s.media.slotWait := rfl
@[simp] theorem State.setSlotState_media_flash (s : State) (r : SlotRef) (v : SlotState) :
    (s.setSlotState r v).media.flash = s.media.flash := rfl
@[simp] theorem State.setSlotState_link (s : State) (r : SlotRef) (v : SlotState) (p : Port) :
    (s.setSlotState r v).link p = s.link p := by cases p <;> rfl
@[simp] theorem State.setSlotState_entry (s : State) (r : SlotRef) (v : SlotState) (e : Nat) :
    (s.setSlotState r v).entry e = s.entry e := rfl
@[simp] theorem State.setSlotState_flashAt (s : State) (r : SlotRef) (v : SlotState) (c i : Nat) :
    (s.setSlotState r v).flashAt c i = s.flashAt c i := rfl
@[simp] theorem State.setSlotState_builder (s : State) (r : SlotRef) (v : SlotState) (b : Nat) :
    (s.setSlotState r v).builder b = s.builder b := rfl
@[simp] theorem State.setSlotState_code (s : State) (r : SlotRef) (v : SlotState) (c : Nat) :
    (s.setSlotState r v).code c = s.code c := rfl
@[simp] theorem State.setSlotState_source (s : State) (r : SlotRef) (v : SlotState) (n : Nat) :
    (s.setSlotState r v).source n = s.source n := rfl
@[simp] theorem State.setSlotState_intakeSlot (s : State) (r : SlotRef) (v : SlotState) (k : Nat) :
    (s.setSlotState r v).intakeSlot k = s.intakeSlot k := rfl
@[simp] theorem State.setSlotState_retClass (s : State) (r : SlotRef) (v : SlotState) (c : Nat) :
    (s.setSlotState r v).retClass c = s.retClass c := rfl
@[simp] theorem State.setSlotState_hold (s : State) (r : SlotRef) (v : SlotState) (h : Nat) :
    (s.setSlotState r v).hold h = s.hold h := rfl
@[simp] theorem State.setSlotState_cursor (s : State) (r : SlotRef) (v : SlotState) (c : Nat) :
    (s.setSlotState r v).cursor c = s.cursor c := rfl
@[simp] theorem State.setSlotState_tallyEntry (s : State) (r : SlotRef) (v : SlotState) (n d : Nat) :
    (s.setSlotState r v).tallyEntry n d = s.tallyEntry n d := rfl
@[simp] theorem State.setSlotState_today (s : State) (r : SlotRef) (v : SlotState) :
    (s.setSlotState r v).today = s.today := rfl
@[simp] theorem State.setSlotState_lookback (s : State) (r : SlotRef) (v : SlotState) :
    (s.setSlotState r v).lookback = s.lookback := rfl
@[simp] theorem State.setSlotState_same (s : State) (r : SlotRef) (v : SlotState) :
    (s.setSlotState r v).slotState r = v := by
  simp [State.slotState, State.setSlotState, Channel.slot, Channel.setSlot]
@[simp] theorem State.setLink_pending (s : State) (p : Port) (l : LinkIf) :
    (s.setLink p l).pending = s.pending := by cases p <;> rfl
@[simp] theorem State.setLink_powered (s : State) (p : Port) (l : LinkIf) :
    (s.setLink p l).powered = s.powered := by cases p <;> rfl
@[simp] theorem State.setLink_second (s : State) (p : Port) (l : LinkIf) :
    (s.setLink p l).second = s.second := by cases p <;> rfl
@[simp] theorem State.setLink_free (s : State) (p : Port) (l : LinkIf) :
    (s.setLink p l).free = s.free := by cases p <;> rfl
@[simp] theorem State.setLink_intake (s : State) (p : Port) (l : LinkIf) :
    (s.setLink p l).intake = s.intake := by cases p <;> rfl
@[simp] theorem State.setLink_comp (s : State) (p : Port) (l : LinkIf) :
    (s.setLink p l).comp = s.comp := by cases p <;> rfl
@[simp] theorem State.setLink_media (s : State) (p : Port) (l : LinkIf) :
    (s.setLink p l).media = s.media := by cases p <;> rfl
@[simp] theorem State.setLink_ret (s : State) (p : Port) (l : LinkIf) :
    (s.setLink p l).ret = s.ret := by cases p <;> rfl
@[simp] theorem State.setLink_audit (s : State) (p : Port) (l : LinkIf) :
    (s.setLink p l).audit = s.audit := by cases p <;> rfl
@[simp] theorem State.setLink_cursors (s : State) (p : Port) (l : LinkIf) :
    (s.setLink p l).cursors = s.cursors := by cases p <;> rfl
@[simp] theorem State.setLink_cat (s : State) (p : Port) (l : LinkIf) :
    (s.setLink p l).cat = s.cat := by cases p <;> rfl
@[simp] theorem State.setLink_fault (s : State) (p : Port) (l : LinkIf) :
    (s.setLink p l).fault = s.fault := by cases p <;> rfl
@[simp] theorem State.setLink_today (s : State) (p : Port) (l : LinkIf) :
    (s.setLink p l).today = s.today := by cases p <;> rfl
@[simp] theorem State.setLink_lookback (s : State) (p : Port) (l : LinkIf) :
    (s.setLink p l).lookback = s.lookback := by cases p <;> rfl
@[simp] theorem State.setLink_entry (s : State) (p : Port) (l : LinkIf) (e : Nat) :
    (s.setLink p l).entry e = s.entry e := by cases p <;> rfl
@[simp] theorem State.setLink_channel (s : State) (p : Port) (l : LinkIf) (c : Nat) :
    (s.setLink p l).channel c = s.channel c := by cases p <;> rfl
@[simp] theorem State.setLink_flashAt (s : State) (p : Port) (l : LinkIf) (c k : Nat) :
    (s.setLink p l).flashAt c k = s.flashAt c k := by cases p <;> rfl
@[simp] theorem State.setLink_builder (s : State) (p : Port) (l : LinkIf) (b : Nat) :
    (s.setLink p l).builder b = s.builder b := by cases p <;> rfl
@[simp] theorem State.setLink_code (s : State) (p : Port) (l : LinkIf) (c : Nat) :
    (s.setLink p l).code c = s.code c := by cases p <;> rfl
@[simp] theorem State.setLink_source (s : State) (p : Port) (l : LinkIf) (n : Nat) :
    (s.setLink p l).source n = s.source n := by cases p <;> rfl
@[simp] theorem State.setLink_intakeSlot (s : State) (p : Port) (l : LinkIf) (k : Nat) :
    (s.setLink p l).intakeSlot k = s.intakeSlot k := by cases p <;> rfl
@[simp] theorem State.setLink_retClass (s : State) (p : Port) (l : LinkIf) (c : Nat) :
    (s.setLink p l).retClass c = s.retClass c := by cases p <;> rfl
@[simp] theorem State.setLink_hold (s : State) (p : Port) (l : LinkIf) (h : Nat) :
    (s.setLink p l).hold h = s.hold h := by cases p <;> rfl
@[simp] theorem State.setLink_cursor (s : State) (p : Port) (l : LinkIf) (c : Nat) :
    (s.setLink p l).cursor c = s.cursor c := by cases p <;> rfl
@[simp] theorem State.setLink_tallyEntry (s : State) (p : Port) (l : LinkIf) (n d : Nat) :
    (s.setLink p l).tallyEntry n d = s.tallyEntry n d := by cases p <;> rfl
@[simp] theorem State.setLink_link_same (s : State) (p : Port) (l : LinkIf) : (s.setLink p l).link p = l := by
  cases p <;> rfl
theorem State.setLink_link_ne (s : State) {p q : Port} (l : LinkIf) (h : q ≠ p) : (s.setLink p l).link q = s.link q := by
  cases p <;> cases q <;> first | rfl | exact absurd rfl h
theorem State.setLink_link (s : State) (p q : Port) (l : LinkIf) :
    (s.setLink p l).link q = if q = p then l else s.link q := by
  cases p <;> cases q <;> rfl
@[simp] theorem State.setLink_beside (s : State) (p : Port) (l : LinkIf) : (s.setLink p l).beside = s.beside := by
  cases p <;> rfl

/-- A write that leaves both ports as they were leaves each link as it was. -/
@[simp] theorem State.mk_link (s : State) (q : List Instr) (w : Bool) (n m : Nat) (i : IntakeUnit) (c : CompactionUnit)
    (md : MediaUnit) (r : RetentionUnit) (a : AuditUnit) (cu : Tbl Cursor) (ca : CatalogUnit) (f : FaultUnit) (p : Port) :
    (State.mk q w n m s.portA s.portB i c md r a cu ca f).link p = s.link p := by
  cases p <;> rfl

end Sys2Proof.Machine
end

