-- ==== Sys2Proof/Laws/Ports.lean ====
section
/-!
SUPPORT. Laws/Ports.lean: all that raising a notice, producing a reply, taking a request and the transmitter can do.
-/

namespace Sys2Proof.Machine
open Sys2Proof

/-! ### Notices -/

/-- The nine lines are distinct. -/
@[simp] theorem notices_distinct :
    noticeHalted ≠ noticeFault ∧ noticeHalted ≠ noticeLinkError ∧ noticeHalted ≠ noticeFileAborted ∧
    noticeHalted ≠ noticeCursorClosed ∧ noticeHalted ≠ noticeCheckpointDone ∧ noticeHalted ≠ noticeDayDone ∧
    noticeHalted ≠ noticeHoldChanged ∧ noticeHalted ≠ noticeFindings ∧ noticeFault ≠ noticeHalted ∧
    noticeFault ≠ noticeLinkError ∧ noticeFault ≠ noticeFileAborted ∧ noticeFault ≠ noticeCursorClosed ∧
    noticeFault ≠ noticeCheckpointDone ∧ noticeFault ≠ noticeDayDone ∧ noticeFault ≠ noticeHoldChanged ∧
    noticeFault ≠ noticeFindings ∧ noticeLinkError ≠ noticeHalted ∧ noticeLinkError ≠ noticeFault ∧
    noticeLinkError ≠ noticeFileAborted ∧ noticeLinkError ≠ noticeCursorClosed ∧
    noticeLinkError ≠ noticeCheckpointDone ∧ noticeLinkError ≠ noticeDayDone ∧ noticeLinkError ≠ noticeHoldChanged ∧
    noticeLinkError ≠ noticeFindings ∧ noticeFileAborted ≠ noticeHalted ∧ noticeFileAborted ≠ noticeFault ∧
    noticeFileAborted ≠ noticeLinkError ∧ noticeFileAborted ≠ noticeCursorClosed ∧
    noticeFileAborted ≠ noticeCheckpointDone ∧ noticeFileAborted ≠ noticeDayDone ∧
    noticeFileAborted ≠ noticeHoldChanged ∧ noticeFileAborted ≠ noticeFindings ∧ noticeCursorClosed ≠ noticeHalted ∧
    noticeCursorClosed ≠ noticeFault ∧ noticeCursorClosed ≠ noticeLinkError ∧
    noticeCursorClosed ≠ noticeFileAborted ∧ noticeCursorClosed ≠ noticeCheckpointDone ∧
    noticeCursorClosed ≠ noticeDayDone ∧ noticeCursorClosed ≠ noticeHoldChanged ∧
    noticeCursorClosed ≠ noticeFindings ∧ noticeCheckpointDone ≠ noticeHalted ∧ noticeCheckpointDone ≠ noticeFault ∧
    noticeCheckpointDone ≠ noticeLinkError ∧ noticeCheckpointDone ≠ noticeFileAborted ∧
    noticeCheckpointDone ≠ noticeCursorClosed ∧ noticeCheckpointDone ≠ noticeDayDone ∧
    noticeCheckpointDone ≠ noticeHoldChanged ∧ noticeCheckpointDone ≠ noticeFindings ∧ noticeDayDone ≠ noticeHalted ∧
    noticeDayDone ≠ noticeFault ∧ noticeDayDone ≠ noticeLinkError ∧ noticeDayDone ≠ noticeFileAborted ∧
    noticeDayDone ≠ noticeCursorClosed ∧ noticeDayDone ≠ noticeCheckpointDone ∧ noticeDayDone ≠ noticeHoldChanged ∧
    noticeDayDone ≠ noticeFindings ∧ noticeHoldChanged ≠ noticeHalted ∧ noticeHoldChanged ≠ noticeFault ∧
    noticeHoldChanged ≠ noticeLinkError ∧ noticeHoldChanged ≠ noticeFileAborted ∧
    noticeHoldChanged ≠ noticeCursorClosed ∧ noticeHoldChanged ≠ noticeCheckpointDone ∧
    noticeHoldChanged ≠ noticeDayDone ∧ noticeHoldChanged ≠ noticeFindings ∧ noticeFindings ≠ noticeHalted ∧
    noticeFindings ≠ noticeFault ∧ noticeFindings ≠ noticeLinkError ∧ noticeFindings ≠ noticeFileAborted ∧
    noticeFindings ≠ noticeCursorClosed ∧ noticeFindings ≠ noticeCheckpointDone ∧ noticeFindings ≠ noticeDayDone ∧
    noticeFindings ≠ noticeHoldChanged := by
  repeat' apply And.intro
  all_goals decide

@[simp] theorem LinkIf.line_setLine_same (l : LinkIf) (k : Nat) (n : NoticeLine) : (l.setLine k n).line k = n :=
  Tbl.get_set_same _ _ _ _

theorem LinkIf.line_setLine (l : LinkIf) (k i : Nat) (n : NoticeLine) :
    (l.setLine k n).line i = if i = k then n else l.line i := Tbl.get_set _ _ _ _ _

/-- A table of lines is all that a line is read from. -/
theorem LinkIf.line_of_lines {a b : LinkIf} (h : a.lines = b.lines) (k : Nat) : a.line k = b.line k := by
  simp only [LinkIf.line, h]

@[simp] theorem raiseOn_keeps (q : Port) (c x : Nat) (s : State) :
    (raiseOn q c x s).pending = s.pending ∧ (raiseOn q c x s).powered = s.powered ∧
    (raiseOn q c x s).second = s.second ∧ (raiseOn q c x s).free = s.free ∧ (raiseOn q c x s).intake = s.intake ∧
    (raiseOn q c x s).comp = s.comp ∧ (raiseOn q c x s).media = s.media ∧ (raiseOn q c x s).ret = s.ret ∧
    (raiseOn q c x s).audit = s.audit ∧ (raiseOn q c x s).cursors = s.cursors ∧ (raiseOn q c x s).cat = s.cat ∧
    (raiseOn q c x s).fault = s.fault ∧ (raiseOn q c x s).beside = s.beside := by
  cases q <;> simp [raiseOn]

@[simp] theorem raiseOn_link (q : Port) (c x : Nat) (s : State) (p : Port) :
    ((raiseOn q c x s).link p).up = (s.link p).up ∧ ((raiseOn q c x s).link p).epoch = (s.link p).epoch ∧
    ((raiseOn q c x s).link p).outstanding = (s.link p).outstanding ∧
    ((raiseOn q c x s).link p).sending = (s.link p).sending ∧
    ((raiseOn q c x s).link p).replyTurn = (s.link p).replyTurn ∧
    ((raiseOn q c x s).link p).frames = (s.link p).frames ∧
    ((raiseOn q c x s).link p).replies = (s.link p).replies := by
  by_cases h : p = q <;> simp [raiseOn, State.setLink_link, LinkIf.setLine, h]

/-- A raise changes its line on its port and no other. -/
@[simp] theorem raiseOn_line (q : Port) (c x : Nat) (s : State) (p : Port) (k : Nat) :
    ((raiseOn q c x s).link p).line k =
      if p = q ∧ k = c then ((s.link p).line k).raise x else (s.link p).line k := by
  by_cases h : p = q
  · subst h
    by_cases hk : k = c
    · subst hk; simp [raiseOn]
    · simp [raiseOn, LinkIf.line_setLine, hk]
  · simp [raiseOn, State.setLink_link, h]

@[simp] theorem raiseBoth_keeps (c x : Nat) (s : State) :
    (raiseBoth c x s).pending = s.pending ∧ (raiseBoth c x s).powered = s.powered ∧
    (raiseBoth c x s).second = s.second ∧ (raiseBoth c x s).free = s.free ∧ (raiseBoth c x s).intake = s.intake ∧
    (raiseBoth c x s).comp = s.comp ∧ (raiseBoth c x s).media = s.media ∧ (raiseBoth c x s).ret = s.ret ∧
    (raiseBoth c x s).audit = s.audit ∧ (raiseBoth c x s).cursors = s.cursors ∧ (raiseBoth c x s).cat = s.cat ∧
    (raiseBoth c x s).fault = s.fault ∧ (raiseBoth c x s).beside = s.beside := by
  simp [raiseBoth]

@[simp] theorem raiseBoth_link (c x : Nat) (s : State) (p : Port) :
    ((raiseBoth c x s).link p).up = (s.link p).up ∧ ((raiseBoth c x s).link p).epoch = (s.link p).epoch ∧
    ((raiseBoth c x s).link p).outstanding = (s.link p).outstanding ∧
    ((raiseBoth c x s).link p).sending = (s.link p).sending ∧
    ((raiseBoth c x s).link p).replyTurn = (s.link p).replyTurn ∧
    ((raiseBoth c x s).link p).frames = (s.link p).frames ∧
    ((raiseBoth c x s).link p).replies = (s.link p).replies := by
  simp [raiseBoth]

@[simp] theorem raiseBoth_line (c x : Nat) (s : State) (p : Port) (k : Nat) :
    ((raiseBoth c x s).link p).line k = if k = c then ((s.link p).line k).raise x else (s.link p).line k := by
  cases p <;> by_cases h : k = c <;> simp [raiseBoth, h]

/-! ### Replies -/

@[simp] theorem pushReply_keeps (q : Port) (r : Reply) (s : State) :
    (pushReply q r s).pending = s.pending ∧ (pushReply q r s).powered = s.powered ∧
    (pushReply q r s).second = s.second ∧ (pushReply q r s).free = s.free ∧ (pushReply q r s).intake = s.intake ∧
    (pushReply q r s).comp = s.comp ∧ (pushReply q r s).media = s.media ∧ (pushReply q r s).ret = s.ret ∧
    (pushReply q r s).audit = s.audit ∧ (pushReply q r s).cursors = s.cursors ∧ (pushReply q r s).cat = s.cat ∧
    (pushReply q r s).fault = s.fault ∧ (pushReply q r s).beside = s.beside := by
  cases q <;> simp [pushReply]

@[simp] theorem pushReply_link (q : Port) (r : Reply) (s : State) (p : Port) :
    ((pushReply q r s).link p).up = (s.link p).up ∧ ((pushReply q r s).link p).epoch = (s.link p).epoch ∧
    ((pushReply q r s).link p).outstanding = (s.link p).outstanding ∧
    ((pushReply q r s).link p).sending = (s.link p).sending ∧
    ((pushReply q r s).link p).replyTurn = (s.link p).replyTurn ∧
    ((pushReply q r s).link p).frames = (s.link p).frames ∧ ((pushReply q r s).link p).lines = (s.link p).lines := by
  by_cases h : p = q <;> simp [pushReply, State.setLink_link, h]

@[simp] theorem pushReply_line (q : Port) (r : Reply) (s : State) (p : Port) (k : Nat) :
    ((pushReply q r s).link p).line k = (s.link p).line k := LinkIf.line_of_lines (by simp) k

@[simp] theorem pushReply_replies (q : Port) (r : Reply) (s : State) (p : Port) :
    ((pushReply q r s).link p).replies = (s.link p).replies ++ if p = q then [r] else [] := by
  by_cases h : p = q <;> simp [pushReply, State.setLink_link, h]

@[simp] theorem answer_keeps (r : ReqRef) (st : Status) (body : List Byte) (s : State) :
    (answer r st body s).pending = s.pending ∧ (answer r st body s).powered = s.powered ∧
    (answer r st body s).second = s.second ∧ (answer r st body s).free = s.free ∧
    (answer r st body s).intake = s.intake ∧ (answer r st body s).comp = s.comp ∧
    (answer r st body s).media = s.media ∧ (answer r st body s).ret = s.ret ∧ (answer r st body s).audit = s.audit ∧
    (answer r st body s).cursors = s.cursors ∧ (answer r st body s).cat = s.cat ∧
    (answer r st body s).fault = s.fault ∧ (answer r st body s).beside = s.beside := by
  simp only [answer]; split <;> simp

@[simp] theorem answer_link (r : ReqRef) (st : Status) (body : List Byte) (s : State) (p : Port) :
    ((answer r st body s).link p).up = (s.link p).up ∧ ((answer r st body s).link p).epoch = (s.link p).epoch ∧
    ((answer r st body s).link p).outstanding = (s.link p).outstanding ∧
    ((answer r st body s).link p).sending = (s.link p).sending ∧
    ((answer r st body s).link p).replyTurn = (s.link p).replyTurn ∧
    ((answer r st body s).link p).frames = (s.link p).frames ∧
    ((answer r st body s).link p).lines = (s.link p).lines := by
  simp only [answer]; split <;> simp

@[simp] theorem answer_line (r : ReqRef) (st : Status) (body : List Byte) (s : State) (p : Port) (k : Nat) :
    ((answer r st body s).link p).line k = (s.link p).line k := LinkIf.line_of_lines (by simp) k

@[simp] theorem refuse_eq (r : ReqRef) (st : Status) (s : State) : refuse r st s = answer r st [] s := rfl

/-- An answer to a live request joins its port's replies; to a discarded one it is dropped. -/
@[simp] theorem answer_replies (r : ReqRef) (st : Status) (body : List Byte) (s : State) (p : Port) :
    ((answer r st body s).link p).replies = (s.link p).replies ++
      if p = r.port ∧ s.isLive r = true then [replyTo r.tag r.kind st body] else [] := by
  by_cases hl : s.isLive r = true <;> by_cases h : p = r.port <;> simp [answer, replyTo, hl, h]

@[simp] theorem bounce_keeps (q : Port) (tag kind : Nat) (st : Status) (s : State) :
    (bounce q tag kind st s).pending = s.pending ∧ (bounce q tag kind st s).powered = s.powered ∧
    (bounce q tag kind st s).second = s.second ∧ (bounce q tag kind st s).free = s.free ∧
    (bounce q tag kind st s).intake = s.intake ∧ (bounce q tag kind st s).comp = s.comp ∧
    (bounce q tag kind st s).media = s.media ∧ (bounce q tag kind st s).ret = s.ret ∧
    (bounce q tag kind st s).audit = s.audit ∧ (bounce q tag kind st s).cursors = s.cursors ∧
    (bounce q tag kind st s).cat = s.cat ∧ (bounce q tag kind st s).fault = s.fault ∧
    (bounce q tag kind st s).beside = s.beside := by
  simp [bounce]

@[simp] theorem bounce_link (q : Port) (tag kind : Nat) (st : Status) (s : State) (p : Port) :
    ((bounce q tag kind st s).link p).up = (s.link p).up ∧
    ((bounce q tag kind st s).link p).epoch = (s.link p).epoch ∧
    ((bounce q tag kind st s).link p).outstanding = (s.link p).outstanding ∧
    ((bounce q tag kind st s).link p).sending = (s.link p).sending ∧
    ((bounce q tag kind st s).link p).replyTurn = (s.link p).replyTurn ∧
    ((bounce q tag kind st s).link p).frames = (s.link p).frames ∧
    ((bounce q tag kind st s).link p).lines = (s.link p).lines := by
  simp [bounce]

@[simp] theorem bounce_line (q : Port) (tag kind : Nat) (st : Status) (s : State) (p : Port) (k : Nat) :
    ((bounce q tag kind st s).link p).line k = (s.link p).line k := LinkIf.line_of_lines (by simp) k

@[simp] theorem bounce_replies (q : Port) (tag kind : Nat) (st : Status) (s : State) (p : Port) :
    ((bounce q tag kind st s).link p).replies = (s.link p).replies ++
      if p = q then [{ kind := kind, tag := tag, status := st, body := [], entered := false }] else [] := by
  simp [bounce]

@[simp] theorem enter_keeps (q : Port) (tag kind : Nat) (s : State) :
    (enter q tag kind s).pending = s.pending ∧ (enter q tag kind s).powered = s.powered ∧
    (enter q tag kind s).second = s.second ∧ (enter q tag kind s).free = s.free ∧
    (enter q tag kind s).intake = s.intake ∧ (enter q tag kind s).comp = s.comp ∧
    (enter q tag kind s).media = s.media ∧ (enter q tag kind s).ret = s.ret ∧ (enter q tag kind s).audit = s.audit ∧
    (enter q tag kind s).cursors = s.cursors ∧ (enter q tag kind s).cat = s.cat ∧
    (enter q tag kind s).fault = s.fault ∧ (enter q tag kind s).beside = s.beside := by
  cases q <;> simp [enter]

@[simp] theorem enter_link (q : Port) (tag kind : Nat) (s : State) (p : Port) :
    ((enter q tag kind s).link p).up = (s.link p).up ∧ ((enter q tag kind s).link p).epoch = (s.link p).epoch ∧
    ((enter q tag kind s).link p).sending = (s.link p).sending ∧
    ((enter q tag kind s).link p).replyTurn = (s.link p).replyTurn ∧
    ((enter q tag kind s).link p).frames = (s.link p).frames ∧
    ((enter q tag kind s).link p).replies = (s.link p).replies ∧
    ((enter q tag kind s).link p).lines = (s.link p).lines := by
  by_cases h : p = q <;> simp [enter, State.setLink_link, h]

@[simp] theorem enter_line (q : Port) (tag kind : Nat) (s : State) (p : Port) (k : Nat) :
    ((enter q tag kind s).link p).line k = (s.link p).line k := LinkIf.line_of_lines (by simp) k

@[simp] theorem enter_outstanding (q : Port) (tag kind : Nat) (s : State) (p : Port) :
    ((enter q tag kind s).link p).outstanding =
      (s.link p).outstanding ++ if p = q then [{ tag := tag, kind := kind }] else [] := by
  by_cases h : p = q <;> simp [enter, State.setLink_link, h]

/-! ### The turn of a command -/

@[simp] theorem clearFrames_keeps (s : State) :
    (clearFrames s).pending = s.pending ∧ (clearFrames s).powered = s.powered ∧ (clearFrames s).second = s.second ∧
    (clearFrames s).free = s.free ∧ (clearFrames s).intake = s.intake ∧ (clearFrames s).comp = s.comp ∧
    (clearFrames s).media = s.media ∧ (clearFrames s).ret = s.ret ∧ (clearFrames s).audit = s.audit ∧
    (clearFrames s).cursors = s.cursors ∧ (clearFrames s).cat = s.cat ∧ (clearFrames s).fault = s.fault ∧
    (clearFrames s).beside = s.beside := by
  exact ⟨rfl, rfl, rfl, rfl, rfl, rfl, rfl, rfl, rfl, rfl, rfl, rfl, rfl⟩

@[simp] theorem clearFrames_link (s : State) (p : Port) :
    ((clearFrames s).link p).up = (s.link p).up ∧ ((clearFrames s).link p).epoch = (s.link p).epoch ∧
    ((clearFrames s).link p).outstanding = (s.link p).outstanding ∧
    ((clearFrames s).link p).sending = (s.link p).sending ∧
    ((clearFrames s).link p).replyTurn = (s.link p).replyTurn ∧
    ((clearFrames s).link p).replies = (s.link p).replies ∧ ((clearFrames s).link p).lines = (s.link p).lines := by
  cases p <;> exact ⟨rfl, rfl, rfl, rfl, rfl, rfl, rfl⟩

@[simp] theorem clearFrames_line (s : State) (p : Port) (k : Nat) :
    ((clearFrames s).link p).line k = (s.link p).line k := LinkIf.line_of_lines (by simp) k

@[simp] theorem clearFrames_frames (s : State) (p : Port) : ((clearFrames s).link p).frames = [] := by
  cases p <;> rfl

@[simp] theorem transmitBoth_keeps (s : State) :
    (transmitBoth s).pending = s.pending ∧ (transmitBoth s).powered = s.powered ∧
    (transmitBoth s).second = s.second ∧ (transmitBoth s).free = s.free ∧ (transmitBoth s).intake = s.intake ∧
    (transmitBoth s).comp = s.comp ∧ (transmitBoth s).media = s.media ∧ (transmitBoth s).ret = s.ret ∧
    (transmitBoth s).audit = s.audit ∧ (transmitBoth s).cursors = s.cursors ∧ (transmitBoth s).cat = s.cat ∧
    (transmitBoth s).fault = s.fault ∧ (transmitBoth s).beside = s.beside := by
  exact ⟨rfl, rfl, rfl, rfl, rfl, rfl, rfl, rfl, rfl, rfl, rfl, rfl, rfl⟩

theorem transmitBoth_transmit (s : State) (p : Port) : (transmitBoth s).link p = (s.link p).transmit := by
  cases p <;> rfl

@[simp] theorem LinkIf.transmit_keeps (l : LinkIf) :
    l.transmit.up = l.up ∧ l.transmit.epoch = l.epoch ∧ l.transmit.outstanding = l.outstanding ∧
      l.transmit.lines = l.lines := by
  simp only [LinkIf.transmit, LinkIf.sendReply, LinkIf.sendNotice]
  repeat' split
  all_goals simp

@[simp] theorem transmitBoth_link (s : State) (p : Port) :
    ((transmitBoth s).link p).up = (s.link p).up ∧ ((transmitBoth s).link p).epoch = (s.link p).epoch ∧
      ((transmitBoth s).link p).outstanding = (s.link p).outstanding ∧
      ((transmitBoth s).link p).lines = (s.link p).lines := by
  simp [transmitBoth_transmit]

@[simp] theorem transmitBoth_line (s : State) (p : Port) (k : Nat) :
    ((transmitBoth s).link p).line k = (s.link p).line k := LinkIf.line_of_lines (by simp) k

/-- The transmitter sends a reply or leaves it waiting: every reply produced stands after the turn. -/
theorem LinkIf.transmit_replies (l : LinkIf) {r : Reply} (h : r ∈ l.replies) :
    r ∈ l.transmit.replies ∨ l.transmit.sending = some (.reply r) := by
  simp only [LinkIf.transmit, LinkIf.sendReply, LinkIf.sendNotice]
  repeat' split
  all_goals first
    | exact Or.inl h
    | (rename_i h'; simp [h'] at h; rcases h with h | h <;> simp [h])

/-- A reply among a port's replies has been produced when the turn ends. -/
theorem replied_of_mem {s : State} {p : Port} {r : Reply} (h : r ∈ (s.link p).replies) :
    (transmitBoth s).replied p r = true := by
  simp only [State.replied, transmitBoth_transmit, Bool.or_eq_true, List.contains_iff_mem, decide_eq_true_eq]
  exact LinkIf.transmit_replies _ h

/-- The answer of a command. -/
theorem turn_next (f : State → State) (s : State) : turn f s = .next (transmitBoth (f (clearFrames s))) := rfl

/-- A request is live while its port's epoch stands. -/
theorem isLive_congr {s t : State} (r : ReqRef) (h : (t.link r.port).epoch = (s.link r.port).epoch) :
    t.isLive r = s.isLive r := by
  simp only [State.isLive, h]

end Sys2Proof.Machine
end

