-- ==== Sys2Proof/Laws/Requests.lean ====
section
/-!
SUPPORT. Laws/Requests.lean: all that the taking of a request, a table of checks and an answer can do.
-/

namespace Sys2Proof.Machine
open Sys2Proof

/-! ### The checks at the link (R192, R194) -/

theorem admits_iff (s : State) (p : Port) (tag : Nat) :
    s.admits p tag = true ↔
      (s.link p).up = true ∧ (s.link p).holdsTag tag = false ∧ (s.link p).outstanding.length < 16 := by
  simp [State.admits, Config.outstanding, and_assoc]
  intros
  exact decide_eq_true_iff

@[simp] theorem clearFrames_holdsTag (s : State) (p : Port) (tag : Nat) :
    ((clearFrames s).link p).holdsTag tag = (s.link p).holdsTag tag := by
  simp [LinkIf.holdsTag]

@[simp] theorem clearFrames_admits (s : State) (p : Port) (tag : Nat) :
    (clearFrames s).admits p tag = s.admits p tag := by
  simp [State.admits]

/-- A DOWN link takes nothing. -/
theorem request_down {s : State} {p : Port} (h : (s.link p).up = false) (tag kind : Nat) (g : Rights)
    (act : ReqRef → State → State) : request p tag kind g act s = .next (transmitBoth (clearFrames s)) := by
  simp [request, turn, takeRequest, h]

/-- A tag in use. -/
theorem request_tagInUse {s : State} {p : Port} {tag : Nat} (h : (s.link p).up = true)
    (ht : (s.link p).holdsTag tag = true) (kind : Nat) (g : Rights) (act : ReqRef → State → State) :
    request p tag kind g act s = .next (transmitBoth (bounce p tag kind .tagInUse (clearFrames s))) := by
  simp [request, turn, takeRequest, h, ht]

/-- Sixteen outstanding. -/
theorem request_windowFull {s : State} {p : Port} {tag : Nat} (h : (s.link p).up = true)
    (ht : (s.link p).holdsTag tag = false) (hw : 16 ≤ (s.link p).outstanding.length) (kind : Nat) (g : Rights)
    (act : ReqRef → State → State) :
    request p tag kind g act s = .next (transmitBoth (bounce p tag kind .windowFull (clearFrames s))) := by
  simp [request, turn, takeRequest, h, ht, Config.outstanding, hw]

/-- A kind the port may not send. -/
theorem request_notPermitted {s : State} {p : Port} {tag : Nat} (h : s.admits p tag = true) (kind : Nat) {g : Rights}
    (hg : g.allows p = false) (act : ReqRef → State → State) :
    request p tag kind g act s = .next (transmitBoth (bounce p tag kind .notPermitted (clearFrames s))) := by
  rw [admits_iff] at h
  simp [request, turn, takeRequest, h.1, h.2.1, Nat.not_le.mpr h.2.2, Config.outstanding, hg]

/-- The request as its block knows it. -/
abbrev refOf (s : State) (p : Port) (tag kind : Nat) : ReqRef :=
  { port := p, tag := tag, kind := kind, epoch := (s.link p).epoch }

/-- The state in which the block that owns the request acts. -/
abbrev taken (s : State) (p : Port) (tag kind : Nat) : State := enter p tag kind (clearFrames s)

/-- A request that passes the checks at the link is entered and handed to its block. -/
theorem request_admitted {s : State} {p : Port} {tag : Nat} (h : s.admits p tag = true) (kind : Nat) {g : Rights}
    (hg : g.allows p = true) (act : ReqRef → State → State) :
    request p tag kind g act s = .next (transmitBoth (act (refOf s p tag kind) (taken s p tag kind))) := by
  rw [admits_iff] at h
  simp [request, turn, takeRequest, h.1, h.2.1, Nat.not_le.mpr h.2.2, Config.outstanding, hg, reqOf]

/-- It is live there. -/
@[simp] theorem taken_isLive (s : State) (p : Port) (tag kind : Nat) :
    (taken s p tag kind).isLive (refOf s p tag kind) = true := by
  simp [State.isLive]

/-! ### Tables of checks -/

theorem checked_refused {cs : List (Bool × Status)} {st : Status} (h : firstRefusal cs = some st) (r : ReqRef)
    (act : State → State) (s : State) : checked r cs act s = answer r st [] s := by
  simp [checked, h, refuse]

theorem checked_passed {cs : List (Bool × Status)} (h : firstRefusal cs = none) (r : ReqRef) (act : State → State)
    (s : State) : checked r cs act s = act s := by
  simp [checked, h]

/-- A table passes when every check does. -/
theorem firstRefusal_none_iff (cs : List (Bool × Status)) :
    firstRefusal cs = none ↔ ∀ c ∈ cs, c.1 = true := by
  induction cs with
  | nil => simp [firstRefusal]
  | cons c cs ih =>
    obtain ⟨ok, st⟩ := c
    cases ok <;> simp [firstRefusal, ih]

/-- The first check that fails gives the refusal. -/
theorem firstRefusal_cons (ok : Bool) (st : Status) (cs : List (Bool × Status)) :
    firstRefusal ((ok, st) :: cs) = if ok then firstRefusal cs else some st := rfl

/-! ### Answers -/

/-- An answer to a live request is a reply of its port. -/
theorem answer_mem {r : ReqRef} {s : State} (h : s.isLive r = true) (st : Status) (body : List Byte) :
    replyTo r.tag r.kind st body ∈ ((answer r st body s).link r.port).replies := by
  simp [h]

/-- When the turn of the command ends, the reply stands. -/
theorem answer_replied {r : ReqRef} {s : State} (h : s.isLive r = true) (st : Status) (body : List Byte) :
    (transmitBoth (answer r st body s)).replied r.port (replyTo r.tag r.kind st body) = true :=
  replied_of_mem (answer_mem h st body)

/-- A reply produced earlier still stands when later acts only add replies. -/
theorem replied_of_prefix {s t : State} {p : Port} {r : Reply} (h : r ∈ (s.link p).replies)
    (hp : (s.link p).replies <+: (t.link p).replies) : (transmitBoth t).replied p r = true :=
  replied_of_mem (hp.subset h)

end Sys2Proof.Machine
end

