-- ==== Sys2Proof/Laws/KeepsMedia.lean ====
section
/-!
SUPPORT. Laws/KeepsMedia.lean: everything that the acts of the intake, the log, the faults, the channels and the allocations leave as it was.
-/

namespace Sys2Proof.Machine
open Sys2Proof

@[simp] theorem State.changeTally_keeps (x y : Nat) (f : TallyEntry → TallyEntry) (s : State) :
    (s.changeTally x y f).pending = s.pending ∧ (s.changeTally x y f).powered = s.powered ∧
    (s.changeTally x y f).second = s.second ∧ (s.changeTally x y f).cursors = s.cursors ∧
    (s.changeTally x y f).comp = s.comp ∧ (s.changeTally x y f).media = s.media ∧ (s.changeTally x y f).ret = s.ret ∧
    (s.changeTally x y f).audit = s.audit ∧ (s.changeTally x y f).cat = s.cat ∧
    (s.changeTally x y f).fault = s.fault ∧ (∀ p, (s.changeTally x y f).link p = s.link p) ∧
    (s.changeTally x y f).intake.sources = s.intake.sources ∧ (s.changeTally x y f).intake.slots = s.intake.slots ∧
    (s.changeTally x y f).intake.closing = s.intake.closing ∧
    (s.changeTally x y f).intake.freePages = s.intake.freePages ∧
    (s.changeTally x y f).intake.ageings = s.intake.ageings := by
  simp only [State.changeTally]
  repeat' split
  all_goals simp

@[simp] theorem leaveFlight_keeps (x y : Nat) (s : State) :
    (leaveFlight x y s).pending = s.pending ∧ (leaveFlight x y s).powered = s.powered ∧
    (leaveFlight x y s).second = s.second ∧ (leaveFlight x y s).cursors = s.cursors ∧
    (leaveFlight x y s).comp = s.comp ∧ (leaveFlight x y s).media = s.media ∧ (leaveFlight x y s).ret = s.ret ∧
    (leaveFlight x y s).audit = s.audit ∧ (leaveFlight x y s).cat = s.cat ∧ (leaveFlight x y s).fault = s.fault ∧
    (∀ p, (leaveFlight x y s).link p = s.link p) ∧ (leaveFlight x y s).intake.sources = s.intake.sources ∧
    (leaveFlight x y s).intake.slots = s.intake.slots ∧ (leaveFlight x y s).intake.closing = s.intake.closing ∧
    (leaveFlight x y s).intake.freePages = s.intake.freePages ∧
    (leaveFlight x y s).intake.ageings = s.intake.ageings := by
  simp [leaveFlight]

@[simp] theorem clearSlot_keeps (k : Nat) (s : State) :
    (clearSlot k s).pending = s.pending ∧ (clearSlot k s).powered = s.powered ∧ (clearSlot k s).second = s.second ∧
    (clearSlot k s).cursors = s.cursors ∧ (clearSlot k s).comp = s.comp ∧ (clearSlot k s).media = s.media ∧
    (clearSlot k s).ret = s.ret ∧ (clearSlot k s).audit = s.audit ∧ (clearSlot k s).cat = s.cat ∧
    (clearSlot k s).fault = s.fault ∧ (∀ p, (clearSlot k s).link p = s.link p) ∧
    (clearSlot k s).intake.sources = s.intake.sources ∧ (clearSlot k s).intake.tally = s.intake.tally ∧
    (clearSlot k s).intake.freePages = s.intake.freePages ∧ (clearSlot k s).intake.ageings = s.intake.ageings := by
  simp [clearSlot]

@[simp] theorem freePages_keeps (n : Nat) (s : State) :
    (freePages n s).pending = s.pending ∧ (freePages n s).powered = s.powered ∧ (freePages n s).second = s.second ∧
    (freePages n s).cursors = s.cursors ∧ (freePages n s).comp = s.comp ∧ (freePages n s).media = s.media ∧
    (freePages n s).ret = s.ret ∧ (freePages n s).audit = s.audit ∧ (freePages n s).cat = s.cat ∧
    (freePages n s).fault = s.fault ∧ (∀ p, (freePages n s).link p = s.link p) ∧
    (freePages n s).intake.sources = s.intake.sources ∧ (freePages n s).intake.slots = s.intake.slots ∧
    (freePages n s).intake.closing = s.intake.closing ∧ (freePages n s).intake.tally = s.intake.tally ∧
    (freePages n s).intake.ageings = s.intake.ageings := by
  simp [freePages]

@[simp] theorem abortSlot_keeps (k : Nat) (s : State) :
    (abortSlot k s).pending = s.pending ∧ (abortSlot k s).powered = s.powered ∧ (abortSlot k s).second = s.second ∧
    (abortSlot k s).cursors = s.cursors ∧ (abortSlot k s).comp = s.comp ∧ (abortSlot k s).media = s.media ∧
    (abortSlot k s).ret = s.ret ∧ (abortSlot k s).audit = s.audit ∧ (abortSlot k s).cat = s.cat ∧
    (abortSlot k s).fault = s.fault ∧ (∀ p, (abortSlot k s).link p = s.link p) ∧
    (abortSlot k s).intake.sources = s.intake.sources ∧ (abortSlot k s).intake.ageings = s.intake.ageings := by
  simp [abortSlot]

@[simp] theorem refuseFile_keeps (k : Nat) (s : State) :
    (refuseFile k s).pending = s.pending ∧ (refuseFile k s).powered = s.powered ∧
    (refuseFile k s).second = s.second ∧ (refuseFile k s).cursors = s.cursors ∧ (refuseFile k s).comp = s.comp ∧
    (refuseFile k s).media = s.media ∧ (refuseFile k s).ret = s.ret ∧ (refuseFile k s).audit = s.audit ∧
    (refuseFile k s).cat = s.cat ∧ (refuseFile k s).fault = s.fault ∧ (∀ p, (refuseFile k s).link p = s.link p) ∧
    (refuseFile k s).intake.sources = s.intake.sources ∧ (refuseFile k s).intake.ageings = s.intake.ageings := by
  simp [refuseFile]

@[simp] theorem writeFinding_keeps (b : FindingBody) (s : State) :
    (writeFinding b s).pending = s.pending ∧ (writeFinding b s).powered = s.powered ∧
    (writeFinding b s).second = s.second ∧ (writeFinding b s).cursors = s.cursors ∧
    (writeFinding b s).intake = s.intake ∧ (writeFinding b s).comp = s.comp ∧ (writeFinding b s).media = s.media ∧
    (writeFinding b s).ret = s.ret ∧ (writeFinding b s).cat = s.cat ∧ (writeFinding b s).fault = s.fault ∧
    (writeFinding b s).audit.job = s.audit.job ∧ (writeFinding b s).audit.buffer = s.audit.buffer ∧
    (∀ p, ((writeFinding b s).link p).up = (s.link p).up) ∧
    (∀ p, ((writeFinding b s).link p).epoch = (s.link p).epoch) ∧
    (∀ p, ((writeFinding b s).link p).outstanding = (s.link p).outstanding) ∧
    (∀ p, ((writeFinding b s).link p).sending = (s.link p).sending) ∧
    (∀ p, ((writeFinding b s).link p).replyTurn = (s.link p).replyTurn) ∧
    (∀ p, ((writeFinding b s).link p).frames = (s.link p).frames) ∧
    (∀ p, ((writeFinding b s).link p).replies = (s.link p).replies) ∧
    (∀ p, ((writeFinding b s).link p).line noticeLinkError = (s.link p).line noticeLinkError) ∧
    (∀ p, ((writeFinding b s).link p).line noticeFileAborted = (s.link p).line noticeFileAborted) ∧
    (∀ p, ((writeFinding b s).link p).line noticeCursorClosed = (s.link p).line noticeCursorClosed) ∧
    (∀ p, ((writeFinding b s).link p).line noticeCheckpointDone = (s.link p).line noticeCheckpointDone) ∧
    (∀ p, ((writeFinding b s).link p).line noticeDayDone = (s.link p).line noticeDayDone) ∧
    (∀ p, ((writeFinding b s).link p).line noticeHoldChanged = (s.link p).line noticeHoldChanged) ∧
    (∀ p, ((writeFinding b s).link p).line noticeFault = (s.link p).line noticeFault) ∧
    (∀ p, ((writeFinding b s).link p).line noticeHalted = (s.link p).line noticeHalted) := by
  simp only [writeFinding]
  repeat' split
  all_goals simp

@[simp] theorem exportGaps_keeps (n : Nat) (reason : GapReason) (gs : List GapRecord) (s : State) :
    (exportGaps n reason gs s).pending = s.pending ∧ (exportGaps n reason gs s).powered = s.powered ∧
    (exportGaps n reason gs s).second = s.second ∧ (exportGaps n reason gs s).cursors = s.cursors ∧
    (exportGaps n reason gs s).intake = s.intake ∧ (exportGaps n reason gs s).comp = s.comp ∧
    (exportGaps n reason gs s).media = s.media ∧ (exportGaps n reason gs s).ret = s.ret ∧
    (exportGaps n reason gs s).cat = s.cat ∧ (exportGaps n reason gs s).fault = s.fault ∧
    (exportGaps n reason gs s).audit.job = s.audit.job ∧ (exportGaps n reason gs s).audit.buffer = s.audit.buffer ∧
    (∀ p, ((exportGaps n reason gs s).link p).up = (s.link p).up) ∧
    (∀ p, ((exportGaps n reason gs s).link p).epoch = (s.link p).epoch) ∧
    (∀ p, ((exportGaps n reason gs s).link p).outstanding = (s.link p).outstanding) ∧
    (∀ p, ((exportGaps n reason gs s).link p).sending = (s.link p).sending) ∧
    (∀ p, ((exportGaps n reason gs s).link p).replyTurn = (s.link p).replyTurn) ∧
    (∀ p, ((exportGaps n reason gs s).link p).frames = (s.link p).frames) ∧
    (∀ p, ((exportGaps n reason gs s).link p).replies = (s.link p).replies) ∧
    (∀ p, ((exportGaps n reason gs s).link p).line noticeLinkError = (s.link p).line noticeLinkError) ∧
    (∀ p, ((exportGaps n reason gs s).link p).line noticeFileAborted = (s.link p).line noticeFileAborted) ∧
    (∀ p, ((exportGaps n reason gs s).link p).line noticeCursorClosed = (s.link p).line noticeCursorClosed) ∧
    (∀ p, ((exportGaps n reason gs s).link p).line noticeCheckpointDone = (s.link p).line noticeCheckpointDone) ∧
    (∀ p, ((exportGaps n reason gs s).link p).line noticeDayDone = (s.link p).line noticeDayDone) ∧
    (∀ p, ((exportGaps n reason gs s).link p).line noticeHoldChanged = (s.link p).line noticeHoldChanged) ∧
    (∀ p, ((exportGaps n reason gs s).link p).line noticeFault = (s.link p).line noticeFault) ∧
    (∀ p, ((exportGaps n reason gs s).link p).line noticeHalted = (s.link p).line noticeHalted) := by
  unfold exportGaps
  generalize gs = l
  induction l generalizing s with
  | nil => simp
  | cons a l ih => simp [ih]

@[simp] theorem releaseTest_keeps (n : Nat) (s : State) :
    (releaseTest n s).pending = s.pending ∧ (releaseTest n s).powered = s.powered ∧
    (releaseTest n s).second = s.second ∧ (releaseTest n s).cursors = s.cursors ∧ (releaseTest n s).comp = s.comp ∧
    (releaseTest n s).media = s.media ∧ (releaseTest n s).ret = s.ret ∧ (releaseTest n s).audit = s.audit ∧
    (releaseTest n s).cat = s.cat ∧ (releaseTest n s).fault = s.fault ∧ (∀ p, (releaseTest n s).link p = s.link p) ∧
    (releaseTest n s).intake.slots = s.intake.slots ∧ (releaseTest n s).intake.closing = s.intake.closing ∧
    (releaseTest n s).intake.tally = s.intake.tally ∧ (releaseTest n s).intake.freePages = s.intake.freePages ∧
    (releaseTest n s).intake.ageings = s.intake.ageings := by
  simp only [releaseTest]
  repeat' split
  all_goals simp

@[simp] theorem freeEntry_keeps (e : Nat) (s : State) :
    (freeEntry e s).pending = s.pending ∧ (freeEntry e s).powered = s.powered ∧ (freeEntry e s).second = s.second ∧
    (freeEntry e s).cursors = s.cursors ∧ (freeEntry e s).intake = s.intake ∧ (freeEntry e s).ret = s.ret ∧
    (freeEntry e s).audit = s.audit ∧ (freeEntry e s).cat = s.cat ∧ (freeEntry e s).fault = s.fault ∧
    (∀ p, (freeEntry e s).link p = s.link p) ∧ (freeEntry e s).comp.queue = s.comp.queue ∧
    (freeEntry e s).comp.headHeld = s.comp.headHeld ∧ (freeEntry e s).comp.builders = s.comp.builders ∧
    (freeEntry e s).comp.opening = s.comp.opening ∧ (freeEntry e s).comp.stopped = s.comp.stopped ∧
    (freeEntry e s).comp.closesOwed = s.comp.closesOwed ∧ (freeEntry e s).media.channels = s.media.channels ∧
    (freeEntry e s).media.pointer = s.media.pointer ∧ (freeEntry e s).media.slotWait = s.media.slotWait ∧
    (freeEntry e s).media.flash = s.media.flash := by
  have h : ∀ (l : List Nat) (t : State), ((List.foldl (fun t c => t.setCode c (dropUse (t.code c))) t l).pending = t.pending ∧
      (List.foldl (fun t c => t.setCode c (dropUse (t.code c))) t l).powered = t.powered ∧
      (List.foldl (fun t c => t.setCode c (dropUse (t.code c))) t l).second = t.second ∧
      (List.foldl (fun t c => t.setCode c (dropUse (t.code c))) t l).cursors = t.cursors ∧
      (List.foldl (fun t c => t.setCode c (dropUse (t.code c))) t l).intake = t.intake ∧
      (List.foldl (fun t c => t.setCode c (dropUse (t.code c))) t l).ret = t.ret ∧
      (List.foldl (fun t c => t.setCode c (dropUse (t.code c))) t l).audit = t.audit ∧
      (List.foldl (fun t c => t.setCode c (dropUse (t.code c))) t l).cat = t.cat ∧
      (List.foldl (fun t c => t.setCode c (dropUse (t.code c))) t l).fault = t.fault ∧
      (∀ p, (List.foldl (fun t c => t.setCode c (dropUse (t.code c))) t l).link p = t.link p) ∧
      (List.foldl (fun t c => t.setCode c (dropUse (t.code c))) t l).comp.queue = t.comp.queue ∧
      (List.foldl (fun t c => t.setCode c (dropUse (t.code c))) t l).comp.headHeld = t.comp.headHeld ∧
      (List.foldl (fun t c => t.setCode c (dropUse (t.code c))) t l).comp.builders = t.comp.builders ∧
      (List.foldl (fun t c => t.setCode c (dropUse (t.code c))) t l).comp.opening = t.comp.opening ∧
      (List.foldl (fun t c => t.setCode c (dropUse (t.code c))) t l).comp.stopped = t.comp.stopped ∧
      (List.foldl (fun t c => t.setCode c (dropUse (t.code c))) t l).comp.closesOwed = t.comp.closesOwed ∧
      (List.foldl (fun t c => t.setCode c (dropUse (t.code c))) t l).media.channels = t.media.channels ∧
      (List.foldl (fun t c => t.setCode c (dropUse (t.code c))) t l).media.pointer = t.media.pointer ∧
      (List.foldl (fun t c => t.setCode c (dropUse (t.code c))) t l).media.slotWait = t.media.slotWait ∧
      (List.foldl (fun t c => t.setCode c (dropUse (t.code c))) t l).media.flash = t.media.flash) := by
    intro l
    induction l with
    | nil => simp
    | cons a l ih => intro t; simp [ih]
  simp [freeEntry, h]

@[simp] theorem freeEntryAndTest_keeps (e : Nat) (s : State) :
    (freeEntryAndTest e s).pending = s.pending ∧ (freeEntryAndTest e s).powered = s.powered ∧
    (freeEntryAndTest e s).second = s.second ∧ (freeEntryAndTest e s).cursors = s.cursors ∧
    (freeEntryAndTest e s).ret = s.ret ∧ (freeEntryAndTest e s).audit = s.audit ∧
    (freeEntryAndTest e s).cat = s.cat ∧ (freeEntryAndTest e s).fault = s.fault ∧
    (∀ p, (freeEntryAndTest e s).link p = s.link p) ∧ (freeEntryAndTest e s).intake.slots = s.intake.slots ∧
    (freeEntryAndTest e s).intake.closing = s.intake.closing ∧ (freeEntryAndTest e s).intake.tally = s.intake.tally ∧
    (freeEntryAndTest e s).intake.freePages = s.intake.freePages ∧
    (freeEntryAndTest e s).intake.ageings = s.intake.ageings ∧ (freeEntryAndTest e s).comp.queue = s.comp.queue ∧
    (freeEntryAndTest e s).comp.headHeld = s.comp.headHeld ∧ (freeEntryAndTest e s).comp.builders = s.comp.builders ∧
    (freeEntryAndTest e s).comp.opening = s.comp.opening ∧ (freeEntryAndTest e s).comp.stopped = s.comp.stopped ∧
    (freeEntryAndTest e s).comp.closesOwed = s.comp.closesOwed ∧
    (freeEntryAndTest e s).media.channels = s.media.channels ∧
    (freeEntryAndTest e s).media.pointer = s.media.pointer ∧
    (freeEntryAndTest e s).media.slotWait = s.media.slotWait ∧
    (freeEntryAndTest e s).media.flash = s.media.flash := by
  simp [freeEntryAndTest]

@[simp] theorem answerWaiter_keeps (d : Bool) (w : Waiter) (s : State) :
    (answerWaiter d w s).pending = s.pending ∧ (answerWaiter d w s).powered = s.powered ∧
    (answerWaiter d w s).second = s.second ∧ (answerWaiter d w s).cursors = s.cursors ∧
    (answerWaiter d w s).intake = s.intake ∧ (answerWaiter d w s).comp = s.comp ∧
    (answerWaiter d w s).media = s.media ∧ (answerWaiter d w s).ret = s.ret ∧ (answerWaiter d w s).audit = s.audit ∧
    (answerWaiter d w s).cat = s.cat ∧ (answerWaiter d w s).fault = s.fault ∧
    (∀ p, ((answerWaiter d w s).link p).up = (s.link p).up) ∧
    (∀ p, ((answerWaiter d w s).link p).epoch = (s.link p).epoch) ∧
    (∀ p, ((answerWaiter d w s).link p).outstanding = (s.link p).outstanding) ∧
    (∀ p, ((answerWaiter d w s).link p).sending = (s.link p).sending) ∧
    (∀ p, ((answerWaiter d w s).link p).replyTurn = (s.link p).replyTurn) ∧
    (∀ p, ((answerWaiter d w s).link p).frames = (s.link p).frames) ∧
    (∀ p, ((answerWaiter d w s).link p).line noticeLinkError = (s.link p).line noticeLinkError) ∧
    (∀ p, ((answerWaiter d w s).link p).line noticeFileAborted = (s.link p).line noticeFileAborted) ∧
    (∀ p, ((answerWaiter d w s).link p).line noticeCursorClosed = (s.link p).line noticeCursorClosed) ∧
    (∀ p, ((answerWaiter d w s).link p).line noticeCheckpointDone = (s.link p).line noticeCheckpointDone) ∧
    (∀ p, ((answerWaiter d w s).link p).line noticeHoldChanged = (s.link p).line noticeHoldChanged) ∧
    (∀ p, ((answerWaiter d w s).link p).line noticeFindings = (s.link p).line noticeFindings) ∧
    (∀ p, ((answerWaiter d w s).link p).line noticeFault = (s.link p).line noticeFault) ∧
    (∀ p, ((answerWaiter d w s).link p).line noticeHalted = (s.link p).line noticeHalted) := by
  simp only [answerWaiter]
  repeat' split
  all_goals simp

@[simp] theorem answerWaiters_keeps (d : Bool) (ws : List Waiter) (s : State) :
    (answerWaiters d ws s).pending = s.pending ∧ (answerWaiters d ws s).powered = s.powered ∧
    (answerWaiters d ws s).second = s.second ∧ (answerWaiters d ws s).cursors = s.cursors ∧
    (answerWaiters d ws s).intake = s.intake ∧ (answerWaiters d ws s).comp = s.comp ∧
    (answerWaiters d ws s).media = s.media ∧ (answerWaiters d ws s).ret = s.ret ∧
    (answerWaiters d ws s).audit = s.audit ∧ (answerWaiters d ws s).cat = s.cat ∧
    (answerWaiters d ws s).fault = s.fault ∧ (∀ p, ((answerWaiters d ws s).link p).up = (s.link p).up) ∧
    (∀ p, ((answerWaiters d ws s).link p).epoch = (s.link p).epoch) ∧
    (∀ p, ((answerWaiters d ws s).link p).outstanding = (s.link p).outstanding) ∧
    (∀ p, ((answerWaiters d ws s).link p).sending = (s.link p).sending) ∧
    (∀ p, ((answerWaiters d ws s).link p).replyTurn = (s.link p).replyTurn) ∧
    (∀ p, ((answerWaiters d ws s).link p).frames = (s.link p).frames) ∧
    (∀ p, ((answerWaiters d ws s).link p).line noticeLinkError = (s.link p).line noticeLinkError) ∧
    (∀ p, ((answerWaiters d ws s).link p).line noticeFileAborted = (s.link p).line noticeFileAborted) ∧
    (∀ p, ((answerWaiters d ws s).link p).line noticeCursorClosed = (s.link p).line noticeCursorClosed) ∧
    (∀ p, ((answerWaiters d ws s).link p).line noticeCheckpointDone = (s.link p).line noticeCheckpointDone) ∧
    (∀ p, ((answerWaiters d ws s).link p).line noticeHoldChanged = (s.link p).line noticeHoldChanged) ∧
    (∀ p, ((answerWaiters d ws s).link p).line noticeFindings = (s.link p).line noticeFindings) ∧
    (∀ p, ((answerWaiters d ws s).link p).line noticeFault = (s.link p).line noticeFault) ∧
    (∀ p, ((answerWaiters d ws s).link p).line noticeHalted = (s.link p).line noticeHalted) := by
  unfold answerWaiters
  generalize ws = l
  induction l generalizing s with
  | nil => simp
  | cons a l ih => simp [ih]

@[simp] theorem abandonCheckpoint_keeps (s : State) :
    (abandonCheckpoint s).pending = s.pending ∧ (abandonCheckpoint s).powered = s.powered ∧
    (abandonCheckpoint s).second = s.second ∧ (abandonCheckpoint s).cursors = s.cursors ∧
    (abandonCheckpoint s).intake = s.intake ∧ (abandonCheckpoint s).comp = s.comp ∧
    (abandonCheckpoint s).media = s.media ∧ (abandonCheckpoint s).ret = s.ret ∧
    (abandonCheckpoint s).audit = s.audit ∧ (abandonCheckpoint s).fault = s.fault ∧
    (abandonCheckpoint s).cat.archive = s.cat.archive ∧ (abandonCheckpoint s).cat.profile = s.cat.profile ∧
    (abandonCheckpoint s).cat.params = s.cat.params ∧ (abandonCheckpoint s).cat.channel = s.cat.channel ∧
    (abandonCheckpoint s).cat.last = s.cat.last ∧ (abandonCheckpoint s).cat.newer = s.cat.newer ∧
    (abandonCheckpoint s).cat.owed = s.cat.owed ∧ (abandonCheckpoint s).cat.owedWaiters = s.cat.owedWaiters ∧
    (abandonCheckpoint s).cat.buffer = s.cat.buffer ∧ (abandonCheckpoint s).cat.sharesOk = s.cat.sharesOk ∧
    (abandonCheckpoint s).cat.load = s.cat.load ∧ (abandonCheckpoint s).cat.pendingFormat = s.cat.pendingFormat ∧
    (abandonCheckpoint s).cat.formatCounter = s.cat.formatCounter ∧ (abandonCheckpoint s).cat.format = s.cat.format ∧
    (∀ p, ((abandonCheckpoint s).link p).up = (s.link p).up) ∧
    (∀ p, ((abandonCheckpoint s).link p).epoch = (s.link p).epoch) ∧
    (∀ p, ((abandonCheckpoint s).link p).outstanding = (s.link p).outstanding) ∧
    (∀ p, ((abandonCheckpoint s).link p).sending = (s.link p).sending) ∧
    (∀ p, ((abandonCheckpoint s).link p).replyTurn = (s.link p).replyTurn) ∧
    (∀ p, ((abandonCheckpoint s).link p).frames = (s.link p).frames) ∧
    (∀ p, ((abandonCheckpoint s).link p).line noticeLinkError = (s.link p).line noticeLinkError) ∧
    (∀ p, ((abandonCheckpoint s).link p).line noticeFileAborted = (s.link p).line noticeFileAborted) ∧
    (∀ p, ((abandonCheckpoint s).link p).line noticeCursorClosed = (s.link p).line noticeCursorClosed) ∧
    (∀ p, ((abandonCheckpoint s).link p).line noticeCheckpointDone = (s.link p).line noticeCheckpointDone) ∧
    (∀ p, ((abandonCheckpoint s).link p).line noticeHoldChanged = (s.link p).line noticeHoldChanged) ∧
    (∀ p, ((abandonCheckpoint s).link p).line noticeFindings = (s.link p).line noticeFindings) ∧
    (∀ p, ((abandonCheckpoint s).link p).line noticeFault = (s.link p).line noticeFault) ∧
    (∀ p, ((abandonCheckpoint s).link p).line noticeHalted = (s.link p).line noticeHalted) := by
  simp [abandonCheckpoint]

@[simp] theorem stopCompaction_keeps (s : State) :
    (stopCompaction s).pending = s.pending ∧ (stopCompaction s).powered = s.powered ∧
    (stopCompaction s).second = s.second ∧ (stopCompaction s).cursors = s.cursors ∧
    (stopCompaction s).intake = s.intake ∧ (stopCompaction s).media = s.media ∧ (stopCompaction s).ret = s.ret ∧
    (stopCompaction s).audit = s.audit ∧ (stopCompaction s).fault = s.fault ∧
    (stopCompaction s).comp.queue = s.comp.queue ∧ (stopCompaction s).comp.headHeld = s.comp.headHeld ∧
    (stopCompaction s).comp.builders = s.comp.builders ∧ (stopCompaction s).comp.opening = s.comp.opening ∧
    (stopCompaction s).comp.closesOwed = s.comp.closesOwed ∧ (stopCompaction s).comp.codes = s.comp.codes ∧
    (stopCompaction s).cat.archive = s.cat.archive ∧ (stopCompaction s).cat.profile = s.cat.profile ∧
    (stopCompaction s).cat.params = s.cat.params ∧ (stopCompaction s).cat.channel = s.cat.channel ∧
    (stopCompaction s).cat.last = s.cat.last ∧ (stopCompaction s).cat.newer = s.cat.newer ∧
    (stopCompaction s).cat.owed = s.cat.owed ∧ (stopCompaction s).cat.owedWaiters = s.cat.owedWaiters ∧
    (stopCompaction s).cat.buffer = s.cat.buffer ∧ (stopCompaction s).cat.sharesOk = s.cat.sharesOk ∧
    (stopCompaction s).cat.load = s.cat.load ∧ (stopCompaction s).cat.pendingFormat = s.cat.pendingFormat ∧
    (stopCompaction s).cat.formatCounter = s.cat.formatCounter ∧ (stopCompaction s).cat.format = s.cat.format ∧
    (∀ p, ((stopCompaction s).link p).up = (s.link p).up) ∧
    (∀ p, ((stopCompaction s).link p).epoch = (s.link p).epoch) ∧
    (∀ p, ((stopCompaction s).link p).outstanding = (s.link p).outstanding) ∧
    (∀ p, ((stopCompaction s).link p).sending = (s.link p).sending) ∧
    (∀ p, ((stopCompaction s).link p).replyTurn = (s.link p).replyTurn) ∧
    (∀ p, ((stopCompaction s).link p).frames = (s.link p).frames) ∧
    (∀ p, ((stopCompaction s).link p).line noticeLinkError = (s.link p).line noticeLinkError) ∧
    (∀ p, ((stopCompaction s).link p).line noticeFileAborted = (s.link p).line noticeFileAborted) ∧
    (∀ p, ((stopCompaction s).link p).line noticeCursorClosed = (s.link p).line noticeCursorClosed) ∧
    (∀ p, ((stopCompaction s).link p).line noticeCheckpointDone = (s.link p).line noticeCheckpointDone) ∧
    (∀ p, ((stopCompaction s).link p).line noticeHoldChanged = (s.link p).line noticeHoldChanged) ∧
    (∀ p, ((stopCompaction s).link p).line noticeFindings = (s.link p).line noticeFindings) ∧
    (∀ p, ((stopCompaction s).link p).line noticeFault = (s.link p).line noticeFault) ∧
    (∀ p, ((stopCompaction s).link p).line noticeHalted = (s.link p).line noticeHalted) := by
  simp only [stopCompaction]
  repeat' split
  all_goals simp

@[simp] theorem stopEngine_keeps (e : Engine) (s : State) :
    (stopEngine e s).pending = s.pending ∧ (stopEngine e s).powered = s.powered ∧
    (stopEngine e s).second = s.second ∧ (stopEngine e s).cursors = s.cursors ∧ (stopEngine e s).intake = s.intake ∧
    (stopEngine e s).media = s.media ∧ (stopEngine e s).audit = s.audit ∧ (stopEngine e s).fault = s.fault ∧
    (stopEngine e s).comp.queue = s.comp.queue ∧ (stopEngine e s).comp.headHeld = s.comp.headHeld ∧
    (stopEngine e s).comp.builders = s.comp.builders ∧ (stopEngine e s).comp.opening = s.comp.opening ∧
    (stopEngine e s).comp.closesOwed = s.comp.closesOwed ∧ (stopEngine e s).comp.codes = s.comp.codes ∧
    (stopEngine e s).ret.today = s.ret.today ∧ (stopEngine e s).ret.lastSwept = s.ret.lastSwept ∧
    (stopEngine e s).ret.classes = s.ret.classes ∧ (stopEngine e s).ret.holds = s.ret.holds ∧
    (stopEngine e s).ret.sweeps = s.ret.sweeps ∧ (stopEngine e s).ret.suspended = s.ret.suspended ∧
    (stopEngine e s).ret.lastDay = s.ret.lastDay ∧ (stopEngine e s).ret.lastExtend = s.ret.lastExtend ∧
    (stopEngine e s).ret.erasing = s.ret.erasing ∧ (stopEngine e s).cat.archive = s.cat.archive ∧
    (stopEngine e s).cat.profile = s.cat.profile ∧ (stopEngine e s).cat.params = s.cat.params ∧
    (stopEngine e s).cat.channel = s.cat.channel ∧ (stopEngine e s).cat.last = s.cat.last ∧
    (stopEngine e s).cat.newer = s.cat.newer ∧ (stopEngine e s).cat.owed = s.cat.owed ∧
    (stopEngine e s).cat.owedWaiters = s.cat.owedWaiters ∧ (stopEngine e s).cat.buffer = s.cat.buffer ∧
    (stopEngine e s).cat.sharesOk = s.cat.sharesOk ∧ (stopEngine e s).cat.load = s.cat.load ∧
    (stopEngine e s).cat.pendingFormat = s.cat.pendingFormat ∧
    (stopEngine e s).cat.formatCounter = s.cat.formatCounter ∧ (stopEngine e s).cat.format = s.cat.format ∧
    (∀ p, ((stopEngine e s).link p).up = (s.link p).up) ∧ (∀ p, ((stopEngine e s).link p).epoch = (s.link p).epoch) ∧
    (∀ p, ((stopEngine e s).link p).outstanding = (s.link p).outstanding) ∧
    (∀ p, ((stopEngine e s).link p).sending = (s.link p).sending) ∧
    (∀ p, ((stopEngine e s).link p).replyTurn = (s.link p).replyTurn) ∧
    (∀ p, ((stopEngine e s).link p).frames = (s.link p).frames) ∧
    (∀ p, ((stopEngine e s).link p).line noticeLinkError = (s.link p).line noticeLinkError) ∧
    (∀ p, ((stopEngine e s).link p).line noticeFileAborted = (s.link p).line noticeFileAborted) ∧
    (∀ p, ((stopEngine e s).link p).line noticeCursorClosed = (s.link p).line noticeCursorClosed) ∧
    (∀ p, ((stopEngine e s).link p).line noticeCheckpointDone = (s.link p).line noticeCheckpointDone) ∧
    (∀ p, ((stopEngine e s).link p).line noticeHoldChanged = (s.link p).line noticeHoldChanged) ∧
    (∀ p, ((stopEngine e s).link p).line noticeFindings = (s.link p).line noticeFindings) ∧
    (∀ p, ((stopEngine e s).link p).line noticeFault = (s.link p).line noticeFault) ∧
    (∀ p, ((stopEngine e s).link p).line noticeHalted = (s.link p).line noticeHalted) := by
  cases e
  all_goals simp [stopEngine]

@[simp] theorem haltClose_keeps (k : Nat) (s : State) :
    (haltClose k s).pending = s.pending ∧ (haltClose k s).powered = s.powered ∧ (haltClose k s).second = s.second ∧
    (haltClose k s).cursors = s.cursors ∧ (haltClose k s).comp = s.comp ∧ (haltClose k s).media = s.media ∧
    (haltClose k s).ret = s.ret ∧ (haltClose k s).audit = s.audit ∧ (haltClose k s).cat = s.cat ∧
    (haltClose k s).fault = s.fault ∧ (haltClose k s).intake.sources = s.intake.sources ∧
    (haltClose k s).intake.ageings = s.intake.ageings ∧ (∀ p, ((haltClose k s).link p).up = (s.link p).up) ∧
    (∀ p, ((haltClose k s).link p).epoch = (s.link p).epoch) ∧
    (∀ p, ((haltClose k s).link p).outstanding = (s.link p).outstanding) ∧
    (∀ p, ((haltClose k s).link p).sending = (s.link p).sending) ∧
    (∀ p, ((haltClose k s).link p).replyTurn = (s.link p).replyTurn) ∧
    (∀ p, ((haltClose k s).link p).frames = (s.link p).frames) ∧
    (∀ p, ((haltClose k s).link p).line noticeLinkError = (s.link p).line noticeLinkError) ∧
    (∀ p, ((haltClose k s).link p).line noticeFileAborted = (s.link p).line noticeFileAborted) ∧
    (∀ p, ((haltClose k s).link p).line noticeCursorClosed = (s.link p).line noticeCursorClosed) ∧
    (∀ p, ((haltClose k s).link p).line noticeCheckpointDone = (s.link p).line noticeCheckpointDone) ∧
    (∀ p, ((haltClose k s).link p).line noticeDayDone = (s.link p).line noticeDayDone) ∧
    (∀ p, ((haltClose k s).link p).line noticeHoldChanged = (s.link p).line noticeHoldChanged) ∧
    (∀ p, ((haltClose k s).link p).line noticeFindings = (s.link p).line noticeFindings) ∧
    (∀ p, ((haltClose k s).link p).line noticeFault = (s.link p).line noticeFault) ∧
    (∀ p, ((haltClose k s).link p).line noticeHalted = (s.link p).line noticeHalted) := by
  simp only [haltClose]
  repeat' split
  all_goals simp

@[simp] theorem enterHalted_keeps (s : State) :
    (enterHalted s).pending = s.pending ∧ (enterHalted s).powered = s.powered ∧ (enterHalted s).second = s.second ∧
    (enterHalted s).cursors = s.cursors ∧ (enterHalted s).comp = s.comp ∧ (enterHalted s).media = s.media ∧
    (enterHalted s).ret = s.ret ∧ (enterHalted s).audit = s.audit ∧ (enterHalted s).fault = s.fault ∧
    (enterHalted s).intake.sources = s.intake.sources ∧ (enterHalted s).intake.ageings = s.intake.ageings ∧
    (enterHalted s).cat.profile = s.cat.profile ∧ (enterHalted s).cat.params = s.cat.params ∧
    (enterHalted s).cat.channel = s.cat.channel ∧ (enterHalted s).cat.state = s.cat.state ∧
    (enterHalted s).cat.last = s.cat.last ∧ (enterHalted s).cat.newer = s.cat.newer ∧
    (enterHalted s).cat.waiters = s.cat.waiters ∧ (enterHalted s).cat.owed = s.cat.owed ∧
    (enterHalted s).cat.owedWaiters = s.cat.owedWaiters ∧ (enterHalted s).cat.buffer = s.cat.buffer ∧
    (enterHalted s).cat.sharesOk = s.cat.sharesOk ∧ (enterHalted s).cat.load = s.cat.load ∧
    (enterHalted s).cat.pendingFormat = s.cat.pendingFormat ∧
    (enterHalted s).cat.formatCounter = s.cat.formatCounter ∧ (enterHalted s).cat.format = s.cat.format ∧
    (∀ p, ((enterHalted s).link p).up = (s.link p).up) ∧ (∀ p, ((enterHalted s).link p).epoch = (s.link p).epoch) ∧
    (∀ p, ((enterHalted s).link p).outstanding = (s.link p).outstanding) ∧
    (∀ p, ((enterHalted s).link p).sending = (s.link p).sending) ∧
    (∀ p, ((enterHalted s).link p).replyTurn = (s.link p).replyTurn) ∧
    (∀ p, ((enterHalted s).link p).frames = (s.link p).frames) ∧
    (∀ p, ((enterHalted s).link p).line noticeLinkError = (s.link p).line noticeLinkError) ∧
    (∀ p, ((enterHalted s).link p).line noticeFileAborted = (s.link p).line noticeFileAborted) ∧
    (∀ p, ((enterHalted s).link p).line noticeCursorClosed = (s.link p).line noticeCursorClosed) ∧
    (∀ p, ((enterHalted s).link p).line noticeCheckpointDone = (s.link p).line noticeCheckpointDone) ∧
    (∀ p, ((enterHalted s).link p).line noticeDayDone = (s.link p).line noticeDayDone) ∧
    (∀ p, ((enterHalted s).link p).line noticeHoldChanged = (s.link p).line noticeHoldChanged) ∧
    (∀ p, ((enterHalted s).link p).line noticeFindings = (s.link p).line noticeFindings) ∧
    (∀ p, ((enterHalted s).link p).line noticeFault = (s.link p).line noticeFault) ∧
    (∀ p, ((enterHalted s).link p).line noticeHalted = (s.link p).line noticeHalted) := by
  have h : ∀ (l : List Nat) (t : State), ((List.foldl (fun t k => haltClose k t) t l).pending = t.pending ∧
      (List.foldl (fun t k => haltClose k t) t l).powered = t.powered ∧
      (List.foldl (fun t k => haltClose k t) t l).second = t.second ∧
      (List.foldl (fun t k => haltClose k t) t l).cursors = t.cursors ∧
      (List.foldl (fun t k => haltClose k t) t l).comp = t.comp ∧
      (List.foldl (fun t k => haltClose k t) t l).media = t.media ∧
      (List.foldl (fun t k => haltClose k t) t l).ret = t.ret ∧
      (List.foldl (fun t k => haltClose k t) t l).audit = t.audit ∧
      (List.foldl (fun t k => haltClose k t) t l).fault = t.fault ∧
      (List.foldl (fun t k => haltClose k t) t l).intake.sources = t.intake.sources ∧
      (List.foldl (fun t k => haltClose k t) t l).intake.ageings = t.intake.ageings ∧
      (List.foldl (fun t k => haltClose k t) t l).cat.profile = t.cat.profile ∧
      (List.foldl (fun t k => haltClose k t) t l).cat.params = t.cat.params ∧
      (List.foldl (fun t k => haltClose k t) t l).cat.channel = t.cat.channel ∧
      (List.foldl (fun t k => haltClose k t) t l).cat.state = t.cat.state ∧
      (List.foldl (fun t k => haltClose k t) t l).cat.last = t.cat.last ∧
      (List.foldl (fun t k => haltClose k t) t l).cat.newer = t.cat.newer ∧
      (List.foldl (fun t k => haltClose k t) t l).cat.waiters = t.cat.waiters ∧
      (List.foldl (fun t k => haltClose k t) t l).cat.owed = t.cat.owed ∧
      (List.foldl (fun t k => haltClose k t) t l).cat.owedWaiters = t.cat.owedWaiters ∧
      (List.foldl (fun t k => haltClose k t) t l).cat.buffer = t.cat.buffer ∧
      (List.foldl (fun t k => haltClose k t) t l).cat.sharesOk = t.cat.sharesOk ∧
      (List.foldl (fun t k => haltClose k t) t l).cat.load = t.cat.load ∧
      (List.foldl (fun t k => haltClose k t) t l).cat.pendingFormat = t.cat.pendingFormat ∧
      (List.foldl (fun t k => haltClose k t) t l).cat.formatCounter = t.cat.formatCounter ∧
      (List.foldl (fun t k => haltClose k t) t l).cat.format = t.cat.format ∧
      (∀ p, ((List.foldl (fun t k => haltClose k t) t l).link p).up = (t.link p).up) ∧
      (∀ p, ((List.foldl (fun t k => haltClose k t) t l).link p).epoch = (t.link p).epoch) ∧
      (∀ p, ((List.foldl (fun t k => haltClose k t) t l).link p).outstanding = (t.link p).outstanding) ∧
      (∀ p, ((List.foldl (fun t k => haltClose k t) t l).link p).sending = (t.link p).sending) ∧
      (∀ p, ((List.foldl (fun t k => haltClose k t) t l).link p).replyTurn = (t.link p).replyTurn) ∧
      (∀ p, ((List.foldl (fun t k => haltClose k t) t l).link p).frames = (t.link p).frames) ∧
      (∀ p, ((List.foldl (fun t k => haltClose k t) t l).link p).line noticeLinkError = (t.link p).line noticeLinkError) ∧
      (∀ p, ((List.foldl (fun t k => haltClose k t) t l).link p).line noticeFileAborted = (t.link p).line noticeFileAborted) ∧
      (∀ p, ((List.foldl (fun t k => haltClose k t) t l).link p).line noticeCursorClosed = (t.link p).line noticeCursorClosed) ∧
      (∀ p, ((List.foldl (fun t k => haltClose k t) t l).link p).line noticeCheckpointDone = (t.link p).line noticeCheckpointDone) ∧
      (∀ p, ((List.foldl (fun t k => haltClose k t) t l).link p).line noticeDayDone = (t.link p).line noticeDayDone) ∧
      (∀ p, ((List.foldl (fun t k => haltClose k t) t l).link p).line noticeHoldChanged = (t.link p).line noticeHoldChanged) ∧
      (∀ p, ((List.foldl (fun t k => haltClose k t) t l).link p).line noticeFindings = (t.link p).line noticeFindings) ∧
      (∀ p, ((List.foldl (fun t k => haltClose k t) t l).link p).line noticeFault = (t.link p).line noticeFault) ∧
      (∀ p, ((List.foldl (fun t k => haltClose k t) t l).link p).line noticeHalted = (t.link p).line noticeHalted)) := by
    intro l
    induction l with
    | nil => simp
    | cons a l ih => intro t; simp [ih]
  simp [enterHalted, h]

@[simp] theorem State.setContextOf_keeps (k : FaultKind) (c : FaultContext) (s : State) :
    (s.setContextOf k c).pending = s.pending ∧ (s.setContextOf k c).powered = s.powered ∧
    (s.setContextOf k c).second = s.second ∧ (s.setContextOf k c).cursors = s.cursors ∧
    (s.setContextOf k c).intake = s.intake ∧ (s.setContextOf k c).comp = s.comp ∧
    (s.setContextOf k c).media = s.media ∧ (s.setContextOf k c).ret = s.ret ∧ (s.setContextOf k c).audit = s.audit ∧
    (s.setContextOf k c).cat = s.cat ∧ (∀ p, (s.setContextOf k c).link p = s.link p) ∧
    (s.setContextOf k c).fault.halt = s.fault.halt ∧ (s.setContextOf k c).fault.counter = s.fault.counter := by
  simp only [State.setContextOf]
  repeat' split
  all_goals simp

@[simp] theorem takeFaultNumber_keeps (s : State) :
    (takeFaultNumber s).pending = s.pending ∧ (takeFaultNumber s).powered = s.powered ∧
    (takeFaultNumber s).second = s.second ∧ (takeFaultNumber s).cursors = s.cursors ∧
    (takeFaultNumber s).intake = s.intake ∧ (takeFaultNumber s).comp = s.comp ∧ (takeFaultNumber s).media = s.media ∧
    (takeFaultNumber s).ret = s.ret ∧ (takeFaultNumber s).audit = s.audit ∧ (takeFaultNumber s).cat = s.cat ∧
    (∀ p, (takeFaultNumber s).link p = s.link p) ∧ (takeFaultNumber s).fault.general = s.fault.general ∧
    (takeFaultNumber s).fault.media = s.fault.media ∧ (takeFaultNumber s).fault.halt = s.fault.halt := by
  simp [takeFaultNumber]

@[simp] theorem raiseFault_keeps (f : FaultInfo) (s : State) :
    (raiseFault f s).pending = s.pending ∧ (raiseFault f s).powered = s.powered ∧
    (raiseFault f s).second = s.second ∧ (raiseFault f s).cursors = s.cursors ∧ (raiseFault f s).media = s.media ∧
    (raiseFault f s).audit = s.audit ∧ (raiseFault f s).intake.sources = s.intake.sources ∧
    (raiseFault f s).intake.ageings = s.intake.ageings ∧ (raiseFault f s).comp.queue = s.comp.queue ∧
    (raiseFault f s).comp.headHeld = s.comp.headHeld ∧ (raiseFault f s).comp.builders = s.comp.builders ∧
    (raiseFault f s).comp.opening = s.comp.opening ∧ (raiseFault f s).comp.closesOwed = s.comp.closesOwed ∧
    (raiseFault f s).comp.codes = s.comp.codes ∧ (raiseFault f s).ret.today = s.ret.today ∧
    (raiseFault f s).ret.lastSwept = s.ret.lastSwept ∧ (raiseFault f s).ret.classes = s.ret.classes ∧
    (raiseFault f s).ret.holds = s.ret.holds ∧ (raiseFault f s).ret.sweeps = s.ret.sweeps ∧
    (raiseFault f s).ret.suspended = s.ret.suspended ∧ (raiseFault f s).ret.lastDay = s.ret.lastDay ∧
    (raiseFault f s).ret.lastExtend = s.ret.lastExtend ∧ (raiseFault f s).ret.erasing = s.ret.erasing ∧
    (raiseFault f s).cat.profile = s.cat.profile ∧ (raiseFault f s).cat.params = s.cat.params ∧
    (raiseFault f s).cat.channel = s.cat.channel ∧ (raiseFault f s).cat.last = s.cat.last ∧
    (raiseFault f s).cat.newer = s.cat.newer ∧ (raiseFault f s).cat.owed = s.cat.owed ∧
    (raiseFault f s).cat.owedWaiters = s.cat.owedWaiters ∧ (raiseFault f s).cat.buffer = s.cat.buffer ∧
    (raiseFault f s).cat.sharesOk = s.cat.sharesOk ∧ (raiseFault f s).cat.load = s.cat.load ∧
    (raiseFault f s).cat.pendingFormat = s.cat.pendingFormat ∧
    (raiseFault f s).cat.formatCounter = s.cat.formatCounter ∧ (raiseFault f s).cat.format = s.cat.format ∧
    (∀ p, ((raiseFault f s).link p).up = (s.link p).up) ∧ (∀ p, ((raiseFault f s).link p).epoch = (s.link p).epoch) ∧
    (∀ p, ((raiseFault f s).link p).outstanding = (s.link p).outstanding) ∧
    (∀ p, ((raiseFault f s).link p).sending = (s.link p).sending) ∧
    (∀ p, ((raiseFault f s).link p).replyTurn = (s.link p).replyTurn) ∧
    (∀ p, ((raiseFault f s).link p).frames = (s.link p).frames) ∧
    (∀ p, ((raiseFault f s).link p).line noticeLinkError = (s.link p).line noticeLinkError) ∧
    (∀ p, ((raiseFault f s).link p).line noticeFileAborted = (s.link p).line noticeFileAborted) ∧
    (∀ p, ((raiseFault f s).link p).line noticeCursorClosed = (s.link p).line noticeCursorClosed) ∧
    (∀ p, ((raiseFault f s).link p).line noticeCheckpointDone = (s.link p).line noticeCheckpointDone) ∧
    (∀ p, ((raiseFault f s).link p).line noticeHoldChanged = (s.link p).line noticeHoldChanged) ∧
    (∀ p, ((raiseFault f s).link p).line noticeFindings = (s.link p).line noticeFindings) := by
  simp only [raiseFault]
  repeat' split
  all_goals simp

@[simp] theorem engineOf_kinds :
    engineOf .segmentWriteFailed = .compaction ∧ engineOf .eraseTimeout = .eraser ∧
    engineOf .catalogWriteFailed = .catalog ∧ engineOf .filePageError = .compaction ∧
    engineOf .builderPageError = .compaction ∧ engineOf .spaceExhausted = .compaction := by
  simp [engineOf]

@[simp] theorem isMediaKind_kinds :
    isMediaKind .segmentWriteFailed = true ∧ isMediaKind .eraseTimeout = true ∧
    isMediaKind .catalogWriteFailed = true ∧ isMediaKind .filePageError = false ∧
    isMediaKind .builderPageError = false ∧ isMediaKind .spaceExhausted = false := by
  simp [isMediaKind]

/-- Only an Eraser fault touches the Retention Unit. -/
@[simp] theorem raiseFault_ret (f : FaultInfo) (s : State) (h : engineOf f.kind ≠ .eraser) :
    (raiseFault f s).ret = s.ret := by
  simp only [raiseFault]
  cases hk : engineOf f.kind
  all_goals (repeat' split)
  all_goals simp_all [stopEngine]

/-- Only a compaction fault touches the Compaction Unit. -/
@[simp] theorem raiseFault_comp (f : FaultInfo) (s : State) (h : engineOf f.kind ≠ .compaction) :
    (raiseFault f s).comp = s.comp := by
  simp only [raiseFault]
  cases hk : engineOf f.kind
  all_goals (repeat' split)
  all_goals simp_all [stopEngine]

/-- Outside QUIESCING, only a catalog fault moves the catalog's state; no fault then touches its waiters. -/
@[simp] theorem raiseFault_catState (f : FaultInfo) (s : State) (h : engineOf f.kind ≠ .catalog)
    (hq : s.cat.state ≠ .quiescing) : (raiseFault f s).cat.state = s.cat.state := by
  simp only [raiseFault]
  cases hk : engineOf f.kind
  all_goals (repeat' split)
  all_goals simp_all [stopEngine, stopCompaction]

@[simp] theorem raiseFault_waiters (f : FaultInfo) (s : State) (hq : s.cat.state ≠ .quiescing) :
    (raiseFault f s).cat.waiters = s.cat.waiters := by
  simp only [raiseFault]
  cases hk : engineOf f.kind
  all_goals (repeat' split)
  all_goals simp_all [stopEngine, stopCompaction]

/-- A fault leaves HALTED alone and never brings another archive state than HALTED. -/
theorem raiseFault_archive (f : FaultInfo) (s : State) :
    (raiseFault f s).cat.archive = s.cat.archive ∨ (raiseFault f s).cat.archive = .halted := by
  simp only [raiseFault]
  repeat' split
  · exact Or.inl rfl
  · right
    have h : ∀ (l : List Nat) (t : State), (l.foldl (fun t k => haltClose k t) t).cat.archive = t.cat.archive := by
      intro l
      induction l with
      | nil => simp
      | cons a l ih => intro t; simp [ih]
    simp [enterHalted, h]
  · left
    cases engineOf f.kind <;> simp [stopEngine]

@[simp] theorem startNext_keeps (c : Nat) (s : State) :
    (startNext c s).pending = s.pending ∧ (startNext c s).powered = s.powered ∧ (startNext c s).second = s.second ∧
    (startNext c s).cursors = s.cursors ∧ (startNext c s).intake = s.intake ∧ (startNext c s).comp = s.comp ∧
    (startNext c s).ret = s.ret ∧ (startNext c s).audit = s.audit ∧ (startNext c s).cat = s.cat ∧
    (startNext c s).fault = s.fault ∧ (∀ p, (startNext c s).link p = s.link p) ∧
    (startNext c s).media.dir = s.media.dir ∧ (startNext c s).media.pointer = s.media.pointer ∧
    (startNext c s).media.slotWait = s.media.slotWait ∧ (startNext c s).media.flash = s.media.flash := by
  simp only [startNext]
  repeat' split
  all_goals simp

@[simp] theorem askOp_keeps (c : Nat) (op : Op) (s : State) :
    (askOp c op s).pending = s.pending ∧ (askOp c op s).powered = s.powered ∧ (askOp c op s).second = s.second ∧
    (askOp c op s).cursors = s.cursors ∧ (askOp c op s).intake = s.intake ∧ (askOp c op s).comp = s.comp ∧
    (askOp c op s).ret = s.ret ∧ (askOp c op s).audit = s.audit ∧ (askOp c op s).cat = s.cat ∧
    (askOp c op s).fault = s.fault ∧ (∀ p, (askOp c op s).link p = s.link p) ∧
    (askOp c op s).media.dir = s.media.dir ∧ (askOp c op s).media.pointer = s.media.pointer ∧
    (askOp c op s).media.slotWait = s.media.slotWait ∧ (askOp c op s).media.flash = s.media.flash := by
  simp [askOp]

@[simp] theorem endOp_keeps (c : Nat) (s : State) :
    (endOp c s).pending = s.pending ∧ (endOp c s).powered = s.powered ∧ (endOp c s).second = s.second ∧
    (endOp c s).cursors = s.cursors ∧ (endOp c s).intake = s.intake ∧ (endOp c s).comp = s.comp ∧
    (endOp c s).ret = s.ret ∧ (endOp c s).audit = s.audit ∧ (endOp c s).cat = s.cat ∧ (endOp c s).fault = s.fault ∧
    (∀ p, (endOp c s).link p = s.link p) ∧ (endOp c s).media.dir = s.media.dir ∧
    (endOp c s).media.pointer = s.media.pointer ∧ (endOp c s).media.slotWait = s.media.slotWait ∧
    (endOp c s).media.flash = s.media.flash := by
  simp [endOp]

@[simp] theorem leaveInSlot_keeps (c : Nat) (op : Op) (ok : Bool) (s : State) :
    (leaveInSlot c op ok s).pending = s.pending ∧ (leaveInSlot c op ok s).powered = s.powered ∧
    (leaveInSlot c op ok s).second = s.second ∧ (leaveInSlot c op ok s).cursors = s.cursors ∧
    (leaveInSlot c op ok s).intake = s.intake ∧ (leaveInSlot c op ok s).comp = s.comp ∧
    (leaveInSlot c op ok s).ret = s.ret ∧ (leaveInSlot c op ok s).audit = s.audit ∧
    (leaveInSlot c op ok s).cat = s.cat ∧ (leaveInSlot c op ok s).fault = s.fault ∧
    (∀ p, (leaveInSlot c op ok s).link p = s.link p) ∧ (leaveInSlot c op ok s).media.dir = s.media.dir ∧
    (leaveInSlot c op ok s).media.channels = s.media.channels ∧
    (leaveInSlot c op ok s).media.pointer = s.media.pointer ∧
    (leaveInSlot c op ok s).media.slotWait = s.media.slotWait := by
  simp only [leaveInSlot]
  repeat' split
  all_goals simp

@[simp] theorem mapChannels_keeps (f : Channel → Channel) (s : State) :
    (mapChannels f s).pending = s.pending ∧ (mapChannels f s).powered = s.powered ∧
    (mapChannels f s).second = s.second ∧ (mapChannels f s).cursors = s.cursors ∧
    (mapChannels f s).intake = s.intake ∧ (mapChannels f s).comp = s.comp ∧ (mapChannels f s).ret = s.ret ∧
    (mapChannels f s).audit = s.audit ∧ (mapChannels f s).cat = s.cat ∧ (mapChannels f s).fault = s.fault ∧
    (∀ p, (mapChannels f s).link p = s.link p) ∧ (mapChannels f s).media.dir = s.media.dir ∧
    (mapChannels f s).media.pointer = s.media.pointer ∧ (mapChannels f s).media.slotWait = s.media.slotWait ∧
    (mapChannels f s).media.flash = s.media.flash := by
  unfold mapChannels
  generalize List.range Config.channels = l
  induction l generalizing s with
  | nil => simp
  | cons a l ih => simp [ih]

@[simp] theorem writeImage_keeps (img : Image) (a : Nat) (s : State) :
    (writeImage img a s).pending = s.pending ∧ (writeImage img a s).powered = s.powered ∧
    (writeImage img a s).second = s.second ∧ (writeImage img a s).cursors = s.cursors ∧
    (writeImage img a s).intake = s.intake ∧ (writeImage img a s).comp = s.comp ∧ (writeImage img a s).ret = s.ret ∧
    (writeImage img a s).audit = s.audit ∧ (writeImage img a s).cat = s.cat ∧ (writeImage img a s).fault = s.fault ∧
    (∀ p, (writeImage img a s).link p = s.link p) ∧ (writeImage img a s).media.dir = s.media.dir ∧
    (writeImage img a s).media.pointer = s.media.pointer ∧ (writeImage img a s).media.slotWait = s.media.slotWait ∧
    (writeImage img a s).media.flash = s.media.flash := by
  unfold writeImage
  generalize List.range 8 = l
  induction l generalizing s with
  | nil => simp
  | cons a l ih => simp [ih]

@[simp] theorem beginWriting_keeps (s : State) :
    (beginWriting s).pending = s.pending ∧ (beginWriting s).powered = s.powered ∧
    (beginWriting s).second = s.second ∧ (beginWriting s).cursors = s.cursors ∧ (beginWriting s).intake = s.intake ∧
    (beginWriting s).comp = s.comp ∧ (beginWriting s).ret = s.ret ∧ (beginWriting s).audit = s.audit ∧
    (beginWriting s).fault = s.fault ∧ (∀ p, (beginWriting s).link p = s.link p) ∧
    (beginWriting s).media.dir = s.media.dir ∧ (beginWriting s).media.pointer = s.media.pointer ∧
    (beginWriting s).media.slotWait = s.media.slotWait ∧ (beginWriting s).media.flash = s.media.flash ∧
    (beginWriting s).cat.archive = s.cat.archive ∧ (beginWriting s).cat.profile = s.cat.profile ∧
    (beginWriting s).cat.params = s.cat.params ∧ (beginWriting s).cat.channel = s.cat.channel ∧
    (beginWriting s).cat.last = s.cat.last ∧ (beginWriting s).cat.newer = s.cat.newer ∧
    (beginWriting s).cat.waiters = s.cat.waiters ∧ (beginWriting s).cat.owed = s.cat.owed ∧
    (beginWriting s).cat.owedWaiters = s.cat.owedWaiters ∧ (beginWriting s).cat.load = s.cat.load ∧
    (beginWriting s).cat.pendingFormat = s.cat.pendingFormat ∧
    (beginWriting s).cat.formatCounter = s.cat.formatCounter ∧ (beginWriting s).cat.format = s.cat.format := by
  simp [beginWriting]

@[simp] theorem giveSlot_keeps (b : Nat) (r : SlotRef) (retry : Bool) (s : State) :
    (giveSlot b r retry s).pending = s.pending ∧ (giveSlot b r retry s).powered = s.powered ∧
    (giveSlot b r retry s).second = s.second ∧ (giveSlot b r retry s).cursors = s.cursors ∧
    (giveSlot b r retry s).intake = s.intake ∧ (giveSlot b r retry s).comp = s.comp ∧
    (giveSlot b r retry s).ret = s.ret ∧ (giveSlot b r retry s).audit = s.audit ∧
    (giveSlot b r retry s).cat = s.cat ∧ (giveSlot b r retry s).fault = s.fault ∧
    (∀ p, (giveSlot b r retry s).link p = s.link p) ∧ (giveSlot b r retry s).media.slotWait = s.media.slotWait ∧
    (giveSlot b r retry s).media.flash = s.media.flash := by
  simp [giveSlot]

@[simp] theorem waitForSlot_keeps (b : Nat) (s : State) :
    (waitForSlot b s).pending = s.pending ∧ (waitForSlot b s).powered = s.powered ∧
    (waitForSlot b s).second = s.second ∧ (waitForSlot b s).cursors = s.cursors ∧ (waitForSlot b s).audit = s.audit ∧
    (waitForSlot b s).intake.sources = s.intake.sources ∧ (waitForSlot b s).intake.ageings = s.intake.ageings ∧
    (waitForSlot b s).comp.queue = s.comp.queue ∧ (waitForSlot b s).comp.headHeld = s.comp.headHeld ∧
    (waitForSlot b s).comp.builders = s.comp.builders ∧ (waitForSlot b s).comp.opening = s.comp.opening ∧
    (waitForSlot b s).comp.closesOwed = s.comp.closesOwed ∧ (waitForSlot b s).comp.codes = s.comp.codes ∧
    (waitForSlot b s).media.dir = s.media.dir ∧ (waitForSlot b s).media.channels = s.media.channels ∧
    (waitForSlot b s).media.pointer = s.media.pointer ∧ (waitForSlot b s).media.flash = s.media.flash ∧
    (waitForSlot b s).ret.today = s.ret.today ∧ (waitForSlot b s).ret.lastSwept = s.ret.lastSwept ∧
    (waitForSlot b s).ret.classes = s.ret.classes ∧ (waitForSlot b s).ret.holds = s.ret.holds ∧
    (waitForSlot b s).ret.sweeps = s.ret.sweeps ∧ (waitForSlot b s).ret.suspended = s.ret.suspended ∧
    (waitForSlot b s).ret.lastDay = s.ret.lastDay ∧ (waitForSlot b s).ret.lastExtend = s.ret.lastExtend ∧
    (waitForSlot b s).ret.erasing = s.ret.erasing ∧ (waitForSlot b s).cat.profile = s.cat.profile ∧
    (waitForSlot b s).cat.params = s.cat.params ∧ (waitForSlot b s).cat.channel = s.cat.channel ∧
    (waitForSlot b s).cat.last = s.cat.last ∧ (waitForSlot b s).cat.newer = s.cat.newer ∧
    (waitForSlot b s).cat.owed = s.cat.owed ∧ (waitForSlot b s).cat.owedWaiters = s.cat.owedWaiters ∧
    (waitForSlot b s).cat.buffer = s.cat.buffer ∧ (waitForSlot b s).cat.sharesOk = s.cat.sharesOk ∧
    (waitForSlot b s).cat.load = s.cat.load ∧ (waitForSlot b s).cat.pendingFormat = s.cat.pendingFormat ∧
    (waitForSlot b s).cat.formatCounter = s.cat.formatCounter ∧ (waitForSlot b s).cat.format = s.cat.format ∧
    (∀ p, ((waitForSlot b s).link p).up = (s.link p).up) ∧
    (∀ p, ((waitForSlot b s).link p).epoch = (s.link p).epoch) ∧
    (∀ p, ((waitForSlot b s).link p).outstanding = (s.link p).outstanding) ∧
    (∀ p, ((waitForSlot b s).link p).sending = (s.link p).sending) ∧
    (∀ p, ((waitForSlot b s).link p).replyTurn = (s.link p).replyTurn) ∧
    (∀ p, ((waitForSlot b s).link p).frames = (s.link p).frames) ∧
    (∀ p, ((waitForSlot b s).link p).line noticeLinkError = (s.link p).line noticeLinkError) ∧
    (∀ p, ((waitForSlot b s).link p).line noticeFileAborted = (s.link p).line noticeFileAborted) ∧
    (∀ p, ((waitForSlot b s).link p).line noticeCursorClosed = (s.link p).line noticeCursorClosed) ∧
    (∀ p, ((waitForSlot b s).link p).line noticeCheckpointDone = (s.link p).line noticeCheckpointDone) ∧
    (∀ p, ((waitForSlot b s).link p).line noticeHoldChanged = (s.link p).line noticeHoldChanged) ∧
    (∀ p, ((waitForSlot b s).link p).line noticeFindings = (s.link p).line noticeFindings) := by
  simp only [waitForSlot]
  repeat' split
  all_goals simp

@[simp] theorem askSlot_keeps (b : Nat) (s : State) :
    (askSlot b s).pending = s.pending ∧ (askSlot b s).powered = s.powered ∧ (askSlot b s).second = s.second ∧
    (askSlot b s).cursors = s.cursors ∧ (askSlot b s).audit = s.audit ∧
    (askSlot b s).intake.sources = s.intake.sources ∧ (askSlot b s).intake.ageings = s.intake.ageings ∧
    (askSlot b s).comp.queue = s.comp.queue ∧ (askSlot b s).comp.headHeld = s.comp.headHeld ∧
    (askSlot b s).comp.builders = s.comp.builders ∧ (askSlot b s).comp.opening = s.comp.opening ∧
    (askSlot b s).comp.closesOwed = s.comp.closesOwed ∧ (askSlot b s).comp.codes = s.comp.codes ∧
    (askSlot b s).media.flash = s.media.flash ∧ (askSlot b s).ret.today = s.ret.today ∧
    (askSlot b s).ret.lastSwept = s.ret.lastSwept ∧ (askSlot b s).ret.classes = s.ret.classes ∧
    (askSlot b s).ret.holds = s.ret.holds ∧ (askSlot b s).ret.sweeps = s.ret.sweeps ∧
    (askSlot b s).ret.suspended = s.ret.suspended ∧ (askSlot b s).ret.lastDay = s.ret.lastDay ∧
    (askSlot b s).ret.lastExtend = s.ret.lastExtend ∧ (askSlot b s).ret.erasing = s.ret.erasing ∧
    (askSlot b s).cat.profile = s.cat.profile ∧ (askSlot b s).cat.params = s.cat.params ∧
    (askSlot b s).cat.channel = s.cat.channel ∧ (askSlot b s).cat.last = s.cat.last ∧
    (askSlot b s).cat.newer = s.cat.newer ∧ (askSlot b s).cat.owed = s.cat.owed ∧
    (askSlot b s).cat.owedWaiters = s.cat.owedWaiters ∧ (askSlot b s).cat.buffer = s.cat.buffer ∧
    (askSlot b s).cat.sharesOk = s.cat.sharesOk ∧ (askSlot b s).cat.load = s.cat.load ∧
    (askSlot b s).cat.pendingFormat = s.cat.pendingFormat ∧ (askSlot b s).cat.formatCounter = s.cat.formatCounter ∧
    (askSlot b s).cat.format = s.cat.format ∧ (∀ p, ((askSlot b s).link p).up = (s.link p).up) ∧
    (∀ p, ((askSlot b s).link p).epoch = (s.link p).epoch) ∧
    (∀ p, ((askSlot b s).link p).outstanding = (s.link p).outstanding) ∧
    (∀ p, ((askSlot b s).link p).sending = (s.link p).sending) ∧
    (∀ p, ((askSlot b s).link p).replyTurn = (s.link p).replyTurn) ∧
    (∀ p, ((askSlot b s).link p).frames = (s.link p).frames) ∧
    (∀ p, ((askSlot b s).link p).line noticeLinkError = (s.link p).line noticeLinkError) ∧
    (∀ p, ((askSlot b s).link p).line noticeFileAborted = (s.link p).line noticeFileAborted) ∧
    (∀ p, ((askSlot b s).link p).line noticeCursorClosed = (s.link p).line noticeCursorClosed) ∧
    (∀ p, ((askSlot b s).link p).line noticeCheckpointDone = (s.link p).line noticeCheckpointDone) ∧
    (∀ p, ((askSlot b s).link p).line noticeHoldChanged = (s.link p).line noticeHoldChanged) ∧
    (∀ p, ((askSlot b s).link p).line noticeFindings = (s.link p).line noticeFindings) := by
  simp only [askSlot]
  repeat' split
  all_goals simp

@[simp] theorem serveOne_keeps (s : State) :
    (serveOne s).pending = s.pending ∧ (serveOne s).powered = s.powered ∧ (serveOne s).second = s.second ∧
    (serveOne s).cursors = s.cursors ∧ (serveOne s).intake = s.intake ∧ (serveOne s).comp = s.comp ∧
    (serveOne s).ret = s.ret ∧ (serveOne s).audit = s.audit ∧ (serveOne s).cat = s.cat ∧
    (serveOne s).fault = s.fault ∧ (∀ p, (serveOne s).link p = s.link p) ∧
    (serveOne s).media.flash = s.media.flash := by
  simp only [serveOne]
  repeat' split
  all_goals simp

@[simp] theorem serveWait_keeps (s : State) :
    (serveWait s).pending = s.pending ∧ (serveWait s).powered = s.powered ∧ (serveWait s).second = s.second ∧
    (serveWait s).cursors = s.cursors ∧ (serveWait s).intake = s.intake ∧ (serveWait s).comp = s.comp ∧
    (serveWait s).ret = s.ret ∧ (serveWait s).audit = s.audit ∧ (serveWait s).cat = s.cat ∧
    (serveWait s).fault = s.fault ∧ (∀ p, (serveWait s).link p = s.link p) ∧
    (serveWait s).media.flash = s.media.flash := by
  unfold serveWait
  generalize s.media.slotWait = l
  induction l generalizing s with
  | nil => simp
  | cons a l ih => simp [ih]

@[simp] theorem testWait_keeps (s : State) :
    (testWait s).pending = s.pending ∧ (testWait s).powered = s.powered ∧ (testWait s).second = s.second ∧
    (testWait s).cursors = s.cursors ∧ (testWait s).audit = s.audit ∧
    (testWait s).intake.sources = s.intake.sources ∧ (testWait s).intake.ageings = s.intake.ageings ∧
    (testWait s).comp.queue = s.comp.queue ∧ (testWait s).comp.headHeld = s.comp.headHeld ∧
    (testWait s).comp.builders = s.comp.builders ∧ (testWait s).comp.opening = s.comp.opening ∧
    (testWait s).comp.closesOwed = s.comp.closesOwed ∧ (testWait s).comp.codes = s.comp.codes ∧
    (testWait s).media.dir = s.media.dir ∧ (testWait s).media.channels = s.media.channels ∧
    (testWait s).media.pointer = s.media.pointer ∧ (testWait s).media.flash = s.media.flash ∧
    (testWait s).ret.today = s.ret.today ∧ (testWait s).ret.lastSwept = s.ret.lastSwept ∧
    (testWait s).ret.classes = s.ret.classes ∧ (testWait s).ret.holds = s.ret.holds ∧
    (testWait s).ret.sweeps = s.ret.sweeps ∧ (testWait s).ret.suspended = s.ret.suspended ∧
    (testWait s).ret.lastDay = s.ret.lastDay ∧ (testWait s).ret.lastExtend = s.ret.lastExtend ∧
    (testWait s).ret.erasing = s.ret.erasing ∧ (testWait s).cat.profile = s.cat.profile ∧
    (testWait s).cat.params = s.cat.params ∧ (testWait s).cat.channel = s.cat.channel ∧
    (testWait s).cat.last = s.cat.last ∧ (testWait s).cat.newer = s.cat.newer ∧ (testWait s).cat.owed = s.cat.owed ∧
    (testWait s).cat.owedWaiters = s.cat.owedWaiters ∧ (testWait s).cat.buffer = s.cat.buffer ∧
    (testWait s).cat.sharesOk = s.cat.sharesOk ∧ (testWait s).cat.load = s.cat.load ∧
    (testWait s).cat.pendingFormat = s.cat.pendingFormat ∧ (testWait s).cat.formatCounter = s.cat.formatCounter ∧
    (testWait s).cat.format = s.cat.format ∧ (∀ p, ((testWait s).link p).up = (s.link p).up) ∧
    (∀ p, ((testWait s).link p).epoch = (s.link p).epoch) ∧
    (∀ p, ((testWait s).link p).outstanding = (s.link p).outstanding) ∧
    (∀ p, ((testWait s).link p).sending = (s.link p).sending) ∧
    (∀ p, ((testWait s).link p).replyTurn = (s.link p).replyTurn) ∧
    (∀ p, ((testWait s).link p).frames = (s.link p).frames) ∧
    (∀ p, ((testWait s).link p).line noticeLinkError = (s.link p).line noticeLinkError) ∧
    (∀ p, ((testWait s).link p).line noticeFileAborted = (s.link p).line noticeFileAborted) ∧
    (∀ p, ((testWait s).link p).line noticeCursorClosed = (s.link p).line noticeCursorClosed) ∧
    (∀ p, ((testWait s).link p).line noticeCheckpointDone = (s.link p).line noticeCheckpointDone) ∧
    (∀ p, ((testWait s).link p).line noticeHoldChanged = (s.link p).line noticeHoldChanged) ∧
    (∀ p, ((testWait s).link p).line noticeFindings = (s.link p).line noticeFindings) := by
  simp only [testWait]
  repeat' split
  all_goals simp

@[simp] theorem beginClose_keeps (b : Nat) (s : State) :
    (beginClose b s).pending = s.pending ∧ (beginClose b s).powered = s.powered ∧
    (beginClose b s).second = s.second ∧ (beginClose b s).cursors = s.cursors ∧ (beginClose b s).audit = s.audit ∧
    (beginClose b s).intake.sources = s.intake.sources ∧ (beginClose b s).intake.ageings = s.intake.ageings ∧
    (beginClose b s).comp.queue = s.comp.queue ∧ (beginClose b s).comp.headHeld = s.comp.headHeld ∧
    (beginClose b s).comp.opening = s.comp.opening ∧ (beginClose b s).comp.closesOwed = s.comp.closesOwed ∧
    (beginClose b s).comp.codes = s.comp.codes ∧ (beginClose b s).media.flash = s.media.flash ∧
    (beginClose b s).ret.today = s.ret.today ∧ (beginClose b s).ret.lastSwept = s.ret.lastSwept ∧
    (beginClose b s).ret.classes = s.ret.classes ∧ (beginClose b s).ret.holds = s.ret.holds ∧
    (beginClose b s).ret.sweeps = s.ret.sweeps ∧ (beginClose b s).ret.suspended = s.ret.suspended ∧
    (beginClose b s).ret.lastDay = s.ret.lastDay ∧ (beginClose b s).ret.lastExtend = s.ret.lastExtend ∧
    (beginClose b s).ret.erasing = s.ret.erasing ∧ (beginClose b s).cat.profile = s.cat.profile ∧
    (beginClose b s).cat.params = s.cat.params ∧ (beginClose b s).cat.channel = s.cat.channel ∧
    (beginClose b s).cat.last = s.cat.last ∧ (beginClose b s).cat.newer = s.cat.newer ∧
    (beginClose b s).cat.owed = s.cat.owed ∧ (beginClose b s).cat.owedWaiters = s.cat.owedWaiters ∧
    (beginClose b s).cat.buffer = s.cat.buffer ∧ (beginClose b s).cat.sharesOk = s.cat.sharesOk ∧
    (beginClose b s).cat.load = s.cat.load ∧ (beginClose b s).cat.pendingFormat = s.cat.pendingFormat ∧
    (beginClose b s).cat.formatCounter = s.cat.formatCounter ∧ (beginClose b s).cat.format = s.cat.format ∧
    (∀ p, ((beginClose b s).link p).up = (s.link p).up) ∧ (∀ p, ((beginClose b s).link p).epoch = (s.link p).epoch) ∧
    (∀ p, ((beginClose b s).link p).outstanding = (s.link p).outstanding) ∧
    (∀ p, ((beginClose b s).link p).sending = (s.link p).sending) ∧
    (∀ p, ((beginClose b s).link p).replyTurn = (s.link p).replyTurn) ∧
    (∀ p, ((beginClose b s).link p).frames = (s.link p).frames) ∧
    (∀ p, ((beginClose b s).link p).line noticeLinkError = (s.link p).line noticeLinkError) ∧
    (∀ p, ((beginClose b s).link p).line noticeFileAborted = (s.link p).line noticeFileAborted) ∧
    (∀ p, ((beginClose b s).link p).line noticeCursorClosed = (s.link p).line noticeCursorClosed) ∧
    (∀ p, ((beginClose b s).link p).line noticeCheckpointDone = (s.link p).line noticeCheckpointDone) ∧
    (∀ p, ((beginClose b s).link p).line noticeHoldChanged = (s.link p).line noticeHoldChanged) ∧
    (∀ p, ((beginClose b s).link p).line noticeFindings = (s.link p).line noticeFindings) := by
  simp [beginClose]

end Sys2Proof.Machine
end

