-- ==== Sys2Proof/Laws/KeepsCompaction.lean ====
section
/-!
SUPPORT. Laws/KeepsCompaction.lean: everything that compaction, the checkpoint, the Eraser and the sweeps leave as it was.
-/

namespace Sys2Proof.Machine
open Sys2Proof

@[simp] theorem closeBuilders_keeps (f : Builder → Bool) (s : State) :
    (closeBuilders f s).pending = s.pending ∧ (closeBuilders f s).powered = s.powered ∧
    (closeBuilders f s).second = s.second ∧ (closeBuilders f s).cursors = s.cursors ∧
    (closeBuilders f s).audit = s.audit ∧ (closeBuilders f s).intake.sources = s.intake.sources ∧
    (closeBuilders f s).intake.ageings = s.intake.ageings ∧ (closeBuilders f s).comp.queue = s.comp.queue ∧
    (closeBuilders f s).comp.headHeld = s.comp.headHeld ∧ (closeBuilders f s).comp.opening = s.comp.opening ∧
    (closeBuilders f s).comp.closesOwed = s.comp.closesOwed ∧ (closeBuilders f s).comp.codes = s.comp.codes ∧
    (closeBuilders f s).media.flash = s.media.flash ∧ (closeBuilders f s).ret.today = s.ret.today ∧
    (closeBuilders f s).ret.lastSwept = s.ret.lastSwept ∧ (closeBuilders f s).ret.classes = s.ret.classes ∧
    (closeBuilders f s).ret.holds = s.ret.holds ∧ (closeBuilders f s).ret.sweeps = s.ret.sweeps ∧
    (closeBuilders f s).ret.suspended = s.ret.suspended ∧ (closeBuilders f s).ret.lastDay = s.ret.lastDay ∧
    (closeBuilders f s).ret.lastExtend = s.ret.lastExtend ∧ (closeBuilders f s).ret.erasing = s.ret.erasing ∧
    (closeBuilders f s).cat.profile = s.cat.profile ∧ (closeBuilders f s).cat.params = s.cat.params ∧
    (closeBuilders f s).cat.channel = s.cat.channel ∧ (closeBuilders f s).cat.last = s.cat.last ∧
    (closeBuilders f s).cat.newer = s.cat.newer ∧ (closeBuilders f s).cat.owed = s.cat.owed ∧
    (closeBuilders f s).cat.owedWaiters = s.cat.owedWaiters ∧ (closeBuilders f s).cat.buffer = s.cat.buffer ∧
    (closeBuilders f s).cat.sharesOk = s.cat.sharesOk ∧ (closeBuilders f s).cat.load = s.cat.load ∧
    (closeBuilders f s).cat.pendingFormat = s.cat.pendingFormat ∧
    (closeBuilders f s).cat.formatCounter = s.cat.formatCounter ∧ (closeBuilders f s).cat.format = s.cat.format ∧
    (∀ p, ((closeBuilders f s).link p).up = (s.link p).up) ∧
    (∀ p, ((closeBuilders f s).link p).epoch = (s.link p).epoch) ∧
    (∀ p, ((closeBuilders f s).link p).outstanding = (s.link p).outstanding) ∧
    (∀ p, ((closeBuilders f s).link p).sending = (s.link p).sending) ∧
    (∀ p, ((closeBuilders f s).link p).replyTurn = (s.link p).replyTurn) ∧
    (∀ p, ((closeBuilders f s).link p).frames = (s.link p).frames) ∧
    (∀ p, ((closeBuilders f s).link p).line noticeLinkError = (s.link p).line noticeLinkError) ∧
    (∀ p, ((closeBuilders f s).link p).line noticeFileAborted = (s.link p).line noticeFileAborted) ∧
    (∀ p, ((closeBuilders f s).link p).line noticeCursorClosed = (s.link p).line noticeCursorClosed) ∧
    (∀ p, ((closeBuilders f s).link p).line noticeCheckpointDone = (s.link p).line noticeCheckpointDone) ∧
    (∀ p, ((closeBuilders f s).link p).line noticeHoldChanged = (s.link p).line noticeHoldChanged) ∧
    (∀ p, ((closeBuilders f s).link p).line noticeFindings = (s.link p).line noticeFindings) := by
  unfold closeBuilders
  generalize List.range Config.builders = l
  induction l generalizing s with
  | nil => simp
  | cons a l ih =>
    simp only [List.foldl_cons, ih]
    split <;> simp

@[simp] theorem toFilling_keeps (e : Nat) (s : State) :
    (toFilling e s).pending = s.pending ∧ (toFilling e s).powered = s.powered ∧ (toFilling e s).second = s.second ∧
    (toFilling e s).cursors = s.cursors ∧ (toFilling e s).intake = s.intake ∧ (toFilling e s).comp = s.comp ∧
    (toFilling e s).ret = s.ret ∧ (toFilling e s).audit = s.audit ∧ (toFilling e s).cat = s.cat ∧
    (toFilling e s).fault = s.fault ∧ (∀ p, (toFilling e s).link p = s.link p) ∧
    (toFilling e s).media.channels = s.media.channels ∧ (toFilling e s).media.pointer = s.media.pointer ∧
    (toFilling e s).media.slotWait = s.media.slotWait ∧ (toFilling e s).media.flash = s.media.flash := by
  simp [toFilling]

@[simp] theorem setOpening_keeps (w : Option OpenWait) (s : State) :
    (setOpening w s).pending = s.pending ∧ (setOpening w s).powered = s.powered ∧
    (setOpening w s).second = s.second ∧ (setOpening w s).cursors = s.cursors ∧ (setOpening w s).intake = s.intake ∧
    (setOpening w s).media = s.media ∧ (setOpening w s).ret = s.ret ∧ (setOpening w s).audit = s.audit ∧
    (setOpening w s).cat = s.cat ∧ (setOpening w s).fault = s.fault ∧ (∀ p, (setOpening w s).link p = s.link p) ∧
    (setOpening w s).comp.queue = s.comp.queue ∧ (setOpening w s).comp.headHeld = s.comp.headHeld ∧
    (setOpening w s).comp.builders = s.comp.builders ∧ (setOpening w s).comp.stopped = s.comp.stopped ∧
    (setOpening w s).comp.closesOwed = s.comp.closesOwed ∧ (setOpening w s).comp.codes = s.comp.codes := by
  simp [setOpening]

@[simp] theorem openBuilder_keeps (b e x y : Nat) (s : State) :
    (openBuilder b e x y s).pending = s.pending ∧ (openBuilder b e x y s).powered = s.powered ∧
    (openBuilder b e x y s).second = s.second ∧ (openBuilder b e x y s).cursors = s.cursors ∧
    (openBuilder b e x y s).intake = s.intake ∧ (openBuilder b e x y s).ret = s.ret ∧
    (openBuilder b e x y s).audit = s.audit ∧ (openBuilder b e x y s).cat = s.cat ∧
    (openBuilder b e x y s).fault = s.fault ∧ (∀ p, (openBuilder b e x y s).link p = s.link p) ∧
    (openBuilder b e x y s).comp.queue = s.comp.queue ∧ (openBuilder b e x y s).comp.headHeld = s.comp.headHeld ∧
    (openBuilder b e x y s).comp.stopped = s.comp.stopped ∧
    (openBuilder b e x y s).comp.closesOwed = s.comp.closesOwed ∧ (openBuilder b e x y s).comp.codes = s.comp.codes ∧
    (openBuilder b e x y s).media.channels = s.media.channels ∧
    (openBuilder b e x y s).media.pointer = s.media.pointer ∧
    (openBuilder b e x y s).media.slotWait = s.media.slotWait ∧
    (openBuilder b e x y s).media.flash = s.media.flash := by
  simp [openBuilder]

@[simp] theorem openOn_keeps (b x y : Nat) (s : State) :
    (openOn b x y s).pending = s.pending ∧ (openOn b x y s).powered = s.powered ∧
    (openOn b x y s).second = s.second ∧ (openOn b x y s).cursors = s.cursors ∧ (openOn b x y s).audit = s.audit ∧
    (openOn b x y s).intake.sources = s.intake.sources ∧ (openOn b x y s).intake.ageings = s.intake.ageings ∧
    (openOn b x y s).comp.queue = s.comp.queue ∧ (openOn b x y s).comp.headHeld = s.comp.headHeld ∧
    (openOn b x y s).comp.closesOwed = s.comp.closesOwed ∧ (openOn b x y s).comp.codes = s.comp.codes ∧
    (openOn b x y s).media.channels = s.media.channels ∧ (openOn b x y s).media.pointer = s.media.pointer ∧
    (openOn b x y s).media.slotWait = s.media.slotWait ∧ (openOn b x y s).media.flash = s.media.flash ∧
    (openOn b x y s).ret.today = s.ret.today ∧ (openOn b x y s).ret.lastSwept = s.ret.lastSwept ∧
    (openOn b x y s).ret.classes = s.ret.classes ∧ (openOn b x y s).ret.holds = s.ret.holds ∧
    (openOn b x y s).ret.sweeps = s.ret.sweeps ∧ (openOn b x y s).ret.suspended = s.ret.suspended ∧
    (openOn b x y s).ret.lastDay = s.ret.lastDay ∧ (openOn b x y s).ret.lastExtend = s.ret.lastExtend ∧
    (openOn b x y s).ret.erasing = s.ret.erasing ∧ (openOn b x y s).cat.profile = s.cat.profile ∧
    (openOn b x y s).cat.params = s.cat.params ∧ (openOn b x y s).cat.channel = s.cat.channel ∧
    (openOn b x y s).cat.last = s.cat.last ∧ (openOn b x y s).cat.newer = s.cat.newer ∧
    (openOn b x y s).cat.owed = s.cat.owed ∧ (openOn b x y s).cat.owedWaiters = s.cat.owedWaiters ∧
    (openOn b x y s).cat.buffer = s.cat.buffer ∧ (openOn b x y s).cat.sharesOk = s.cat.sharesOk ∧
    (openOn b x y s).cat.load = s.cat.load ∧ (openOn b x y s).cat.pendingFormat = s.cat.pendingFormat ∧
    (openOn b x y s).cat.formatCounter = s.cat.formatCounter ∧ (openOn b x y s).cat.format = s.cat.format ∧
    (∀ p, ((openOn b x y s).link p).up = (s.link p).up) ∧ (∀ p, ((openOn b x y s).link p).epoch = (s.link p).epoch) ∧
    (∀ p, ((openOn b x y s).link p).outstanding = (s.link p).outstanding) ∧
    (∀ p, ((openOn b x y s).link p).sending = (s.link p).sending) ∧
    (∀ p, ((openOn b x y s).link p).replyTurn = (s.link p).replyTurn) ∧
    (∀ p, ((openOn b x y s).link p).frames = (s.link p).frames) ∧
    (∀ p, ((openOn b x y s).link p).line noticeLinkError = (s.link p).line noticeLinkError) ∧
    (∀ p, ((openOn b x y s).link p).line noticeFileAborted = (s.link p).line noticeFileAborted) ∧
    (∀ p, ((openOn b x y s).link p).line noticeCursorClosed = (s.link p).line noticeCursorClosed) ∧
    (∀ p, ((openOn b x y s).link p).line noticeCheckpointDone = (s.link p).line noticeCheckpointDone) ∧
    (∀ p, ((openOn b x y s).link p).line noticeHoldChanged = (s.link p).line noticeHoldChanged) ∧
    (∀ p, ((openOn b x y s).link p).line noticeFindings = (s.link p).line noticeFindings) := by
  simp only [openOn]
  repeat' split
  all_goals simp

@[simp] theorem tryOpen_keeps (x y : Nat) (s : State) :
    (tryOpen x y s).pending = s.pending ∧ (tryOpen x y s).powered = s.powered ∧ (tryOpen x y s).second = s.second ∧
    (tryOpen x y s).cursors = s.cursors ∧ (tryOpen x y s).audit = s.audit ∧
    (tryOpen x y s).intake.sources = s.intake.sources ∧ (tryOpen x y s).intake.ageings = s.intake.ageings ∧
    (tryOpen x y s).comp.queue = s.comp.queue ∧ (tryOpen x y s).comp.headHeld = s.comp.headHeld ∧
    (tryOpen x y s).comp.closesOwed = s.comp.closesOwed ∧ (tryOpen x y s).comp.codes = s.comp.codes ∧
    (tryOpen x y s).media.flash = s.media.flash ∧ (tryOpen x y s).ret.today = s.ret.today ∧
    (tryOpen x y s).ret.lastSwept = s.ret.lastSwept ∧ (tryOpen x y s).ret.classes = s.ret.classes ∧
    (tryOpen x y s).ret.holds = s.ret.holds ∧ (tryOpen x y s).ret.sweeps = s.ret.sweeps ∧
    (tryOpen x y s).ret.suspended = s.ret.suspended ∧ (tryOpen x y s).ret.lastDay = s.ret.lastDay ∧
    (tryOpen x y s).ret.lastExtend = s.ret.lastExtend ∧ (tryOpen x y s).ret.erasing = s.ret.erasing ∧
    (tryOpen x y s).cat.profile = s.cat.profile ∧ (tryOpen x y s).cat.params = s.cat.params ∧
    (tryOpen x y s).cat.channel = s.cat.channel ∧ (tryOpen x y s).cat.last = s.cat.last ∧
    (tryOpen x y s).cat.newer = s.cat.newer ∧ (tryOpen x y s).cat.owed = s.cat.owed ∧
    (tryOpen x y s).cat.owedWaiters = s.cat.owedWaiters ∧ (tryOpen x y s).cat.buffer = s.cat.buffer ∧
    (tryOpen x y s).cat.sharesOk = s.cat.sharesOk ∧ (tryOpen x y s).cat.load = s.cat.load ∧
    (tryOpen x y s).cat.pendingFormat = s.cat.pendingFormat ∧
    (tryOpen x y s).cat.formatCounter = s.cat.formatCounter ∧ (tryOpen x y s).cat.format = s.cat.format ∧
    (∀ p, ((tryOpen x y s).link p).up = (s.link p).up) ∧ (∀ p, ((tryOpen x y s).link p).epoch = (s.link p).epoch) ∧
    (∀ p, ((tryOpen x y s).link p).outstanding = (s.link p).outstanding) ∧
    (∀ p, ((tryOpen x y s).link p).sending = (s.link p).sending) ∧
    (∀ p, ((tryOpen x y s).link p).replyTurn = (s.link p).replyTurn) ∧
    (∀ p, ((tryOpen x y s).link p).frames = (s.link p).frames) ∧
    (∀ p, ((tryOpen x y s).link p).line noticeLinkError = (s.link p).line noticeLinkError) ∧
    (∀ p, ((tryOpen x y s).link p).line noticeFileAborted = (s.link p).line noticeFileAborted) ∧
    (∀ p, ((tryOpen x y s).link p).line noticeCursorClosed = (s.link p).line noticeCursorClosed) ∧
    (∀ p, ((tryOpen x y s).link p).line noticeCheckpointDone = (s.link p).line noticeCheckpointDone) ∧
    (∀ p, ((tryOpen x y s).link p).line noticeHoldChanged = (s.link p).line noticeHoldChanged) ∧
    (∀ p, ((tryOpen x y s).link p).line noticeFindings = (s.link p).line noticeFindings) := by
  simp only [tryOpen]
  repeat' split
  all_goals simp

@[simp] theorem resolveOpening_keeps (s : State) :
    (resolveOpening s).pending = s.pending ∧ (resolveOpening s).powered = s.powered ∧
    (resolveOpening s).second = s.second ∧ (resolveOpening s).cursors = s.cursors ∧
    (resolveOpening s).audit = s.audit ∧ (resolveOpening s).intake.sources = s.intake.sources ∧
    (resolveOpening s).intake.ageings = s.intake.ageings ∧ (resolveOpening s).comp.queue = s.comp.queue ∧
    (resolveOpening s).comp.headHeld = s.comp.headHeld ∧ (resolveOpening s).comp.closesOwed = s.comp.closesOwed ∧
    (resolveOpening s).comp.codes = s.comp.codes ∧ (resolveOpening s).media.channels = s.media.channels ∧
    (resolveOpening s).media.pointer = s.media.pointer ∧ (resolveOpening s).media.slotWait = s.media.slotWait ∧
    (resolveOpening s).media.flash = s.media.flash ∧ (resolveOpening s).ret.today = s.ret.today ∧
    (resolveOpening s).ret.lastSwept = s.ret.lastSwept ∧ (resolveOpening s).ret.classes = s.ret.classes ∧
    (resolveOpening s).ret.holds = s.ret.holds ∧ (resolveOpening s).ret.sweeps = s.ret.sweeps ∧
    (resolveOpening s).ret.suspended = s.ret.suspended ∧ (resolveOpening s).ret.lastDay = s.ret.lastDay ∧
    (resolveOpening s).ret.lastExtend = s.ret.lastExtend ∧ (resolveOpening s).ret.erasing = s.ret.erasing ∧
    (resolveOpening s).cat.profile = s.cat.profile ∧ (resolveOpening s).cat.params = s.cat.params ∧
    (resolveOpening s).cat.channel = s.cat.channel ∧ (resolveOpening s).cat.last = s.cat.last ∧
    (resolveOpening s).cat.newer = s.cat.newer ∧ (resolveOpening s).cat.owed = s.cat.owed ∧
    (resolveOpening s).cat.owedWaiters = s.cat.owedWaiters ∧ (resolveOpening s).cat.buffer = s.cat.buffer ∧
    (resolveOpening s).cat.sharesOk = s.cat.sharesOk ∧ (resolveOpening s).cat.load = s.cat.load ∧
    (resolveOpening s).cat.pendingFormat = s.cat.pendingFormat ∧
    (resolveOpening s).cat.formatCounter = s.cat.formatCounter ∧ (resolveOpening s).cat.format = s.cat.format ∧
    (∀ p, ((resolveOpening s).link p).up = (s.link p).up) ∧
    (∀ p, ((resolveOpening s).link p).epoch = (s.link p).epoch) ∧
    (∀ p, ((resolveOpening s).link p).outstanding = (s.link p).outstanding) ∧
    (∀ p, ((resolveOpening s).link p).sending = (s.link p).sending) ∧
    (∀ p, ((resolveOpening s).link p).replyTurn = (s.link p).replyTurn) ∧
    (∀ p, ((resolveOpening s).link p).frames = (s.link p).frames) ∧
    (∀ p, ((resolveOpening s).link p).line noticeLinkError = (s.link p).line noticeLinkError) ∧
    (∀ p, ((resolveOpening s).link p).line noticeFileAborted = (s.link p).line noticeFileAborted) ∧
    (∀ p, ((resolveOpening s).link p).line noticeCursorClosed = (s.link p).line noticeCursorClosed) ∧
    (∀ p, ((resolveOpening s).link p).line noticeCheckpointDone = (s.link p).line noticeCheckpointDone) ∧
    (∀ p, ((resolveOpening s).link p).line noticeHoldChanged = (s.link p).line noticeHoldChanged) ∧
    (∀ p, ((resolveOpening s).link p).line noticeFindings = (s.link p).line noticeFindings) := by
  simp only [resolveOpening]
  repeat' split
  all_goals simp

@[simp] theorem testOpening_keeps (s : State) :
    (testOpening s).pending = s.pending ∧ (testOpening s).powered = s.powered ∧ (testOpening s).second = s.second ∧
    (testOpening s).cursors = s.cursors ∧ (testOpening s).media = s.media ∧ (testOpening s).audit = s.audit ∧
    (testOpening s).intake.sources = s.intake.sources ∧ (testOpening s).intake.ageings = s.intake.ageings ∧
    (testOpening s).comp.queue = s.comp.queue ∧ (testOpening s).comp.headHeld = s.comp.headHeld ∧
    (testOpening s).comp.builders = s.comp.builders ∧ (testOpening s).comp.closesOwed = s.comp.closesOwed ∧
    (testOpening s).comp.codes = s.comp.codes ∧ (testOpening s).ret.today = s.ret.today ∧
    (testOpening s).ret.lastSwept = s.ret.lastSwept ∧ (testOpening s).ret.classes = s.ret.classes ∧
    (testOpening s).ret.holds = s.ret.holds ∧ (testOpening s).ret.sweeps = s.ret.sweeps ∧
    (testOpening s).ret.suspended = s.ret.suspended ∧ (testOpening s).ret.lastDay = s.ret.lastDay ∧
    (testOpening s).ret.lastExtend = s.ret.lastExtend ∧ (testOpening s).ret.erasing = s.ret.erasing ∧
    (testOpening s).cat.profile = s.cat.profile ∧ (testOpening s).cat.params = s.cat.params ∧
    (testOpening s).cat.channel = s.cat.channel ∧ (testOpening s).cat.last = s.cat.last ∧
    (testOpening s).cat.newer = s.cat.newer ∧ (testOpening s).cat.owed = s.cat.owed ∧
    (testOpening s).cat.owedWaiters = s.cat.owedWaiters ∧ (testOpening s).cat.buffer = s.cat.buffer ∧
    (testOpening s).cat.sharesOk = s.cat.sharesOk ∧ (testOpening s).cat.load = s.cat.load ∧
    (testOpening s).cat.pendingFormat = s.cat.pendingFormat ∧
    (testOpening s).cat.formatCounter = s.cat.formatCounter ∧ (testOpening s).cat.format = s.cat.format ∧
    (∀ p, ((testOpening s).link p).up = (s.link p).up) ∧ (∀ p, ((testOpening s).link p).epoch = (s.link p).epoch) ∧
    (∀ p, ((testOpening s).link p).outstanding = (s.link p).outstanding) ∧
    (∀ p, ((testOpening s).link p).sending = (s.link p).sending) ∧
    (∀ p, ((testOpening s).link p).replyTurn = (s.link p).replyTurn) ∧
    (∀ p, ((testOpening s).link p).frames = (s.link p).frames) ∧
    (∀ p, ((testOpening s).link p).line noticeLinkError = (s.link p).line noticeLinkError) ∧
    (∀ p, ((testOpening s).link p).line noticeFileAborted = (s.link p).line noticeFileAborted) ∧
    (∀ p, ((testOpening s).link p).line noticeCursorClosed = (s.link p).line noticeCursorClosed) ∧
    (∀ p, ((testOpening s).link p).line noticeCheckpointDone = (s.link p).line noticeCheckpointDone) ∧
    (∀ p, ((testOpening s).link p).line noticeHoldChanged = (s.link p).line noticeHoldChanged) ∧
    (∀ p, ((testOpening s).link p).line noticeFindings = (s.link p).line noticeFindings) := by
  simp only [testOpening]
  repeat' split
  all_goals simp

@[simp] theorem addUse_keeps (c : Nat) (s : State) :
    (addUse c s).pending = s.pending ∧ (addUse c s).powered = s.powered ∧ (addUse c s).second = s.second ∧
    (addUse c s).cursors = s.cursors ∧ (addUse c s).intake = s.intake ∧ (addUse c s).media = s.media ∧
    (addUse c s).ret = s.ret ∧ (addUse c s).audit = s.audit ∧ (addUse c s).cat = s.cat ∧
    (addUse c s).fault = s.fault ∧ (∀ p, (addUse c s).link p = s.link p) ∧ (addUse c s).comp.queue = s.comp.queue ∧
    (addUse c s).comp.headHeld = s.comp.headHeld ∧ (addUse c s).comp.builders = s.comp.builders ∧
    (addUse c s).comp.opening = s.comp.opening ∧ (addUse c s).comp.stopped = s.comp.stopped ∧
    (addUse c s).comp.closesOwed = s.comp.closesOwed := by
  simp [addUse]

@[simp] theorem advanceHead_keeps (s : State) :
    (advanceHead s).pending = s.pending ∧ (advanceHead s).powered = s.powered ∧ (advanceHead s).second = s.second ∧
    (advanceHead s).cursors = s.cursors ∧ (advanceHead s).intake = s.intake ∧ (advanceHead s).media = s.media ∧
    (advanceHead s).ret = s.ret ∧ (advanceHead s).audit = s.audit ∧ (advanceHead s).cat = s.cat ∧
    (advanceHead s).fault = s.fault ∧ (∀ p, (advanceHead s).link p = s.link p) ∧
    (advanceHead s).comp.headHeld = s.comp.headHeld ∧ (advanceHead s).comp.builders = s.comp.builders ∧
    (advanceHead s).comp.opening = s.comp.opening ∧ (advanceHead s).comp.stopped = s.comp.stopped ∧
    (advanceHead s).comp.closesOwed = s.comp.closesOwed ∧ (advanceHead s).comp.codes = s.comp.codes := by
  simp only [advanceHead]
  repeat' split
  all_goals simp

@[simp] theorem appendTo_keeps (b n : Nat) (r : Record) (s : State) :
    (appendTo b n r s).pending = s.pending ∧ (appendTo b n r s).powered = s.powered ∧
    (appendTo b n r s).second = s.second ∧ (appendTo b n r s).cursors = s.cursors ∧
    (appendTo b n r s).intake = s.intake ∧ (appendTo b n r s).ret = s.ret ∧ (appendTo b n r s).audit = s.audit ∧
    (appendTo b n r s).cat = s.cat ∧ (appendTo b n r s).fault = s.fault ∧
    (∀ p, (appendTo b n r s).link p = s.link p) ∧ (appendTo b n r s).comp.headHeld = s.comp.headHeld ∧
    (appendTo b n r s).comp.opening = s.comp.opening ∧ (appendTo b n r s).comp.stopped = s.comp.stopped ∧
    (appendTo b n r s).comp.closesOwed = s.comp.closesOwed ∧ (appendTo b n r s).media.channels = s.media.channels ∧
    (appendTo b n r s).media.pointer = s.media.pointer ∧ (appendTo b n r s).media.slotWait = s.media.slotWait ∧
    (appendTo b n r s).media.flash = s.media.flash := by
  have h : ∀ (l : List Nat) (t : State), ((List.foldl (fun u k => addUse k u) t l).pending = t.pending ∧
      (List.foldl (fun u k => addUse k u) t l).powered = t.powered ∧
      (List.foldl (fun u k => addUse k u) t l).second = t.second ∧
      (List.foldl (fun u k => addUse k u) t l).cursors = t.cursors ∧
      (List.foldl (fun u k => addUse k u) t l).intake = t.intake ∧
      (List.foldl (fun u k => addUse k u) t l).ret = t.ret ∧
      (List.foldl (fun u k => addUse k u) t l).audit = t.audit ∧
      (List.foldl (fun u k => addUse k u) t l).cat = t.cat ∧
      (List.foldl (fun u k => addUse k u) t l).fault = t.fault ∧
      (∀ p, (List.foldl (fun u k => addUse k u) t l).link p = t.link p) ∧
      (List.foldl (fun u k => addUse k u) t l).comp.headHeld = t.comp.headHeld ∧
      (List.foldl (fun u k => addUse k u) t l).comp.opening = t.comp.opening ∧
      (List.foldl (fun u k => addUse k u) t l).comp.stopped = t.comp.stopped ∧
      (List.foldl (fun u k => addUse k u) t l).comp.closesOwed = t.comp.closesOwed ∧
      (List.foldl (fun u k => addUse k u) t l).media.channels = t.media.channels ∧
      (List.foldl (fun u k => addUse k u) t l).media.pointer = t.media.pointer ∧
      (List.foldl (fun u k => addUse k u) t l).media.slotWait = t.media.slotWait ∧
      (List.foldl (fun u k => addUse k u) t l).media.flash = t.media.flash) := by
    intro l
    induction l with
    | nil => simp
    | cons a l ih => intro t; simp [ih]
  simp [appendTo, h]

@[simp] theorem leaveQueue_keeps (s : State) :
    (leaveQueue s).pending = s.pending ∧ (leaveQueue s).powered = s.powered ∧ (leaveQueue s).second = s.second ∧
    (leaveQueue s).cursors = s.cursors ∧ (leaveQueue s).media = s.media ∧ (leaveQueue s).ret = s.ret ∧
    (leaveQueue s).audit = s.audit ∧ (leaveQueue s).cat = s.cat ∧ (leaveQueue s).fault = s.fault ∧
    (∀ p, (leaveQueue s).link p = s.link p) ∧ (leaveQueue s).intake.sources = s.intake.sources ∧
    (leaveQueue s).intake.slots = s.intake.slots ∧ (leaveQueue s).intake.closing = s.intake.closing ∧
    (leaveQueue s).intake.ageings = s.intake.ageings ∧ (leaveQueue s).comp.headHeld = s.comp.headHeld ∧
    (leaveQueue s).comp.builders = s.comp.builders ∧ (leaveQueue s).comp.opening = s.comp.opening ∧
    (leaveQueue s).comp.stopped = s.comp.stopped ∧ (leaveQueue s).comp.closesOwed = s.comp.closesOwed ∧
    (leaveQueue s).comp.codes = s.comp.codes := by
  simp only [leaveQueue]
  repeat' split
  all_goals simp

@[simp] theorem dropFinished_keeps (s : State) :
    (dropFinished s).pending = s.pending ∧ (dropFinished s).powered = s.powered ∧
    (dropFinished s).second = s.second ∧ (dropFinished s).cursors = s.cursors ∧ (dropFinished s).media = s.media ∧
    (dropFinished s).ret = s.ret ∧ (dropFinished s).audit = s.audit ∧ (dropFinished s).cat = s.cat ∧
    (dropFinished s).fault = s.fault ∧ (∀ p, (dropFinished s).link p = s.link p) ∧
    (dropFinished s).intake.sources = s.intake.sources ∧ (dropFinished s).intake.slots = s.intake.slots ∧
    (dropFinished s).intake.closing = s.intake.closing ∧ (dropFinished s).intake.ageings = s.intake.ageings ∧
    (dropFinished s).comp.headHeld = s.comp.headHeld ∧ (dropFinished s).comp.builders = s.comp.builders ∧
    (dropFinished s).comp.opening = s.comp.opening ∧ (dropFinished s).comp.stopped = s.comp.stopped ∧
    (dropFinished s).comp.closesOwed = s.comp.closesOwed ∧ (dropFinished s).comp.codes = s.comp.codes := by
  unfold dropFinished
  generalize s.comp.queue = l
  induction l generalizing s with
  | nil => simp
  | cons a l ih =>
    simp only [List.foldl_cons, ih]
    repeat' split
    all_goals simp

@[simp] theorem appendIfOpen_keeps (f : QueuedFile) (r : Record) (s : State) :
    (appendIfOpen f r s).pending = s.pending ∧ (appendIfOpen f r s).powered = s.powered ∧
    (appendIfOpen f r s).second = s.second ∧ (appendIfOpen f r s).cursors = s.cursors ∧
    (appendIfOpen f r s).intake = s.intake ∧ (appendIfOpen f r s).ret = s.ret ∧
    (appendIfOpen f r s).audit = s.audit ∧ (appendIfOpen f r s).cat = s.cat ∧ (appendIfOpen f r s).fault = s.fault ∧
    (∀ p, (appendIfOpen f r s).link p = s.link p) ∧ (appendIfOpen f r s).comp.headHeld = s.comp.headHeld ∧
    (appendIfOpen f r s).comp.opening = s.comp.opening ∧ (appendIfOpen f r s).comp.stopped = s.comp.stopped ∧
    (appendIfOpen f r s).comp.closesOwed = s.comp.closesOwed ∧
    (appendIfOpen f r s).media.channels = s.media.channels ∧ (appendIfOpen f r s).media.pointer = s.media.pointer ∧
    (appendIfOpen f r s).media.slotWait = s.media.slotWait ∧ (appendIfOpen f r s).media.flash = s.media.flash := by
  simp only [appendIfOpen]
  repeat' split
  all_goals simp

@[simp] theorem openAndAppend_keeps (f : QueuedFile) (r : Record) (s : State) :
    (openAndAppend f r s).pending = s.pending ∧ (openAndAppend f r s).powered = s.powered ∧
    (openAndAppend f r s).second = s.second ∧ (openAndAppend f r s).cursors = s.cursors ∧
    (openAndAppend f r s).audit = s.audit ∧ (openAndAppend f r s).intake.sources = s.intake.sources ∧
    (openAndAppend f r s).intake.ageings = s.intake.ageings ∧ (openAndAppend f r s).comp.headHeld = s.comp.headHeld ∧
    (openAndAppend f r s).comp.closesOwed = s.comp.closesOwed ∧ (openAndAppend f r s).media.flash = s.media.flash ∧
    (openAndAppend f r s).ret.today = s.ret.today ∧ (openAndAppend f r s).ret.lastSwept = s.ret.lastSwept ∧
    (openAndAppend f r s).ret.classes = s.ret.classes ∧ (openAndAppend f r s).ret.holds = s.ret.holds ∧
    (openAndAppend f r s).ret.sweeps = s.ret.sweeps ∧ (openAndAppend f r s).ret.suspended = s.ret.suspended ∧
    (openAndAppend f r s).ret.lastDay = s.ret.lastDay ∧ (openAndAppend f r s).ret.lastExtend = s.ret.lastExtend ∧
    (openAndAppend f r s).ret.erasing = s.ret.erasing ∧ (openAndAppend f r s).cat.profile = s.cat.profile ∧
    (openAndAppend f r s).cat.params = s.cat.params ∧ (openAndAppend f r s).cat.channel = s.cat.channel ∧
    (openAndAppend f r s).cat.last = s.cat.last ∧ (openAndAppend f r s).cat.newer = s.cat.newer ∧
    (openAndAppend f r s).cat.owed = s.cat.owed ∧ (openAndAppend f r s).cat.owedWaiters = s.cat.owedWaiters ∧
    (openAndAppend f r s).cat.buffer = s.cat.buffer ∧ (openAndAppend f r s).cat.sharesOk = s.cat.sharesOk ∧
    (openAndAppend f r s).cat.load = s.cat.load ∧ (openAndAppend f r s).cat.pendingFormat = s.cat.pendingFormat ∧
    (openAndAppend f r s).cat.formatCounter = s.cat.formatCounter ∧ (openAndAppend f r s).cat.format = s.cat.format ∧
    (∀ p, ((openAndAppend f r s).link p).up = (s.link p).up) ∧
    (∀ p, ((openAndAppend f r s).link p).epoch = (s.link p).epoch) ∧
    (∀ p, ((openAndAppend f r s).link p).outstanding = (s.link p).outstanding) ∧
    (∀ p, ((openAndAppend f r s).link p).sending = (s.link p).sending) ∧
    (∀ p, ((openAndAppend f r s).link p).replyTurn = (s.link p).replyTurn) ∧
    (∀ p, ((openAndAppend f r s).link p).frames = (s.link p).frames) ∧
    (∀ p, ((openAndAppend f r s).link p).line noticeLinkError = (s.link p).line noticeLinkError) ∧
    (∀ p, ((openAndAppend f r s).link p).line noticeFileAborted = (s.link p).line noticeFileAborted) ∧
    (∀ p, ((openAndAppend f r s).link p).line noticeCursorClosed = (s.link p).line noticeCursorClosed) ∧
    (∀ p, ((openAndAppend f r s).link p).line noticeCheckpointDone = (s.link p).line noticeCheckpointDone) ∧
    (∀ p, ((openAndAppend f r s).link p).line noticeHoldChanged = (s.link p).line noticeHoldChanged) ∧
    (∀ p, ((openAndAppend f r s).link p).line noticeFindings = (s.link p).line noticeFindings) := by
  simp only [openAndAppend]
  repeat' split
  all_goals simp

@[simp] theorem appendNext_keeps (f : QueuedFile) (r : Record) (s : State) :
    (appendNext f r s).pending = s.pending ∧ (appendNext f r s).powered = s.powered ∧
    (appendNext f r s).second = s.second ∧ (appendNext f r s).cursors = s.cursors ∧
    (appendNext f r s).audit = s.audit ∧ (appendNext f r s).intake.sources = s.intake.sources ∧
    (appendNext f r s).intake.ageings = s.intake.ageings ∧ (appendNext f r s).comp.headHeld = s.comp.headHeld ∧
    (appendNext f r s).comp.closesOwed = s.comp.closesOwed ∧ (appendNext f r s).media.flash = s.media.flash ∧
    (appendNext f r s).ret.today = s.ret.today ∧ (appendNext f r s).ret.lastSwept = s.ret.lastSwept ∧
    (appendNext f r s).ret.classes = s.ret.classes ∧ (appendNext f r s).ret.holds = s.ret.holds ∧
    (appendNext f r s).ret.sweeps = s.ret.sweeps ∧ (appendNext f r s).ret.suspended = s.ret.suspended ∧
    (appendNext f r s).ret.lastDay = s.ret.lastDay ∧ (appendNext f r s).ret.lastExtend = s.ret.lastExtend ∧
    (appendNext f r s).ret.erasing = s.ret.erasing ∧ (appendNext f r s).cat.profile = s.cat.profile ∧
    (appendNext f r s).cat.params = s.cat.params ∧ (appendNext f r s).cat.channel = s.cat.channel ∧
    (appendNext f r s).cat.last = s.cat.last ∧ (appendNext f r s).cat.newer = s.cat.newer ∧
    (appendNext f r s).cat.owed = s.cat.owed ∧ (appendNext f r s).cat.owedWaiters = s.cat.owedWaiters ∧
    (appendNext f r s).cat.buffer = s.cat.buffer ∧ (appendNext f r s).cat.sharesOk = s.cat.sharesOk ∧
    (appendNext f r s).cat.load = s.cat.load ∧ (appendNext f r s).cat.pendingFormat = s.cat.pendingFormat ∧
    (appendNext f r s).cat.formatCounter = s.cat.formatCounter ∧ (appendNext f r s).cat.format = s.cat.format ∧
    (∀ p, ((appendNext f r s).link p).up = (s.link p).up) ∧
    (∀ p, ((appendNext f r s).link p).epoch = (s.link p).epoch) ∧
    (∀ p, ((appendNext f r s).link p).outstanding = (s.link p).outstanding) ∧
    (∀ p, ((appendNext f r s).link p).sending = (s.link p).sending) ∧
    (∀ p, ((appendNext f r s).link p).replyTurn = (s.link p).replyTurn) ∧
    (∀ p, ((appendNext f r s).link p).frames = (s.link p).frames) ∧
    (∀ p, ((appendNext f r s).link p).line noticeLinkError = (s.link p).line noticeLinkError) ∧
    (∀ p, ((appendNext f r s).link p).line noticeFileAborted = (s.link p).line noticeFileAborted) ∧
    (∀ p, ((appendNext f r s).link p).line noticeCursorClosed = (s.link p).line noticeCursorClosed) ∧
    (∀ p, ((appendNext f r s).link p).line noticeCheckpointDone = (s.link p).line noticeCheckpointDone) ∧
    (∀ p, ((appendNext f r s).link p).line noticeHoldChanged = (s.link p).line noticeHoldChanged) ∧
    (∀ p, ((appendNext f r s).link p).line noticeFindings = (s.link p).line noticeFindings) := by
  simp only [appendNext]
  repeat' split
  all_goals simp

@[simp] theorem drainCloses_keeps (s : State) :
    (drainCloses s).pending = s.pending ∧ (drainCloses s).powered = s.powered ∧ (drainCloses s).second = s.second ∧
    (drainCloses s).cursors = s.cursors ∧ (drainCloses s).audit = s.audit ∧
    (drainCloses s).intake.sources = s.intake.sources ∧ (drainCloses s).intake.ageings = s.intake.ageings ∧
    (drainCloses s).comp.queue = s.comp.queue ∧ (drainCloses s).comp.headHeld = s.comp.headHeld ∧
    (drainCloses s).comp.opening = s.comp.opening ∧ (drainCloses s).comp.closesOwed = s.comp.closesOwed ∧
    (drainCloses s).comp.codes = s.comp.codes ∧ (drainCloses s).media.flash = s.media.flash ∧
    (drainCloses s).ret.today = s.ret.today ∧ (drainCloses s).ret.lastSwept = s.ret.lastSwept ∧
    (drainCloses s).ret.classes = s.ret.classes ∧ (drainCloses s).ret.holds = s.ret.holds ∧
    (drainCloses s).ret.sweeps = s.ret.sweeps ∧ (drainCloses s).ret.suspended = s.ret.suspended ∧
    (drainCloses s).ret.lastDay = s.ret.lastDay ∧ (drainCloses s).ret.lastExtend = s.ret.lastExtend ∧
    (drainCloses s).ret.erasing = s.ret.erasing ∧ (drainCloses s).cat.profile = s.cat.profile ∧
    (drainCloses s).cat.params = s.cat.params ∧ (drainCloses s).cat.channel = s.cat.channel ∧
    (drainCloses s).cat.last = s.cat.last ∧ (drainCloses s).cat.newer = s.cat.newer ∧
    (drainCloses s).cat.owed = s.cat.owed ∧ (drainCloses s).cat.owedWaiters = s.cat.owedWaiters ∧
    (drainCloses s).cat.buffer = s.cat.buffer ∧ (drainCloses s).cat.sharesOk = s.cat.sharesOk ∧
    (drainCloses s).cat.load = s.cat.load ∧ (drainCloses s).cat.pendingFormat = s.cat.pendingFormat ∧
    (drainCloses s).cat.formatCounter = s.cat.formatCounter ∧ (drainCloses s).cat.format = s.cat.format ∧
    (∀ p, ((drainCloses s).link p).up = (s.link p).up) ∧ (∀ p, ((drainCloses s).link p).epoch = (s.link p).epoch) ∧
    (∀ p, ((drainCloses s).link p).outstanding = (s.link p).outstanding) ∧
    (∀ p, ((drainCloses s).link p).sending = (s.link p).sending) ∧
    (∀ p, ((drainCloses s).link p).replyTurn = (s.link p).replyTurn) ∧
    (∀ p, ((drainCloses s).link p).frames = (s.link p).frames) ∧
    (∀ p, ((drainCloses s).link p).line noticeLinkError = (s.link p).line noticeLinkError) ∧
    (∀ p, ((drainCloses s).link p).line noticeFileAborted = (s.link p).line noticeFileAborted) ∧
    (∀ p, ((drainCloses s).link p).line noticeCursorClosed = (s.link p).line noticeCursorClosed) ∧
    (∀ p, ((drainCloses s).link p).line noticeCheckpointDone = (s.link p).line noticeCheckpointDone) ∧
    (∀ p, ((drainCloses s).link p).line noticeHoldChanged = (s.link p).line noticeHoldChanged) ∧
    (∀ p, ((drainCloses s).link p).line noticeFindings = (s.link p).line noticeFindings) := by
  simp only [drainCloses]
  repeat' split
  all_goals simp

@[simp] theorem drainComplete_keeps (s : State) :
    (drainComplete s).pending = s.pending ∧ (drainComplete s).powered = s.powered ∧
    (drainComplete s).second = s.second ∧ (drainComplete s).cursors = s.cursors ∧
    (drainComplete s).intake = s.intake ∧ (drainComplete s).comp = s.comp ∧ (drainComplete s).ret = s.ret ∧
    (drainComplete s).audit = s.audit ∧ (drainComplete s).fault = s.fault ∧
    (∀ p, (drainComplete s).link p = s.link p) ∧ (drainComplete s).media.dir = s.media.dir ∧
    (drainComplete s).media.pointer = s.media.pointer ∧ (drainComplete s).media.slotWait = s.media.slotWait ∧
    (drainComplete s).media.flash = s.media.flash ∧ (drainComplete s).cat.archive = s.cat.archive ∧
    (drainComplete s).cat.profile = s.cat.profile ∧ (drainComplete s).cat.params = s.cat.params ∧
    (drainComplete s).cat.channel = s.cat.channel ∧ (drainComplete s).cat.last = s.cat.last ∧
    (drainComplete s).cat.newer = s.cat.newer ∧ (drainComplete s).cat.waiters = s.cat.waiters ∧
    (drainComplete s).cat.owed = s.cat.owed ∧ (drainComplete s).cat.owedWaiters = s.cat.owedWaiters ∧
    (drainComplete s).cat.load = s.cat.load ∧ (drainComplete s).cat.pendingFormat = s.cat.pendingFormat ∧
    (drainComplete s).cat.formatCounter = s.cat.formatCounter ∧ (drainComplete s).cat.format = s.cat.format := by
  simp only [drainComplete]
  repeat' split
  all_goals simp

@[simp] theorem runCompaction_keeps (s : State) :
    (runCompaction s).pending = s.pending ∧ (runCompaction s).powered = s.powered ∧
    (runCompaction s).second = s.second ∧ (runCompaction s).cursors = s.cursors ∧ (runCompaction s).audit = s.audit ∧
    (runCompaction s).intake.sources = s.intake.sources ∧ (runCompaction s).intake.ageings = s.intake.ageings ∧
    (runCompaction s).comp.headHeld = s.comp.headHeld ∧ (runCompaction s).comp.closesOwed = s.comp.closesOwed ∧
    (runCompaction s).comp.codes = s.comp.codes ∧ (runCompaction s).media.flash = s.media.flash ∧
    (runCompaction s).ret.today = s.ret.today ∧ (runCompaction s).ret.lastSwept = s.ret.lastSwept ∧
    (runCompaction s).ret.classes = s.ret.classes ∧ (runCompaction s).ret.holds = s.ret.holds ∧
    (runCompaction s).ret.sweeps = s.ret.sweeps ∧ (runCompaction s).ret.suspended = s.ret.suspended ∧
    (runCompaction s).ret.lastDay = s.ret.lastDay ∧ (runCompaction s).ret.lastExtend = s.ret.lastExtend ∧
    (runCompaction s).ret.erasing = s.ret.erasing ∧ (runCompaction s).cat.profile = s.cat.profile ∧
    (runCompaction s).cat.params = s.cat.params ∧ (runCompaction s).cat.channel = s.cat.channel ∧
    (runCompaction s).cat.last = s.cat.last ∧ (runCompaction s).cat.newer = s.cat.newer ∧
    (runCompaction s).cat.owed = s.cat.owed ∧ (runCompaction s).cat.owedWaiters = s.cat.owedWaiters ∧
    (runCompaction s).cat.load = s.cat.load ∧ (runCompaction s).cat.pendingFormat = s.cat.pendingFormat ∧
    (runCompaction s).cat.formatCounter = s.cat.formatCounter ∧ (runCompaction s).cat.format = s.cat.format ∧
    (∀ p, ((runCompaction s).link p).up = (s.link p).up) ∧
    (∀ p, ((runCompaction s).link p).epoch = (s.link p).epoch) ∧
    (∀ p, ((runCompaction s).link p).outstanding = (s.link p).outstanding) ∧
    (∀ p, ((runCompaction s).link p).sending = (s.link p).sending) ∧
    (∀ p, ((runCompaction s).link p).replyTurn = (s.link p).replyTurn) ∧
    (∀ p, ((runCompaction s).link p).frames = (s.link p).frames) ∧
    (∀ p, ((runCompaction s).link p).line noticeLinkError = (s.link p).line noticeLinkError) ∧
    (∀ p, ((runCompaction s).link p).line noticeFileAborted = (s.link p).line noticeFileAborted) ∧
    (∀ p, ((runCompaction s).link p).line noticeCursorClosed = (s.link p).line noticeCursorClosed) ∧
    (∀ p, ((runCompaction s).link p).line noticeCheckpointDone = (s.link p).line noticeCheckpointDone) ∧
    (∀ p, ((runCompaction s).link p).line noticeHoldChanged = (s.link p).line noticeHoldChanged) ∧
    (∀ p, ((runCompaction s).link p).line noticeFindings = (s.link p).line noticeFindings) := by
  simp only [runCompaction]
  repeat' split
  all_goals simp

@[simp] theorem beginCheckpoint_keeps (ws : List Waiter) (s : State) :
    (beginCheckpoint ws s).pending = s.pending ∧ (beginCheckpoint ws s).powered = s.powered ∧
    (beginCheckpoint ws s).second = s.second ∧ (beginCheckpoint ws s).cursors = s.cursors ∧
    (beginCheckpoint ws s).audit = s.audit ∧ (beginCheckpoint ws s).intake.sources = s.intake.sources ∧
    (beginCheckpoint ws s).intake.ageings = s.intake.ageings ∧
    (beginCheckpoint ws s).comp.headHeld = s.comp.headHeld ∧
    (beginCheckpoint ws s).comp.closesOwed = s.comp.closesOwed ∧ (beginCheckpoint ws s).comp.codes = s.comp.codes ∧
    (beginCheckpoint ws s).media.flash = s.media.flash ∧ (beginCheckpoint ws s).ret.today = s.ret.today ∧
    (beginCheckpoint ws s).ret.lastSwept = s.ret.lastSwept ∧ (beginCheckpoint ws s).ret.classes = s.ret.classes ∧
    (beginCheckpoint ws s).ret.holds = s.ret.holds ∧ (beginCheckpoint ws s).ret.sweeps = s.ret.sweeps ∧
    (beginCheckpoint ws s).ret.suspended = s.ret.suspended ∧ (beginCheckpoint ws s).ret.lastDay = s.ret.lastDay ∧
    (beginCheckpoint ws s).ret.lastExtend = s.ret.lastExtend ∧ (beginCheckpoint ws s).ret.erasing = s.ret.erasing ∧
    (beginCheckpoint ws s).cat.profile = s.cat.profile ∧ (beginCheckpoint ws s).cat.params = s.cat.params ∧
    (beginCheckpoint ws s).cat.channel = s.cat.channel ∧ (beginCheckpoint ws s).cat.last = s.cat.last ∧
    (beginCheckpoint ws s).cat.newer = s.cat.newer ∧ (beginCheckpoint ws s).cat.owed = s.cat.owed ∧
    (beginCheckpoint ws s).cat.owedWaiters = s.cat.owedWaiters ∧ (beginCheckpoint ws s).cat.load = s.cat.load ∧
    (beginCheckpoint ws s).cat.pendingFormat = s.cat.pendingFormat ∧
    (beginCheckpoint ws s).cat.formatCounter = s.cat.formatCounter ∧
    (beginCheckpoint ws s).cat.format = s.cat.format ∧ (∀ p, ((beginCheckpoint ws s).link p).up = (s.link p).up) ∧
    (∀ p, ((beginCheckpoint ws s).link p).epoch = (s.link p).epoch) ∧
    (∀ p, ((beginCheckpoint ws s).link p).outstanding = (s.link p).outstanding) ∧
    (∀ p, ((beginCheckpoint ws s).link p).sending = (s.link p).sending) ∧
    (∀ p, ((beginCheckpoint ws s).link p).replyTurn = (s.link p).replyTurn) ∧
    (∀ p, ((beginCheckpoint ws s).link p).frames = (s.link p).frames) ∧
    (∀ p, ((beginCheckpoint ws s).link p).line noticeLinkError = (s.link p).line noticeLinkError) ∧
    (∀ p, ((beginCheckpoint ws s).link p).line noticeFileAborted = (s.link p).line noticeFileAborted) ∧
    (∀ p, ((beginCheckpoint ws s).link p).line noticeCursorClosed = (s.link p).line noticeCursorClosed) ∧
    (∀ p, ((beginCheckpoint ws s).link p).line noticeCheckpointDone = (s.link p).line noticeCheckpointDone) ∧
    (∀ p, ((beginCheckpoint ws s).link p).line noticeHoldChanged = (s.link p).line noticeHoldChanged) ∧
    (∀ p, ((beginCheckpoint ws s).link p).line noticeFindings = (s.link p).line noticeFindings) := by
  simp only [beginCheckpoint]
  repeat' split
  all_goals simp

@[simp] theorem trigger_keeps (ws : List Waiter) (s : State) :
    (trigger ws s).pending = s.pending ∧ (trigger ws s).powered = s.powered ∧ (trigger ws s).second = s.second ∧
    (trigger ws s).cursors = s.cursors ∧ (trigger ws s).audit = s.audit ∧
    (trigger ws s).intake.sources = s.intake.sources ∧ (trigger ws s).intake.ageings = s.intake.ageings ∧
    (trigger ws s).comp.headHeld = s.comp.headHeld ∧ (trigger ws s).comp.closesOwed = s.comp.closesOwed ∧
    (trigger ws s).comp.codes = s.comp.codes ∧ (trigger ws s).media.flash = s.media.flash ∧
    (trigger ws s).ret.today = s.ret.today ∧ (trigger ws s).ret.lastSwept = s.ret.lastSwept ∧
    (trigger ws s).ret.classes = s.ret.classes ∧ (trigger ws s).ret.holds = s.ret.holds ∧
    (trigger ws s).ret.sweeps = s.ret.sweeps ∧ (trigger ws s).ret.suspended = s.ret.suspended ∧
    (trigger ws s).ret.lastDay = s.ret.lastDay ∧ (trigger ws s).ret.lastExtend = s.ret.lastExtend ∧
    (trigger ws s).ret.erasing = s.ret.erasing ∧ (trigger ws s).cat.profile = s.cat.profile ∧
    (trigger ws s).cat.params = s.cat.params ∧ (trigger ws s).cat.channel = s.cat.channel ∧
    (trigger ws s).cat.last = s.cat.last ∧ (trigger ws s).cat.newer = s.cat.newer ∧
    (trigger ws s).cat.load = s.cat.load ∧ (trigger ws s).cat.pendingFormat = s.cat.pendingFormat ∧
    (trigger ws s).cat.formatCounter = s.cat.formatCounter ∧ (trigger ws s).cat.format = s.cat.format ∧
    (∀ p, ((trigger ws s).link p).up = (s.link p).up) ∧ (∀ p, ((trigger ws s).link p).epoch = (s.link p).epoch) ∧
    (∀ p, ((trigger ws s).link p).outstanding = (s.link p).outstanding) ∧
    (∀ p, ((trigger ws s).link p).sending = (s.link p).sending) ∧
    (∀ p, ((trigger ws s).link p).replyTurn = (s.link p).replyTurn) ∧
    (∀ p, ((trigger ws s).link p).frames = (s.link p).frames) ∧
    (∀ p, ((trigger ws s).link p).line noticeLinkError = (s.link p).line noticeLinkError) ∧
    (∀ p, ((trigger ws s).link p).line noticeFileAborted = (s.link p).line noticeFileAborted) ∧
    (∀ p, ((trigger ws s).link p).line noticeCursorClosed = (s.link p).line noticeCursorClosed) ∧
    (∀ p, ((trigger ws s).link p).line noticeCheckpointDone = (s.link p).line noticeCheckpointDone) ∧
    (∀ p, ((trigger ws s).link p).line noticeHoldChanged = (s.link p).line noticeHoldChanged) ∧
    (∀ p, ((trigger ws s).link p).line noticeFindings = (s.link p).line noticeFindings) := by
  simp only [trigger]
  repeat' split
  all_goals simp

@[simp] theorem triggerFor_keeps (r : ReqRef) (a b : List Byte) (s : State) :
    (triggerFor r a b s).pending = s.pending ∧ (triggerFor r a b s).powered = s.powered ∧
    (triggerFor r a b s).second = s.second ∧ (triggerFor r a b s).cursors = s.cursors ∧
    (triggerFor r a b s).audit = s.audit ∧ (triggerFor r a b s).intake.sources = s.intake.sources ∧
    (triggerFor r a b s).intake.ageings = s.intake.ageings ∧ (triggerFor r a b s).comp.headHeld = s.comp.headHeld ∧
    (triggerFor r a b s).comp.closesOwed = s.comp.closesOwed ∧ (triggerFor r a b s).comp.codes = s.comp.codes ∧
    (triggerFor r a b s).media.flash = s.media.flash ∧ (triggerFor r a b s).ret.today = s.ret.today ∧
    (triggerFor r a b s).ret.lastSwept = s.ret.lastSwept ∧ (triggerFor r a b s).ret.classes = s.ret.classes ∧
    (triggerFor r a b s).ret.holds = s.ret.holds ∧ (triggerFor r a b s).ret.sweeps = s.ret.sweeps ∧
    (triggerFor r a b s).ret.suspended = s.ret.suspended ∧ (triggerFor r a b s).ret.lastDay = s.ret.lastDay ∧
    (triggerFor r a b s).ret.lastExtend = s.ret.lastExtend ∧ (triggerFor r a b s).ret.erasing = s.ret.erasing ∧
    (triggerFor r a b s).cat.profile = s.cat.profile ∧ (triggerFor r a b s).cat.params = s.cat.params ∧
    (triggerFor r a b s).cat.channel = s.cat.channel ∧ (triggerFor r a b s).cat.last = s.cat.last ∧
    (triggerFor r a b s).cat.newer = s.cat.newer ∧ (triggerFor r a b s).cat.load = s.cat.load ∧
    (triggerFor r a b s).cat.pendingFormat = s.cat.pendingFormat ∧
    (triggerFor r a b s).cat.formatCounter = s.cat.formatCounter ∧ (triggerFor r a b s).cat.format = s.cat.format ∧
    (∀ p, ((triggerFor r a b s).link p).up = (s.link p).up) ∧
    (∀ p, ((triggerFor r a b s).link p).epoch = (s.link p).epoch) ∧
    (∀ p, ((triggerFor r a b s).link p).outstanding = (s.link p).outstanding) ∧
    (∀ p, ((triggerFor r a b s).link p).sending = (s.link p).sending) ∧
    (∀ p, ((triggerFor r a b s).link p).replyTurn = (s.link p).replyTurn) ∧
    (∀ p, ((triggerFor r a b s).link p).frames = (s.link p).frames) ∧
    (∀ p, ((triggerFor r a b s).link p).line noticeLinkError = (s.link p).line noticeLinkError) ∧
    (∀ p, ((triggerFor r a b s).link p).line noticeFileAborted = (s.link p).line noticeFileAborted) ∧
    (∀ p, ((triggerFor r a b s).link p).line noticeCursorClosed = (s.link p).line noticeCursorClosed) ∧
    (∀ p, ((triggerFor r a b s).link p).line noticeCheckpointDone = (s.link p).line noticeCheckpointDone) ∧
    (∀ p, ((triggerFor r a b s).link p).line noticeHoldChanged = (s.link p).line noticeHoldChanged) ∧
    (∀ p, ((triggerFor r a b s).link p).line noticeFindings = (s.link p).line noticeFindings) := by
  simp [triggerFor]

@[simp] theorem askErase_keeps (c k : Nat) (e : Option Nat) (s : State) :
    (askErase c k e s).pending = s.pending ∧ (askErase c k e s).powered = s.powered ∧
    (askErase c k e s).second = s.second ∧ (askErase c k e s).cursors = s.cursors ∧
    (askErase c k e s).intake = s.intake ∧ (askErase c k e s).comp = s.comp ∧ (askErase c k e s).audit = s.audit ∧
    (askErase c k e s).cat = s.cat ∧ (askErase c k e s).fault = s.fault ∧
    (∀ p, (askErase c k e s).link p = s.link p) ∧ (askErase c k e s).media.dir = s.media.dir ∧
    (askErase c k e s).media.pointer = s.media.pointer ∧ (askErase c k e s).media.slotWait = s.media.slotWait ∧
    (askErase c k e s).media.flash = s.media.flash ∧ (askErase c k e s).ret.today = s.ret.today ∧
    (askErase c k e s).ret.lastSwept = s.ret.lastSwept ∧ (askErase c k e s).ret.classes = s.ret.classes ∧
    (askErase c k e s).ret.holds = s.ret.holds ∧ (askErase c k e s).ret.sweeps = s.ret.sweeps ∧
    (askErase c k e s).ret.suspended = s.ret.suspended ∧ (askErase c k e s).ret.lastDay = s.ret.lastDay ∧
    (askErase c k e s).ret.lastExtend = s.ret.lastExtend ∧
    (askErase c k e s).ret.eraserStopped = s.ret.eraserStopped := by
  simp [askErase]

@[simp] theorem eraseEntry_keeps (c e : Nat) (s : State) :
    (eraseEntry c e s).pending = s.pending ∧ (eraseEntry c e s).powered = s.powered ∧
    (eraseEntry c e s).second = s.second ∧ (eraseEntry c e s).cursors = s.cursors ∧
    (eraseEntry c e s).intake = s.intake ∧ (eraseEntry c e s).comp = s.comp ∧ (eraseEntry c e s).audit = s.audit ∧
    (eraseEntry c e s).cat = s.cat ∧ (eraseEntry c e s).fault = s.fault ∧
    (∀ p, (eraseEntry c e s).link p = s.link p) ∧ (eraseEntry c e s).media.pointer = s.media.pointer ∧
    (eraseEntry c e s).media.slotWait = s.media.slotWait ∧ (eraseEntry c e s).media.flash = s.media.flash ∧
    (eraseEntry c e s).ret.today = s.ret.today ∧ (eraseEntry c e s).ret.lastSwept = s.ret.lastSwept ∧
    (eraseEntry c e s).ret.classes = s.ret.classes ∧ (eraseEntry c e s).ret.holds = s.ret.holds ∧
    (eraseEntry c e s).ret.sweeps = s.ret.sweeps ∧ (eraseEntry c e s).ret.suspended = s.ret.suspended ∧
    (eraseEntry c e s).ret.lastDay = s.ret.lastDay ∧ (eraseEntry c e s).ret.lastExtend = s.ret.lastExtend ∧
    (eraseEntry c e s).ret.eraserStopped = s.ret.eraserStopped := by
  simp [eraseEntry]

@[simp] theorem eraserWork_keeps (c : Nat) (s : State) :
    (eraserWork c s).pending = s.pending ∧ (eraserWork c s).powered = s.powered ∧
    (eraserWork c s).second = s.second ∧ (eraserWork c s).cursors = s.cursors ∧ (eraserWork c s).intake = s.intake ∧
    (eraserWork c s).comp = s.comp ∧ (eraserWork c s).audit = s.audit ∧ (eraserWork c s).cat = s.cat ∧
    (eraserWork c s).fault = s.fault ∧ (∀ p, (eraserWork c s).link p = s.link p) ∧
    (eraserWork c s).media.pointer = s.media.pointer ∧ (eraserWork c s).media.slotWait = s.media.slotWait ∧
    (eraserWork c s).media.flash = s.media.flash ∧ (eraserWork c s).ret.today = s.ret.today ∧
    (eraserWork c s).ret.lastSwept = s.ret.lastSwept ∧ (eraserWork c s).ret.classes = s.ret.classes ∧
    (eraserWork c s).ret.holds = s.ret.holds ∧ (eraserWork c s).ret.sweeps = s.ret.sweeps ∧
    (eraserWork c s).ret.suspended = s.ret.suspended ∧ (eraserWork c s).ret.lastDay = s.ret.lastDay ∧
    (eraserWork c s).ret.lastExtend = s.ret.lastExtend ∧
    (eraserWork c s).ret.eraserStopped = s.ret.eraserStopped := by
  simp only [eraserWork]
  repeat' split
  all_goals simp

@[simp] theorem lookForWork_keeps (s : State) :
    (lookForWork s).pending = s.pending ∧ (lookForWork s).powered = s.powered ∧ (lookForWork s).second = s.second ∧
    (lookForWork s).cursors = s.cursors ∧ (lookForWork s).intake = s.intake ∧ (lookForWork s).comp = s.comp ∧
    (lookForWork s).audit = s.audit ∧ (lookForWork s).cat = s.cat ∧ (lookForWork s).fault = s.fault ∧
    (∀ p, (lookForWork s).link p = s.link p) ∧ (lookForWork s).media.pointer = s.media.pointer ∧
    (lookForWork s).media.slotWait = s.media.slotWait ∧ (lookForWork s).media.flash = s.media.flash ∧
    (lookForWork s).ret.today = s.ret.today ∧ (lookForWork s).ret.lastSwept = s.ret.lastSwept ∧
    (lookForWork s).ret.classes = s.ret.classes ∧ (lookForWork s).ret.holds = s.ret.holds ∧
    (lookForWork s).ret.sweeps = s.ret.sweeps ∧ (lookForWork s).ret.suspended = s.ret.suspended ∧
    (lookForWork s).ret.lastDay = s.ret.lastDay ∧ (lookForWork s).ret.lastExtend = s.ret.lastExtend ∧
    (lookForWork s).ret.eraserStopped = s.ret.eraserStopped := by
  have h : ∀ (l : List Nat) (t : State), ((List.foldl (fun t c => eraserWork c t) t l).pending = t.pending ∧
      (List.foldl (fun t c => eraserWork c t) t l).powered = t.powered ∧
      (List.foldl (fun t c => eraserWork c t) t l).second = t.second ∧
      (List.foldl (fun t c => eraserWork c t) t l).cursors = t.cursors ∧
      (List.foldl (fun t c => eraserWork c t) t l).intake = t.intake ∧
      (List.foldl (fun t c => eraserWork c t) t l).comp = t.comp ∧
      (List.foldl (fun t c => eraserWork c t) t l).audit = t.audit ∧
      (List.foldl (fun t c => eraserWork c t) t l).cat = t.cat ∧
      (List.foldl (fun t c => eraserWork c t) t l).fault = t.fault ∧
      (∀ p, (List.foldl (fun t c => eraserWork c t) t l).link p = t.link p) ∧
      (List.foldl (fun t c => eraserWork c t) t l).media.pointer = t.media.pointer ∧
      (List.foldl (fun t c => eraserWork c t) t l).media.slotWait = t.media.slotWait ∧
      (List.foldl (fun t c => eraserWork c t) t l).media.flash = t.media.flash ∧
      (List.foldl (fun t c => eraserWork c t) t l).ret.today = t.ret.today ∧
      (List.foldl (fun t c => eraserWork c t) t l).ret.lastSwept = t.ret.lastSwept ∧
      (List.foldl (fun t c => eraserWork c t) t l).ret.classes = t.ret.classes ∧
      (List.foldl (fun t c => eraserWork c t) t l).ret.holds = t.ret.holds ∧
      (List.foldl (fun t c => eraserWork c t) t l).ret.sweeps = t.ret.sweeps ∧
      (List.foldl (fun t c => eraserWork c t) t l).ret.suspended = t.ret.suspended ∧
      (List.foldl (fun t c => eraserWork c t) t l).ret.lastDay = t.ret.lastDay ∧
      (List.foldl (fun t c => eraserWork c t) t l).ret.lastExtend = t.ret.lastExtend ∧
      (List.foldl (fun t c => eraserWork c t) t l).ret.eraserStopped = t.ret.eraserStopped) := by
    intro l
    induction l with
    | nil => simp
    | cons a l ih => intro t; simp [ih]
  simp only [lookForWork]
  split
  · exact h _ _
  · simp

@[simp] theorem endErase_keeps (c : Nat) (s : State) :
    (endErase c s).pending = s.pending ∧ (endErase c s).powered = s.powered ∧ (endErase c s).second = s.second ∧
    (endErase c s).cursors = s.cursors ∧ (endErase c s).intake = s.intake ∧ (endErase c s).comp = s.comp ∧
    (endErase c s).media = s.media ∧ (endErase c s).audit = s.audit ∧ (endErase c s).cat = s.cat ∧
    (endErase c s).fault = s.fault ∧ (∀ p, (endErase c s).link p = s.link p) ∧
    (endErase c s).ret.today = s.ret.today ∧ (endErase c s).ret.lastSwept = s.ret.lastSwept ∧
    (endErase c s).ret.classes = s.ret.classes ∧ (endErase c s).ret.holds = s.ret.holds ∧
    (endErase c s).ret.sweeps = s.ret.sweeps ∧ (endErase c s).ret.suspended = s.ret.suspended ∧
    (endErase c s).ret.lastDay = s.ret.lastDay ∧ (endErase c s).ret.lastExtend = s.ret.lastExtend ∧
    (endErase c s).ret.eraserStopped = s.ret.eraserStopped := by
  simp [endErase]

@[simp] theorem afterSlots_keeps (s : State) :
    (afterSlots s).pending = s.pending ∧ (afterSlots s).powered = s.powered ∧ (afterSlots s).second = s.second ∧
    (afterSlots s).cursors = s.cursors ∧ (afterSlots s).audit = s.audit ∧
    (afterSlots s).intake.sources = s.intake.sources ∧ (afterSlots s).intake.ageings = s.intake.ageings ∧
    (afterSlots s).comp.headHeld = s.comp.headHeld ∧ (afterSlots s).comp.closesOwed = s.comp.closesOwed ∧
    (afterSlots s).comp.codes = s.comp.codes ∧ (afterSlots s).media.flash = s.media.flash ∧
    (afterSlots s).ret.today = s.ret.today ∧ (afterSlots s).ret.lastSwept = s.ret.lastSwept ∧
    (afterSlots s).ret.classes = s.ret.classes ∧ (afterSlots s).ret.holds = s.ret.holds ∧
    (afterSlots s).ret.sweeps = s.ret.sweeps ∧ (afterSlots s).ret.suspended = s.ret.suspended ∧
    (afterSlots s).ret.lastDay = s.ret.lastDay ∧ (afterSlots s).ret.lastExtend = s.ret.lastExtend ∧
    (afterSlots s).cat.profile = s.cat.profile ∧ (afterSlots s).cat.params = s.cat.params ∧
    (afterSlots s).cat.channel = s.cat.channel ∧ (afterSlots s).cat.last = s.cat.last ∧
    (afterSlots s).cat.newer = s.cat.newer ∧ (afterSlots s).cat.owed = s.cat.owed ∧
    (afterSlots s).cat.owedWaiters = s.cat.owedWaiters ∧ (afterSlots s).cat.load = s.cat.load ∧
    (afterSlots s).cat.pendingFormat = s.cat.pendingFormat ∧ (afterSlots s).cat.formatCounter = s.cat.formatCounter ∧
    (afterSlots s).cat.format = s.cat.format ∧ (∀ p, ((afterSlots s).link p).up = (s.link p).up) ∧
    (∀ p, ((afterSlots s).link p).epoch = (s.link p).epoch) ∧
    (∀ p, ((afterSlots s).link p).outstanding = (s.link p).outstanding) ∧
    (∀ p, ((afterSlots s).link p).sending = (s.link p).sending) ∧
    (∀ p, ((afterSlots s).link p).replyTurn = (s.link p).replyTurn) ∧
    (∀ p, ((afterSlots s).link p).frames = (s.link p).frames) ∧
    (∀ p, ((afterSlots s).link p).line noticeLinkError = (s.link p).line noticeLinkError) ∧
    (∀ p, ((afterSlots s).link p).line noticeFileAborted = (s.link p).line noticeFileAborted) ∧
    (∀ p, ((afterSlots s).link p).line noticeCursorClosed = (s.link p).line noticeCursorClosed) ∧
    (∀ p, ((afterSlots s).link p).line noticeCheckpointDone = (s.link p).line noticeCheckpointDone) ∧
    (∀ p, ((afterSlots s).link p).line noticeHoldChanged = (s.link p).line noticeHoldChanged) ∧
    (∀ p, ((afterSlots s).link p).line noticeFindings = (s.link p).line noticeFindings) := by
  simp [afterSlots]

@[simp] theorem finishErase_keeps (c : Nat) (w : EraseWork) (ok : Bool) (s : State) :
    (finishErase c w ok s).pending = s.pending ∧ (finishErase c w ok s).powered = s.powered ∧
    (finishErase c w ok s).second = s.second ∧ (finishErase c w ok s).cursors = s.cursors ∧
    (finishErase c w ok s).audit = s.audit ∧ (finishErase c w ok s).cat = s.cat ∧
    (finishErase c w ok s).fault = s.fault ∧ (∀ p, (finishErase c w ok s).link p = s.link p) ∧
    (finishErase c w ok s).intake.slots = s.intake.slots ∧ (finishErase c w ok s).intake.closing = s.intake.closing ∧
    (finishErase c w ok s).intake.tally = s.intake.tally ∧
    (finishErase c w ok s).intake.freePages = s.intake.freePages ∧
    (finishErase c w ok s).intake.ageings = s.intake.ageings ∧ (finishErase c w ok s).comp.queue = s.comp.queue ∧
    (finishErase c w ok s).comp.headHeld = s.comp.headHeld ∧ (finishErase c w ok s).comp.builders = s.comp.builders ∧
    (finishErase c w ok s).comp.opening = s.comp.opening ∧ (finishErase c w ok s).comp.stopped = s.comp.stopped ∧
    (finishErase c w ok s).comp.closesOwed = s.comp.closesOwed ∧
    (finishErase c w ok s).media.pointer = s.media.pointer ∧
    (finishErase c w ok s).media.slotWait = s.media.slotWait ∧ (finishErase c w ok s).media.flash = s.media.flash ∧
    (finishErase c w ok s).ret.today = s.ret.today ∧ (finishErase c w ok s).ret.lastSwept = s.ret.lastSwept ∧
    (finishErase c w ok s).ret.classes = s.ret.classes ∧ (finishErase c w ok s).ret.holds = s.ret.holds ∧
    (finishErase c w ok s).ret.sweeps = s.ret.sweeps ∧ (finishErase c w ok s).ret.suspended = s.ret.suspended ∧
    (finishErase c w ok s).ret.lastDay = s.ret.lastDay ∧ (finishErase c w ok s).ret.lastExtend = s.ret.lastExtend ∧
    (finishErase c w ok s).ret.eraserStopped = s.ret.eraserStopped := by
  simp only [finishErase]
  repeat' split
  all_goals simp

@[simp] theorem timeoutErase_keeps (c : Nat) (w : EraseWork) (s : State) :
    (timeoutErase c w s).pending = s.pending ∧ (timeoutErase c w s).powered = s.powered ∧
    (timeoutErase c w s).second = s.second ∧ (timeoutErase c w s).cursors = s.cursors ∧
    (timeoutErase c w s).comp = s.comp ∧ (timeoutErase c w s).media = s.media ∧
    (timeoutErase c w s).audit = s.audit ∧ (timeoutErase c w s).intake.sources = s.intake.sources ∧
    (timeoutErase c w s).intake.ageings = s.intake.ageings ∧ (timeoutErase c w s).ret.today = s.ret.today ∧
    (timeoutErase c w s).ret.lastSwept = s.ret.lastSwept ∧ (timeoutErase c w s).ret.classes = s.ret.classes ∧
    (timeoutErase c w s).ret.holds = s.ret.holds ∧ (timeoutErase c w s).ret.sweeps = s.ret.sweeps ∧
    (timeoutErase c w s).ret.suspended = s.ret.suspended ∧ (timeoutErase c w s).ret.lastDay = s.ret.lastDay ∧
    (timeoutErase c w s).ret.lastExtend = s.ret.lastExtend ∧ (timeoutErase c w s).cat.profile = s.cat.profile ∧
    (timeoutErase c w s).cat.params = s.cat.params ∧ (timeoutErase c w s).cat.channel = s.cat.channel ∧
    (timeoutErase c w s).cat.last = s.cat.last ∧ (timeoutErase c w s).cat.newer = s.cat.newer ∧
    (timeoutErase c w s).cat.owed = s.cat.owed ∧ (timeoutErase c w s).cat.owedWaiters = s.cat.owedWaiters ∧
    (timeoutErase c w s).cat.buffer = s.cat.buffer ∧ (timeoutErase c w s).cat.sharesOk = s.cat.sharesOk ∧
    (timeoutErase c w s).cat.load = s.cat.load ∧ (timeoutErase c w s).cat.pendingFormat = s.cat.pendingFormat ∧
    (timeoutErase c w s).cat.formatCounter = s.cat.formatCounter ∧ (timeoutErase c w s).cat.format = s.cat.format ∧
    (∀ p, ((timeoutErase c w s).link p).up = (s.link p).up) ∧
    (∀ p, ((timeoutErase c w s).link p).epoch = (s.link p).epoch) ∧
    (∀ p, ((timeoutErase c w s).link p).outstanding = (s.link p).outstanding) ∧
    (∀ p, ((timeoutErase c w s).link p).sending = (s.link p).sending) ∧
    (∀ p, ((timeoutErase c w s).link p).replyTurn = (s.link p).replyTurn) ∧
    (∀ p, ((timeoutErase c w s).link p).frames = (s.link p).frames) ∧
    (∀ p, ((timeoutErase c w s).link p).line noticeLinkError = (s.link p).line noticeLinkError) ∧
    (∀ p, ((timeoutErase c w s).link p).line noticeFileAborted = (s.link p).line noticeFileAborted) ∧
    (∀ p, ((timeoutErase c w s).link p).line noticeCursorClosed = (s.link p).line noticeCursorClosed) ∧
    (∀ p, ((timeoutErase c w s).link p).line noticeCheckpointDone = (s.link p).line noticeCheckpointDone) ∧
    (∀ p, ((timeoutErase c w s).link p).line noticeHoldChanged = (s.link p).line noticeHoldChanged) ∧
    (∀ p, ((timeoutErase c w s).link p).line noticeFindings = (s.link p).line noticeFindings) := by
  simp [timeoutErase]

@[simp] theorem completeCheckpoint_keeps (s : State) :
    (completeCheckpoint s).pending = s.pending ∧ (completeCheckpoint s).powered = s.powered ∧
    (completeCheckpoint s).second = s.second ∧ (completeCheckpoint s).cursors = s.cursors ∧
    (completeCheckpoint s).intake = s.intake ∧ (completeCheckpoint s).comp = s.comp ∧
    (completeCheckpoint s).audit = s.audit ∧ (completeCheckpoint s).fault = s.fault ∧
    (completeCheckpoint s).media.pointer = s.media.pointer ∧
    (completeCheckpoint s).media.slotWait = s.media.slotWait ∧ (completeCheckpoint s).media.flash = s.media.flash ∧
    (completeCheckpoint s).ret.today = s.ret.today ∧ (completeCheckpoint s).ret.lastSwept = s.ret.lastSwept ∧
    (completeCheckpoint s).ret.classes = s.ret.classes ∧ (completeCheckpoint s).ret.holds = s.ret.holds ∧
    (completeCheckpoint s).ret.sweeps = s.ret.sweeps ∧ (completeCheckpoint s).ret.suspended = s.ret.suspended ∧
    (completeCheckpoint s).ret.lastDay = s.ret.lastDay ∧ (completeCheckpoint s).ret.lastExtend = s.ret.lastExtend ∧
    (completeCheckpoint s).ret.eraserStopped = s.ret.eraserStopped ∧
    (completeCheckpoint s).cat.archive = s.cat.archive ∧ (completeCheckpoint s).cat.profile = s.cat.profile ∧
    (completeCheckpoint s).cat.params = s.cat.params ∧ (completeCheckpoint s).cat.channel = s.cat.channel ∧
    (completeCheckpoint s).cat.owed = s.cat.owed ∧ (completeCheckpoint s).cat.owedWaiters = s.cat.owedWaiters ∧
    (completeCheckpoint s).cat.load = s.cat.load ∧ (completeCheckpoint s).cat.pendingFormat = s.cat.pendingFormat ∧
    (completeCheckpoint s).cat.formatCounter = s.cat.formatCounter ∧
    (completeCheckpoint s).cat.format = s.cat.format ∧ (∀ p, ((completeCheckpoint s).link p).up = (s.link p).up) ∧
    (∀ p, ((completeCheckpoint s).link p).epoch = (s.link p).epoch) ∧
    (∀ p, ((completeCheckpoint s).link p).outstanding = (s.link p).outstanding) ∧
    (∀ p, ((completeCheckpoint s).link p).sending = (s.link p).sending) ∧
    (∀ p, ((completeCheckpoint s).link p).replyTurn = (s.link p).replyTurn) ∧
    (∀ p, ((completeCheckpoint s).link p).frames = (s.link p).frames) ∧
    (∀ p, ((completeCheckpoint s).link p).line noticeLinkError = (s.link p).line noticeLinkError) ∧
    (∀ p, ((completeCheckpoint s).link p).line noticeFileAborted = (s.link p).line noticeFileAborted) ∧
    (∀ p, ((completeCheckpoint s).link p).line noticeCursorClosed = (s.link p).line noticeCursorClosed) ∧
    (∀ p, ((completeCheckpoint s).link p).line noticeHoldChanged = (s.link p).line noticeHoldChanged) ∧
    (∀ p, ((completeCheckpoint s).link p).line noticeFindings = (s.link p).line noticeFindings) ∧
    (∀ p, ((completeCheckpoint s).link p).line noticeFault = (s.link p).line noticeFault) ∧
    (∀ p, ((completeCheckpoint s).link p).line noticeHalted = (s.link p).line noticeHalted) := by
  simp [completeCheckpoint]

@[simp] theorem takeOwed_keeps (s : State) :
    (takeOwed s).pending = s.pending ∧ (takeOwed s).powered = s.powered ∧ (takeOwed s).second = s.second ∧
    (takeOwed s).cursors = s.cursors ∧ (takeOwed s).audit = s.audit ∧
    (takeOwed s).intake.sources = s.intake.sources ∧ (takeOwed s).intake.ageings = s.intake.ageings ∧
    (takeOwed s).comp.headHeld = s.comp.headHeld ∧ (takeOwed s).comp.closesOwed = s.comp.closesOwed ∧
    (takeOwed s).comp.codes = s.comp.codes ∧ (takeOwed s).media.flash = s.media.flash ∧
    (takeOwed s).ret.today = s.ret.today ∧ (takeOwed s).ret.lastSwept = s.ret.lastSwept ∧
    (takeOwed s).ret.classes = s.ret.classes ∧ (takeOwed s).ret.holds = s.ret.holds ∧
    (takeOwed s).ret.sweeps = s.ret.sweeps ∧ (takeOwed s).ret.suspended = s.ret.suspended ∧
    (takeOwed s).ret.lastDay = s.ret.lastDay ∧ (takeOwed s).ret.lastExtend = s.ret.lastExtend ∧
    (takeOwed s).ret.erasing = s.ret.erasing ∧ (takeOwed s).cat.profile = s.cat.profile ∧
    (takeOwed s).cat.params = s.cat.params ∧ (takeOwed s).cat.channel = s.cat.channel ∧
    (takeOwed s).cat.last = s.cat.last ∧ (takeOwed s).cat.newer = s.cat.newer ∧ (takeOwed s).cat.load = s.cat.load ∧
    (takeOwed s).cat.pendingFormat = s.cat.pendingFormat ∧ (takeOwed s).cat.formatCounter = s.cat.formatCounter ∧
    (takeOwed s).cat.format = s.cat.format ∧ (∀ p, ((takeOwed s).link p).up = (s.link p).up) ∧
    (∀ p, ((takeOwed s).link p).epoch = (s.link p).epoch) ∧
    (∀ p, ((takeOwed s).link p).outstanding = (s.link p).outstanding) ∧
    (∀ p, ((takeOwed s).link p).sending = (s.link p).sending) ∧
    (∀ p, ((takeOwed s).link p).replyTurn = (s.link p).replyTurn) ∧
    (∀ p, ((takeOwed s).link p).frames = (s.link p).frames) ∧
    (∀ p, ((takeOwed s).link p).line noticeLinkError = (s.link p).line noticeLinkError) ∧
    (∀ p, ((takeOwed s).link p).line noticeFileAborted = (s.link p).line noticeFileAborted) ∧
    (∀ p, ((takeOwed s).link p).line noticeCursorClosed = (s.link p).line noticeCursorClosed) ∧
    (∀ p, ((takeOwed s).link p).line noticeCheckpointDone = (s.link p).line noticeCheckpointDone) ∧
    (∀ p, ((takeOwed s).link p).line noticeHoldChanged = (s.link p).line noticeHoldChanged) ∧
    (∀ p, ((takeOwed s).link p).line noticeFindings = (s.link p).line noticeFindings) := by
  simp only [takeOwed]
  repeat' split
  all_goals simp

@[simp] theorem beginHead_keeps (s : State) :
    (beginHead s).pending = s.pending ∧ (beginHead s).powered = s.powered ∧ (beginHead s).second = s.second ∧
    (beginHead s).cursors = s.cursors ∧ (beginHead s).intake = s.intake ∧ (beginHead s).comp = s.comp ∧
    (beginHead s).media = s.media ∧ (beginHead s).audit = s.audit ∧ (beginHead s).cat = s.cat ∧
    (beginHead s).fault = s.fault ∧ (∀ p, (beginHead s).link p = s.link p) ∧ (beginHead s).ret.today = s.ret.today ∧
    (beginHead s).ret.lastSwept = s.ret.lastSwept ∧ (beginHead s).ret.classes = s.ret.classes ∧
    (beginHead s).ret.sweeps = s.ret.sweeps ∧ (beginHead s).ret.suspended = s.ret.suspended ∧
    (beginHead s).ret.lastDay = s.ret.lastDay ∧ (beginHead s).ret.lastExtend = s.ret.lastExtend ∧
    (beginHead s).ret.eraserStopped = s.ret.eraserStopped ∧ (beginHead s).ret.erasing = s.ret.erasing := by
  simp only [beginHead]
  repeat' split
  all_goals simp

@[simp] theorem pushSweep_keeps (k : SweepKind) (rs : List ReqRef) (s : State) :
    (pushSweep k rs s).pending = s.pending ∧ (pushSweep k rs s).powered = s.powered ∧
    (pushSweep k rs s).second = s.second ∧ (pushSweep k rs s).cursors = s.cursors ∧
    (pushSweep k rs s).intake = s.intake ∧ (pushSweep k rs s).comp = s.comp ∧ (pushSweep k rs s).media = s.media ∧
    (pushSweep k rs s).audit = s.audit ∧ (pushSweep k rs s).cat = s.cat ∧ (pushSweep k rs s).fault = s.fault ∧
    (∀ p, (pushSweep k rs s).link p = s.link p) ∧ (pushSweep k rs s).ret.today = s.ret.today ∧
    (pushSweep k rs s).ret.lastSwept = s.ret.lastSwept ∧ (pushSweep k rs s).ret.classes = s.ret.classes ∧
    (pushSweep k rs s).ret.suspended = s.ret.suspended ∧ (pushSweep k rs s).ret.lastDay = s.ret.lastDay ∧
    (pushSweep k rs s).ret.lastExtend = s.ret.lastExtend ∧
    (pushSweep k rs s).ret.eraserStopped = s.ret.eraserStopped ∧ (pushSweep k rs s).ret.erasing = s.ret.erasing := by
  simp only [pushSweep]
  repeat' split
  all_goals simp

@[simp] theorem popSweep_keeps (s : State) :
    (popSweep s).pending = s.pending ∧ (popSweep s).powered = s.powered ∧ (popSweep s).second = s.second ∧
    (popSweep s).cursors = s.cursors ∧ (popSweep s).intake = s.intake ∧ (popSweep s).comp = s.comp ∧
    (popSweep s).media = s.media ∧ (popSweep s).audit = s.audit ∧ (popSweep s).cat = s.cat ∧
    (popSweep s).fault = s.fault ∧ (∀ p, (popSweep s).link p = s.link p) ∧ (popSweep s).ret.today = s.ret.today ∧
    (popSweep s).ret.lastSwept = s.ret.lastSwept ∧ (popSweep s).ret.classes = s.ret.classes ∧
    (popSweep s).ret.lastDay = s.ret.lastDay ∧ (popSweep s).ret.lastExtend = s.ret.lastExtend ∧
    (popSweep s).ret.eraserStopped = s.ret.eraserStopped ∧ (popSweep s).ret.erasing = s.ret.erasing := by
  simp [popSweep]

@[simp] theorem setHead_keeps (w : Sweep) (s : State) :
    (setHead w s).pending = s.pending ∧ (setHead w s).powered = s.powered ∧ (setHead w s).second = s.second ∧
    (setHead w s).cursors = s.cursors ∧ (setHead w s).intake = s.intake ∧ (setHead w s).comp = s.comp ∧
    (setHead w s).media = s.media ∧ (setHead w s).audit = s.audit ∧ (setHead w s).cat = s.cat ∧
    (setHead w s).fault = s.fault ∧ (∀ p, (setHead w s).link p = s.link p) ∧ (setHead w s).ret.today = s.ret.today ∧
    (setHead w s).ret.lastSwept = s.ret.lastSwept ∧ (setHead w s).ret.classes = s.ret.classes ∧
    (setHead w s).ret.holds = s.ret.holds ∧ (setHead w s).ret.suspended = s.ret.suspended ∧
    (setHead w s).ret.lastDay = s.ret.lastDay ∧ (setHead w s).ret.lastExtend = s.ret.lastExtend ∧
    (setHead w s).ret.eraserStopped = s.ret.eraserStopped ∧ (setHead w s).ret.erasing = s.ret.erasing := by
  simp [setHead]

@[simp] theorem endDay_keeps (w : Sweep) (s : State) :
    (endDay w s).pending = s.pending ∧ (endDay w s).powered = s.powered ∧ (endDay w s).second = s.second ∧
    (endDay w s).cursors = s.cursors ∧ (endDay w s).audit = s.audit ∧
    (endDay w s).intake.sources = s.intake.sources ∧ (endDay w s).intake.ageings = s.intake.ageings ∧
    (endDay w s).comp.headHeld = s.comp.headHeld ∧ (endDay w s).comp.closesOwed = s.comp.closesOwed ∧
    (endDay w s).comp.codes = s.comp.codes ∧ (endDay w s).media.flash = s.media.flash ∧
    (endDay w s).ret.today = s.ret.today ∧ (endDay w s).ret.classes = s.ret.classes ∧
    (endDay w s).ret.lastExtend = s.ret.lastExtend ∧ (endDay w s).ret.erasing = s.ret.erasing ∧
    (endDay w s).cat.profile = s.cat.profile ∧ (endDay w s).cat.params = s.cat.params ∧
    (endDay w s).cat.channel = s.cat.channel ∧ (endDay w s).cat.last = s.cat.last ∧
    (endDay w s).cat.newer = s.cat.newer ∧ (endDay w s).cat.load = s.cat.load ∧
    (endDay w s).cat.pendingFormat = s.cat.pendingFormat ∧ (endDay w s).cat.formatCounter = s.cat.formatCounter ∧
    (endDay w s).cat.format = s.cat.format ∧ (∀ p, ((endDay w s).link p).up = (s.link p).up) ∧
    (∀ p, ((endDay w s).link p).epoch = (s.link p).epoch) ∧
    (∀ p, ((endDay w s).link p).outstanding = (s.link p).outstanding) ∧
    (∀ p, ((endDay w s).link p).sending = (s.link p).sending) ∧
    (∀ p, ((endDay w s).link p).replyTurn = (s.link p).replyTurn) ∧
    (∀ p, ((endDay w s).link p).frames = (s.link p).frames) ∧
    (∀ p, ((endDay w s).link p).line noticeLinkError = (s.link p).line noticeLinkError) ∧
    (∀ p, ((endDay w s).link p).line noticeFileAborted = (s.link p).line noticeFileAborted) ∧
    (∀ p, ((endDay w s).link p).line noticeCursorClosed = (s.link p).line noticeCursorClosed) ∧
    (∀ p, ((endDay w s).link p).line noticeCheckpointDone = (s.link p).line noticeCheckpointDone) ∧
    (∀ p, ((endDay w s).link p).line noticeHoldChanged = (s.link p).line noticeHoldChanged) ∧
    (∀ p, ((endDay w s).link p).line noticeFindings = (s.link p).line noticeFindings) := by
  simp [endDay]

@[simp] theorem endExtend_keeps (c : Nat) (w : Sweep) (s : State) :
    (endExtend c w s).pending = s.pending ∧ (endExtend c w s).powered = s.powered ∧
    (endExtend c w s).second = s.second ∧ (endExtend c w s).cursors = s.cursors ∧ (endExtend c w s).audit = s.audit ∧
    (endExtend c w s).intake.sources = s.intake.sources ∧ (endExtend c w s).intake.ageings = s.intake.ageings ∧
    (endExtend c w s).comp.headHeld = s.comp.headHeld ∧ (endExtend c w s).comp.closesOwed = s.comp.closesOwed ∧
    (endExtend c w s).comp.codes = s.comp.codes ∧ (endExtend c w s).media.flash = s.media.flash ∧
    (endExtend c w s).ret.today = s.ret.today ∧ (endExtend c w s).ret.lastSwept = s.ret.lastSwept ∧
    (endExtend c w s).ret.lastDay = s.ret.lastDay ∧ (endExtend c w s).cat.profile = s.cat.profile ∧
    (endExtend c w s).cat.params = s.cat.params ∧ (endExtend c w s).cat.channel = s.cat.channel ∧
    (endExtend c w s).cat.last = s.cat.last ∧ (endExtend c w s).cat.newer = s.cat.newer ∧
    (endExtend c w s).cat.load = s.cat.load ∧ (endExtend c w s).cat.pendingFormat = s.cat.pendingFormat ∧
    (endExtend c w s).cat.formatCounter = s.cat.formatCounter ∧ (endExtend c w s).cat.format = s.cat.format ∧
    (∀ p, ((endExtend c w s).link p).up = (s.link p).up) ∧
    (∀ p, ((endExtend c w s).link p).epoch = (s.link p).epoch) ∧
    (∀ p, ((endExtend c w s).link p).outstanding = (s.link p).outstanding) ∧
    (∀ p, ((endExtend c w s).link p).sending = (s.link p).sending) ∧
    (∀ p, ((endExtend c w s).link p).replyTurn = (s.link p).replyTurn) ∧
    (∀ p, ((endExtend c w s).link p).frames = (s.link p).frames) ∧
    (∀ p, ((endExtend c w s).link p).line noticeLinkError = (s.link p).line noticeLinkError) ∧
    (∀ p, ((endExtend c w s).link p).line noticeFileAborted = (s.link p).line noticeFileAborted) ∧
    (∀ p, ((endExtend c w s).link p).line noticeCursorClosed = (s.link p).line noticeCursorClosed) ∧
    (∀ p, ((endExtend c w s).link p).line noticeCheckpointDone = (s.link p).line noticeCheckpointDone) ∧
    (∀ p, ((endExtend c w s).link p).line noticeHoldChanged = (s.link p).line noticeHoldChanged) ∧
    (∀ p, ((endExtend c w s).link p).line noticeFindings = (s.link p).line noticeFindings) := by
  simp only [endExtend]
  repeat' split
  all_goals simp

/-- A write of an entry that keeps its state and its slot leaves what will become CLEAN. -/
theorem willBecomeClean_setEntry (s : State) (k : Nat) (v : DirEntry) (h : v ≠ {})
    (hs : v.state = (s.entry k).state) (hr : v.slot = (s.entry k).slot) :
    (s.setEntry k v).willBecomeClean = s.willBecomeClean := by
  have hd : ∀ f : Option SlotRef → Bool, (s.setEntry k v).media.dir.any (fun e => isLeaving e.2 && f e.2.slot) =
      s.media.dir.any (fun e => isLeaving e.2 && f e.2.slot) := by
    intro f
    simp only [State.setEntry, Tbl.set, if_neg h]
    apply Tbl.any_put (fun e => isLeaving e && f e.slot) {}
    · simp only [isLeaving, hs, hr]
      rfl
    · rfl
  unfold State.willBecomeClean
  rw [hd]
  rfl

/-- A write of an entry that keeps its state and its slot leaves what will become FREE. -/
theorem willBecomeFree_setEntry (s : State) (k : Nat) (v : DirEntry) (h : v ≠ {})
    (hs : v.state = (s.entry k).state) (hr : v.slot = (s.entry k).slot) :
    (s.setEntry k v).willBecomeFree = s.willBecomeFree := by
  simp only [State.willBecomeFree, State.setEntry, Tbl.set, if_neg h]
  apply Tbl.any_put (fun e => isLeaving e && s.slotOn (fun m => m != .offline) e.slot) {}
  · simp only [isLeaving, hs, hr]
    rfl
  · rfl

end Sys2Proof.Machine
end

