-- ==== Sys2Proof/Laws/Openings.lean ====
section
/-!
SUPPORT. Laws/Openings.lean: what SPACE-EXHAUSTED can do to compaction, to a checkpoint and to the replies waiting, and all that
the test of an opening can do once a sweep has handled an entry.
-/

namespace Sys2Proof.Machine
open Sys2Proof

/-! ### Replies are only added -/

theorem answer_replies_prefix (r : ReqRef) (st : Status) (body : List Byte) (s : State) (p : Port) :
    (s.link p).replies <+: ((answer r st body s).link p).replies := by
  rw [answer_replies]
  exact List.prefix_append _ _

theorem answerWaiter_replies_prefix (d : Bool) (w : Waiter) (s : State) (p : Port) :
    (s.link p).replies <+: ((answerWaiter d w s).link p).replies := by
  have h : ∀ (c x : Nat) (t : State), ((raiseBoth c x t).link p).replies = (t.link p).replies := fun c x t => by simp
  simp only [answerWaiter]
  repeat' split
  all_goals simp only [h, List.prefix_rfl, answer_replies_prefix]

theorem answerWaiters_replies_prefix (d : Bool) (ws : List Waiter) (s : State) (p : Port) :
    (s.link p).replies <+: ((answerWaiters d ws s).link p).replies := by
  unfold answerWaiters
  induction ws generalizing s with
  | nil => exact List.prefix_rfl
  | cons w ws ih => exact (answerWaiter_replies_prefix d w s p).trans (ih _)

theorem haltClose_replies_prefix (k : Nat) (s : State) (p : Port) :
    (s.link p).replies <+: ((haltClose k s).link p).replies := by
  have h : ∀ t : State, ((abortSlot k t).link p).replies = (t.link p).replies := by
    intro t
    simp only [abortSlot, leaveFlight, State.changeTally]
    split <;> rfl
  simp only [haltClose, h]
  split
  · exact List.prefix_rfl
  · exact answer_replies_prefix ..

theorem enterHalted_replies_prefix (s : State) (p : Port) :
    (s.link p).replies <+: ((enterHalted s).link p).replies := by
  have h : ∀ (l : List Nat) (t : State),
      (t.link p).replies <+: ((l.foldl (fun t k => haltClose k t) t).link p).replies := by
    intro l
    induction l with
    | nil => exact fun _ => List.prefix_rfl
    | cons k l ih => exact fun t => (haltClose_replies_prefix k t p).trans (ih _)
  exact h _ { s with cat := { s.cat with archive := .halted } }

/-- A part that has entered HALTED is HALTED. -/
theorem enterHalted_archive (s : State) : (enterHalted s).cat.archive = .halted := by
  have h : ∀ (l : List Nat) (t : State), (l.foldl (fun t k => haltClose k t) t).cat = t.cat := by
    intro l
    induction l with
    | nil => exact fun _ => rfl
    | cons k l ih => intro t; simp [ih]
  simp [enterHalted, h]

/-- A waiter that is live is answered, whatever else its checkpoint's end answers. -/
theorem answerWaiters_mem {d : Bool} {ws : List Waiter} {w : Waiter} {r : ReqRef} {s : State} (hw : w ∈ ws)
    (hr : w.req = some r) (hl : s.isLive r = true) (hn : w.number = false) :
    replyTo r.tag r.kind (if d then .ok else .notDurable) (if d then w.okBody else w.failBody) ∈
      ((answerWaiters d ws s).link r.port).replies := by
  induction ws generalizing s with
  | nil => cases hw
  | cons v ws ih =>
    have hs : answerWaiters d (v :: ws) s = answerWaiters d ws (answerWaiter d v s) := rfl
    rw [hs]
    rcases List.mem_cons.mp hw with rfl | hw
    · refine (answerWaiters_replies_prefix ..).subset ?_
      simp only [answerWaiter, hr, hn, Bool.false_eq_true, if_false]
      split
      · exact answer_mem hl _ _
      · rw [(raiseBoth_link _ _ _ _).2.2.2.2.2.2]
        exact answer_mem hl _ _
    · exact ih hw ((isLive_congr r (by simp)).trans hl)

/-- An engine that stops takes no reply away. -/
theorem stopEngine_replies_prefix (e : Engine) (s : State) (p : Port) :
    (s.link p).replies <+: ((stopEngine e s).link p).replies := by
  cases e
  · simp only [stopEngine, stopCompaction, abandonCheckpoint]
    split
    · refine List.IsPrefix.trans ?_ (answerWaiters_replies_prefix _ _ _ _)
      exact List.prefix_rfl
    · exact List.prefix_rfl
  all_goals exact List.prefix_rfl

/-- A fault, and the halt it may bring, take no reply away. -/
theorem raiseFault_replies_prefix (f : FaultInfo) (s : State) (p : Port) :
    (s.link p).replies <+: ((raiseFault f s).link p).replies := by
  have h : ∀ (c x : Nat) (t : State), ((raiseBoth c x t).link p).replies = (t.link p).replies := fun c x t => by simp
  simp only [raiseFault]
  split
  · exact List.prefix_rfl
  split
  · refine List.IsPrefix.trans ?_ (enterHalted_replies_prefix _ p)
    rw [h]
    refine List.IsPrefix.trans ?_ (stopEngine_replies_prefix _ _ _)
    exact List.prefix_rfl
  · rw [h]
    refine List.IsPrefix.trans ?_ (stopEngine_replies_prefix _ _ _)
    simp only [State.setContextOf]
    split <;> exact List.prefix_rfl

/-! ### SPACE-EXHAUSTED (R70, R170, R184, R185) -/

/-- In SERVICE, SPACE-EXHAUSTED stops compaction; it is HELD in the General Fault Context, or halts the part where that
context is HELD already; a checkpoint QUIESCING is abandoned, and every live waiter of it answered NOT-DURABLE. -/
theorem raiseFault_spaceExhausted (e : Option Nat) (s : State) (ha : s.cat.archive = .service) :
    (raiseFault (spaceExhausted e) s).comp = { s.comp with stopped := true } ∧
      (s.fault.general.isHeld = false →
        (raiseFault (spaceExhausted e) s).fault.general = .held s.fault.counter (spaceExhausted e)) ∧
      (s.fault.general.isHeld = true → (raiseFault (spaceExhausted e) s).cat.archive = .halted) ∧
      (s.cat.state = .quiescing → (raiseFault (spaceExhausted e) s).cat.state = .idle) := by
  by_cases hq : s.cat.state = .quiescing <;> cases hg : s.fault.general.isHeld <;>
    simp [raiseFault, ha, hg, hq, spaceExhausted, engineOf, isMediaKind, State.contextOf, State.setContextOf, stopEngine,
      stopCompaction, takeFaultNumber, enterHalted_archive, abandonCheckpoint]

/-- A checkpoint QUIESCING that SPACE-EXHAUSTED abandons: each live waiter of it is answered NOT-DURABLE. -/
theorem raiseFault_spaceExhausted_answers (e : Option Nat) {s : State} (ha : s.cat.archive = .service)
    (hq : s.cat.state = .quiescing) {w : Waiter} {r : ReqRef} (hw : w ∈ s.cat.waiters) (hr : w.req = some r)
    (hl : s.isLive r = true) (hn : w.number = false) :
    replyTo r.tag r.kind .notDurable w.failBody ∈ ((raiseFault (spaceExhausted e) s).link r.port).replies := by
  have h : ∀ t : State, t.cat.waiters = s.cat.waiters → (t.link r.port).epoch = (s.link r.port).epoch →
      replyTo r.tag r.kind .notDurable w.failBody ∈ ((abandonCheckpoint t).link r.port).replies := by
    intro t ht he
    exact answerWaiters_mem (d := false) (ht ▸ hw) hr ((isLive_congr r he).trans hl) hn
  cases hg : s.fault.general.isHeld
  · simp [raiseFault, ha, hg, hq, spaceExhausted, State.contextOf, State.setContextOf, stopEngine, stopCompaction,
      takeFaultNumber]
    exact h _ rfl rfl
  · simp only [raiseFault, ha, spaceExhausted, State.contextOf, isMediaKind_kinds, engineOf_kinds,
      Bool.false_eq_true, hg, stopEngine, stopCompaction, takeFaultNumber, hq, ne_eq, not_true_eq_false, if_false, if_true]
    refine (enterHalted_replies_prefix _ _).subset ?_
    rw [(raiseBoth_link _ _ _ _).2.2.2.2.2.2]
    exact h _ rfl rfl

/-! ### The test of an opening (R61, R184) -/

/-- A directory whose every entry is in use gives no FREE entry. -/
theorem freeEntryNumber_none {s : State} (hr : Tbl.rising s.media.dir = true)
    (h : ∀ n, n < 65536 → (s.entry n).state ≠ .free) : s.freeEntryNumber = none := by
  cases hf : s.freeEntryNumber with
  | none => rfl
  | some k =>
    obtain ⟨-, hk, hm⟩ := Tbl.nextFrom_spec _ _ _ hr hf
    have he := h k hk
    rw [State.entry, Tbl.get] at he
    split at hm <;> rename_i hv <;> simp_all

/-- A directory with no entry EXPIRED or ERASING holds none that will become FREE. -/
theorem willBecomeFree_false {s : State} (hr : Tbl.rising s.media.dir = true)
    (h : ∀ n, isLeaving (s.entry n) = false) : s.willBecomeFree = false := by
  rw [State.willBecomeFree, List.any_eq_false]
  rintro ⟨k, v⟩ hm
  have he := h k
  rw [State.entry, Tbl.get, Tbl.find_of_mem hr hm] at he
  simp_all

/-- The test raises SPACE-EXHAUSTED where the opening starves, and otherwise changes nothing. -/
theorem testOpening_eq {s u : State} (ha : u.cat.archive = .service) (hc : u.comp = s.comp) [Decidable (s.openingStarves u)] :
    testOpening u =
      if s.openingStarves u then raiseFault (spaceExhausted none) (setOpening (some .held) u) else u := by
  have hd : (u.compacting && decide (u.comp.opening = some .entry) && u.freeEntryNumber.isNone && !u.willBecomeFree) = true ↔
      s.openingStarves u := by
    simp [State.openingStarves, State.compacting, State.inService, ha, hc, and_assoc, and_left_comm]
  simp only [testOpening, hd]

/-- The test takes no reply away. -/
theorem testOpening_replies_prefix (s : State) (p : Port) :
    (s.link p).replies <+: ((testOpening s).link p).replies := by
  simp only [testOpening]
  split
  · exact raiseFault_replies_prefix _ (setOpening (some .held) s) p
  · exact List.prefix_rfl

/-- What stands once a sweep has handled an entry in `u`, the opening of `s` standing as it was. -/
theorem testOpening_tested {s u : State} (ha : u.cat.archive = .service) (hc : u.comp = s.comp) (hf : u.fault = s.fault) :
    s.openingTested (transmitBoth (testOpening u)) := by
  classical
  have hs : s.openingStarves (transmitBoth (testOpening u)) ↔ s.openingStarves u := by
    have hm : (transmitBoth (testOpening u)).media = u.media := by simp
    simp only [State.openingStarves, State.freeEntryNumber, State.willBecomeFree, State.slotOn, State.channel, hm]
  simp only [State.openingTested, hs, (transmitBoth_keeps _).2.2.2.2.2.1, (transmitBoth_keeps _).2.2.2.2.2.2.2.2.2.2.1,
    (transmitBoth_keeps _).2.2.2.2.2.2.2.2.2.2.2.1]
  by_cases h : s.openingStarves u
  · obtain ⟨h1, h2, h3, -⟩ := raiseFault_spaceExhausted none (setOpening (some .held) u) ha
    rw [testOpening_eq ha hc, if_pos h]
    refine ⟨fun _ => ⟨h1.trans ?_, fun hg => ?_, fun hg => ?_⟩, fun hn => absurd h hn⟩
    · simp [setOpening, hc]
    · simpa [setOpening, hf, spaceExhausted] using h2 (by simpa [setOpening, hf] using hg)
    · exact h3 (by simpa [setOpening, hf] using hg)
  · rw [testOpening_eq ha hc, if_neg h]
    exact ⟨fun hp => absurd hp h, fun _ => ⟨hc, hf⟩⟩

/-- The test of an opening that starves while a checkpoint is QUIESCING abandons that checkpoint, and its live waiters are
answered NOT-DURABLE. -/
theorem testOpening_abandons {s u : State} (ha : u.cat.archive = .service) (hc : u.comp = s.comp)
    (hq : u.cat.state = .quiescing) (hs : s.openingStarves u) :
    (transmitBoth (testOpening u)).cat.state = .idle ∧
      ∀ w ∈ u.cat.waiters, ∀ r, w.req = some r → u.isLive r = true → w.number = false →
        (transmitBoth (testOpening u)).replied r.port (replyTo r.tag r.kind .notDurable w.failBody) = true := by
  classical
  rw [testOpening_eq ha hc, if_pos hs]
  exact ⟨(raiseFault_spaceExhausted none (setOpening (some .held) u) ha).2.2.2 hq, fun w hw r hr hl hn =>
    replied_of_mem (raiseFault_spaceExhausted_answers none (s := setOpening (some .held) u) ha hq hw hr hl hn)⟩

end Sys2Proof.Machine
end

