-- ==== Sys2Proof/Laws/Queues.lean ====
section
/-!
SUPPORT. Laws/Queues.lean: which operations stand asked of a channel once one is asked, or ends.
-/

namespace Sys2Proof.Machine
open Sys2Proof

/-! ### One channel (R95, R96) -/

/-- An operation that joins a queue is in it, and nothing else changes there. -/
theorem Channel.join_perm (ch : Channel) (op : Op) :
    (ch.join op).queue.Perm (op :: ch.queue) ∧ (ch.join op).outside = ch.outside := by
  simp only [Channel.join]
  split
  · refine ⟨?_, rfl⟩
    generalize (if ch.started.isSome = true then 1 else 0) = n
    have h : (ch.queue.take n ++ (ch.queue.drop n).takeWhile Op.isCatalogWrite ++
        (ch.queue.drop n).dropWhile Op.isCatalogWrite) = ch.queue := by
      rw [List.append_assoc, List.takeWhile_append_dropWhile, List.take_append_drop]
    exact List.perm_middle.trans (by rw [h])
  · exact ⟨List.perm_append_singleton _ _, rfl⟩

/-- The operation in progress stays at the head of the queue. -/
theorem Channel.join_head (ch : Channel) (op : Op) (h : ch.started.isSome = true) {o : Op} {q : List Op}
    (hq : ch.queue = o :: q) : ∃ q', (ch.join op).queue = o :: q' ∧ (ch.join op).started = ch.started := by
  simp only [Channel.join, h, if_true, hq]
  split <;> simp

/-- Asking an operation adds it, in the queue or outside. -/
theorem Channel.ask_perm (ch : Channel) (op : Op) :
    ((ch.ask op).queue ++ (ch.ask op).outside).Perm (op :: (ch.queue ++ ch.outside)) := by
  simp only [Channel.ask]
  split
  · rw [(ch.join_perm op).2]
    exact (ch.join_perm op).1.append_right _
  · rw [← List.append_assoc]
    exact List.perm_append_singleton _ _

/-- A place taken from outside leaves what is asked as it is. -/
theorem Channel.refillOne_perm (ch : Channel) :
    (ch.refillOne.queue ++ ch.refillOne.outside).Perm (ch.queue ++ ch.outside) := by
  simp only [Channel.refillOne]
  split
  · split
    · rename_i op hop
      rw [(Channel.join_perm _ op).2]
      obtain ⟨-, as, bs, he, hn⟩ := List.find?_eq_some_iff_append.mp hop
      have hp : Op.isCatalogWrite op = true := List.find?_some hop
      have hd : ch.outside.eraseP Op.isCatalogWrite = as ++ bs := by
        rw [he, List.eraseP_append_right _ (fun b hb => by simpa using hn b hb), List.eraseP_cons_of_pos hp]
      refine ((Channel.join_perm _ op).1.append_right _).trans ?_
      rw [hd, he]
      refine List.Perm.trans ?_ (List.perm_middle.symm.append_left ch.queue)
      exact List.perm_middle.symm
    · split
      · exact List.Perm.refl _
      · rename_i op rest he
        rw [(Channel.join_perm _ op).2]
        refine ((Channel.join_perm _ op).1.append_right _).trans ?_
        rw [he]
        exact List.perm_middle.symm
  · exact List.Perm.refl _

theorem Channel.refill_perm (ch : Channel) :
    (ch.refill.queue ++ ch.refill.outside).Perm (ch.queue ++ ch.outside) := by
  unfold Channel.refill
  generalize List.range ch.outside.length = l
  induction l generalizing ch with
  | nil => exact List.Perm.refl _
  | cons a l ih => exact (ih ch.refillOne).trans ch.refillOne_perm

/-! ### The part -/

theorem startNext_channel (c d : Nat) (s : State) :
    ((startNext c s).channel d).queue = (s.channel d).queue ∧ ((startNext c s).channel d).outside = (s.channel d).outside := by
  simp only [startNext]
  split
  · by_cases h : d = c
    · subst h; simp
    · simp [State.setChannel_channel_ne _ _ _ h]
  · exact ⟨rfl, rfl⟩

theorem startNext_channel_ne {c d : Nat} (h : d ≠ c) (s : State) : (startNext c s).channel d = s.channel d := by
  simp only [startNext]
  split
  · exact State.setChannel_channel_ne _ _ _ h
  · rfl

@[simp] theorem startNext_asked (c d : Nat) (s : State) : (startNext c s).asked d = s.asked d := by
  simp only [State.asked, startNext_channel]

/-- Asking an operation adds it to its channel, and to no other. -/
theorem askOp_asked (c : Nat) (op : Op) (s : State) :
    ((askOp c op s).asked c).Perm (op :: s.asked c) ∧ ∀ d, d ≠ c → (askOp c op s).channel d = s.channel d := by
  refine ⟨?_, fun d h => ?_⟩
  · rw [askOp, startNext_asked, State.asked, State.setChannel_channel_same]
    exact Channel.ask_perm _ _
  · rw [askOp, startNext_channel_ne h, State.setChannel_channel_ne _ _ _ h]

/-- What is asked once is asked still. -/
theorem askOp_asked_mono (c : Nat) (op : Op) {s : State} {d : Nat} {o : Op} (h : o ∈ s.asked d) :
    o ∈ (askOp c op s).asked d := by
  by_cases hd : d = c
  · subst hd
    exact (askOp_asked d op s).1.mem_iff.mpr (List.mem_cons_of_mem _ h)
  · rw [State.asked, (askOp_asked c op s).2 d hd]
    exact h

theorem askOp_mem (c : Nat) (op : Op) (s : State) : op ∈ (askOp c op s).asked c :=
  (askOp_asked c op s).1.mem_iff.mpr List.mem_cons_self

/-- An operation that ends leaves its channel, and no other. -/
theorem endOp_asked (c : Nat) (s : State) :
    ((endOp c s).asked c).Perm ((s.channel c).queue.tail ++ (s.channel c).outside) ∧
      ∀ d, d ≠ c → (endOp c s).channel d = s.channel d := by
  refine ⟨?_, fun d h => by rw [endOp, State.setChannel_channel_ne _ _ _ h]⟩
  simp only [endOp, State.asked, State.setChannel_channel_same]
  split
  · exact Channel.refill_perm _
  · exact List.Perm.refl _

/-- Asking leaves the operation in progress where it is. -/
theorem askOp_current {c d : Nat} {op o : Op} {s : State} (h : s.inProgress d o = true) :
    (askOp c op s).inProgress d o = true := by
  have hc : (s.channel d).current = some o := by simpa [State.inProgress] using h
  simp only [State.inProgress, decide_eq_true_eq]
  by_cases hd : d = c
  · subst hd
    simp only [Channel.current] at hc
    split at hc
    · rename_i hs
      obtain ⟨q, hq⟩ : ∃ q, (s.channel d).queue = o :: q := by
        cases hq : (s.channel d).queue with
        | nil => simp [hq] at hc
        | cons a q => simp only [hq, List.head?_cons, Option.some.injEq] at hc; exact ⟨q, by rw [hc]⟩
      have hk : ∃ q', ((s.channel d).ask op).queue = o :: q' ∧ ((s.channel d).ask op).started = (s.channel d).started := by
        simp only [Channel.ask]
        split
        · exact (s.channel d).join_head op hs hq
        · exact ⟨q, hq, rfl⟩
      obtain ⟨q', h1, h2⟩ := hk
      obtain ⟨n, hn⟩ := Option.isSome_iff_exists.mp hs
      rw [hn] at h2
      simp [askOp, startNext, Channel.current, h1, h2]
    · simp at hc
  · rw [(askOp_asked c op s).2 d hd]
    exact hc

/-- The shares of an image are asked of its channel, and nothing asked before goes away. -/
theorem writeImage_asked (img : Image) (area : Nat) (s : State) :
    (∀ k, k < 8 → shareWrite img area k ∈ (writeImage img area s).asked img.channel) ∧
      ∀ d, ∀ o ∈ s.asked d, o ∈ (writeImage img area s).asked d := by
  have hm : ∀ (l : List Nat) (t : State) (d : Nat), ∀ o ∈ t.asked d,
      o ∈ (l.foldl (fun t k => askOp img.channel (shareWrite img area k) t) t).asked d := by
    intro l
    induction l with
    | nil => exact fun _ _ _ h => h
    | cons k l ih => exact fun t d o h => ih _ d o (askOp_asked_mono _ _ h)
  refine ⟨fun k hk => ?_, hm _ s⟩
  have hl : ∀ (l : List Nat) (t : State), k ∈ l →
      shareWrite img area k ∈ (l.foldl (fun t k => askOp img.channel (shareWrite img area k) t) t).asked img.channel := by
    intro l
    induction l with
    | nil => exact fun _ h => (List.not_mem_nil h).elim
    | cons a l ih =>
      intro t h
      rw [List.foldl_cons]
      rcases List.mem_cons.mp h with rfl | h
      · exact hm l _ _ _ (askOp_mem _ _ _)
      · exact ih _ h
  exact hl _ s (List.mem_range.mpr hk)

end Sys2Proof.Machine
end

