-- ==== Sys2Proof/Laws/Drains.lean ====
section
/-!
SUPPORT. Laws/Drains.lean: all that a fault of compaction, the acts of compaction and a drain can do to a checkpoint, what a
drain that stands leaves alone, and how the slot wait list is served.
-/

namespace Sys2Proof.Machine
open Sys2Proof

/-! ### A fault that stops compaction (R70, R170) -/

/-- A live waiter of an abandoned or failed checkpoint is answered, one that waits for a number too. -/
theorem answerWaiters_refused {ws : List Waiter} {w : Waiter} {r : ReqRef} {s : State} (hw : w ∈ ws)
    (hr : w.req = some r) (hl : s.isLive r = true) :
    replyTo r.tag r.kind .notDurable w.failBody ∈ ((answerWaiters false ws s).link r.port).replies := by
  induction ws generalizing s with
  | nil => cases hw
  | cons v ws ih =>
    have hs : answerWaiters false (v :: ws) s = answerWaiters false ws (answerWaiter false v s) := rfl
    rw [hs]
    rcases List.mem_cons.mp hw with rfl | hw
    · refine (answerWaiters_replies_prefix ..).subset ?_
      simp only [answerWaiter, hr, Bool.false_eq_true, if_false]
      split
      · exact answer_mem hl _ _
      · rw [(raiseBoth_link _ _ _ _).2.2.2.2.2.2]
        exact answer_mem hl _ _
    · exact ih hw ((isLive_congr r (by simp)).trans hl)

/-- An abandoned checkpoint: the catalog IDLE, nothing waiting, and every live waiter answered NOT-DURABLE. -/
theorem abandonCheckpoint_refuses (s : State) :
    (abandonCheckpoint s).cat = { s.cat with state := .idle, waiters := [] } ∧
      ∀ w ∈ s.cat.waiters, ∀ r, w.req = some r → s.isLive r = true →
        replyTo r.tag r.kind .notDurable w.failBody ∈ ((abandonCheckpoint s).link r.port).replies :=
  ⟨by simp [abandonCheckpoint], fun _ hw _ hr hl => answerWaiters_refused hw hr hl⟩

/-- Compaction STOPPED: a checkpoint QUIESCING is abandoned, any other left as it is. -/
theorem stopCompaction_spec (s : State) :
    (stopCompaction s).comp = { s.comp with stopped := true } ∧
      (s.cat.state ≠ .quiescing → (stopCompaction s).cat = s.cat) ∧
      (s.cat.state = .quiescing → (stopCompaction s).cat = { s.cat with state := .idle, waiters := [] } ∧
        ∀ w ∈ s.cat.waiters, ∀ r, w.req = some r → s.isLive r = true →
          replyTo r.tag r.kind .notDurable w.failBody ∈ ((stopCompaction s).link r.port).replies) := by
  by_cases h : s.cat.state = .quiescing <;> simp only [stopCompaction, h, if_true, if_false]
  · obtain ⟨h1, h2⟩ := abandonCheckpoint_refuses { s with comp := { s.comp with stopped := true } }
    exact ⟨by simp, fun hn => absurd rfl hn, fun _ => ⟨h1, fun w hw r hr hl => h2 w hw r hr hl⟩⟩
  · exact ⟨trivial, fun _ => trivial, fun hn => hn.elim⟩

/-- What a fault of compaction does to it and to a checkpoint, in SERVICE. -/
theorem raiseFault_compaction {f : FaultInfo} {s : State} (hf : engineOf f.kind = .compaction)
    (ha : s.cat.archive = .service) :
    (raiseFault f s).comp = { s.comp with stopped := true } ∧
      ((s.contextOf f.kind).isHeld = false → s.cat.state ≠ .quiescing → (raiseFault f s).cat = s.cat) ∧
      (s.cat.state = .quiescing →
        ((s.contextOf f.kind).isHeld = false →
          (raiseFault f s).cat = { s.cat with state := .idle, waiters := [] }) ∧
        (raiseFault f s).cat.state = .idle ∧ (raiseFault f s).cat.waiters = [] ∧
        ∀ w ∈ s.cat.waiters, ∀ r, w.req = some r → s.isLive r = true →
          replyTo r.tag r.kind .notDurable w.failBody ∈ ((raiseFault f s).link r.port).replies) := by
  simp only [raiseFault, ha, ne_eq, not_true_eq_false, if_false, hf, stopEngine]
  split
  · rename_i hh
    obtain ⟨h1, -, h3⟩ := stopCompaction_spec
      { takeFaultNumber s with fault := { (takeFaultNumber s).fault with halt := some (s.fault.counter, f) } }
    have he : ∀ n u, (enterHalted (raiseBoth noticeHalted n u)).comp = u.comp ∧
        (enterHalted (raiseBoth noticeHalted n u)).cat.state = u.cat.state ∧
        (enterHalted (raiseBoth noticeHalted n u)).cat.waiters = u.cat.waiters := fun n u => by simp
    refine ⟨(he _ _).1.trans h1, fun hn => by simp [hh] at hn, fun hq => ?_⟩
    obtain ⟨h4, h5⟩ := h3 hq
    refine ⟨fun hn => by simp [hh] at hn, (he _ _).2.1.trans (congrArg CatalogUnit.state h4),
      (he _ _).2.2.trans (congrArg CatalogUnit.waiters h4), fun w hw r hr hl => ?_⟩
    refine (enterHalted_replies_prefix _ _).subset ?_
    rw [(raiseBoth_link _ _ _ _).2.2.2.2.2.2]
    exact h5 w hw r hr hl
  · obtain ⟨h1, h2, h3⟩ := stopCompaction_spec ((takeFaultNumber s).setContextOf f.kind (.held s.fault.counter f))
    have hc : ((takeFaultNumber s).setContextOf f.kind (.held s.fault.counter f)).cat = s.cat := by
      simp only [State.setContextOf]; split <;> rfl
    have hp : ((takeFaultNumber s).setContextOf f.kind (.held s.fault.counter f)).comp = s.comp := by
      simp only [State.setContextOf]; split <;> rfl
    have hk : ∀ p, (((takeFaultNumber s).setContextOf f.kind (.held s.fault.counter f)).link p).epoch =
        (s.link p).epoch := by
      intro p; simp only [State.setContextOf]; split <;> rfl
    rw [hc] at h2 h3
    rw [hp] at h1
    refine ⟨by simpa using h1, fun _ hn => by simpa using h2 hn, fun hq => ?_⟩
    obtain ⟨h4, h5⟩ := h3 hq
    refine ⟨fun _ => by simpa [ha] using h4, by simp [h4], by simp [h4], fun w hw r hr hl => ?_⟩
    rw [(raiseBoth_link _ _ _ _).2.2.2.2.2.2]
    exact h5 w hw r hr ((isLive_congr r (hk _)).trans hl)

/-- At a context that is not HELD, a fault of compaction abandons a checkpoint QUIESCING and leaves any other. -/
theorem raiseFault_abandons {f : FaultInfo} {s : State} (hf : engineOf f.kind = .compaction)
    (ha : s.cat.archive = .service) (hh : (s.contextOf f.kind).isHeld = false) :
    s.checkpointAbandoned (transmitBoth (raiseFault f s)) := by
  obtain ⟨-, h2, h3⟩ := raiseFault_compaction hf ha
  refine ⟨fun hn => ?_, fun hq => ⟨?_, fun w hw r hr hl => replied_of_mem ((h3 hq).2.2.2 w hw r hr hl)⟩⟩
  · simpa using h2 hh hn
  · simpa using (h3 hq).1 hh

/-! ### What the acts of compaction can do to a checkpoint (R70, R170) -/

/-- From `s`, compaction running in SERVICE, to `u`: while compaction runs on, the Catalog Unit is left as it is, and where a
fault has stopped it, a checkpoint QUIESCING is abandoned. Replies are only added. -/
def State.worksOn (s u : State) : Prop :=
  u.cat.last = s.cat.last ∧ u.cat.newer = s.cat.newer ∧ u.cat.channel = s.cat.channel ∧
    (∀ p, (u.link p).epoch = (s.link p).epoch ∧ (s.link p).replies <+: (u.link p).replies) ∧
    (u.comp.stopped = false → u.cat = s.cat) ∧
    (u.comp.stopped = true → s.cat.state = .quiescing → u.cat.state = .idle ∧ u.cat.waiters = [] ∧
      ∀ w ∈ s.cat.waiters, ∀ r, w.req = some r → s.isLive r = true →
        replyTo r.tag r.kind .notDurable w.failBody ∈ (u.link r.port).replies)

/-- An act that leaves the Catalog Unit, the links and whether compaction runs. -/
theorem State.worksOn_of_keeps {s u : State} (hc : u.cat = s.cat) (hs : s.comp.stopped = false)
    (hu : u.comp.stopped = s.comp.stopped) (hl : ∀ p, u.link p = s.link p) : s.worksOn u :=
  ⟨by rw [hc], by rw [hc], by rw [hc], fun p => by rw [hl]; exact ⟨rfl, List.prefix_rfl⟩, fun _ => hc,
    fun h => by rw [hu, hs] at h; cases h⟩

theorem State.worksOn_rfl {s : State} (hs : s.comp.stopped = false) : s.worksOn s :=
  State.worksOn_of_keeps rfl hs rfl (fun _ => rfl)

/-- One act after another: the second is taken where the first has not stopped compaction, and changes nothing otherwise. -/
theorem State.worksOn.trans {s u v : State} (h : s.worksOn u) (hu : u.comp.stopped = false → u.worksOn v)
    (hs : u.comp.stopped = true → v = u) : s.worksOn v := by
  cases hb : u.comp.stopped
  · obtain ⟨a1, a2, a3, a4, a5, -⟩ := h
    obtain ⟨b1, b2, b3, b4, b5, b6⟩ := hu hb
    have hc := a5 hb
    refine ⟨b1.trans a1, b2.trans a2, b3.trans a3,
      fun p => ⟨(b4 p).1.trans (a4 p).1, (a4 p).2.trans (b4 p).2⟩, fun hv => (b5 hv).trans hc, fun hv hq => ?_⟩
    obtain ⟨c1, c2, c3⟩ := b6 hv (hc ▸ hq)
    exact ⟨c1, c2, fun w hw r hr hl => c3 w (hc ▸ hw) r hr ((isLive_congr r (a4 _).1).trans hl)⟩
  · rw [hs hb]; exact h

/-- Compaction runs in SERVICE (R70). -/
theorem compacting_iff (s : State) : s.compacting = true ↔ s.cat.archive = .service ∧ s.comp.stopped = false := by
  simp [State.compacting, State.inService]

/-- Where an act has left compaction running, it runs in SERVICE still. -/
theorem State.worksOn.running {s u : State} (h : s.worksOn u) (hs : s.compacting = true)
    (hu : u.comp.stopped = false) : u.compacting = true := by
  rw [compacting_iff] at hs ⊢
  exact ⟨by rw [h.2.2.2.2.1 hu]; exact hs.1, hu⟩

/-- A fault of compaction. -/
theorem raiseFault_worksOn {f : FaultInfo} {s : State} (hf : engineOf f.kind = .compaction) (h : s.compacting = true) :
    s.worksOn (raiseFault f s) := by
  rw [compacting_iff] at h
  obtain ⟨h1, -, h3⟩ := raiseFault_compaction hf h.1
  refine ⟨by simp, by simp, by simp, fun p => ⟨by simp, raiseFault_replies_prefix f s p⟩, fun hn => ?_,
    fun _ hq => (h3 hq).2⟩
  rw [h1] at hn
  cases hn

/-- SPACE-EXHAUSTED is a fault of compaction. -/
theorem spaceExhausted_engine (e : Option Nat) : engineOf (spaceExhausted e).kind = .compaction := rfl

theorem compacting_congr {s u : State} (hc : u.cat.archive = s.cat.archive) (hs : u.comp.stopped = s.comp.stopped) :
    u.compacting = s.compacting := by
  simp only [State.compacting, State.inService, hc, hs]

theorem waitForSlot_worksOn (b : Nat) {s : State} (h : s.compacting = true) : s.worksOn (waitForSlot b s) := by
  simp only [waitForSlot]
  split
  · exact State.worksOn_of_keeps rfl ((compacting_iff s).mp h).2 rfl (fun _ => rfl)
  · exact raiseFault_worksOn (spaceExhausted_engine _) h

theorem askSlot_worksOn (b : Nat) {s : State} (h : s.compacting = true) : s.worksOn (askSlot b s) := by
  simp only [askSlot]
  split
  · exact State.worksOn_of_keeps (by simp) ((compacting_iff s).mp h).2 (by simp) (fun p => by simp)
  · exact waitForSlot_worksOn b h

theorem beginClose_worksOn (b : Nat) {s : State} (h : s.compacting = true) : s.worksOn (beginClose b s) :=
  askSlot_worksOn (s := ((s.setBuilder b { s.builder b with phase := .closing, failures := 0 }).setEntry (s.builder b).entry
    { s.entry (s.builder b).entry with cls := some (s.source (s.builder b).source).cls })) b h

theorem closeBuilders_worksOn (p : Builder → Bool) {s : State} (h : s.compacting = true) :
    s.worksOn (closeBuilders p s) := by
  unfold closeBuilders
  generalize List.range Config.builders = l
  induction l generalizing s with
  | nil => exact State.worksOn_rfl ((compacting_iff s).mp h).2
  | cons b l ih =>
    have hstep : ∀ t : State, t.comp.stopped = true → l.foldl (fun t b =>
        if t.compacting && decide ((t.builder b).phase = .filling) && p (t.builder b) then beginClose b t else t) t = t := by
      intro t ht
      have hn : t.compacting = false := by simp [State.compacting, ht]
      clear ih
      induction l with
      | nil => rfl
      | cons c l ih => simpa [hn] using ih
    rw [List.foldl_cons]
    split
    · have hw := beginClose_worksOn b h
      exact hw.trans (fun hu => ih (hw.running h hu)) (hstep _)
    · exact ih h

theorem openOn_worksOn (b x y : Nat) {s : State} (h : s.compacting = true) : s.worksOn (openOn b x y s) := by
  have hs := ((compacting_iff s).mp h).2
  simp only [openOn]
  split
  · exact State.worksOn_of_keeps (by simp) hs (by simp) (fun p => by simp)
  split
  · exact State.worksOn_of_keeps rfl hs rfl (fun _ => rfl)
  · exact raiseFault_worksOn (s := setOpening (some .held) s) (spaceExhausted_engine _) h

theorem tryOpen_worksOn (x y : Nat) {s : State} (h : s.compacting = true) : s.worksOn (tryOpen x y s) := by
  simp only [tryOpen]
  split
  · exact openOn_worksOn _ x y h
  split
  · exact State.worksOn_of_keeps rfl ((compacting_iff s).mp h).2 rfl (fun _ => rfl)
  · exact beginClose_worksOn (s := setOpening (some .builder) s) _ h

theorem resolveOpening_worksOn {s : State} (h : s.compacting = true) : s.worksOn (resolveOpening s) := by
  have hs := ((compacting_iff s).mp h).2
  simp only [resolveOpening]
  repeat' split
  all_goals first
    | exact State.worksOn_rfl hs
    | exact State.worksOn_of_keeps rfl hs rfl (fun _ => rfl)
    | exact openOn_worksOn _ _ _ h

theorem dropFinished_worksOn {s : State} (hs : s.comp.stopped = false) : s.worksOn (dropFinished s) :=
  State.worksOn_of_keeps (by simp) hs (by simp) (fun p => by simp)

theorem drainCloses_worksOn {s : State} (h : s.compacting = true) : s.worksOn (drainCloses s) := by
  simp only [drainCloses]
  split
  · exact closeBuilders_worksOn _ h
  · exact State.worksOn_rfl ((compacting_iff s).mp h).2

theorem appendTo_worksOn (b n : Nat) (r : Record) {s : State} (hs : s.comp.stopped = false) :
    s.worksOn (appendTo b n r s) :=
  State.worksOn_of_keeps (by simp) hs (by simp) (fun p => by simp)

theorem appendIfOpen_worksOn (f : QueuedFile) (r : Record) {s : State} (hs : s.comp.stopped = false) :
    s.worksOn (appendIfOpen f r s) := by
  simp only [appendIfOpen]
  repeat' split
  all_goals first
    | exact State.worksOn_rfl hs
    | exact appendTo_worksOn _ _ _ hs

theorem openAndAppend_worksOn (f : QueuedFile) (r : Record) {s : State} (h : s.compacting = true) :
    s.worksOn (openAndAppend f r s) := by
  simp only [openAndAppend, h, if_true]
  have hw := tryOpen_worksOn f.source f.day h
  refine hw.trans (fun hu => appendIfOpen_worksOn f r hu) (fun hu => ?_)
  simp only [appendIfOpen, State.compacting, hu]
  split <;> simp

/-- The append of a record, with all that it opens and closes. -/
theorem appendNext_worksOn (f : QueuedFile) (r : Record) {s : State} (h : s.compacting = true) :
    s.worksOn (appendNext f r s) := by
  simp only [appendNext]
  split
  · exact openAndAppend_worksOn f r h
  split
  · exact appendTo_worksOn _ _ _ ((compacting_iff s).mp h).2
  · rename_i b _ _
    have hw := beginClose_worksOn b h
    refine hw.trans (fun hu => openAndAppend_worksOn f r (hw.running h hu)) (fun hu => ?_)
    simp [openAndAppend, State.compacting, hu]

/-! ### The closes of a drain (R72) -/

theorem beginClose_builder (b : Nat) (s : State) (i : Nat) :
    (beginClose b s).builder i = if i = b then { s.builder b with phase := .closing, failures := 0 } else s.builder i := by
  have h : (beginClose b s).comp.builders =
      (s.setBuilder b { s.builder b with phase := .closing, failures := 0 }).comp.builders := by simp [beginClose]
  rw [State.builder, h]
  exact State.setBuilder_builder ..

/-- A builder that is not FILLING stays so while others are closed. -/
theorem closeBuilders_spares (p : Builder → Bool) (s : State) (i : Nat) (h : (s.builder i).phase ≠ .filling) :
    (closeBuilders p s).builder i = s.builder i := by
  refine foldl_inv (fun t => t.builder i = s.builder i) _ (fun t b ht => ?_) _ s rfl
  split
  · rename_i hc
    rw [beginClose_builder, if_neg]
    · exact ht
    · rintro rfl
      simp only [Bool.and_eq_true, decide_eq_true_eq] at hc
      exact h (ht ▸ hc.1.2)
  · exact ht

/-- Where compaction still runs at the end, every FILLING builder has been closed. -/
theorem closeBuilders_closes {s : State} (h : s.compacting = true)
    (hr : (closeBuilders (fun _ => true) s).comp.stopped = false) (b : Nat) (hb : b < 32) :
    ((closeBuilders (fun _ => true) s).builder b).phase ≠ .filling := by
  let f := fun (t : State) (b : Nat) =>
    if t.compacting && decide ((t.builder b).phase = .filling) && true then beginClose b t else t
  have hf : ∀ t a i, (t.builder i).phase ≠ .filling → ((f t a).builder i).phase ≠ .filling := by
    intro t a i hn
    simp only [f]
    split
    · rw [beginClose_builder]
      split
      · simp
      · exact hn
    · exact hn
  have hl : ∀ (l : List Nat) (t : State), (t.builder b).phase ≠ .filling → ((l.foldl f t).builder b).phase ≠ .filling := by
    intro l
    induction l with
    | nil => exact fun _ hn => hn
    | cons a l ih => exact fun t hn => ih _ (hf t a b hn)
  have hst : ∀ (l : List Nat) (t : State), t.comp.stopped = true → (l.foldl f t).comp.stopped = true := by
    intro l
    induction l with
    | nil => exact fun _ h => h
    | cons a l ih =>
      intro t ht
      refine ih _ ?_
      simp only [f, State.compacting, ht]
      simpa using ht
  have hm : ∀ (l : List Nat) (t : State), t.compacting = true → (l.foldl f t).comp.stopped = false → b ∈ l →
      ((l.foldl f t).builder b).phase ≠ .filling := by
    intro l
    induction l with
    | nil => exact fun _ _ _ hn => (List.not_mem_nil hn).elim
    | cons a l ih =>
      intro t ht hv hbl
      rw [List.foldl_cons] at hv ⊢
      by_cases hab : b = a
      · refine hl l _ ?_
        subst hab
        simp only [f, ht, Bool.and_true, Bool.true_and, decide_eq_true_eq]
        split
        · rw [beginClose_builder, if_pos rfl]
          simp
        · assumption
      · refine ih _ ?_ hv ((List.mem_cons.mp hbl).resolve_left hab)
        have hw : t.worksOn (f t a) := by
          simp only [f]
          split
          · exact beginClose_worksOn a ht
          · exact State.worksOn_rfl ((compacting_iff t).mp ht).2
        refine hw.running ht ?_
        cases hx : (f t a).comp.stopped with
        | false => rfl
        | true => rw [hst l _ hx] at hv; cases hv
  have hb' : b ∈ List.range Config.builders := List.mem_range.mpr hb
  have he : closeBuilders (fun _ => true) s = (List.range Config.builders).foldl f s := rfl
  rw [he] at hr ⊢
  exact hm _ s h hr hb'

/-- With no builder FILLING there is nothing to close. -/
theorem closeBuilders_eq {p : Builder → Bool} {s : State} (h : ∀ b, b < 32 → (s.builder b).phase ≠ .filling) :
    closeBuilders p s = s := by
  have hl : ∀ l : List Nat, (∀ b ∈ l, (s.builder b).phase ≠ .filling) → l.foldl (fun t b =>
      if t.compacting && decide ((t.builder b).phase = .filling) && p (t.builder b) then beginClose b t else t) s = s := by
    intro l
    induction l with
    | nil => exact fun _ => rfl
    | cons a l ih =>
      intro hb
      simpa [hb a List.mem_cons_self] using ih (fun b h => hb b (List.mem_cons_of_mem _ h))
  exact hl _ (fun b hb => h b (List.mem_range.mp hb))

/-! ### The drain (R72, R170, R171) -/

/-- `t`, as a command ends, holds what `v` held of the blocks that a snapshot reads, and what was produced or asked there. -/
def State.shows (v t : State) : Prop :=
  t.comp = v.comp ∧ t.cat = v.cat ∧ t.ret = v.ret ∧ t.intake = v.intake ∧ t.audit = v.audit ∧
    t.media.dir = v.media.dir ∧ (∀ p r, r ∈ (v.link p).replies → t.replied p r = true) ∧
    ∀ img a d k, img.number = v.cat.last + 1 → shareWrite img a k ∈ v.asked d → shareWrite img a k ∈ t.asked d

/-- The end of a command's turn. -/
theorem State.shows_transmitBoth (v : State) : v.shows (transmitBoth v) := by
  refine ⟨by simp, by simp, by simp, by simp, by simp, by simp, fun p r h => replied_of_mem h, fun img a d k _ h => ?_⟩
  simpa [State.asked, State.channel] using h

/-- WRITING begins: the snapshot is taken and its shares asked. -/
theorem beginWriting_snapshot {s v t : State} (hl : v.cat.last = s.cat.last) (hn : v.cat.newer = s.cat.newer)
    (hc : v.cat.channel = s.cat.channel) (ht : (beginWriting v).shows t) :
    t.cat.state = .writing ∧ s.snapshotTaken t := by
  obtain ⟨-, h2, h3, h4, h5, h6, -, h8⟩ := ht
  let img := v.snapshot (v.cat.last + 1) (v.cat.channel.getD 0)
  have hb : (beginWriting v).cat = { v.cat with state := .writing, buffer := some img, sharesOk := 0 } := by
    simp [beginWriting, img]
  have hk := writeImage_asked img v.nextArea
    { v with cat := { v.cat with state := .writing, buffer := some img, sharesOk := 0 } }
  have hna : v.nextArea = s.nextArea := by simp only [State.nextArea, hn]
  refine ⟨by rw [h2, hb], img, by rw [h2, hb], by simp [img, State.snapshot, sealImage, State.contents, hl], ?_⟩
  rw [h2, h3, h4, h5, h6, hb]
  simp only [beginWriting_keeps]
  refine ⟨rfl, rfl, rfl, rfl, rfl, rfl, rfl, rfl, rfl, rfl, rfl, fun k hk8 => ?_⟩
  refine h8 img _ _ _ ?_ ?_
  · simp [img, State.snapshot, sealImage, State.contents]
  · rw [← hna, ← hc]
    exact hk.1 k hk8

/-- What compaction, running in SERVICE, makes of a checkpoint QUIESCING: it drains. `s` is the state the drain is counted
from; the acts that led from it to `w` are compaction's own. -/
theorem runCompaction_drains {s w t : State} (hs : s.compacting = true) (hq : s.cat.state = .quiescing)
    (hw : s.worksOn w) (ht : (runCompaction w).shows t) : s.drains t s.cat.waiters := by
  have hsc := (compacting_iff s).mp hs
  cases hst : w.comp.stopped
  · have hwr := hw.running hs hst
    have hwc := hw.2.2.2.2.1 hst
    -- the acts before the drain is looked at
    have h1 : w.worksOn (drainCloses (resolveOpening (dropFinished w))) := by
      have hd := dropFinished_worksOn hst
      have hdr := hd.running hwr (by simp [hst])
      have ho : w.worksOn (resolveOpening (dropFinished w)) :=
        hd.trans (fun _ => resolveOpening_worksOn hdr) (fun h => by simp [hst] at h)
      refine ho.trans (fun hu => drainCloses_worksOn (ho.running hwr hu)) (fun hu => ?_)
      simp [drainCloses, State.draining, State.compacting, hu]
    have h2 : s.worksOn (drainCloses (resolveOpening (dropFinished w))) :=
      hw.trans (fun _ => h1) (fun h => by rw [hst] at h; cases h)
    have hrun : runCompaction w = drainComplete (drainCloses (resolveOpening (dropFinished w))) := by
      simp [runCompaction, hwr]
    rw [hrun] at ht
    generalize hv : drainCloses (resolveOpening (dropFinished w)) = v at *
    cases hvs : v.comp.stopped
    · have hvr := h2.running hs hvs
      have hvc := h2.2.2.2.2.1 hvs
      have hvq : v.cat.state = .quiescing := by rw [hvc]; exact hq
      have hdr : v.draining = true := by simp [State.draining, hvq, hvr]
      have hcomp : t.comp = v.comp := by rw [ht.1]; simp
      refine ⟨?_, ?_, fun _ => ⟨?_, fun hn => ?_, fun hn b hb => ?_, fun hn hm => ?_⟩, fun hn => ?_⟩
      · rw [ht.2.1]; simpa using h2.1
      · rw [ht.2.1]; simpa using h2.2.1
      · rw [ht.2.1]; simp [hvc]
      · have hnd : v.drained = false := by
          rw [hcomp] at hn
          simp only [State.drained, Bool.and_eq_false_iff, List.isEmpty_eq_false_iff]
          exact hn
        rw [ht.2.1]
        simp [drainComplete, hnd, hvq]
      · have hbv : t.builder b = v.builder b := by rw [State.builder, hcomp]; rfl
        rw [hcomp] at hn
        rw [hbv]
        subst hv
        have hq2 : (resolveOpening (dropFinished w)).comp.queue = [] := by simpa using hn
        by_cases hd2 : (resolveOpening (dropFinished w)).draining = true
        · simp only [drainCloses, hd2, hq2, List.isEmpty_nil, Bool.and_self, if_true] at hvs ⊢
          refine closeBuilders_closes ?_ hvs b hb
          simp only [State.draining, Bool.and_eq_true] at hd2
          exact hd2.2
        · have he : drainCloses (resolveOpening (dropFinished w)) = resolveOpening (dropFinished w) := by
            simp [drainCloses, hd2]
          rw [he] at hdr
          exact absurd hdr hd2
      · have hd2 : v.drained = true := by
          rw [hcomp] at hn hm
          simp [State.drained, hn, hm]
        rw [show drainComplete v = beginWriting v by simp [drainComplete, hdr, hd2]] at ht
        exact beginWriting_snapshot h2.1 h2.2.1 h2.2.2.1 ht
      · rw [hcomp, hvs] at hn; cases hn
    · have hid : drainComplete v = v := by simp [drainComplete, State.draining, State.compacting, hvs]
      rw [hid] at ht
      obtain ⟨c1, c2, c3⟩ := h2.2.2.2.2.2 hvs hq
      have hcomp : t.comp = v.comp := ht.1
      refine ⟨by rw [ht.2.1]; exact h2.1, by rw [ht.2.1]; exact h2.2.1, fun hn => ?_, fun _ => ⟨?_, ?_, ?_⟩⟩
      · rw [hcomp, hvs] at hn; cases hn
      · rw [ht.2.1]; exact c1
      · rw [ht.2.1]; exact c2
      · exact fun x hx r hr hl => ht.2.2.2.2.2.2.1 _ _ (c3 x hx r hr hl)
  · have hid : runCompaction w = w := by simp [runCompaction, State.compacting, hst]
    rw [hid] at ht
    obtain ⟨c1, c2, c3⟩ := hw.2.2.2.2.2 hst hq
    refine ⟨by rw [ht.2.1]; exact hw.1, by rw [ht.2.1]; exact hw.2.1, fun hn => ?_, fun _ => ⟨?_, ?_, ?_⟩⟩
    · rw [ht.1, hst] at hn; cases hn
    · rw [ht.2.1]; exact c1
    · rw [ht.2.1]; exact c2
    · exact fun x hx r hr hl => ht.2.2.2.2.2.2.1 _ _ (c3 x hx r hr hl)

/-- A checkpoint that begins drains, or with compaction STOPPED is abandoned at once (R170). -/
theorem beginCheckpoint_drains {ws : List Waiter} {s t : State} (ha : s.cat.archive = .service)
    (ht : (beginCheckpoint ws s).shows t) : s.drains t ws := by
  let u : State := { s with cat := { s.cat with state := .quiescing, waiters := ws } }
  have hd : u.drains t ws → s.drains t ws := fun h => h
  refine hd ?_
  cases hs : s.comp.stopped
  · have hb : beginCheckpoint ws s = runCompaction u := by simp [beginCheckpoint, u, hs]
    rw [hb] at ht
    have hu : u.compacting = true := by simp [compacting_iff, u, ha, hs]
    exact runCompaction_drains hu rfl (State.worksOn_rfl hs) ht
  · have hb : beginCheckpoint ws s = abandonCheckpoint u := by simp [beginCheckpoint, u, hs]
    rw [hb] at ht
    obtain ⟨h1, h2⟩ := abandonCheckpoint_refuses u
    refine ⟨by rw [ht.2.1, h1], by rw [ht.2.1, h1], fun hn => ?_, fun _ => ⟨by rw [ht.2.1, h1], by rw [ht.2.1, h1], ?_⟩⟩
    · rw [ht.1] at hn
      simp [u, hs] at hn
    · exact fun w hw r hr hl => ht.2.2.2.2.2.2.1 _ _ (h2 w hw r hr hl)

/-! ### A drain that stands (R72) -/

/-- A queue whose head has a record to append, or an empty one, has no file to drop. -/
theorem dropFinished_eq {s : State} (h : ∀ f, s.comp.queue.head? = some f → f.appended < f.toAppend) :
    dropFinished s = s := by
  have hl : ∀ l : List QueuedFile, l.foldl (fun t _ =>
      match t.comp.queue with
      | [] => t
      | f :: _ => if f.toAppend ≤ f.appended then leaveQueue t else t) s = s := by
    intro l
    induction l with
    | nil => rfl
    | cons a l ih =>
      rw [List.foldl_cons]
      cases hq : s.comp.queue with
      | nil => simpa [hq] using ih
      | cons f q =>
        have := h f (by simp [hq])
        simpa [hq, Nat.not_le.mpr this] using ih
  exact hl _

/-- Compaction goes on, where no drain has anything to begin and no opening waits: at most finished files leave. -/
theorem runCompaction_stands {s : State} (h : s.drainStands) (ho : s.comp.opening = none ∨ s.comp.opening = some .held) :
    runCompaction s = s ∨ s.cat.state ≠ .quiescing ∧ runCompaction s = dropFinished s := by
  cases hc : s.compacting
  · left; simp [runCompaction, hc]
  have hr : resolveOpening (dropFinished s) = dropFinished s := by
    have : (dropFinished s).comp.opening = s.comp.opening := by simp
    simp only [resolveOpening, this]
    rcases ho with ho | ho <;> simp [ho]
  rcases h with h | h | ⟨f, q, hq, hf⟩ | ⟨hq, hb, hn⟩
  · right
    refine ⟨h, ?_⟩
    simp [runCompaction, hc, hr, drainCloses, drainComplete, State.draining, h]
  · rw [hc] at h; cases h
  · left
    have hd : dropFinished s = s := dropFinished_eq (fun g hg => by simp_all)
    rw [hd] at hr
    simp [runCompaction, hc, hd, hr, drainCloses, drainComplete, State.drained, hq]
  · left
    have hd : dropFinished s = s := dropFinished_eq (fun g hg => by simp_all)
    rw [hd] at hr
    simp [runCompaction, hc, hd, hr, drainCloses, drainComplete, State.drained, hq, hb, closeBuilders_eq hn]

/-! ### The slot wait list (R91) -/

theorem askOp_slots (c d : Nat) (op : Op) (s : State) :
    ((askOp c op s).channel d).slots = (s.channel d).slots ∧ ((askOp c op s).channel d).rest = (s.channel d).rest := by
  by_cases h : d = c
  · subst h
    have ha : ((s.channel d).ask op).slots = (s.channel d).slots ∧ ((s.channel d).ask op).rest = (s.channel d).rest := by
      simp only [Channel.ask, Channel.join]
      repeat' split
      all_goals exact ⟨rfl, rfl⟩
    simp only [askOp, startNext]
    split
    · simpa using ha
    · simpa using ha
  · rw [(askOp_asked c op s).2 d h]
    exact ⟨rfl, rfl⟩

@[simp] theorem askOp_slotState (c : Nat) (op : Op) (s : State) (r : SlotRef) :
    (askOp c op s).slotState r = s.slotState r := by
  simp only [State.slotState, Channel.slot, askOp_slots]

theorem setSlotState_slotState (s : State) (r q : SlotRef) (v : SlotState) :
    (s.setSlotState r v).slotState q = if q = r then v else s.slotState q := by
  by_cases hc : q.channel = r.channel
  · by_cases hk : q.slot = r.slot
    · have : q = r := by cases q; cases r; simp_all
      subst this
      simp [State.setSlotState, State.slotState, Channel.setSlot, Channel.slot]
    · have : q ≠ r := fun h => hk (by rw [h])
      simp [State.setSlotState, State.slotState, Channel.setSlot, Channel.slot, hc, this, Tbl.get_set_ne _ _ _ hk]
  · have : q ≠ r := fun h => hc (by rw [h])
    simp [State.setSlotState, State.slotState, State.setChannel_channel_ne _ _ _ hc, this]

@[simp] theorem setSlotState_asked (s : State) (r : SlotRef) (v : SlotState) (d : Nat) :
    (s.setSlotState r v).asked d = s.asked d := by
  by_cases h : d = r.channel
  · subst h
    simp [State.asked, State.setSlotState, Channel.setSlot]
  · simp [State.asked, State.setSlotState, State.setChannel_channel_ne _ _ _ h]

/-- What giving a slot writes: the entry, the slot and the WRITE asked (R67, R91). -/
theorem giveSlot_spec (b : Nat) (r : SlotRef) (retry : Bool) (s : State) :
    (∀ i, (giveSlot b r retry s).entry i =
        if i = (s.builder b).entry then s.writingEntry (s.builder b) r retry else s.entry i) ∧
      (∀ q, (giveSlot b r retry s).slotState q = if q = r then .used else s.slotState q) ∧
      builderWrite b (s.builder b) r.slot ∈ (giveSlot b r retry s).asked r.channel ∧
      (∀ d, ∀ o ∈ s.asked d, o ∈ (giveSlot b r retry s).asked d) ∧
      (giveSlot b r retry s).media.pointer = r.channel := by
  have hd : (giveSlot b r retry s).media.dir =
      (s.setEntry (s.builder b).entry (s.writingEntry (s.builder b) r retry)).media.dir := by
    simp [giveSlot, State.setSlotState]
  refine ⟨fun i => ?_, fun q => ?_, askOp_mem _ _ _, fun d o h => askOp_asked_mono _ _ ?_, by simp [giveSlot]⟩
  · rw [State.entry, hd]
    exact State.setEntry_entry ..
  · simp only [giveSlot, askOp_slotState]
    exact setSlotState_slotState ..
  · have ha := setSlotState_asked (s.setEntry (s.builder b).entry (s.writingEntry (s.builder b) r retry)) r .used d
    exact ha ▸ h

/-- The close at the head is given the slot there is. -/
theorem serveOne_eq {s : State} {b : Nat} {rest : List Nat} {r : SlotRef} (h : s.compacting = true)
    (hw : s.media.slotWait = b :: rest) (hr : s.pickSlot none = some r) :
    serveOne s = giveSlot b r false { s with media := { s.media with slotWait := rest } } := by
  simp [serveOne, hw, hr, h]

/-- Without a slot, or where compaction does not run, nobody is served. -/
theorem serveOne_none {s : State} (h : s.compacting = false ∨ s.pickSlot none = none) : serveOne s = s := by
  simp only [serveOne]
  split
  · rename_i h1 h2
    rcases h with h | h
    · simp [h]
    · rw [h] at h2; cases h2
  · rfl

/-- The list is served from its head while slots remain. -/
theorem serveWait_served {s : State} (h : s.compacting = true) :
    (∃ n, (serveWait s).media.slotWait = s.media.slotWait.drop n) ∧
      ((serveWait s).media.slotWait ≠ [] → (serveWait s).pickSlot none = none) := by
  have hl : ∀ (l : List Nat) (t : State), t.compacting = true → t.media.slotWait.length ≤ l.length →
      (∃ n, (l.foldl (fun t _ => serveOne t) t).media.slotWait = t.media.slotWait.drop n) ∧
        ((l.foldl (fun t _ => serveOne t) t).media.slotWait ≠ [] →
          (l.foldl (fun t _ => serveOne t) t).pickSlot none = none) := by
    intro l
    induction l with
    | nil =>
      intro t _ hn
      have : t.media.slotWait = [] := List.length_eq_zero_iff.mp (by simpa using hn)
      exact ⟨⟨0, rfl⟩, fun hne => absurd this hne⟩
    | cons a l ih =>
      intro t ht hn
      rw [List.foldl_cons]
      cases hp : t.pickSlot none with
      | none =>
        have he : ∀ l : List Nat, l.foldl (fun t _ => serveOne t) t = t := by
          intro l
          induction l with
          | nil => rfl
          | cons c l ihl => rw [List.foldl_cons, serveOne_none (Or.inr hp)]; exact ihl
        rw [serveOne_none (Or.inr hp), he]
        exact ⟨⟨0, rfl⟩, fun _ => hp⟩
      | some r =>
        cases hw : t.media.slotWait with
        | nil =>
          have hs : serveOne t = t := by simp [serveOne, hw]
          rw [hs]
          have := ih t ht (by simp [hw])
          rw [hw] at this
          exact this
        | cons b rest =>
          have hs := serveOne_eq ht hw hp
          have hwr : (serveOne t).media.slotWait = rest := by rw [hs]; simp
          have hc : (serveOne t).compacting = true := by
            rw [compacting_congr (s := t)]
            · exact ht
            · simp
            · simp
          obtain ⟨⟨n, h1⟩, h2⟩ := ih (serveOne t) hc (by rw [hwr]; simpa [hw] using hn)
          exact ⟨⟨n + 1, by rw [h1, hwr]; rfl⟩, h2⟩
  exact hl _ s h (Nat.le_refl _)

/-- The close first on the list is given the slot, whatever the closes behind it are given. -/
theorem serveWait_first {s : State} {b : Nat} {rest : List Nat} {r : SlotRef} (h : s.compacting = true)
    (hw : s.waitsFirst b rest) (hr : s.pickSlot none = some r) : s.closeServed (serveWait s) b r := by
  obtain ⟨h1, -, h3, h4⟩ := hw
  have hg := giveSlot_spec b r false { s with media := { s.media with slotWait := rest } }
  have hs := serveOne_eq h h1 hr
  -- what later services leave
  have hl : ∀ (l : List Nat) (t : State), t.comp = s.comp → (∀ d ∈ t.media.slotWait, d ∈ rest) →
      s.closeServed t b r → s.closeServed (l.foldl (fun t _ => serveOne t) t) b r := by
    intro l
    induction l with
    | nil => exact fun _ _ _ h => h
    | cons a l ih =>
      intro t htc htw hc
      rw [List.foldl_cons]
      refine ih _ (by simp [htc]) ?_ ?_
      · intro d hd
        simp only [serveOne] at hd
        repeat' split at hd
        all_goals first
          | exact htw d hd
          | (rename_i b' q _ hq _ _
             refine htw d ?_
             rw [hq]
             exact List.mem_cons_of_mem _ (by simpa using hd))
      · simp only [serveOne]
        repeat' split
        all_goals first
          | exact hc
          | skip
        rename_i b' q r' hq hp hcmp
        have hb' : b' ∈ rest := htw b' (by rw [hq]; exact List.mem_cons_self)
        have hne : b' ≠ b := fun e => h3 (e ▸ hb')
        have hbl : ∀ i, t.builder i = s.builder i := fun i => by rw [State.builder, htc]; rfl
        have hu : ∀ x : Nat, (({ t with media := { t.media with slotWait := q } } : State).builder x) = s.builder x := hbl
        have hgt := giveSlot_spec b' r' false { t with media := { t.media with slotWait := q } }
        refine ⟨?_, ?_, ?_, hgt.2.2.2.1 _ _ hc.2.2.2⟩
        · have : (giveSlot b' r' false { t with media := { t.media with slotWait := q } }).comp = t.comp := by simp
          rw [State.builder, this]
          exact hbl b
        · rw [hgt.1, hu, if_neg (h4 b' hne (Or.inl hb')).symm]
          exact hc.2.1
        · rw [hgt.2.1]
          split
          · rfl
          · exact hc.2.2.1
  have h0 : serveWait s = rest.foldl (fun t _ => serveOne t) (serveOne s) := by
    rw [serveWait, h1, List.foldl_cons]
  rw [h0]
  refine hl rest _ (by simp) (fun d hd => ?_) ?_
  · rw [hs] at hd
    simpa using hd
  · rw [hs]
    refine ⟨?_, ?_, ?_, hg.2.2.1⟩
    · have : (giveSlot b r false { s with media := { s.media with slotWait := rest } }).comp = s.comp := by simp
      rw [State.builder, this]
      rfl
    · exact (hg.1 _).trans (if_pos rfl)
    · exact (hg.2.1 r).trans (if_pos rfl)

/-! ### The operation in progress (R96) -/

/-- From `s` to `u` every operation in progress is in progress still. -/
def State.runsOn (s u : State) : Prop := ∀ d o, s.inProgress d o = true → u.inProgress d o = true

theorem State.runsOn_of_channels {s u : State} (h : u.media.channels = s.media.channels) : s.runsOn u := by
  intro d o ho
  have hc : u.channel d = s.channel d := by simp only [State.channel, h]
  simpa [State.inProgress, hc] using ho

theorem State.runsOn.trans {s u v : State} (h : s.runsOn u) (k : u.runsOn v) : s.runsOn v := fun d o ho => k d o (h d o ho)

theorem State.runsOn_rfl (s : State) : s.runsOn s := fun _ _ h => h

theorem askOp_runsOn (c : Nat) (op : Op) (s : State) : s.runsOn (askOp c op s) := fun _ _ h => askOp_current h

theorem setSlotState_runsOn (r : SlotRef) (v : SlotState) (s : State) : s.runsOn (s.setSlotState r v) := by
  intro d o ho
  have hc : ((s.setSlotState r v).channel d).current = (s.channel d).current := by
    simp only [State.setSlotState, State.setChannel_channel]
    split
    · rename_i h; subst h; rfl
    · rfl
  simpa [State.inProgress, hc] using ho

theorem giveSlot_runsOn (b : Nat) (r : SlotRef) (retry : Bool) (s : State) : s.runsOn (giveSlot b r retry s) :=
  (setSlotState_runsOn r .used (s.setEntry (s.builder b).entry (s.writingEntry (s.builder b) r retry))).trans
    (fun d o ho => askOp_runsOn _ _ _ d o ho)

theorem serveWait_runsOn (s : State) : s.runsOn (serveWait s) := by
  refine foldl_inv (fun t => s.runsOn t) _ (fun t _ ht => ht.trans ?_) _ s s.runsOn_rfl
  simp only [serveOne]
  repeat' split
  all_goals first
    | exact t.runsOn_rfl
    | exact fun d o ho => giveSlot_runsOn _ _ _ _ d o ho

theorem testWait_runsOn (s : State) : s.runsOn (testWait s) := State.runsOn_of_channels (by simp)

theorem askSlot_runsOn (b : Nat) (s : State) : s.runsOn (askSlot b s) := by
  simp only [askSlot]
  split
  · exact giveSlot_runsOn _ _ _ _
  · exact State.runsOn_of_channels (by simp)

theorem beginClose_runsOn (b : Nat) (s : State) : s.runsOn (beginClose b s) := fun d o ho => askSlot_runsOn b _ d o ho

theorem closeBuilders_runsOn (p : Builder → Bool) (s : State) : s.runsOn (closeBuilders p s) := by
  refine foldl_inv (fun t => s.runsOn t) _ (fun t b ht => ht.trans ?_) _ s s.runsOn_rfl
  split
  · exact beginClose_runsOn _ _
  · exact t.runsOn_rfl

theorem drainCloses_runsOn (s : State) : s.runsOn (drainCloses s) := by
  simp only [drainCloses]
  split
  · exact closeBuilders_runsOn _ _
  · exact s.runsOn_rfl

theorem writeImage_runsOn (img : Image) (area : Nat) (s : State) : s.runsOn (writeImage img area s) :=
  foldl_inv (fun t => s.runsOn t) _ (fun t _ ht => ht.trans (askOp_runsOn _ _ t)) _ s s.runsOn_rfl

theorem drainComplete_runsOn (s : State) : s.runsOn (drainComplete s) := by
  simp only [drainComplete]
  split
  · let img := s.snapshot (s.cat.last + 1) (s.cat.channel.getD 0)
    exact fun d o ho => writeImage_runsOn img _
      { s with cat := { s.cat with state := .writing, buffer := some img, sharesOk := 0 } } d o ho
  · exact s.runsOn_rfl

/-- Compaction leaves every operation in progress. -/
theorem runCompaction_runsOn (s : State) : s.runsOn (runCompaction s) := by
  simp only [runCompaction]
  split
  · refine (State.runsOn_of_channels (by simp)).trans ((drainCloses_runsOn (resolveOpening (dropFinished s))).trans ?_)
    exact drainComplete_runsOn _
  · exact s.runsOn_rfl

/-- The end of an operation that is no CATALOG-WRITE takes no share away. -/
theorem endOp_shows {v : State} {c : Nat} {op : Op} (hp : v.inProgress c op = true) (hk : op.kind ≠ .catalogWrite) :
    v.shows (transmitBoth (startNext c (endOp c v))) := by
  refine ⟨by simp, by simp, by simp, by simp, by simp, by simp, fun p r h => replied_of_mem (by simpa using h),
    fun img a d k _ h => ?_⟩
  have ht : (transmitBoth (startNext c (endOp c v))).asked d = (startNext c (endOp c v)).asked d := by
    simp [State.asked, State.channel]
  rw [ht, startNext_asked]
  by_cases hd : d = c
  · subst hd
    refine (endOp_asked d v).1.mem_iff.mpr ?_
    have hc : (v.channel d).current = some op := by simpa [State.inProgress] using hp
    simp only [Channel.current] at hc
    split at hc
    · simp only [State.asked] at h
      cases hq : (v.channel d).queue with
      | nil => simp [hq] at hc
      | cons o q =>
        simp only [hq, List.head?_cons, Option.some.injEq] at hc
        rw [hq] at h
        rw [List.tail_cons]
        rcases List.mem_cons.mp h with h | h
        · rw [hc] at h
          exact absurd (congrArg Op.kind h).symm hk
        · exact h
    · cases hc
  · rw [State.asked, (endOp_asked c v).2 d hd]
    exact h

/-- A drain is counted alike from two states with the same Catalog Unit and the same requests live. -/
theorem State.drains_congr {s u t : State} {ws : List Waiter} (hc : u.cat = s.cat)
    (he : ∀ p, (u.link p).epoch = (s.link p).epoch) (h : u.drains t ws) : s.drains t ws := by
  obtain ⟨d1, d2, d3, d4⟩ := h
  refine ⟨by rw [d1, hc], by rw [d2, hc], fun hn => ?_, fun hn => ?_⟩
  · obtain ⟨e1, e2, e3, e4⟩ := d3 hn
    refine ⟨e1, e2, e3, fun a b => ⟨(e4 a b).1, ?_⟩⟩
    obtain ⟨img, i⟩ := (e4 a b).2
    simp only [State.nextArea, hc] at i
    exact ⟨img, i⟩
  · obtain ⟨e1, e2, e3⟩ := d4 hn
    exact ⟨e1, e2, fun w hw r hr hl => e3 w hw r hr ((isLive_congr r (he _)).trans hl)⟩

/-! ### What a drain leaves of the directory and of the builders (R60, R61, R72) -/

/-- An entry that no FILLING builder has. -/
def State.unfilled (s : State) (n : Nat) : Prop := ∀ b, (s.builder b).phase = .filling → (s.builder b).entry ≠ n

/-- The lowest FREE entry is FREE. -/
theorem freeEntryNumber_free {s : State} {n : Nat} (hr : Tbl.rising s.media.dir = true)
    (h : s.freeEntryNumber = some n) : (s.entry n).state = .free := by
  obtain ⟨-, -, hm⟩ := Tbl.nextFrom_spec _ _ _ hr h
  rw [State.entry, Tbl.get]
  split at hm <;> rename_i hv <;> simp_all

theorem beginClose_entry (b : Nat) (s : State) {n : Nat} (h : (s.builder b).entry ≠ n) :
    (beginClose b s).entry n = s.entry n := by
  let u := (s.setBuilder b { s.builder b with phase := .closing, failures := 0 }).setEntry (s.builder b).entry
    { s.entry (s.builder b).entry with cls := some (s.source (s.builder b).source).cls }
  have hu : u.entry n = s.entry n := by
    rw [State.setEntry_entry, if_neg (Ne.symm h)]
    rfl
  have hb : (u.builder b).entry = (s.builder b).entry := by simp [u]
  have hs : beginClose b s = askSlot b u := rfl
  rw [hs, ← hu]
  simp only [askSlot]
  split
  · rw [(giveSlot_spec ..).1, hb, if_neg (Ne.symm h)]
  · rw [State.entry, (waitForSlot_keeps b u).2.2.2.2.2.2.2.2.2.2.2.2.2.1]
    rfl

theorem closeBuilders_entry (p : Builder → Bool) {s : State} {n : Nat} (h : s.unfilled n) :
    (closeBuilders p s).entry n = s.entry n ∧ (closeBuilders p s).unfilled n := by
  refine foldl_inv (fun t => t.entry n = s.entry n ∧ t.unfilled n) _ (fun t b ht => ?_) _ s ⟨rfl, h⟩
  split
  · rename_i hc
    simp only [Bool.and_eq_true, decide_eq_true_eq] at hc
    refine ⟨(beginClose_entry b t (ht.2 b hc.1.2)).trans ht.1, fun i hi => ?_⟩
    rw [beginClose_builder] at hi ⊢
    split at hi
    · cases hi
    · rename_i hne
      rw [if_neg hne]
      exact ht.2 i hi
  · exact ht

theorem openOn_entry (b x y : Nat) {s : State} {n : Nat} (hr : Tbl.rising s.media.dir = true)
    (hn : (s.entry n).state ≠ .free) (h : s.unfilled n) :
    (openOn b x y s).entry n = s.entry n ∧ (openOn b x y s).unfilled n := by
  simp only [openOn]
  split
  · rename_i e he
    have hne : n ≠ e := fun hx => hn (hx ▸ freeEntryNumber_free hr he)
    refine ⟨?_, fun i hi => ?_⟩
    · have : (openBuilder b e x y s).entry n = (s.setEntry e
          { state := .filling, source := x, day := y, payloadBytes := 32 }).entry n := rfl
      rw [this, State.setEntry_entry, if_neg hne]
    · have hb : (openBuilder b e x y s).builder i = (s.setBuilder b
          { phase := .filling, source := x, day := y, entry := e, bytesUsed := 32, lastAppend := s.second }).builder i := rfl
      rw [hb, State.setBuilder_builder] at hi ⊢
      split at hi
      · rename_i hib
        rw [if_pos hib]
        exact Ne.symm hne
      · rename_i hib
        rw [if_neg hib]
        exact h i hi
  split
  · exact ⟨rfl, h⟩
  · have hm := (raiseFault_keeps (spaceExhausted none) (setOpening (some .held) s))
    refine ⟨by rw [State.entry, hm.2.2.2.2.1]; rfl, fun i hi => ?_⟩
    have hb : (raiseFault (spaceExhausted none) (setOpening (some .held) s)).comp.builders = s.comp.builders := by simp
    simp only [State.builder, hb] at hi ⊢
    exact h i hi

theorem resolveOpening_entry {s : State} {n : Nat} (hr : Tbl.rising s.media.dir = true)
    (hn : (s.entry n).state ≠ .free) (h : s.unfilled n) :
    (resolveOpening s).entry n = s.entry n ∧ (resolveOpening s).unfilled n := by
  simp only [resolveOpening]
  repeat' split
  all_goals first
    | exact ⟨rfl, h⟩
    | exact openOn_entry _ _ _ hr hn h

/-- An entry that is not FREE and that no FILLING builder has is left as it is. -/
theorem runCompaction_entry {s : State} {n : Nat} (hr : Tbl.rising s.media.dir = true) (hn : (s.entry n).state ≠ .free)
    (h : s.unfilled n) : (runCompaction s).entry n = s.entry n := by
  simp only [runCompaction]
  split
  · have hd : (dropFinished s).media = s.media ∧ (dropFinished s).comp.builders = s.comp.builders := by simp
    have hde : (dropFinished s).entry n = s.entry n := by rw [State.entry, hd.1]; rfl
    have hdu : (dropFinished s).unfilled n := by
      intro i hi
      simp only [State.builder, hd.2] at hi ⊢
      exact h i hi
    obtain ⟨ho, hou⟩ := resolveOpening_entry (s := dropFinished s) (by rw [hd.1]; exact hr) (by rw [hde]; exact hn) hdu
    have hc : (drainCloses (resolveOpening (dropFinished s))).entry n = (resolveOpening (dropFinished s)).entry n := by
      simp only [drainCloses]
      split
      · exact (closeBuilders_entry _ hou).1
      · rfl
    rw [State.entry, (drainComplete_keeps _).2.2.2.2.2.2.2.2.2.2.1]
    exact (hc.trans ho).trans hde
  · rfl

end Sys2Proof.Machine
end

