-- ==== Sys2Proof/Laws/Formats.lean ====
section
/-!
SUPPORT. Laws/Formats.lean: the lengths of the fields of spec/13, and reading back a number a field carries.
-/

namespace Sys2Proof.Machine
open Sys2Proof

@[simp] theorem be_length (n v : Nat) : (be n v).length = n := by
  induction n generalizing v with
  | zero => rfl
  | succ n ih => simp [be, ih]

@[simp] theorem crcBody_length (c : Crc) : (crcBody c).length = 4 := by simp [crcBody]

@[simp] theorem byteAt_cons_zero (b : Byte) (bs : List Byte) : byteAt (b :: bs) 0 = b.toNat := by
  simp [byteAt]

@[simp] theorem byteAt_cons_succ (b : Byte) (bs : List Byte) (i : Nat) : byteAt (b :: bs) (i + 1) = byteAt bs i := by
  simp [byteAt]

theorem numAt_cons (b : Byte) (bs : List Byte) (i n : Nat) : numAt (b :: bs) (i + 1) n = numAt bs i n := by
  induction n generalizing i with
  | zero => rfl
  | succ n ih => simp [numAt, ih]

theorem numAt_append (pre bs : List Byte) (i n : Nat) : numAt (pre ++ bs) (pre.length + i) n = numAt bs i n := by
  induction pre with
  | nil => simp
  | cons b pre ih =>
    have h : (b :: pre).length + i = (pre.length + i) + 1 := by simp; omega
    rw [h, List.cons_append, numAt_cons, ih]

/-- A number read from the bytes that carry it. -/
theorem numAt_be_append (n v : Nat) (rest : List Byte) : numAt (be n v ++ rest) 0 n = v % 256 ^ n := by
  induction n with
  | zero => simp [numAt, Nat.mod_one]
  | succ n ih =>
    have hb : byteAt (be (n + 1) v ++ rest) 0 = v / 256 ^ n % 256 := by
      simp [be, BitVec.toNat_ofNat]
    have hn : numAt (be (n + 1) v ++ rest) (0 + 1) n = v % 256 ^ n := by
      rw [be, List.cons_append, numAt_cons, ih]
    rw [numAt, hb, hn, Nat.mod_pow_succ]
    ring

theorem numAt_be (n v : Nat) : numAt (be n v) 0 n = v % 256 ^ n := by
  simpa using numAt_be_append n v []

/-- A number that fits its field is read back as it was. -/
theorem numAt_be_fits {n v : Nat} (h : fits n v = true) (rest : List Byte) : numAt (be n v ++ rest) 0 n = v := by
  rw [numAt_be_append, Nat.mod_eq_of_lt (by simpa [fits] using h)]

/-- A number read is one that its bytes can hold. -/
theorem numAt_lt (w i : Nat) (bs : List Byte) : numAt bs i w < 256 ^ w := by
  induction w generalizing i with
  | zero => simp [numAt]
  | succ w ih =>
    have h1 : byteAt bs i < 256 := (bs.getD i 0#8).isLt
    have h2 := ih (i + 1)
    rw [numAt, pow_succ]
    nlinarith [Nat.pow_pos (n := w) (show 0 < 256 by omega)]

theorem fits_numAt (w i : Nat) (bs : List Byte) : fits w (numAt bs i w) = true := by
  simpa [fits] using numAt_lt w i bs

/-- What lies above its bytes is no part of a field. -/
theorem be_mul_add (n x v : Nat) : be n (x * 256 ^ n + v) = be n v := by
  induction n generalizing x with
  | zero => rfl
  | succ n ih =>
    have hp : 0 < 256 ^ n := Nat.pow_pos (by omega)
    rw [be, be, show x * 256 ^ (n + 1) + v = (x * 256) * 256 ^ n + v by rw [pow_succ]; ring, ih]
    congr 1
    apply BitVec.eq_of_toNat_eq
    simp only [BitVec.toNat_ofNat]
    rw [show x * 256 * 256 ^ n + v = v + (x * 256) * 256 ^ n by ring, Nat.add_mul_div_right _ _ hp]
    omega

/-- A number read gives its bytes back. -/
theorem be_numAt (w : Nat) (bs : List Byte) (h : w ≤ bs.length) : be w (numAt bs 0 w) = bs.take w := by
  induction w generalizing bs with
  | zero => rfl
  | succ w ih =>
    cases bs with
    | nil => simp at h
    | cons b bs =>
      have h2 := numAt_lt w 0 bs
      have hp : 0 < 256 ^ w := Nat.pow_pos (by omega)
      rw [numAt, numAt_cons, byteAt_cons_zero, be, be_mul_add, ih bs (by simpa using h), List.take_succ_cons]
      congr 1
      apply BitVec.eq_of_toNat_eq
      rw [BitVec.toNat_ofNat, show b.toNat * 256 ^ w + numAt bs 0 w = numAt bs 0 w + b.toNat * 256 ^ w by ring,
        Nat.add_mul_div_right _ _ hp, Nat.div_eq_of_lt h2, Nat.zero_add]
      exact Nat.mod_eq_of_lt b.isLt

theorem num_whole {n : Nat} {raw : List Byte} (h : raw.length = n) : be n (numAt raw 0 n) = raw := by
  rw [be_numAt n raw (by omega), ← h, List.take_length]

theorem be_one (b : Byte) : be 1 b.toNat = [b] := by simp [be]

theorem fits_byte (b : Byte) : fits 1 b.toNat = true := by simpa [fits] using b.isLt

theorem bytes_toNat (ds : List Byte) : (ds.map BitVec.toNat).flatMap (be 1) = ds := by
  induction ds with
  | nil => rfl
  | cons d ds ih =>
    rw [List.map_cons, List.flatMap_cons, ih]
    simp [be]

@[simp] theorem drop_be_append (n v : Nat) (rest : List Byte) : (be n v ++ rest).drop n = rest := by
  rw [List.drop_append_of_le_length (by simp)]
  simp

/-- The fields of a body that begins with a number, read in order. -/
theorem readNums_cons {n v : Nat} (h : fits n v = true) (ws : List Nat) (rest : List Byte) :
    readNums (n :: ws) (be n v ++ rest) = v :: readNums ws rest := by
  rw [readNums, numAt_be_fits h, drop_be_append]

theorem readNums_last {n v : Nat} (h : fits n v = true) : readNums [n] (be n v) = [v] := by
  have := readNums_cons h [] []
  simpa [readNums] using this

/-- A frame is as long as its body and twelve bytes more. -/
theorem frame_length (c k t st : Nat) (body : List Byte) : (frame c k t st body).length = body.length + 12 := by
  simp [frame, frameHead]
  omega

@[simp] theorem count4_length (v : Nat) : (count4 v).length = 4 := by simp [count4]

@[simp] theorem flag_length (b : Bool) : (flag b).length = 1 := by cases b <;> rfl

@[simp] theorem keyBody_length (n d : Nat) : (keyBody n d).length = 4 := by simp [keyBody]

/-- A finding is carried in 27 bytes (R202). -/
theorem findingBytes_length (f : Finding) : (findingBytes f).length = 27 := by
  simp [findingBytes]

/-- A notice frame is 18 bytes long (R200, R202). -/
theorem noticeFrame_length (c n x : Nat) : (noticeFrame c n x).length = 18 := by
  simp [noticeFrame, frame_length]

end Sys2Proof.Machine
end

