-- ==== Sys2Proof/Laws/Frames.lean ====
section
/-!
SUPPORT. Laws/Frames.lean: the parts of a frame read back from its bytes, what arrives on a lane piece by piece, and that a body
read gives its bytes back: the bodies of fixed fields, and those whose length follows from what they hold.
-/

namespace Sys2Proof.Machine
open Sys2Proof

/-! ### The parts of a frame (R200) -/

theorem frameHead_length (c k t st : Nat) (body : List Byte) : (frameHead c k t st body).length = body.length + 8 := by
  simp [frameHead]
  omega

theorem checkedBytes_frame (c k t st : Nat) (body : List Byte) :
    checkedBytes (frame c k t st body) = frameHead c k t st body := by
  simp [checkedBytes, frame]

/-- The check a frame is sent with agrees with its contents. -/
@[simp] theorem checkAgrees_frame (c k t st : Nat) (body : List Byte) : checkAgrees (frame c k t st body) = true := by
  have hl : (frame c k t st body).length - 4 = (frameHead c k t st body).length + 0 := by
    rw [frame_length, frameHead_length]
    omega
  rw [checkAgrees, checkedBytes_frame, hl, decide_eq_true_eq]
  rw [frame, numAt_append, crcBody, numAt_be]
  exact Nat.mod_eq_of_lt (by simpa using (crc32 (frameHead c k t st body)).isLt)

@[simp] theorem bodyOf_frame (c k t st : Nat) (body : List Byte) : bodyOf (frame c k t st body) = body := by
  rw [bodyOf, checkedBytes_frame]
  simp [frameHead, be]

theorem byteAt_frame_zero (c k t st : Nat) (body : List Byte) : byteAt (frame c k t st body) 0 = 0xA5 := by
  simp [frame, frameHead, byteAt]

theorem byteAt_frame_class {c : Nat} (h : c < 256) (k t st : Nat) (body : List Byte) :
    byteAt (frame c k t st body) 3 = c := by
  simp [frame, frameHead, byteAt, be, Nat.mod_eq_of_lt h]

theorem byteAt_frame_kind {k : Nat} (h : k < 256) (c t st : Nat) (body : List Byte) :
    byteAt (frame c k t st body) 4 = k := by
  simp [frame, frameHead, byteAt, be, Nat.mod_eq_of_lt h]

theorem numAt_frame_tag {t : Nat} (h : t < 65536) (c k st : Nat) (body : List Byte) :
    numAt (frame c k t st body) 5 2 = t := by
  simp [frame, frameHead, byteAt, be, numAt]
  omega

theorem numAt_frame_length {body : List Byte} (h : body.length ≤ 4188) (c k t st : Nat) :
    numAt (frame c k t st body) 1 2 = body.length + 12 := by
  simp [frame, frameHead, byteAt, be, numAt]
  omega

/-- A frame with fields in their ranges is read by its class alone. -/
theorem readFrame_frame {c k t : Nat} {body : List Byte} (hb : body.length ≤ 4188) (o : AckOrder) (p : Port) (st : Nat) :
    readFrame o p (frame c k t st body) = some (readClass o p (frame c k t st body)) := by
  have hl := frame_length c k t st body
  have hne : frame c k t st body ≠ [] := by
    intro h
    simp [h] at hl
  rw [readFrame, if_neg hne, byteAt_frame_zero, numAt_frame_length hb, hl, checkAgrees_frame]
  rw [if_neg (by simp), if_neg (by omega), if_neg (by omega), if_neg (by simp)]
  simp

/-- A request's frame is read by the table of requests. -/
theorem readFrame_request {k t : Nat} {body : List Byte} (hk : k < 256) (ht : t < 65536) (hb : body.length ≤ 4188)
    (o : AckOrder) (p : Port) (st : Nat) :
    readFrame o p (frame 1 k t st body) = some ((readRequest o p t k body).getD (.requestUnknownKind p t k)) := by
  rw [readFrame_frame hb, readClass, byteAt_frame_class (by omega), byteAt_frame_kind hk, numAt_frame_tag ht, bodyOf_frame]
  rfl

/-! ### What arrives on a lane (R193) -/

theorem straySpan_le (bs : List Byte) : straySpan bs ≤ bs.length := (List.takeWhile_sublist _).length_le

/-- Bytes without the sync pattern, up to the next one. -/
theorem straySpan_append {stray rest : List Byte} (h : ∀ b ∈ stray, b ≠ syncByte)
    (hr : rest = [] ∨ rest.head? = some syncByte) : straySpan (stray ++ rest) = stray.length := by
  have h0 : rest.takeWhile (fun b => b != syncByte) = [] := by
    rcases hr with rfl | hr
    · rfl
    · cases rest with
      | nil => rfl
      | cons b bs =>
        obtain rfl : b = syncByte := by simpa using hr
        simp
  rw [straySpan, List.takeWhile_append_of_pos (by simpa using h), h0, List.append_nil]

/-- A piece is not empty and lies within what has arrived. -/
theorem pieceLength_bounds {bs : List Byte} {n : Nat} (h : pieceLength bs = some n) : 0 < n ∧ n ≤ bs.length := by
  cases bs with
  | nil => exact absurd h (by simp [pieceLength])
  | cons b bs =>
    rw [pieceLength, if_neg (by simp)] at h
    by_cases hb : byteAt (b :: bs) 0 = 0xA5
    · rw [if_neg (by simp [hb])] at h
      split at h
      · exact absurd h (by simp)
      · split at h
        · obtain rfl := Option.some.inj h
          have := straySpan_le ((b :: bs).drop 3)
          simp at this ⊢
          simp at *
          omega
        · split at h
          · exact absurd h (by simp)
          · obtain rfl := Option.some.inj h
            omega
    · rw [if_pos hb] at h
      obtain rfl := Option.some.inj h
      refine ⟨?_, straySpan_le _⟩
      have hne : b ≠ syncByte := fun e => hb (by rw [e]; rfl)
      simp [straySpan, hne]

/-- The pieces read do not depend on the fuel, once there is enough of it. -/
theorem readPieces_enough (o : AckOrder) (p : Port) (m k : Nat) (bs : List Byte) (hm : bs.length ≤ m)
    (hk : bs.length ≤ k) : readPieces o p m bs = readPieces o p k bs := by
  induction m generalizing k bs with
  | zero =>
    obtain rfl : bs = [] := List.length_eq_zero_iff.mp (by omega)
    cases k <;> simp [readPieces, pieceLength]
  | succ m ih =>
    cases k with
    | zero =>
      obtain rfl : bs = [] := List.length_eq_zero_iff.mp (by omega)
      simp [readPieces, pieceLength]
    | succ k =>
      rw [readPieces, readPieces]
      cases h : pieceLength bs with
      | none => rfl
      | some n =>
        have hn := pieceLength_bounds h
        have hl : (bs.drop n).length = bs.length - n := List.length_drop
        simp only
        rw [ih k (bs.drop n) (by omega) (by omega)]

/-- The first piece gives its command, and what follows it is read as though it came first. -/
theorem readLane_piece (o : AckOrder) (p : Port) {bs : List Byte} {n : Nat} (h : pieceLength bs = some n) :
    readLane o p bs = (readFrame o p (bs.take n)).toList ++ readLane o p (bs.drop n) := by
  have hn := pieceLength_bounds h
  obtain ⟨m, hm⟩ : ∃ m, bs.length = m + 1 := ⟨bs.length - 1, by omega⟩
  have hl : (bs.drop n).length = bs.length - n := List.length_drop
  rw [readLane, readLane, hm, readPieces, h]
  simp only
  rw [readPieces_enough o p m (bs.drop n).length (bs.drop n) (by omega) (Nat.le_refl _)]

/-- A piece that has not come whole gives nothing. -/
theorem readLane_unfinished (o : AckOrder) (p : Port) {bs : List Byte} (h : pieceLength bs = none) :
    readLane o p bs = [] := by
  rw [readLane]
  cases bs.length with
  | zero => rfl
  | succ m => rw [readPieces, h]

/-! ### Bodies of fixed fields (R204) -/

/-- The bytes of fields of the given widths. -/
def fieldBytes : List (Nat × Nat) → List Byte
  | [] => []
  | (w, v) :: fs => be w v ++ fieldBytes fs

theorem fieldBytes_length (fs : List (Nat × Nat)) : (fieldBytes fs).length = (fs.map Prod.fst).sum := by
  induction fs with
  | nil => rfl
  | cons f fs ih => simp [fieldBytes, ih]

theorem readNums_fieldBytes (fs : List (Nat × Nat)) (h : ∀ f ∈ fs, fits f.1 f.2 = true) :
    readNums (fs.map Prod.fst) (fieldBytes fs) = fs.map Prod.snd := by
  induction fs with
  | nil => rfl
  | cons f fs ih =>
    simp only [List.map_cons, fieldBytes]
    rw [readNums_cons (h f (by simp)), ih (fun g hg => h g (by simp [hg]))]

/-- A body of fixed fields, each in its range, is read back. -/
theorem fixedBody_fieldBytes (fs : List (Nat × Nat)) (h : ∀ f ∈ fs, fits f.1 f.2 = true) (g : (Nat → Nat) → Instr) :
    fixedBody (fs.map Prod.fst) (fieldBytes fs) g = some (g (fun i => (fs.map Prod.snd).getD i 0)) := by
  rw [fixedBody, if_pos (fieldBytes_length fs), readNums_fieldBytes fs h]

theorem readNums_length (ws : List Nat) (bs : List Byte) : (readNums ws bs).length = ws.length := by
  induction ws generalizing bs with
  | nil => rfl
  | cons w ws ih => simp [readNums, ih]

theorem fieldBytes_readNums (ws : List Nat) (bs : List Byte) (h : bs.length = ws.sum) :
    fieldBytes (ws.zip (readNums ws bs)) = bs := by
  induction ws generalizing bs with
  | nil => simpa [readNums, fieldBytes] using (List.length_eq_zero_iff.mp (by simpa using h)).symm
  | cons w ws ih =>
    simp only [List.sum_cons] at h
    rw [readNums, List.zip_cons_cons, fieldBytes, be_numAt w bs (by omega), ih _ (by simp; omega), List.take_append_drop]

theorem readNums_fits (ws : List Nat) (bs : List Byte) : ∀ f ∈ ws.zip (readNums ws bs), fits f.1 f.2 = true := by
  induction ws generalizing bs with
  | nil => simp [readNums]
  | cons w ws ih =>
    rw [readNums, List.zip_cons_cons]
    intro f hf
    rcases List.mem_cons.mp hf with rfl | hf
    · exact fits_numAt w 0 bs
    · exact ih _ f hf


/-- A body taken as fixed fields is the bytes of those fields, each in its range: check 3 lets no other length pass (R194). -/
theorem fixedBody_some {ws : List Nat} {body : List Byte} {f : (Nat → Nat) → Instr} {c : Instr}
    (h : fixedBody ws body f = some c) : ∃ vs : List Nat, vs.length = ws.length ∧ body = fieldBytes (ws.zip vs) ∧
      (∀ g ∈ ws.zip vs, fits g.1 g.2 = true) ∧ c = f (fun i => vs.getD i 0) := by
  rw [fixedBody] at h
  split at h
  · rename_i hl
    exact ⟨readNums ws body, readNums_length _ _, (fieldBytes_readNums ws body hl).symm, readNums_fits ws body,
      (Option.some.inj h).symm⟩
  · cases h

/-! ### Bodies whose length follows from what they hold (R204) -/

theorem wholeDigits_some {raw : List Byte} {ds : List Nat} (h : wholeDigits raw = some ds) :
    digitsBody ds = raw ∧ digitsFit ds = true := by
  cases raw with
  | nil => cases h
  | cons n raw =>
    rw [wholeDigits] at h
    split at h
    · rename_i hl
      cases h
      simp [digitsBody, listBody, bytes_toNat, hl, be_one, digitsFit, fits_byte]
    · cases h

/-- A field and value taken are ones that a frame can carry, and give their bytes back. -/
theorem readCodeValue_some {code : Byte} {raw : List Byte} {v : CodeOperand} (h : readCodeValue code.toNat raw = some v) :
    v.wf = true ∧ codeOperandBody v = code :: raw := by
  have hc := be_one code
  have hw := fits_byte code
  unfold readCodeValue at h
  split at h
  · rename_i e
    split at h
    · rename_i hl
      cases h
      rw [e] at hc
      simp [CodeOperand.wf, CodeValue.fits, fits_numAt, codeOperandBody, num_whole hl, hc]
    · cases h
  · rename_i e
    split at h
    · rename_i hl
      cases h
      rw [e] at hc
      simp [CodeOperand.wf, CodeValue.fits, fits_numAt, codeOperandBody, num_whole hl, hc]
    · cases h
  · rename_i e
    rw [Option.map_eq_some_iff] at h
    obtain ⟨ds, h1, rfl⟩ := h
    obtain ⟨h2, h3⟩ := wholeDigits_some h1
    rw [e] at hc
    simp [CodeOperand.wf, CodeValue.fits, codeOperandBody, h2, h3, hc]
  · rename_i e1 e2 e3
    split at h
    · rename_i hl
      cases h
      simp [CodeOperand.wf, hw, hl, codeOperandBody, hc]
      exact ⟨e1, e2, e3⟩
    · cases h

/-- A target taken is one that a frame can carry, and gives its bytes back. -/
theorem readTarget_some {code : Byte} {raw : List Byte} {v : SeekOperand} (h : readTarget code.toNat raw = some v) :
    v.wf = true ∧ targetBody v = code :: raw := by
  have hc := be_one code
  have hw := fits_byte code
  unfold readTarget at h
  split at h
  · rename_i e
    split at h
    · rename_i hl
      cases h
      rw [e] at hc
      simp [SeekOperand.wf, targetBody, hc, hl]
    · cases h
  · rename_i e
    split at h
    · rename_i hl
      cases h
      rw [e] at hc
      simp [SeekOperand.wf, targetBody, hc, hl]
    · cases h
  · rename_i e
    split at h
    · rename_i hl
      cases h
      have h2 : be 2 (numAt raw 0 2) ++ be 2 (numAt raw 2 2) = raw := by
        match raw, hl with
        | [a, b, x, y], _ =>
          have h3 : numAt [a, b, x, y] 2 2 = numAt [x, y] 0 2 := numAt_append [a, b] [x, y] 0 2
          rw [h3, be_numAt 2 [a, b, x, y] (by simp), be_numAt 2 [x, y] (by simp)]
          rfl
      rw [e] at hc
      simp [SeekOperand.wf, fits_numAt, targetBody, hc, h2]
    · cases h
  · rename_i e1 e2 e3
    split at h
    · rename_i hl
      cases h
      simp [SeekOperand.wf, hw, hl, targetBody, hc]
      exact ⟨e1, e2, e3⟩
    · cases h

/-- A filter and direction taken are ones that a frame can carry, and give their bytes back. -/
theorem readFilter_some {raw : List Byte} {v : Option FilterOperand × Nat} (h : readFilter raw = some v) :
    v.1.all FilterOperand.wf = true ∧ fits 1 v.2 = true ∧
      opt (fun f : FilterOperand => digitsBody f.digits ++ [f.kinds]) v.1 ++ be 1 v.2 = raw := by
  unfold readFilter at h
  split at h
  · cases h
    simp [fits_byte, opt, be_one]
  · rename_i n rest
    split at h
    · rename_i ks d hd
      cases h
      have hl : n.toNat ≤ rest.length := by
        by_contra hn
        rw [List.drop_eq_nil_of_le (by omega)] at hd
        cases hd
      have hs : rest.take n.toNat ++ [ks, d] = rest := by rw [← hd, List.take_append_drop]
      simp [FilterOperand.wf, digitsFit, fits_byte, opt, digitsBody, listBody, be_one, Nat.min_eq_left hl]
      rw [← List.map_take, bytes_toNat, hs]
      exact ⟨fun x hx => by obtain ⟨b, -, rfl⟩ := List.mem_map.mp hx; exact fits_byte b, rfl⟩
    · cases h
  · cases h

end Sys2Proof.Machine
end

