-- ==== Sys2Proof/Laws/KeepsReaders.lean ====
section
/-!
SUPPORT. Laws/KeepsReaders.lean: everything that the cursors and the audit jobs leave as it was.
-/

namespace Sys2Proof.Machine
open Sys2Proof

@[simp] theorem endApply_keeps (h : Nat) (w : Sweep) (s : State) :
    (endApply h w s).pending = s.pending ∧ (endApply h w s).powered = s.powered ∧
    (endApply h w s).second = s.second ∧ (endApply h w s).cursors = s.cursors ∧ (endApply h w s).audit = s.audit ∧
    (endApply h w s).intake.sources = s.intake.sources ∧ (endApply h w s).intake.ageings = s.intake.ageings ∧
    (endApply h w s).comp.headHeld = s.comp.headHeld ∧ (endApply h w s).comp.closesOwed = s.comp.closesOwed ∧
    (endApply h w s).comp.codes = s.comp.codes ∧ (endApply h w s).media.flash = s.media.flash ∧
    (endApply h w s).ret.today = s.ret.today ∧ (endApply h w s).ret.lastSwept = s.ret.lastSwept ∧
    (endApply h w s).ret.classes = s.ret.classes ∧ (endApply h w s).ret.lastDay = s.ret.lastDay ∧
    (endApply h w s).ret.lastExtend = s.ret.lastExtend ∧ (endApply h w s).ret.erasing = s.ret.erasing ∧
    (endApply h w s).cat.profile = s.cat.profile ∧ (endApply h w s).cat.params = s.cat.params ∧
    (endApply h w s).cat.channel = s.cat.channel ∧ (endApply h w s).cat.last = s.cat.last ∧
    (endApply h w s).cat.newer = s.cat.newer ∧ (endApply h w s).cat.load = s.cat.load ∧
    (endApply h w s).cat.pendingFormat = s.cat.pendingFormat ∧
    (endApply h w s).cat.formatCounter = s.cat.formatCounter ∧ (endApply h w s).cat.format = s.cat.format ∧
    (∀ p, ((endApply h w s).link p).up = (s.link p).up) ∧ (∀ p, ((endApply h w s).link p).epoch = (s.link p).epoch) ∧
    (∀ p, ((endApply h w s).link p).outstanding = (s.link p).outstanding) ∧
    (∀ p, ((endApply h w s).link p).sending = (s.link p).sending) ∧
    (∀ p, ((endApply h w s).link p).replyTurn = (s.link p).replyTurn) ∧
    (∀ p, ((endApply h w s).link p).frames = (s.link p).frames) ∧
    (∀ p, ((endApply h w s).link p).line noticeLinkError = (s.link p).line noticeLinkError) ∧
    (∀ p, ((endApply h w s).link p).line noticeFileAborted = (s.link p).line noticeFileAborted) ∧
    (∀ p, ((endApply h w s).link p).line noticeCursorClosed = (s.link p).line noticeCursorClosed) ∧
    (∀ p, ((endApply h w s).link p).line noticeCheckpointDone = (s.link p).line noticeCheckpointDone) ∧
    (∀ p, ((endApply h w s).link p).line noticeFindings = (s.link p).line noticeFindings) := by
  simp [endApply]

@[simp] theorem runOutApply_keeps (h : Nat) (w : Sweep) (s : State) :
    (runOutApply h w s).pending = s.pending ∧ (runOutApply h w s).powered = s.powered ∧
    (runOutApply h w s).second = s.second ∧ (runOutApply h w s).cursors = s.cursors ∧
    (runOutApply h w s).intake.sources = s.intake.sources ∧ (runOutApply h w s).intake.ageings = s.intake.ageings ∧
    (runOutApply h w s).comp.headHeld = s.comp.headHeld ∧ (runOutApply h w s).comp.closesOwed = s.comp.closesOwed ∧
    (runOutApply h w s).comp.codes = s.comp.codes ∧ (runOutApply h w s).media.flash = s.media.flash ∧
    (runOutApply h w s).ret.today = s.ret.today ∧ (runOutApply h w s).ret.lastSwept = s.ret.lastSwept ∧
    (runOutApply h w s).ret.classes = s.ret.classes ∧ (runOutApply h w s).ret.lastDay = s.ret.lastDay ∧
    (runOutApply h w s).ret.lastExtend = s.ret.lastExtend ∧ (runOutApply h w s).ret.erasing = s.ret.erasing ∧
    (runOutApply h w s).audit.job = s.audit.job ∧ (runOutApply h w s).audit.buffer = s.audit.buffer ∧
    (runOutApply h w s).cat.profile = s.cat.profile ∧ (runOutApply h w s).cat.params = s.cat.params ∧
    (runOutApply h w s).cat.channel = s.cat.channel ∧ (runOutApply h w s).cat.last = s.cat.last ∧
    (runOutApply h w s).cat.newer = s.cat.newer ∧ (runOutApply h w s).cat.load = s.cat.load ∧
    (runOutApply h w s).cat.pendingFormat = s.cat.pendingFormat ∧
    (runOutApply h w s).cat.formatCounter = s.cat.formatCounter ∧ (runOutApply h w s).cat.format = s.cat.format ∧
    (∀ p, ((runOutApply h w s).link p).up = (s.link p).up) ∧
    (∀ p, ((runOutApply h w s).link p).epoch = (s.link p).epoch) ∧
    (∀ p, ((runOutApply h w s).link p).outstanding = (s.link p).outstanding) ∧
    (∀ p, ((runOutApply h w s).link p).sending = (s.link p).sending) ∧
    (∀ p, ((runOutApply h w s).link p).replyTurn = (s.link p).replyTurn) ∧
    (∀ p, ((runOutApply h w s).link p).frames = (s.link p).frames) ∧
    (∀ p, ((runOutApply h w s).link p).line noticeLinkError = (s.link p).line noticeLinkError) ∧
    (∀ p, ((runOutApply h w s).link p).line noticeFileAborted = (s.link p).line noticeFileAborted) ∧
    (∀ p, ((runOutApply h w s).link p).line noticeCursorClosed = (s.link p).line noticeCursorClosed) ∧
    (∀ p, ((runOutApply h w s).link p).line noticeCheckpointDone = (s.link p).line noticeCheckpointDone) := by
  simp only [runOutApply]
  repeat' split
  all_goals simp

@[simp] theorem resumeSweep_keeps (s : State) :
    (resumeSweep s).pending = s.pending ∧ (resumeSweep s).powered = s.powered ∧ (resumeSweep s).second = s.second ∧
    (resumeSweep s).cursors = s.cursors ∧ (resumeSweep s).intake.sources = s.intake.sources ∧
    (resumeSweep s).intake.ageings = s.intake.ageings ∧ (resumeSweep s).comp.headHeld = s.comp.headHeld ∧
    (resumeSweep s).comp.closesOwed = s.comp.closesOwed ∧ (resumeSweep s).comp.codes = s.comp.codes ∧
    (resumeSweep s).media.flash = s.media.flash ∧ (resumeSweep s).ret.today = s.ret.today ∧
    (resumeSweep s).ret.lastSwept = s.ret.lastSwept ∧ (resumeSweep s).ret.classes = s.ret.classes ∧
    (resumeSweep s).ret.lastDay = s.ret.lastDay ∧ (resumeSweep s).ret.lastExtend = s.ret.lastExtend ∧
    (resumeSweep s).ret.erasing = s.ret.erasing ∧ (resumeSweep s).audit.job = s.audit.job ∧
    (resumeSweep s).audit.buffer = s.audit.buffer ∧ (resumeSweep s).cat.profile = s.cat.profile ∧
    (resumeSweep s).cat.params = s.cat.params ∧ (resumeSweep s).cat.channel = s.cat.channel ∧
    (resumeSweep s).cat.last = s.cat.last ∧ (resumeSweep s).cat.newer = s.cat.newer ∧
    (resumeSweep s).cat.load = s.cat.load ∧ (resumeSweep s).cat.pendingFormat = s.cat.pendingFormat ∧
    (resumeSweep s).cat.formatCounter = s.cat.formatCounter ∧ (resumeSweep s).cat.format = s.cat.format ∧
    (∀ p, ((resumeSweep s).link p).up = (s.link p).up) ∧ (∀ p, ((resumeSweep s).link p).epoch = (s.link p).epoch) ∧
    (∀ p, ((resumeSweep s).link p).outstanding = (s.link p).outstanding) ∧
    (∀ p, ((resumeSweep s).link p).sending = (s.link p).sending) ∧
    (∀ p, ((resumeSweep s).link p).replyTurn = (s.link p).replyTurn) ∧
    (∀ p, ((resumeSweep s).link p).frames = (s.link p).frames) ∧
    (∀ p, ((resumeSweep s).link p).line noticeLinkError = (s.link p).line noticeLinkError) ∧
    (∀ p, ((resumeSweep s).link p).line noticeFileAborted = (s.link p).line noticeFileAborted) ∧
    (∀ p, ((resumeSweep s).link p).line noticeCursorClosed = (s.link p).line noticeCursorClosed) ∧
    (∀ p, ((resumeSweep s).link p).line noticeCheckpointDone = (s.link p).line noticeCheckpointDone) := by
  simp only [resumeSweep]
  repeat' split
  all_goals simp

@[simp] theorem endRelease_keeps (h : Nat) (w : Sweep) (s : State) :
    (endRelease h w s).pending = s.pending ∧ (endRelease h w s).powered = s.powered ∧
    (endRelease h w s).second = s.second ∧ (endRelease h w s).cursors = s.cursors ∧
    (endRelease h w s).audit = s.audit ∧ (endRelease h w s).intake.sources = s.intake.sources ∧
    (endRelease h w s).intake.ageings = s.intake.ageings ∧ (endRelease h w s).comp.headHeld = s.comp.headHeld ∧
    (endRelease h w s).comp.closesOwed = s.comp.closesOwed ∧ (endRelease h w s).comp.codes = s.comp.codes ∧
    (endRelease h w s).media.flash = s.media.flash ∧ (endRelease h w s).ret.today = s.ret.today ∧
    (endRelease h w s).ret.lastSwept = s.ret.lastSwept ∧ (endRelease h w s).ret.classes = s.ret.classes ∧
    (endRelease h w s).ret.lastDay = s.ret.lastDay ∧ (endRelease h w s).ret.lastExtend = s.ret.lastExtend ∧
    (endRelease h w s).ret.erasing = s.ret.erasing ∧ (endRelease h w s).cat.profile = s.cat.profile ∧
    (endRelease h w s).cat.params = s.cat.params ∧ (endRelease h w s).cat.channel = s.cat.channel ∧
    (endRelease h w s).cat.last = s.cat.last ∧ (endRelease h w s).cat.newer = s.cat.newer ∧
    (endRelease h w s).cat.load = s.cat.load ∧ (endRelease h w s).cat.pendingFormat = s.cat.pendingFormat ∧
    (endRelease h w s).cat.formatCounter = s.cat.formatCounter ∧ (endRelease h w s).cat.format = s.cat.format ∧
    (∀ p, ((endRelease h w s).link p).up = (s.link p).up) ∧
    (∀ p, ((endRelease h w s).link p).epoch = (s.link p).epoch) ∧
    (∀ p, ((endRelease h w s).link p).outstanding = (s.link p).outstanding) ∧
    (∀ p, ((endRelease h w s).link p).sending = (s.link p).sending) ∧
    (∀ p, ((endRelease h w s).link p).replyTurn = (s.link p).replyTurn) ∧
    (∀ p, ((endRelease h w s).link p).frames = (s.link p).frames) ∧
    (∀ p, ((endRelease h w s).link p).line noticeLinkError = (s.link p).line noticeLinkError) ∧
    (∀ p, ((endRelease h w s).link p).line noticeFileAborted = (s.link p).line noticeFileAborted) ∧
    (∀ p, ((endRelease h w s).link p).line noticeCursorClosed = (s.link p).line noticeCursorClosed) ∧
    (∀ p, ((endRelease h w s).link p).line noticeCheckpointDone = (s.link p).line noticeCheckpointDone) ∧
    (∀ p, ((endRelease h w s).link p).line noticeFindings = (s.link p).line noticeFindings) := by
  simp [endRelease]

@[simp] theorem raiseReader_keeps (e : Nat) (s : State) :
    (raiseReader e s).pending = s.pending ∧ (raiseReader e s).powered = s.powered ∧
    (raiseReader e s).second = s.second ∧ (raiseReader e s).cursors = s.cursors ∧
    (raiseReader e s).intake = s.intake ∧ (raiseReader e s).comp = s.comp ∧ (raiseReader e s).ret = s.ret ∧
    (raiseReader e s).audit = s.audit ∧ (raiseReader e s).cat = s.cat ∧ (raiseReader e s).fault = s.fault ∧
    (∀ p, (raiseReader e s).link p = s.link p) ∧ (raiseReader e s).media.channels = s.media.channels ∧
    (raiseReader e s).media.pointer = s.media.pointer ∧ (raiseReader e s).media.slotWait = s.media.slotWait ∧
    (raiseReader e s).media.flash = s.media.flash := by
  simp [raiseReader]

@[simp] theorem lowerReader_keeps (e : Nat) (s : State) :
    (lowerReader e s).pending = s.pending ∧ (lowerReader e s).powered = s.powered ∧
    (lowerReader e s).second = s.second ∧ (lowerReader e s).cursors = s.cursors ∧
    (lowerReader e s).intake = s.intake ∧ (lowerReader e s).comp = s.comp ∧ (lowerReader e s).ret = s.ret ∧
    (lowerReader e s).audit = s.audit ∧ (lowerReader e s).cat = s.cat ∧ (lowerReader e s).fault = s.fault ∧
    (∀ p, (lowerReader e s).link p = s.link p) ∧ (lowerReader e s).media.channels = s.media.channels ∧
    (lowerReader e s).media.pointer = s.media.pointer ∧ (lowerReader e s).media.slotWait = s.media.slotWait ∧
    (lowerReader e s).media.flash = s.media.flash := by
  simp [lowerReader]

@[simp] theorem askRead_keeps (e : Nat) (who : Requester) (s : State) :
    (askRead e who s).pending = s.pending ∧ (askRead e who s).powered = s.powered ∧
    (askRead e who s).second = s.second ∧ (askRead e who s).cursors = s.cursors ∧
    (askRead e who s).intake = s.intake ∧ (askRead e who s).comp = s.comp ∧ (askRead e who s).ret = s.ret ∧
    (askRead e who s).audit = s.audit ∧ (askRead e who s).cat = s.cat ∧ (askRead e who s).fault = s.fault ∧
    (∀ p, (askRead e who s).link p = s.link p) ∧ (askRead e who s).media.dir = s.media.dir ∧
    (askRead e who s).media.pointer = s.media.pointer ∧ (askRead e who s).media.slotWait = s.media.slotWait ∧
    (askRead e who s).media.flash = s.media.flash := by
  simp only [askRead]
  repeat' split
  all_goals simp

@[simp] theorem useFree_keeps (s : State) :
    (useFree s).pending = s.pending ∧ (useFree s).powered = s.powered ∧ (useFree s).second = s.second ∧
    (useFree s).cursors = s.cursors ∧ (useFree s).intake = s.intake ∧ (useFree s).comp = s.comp ∧
    (useFree s).media = s.media ∧ (useFree s).ret = s.ret ∧ (useFree s).audit = s.audit ∧ (useFree s).cat = s.cat ∧
    (useFree s).fault = s.fault ∧ (∀ p, (useFree s).link p = s.link p) := by
  simp [useFree]

@[simp] theorem releaseHeld_keeps (c : Nat) (s : State) :
    (releaseHeld c s).pending = s.pending ∧ (releaseHeld c s).powered = s.powered ∧
    (releaseHeld c s).second = s.second ∧ (releaseHeld c s).intake = s.intake ∧ (releaseHeld c s).comp = s.comp ∧
    (releaseHeld c s).ret = s.ret ∧ (releaseHeld c s).audit = s.audit ∧ (releaseHeld c s).cat = s.cat ∧
    (releaseHeld c s).fault = s.fault ∧ (∀ p, (releaseHeld c s).link p = s.link p) ∧
    (releaseHeld c s).media.channels = s.media.channels ∧ (releaseHeld c s).media.pointer = s.media.pointer ∧
    (releaseHeld c s).media.slotWait = s.media.slotWait ∧ (releaseHeld c s).media.flash = s.media.flash := by
  simp only [releaseHeld]
  repeat' split
  all_goals simp

@[simp] theorem passEntry_keeps (c e : Nat) (s : State) :
    (passEntry c e s).pending = s.pending ∧ (passEntry c e s).powered = s.powered ∧
    (passEntry c e s).second = s.second ∧ (passEntry c e s).intake = s.intake ∧ (passEntry c e s).comp = s.comp ∧
    (passEntry c e s).media = s.media ∧ (passEntry c e s).ret = s.ret ∧ (passEntry c e s).audit = s.audit ∧
    (passEntry c e s).cat = s.cat ∧ (passEntry c e s).fault = s.fault ∧
    (∀ p, (passEntry c e s).link p = s.link p) := by
  simp [passEntry]

@[simp] theorem enterEntry_keeps (c e : Nat) (s : State) :
    (enterEntry c e s).pending = s.pending ∧ (enterEntry c e s).powered = s.powered ∧
    (enterEntry c e s).second = s.second ∧ (enterEntry c e s).intake = s.intake ∧ (enterEntry c e s).comp = s.comp ∧
    (enterEntry c e s).ret = s.ret ∧ (enterEntry c e s).audit = s.audit ∧ (enterEntry c e s).cat = s.cat ∧
    (enterEntry c e s).fault = s.fault ∧ (∀ p, (enterEntry c e s).link p = s.link p) ∧
    (enterEntry c e s).media.pointer = s.media.pointer ∧ (enterEntry c e s).media.slotWait = s.media.slotWait ∧
    (enterEntry c e s).media.flash = s.media.flash := by
  simp [enterEntry]

@[simp] theorem seekEntry_keeps (c fuel : Nat) (s : State) :
    (seekEntry c fuel s).pending = s.pending ∧ (seekEntry c fuel s).powered = s.powered ∧
    (seekEntry c fuel s).second = s.second ∧ (seekEntry c fuel s).intake = s.intake ∧
    (seekEntry c fuel s).comp = s.comp ∧ (seekEntry c fuel s).ret = s.ret ∧ (seekEntry c fuel s).audit = s.audit ∧
    (seekEntry c fuel s).cat = s.cat ∧ (seekEntry c fuel s).fault = s.fault ∧
    (∀ p, (seekEntry c fuel s).link p = s.link p) ∧ (seekEntry c fuel s).media.pointer = s.media.pointer ∧
    (seekEntry c fuel s).media.slotWait = s.media.slotWait ∧ (seekEntry c fuel s).media.flash = s.media.flash := by
  induction fuel generalizing s with
  | zero => simp [seekEntry]
  | succ n ih =>
    simp only [seekEntry]
    repeat' split
    all_goals simp [ih]

@[simp] theorem seekOn_keeps (c : Nat) (s : State) :
    (seekOn c s).pending = s.pending ∧ (seekOn c s).powered = s.powered ∧ (seekOn c s).second = s.second ∧
    (seekOn c s).intake = s.intake ∧ (seekOn c s).comp = s.comp ∧ (seekOn c s).ret = s.ret ∧
    (seekOn c s).audit = s.audit ∧ (seekOn c s).cat = s.cat ∧ (seekOn c s).fault = s.fault ∧
    (∀ p, (seekOn c s).link p = s.link p) ∧ (seekOn c s).media.pointer = s.media.pointer ∧
    (seekOn c s).media.slotWait = s.media.slotWait ∧ (seekOn c s).media.flash = s.media.flash := by
  simp [seekOn]

@[simp] theorem loadFromCopy_keeps (c e : Nat) (copy : SegmentCopy) (s : State) :
    (loadFromCopy c e copy s).pending = s.pending ∧ (loadFromCopy c e copy s).powered = s.powered ∧
    (loadFromCopy c e copy s).second = s.second ∧ (loadFromCopy c e copy s).intake = s.intake ∧
    (loadFromCopy c e copy s).comp = s.comp ∧ (loadFromCopy c e copy s).ret = s.ret ∧
    (loadFromCopy c e copy s).audit = s.audit ∧ (loadFromCopy c e copy s).cat = s.cat ∧
    (loadFromCopy c e copy s).fault = s.fault ∧ (∀ p, (loadFromCopy c e copy s).link p = s.link p) ∧
    (loadFromCopy c e copy s).media.pointer = s.media.pointer ∧
    (loadFromCopy c e copy s).media.slotWait = s.media.slotWait ∧
    (loadFromCopy c e copy s).media.flash = s.media.flash := by
  simp only [loadFromCopy]
  repeat' split
  all_goals simp

@[simp] theorem startLoad_keeps (c : Nat) (s : State) :
    (startLoad c s).pending = s.pending ∧ (startLoad c s).powered = s.powered ∧ (startLoad c s).second = s.second ∧
    (startLoad c s).intake = s.intake ∧ (startLoad c s).comp = s.comp ∧ (startLoad c s).ret = s.ret ∧
    (startLoad c s).audit = s.audit ∧ (startLoad c s).cat = s.cat ∧ (startLoad c s).fault = s.fault ∧
    (∀ p, (startLoad c s).link p = s.link p) ∧ (startLoad c s).media.pointer = s.media.pointer ∧
    (startLoad c s).media.slotWait = s.media.slotWait ∧ (startLoad c s).media.flash = s.media.flash := by
  simp only [startLoad]
  repeat' split
  all_goals simp

@[simp] theorem endLoad_keeps (c : Nat) (s : State) :
    (endLoad c s).pending = s.pending ∧ (endLoad c s).powered = s.powered ∧ (endLoad c s).second = s.second ∧
    (endLoad c s).intake = s.intake ∧ (endLoad c s).comp = s.comp ∧ (endLoad c s).ret = s.ret ∧
    (endLoad c s).audit = s.audit ∧ (endLoad c s).cat = s.cat ∧ (endLoad c s).fault = s.fault ∧
    (∀ p, (endLoad c s).link p = s.link p) ∧ (endLoad c s).media.pointer = s.media.pointer ∧
    (endLoad c s).media.slotWait = s.media.slotWait ∧ (endLoad c s).media.flash = s.media.flash := by
  simp only [endLoad]
  repeat' split
  all_goals simp

@[simp] theorem sendRecords_keeps (c : Nat) (w : ReadWait) (st : Status) (s : State) :
    (sendRecords c w st s).pending = s.pending ∧ (sendRecords c w st s).powered = s.powered ∧
    (sendRecords c w st s).second = s.second ∧ (sendRecords c w st s).intake = s.intake ∧
    (sendRecords c w st s).comp = s.comp ∧ (sendRecords c w st s).media = s.media ∧
    (sendRecords c w st s).ret = s.ret ∧ (sendRecords c w st s).audit = s.audit ∧
    (sendRecords c w st s).cat = s.cat ∧ (sendRecords c w st s).fault = s.fault ∧
    (∀ p, ((sendRecords c w st s).link p).up = (s.link p).up) ∧
    (∀ p, ((sendRecords c w st s).link p).epoch = (s.link p).epoch) ∧
    (∀ p, ((sendRecords c w st s).link p).outstanding = (s.link p).outstanding) ∧
    (∀ p, ((sendRecords c w st s).link p).sending = (s.link p).sending) ∧
    (∀ p, ((sendRecords c w st s).link p).replyTurn = (s.link p).replyTurn) ∧
    (∀ p, ((sendRecords c w st s).link p).frames = (s.link p).frames) ∧
    (∀ p k, ((sendRecords c w st s).link p).line k = (s.link p).line k) := by
  simp [sendRecords]

@[simp] theorem gather_keeps (c fuel : Nat) (s : State) :
    (gather c fuel s).pending = s.pending ∧ (gather c fuel s).powered = s.powered ∧
    (gather c fuel s).second = s.second ∧ (gather c fuel s).intake = s.intake ∧ (gather c fuel s).comp = s.comp ∧
    (gather c fuel s).ret = s.ret ∧ (gather c fuel s).audit = s.audit ∧ (gather c fuel s).cat = s.cat ∧
    (gather c fuel s).fault = s.fault ∧ (gather c fuel s).media.pointer = s.media.pointer ∧
    (gather c fuel s).media.slotWait = s.media.slotWait ∧ (gather c fuel s).media.flash = s.media.flash ∧
    (∀ p, ((gather c fuel s).link p).up = (s.link p).up) ∧
    (∀ p, ((gather c fuel s).link p).epoch = (s.link p).epoch) ∧
    (∀ p, ((gather c fuel s).link p).outstanding = (s.link p).outstanding) ∧
    (∀ p, ((gather c fuel s).link p).sending = (s.link p).sending) ∧
    (∀ p, ((gather c fuel s).link p).replyTurn = (s.link p).replyTurn) ∧
    (∀ p, ((gather c fuel s).link p).frames = (s.link p).frames) ∧
    (∀ p k, ((gather c fuel s).link p).line k = (s.link p).line k) := by
  induction fuel generalizing s with
  | zero => simp [gather]
  | succ n ih =>
    simp only [gather]
    repeat' split
    all_goals simp [ih]

@[simp] theorem gatherAll_keeps (c : Nat) (s : State) :
    (gatherAll c s).pending = s.pending ∧ (gatherAll c s).powered = s.powered ∧ (gatherAll c s).second = s.second ∧
    (gatherAll c s).intake = s.intake ∧ (gatherAll c s).comp = s.comp ∧ (gatherAll c s).ret = s.ret ∧
    (gatherAll c s).audit = s.audit ∧ (gatherAll c s).cat = s.cat ∧ (gatherAll c s).fault = s.fault ∧
    (gatherAll c s).media.pointer = s.media.pointer ∧ (gatherAll c s).media.slotWait = s.media.slotWait ∧
    (gatherAll c s).media.flash = s.media.flash ∧ (∀ p, ((gatherAll c s).link p).up = (s.link p).up) ∧
    (∀ p, ((gatherAll c s).link p).epoch = (s.link p).epoch) ∧
    (∀ p, ((gatherAll c s).link p).outstanding = (s.link p).outstanding) ∧
    (∀ p, ((gatherAll c s).link p).sending = (s.link p).sending) ∧
    (∀ p, ((gatherAll c s).link p).replyTurn = (s.link p).replyTurn) ∧
    (∀ p, ((gatherAll c s).link p).frames = (s.link p).frames) ∧
    (∀ p k, ((gatherAll c s).link p).line k = (s.link p).line k) := by
  simp [gatherAll]

@[simp] theorem freeCursor_keeps (c : Nat) (s : State) :
    (freeCursor c s).pending = s.pending ∧ (freeCursor c s).powered = s.powered ∧
    (freeCursor c s).second = s.second ∧ (freeCursor c s).intake = s.intake ∧ (freeCursor c s).comp = s.comp ∧
    (freeCursor c s).ret = s.ret ∧ (freeCursor c s).audit = s.audit ∧ (freeCursor c s).cat = s.cat ∧
    (freeCursor c s).fault = s.fault ∧ (∀ p, (freeCursor c s).link p = s.link p) ∧
    (freeCursor c s).media.pointer = s.media.pointer ∧ (freeCursor c s).media.slotWait = s.media.slotWait ∧
    (freeCursor c s).media.flash = s.media.flash := by
  simp [freeCursor]

@[simp] theorem endJob_keeps (j : Job) (st : Status) (s : State) :
    (endJob j st s).pending = s.pending ∧ (endJob j st s).powered = s.powered ∧ (endJob j st s).second = s.second ∧
    (endJob j st s).cursors = s.cursors ∧ (endJob j st s).intake = s.intake ∧ (endJob j st s).comp = s.comp ∧
    (endJob j st s).media = s.media ∧ (endJob j st s).ret = s.ret ∧ (endJob j st s).cat = s.cat ∧
    (endJob j st s).fault = s.fault ∧ (endJob j st s).audit.findings = s.audit.findings ∧
    (endJob j st s).audit.next = s.audit.next ∧ (∀ p, ((endJob j st s).link p).up = (s.link p).up) ∧
    (∀ p, ((endJob j st s).link p).epoch = (s.link p).epoch) ∧
    (∀ p, ((endJob j st s).link p).outstanding = (s.link p).outstanding) ∧
    (∀ p, ((endJob j st s).link p).sending = (s.link p).sending) ∧
    (∀ p, ((endJob j st s).link p).replyTurn = (s.link p).replyTurn) ∧
    (∀ p, ((endJob j st s).link p).frames = (s.link p).frames) ∧
    (∀ p k, ((endJob j st s).link p).line k = (s.link p).line k) := by
  simp [endJob]

@[simp] theorem setVerify_keeps (e : Nat) (st : VerifyStatus) (s : State) :
    (setVerify e st s).pending = s.pending ∧ (setVerify e st s).powered = s.powered ∧
    (setVerify e st s).second = s.second ∧ (setVerify e st s).cursors = s.cursors ∧
    (setVerify e st s).intake = s.intake ∧ (setVerify e st s).comp = s.comp ∧ (setVerify e st s).ret = s.ret ∧
    (setVerify e st s).audit = s.audit ∧ (setVerify e st s).cat = s.cat ∧ (setVerify e st s).fault = s.fault ∧
    (∀ p, (setVerify e st s).link p = s.link p) ∧ (setVerify e st s).media.channels = s.media.channels ∧
    (setVerify e st s).media.pointer = s.media.pointer ∧ (setVerify e st s).media.slotWait = s.media.slotWait ∧
    (setVerify e st s).media.flash = s.media.flash := by
  simp [setVerify]

@[simp] theorem suspendJob_keeps (j : Job) (b : FindingBody) (s : State) :
    (suspendJob j b s).pending = s.pending ∧ (suspendJob j b s).powered = s.powered ∧
    (suspendJob j b s).second = s.second ∧ (suspendJob j b s).cursors = s.cursors ∧
    (suspendJob j b s).intake = s.intake ∧ (suspendJob j b s).comp = s.comp ∧ (suspendJob j b s).media = s.media ∧
    (suspendJob j b s).ret = s.ret ∧ (suspendJob j b s).cat = s.cat ∧ (suspendJob j b s).fault = s.fault ∧
    (∀ p, (suspendJob j b s).link p = s.link p) ∧ (suspendJob j b s).audit.findings = s.audit.findings ∧
    (suspendJob j b s).audit.next = s.audit.next := by
  simp [suspendJob]

@[simp] theorem markBad_keeps (j : Job) (e : Nat) (b : FindingBody) (s : State) :
    (markBad j e b s).pending = s.pending ∧ (markBad j e b s).powered = s.powered ∧
    (markBad j e b s).second = s.second ∧ (markBad j e b s).cursors = s.cursors ∧
    (markBad j e b s).intake = s.intake ∧ (markBad j e b s).comp = s.comp ∧ (markBad j e b s).ret = s.ret ∧
    (markBad j e b s).cat = s.cat ∧ (markBad j e b s).fault = s.fault ∧
    (markBad j e b s).media.channels = s.media.channels ∧ (markBad j e b s).media.pointer = s.media.pointer ∧
    (markBad j e b s).media.slotWait = s.media.slotWait ∧ (markBad j e b s).media.flash = s.media.flash ∧
    (∀ p, ((markBad j e b s).link p).up = (s.link p).up) ∧
    (∀ p, ((markBad j e b s).link p).epoch = (s.link p).epoch) ∧
    (∀ p, ((markBad j e b s).link p).outstanding = (s.link p).outstanding) ∧
    (∀ p, ((markBad j e b s).link p).sending = (s.link p).sending) ∧
    (∀ p, ((markBad j e b s).link p).replyTurn = (s.link p).replyTurn) ∧
    (∀ p, ((markBad j e b s).link p).frames = (s.link p).frames) ∧
    (∀ p, ((markBad j e b s).link p).replies = (s.link p).replies) ∧
    (∀ p, ((markBad j e b s).link p).line noticeLinkError = (s.link p).line noticeLinkError) ∧
    (∀ p, ((markBad j e b s).link p).line noticeFileAborted = (s.link p).line noticeFileAborted) ∧
    (∀ p, ((markBad j e b s).link p).line noticeCursorClosed = (s.link p).line noticeCursorClosed) ∧
    (∀ p, ((markBad j e b s).link p).line noticeCheckpointDone = (s.link p).line noticeCheckpointDone) ∧
    (∀ p, ((markBad j e b s).link p).line noticeDayDone = (s.link p).line noticeDayDone) ∧
    (∀ p, ((markBad j e b s).link p).line noticeHoldChanged = (s.link p).line noticeHoldChanged) ∧
    (∀ p, ((markBad j e b s).link p).line noticeFault = (s.link p).line noticeFault) ∧
    (∀ p, ((markBad j e b s).link p).line noticeHalted = (s.link p).line noticeHalted) := by
  simp [markBad]

@[simp] theorem markGood_keeps (j : Job) (e : Nat) (s : State) :
    (markGood j e s).pending = s.pending ∧ (markGood j e s).powered = s.powered ∧
    (markGood j e s).second = s.second ∧ (markGood j e s).cursors = s.cursors ∧ (markGood j e s).intake = s.intake ∧
    (markGood j e s).comp = s.comp ∧ (markGood j e s).ret = s.ret ∧ (markGood j e s).cat = s.cat ∧
    (markGood j e s).fault = s.fault ∧ (∀ p, (markGood j e s).link p = s.link p) ∧
    (markGood j e s).media.channels = s.media.channels ∧ (markGood j e s).media.pointer = s.media.pointer ∧
    (markGood j e s).media.slotWait = s.media.slotWait ∧ (markGood j e s).media.flash = s.media.flash ∧
    (markGood j e s).audit.findings = s.audit.findings ∧ (markGood j e s).audit.next = s.audit.next := by
  simp [markGood]

@[simp] theorem fillBuffer_keeps (b : Option Payload) (s : State) :
    (fillBuffer b s).pending = s.pending ∧ (fillBuffer b s).powered = s.powered ∧
    (fillBuffer b s).second = s.second ∧ (fillBuffer b s).cursors = s.cursors ∧ (fillBuffer b s).intake = s.intake ∧
    (fillBuffer b s).comp = s.comp ∧ (fillBuffer b s).media = s.media ∧ (fillBuffer b s).ret = s.ret ∧
    (fillBuffer b s).cat = s.cat ∧ (fillBuffer b s).fault = s.fault ∧ (∀ p, (fillBuffer b s).link p = s.link p) ∧
    (fillBuffer b s).audit.findings = s.audit.findings ∧ (fillBuffer b s).audit.next = s.audit.next ∧
    (fillBuffer b s).audit.job = s.audit.job := by
  simp [fillBuffer]

@[simp] theorem judgeSegment_keeps (j : Job) (e : Nat) (pl : Option Payload) (s : State) :
    (judgeSegment j e pl s).pending = s.pending ∧ (judgeSegment j e pl s).powered = s.powered ∧
    (judgeSegment j e pl s).second = s.second ∧ (judgeSegment j e pl s).cursors = s.cursors ∧
    (judgeSegment j e pl s).intake = s.intake ∧ (judgeSegment j e pl s).comp = s.comp ∧
    (judgeSegment j e pl s).ret = s.ret ∧ (judgeSegment j e pl s).cat = s.cat ∧
    (judgeSegment j e pl s).fault = s.fault ∧ (judgeSegment j e pl s).media.channels = s.media.channels ∧
    (judgeSegment j e pl s).media.pointer = s.media.pointer ∧
    (judgeSegment j e pl s).media.slotWait = s.media.slotWait ∧ (judgeSegment j e pl s).media.flash = s.media.flash ∧
    (∀ p, ((judgeSegment j e pl s).link p).up = (s.link p).up) ∧
    (∀ p, ((judgeSegment j e pl s).link p).epoch = (s.link p).epoch) ∧
    (∀ p, ((judgeSegment j e pl s).link p).outstanding = (s.link p).outstanding) ∧
    (∀ p, ((judgeSegment j e pl s).link p).sending = (s.link p).sending) ∧
    (∀ p, ((judgeSegment j e pl s).link p).replyTurn = (s.link p).replyTurn) ∧
    (∀ p, ((judgeSegment j e pl s).link p).frames = (s.link p).frames) ∧
    (∀ p, ((judgeSegment j e pl s).link p).replies = (s.link p).replies) ∧
    (∀ p, ((judgeSegment j e pl s).link p).line noticeLinkError = (s.link p).line noticeLinkError) ∧
    (∀ p, ((judgeSegment j e pl s).link p).line noticeFileAborted = (s.link p).line noticeFileAborted) ∧
    (∀ p, ((judgeSegment j e pl s).link p).line noticeCursorClosed = (s.link p).line noticeCursorClosed) ∧
    (∀ p, ((judgeSegment j e pl s).link p).line noticeCheckpointDone = (s.link p).line noticeCheckpointDone) ∧
    (∀ p, ((judgeSegment j e pl s).link p).line noticeDayDone = (s.link p).line noticeDayDone) ∧
    (∀ p, ((judgeSegment j e pl s).link p).line noticeHoldChanged = (s.link p).line noticeHoldChanged) ∧
    (∀ p, ((judgeSegment j e pl s).link p).line noticeFault = (s.link p).line noticeFault) ∧
    (∀ p, ((judgeSegment j e pl s).link p).line noticeHalted = (s.link p).line noticeHalted) := by
  simp only [judgeSegment]
  repeat' split
  all_goals simp

@[simp] theorem verifyRun_keeps (fuel : Nat) (s : State) :
    (verifyRun fuel s).pending = s.pending ∧ (verifyRun fuel s).powered = s.powered ∧
    (verifyRun fuel s).second = s.second ∧ (verifyRun fuel s).cursors = s.cursors ∧
    (verifyRun fuel s).intake = s.intake ∧ (verifyRun fuel s).comp = s.comp ∧ (verifyRun fuel s).ret = s.ret ∧
    (verifyRun fuel s).cat = s.cat ∧ (verifyRun fuel s).fault = s.fault ∧
    (verifyRun fuel s).media.pointer = s.media.pointer ∧ (verifyRun fuel s).media.slotWait = s.media.slotWait ∧
    (verifyRun fuel s).media.flash = s.media.flash ∧ (∀ p, ((verifyRun fuel s).link p).up = (s.link p).up) ∧
    (∀ p, ((verifyRun fuel s).link p).epoch = (s.link p).epoch) ∧
    (∀ p, ((verifyRun fuel s).link p).outstanding = (s.link p).outstanding) ∧
    (∀ p, ((verifyRun fuel s).link p).sending = (s.link p).sending) ∧
    (∀ p, ((verifyRun fuel s).link p).replyTurn = (s.link p).replyTurn) ∧
    (∀ p, ((verifyRun fuel s).link p).frames = (s.link p).frames) ∧
    (∀ p, ((verifyRun fuel s).link p).line noticeLinkError = (s.link p).line noticeLinkError) ∧
    (∀ p, ((verifyRun fuel s).link p).line noticeFileAborted = (s.link p).line noticeFileAborted) ∧
    (∀ p, ((verifyRun fuel s).link p).line noticeCursorClosed = (s.link p).line noticeCursorClosed) ∧
    (∀ p, ((verifyRun fuel s).link p).line noticeCheckpointDone = (s.link p).line noticeCheckpointDone) ∧
    (∀ p, ((verifyRun fuel s).link p).line noticeDayDone = (s.link p).line noticeDayDone) ∧
    (∀ p, ((verifyRun fuel s).link p).line noticeHoldChanged = (s.link p).line noticeHoldChanged) ∧
    (∀ p, ((verifyRun fuel s).link p).line noticeFault = (s.link p).line noticeFault) ∧
    (∀ p, ((verifyRun fuel s).link p).line noticeHalted = (s.link p).line noticeHalted) := by
  induction fuel generalizing s with
  | zero => simp [verifyRun]
  | succ n ih =>
    simp only [verifyRun]
    repeat' split
    all_goals simp [ih]

@[simp] theorem verifyOn_keeps (s : State) :
    (verifyOn s).pending = s.pending ∧ (verifyOn s).powered = s.powered ∧ (verifyOn s).second = s.second ∧
    (verifyOn s).cursors = s.cursors ∧ (verifyOn s).intake = s.intake ∧ (verifyOn s).comp = s.comp ∧
    (verifyOn s).ret = s.ret ∧ (verifyOn s).cat = s.cat ∧ (verifyOn s).fault = s.fault ∧
    (verifyOn s).media.pointer = s.media.pointer ∧ (verifyOn s).media.slotWait = s.media.slotWait ∧
    (verifyOn s).media.flash = s.media.flash ∧ (∀ p, ((verifyOn s).link p).up = (s.link p).up) ∧
    (∀ p, ((verifyOn s).link p).epoch = (s.link p).epoch) ∧
    (∀ p, ((verifyOn s).link p).outstanding = (s.link p).outstanding) ∧
    (∀ p, ((verifyOn s).link p).sending = (s.link p).sending) ∧
    (∀ p, ((verifyOn s).link p).replyTurn = (s.link p).replyTurn) ∧
    (∀ p, ((verifyOn s).link p).frames = (s.link p).frames) ∧
    (∀ p, ((verifyOn s).link p).line noticeLinkError = (s.link p).line noticeLinkError) ∧
    (∀ p, ((verifyOn s).link p).line noticeFileAborted = (s.link p).line noticeFileAborted) ∧
    (∀ p, ((verifyOn s).link p).line noticeCursorClosed = (s.link p).line noticeCursorClosed) ∧
    (∀ p, ((verifyOn s).link p).line noticeCheckpointDone = (s.link p).line noticeCheckpointDone) ∧
    (∀ p, ((verifyOn s).link p).line noticeDayDone = (s.link p).line noticeDayDone) ∧
    (∀ p, ((verifyOn s).link p).line noticeHoldChanged = (s.link p).line noticeHoldChanged) ∧
    (∀ p, ((verifyOn s).link p).line noticeFault = (s.link p).line noticeFault) ∧
    (∀ p, ((verifyOn s).link p).line noticeHalted = (s.link p).line noticeHalted) := by
  simp [verifyOn]

@[simp] theorem addContribution_keeps (j : Job) (e : Nat) (pl : Option Payload) (s : State) :
    (addContribution j e pl s).pending = s.pending ∧ (addContribution j e pl s).powered = s.powered ∧
    (addContribution j e pl s).second = s.second ∧ (addContribution j e pl s).cursors = s.cursors ∧
    (addContribution j e pl s).intake = s.intake ∧ (addContribution j e pl s).comp = s.comp ∧
    (addContribution j e pl s).ret = s.ret ∧ (addContribution j e pl s).cat = s.cat ∧
    (addContribution j e pl s).fault = s.fault ∧ (∀ p, (addContribution j e pl s).link p = s.link p) ∧
    (addContribution j e pl s).media.channels = s.media.channels ∧
    (addContribution j e pl s).media.pointer = s.media.pointer ∧
    (addContribution j e pl s).media.slotWait = s.media.slotWait ∧
    (addContribution j e pl s).media.flash = s.media.flash ∧
    (addContribution j e pl s).audit.findings = s.audit.findings ∧
    (addContribution j e pl s).audit.next = s.audit.next := by
  simp [addContribution]

@[simp] theorem removeTally_keeps (i : Nat) (s : State) :
    (removeTally i s).pending = s.pending ∧ (removeTally i s).powered = s.powered ∧
    (removeTally i s).second = s.second ∧ (removeTally i s).cursors = s.cursors ∧ (removeTally i s).comp = s.comp ∧
    (removeTally i s).media = s.media ∧ (removeTally i s).ret = s.ret ∧ (removeTally i s).audit = s.audit ∧
    (removeTally i s).cat = s.cat ∧ (removeTally i s).fault = s.fault ∧ (∀ p, (removeTally i s).link p = s.link p) ∧
    (removeTally i s).intake.slots = s.intake.slots ∧ (removeTally i s).intake.closing = s.intake.closing ∧
    (removeTally i s).intake.freePages = s.intake.freePages ∧
    (removeTally i s).intake.ageings = s.intake.ageings := by
  simp [removeTally]

@[simp] theorem settleMismatch_keeps (j : Job) (i : Nat) (b : FindingBody) (s : State) :
    (settleMismatch j i b s).pending = s.pending ∧ (settleMismatch j i b s).powered = s.powered ∧
    (settleMismatch j i b s).second = s.second ∧ (settleMismatch j i b s).cursors = s.cursors ∧
    (settleMismatch j i b s).comp = s.comp ∧ (settleMismatch j i b s).media = s.media ∧
    (settleMismatch j i b s).ret = s.ret ∧ (settleMismatch j i b s).cat = s.cat ∧
    (settleMismatch j i b s).fault = s.fault ∧ (settleMismatch j i b s).intake.slots = s.intake.slots ∧
    (settleMismatch j i b s).intake.closing = s.intake.closing ∧
    (settleMismatch j i b s).intake.freePages = s.intake.freePages ∧
    (settleMismatch j i b s).intake.ageings = s.intake.ageings ∧
    (∀ p, ((settleMismatch j i b s).link p).up = (s.link p).up) ∧
    (∀ p, ((settleMismatch j i b s).link p).epoch = (s.link p).epoch) ∧
    (∀ p, ((settleMismatch j i b s).link p).outstanding = (s.link p).outstanding) ∧
    (∀ p, ((settleMismatch j i b s).link p).sending = (s.link p).sending) ∧
    (∀ p, ((settleMismatch j i b s).link p).replyTurn = (s.link p).replyTurn) ∧
    (∀ p, ((settleMismatch j i b s).link p).frames = (s.link p).frames) ∧
    (∀ p, ((settleMismatch j i b s).link p).replies = (s.link p).replies) ∧
    (∀ p, ((settleMismatch j i b s).link p).line noticeLinkError = (s.link p).line noticeLinkError) ∧
    (∀ p, ((settleMismatch j i b s).link p).line noticeFileAborted = (s.link p).line noticeFileAborted) ∧
    (∀ p, ((settleMismatch j i b s).link p).line noticeCursorClosed = (s.link p).line noticeCursorClosed) ∧
    (∀ p, ((settleMismatch j i b s).link p).line noticeCheckpointDone = (s.link p).line noticeCheckpointDone) ∧
    (∀ p, ((settleMismatch j i b s).link p).line noticeDayDone = (s.link p).line noticeDayDone) ∧
    (∀ p, ((settleMismatch j i b s).link p).line noticeHoldChanged = (s.link p).line noticeHoldChanged) ∧
    (∀ p, ((settleMismatch j i b s).link p).line noticeFault = (s.link p).line noticeFault) ∧
    (∀ p, ((settleMismatch j i b s).link p).line noticeHalted = (s.link p).line noticeHalted) := by
  simp [settleMismatch]

@[simp] theorem settleKey_keeps (j : Job) (i : Nat) (s : State) :
    (settleKey j i s).pending = s.pending ∧ (settleKey j i s).powered = s.powered ∧
    (settleKey j i s).second = s.second ∧ (settleKey j i s).cursors = s.cursors ∧ (settleKey j i s).comp = s.comp ∧
    (settleKey j i s).media = s.media ∧ (settleKey j i s).ret = s.ret ∧ (settleKey j i s).cat = s.cat ∧
    (settleKey j i s).fault = s.fault ∧ (settleKey j i s).intake.slots = s.intake.slots ∧
    (settleKey j i s).intake.closing = s.intake.closing ∧ (settleKey j i s).intake.freePages = s.intake.freePages ∧
    (settleKey j i s).intake.ageings = s.intake.ageings ∧ (∀ p, ((settleKey j i s).link p).up = (s.link p).up) ∧
    (∀ p, ((settleKey j i s).link p).epoch = (s.link p).epoch) ∧
    (∀ p, ((settleKey j i s).link p).outstanding = (s.link p).outstanding) ∧
    (∀ p, ((settleKey j i s).link p).sending = (s.link p).sending) ∧
    (∀ p, ((settleKey j i s).link p).replyTurn = (s.link p).replyTurn) ∧
    (∀ p, ((settleKey j i s).link p).frames = (s.link p).frames) ∧
    (∀ p, ((settleKey j i s).link p).replies = (s.link p).replies) ∧
    (∀ p, ((settleKey j i s).link p).line noticeLinkError = (s.link p).line noticeLinkError) ∧
    (∀ p, ((settleKey j i s).link p).line noticeFileAborted = (s.link p).line noticeFileAborted) ∧
    (∀ p, ((settleKey j i s).link p).line noticeCursorClosed = (s.link p).line noticeCursorClosed) ∧
    (∀ p, ((settleKey j i s).link p).line noticeCheckpointDone = (s.link p).line noticeCheckpointDone) ∧
    (∀ p, ((settleKey j i s).link p).line noticeDayDone = (s.link p).line noticeDayDone) ∧
    (∀ p, ((settleKey j i s).link p).line noticeHoldChanged = (s.link p).line noticeHoldChanged) ∧
    (∀ p, ((settleKey j i s).link p).line noticeFault = (s.link p).line noticeFault) ∧
    (∀ p, ((settleKey j i s).link p).line noticeHalted = (s.link p).line noticeHalted) := by
  simp only [settleKey]
  repeat' split
  all_goals simp

@[simp] theorem takeKey_keeps (j : Job) (s : State) :
    (takeKey j s).pending = s.pending ∧ (takeKey j s).powered = s.powered ∧ (takeKey j s).second = s.second ∧
    (takeKey j s).cursors = s.cursors ∧ (takeKey j s).intake = s.intake ∧ (takeKey j s).comp = s.comp ∧
    (takeKey j s).media = s.media ∧ (takeKey j s).ret = s.ret ∧ (takeKey j s).cat = s.cat ∧
    (takeKey j s).fault = s.fault ∧ (takeKey j s).audit.findings = s.audit.findings ∧
    (takeKey j s).audit.next = s.audit.next ∧ (∀ p, ((takeKey j s).link p).up = (s.link p).up) ∧
    (∀ p, ((takeKey j s).link p).epoch = (s.link p).epoch) ∧
    (∀ p, ((takeKey j s).link p).outstanding = (s.link p).outstanding) ∧
    (∀ p, ((takeKey j s).link p).sending = (s.link p).sending) ∧
    (∀ p, ((takeKey j s).link p).replyTurn = (s.link p).replyTurn) ∧
    (∀ p, ((takeKey j s).link p).frames = (s.link p).frames) ∧
    (∀ p k, ((takeKey j s).link p).line k = (s.link p).line k) := by
  simp only [takeKey]
  repeat' split
  all_goals simp

@[simp] theorem countKey_keeps (j : Job) (i : Nat) (s : State) :
    (countKey j i s).pending = s.pending ∧ (countKey j i s).powered = s.powered ∧
    (countKey j i s).second = s.second ∧ (countKey j i s).cursors = s.cursors ∧ (countKey j i s).comp = s.comp ∧
    (countKey j i s).ret = s.ret ∧ (countKey j i s).cat = s.cat ∧ (countKey j i s).fault = s.fault ∧
    (countKey j i s).intake.slots = s.intake.slots ∧ (countKey j i s).intake.closing = s.intake.closing ∧
    (countKey j i s).intake.freePages = s.intake.freePages ∧ (countKey j i s).intake.ageings = s.intake.ageings ∧
    (countKey j i s).media.pointer = s.media.pointer ∧ (countKey j i s).media.slotWait = s.media.slotWait ∧
    (countKey j i s).media.flash = s.media.flash ∧ (∀ p, ((countKey j i s).link p).up = (s.link p).up) ∧
    (∀ p, ((countKey j i s).link p).epoch = (s.link p).epoch) ∧
    (∀ p, ((countKey j i s).link p).outstanding = (s.link p).outstanding) ∧
    (∀ p, ((countKey j i s).link p).sending = (s.link p).sending) ∧
    (∀ p, ((countKey j i s).link p).replyTurn = (s.link p).replyTurn) ∧
    (∀ p, ((countKey j i s).link p).frames = (s.link p).frames) ∧
    (∀ p, ((countKey j i s).link p).replies = (s.link p).replies) ∧
    (∀ p, ((countKey j i s).link p).line noticeLinkError = (s.link p).line noticeLinkError) ∧
    (∀ p, ((countKey j i s).link p).line noticeFileAborted = (s.link p).line noticeFileAborted) ∧
    (∀ p, ((countKey j i s).link p).line noticeCursorClosed = (s.link p).line noticeCursorClosed) ∧
    (∀ p, ((countKey j i s).link p).line noticeCheckpointDone = (s.link p).line noticeCheckpointDone) ∧
    (∀ p, ((countKey j i s).link p).line noticeDayDone = (s.link p).line noticeDayDone) ∧
    (∀ p, ((countKey j i s).link p).line noticeHoldChanged = (s.link p).line noticeHoldChanged) ∧
    (∀ p, ((countKey j i s).link p).line noticeFault = (s.link p).line noticeFault) ∧
    (∀ p, ((countKey j i s).link p).line noticeHalted = (s.link p).line noticeHalted) := by
  simp only [countKey]
  repeat' split
  all_goals simp

@[simp] theorem reconcileRun_keeps (fuel : Nat) (s : State) :
    (reconcileRun fuel s).pending = s.pending ∧ (reconcileRun fuel s).powered = s.powered ∧
    (reconcileRun fuel s).second = s.second ∧ (reconcileRun fuel s).cursors = s.cursors ∧
    (reconcileRun fuel s).comp = s.comp ∧ (reconcileRun fuel s).ret = s.ret ∧ (reconcileRun fuel s).cat = s.cat ∧
    (reconcileRun fuel s).fault = s.fault ∧ (reconcileRun fuel s).intake.slots = s.intake.slots ∧
    (reconcileRun fuel s).intake.closing = s.intake.closing ∧
    (reconcileRun fuel s).intake.freePages = s.intake.freePages ∧
    (reconcileRun fuel s).intake.ageings = s.intake.ageings ∧ (reconcileRun fuel s).media.pointer = s.media.pointer ∧
    (reconcileRun fuel s).media.slotWait = s.media.slotWait ∧ (reconcileRun fuel s).media.flash = s.media.flash ∧
    (∀ p, ((reconcileRun fuel s).link p).up = (s.link p).up) ∧
    (∀ p, ((reconcileRun fuel s).link p).epoch = (s.link p).epoch) ∧
    (∀ p, ((reconcileRun fuel s).link p).outstanding = (s.link p).outstanding) ∧
    (∀ p, ((reconcileRun fuel s).link p).sending = (s.link p).sending) ∧
    (∀ p, ((reconcileRun fuel s).link p).replyTurn = (s.link p).replyTurn) ∧
    (∀ p, ((reconcileRun fuel s).link p).frames = (s.link p).frames) ∧
    (∀ p, ((reconcileRun fuel s).link p).line noticeLinkError = (s.link p).line noticeLinkError) ∧
    (∀ p, ((reconcileRun fuel s).link p).line noticeFileAborted = (s.link p).line noticeFileAborted) ∧
    (∀ p, ((reconcileRun fuel s).link p).line noticeCursorClosed = (s.link p).line noticeCursorClosed) ∧
    (∀ p, ((reconcileRun fuel s).link p).line noticeCheckpointDone = (s.link p).line noticeCheckpointDone) ∧
    (∀ p, ((reconcileRun fuel s).link p).line noticeDayDone = (s.link p).line noticeDayDone) ∧
    (∀ p, ((reconcileRun fuel s).link p).line noticeHoldChanged = (s.link p).line noticeHoldChanged) ∧
    (∀ p, ((reconcileRun fuel s).link p).line noticeFault = (s.link p).line noticeFault) ∧
    (∀ p, ((reconcileRun fuel s).link p).line noticeHalted = (s.link p).line noticeHalted) := by
  induction fuel generalizing s with
  | zero => simp [reconcileRun]
  | succ n ih =>
    simp only [reconcileRun]
    repeat' split
    all_goals simp [ih]

@[simp] theorem reconcileOn_keeps (s : State) :
    (reconcileOn s).pending = s.pending ∧ (reconcileOn s).powered = s.powered ∧ (reconcileOn s).second = s.second ∧
    (reconcileOn s).cursors = s.cursors ∧ (reconcileOn s).comp = s.comp ∧ (reconcileOn s).ret = s.ret ∧
    (reconcileOn s).cat = s.cat ∧ (reconcileOn s).fault = s.fault ∧ (reconcileOn s).intake.slots = s.intake.slots ∧
    (reconcileOn s).intake.closing = s.intake.closing ∧ (reconcileOn s).intake.freePages = s.intake.freePages ∧
    (reconcileOn s).intake.ageings = s.intake.ageings ∧ (reconcileOn s).media.pointer = s.media.pointer ∧
    (reconcileOn s).media.slotWait = s.media.slotWait ∧ (reconcileOn s).media.flash = s.media.flash ∧
    (∀ p, ((reconcileOn s).link p).up = (s.link p).up) ∧ (∀ p, ((reconcileOn s).link p).epoch = (s.link p).epoch) ∧
    (∀ p, ((reconcileOn s).link p).outstanding = (s.link p).outstanding) ∧
    (∀ p, ((reconcileOn s).link p).sending = (s.link p).sending) ∧
    (∀ p, ((reconcileOn s).link p).replyTurn = (s.link p).replyTurn) ∧
    (∀ p, ((reconcileOn s).link p).frames = (s.link p).frames) ∧
    (∀ p, ((reconcileOn s).link p).line noticeLinkError = (s.link p).line noticeLinkError) ∧
    (∀ p, ((reconcileOn s).link p).line noticeFileAborted = (s.link p).line noticeFileAborted) ∧
    (∀ p, ((reconcileOn s).link p).line noticeCursorClosed = (s.link p).line noticeCursorClosed) ∧
    (∀ p, ((reconcileOn s).link p).line noticeCheckpointDone = (s.link p).line noticeCheckpointDone) ∧
    (∀ p, ((reconcileOn s).link p).line noticeDayDone = (s.link p).line noticeDayDone) ∧
    (∀ p, ((reconcileOn s).link p).line noticeHoldChanged = (s.link p).line noticeHoldChanged) ∧
    (∀ p, ((reconcileOn s).link p).line noticeFault = (s.link p).line noticeFault) ∧
    (∀ p, ((reconcileOn s).link p).line noticeHalted = (s.link p).line noticeHalted) := by
  simp [reconcileOn]

@[simp] theorem jobOn_keeps (s : State) :
    (jobOn s).pending = s.pending ∧ (jobOn s).powered = s.powered ∧ (jobOn s).second = s.second ∧
    (jobOn s).cursors = s.cursors ∧ (jobOn s).comp = s.comp ∧ (jobOn s).ret = s.ret ∧ (jobOn s).cat = s.cat ∧
    (jobOn s).fault = s.fault ∧ (jobOn s).intake.slots = s.intake.slots ∧
    (jobOn s).intake.closing = s.intake.closing ∧ (jobOn s).intake.freePages = s.intake.freePages ∧
    (jobOn s).intake.ageings = s.intake.ageings ∧ (jobOn s).media.pointer = s.media.pointer ∧
    (jobOn s).media.slotWait = s.media.slotWait ∧ (jobOn s).media.flash = s.media.flash ∧
    (∀ p, ((jobOn s).link p).up = (s.link p).up) ∧ (∀ p, ((jobOn s).link p).epoch = (s.link p).epoch) ∧
    (∀ p, ((jobOn s).link p).outstanding = (s.link p).outstanding) ∧
    (∀ p, ((jobOn s).link p).sending = (s.link p).sending) ∧
    (∀ p, ((jobOn s).link p).replyTurn = (s.link p).replyTurn) ∧
    (∀ p, ((jobOn s).link p).frames = (s.link p).frames) ∧
    (∀ p, ((jobOn s).link p).line noticeLinkError = (s.link p).line noticeLinkError) ∧
    (∀ p, ((jobOn s).link p).line noticeFileAborted = (s.link p).line noticeFileAborted) ∧
    (∀ p, ((jobOn s).link p).line noticeCursorClosed = (s.link p).line noticeCursorClosed) ∧
    (∀ p, ((jobOn s).link p).line noticeCheckpointDone = (s.link p).line noticeCheckpointDone) ∧
    (∀ p, ((jobOn s).link p).line noticeDayDone = (s.link p).line noticeDayDone) ∧
    (∀ p, ((jobOn s).link p).line noticeHoldChanged = (s.link p).line noticeHoldChanged) ∧
    (∀ p, ((jobOn s).link p).line noticeFault = (s.link p).line noticeFault) ∧
    (∀ p, ((jobOn s).link p).line noticeHalted = (s.link p).line noticeHalted) := by
  simp [jobOn]

@[simp] theorem resumeJob_keeps (s : State) :
    (resumeJob s).pending = s.pending ∧ (resumeJob s).powered = s.powered ∧ (resumeJob s).second = s.second ∧
    (resumeJob s).cursors = s.cursors ∧ (resumeJob s).comp = s.comp ∧ (resumeJob s).ret = s.ret ∧
    (resumeJob s).cat = s.cat ∧ (resumeJob s).fault = s.fault ∧ (resumeJob s).intake.slots = s.intake.slots ∧
    (resumeJob s).intake.closing = s.intake.closing ∧ (resumeJob s).intake.freePages = s.intake.freePages ∧
    (resumeJob s).intake.ageings = s.intake.ageings ∧ (resumeJob s).media.pointer = s.media.pointer ∧
    (resumeJob s).media.slotWait = s.media.slotWait ∧ (resumeJob s).media.flash = s.media.flash ∧
    (∀ p, ((resumeJob s).link p).up = (s.link p).up) ∧ (∀ p, ((resumeJob s).link p).epoch = (s.link p).epoch) ∧
    (∀ p, ((resumeJob s).link p).outstanding = (s.link p).outstanding) ∧
    (∀ p, ((resumeJob s).link p).sending = (s.link p).sending) ∧
    (∀ p, ((resumeJob s).link p).replyTurn = (s.link p).replyTurn) ∧
    (∀ p, ((resumeJob s).link p).frames = (s.link p).frames) ∧
    (∀ p, ((resumeJob s).link p).line noticeLinkError = (s.link p).line noticeLinkError) ∧
    (∀ p, ((resumeJob s).link p).line noticeFileAborted = (s.link p).line noticeFileAborted) ∧
    (∀ p, ((resumeJob s).link p).line noticeCursorClosed = (s.link p).line noticeCursorClosed) ∧
    (∀ p, ((resumeJob s).link p).line noticeCheckpointDone = (s.link p).line noticeCheckpointDone) ∧
    (∀ p, ((resumeJob s).link p).line noticeDayDone = (s.link p).line noticeDayDone) ∧
    (∀ p, ((resumeJob s).link p).line noticeHoldChanged = (s.link p).line noticeHoldChanged) ∧
    (∀ p, ((resumeJob s).link p).line noticeFault = (s.link p).line noticeFault) ∧
    (∀ p, ((resumeJob s).link p).line noticeHalted = (s.link p).line noticeHalted) := by
  simp only [resumeJob]
  repeat' split
  all_goals simp

end Sys2Proof.Machine
end

