-- ==== Sys2Proof/Laws/KeepsCatalog.lean ====
section
/-!
SUPPORT. Laws/KeepsCatalog.lean: everything that ageing, Link Reset, the load and Format leave as it was.
-/

namespace Sys2Proof.Machine
open Sys2Proof

@[simp] theorem keepAgeing_keeps (line : Nat) (s : State) :
    (keepAgeing line s).pending = s.pending ∧ (keepAgeing line s).powered = s.powered ∧
    (keepAgeing line s).second = s.second ∧ (keepAgeing line s).cursors = s.cursors ∧
    (keepAgeing line s).comp = s.comp ∧ (keepAgeing line s).media = s.media ∧ (keepAgeing line s).ret = s.ret ∧
    (keepAgeing line s).audit = s.audit ∧ (keepAgeing line s).cat = s.cat ∧ (keepAgeing line s).fault = s.fault ∧
    (∀ p, (keepAgeing line s).link p = s.link p) ∧ (keepAgeing line s).intake.sources = s.intake.sources ∧
    (keepAgeing line s).intake.slots = s.intake.slots ∧ (keepAgeing line s).intake.closing = s.intake.closing ∧
    (keepAgeing line s).intake.tally = s.intake.tally ∧
    (keepAgeing line s).intake.freePages = s.intake.freePages := by
  simp [keepAgeing]

@[simp] theorem exportOne_keeps (n : Nat) (reason : GapReason) (g : GapRecord) (s : State) :
    (exportOne n reason g s).pending = s.pending ∧ (exportOne n reason g s).powered = s.powered ∧
    (exportOne n reason g s).second = s.second ∧ (exportOne n reason g s).cursors = s.cursors ∧
    (exportOne n reason g s).comp = s.comp ∧ (exportOne n reason g s).media = s.media ∧
    (exportOne n reason g s).ret = s.ret ∧ (exportOne n reason g s).cat = s.cat ∧
    (exportOne n reason g s).fault = s.fault ∧ (exportOne n reason g s).intake.slots = s.intake.slots ∧
    (exportOne n reason g s).intake.closing = s.intake.closing ∧
    (exportOne n reason g s).intake.tally = s.intake.tally ∧
    (exportOne n reason g s).intake.freePages = s.intake.freePages ∧
    (exportOne n reason g s).intake.ageings = s.intake.ageings ∧ (exportOne n reason g s).audit.job = s.audit.job ∧
    (exportOne n reason g s).audit.buffer = s.audit.buffer ∧
    (∀ p, ((exportOne n reason g s).link p).up = (s.link p).up) ∧
    (∀ p, ((exportOne n reason g s).link p).epoch = (s.link p).epoch) ∧
    (∀ p, ((exportOne n reason g s).link p).outstanding = (s.link p).outstanding) ∧
    (∀ p, ((exportOne n reason g s).link p).sending = (s.link p).sending) ∧
    (∀ p, ((exportOne n reason g s).link p).replyTurn = (s.link p).replyTurn) ∧
    (∀ p, ((exportOne n reason g s).link p).frames = (s.link p).frames) ∧
    (∀ p, ((exportOne n reason g s).link p).replies = (s.link p).replies) ∧
    (∀ p, ((exportOne n reason g s).link p).line noticeLinkError = (s.link p).line noticeLinkError) ∧
    (∀ p, ((exportOne n reason g s).link p).line noticeFileAborted = (s.link p).line noticeFileAborted) ∧
    (∀ p, ((exportOne n reason g s).link p).line noticeCursorClosed = (s.link p).line noticeCursorClosed) ∧
    (∀ p, ((exportOne n reason g s).link p).line noticeCheckpointDone = (s.link p).line noticeCheckpointDone) ∧
    (∀ p, ((exportOne n reason g s).link p).line noticeDayDone = (s.link p).line noticeDayDone) ∧
    (∀ p, ((exportOne n reason g s).link p).line noticeHoldChanged = (s.link p).line noticeHoldChanged) ∧
    (∀ p, ((exportOne n reason g s).link p).line noticeFault = (s.link p).line noticeFault) ∧
    (∀ p, ((exportOne n reason g s).link p).line noticeHalted = (s.link p).line noticeHalted) := by
  simp only [exportOne]
  repeat' split
  all_goals simp

@[simp] theorem ageSource_keeps (line n : Nat) (s : State) :
    (ageSource line n s).pending = s.pending ∧ (ageSource line n s).powered = s.powered ∧
    (ageSource line n s).second = s.second ∧ (ageSource line n s).cursors = s.cursors ∧
    (ageSource line n s).comp = s.comp ∧ (ageSource line n s).media = s.media ∧ (ageSource line n s).ret = s.ret ∧
    (ageSource line n s).cat = s.cat ∧ (ageSource line n s).fault = s.fault ∧
    (ageSource line n s).intake.slots = s.intake.slots ∧ (ageSource line n s).intake.closing = s.intake.closing ∧
    (ageSource line n s).intake.tally = s.intake.tally ∧ (ageSource line n s).intake.freePages = s.intake.freePages ∧
    (ageSource line n s).intake.ageings = s.intake.ageings ∧ (ageSource line n s).audit.job = s.audit.job ∧
    (ageSource line n s).audit.buffer = s.audit.buffer ∧ (∀ p, ((ageSource line n s).link p).up = (s.link p).up) ∧
    (∀ p, ((ageSource line n s).link p).epoch = (s.link p).epoch) ∧
    (∀ p, ((ageSource line n s).link p).outstanding = (s.link p).outstanding) ∧
    (∀ p, ((ageSource line n s).link p).sending = (s.link p).sending) ∧
    (∀ p, ((ageSource line n s).link p).replyTurn = (s.link p).replyTurn) ∧
    (∀ p, ((ageSource line n s).link p).frames = (s.link p).frames) ∧
    (∀ p, ((ageSource line n s).link p).replies = (s.link p).replies) ∧
    (∀ p, ((ageSource line n s).link p).line noticeLinkError = (s.link p).line noticeLinkError) ∧
    (∀ p, ((ageSource line n s).link p).line noticeFileAborted = (s.link p).line noticeFileAborted) ∧
    (∀ p, ((ageSource line n s).link p).line noticeCursorClosed = (s.link p).line noticeCursorClosed) ∧
    (∀ p, ((ageSource line n s).link p).line noticeCheckpointDone = (s.link p).line noticeCheckpointDone) ∧
    (∀ p, ((ageSource line n s).link p).line noticeDayDone = (s.link p).line noticeDayDone) ∧
    (∀ p, ((ageSource line n s).link p).line noticeHoldChanged = (s.link p).line noticeHoldChanged) ∧
    (∀ p, ((ageSource line n s).link p).line noticeFault = (s.link p).line noticeFault) ∧
    (∀ p, ((ageSource line n s).link p).line noticeHalted = (s.link p).line noticeHalted) := by
  unfold ageSource
  generalize List.filter (isAged line) (s.source n).gaps = l
  induction l generalizing s with
  | nil => simp
  | cons a l ih => simp [ih]

@[simp] theorem ageBefore_keeps (line : Nat) (s : State) :
    (ageBefore line s).pending = s.pending ∧ (ageBefore line s).powered = s.powered ∧
    (ageBefore line s).second = s.second ∧ (ageBefore line s).cursors = s.cursors ∧
    (ageBefore line s).comp = s.comp ∧ (ageBefore line s).media = s.media ∧ (ageBefore line s).ret = s.ret ∧
    (ageBefore line s).cat = s.cat ∧ (ageBefore line s).fault = s.fault ∧
    (ageBefore line s).intake.slots = s.intake.slots ∧ (ageBefore line s).intake.closing = s.intake.closing ∧
    (ageBefore line s).intake.tally = s.intake.tally ∧ (ageBefore line s).intake.freePages = s.intake.freePages ∧
    (ageBefore line s).intake.ageings = s.intake.ageings ∧ (ageBefore line s).audit.job = s.audit.job ∧
    (ageBefore line s).audit.buffer = s.audit.buffer ∧ (∀ p, ((ageBefore line s).link p).up = (s.link p).up) ∧
    (∀ p, ((ageBefore line s).link p).epoch = (s.link p).epoch) ∧
    (∀ p, ((ageBefore line s).link p).outstanding = (s.link p).outstanding) ∧
    (∀ p, ((ageBefore line s).link p).sending = (s.link p).sending) ∧
    (∀ p, ((ageBefore line s).link p).replyTurn = (s.link p).replyTurn) ∧
    (∀ p, ((ageBefore line s).link p).frames = (s.link p).frames) ∧
    (∀ p, ((ageBefore line s).link p).replies = (s.link p).replies) ∧
    (∀ p, ((ageBefore line s).link p).line noticeLinkError = (s.link p).line noticeLinkError) ∧
    (∀ p, ((ageBefore line s).link p).line noticeFileAborted = (s.link p).line noticeFileAborted) ∧
    (∀ p, ((ageBefore line s).link p).line noticeCursorClosed = (s.link p).line noticeCursorClosed) ∧
    (∀ p, ((ageBefore line s).link p).line noticeCheckpointDone = (s.link p).line noticeCheckpointDone) ∧
    (∀ p, ((ageBefore line s).link p).line noticeDayDone = (s.link p).line noticeDayDone) ∧
    (∀ p, ((ageBefore line s).link p).line noticeHoldChanged = (s.link p).line noticeHoldChanged) ∧
    (∀ p, ((ageBefore line s).link p).line noticeFault = (s.link p).line noticeFault) ∧
    (∀ p, ((ageBefore line s).link p).line noticeHalted = (s.link p).line noticeHalted) := by
  unfold ageBefore
  generalize s.intake.sources = l
  induction l generalizing s with
  | nil => simp
  | cons a l ih => simp [ih]

@[simp] theorem ageGaps_keeps (s : State) :
    (ageGaps s).pending = s.pending ∧ (ageGaps s).powered = s.powered ∧ (ageGaps s).second = s.second ∧
    (ageGaps s).cursors = s.cursors ∧ (ageGaps s).comp = s.comp ∧ (ageGaps s).media = s.media ∧
    (ageGaps s).ret = s.ret ∧ (ageGaps s).cat = s.cat ∧ (ageGaps s).fault = s.fault ∧
    (ageGaps s).intake.slots = s.intake.slots ∧ (ageGaps s).intake.closing = s.intake.closing ∧
    (ageGaps s).intake.tally = s.intake.tally ∧ (ageGaps s).intake.freePages = s.intake.freePages ∧
    (ageGaps s).audit.job = s.audit.job ∧ (ageGaps s).audit.buffer = s.audit.buffer ∧
    (∀ p, ((ageGaps s).link p).up = (s.link p).up) ∧ (∀ p, ((ageGaps s).link p).epoch = (s.link p).epoch) ∧
    (∀ p, ((ageGaps s).link p).outstanding = (s.link p).outstanding) ∧
    (∀ p, ((ageGaps s).link p).sending = (s.link p).sending) ∧
    (∀ p, ((ageGaps s).link p).replyTurn = (s.link p).replyTurn) ∧
    (∀ p, ((ageGaps s).link p).frames = (s.link p).frames) ∧
    (∀ p, ((ageGaps s).link p).replies = (s.link p).replies) ∧
    (∀ p, ((ageGaps s).link p).line noticeLinkError = (s.link p).line noticeLinkError) ∧
    (∀ p, ((ageGaps s).link p).line noticeFileAborted = (s.link p).line noticeFileAborted) ∧
    (∀ p, ((ageGaps s).link p).line noticeCursorClosed = (s.link p).line noticeCursorClosed) ∧
    (∀ p, ((ageGaps s).link p).line noticeCheckpointDone = (s.link p).line noticeCheckpointDone) ∧
    (∀ p, ((ageGaps s).link p).line noticeDayDone = (s.link p).line noticeDayDone) ∧
    (∀ p, ((ageGaps s).link p).line noticeHoldChanged = (s.link p).line noticeHoldChanged) ∧
    (∀ p, ((ageGaps s).link p).line noticeFault = (s.link p).line noticeFault) ∧
    (∀ p, ((ageGaps s).link p).line noticeHalted = (s.link p).line noticeHalted) := by
  have h : ∀ (g : Nat → Nat) (l : List Nat) (t : State), ((List.foldl (fun t k => ageBefore (g k) t) t l).pending = t.pending ∧
      (List.foldl (fun t k => ageBefore (g k) t) t l).powered = t.powered ∧
      (List.foldl (fun t k => ageBefore (g k) t) t l).second = t.second ∧
      (List.foldl (fun t k => ageBefore (g k) t) t l).cursors = t.cursors ∧
      (List.foldl (fun t k => ageBefore (g k) t) t l).comp = t.comp ∧
      (List.foldl (fun t k => ageBefore (g k) t) t l).media = t.media ∧
      (List.foldl (fun t k => ageBefore (g k) t) t l).ret = t.ret ∧
      (List.foldl (fun t k => ageBefore (g k) t) t l).cat = t.cat ∧
      (List.foldl (fun t k => ageBefore (g k) t) t l).fault = t.fault ∧
      (List.foldl (fun t k => ageBefore (g k) t) t l).intake.slots = t.intake.slots ∧
      (List.foldl (fun t k => ageBefore (g k) t) t l).intake.closing = t.intake.closing ∧
      (List.foldl (fun t k => ageBefore (g k) t) t l).intake.tally = t.intake.tally ∧
      (List.foldl (fun t k => ageBefore (g k) t) t l).intake.freePages = t.intake.freePages ∧
      (List.foldl (fun t k => ageBefore (g k) t) t l).audit.job = t.audit.job ∧
      (List.foldl (fun t k => ageBefore (g k) t) t l).audit.buffer = t.audit.buffer ∧
      (∀ p, ((List.foldl (fun t k => ageBefore (g k) t) t l).link p).up = (t.link p).up) ∧
      (∀ p, ((List.foldl (fun t k => ageBefore (g k) t) t l).link p).epoch = (t.link p).epoch) ∧
      (∀ p, ((List.foldl (fun t k => ageBefore (g k) t) t l).link p).outstanding = (t.link p).outstanding) ∧
      (∀ p, ((List.foldl (fun t k => ageBefore (g k) t) t l).link p).sending = (t.link p).sending) ∧
      (∀ p, ((List.foldl (fun t k => ageBefore (g k) t) t l).link p).replyTurn = (t.link p).replyTurn) ∧
      (∀ p, ((List.foldl (fun t k => ageBefore (g k) t) t l).link p).frames = (t.link p).frames) ∧
      (∀ p, ((List.foldl (fun t k => ageBefore (g k) t) t l).link p).replies = (t.link p).replies) ∧
      (∀ p, ((List.foldl (fun t k => ageBefore (g k) t) t l).link p).line noticeLinkError = (t.link p).line noticeLinkError) ∧
      (∀ p, ((List.foldl (fun t k => ageBefore (g k) t) t l).link p).line noticeFileAborted = (t.link p).line noticeFileAborted) ∧
      (∀ p, ((List.foldl (fun t k => ageBefore (g k) t) t l).link p).line noticeCursorClosed = (t.link p).line noticeCursorClosed) ∧
      (∀ p, ((List.foldl (fun t k => ageBefore (g k) t) t l).link p).line noticeCheckpointDone = (t.link p).line noticeCheckpointDone) ∧
      (∀ p, ((List.foldl (fun t k => ageBefore (g k) t) t l).link p).line noticeDayDone = (t.link p).line noticeDayDone) ∧
      (∀ p, ((List.foldl (fun t k => ageBefore (g k) t) t l).link p).line noticeHoldChanged = (t.link p).line noticeHoldChanged) ∧
      (∀ p, ((List.foldl (fun t k => ageBefore (g k) t) t l).link p).line noticeFault = (t.link p).line noticeFault) ∧
      (∀ p, ((List.foldl (fun t k => ageBefore (g k) t) t l).link p).line noticeHalted = (t.link p).line noticeHalted)) := by
    intro g l
    induction l with
    | nil => simp
    | cons a l ih => intro t; simp [ih]
  simp [ageGaps, h (fun k => min k s.ageLine)]

@[simp] theorem unflag_keeps (n : Nat) (s : State) :
    (unflag n s).pending = s.pending ∧ (unflag n s).powered = s.powered ∧ (unflag n s).second = s.second ∧
    (unflag n s).cursors = s.cursors ∧ (unflag n s).comp = s.comp ∧ (unflag n s).media = s.media ∧
    (unflag n s).ret = s.ret ∧ (unflag n s).cat = s.cat ∧ (unflag n s).fault = s.fault ∧
    (unflag n s).intake.slots = s.intake.slots ∧ (unflag n s).intake.closing = s.intake.closing ∧
    (unflag n s).intake.tally = s.intake.tally ∧ (unflag n s).intake.freePages = s.intake.freePages ∧
    (unflag n s).intake.ageings = s.intake.ageings ∧ (unflag n s).audit.job = s.audit.job ∧
    (unflag n s).audit.buffer = s.audit.buffer ∧ (∀ p, ((unflag n s).link p).up = (s.link p).up) ∧
    (∀ p, ((unflag n s).link p).epoch = (s.link p).epoch) ∧
    (∀ p, ((unflag n s).link p).outstanding = (s.link p).outstanding) ∧
    (∀ p, ((unflag n s).link p).sending = (s.link p).sending) ∧
    (∀ p, ((unflag n s).link p).replyTurn = (s.link p).replyTurn) ∧
    (∀ p, ((unflag n s).link p).frames = (s.link p).frames) ∧
    (∀ p, ((unflag n s).link p).replies = (s.link p).replies) ∧
    (∀ p, ((unflag n s).link p).line noticeLinkError = (s.link p).line noticeLinkError) ∧
    (∀ p, ((unflag n s).link p).line noticeFileAborted = (s.link p).line noticeFileAborted) ∧
    (∀ p, ((unflag n s).link p).line noticeCursorClosed = (s.link p).line noticeCursorClosed) ∧
    (∀ p, ((unflag n s).link p).line noticeCheckpointDone = (s.link p).line noticeCheckpointDone) ∧
    (∀ p, ((unflag n s).link p).line noticeDayDone = (s.link p).line noticeDayDone) ∧
    (∀ p, ((unflag n s).link p).line noticeHoldChanged = (s.link p).line noticeHoldChanged) ∧
    (∀ p, ((unflag n s).link p).line noticeFault = (s.link p).line noticeFault) ∧
    (∀ p, ((unflag n s).link p).line noticeHalted = (s.link p).line noticeHalted) := by
  simp only [unflag]
  repeat' split
  all_goals simp

@[simp] theorem unflagSources_keeps (s : State) :
    (unflagSources s).pending = s.pending ∧ (unflagSources s).powered = s.powered ∧
    (unflagSources s).second = s.second ∧ (unflagSources s).cursors = s.cursors ∧ (unflagSources s).comp = s.comp ∧
    (unflagSources s).media = s.media ∧ (unflagSources s).ret = s.ret ∧ (unflagSources s).cat = s.cat ∧
    (unflagSources s).fault = s.fault ∧ (unflagSources s).intake.slots = s.intake.slots ∧
    (unflagSources s).intake.closing = s.intake.closing ∧ (unflagSources s).intake.tally = s.intake.tally ∧
    (unflagSources s).intake.freePages = s.intake.freePages ∧ (unflagSources s).intake.ageings = s.intake.ageings ∧
    (unflagSources s).audit.job = s.audit.job ∧ (unflagSources s).audit.buffer = s.audit.buffer ∧
    (∀ p, ((unflagSources s).link p).up = (s.link p).up) ∧
    (∀ p, ((unflagSources s).link p).epoch = (s.link p).epoch) ∧
    (∀ p, ((unflagSources s).link p).outstanding = (s.link p).outstanding) ∧
    (∀ p, ((unflagSources s).link p).sending = (s.link p).sending) ∧
    (∀ p, ((unflagSources s).link p).replyTurn = (s.link p).replyTurn) ∧
    (∀ p, ((unflagSources s).link p).frames = (s.link p).frames) ∧
    (∀ p, ((unflagSources s).link p).replies = (s.link p).replies) ∧
    (∀ p, ((unflagSources s).link p).line noticeLinkError = (s.link p).line noticeLinkError) ∧
    (∀ p, ((unflagSources s).link p).line noticeFileAborted = (s.link p).line noticeFileAborted) ∧
    (∀ p, ((unflagSources s).link p).line noticeCursorClosed = (s.link p).line noticeCursorClosed) ∧
    (∀ p, ((unflagSources s).link p).line noticeCheckpointDone = (s.link p).line noticeCheckpointDone) ∧
    (∀ p, ((unflagSources s).link p).line noticeDayDone = (s.link p).line noticeDayDone) ∧
    (∀ p, ((unflagSources s).link p).line noticeHoldChanged = (s.link p).line noticeHoldChanged) ∧
    (∀ p, ((unflagSources s).link p).line noticeFault = (s.link p).line noticeFault) ∧
    (∀ p, ((unflagSources s).link p).line noticeHalted = (s.link p).line noticeHalted) := by
  unfold unflagSources
  generalize s.intake.sources = l
  induction l generalizing s with
  | nil => simp
  | cons a l ih => simp [ih]

@[simp] theorem closeTallies_keeps (s : State) :
    (closeTallies s).pending = s.pending ∧ (closeTallies s).powered = s.powered ∧
    (closeTallies s).second = s.second ∧ (closeTallies s).cursors = s.cursors ∧ (closeTallies s).comp = s.comp ∧
    (closeTallies s).media = s.media ∧ (closeTallies s).ret = s.ret ∧ (closeTallies s).audit = s.audit ∧
    (closeTallies s).cat = s.cat ∧ (closeTallies s).fault = s.fault ∧ (∀ p, (closeTallies s).link p = s.link p) ∧
    (closeTallies s).intake.sources = s.intake.sources ∧ (closeTallies s).intake.slots = s.intake.slots ∧
    (closeTallies s).intake.closing = s.intake.closing ∧ (closeTallies s).intake.freePages = s.intake.freePages ∧
    (closeTallies s).intake.ageings = s.intake.ageings := by
  simp [closeTallies]

@[simp] theorem noteCloses_keeps (s : State) :
    (noteCloses s).pending = s.pending ∧ (noteCloses s).powered = s.powered ∧ (noteCloses s).second = s.second ∧
    (noteCloses s).cursors = s.cursors ∧ (noteCloses s).intake = s.intake ∧ (noteCloses s).media = s.media ∧
    (noteCloses s).ret = s.ret ∧ (noteCloses s).audit = s.audit ∧ (noteCloses s).cat = s.cat ∧
    (noteCloses s).fault = s.fault ∧ (∀ p, (noteCloses s).link p = s.link p) ∧
    (noteCloses s).comp.queue = s.comp.queue ∧ (noteCloses s).comp.headHeld = s.comp.headHeld ∧
    (noteCloses s).comp.builders = s.comp.builders ∧ (noteCloses s).comp.opening = s.comp.opening ∧
    (noteCloses s).comp.stopped = s.comp.stopped ∧ (noteCloses s).comp.codes = s.comp.codes := by
  simp [noteCloses]

@[simp] theorem closeOldBuilders_keeps (s : State) :
    (closeOldBuilders s).pending = s.pending ∧ (closeOldBuilders s).powered = s.powered ∧
    (closeOldBuilders s).second = s.second ∧ (closeOldBuilders s).cursors = s.cursors ∧
    (closeOldBuilders s).audit = s.audit ∧ (closeOldBuilders s).intake.sources = s.intake.sources ∧
    (closeOldBuilders s).intake.ageings = s.intake.ageings ∧ (closeOldBuilders s).comp.queue = s.comp.queue ∧
    (closeOldBuilders s).comp.headHeld = s.comp.headHeld ∧ (closeOldBuilders s).comp.opening = s.comp.opening ∧
    (closeOldBuilders s).comp.codes = s.comp.codes ∧ (closeOldBuilders s).media.flash = s.media.flash ∧
    (closeOldBuilders s).ret.today = s.ret.today ∧ (closeOldBuilders s).ret.lastSwept = s.ret.lastSwept ∧
    (closeOldBuilders s).ret.classes = s.ret.classes ∧ (closeOldBuilders s).ret.holds = s.ret.holds ∧
    (closeOldBuilders s).ret.sweeps = s.ret.sweeps ∧ (closeOldBuilders s).ret.suspended = s.ret.suspended ∧
    (closeOldBuilders s).ret.lastDay = s.ret.lastDay ∧ (closeOldBuilders s).ret.lastExtend = s.ret.lastExtend ∧
    (closeOldBuilders s).ret.erasing = s.ret.erasing ∧ (closeOldBuilders s).cat.profile = s.cat.profile ∧
    (closeOldBuilders s).cat.params = s.cat.params ∧ (closeOldBuilders s).cat.channel = s.cat.channel ∧
    (closeOldBuilders s).cat.last = s.cat.last ∧ (closeOldBuilders s).cat.newer = s.cat.newer ∧
    (closeOldBuilders s).cat.owed = s.cat.owed ∧ (closeOldBuilders s).cat.owedWaiters = s.cat.owedWaiters ∧
    (closeOldBuilders s).cat.buffer = s.cat.buffer ∧ (closeOldBuilders s).cat.sharesOk = s.cat.sharesOk ∧
    (closeOldBuilders s).cat.load = s.cat.load ∧ (closeOldBuilders s).cat.pendingFormat = s.cat.pendingFormat ∧
    (closeOldBuilders s).cat.formatCounter = s.cat.formatCounter ∧ (closeOldBuilders s).cat.format = s.cat.format ∧
    (∀ p, ((closeOldBuilders s).link p).up = (s.link p).up) ∧
    (∀ p, ((closeOldBuilders s).link p).epoch = (s.link p).epoch) ∧
    (∀ p, ((closeOldBuilders s).link p).outstanding = (s.link p).outstanding) ∧
    (∀ p, ((closeOldBuilders s).link p).sending = (s.link p).sending) ∧
    (∀ p, ((closeOldBuilders s).link p).replyTurn = (s.link p).replyTurn) ∧
    (∀ p, ((closeOldBuilders s).link p).frames = (s.link p).frames) ∧
    (∀ p, ((closeOldBuilders s).link p).line noticeLinkError = (s.link p).line noticeLinkError) ∧
    (∀ p, ((closeOldBuilders s).link p).line noticeFileAborted = (s.link p).line noticeFileAborted) ∧
    (∀ p, ((closeOldBuilders s).link p).line noticeCursorClosed = (s.link p).line noticeCursorClosed) ∧
    (∀ p, ((closeOldBuilders s).link p).line noticeCheckpointDone = (s.link p).line noticeCheckpointDone) ∧
    (∀ p, ((closeOldBuilders s).link p).line noticeHoldChanged = (s.link p).line noticeHoldChanged) ∧
    (∀ p, ((closeOldBuilders s).link p).line noticeFindings = (s.link p).line noticeFindings) := by
  simp [closeOldBuilders]

@[simp] theorem freeCursorsOf_keeps (q : Port) (s : State) :
    (freeCursorsOf q s).pending = s.pending ∧ (freeCursorsOf q s).powered = s.powered ∧
    (freeCursorsOf q s).second = s.second ∧ (freeCursorsOf q s).intake = s.intake ∧
    (freeCursorsOf q s).comp = s.comp ∧ (freeCursorsOf q s).ret = s.ret ∧ (freeCursorsOf q s).audit = s.audit ∧
    (freeCursorsOf q s).cat = s.cat ∧ (freeCursorsOf q s).fault = s.fault ∧
    (∀ p, (freeCursorsOf q s).link p = s.link p) ∧ (freeCursorsOf q s).media.pointer = s.media.pointer ∧
    (freeCursorsOf q s).media.slotWait = s.media.slotWait ∧ (freeCursorsOf q s).media.flash = s.media.flash := by
  unfold freeCursorsOf
  generalize List.range Config.cursors = l
  induction l generalizing s with
  | nil => simp
  | cons a l ih =>
    simp only [List.foldl_cons, ih]
    split <;> simp

@[simp] theorem abortAllSlots_keeps (s : State) :
    (abortAllSlots s).pending = s.pending ∧ (abortAllSlots s).powered = s.powered ∧
    (abortAllSlots s).second = s.second ∧ (abortAllSlots s).cursors = s.cursors ∧ (abortAllSlots s).comp = s.comp ∧
    (abortAllSlots s).media = s.media ∧ (abortAllSlots s).ret = s.ret ∧ (abortAllSlots s).audit = s.audit ∧
    (abortAllSlots s).cat = s.cat ∧ (abortAllSlots s).fault = s.fault ∧ (∀ p, (abortAllSlots s).link p = s.link p) ∧
    (abortAllSlots s).intake.sources = s.intake.sources ∧ (abortAllSlots s).intake.ageings = s.intake.ageings := by
  unfold abortAllSlots
  generalize List.range Config.intakeSlots = l
  induction l generalizing s with
  | nil => simp
  | cons a l ih =>
    simp only [List.foldl_cons, ih]
    split <;> simp

@[simp] theorem askCatalogRead_keeps (c k : Nat) (s : State) :
    (askCatalogRead c k s).pending = s.pending ∧ (askCatalogRead c k s).powered = s.powered ∧
    (askCatalogRead c k s).second = s.second ∧ (askCatalogRead c k s).cursors = s.cursors ∧
    (askCatalogRead c k s).intake = s.intake ∧ (askCatalogRead c k s).comp = s.comp ∧
    (askCatalogRead c k s).ret = s.ret ∧ (askCatalogRead c k s).audit = s.audit ∧
    (askCatalogRead c k s).cat = s.cat ∧ (askCatalogRead c k s).fault = s.fault ∧
    (∀ p, (askCatalogRead c k s).link p = s.link p) ∧ (askCatalogRead c k s).media.dir = s.media.dir ∧
    (askCatalogRead c k s).media.pointer = s.media.pointer ∧
    (askCatalogRead c k s).media.slotWait = s.media.slotWait ∧
    (askCatalogRead c k s).media.flash = s.media.flash := by
  simp [askCatalogRead]

@[simp] theorem askFormatErase_keeps (c k : Nat) (s : State) :
    (askFormatErase c k s).pending = s.pending ∧ (askFormatErase c k s).powered = s.powered ∧
    (askFormatErase c k s).second = s.second ∧ (askFormatErase c k s).cursors = s.cursors ∧
    (askFormatErase c k s).intake = s.intake ∧ (askFormatErase c k s).comp = s.comp ∧
    (askFormatErase c k s).ret = s.ret ∧ (askFormatErase c k s).audit = s.audit ∧
    (askFormatErase c k s).cat = s.cat ∧ (askFormatErase c k s).fault = s.fault ∧
    (∀ p, (askFormatErase c k s).link p = s.link p) ∧ (askFormatErase c k s).media.dir = s.media.dir ∧
    (askFormatErase c k s).media.pointer = s.media.pointer ∧
    (askFormatErase c k s).media.slotWait = s.media.slotWait ∧
    (askFormatErase c k s).media.flash = s.media.flash := by
  simp [askFormatErase]

@[simp] theorem endLoadWith_keeps (a : ArchiveState) (s : State) :
    (endLoadWith a s).pending = s.pending ∧ (endLoadWith a s).powered = s.powered ∧
    (endLoadWith a s).second = s.second ∧ (endLoadWith a s).cursors = s.cursors ∧
    (endLoadWith a s).intake = s.intake ∧ (endLoadWith a s).comp = s.comp ∧ (endLoadWith a s).media = s.media ∧
    (endLoadWith a s).ret = s.ret ∧ (endLoadWith a s).audit = s.audit ∧ (endLoadWith a s).fault = s.fault ∧
    (endLoadWith a s).cat.profile = s.cat.profile ∧ (endLoadWith a s).cat.params = s.cat.params ∧
    (endLoadWith a s).cat.channel = s.cat.channel ∧ (endLoadWith a s).cat.state = s.cat.state ∧
    (endLoadWith a s).cat.last = s.cat.last ∧ (endLoadWith a s).cat.newer = s.cat.newer ∧
    (endLoadWith a s).cat.waiters = s.cat.waiters ∧ (endLoadWith a s).cat.owed = s.cat.owed ∧
    (endLoadWith a s).cat.owedWaiters = s.cat.owedWaiters ∧ (endLoadWith a s).cat.buffer = s.cat.buffer ∧
    (endLoadWith a s).cat.sharesOk = s.cat.sharesOk ∧ (endLoadWith a s).cat.pendingFormat = s.cat.pendingFormat ∧
    (endLoadWith a s).cat.formatCounter = s.cat.formatCounter ∧ (endLoadWith a s).cat.format = s.cat.format ∧
    (∀ p, ((endLoadWith a s).link p).up = (s.link p).up) ∧
    (∀ p, ((endLoadWith a s).link p).epoch = (s.link p).epoch) ∧
    (∀ p, ((endLoadWith a s).link p).outstanding = (s.link p).outstanding) ∧
    (∀ p, ((endLoadWith a s).link p).sending = (s.link p).sending) ∧
    (∀ p, ((endLoadWith a s).link p).replyTurn = (s.link p).replyTurn) ∧
    (∀ p, ((endLoadWith a s).link p).frames = (s.link p).frames) ∧
    (∀ p k, ((endLoadWith a s).link p).line k = (s.link p).line k) := by
  simp only [endLoadWith]
  repeat' split
  all_goals simp

@[simp] theorem beginReads_keeps (s : State) :
    (beginReads s).pending = s.pending ∧ (beginReads s).powered = s.powered ∧ (beginReads s).second = s.second ∧
    (beginReads s).cursors = s.cursors ∧ (beginReads s).intake = s.intake ∧ (beginReads s).comp = s.comp ∧
    (beginReads s).ret = s.ret ∧ (beginReads s).audit = s.audit ∧ (beginReads s).fault = s.fault ∧
    (beginReads s).media.dir = s.media.dir ∧ (beginReads s).media.pointer = s.media.pointer ∧
    (beginReads s).media.slotWait = s.media.slotWait ∧ (beginReads s).media.flash = s.media.flash ∧
    (beginReads s).cat.profile = s.cat.profile ∧ (beginReads s).cat.params = s.cat.params ∧
    (beginReads s).cat.channel = s.cat.channel ∧ (beginReads s).cat.state = s.cat.state ∧
    (beginReads s).cat.last = s.cat.last ∧ (beginReads s).cat.newer = s.cat.newer ∧
    (beginReads s).cat.waiters = s.cat.waiters ∧ (beginReads s).cat.owed = s.cat.owed ∧
    (beginReads s).cat.owedWaiters = s.cat.owedWaiters ∧ (beginReads s).cat.buffer = s.cat.buffer ∧
    (beginReads s).cat.sharesOk = s.cat.sharesOk ∧ (beginReads s).cat.pendingFormat = s.cat.pendingFormat ∧
    (beginReads s).cat.formatCounter = s.cat.formatCounter ∧ (beginReads s).cat.format = s.cat.format ∧
    (∀ p, ((beginReads s).link p).up = (s.link p).up) ∧ (∀ p, ((beginReads s).link p).epoch = (s.link p).epoch) ∧
    (∀ p, ((beginReads s).link p).outstanding = (s.link p).outstanding) ∧
    (∀ p, ((beginReads s).link p).sending = (s.link p).sending) ∧
    (∀ p, ((beginReads s).link p).replyTurn = (s.link p).replyTurn) ∧
    (∀ p, ((beginReads s).link p).frames = (s.link p).frames) ∧
    (∀ p k, ((beginReads s).link p).line k = (s.link p).line k) := by
  have h1 : ∀ (c : Nat) (l : List Nat) (t : State), ((List.foldl (fun u k => askCatalogRead c k u) t l).pending = t.pending ∧
      (List.foldl (fun u k => askCatalogRead c k u) t l).powered = t.powered ∧
      (List.foldl (fun u k => askCatalogRead c k u) t l).second = t.second ∧
      (List.foldl (fun u k => askCatalogRead c k u) t l).cursors = t.cursors ∧
      (List.foldl (fun u k => askCatalogRead c k u) t l).intake = t.intake ∧
      (List.foldl (fun u k => askCatalogRead c k u) t l).comp = t.comp ∧
      (List.foldl (fun u k => askCatalogRead c k u) t l).ret = t.ret ∧
      (List.foldl (fun u k => askCatalogRead c k u) t l).audit = t.audit ∧
      (List.foldl (fun u k => askCatalogRead c k u) t l).fault = t.fault ∧
      (List.foldl (fun u k => askCatalogRead c k u) t l).media.dir = t.media.dir ∧
      (List.foldl (fun u k => askCatalogRead c k u) t l).media.pointer = t.media.pointer ∧
      (List.foldl (fun u k => askCatalogRead c k u) t l).media.slotWait = t.media.slotWait ∧
      (List.foldl (fun u k => askCatalogRead c k u) t l).media.flash = t.media.flash ∧
      (List.foldl (fun u k => askCatalogRead c k u) t l).cat.profile = t.cat.profile ∧
      (List.foldl (fun u k => askCatalogRead c k u) t l).cat.params = t.cat.params ∧
      (List.foldl (fun u k => askCatalogRead c k u) t l).cat.channel = t.cat.channel ∧
      (List.foldl (fun u k => askCatalogRead c k u) t l).cat.state = t.cat.state ∧
      (List.foldl (fun u k => askCatalogRead c k u) t l).cat.last = t.cat.last ∧
      (List.foldl (fun u k => askCatalogRead c k u) t l).cat.newer = t.cat.newer ∧
      (List.foldl (fun u k => askCatalogRead c k u) t l).cat.waiters = t.cat.waiters ∧
      (List.foldl (fun u k => askCatalogRead c k u) t l).cat.owed = t.cat.owed ∧
      (List.foldl (fun u k => askCatalogRead c k u) t l).cat.owedWaiters = t.cat.owedWaiters ∧
      (List.foldl (fun u k => askCatalogRead c k u) t l).cat.buffer = t.cat.buffer ∧
      (List.foldl (fun u k => askCatalogRead c k u) t l).cat.sharesOk = t.cat.sharesOk ∧
      (List.foldl (fun u k => askCatalogRead c k u) t l).cat.pendingFormat = t.cat.pendingFormat ∧
      (List.foldl (fun u k => askCatalogRead c k u) t l).cat.formatCounter = t.cat.formatCounter ∧
      (List.foldl (fun u k => askCatalogRead c k u) t l).cat.format = t.cat.format ∧
      (∀ p, ((List.foldl (fun u k => askCatalogRead c k u) t l).link p).up = (t.link p).up) ∧
      (∀ p, ((List.foldl (fun u k => askCatalogRead c k u) t l).link p).epoch = (t.link p).epoch) ∧
      (∀ p, ((List.foldl (fun u k => askCatalogRead c k u) t l).link p).outstanding = (t.link p).outstanding) ∧
      (∀ p, ((List.foldl (fun u k => askCatalogRead c k u) t l).link p).sending = (t.link p).sending) ∧
      (∀ p, ((List.foldl (fun u k => askCatalogRead c k u) t l).link p).replyTurn = (t.link p).replyTurn) ∧
      (∀ p, ((List.foldl (fun u k => askCatalogRead c k u) t l).link p).frames = (t.link p).frames) ∧
      (∀ p k, ((List.foldl (fun u k => askCatalogRead c k u) t l).link p).line k = (t.link p).line k)) := by
    intro c l
    induction l with
    | nil => simp
    | cons a l ih => intro t; simp [ih]
  have h2 : ∀ (l : List Nat) (t : State), ((List.foldl (fun u c => askCatalogRead c 8 (askCatalogRead c 0 u)) t l).pending = t.pending ∧
      (List.foldl (fun u c => askCatalogRead c 8 (askCatalogRead c 0 u)) t l).powered = t.powered ∧
      (List.foldl (fun u c => askCatalogRead c 8 (askCatalogRead c 0 u)) t l).second = t.second ∧
      (List.foldl (fun u c => askCatalogRead c 8 (askCatalogRead c 0 u)) t l).cursors = t.cursors ∧
      (List.foldl (fun u c => askCatalogRead c 8 (askCatalogRead c 0 u)) t l).intake = t.intake ∧
      (List.foldl (fun u c => askCatalogRead c 8 (askCatalogRead c 0 u)) t l).comp = t.comp ∧
      (List.foldl (fun u c => askCatalogRead c 8 (askCatalogRead c 0 u)) t l).ret = t.ret ∧
      (List.foldl (fun u c => askCatalogRead c 8 (askCatalogRead c 0 u)) t l).audit = t.audit ∧
      (List.foldl (fun u c => askCatalogRead c 8 (askCatalogRead c 0 u)) t l).fault = t.fault ∧
      (List.foldl (fun u c => askCatalogRead c 8 (askCatalogRead c 0 u)) t l).media.dir = t.media.dir ∧
      (List.foldl (fun u c => askCatalogRead c 8 (askCatalogRead c 0 u)) t l).media.pointer = t.media.pointer ∧
      (List.foldl (fun u c => askCatalogRead c 8 (askCatalogRead c 0 u)) t l).media.slotWait = t.media.slotWait ∧
      (List.foldl (fun u c => askCatalogRead c 8 (askCatalogRead c 0 u)) t l).media.flash = t.media.flash ∧
      (List.foldl (fun u c => askCatalogRead c 8 (askCatalogRead c 0 u)) t l).cat.profile = t.cat.profile ∧
      (List.foldl (fun u c => askCatalogRead c 8 (askCatalogRead c 0 u)) t l).cat.params = t.cat.params ∧
      (List.foldl (fun u c => askCatalogRead c 8 (askCatalogRead c 0 u)) t l).cat.channel = t.cat.channel ∧
      (List.foldl (fun u c => askCatalogRead c 8 (askCatalogRead c 0 u)) t l).cat.state = t.cat.state ∧
      (List.foldl (fun u c => askCatalogRead c 8 (askCatalogRead c 0 u)) t l).cat.last = t.cat.last ∧
      (List.foldl (fun u c => askCatalogRead c 8 (askCatalogRead c 0 u)) t l).cat.newer = t.cat.newer ∧
      (List.foldl (fun u c => askCatalogRead c 8 (askCatalogRead c 0 u)) t l).cat.waiters = t.cat.waiters ∧
      (List.foldl (fun u c => askCatalogRead c 8 (askCatalogRead c 0 u)) t l).cat.owed = t.cat.owed ∧
      (List.foldl (fun u c => askCatalogRead c 8 (askCatalogRead c 0 u)) t l).cat.owedWaiters = t.cat.owedWaiters ∧
      (List.foldl (fun u c => askCatalogRead c 8 (askCatalogRead c 0 u)) t l).cat.buffer = t.cat.buffer ∧
      (List.foldl (fun u c => askCatalogRead c 8 (askCatalogRead c 0 u)) t l).cat.sharesOk = t.cat.sharesOk ∧
      (List.foldl (fun u c => askCatalogRead c 8 (askCatalogRead c 0 u)) t l).cat.pendingFormat = t.cat.pendingFormat ∧
      (List.foldl (fun u c => askCatalogRead c 8 (askCatalogRead c 0 u)) t l).cat.formatCounter = t.cat.formatCounter ∧
      (List.foldl (fun u c => askCatalogRead c 8 (askCatalogRead c 0 u)) t l).cat.format = t.cat.format ∧
      (∀ p, ((List.foldl (fun u c => askCatalogRead c 8 (askCatalogRead c 0 u)) t l).link p).up = (t.link p).up) ∧
      (∀ p, ((List.foldl (fun u c => askCatalogRead c 8 (askCatalogRead c 0 u)) t l).link p).epoch = (t.link p).epoch) ∧
      (∀ p, ((List.foldl (fun u c => askCatalogRead c 8 (askCatalogRead c 0 u)) t l).link p).outstanding = (t.link p).outstanding) ∧
      (∀ p, ((List.foldl (fun u c => askCatalogRead c 8 (askCatalogRead c 0 u)) t l).link p).sending = (t.link p).sending) ∧
      (∀ p, ((List.foldl (fun u c => askCatalogRead c 8 (askCatalogRead c 0 u)) t l).link p).replyTurn = (t.link p).replyTurn) ∧
      (∀ p, ((List.foldl (fun u c => askCatalogRead c 8 (askCatalogRead c 0 u)) t l).link p).frames = (t.link p).frames) ∧
      (∀ p k, ((List.foldl (fun u c => askCatalogRead c 8 (askCatalogRead c 0 u)) t l).link p).line k = (t.link p).line k)) := by
    intro l
    induction l with
    | nil => simp
    | cons a l ih => intro t; simp [ih]
  simp only [beginReads]
  repeat' split
  all_goals simp [h1, h2]

@[simp] theorem searchLoad_keeps (s : State) :
    (searchLoad s).pending = s.pending ∧ (searchLoad s).powered = s.powered ∧ (searchLoad s).second = s.second ∧
    (searchLoad s).cursors = s.cursors ∧ (searchLoad s).intake = s.intake ∧ (searchLoad s).comp = s.comp ∧
    (searchLoad s).ret = s.ret ∧ (searchLoad s).audit = s.audit ∧ (searchLoad s).fault = s.fault ∧
    (searchLoad s).media.dir = s.media.dir ∧ (searchLoad s).media.pointer = s.media.pointer ∧
    (searchLoad s).media.slotWait = s.media.slotWait ∧ (searchLoad s).media.flash = s.media.flash ∧
    (searchLoad s).cat.profile = s.cat.profile ∧ (searchLoad s).cat.params = s.cat.params ∧
    (searchLoad s).cat.channel = s.cat.channel ∧ (searchLoad s).cat.state = s.cat.state ∧
    (searchLoad s).cat.last = s.cat.last ∧ (searchLoad s).cat.newer = s.cat.newer ∧
    (searchLoad s).cat.waiters = s.cat.waiters ∧ (searchLoad s).cat.owed = s.cat.owed ∧
    (searchLoad s).cat.owedWaiters = s.cat.owedWaiters ∧ (searchLoad s).cat.buffer = s.cat.buffer ∧
    (searchLoad s).cat.sharesOk = s.cat.sharesOk ∧ (searchLoad s).cat.pendingFormat = s.cat.pendingFormat ∧
    (searchLoad s).cat.formatCounter = s.cat.formatCounter ∧ (searchLoad s).cat.format = s.cat.format ∧
    (∀ p, ((searchLoad s).link p).up = (s.link p).up) ∧ (∀ p, ((searchLoad s).link p).epoch = (s.link p).epoch) ∧
    (∀ p, ((searchLoad s).link p).outstanding = (s.link p).outstanding) ∧
    (∀ p, ((searchLoad s).link p).sending = (s.link p).sending) ∧
    (∀ p, ((searchLoad s).link p).replyTurn = (s.link p).replyTurn) ∧
    (∀ p, ((searchLoad s).link p).frames = (s.link p).frames) ∧
    (∀ p k, ((searchLoad s).link p).line k = (s.link p).line k) := by
  simp [searchLoad]

end Sys2Proof.Machine
end

