-- ==== Sys2Proof/Laws/KeepsLoad.lean ====
section
/-!
SUPPORT. Laws/KeepsLoad.lean: everything that the parts of a load and of a Format leave as it was, and the soundness of a
sealed image.
-/

namespace Sys2Proof.Machine
open Sys2Proof

/-- An image sealed with its CRC-32 agrees with it (R200). -/
@[simp] theorem imageAgrees_sealImage (img : Image) : imageAgrees (sealImage img) = true := by
  simp [imageAgrees, sealImage, imageCheck]

@[simp] theorem catalogSlots_keeps (x : Nat) (s : State) :
    (catalogSlots x s).pending = s.pending ∧ (catalogSlots x s).powered = s.powered ∧
    (catalogSlots x s).second = s.second ∧ (catalogSlots x s).cursors = s.cursors ∧
    (catalogSlots x s).intake = s.intake ∧ (catalogSlots x s).comp = s.comp ∧ (catalogSlots x s).ret = s.ret ∧
    (catalogSlots x s).audit = s.audit ∧ (catalogSlots x s).cat = s.cat ∧ (catalogSlots x s).fault = s.fault ∧
    (∀ p, (catalogSlots x s).link p = s.link p) ∧ (catalogSlots x s).media.dir = s.media.dir ∧
    (catalogSlots x s).media.pointer = s.media.pointer ∧ (catalogSlots x s).media.slotWait = s.media.slotWait ∧
    (catalogSlots x s).media.flash = s.media.flash := by
  unfold catalogSlots
  generalize List.range Config.catalogSlots = l
  induction l generalizing s with
  | nil => simp
  | cons a l ih => simp [ih]

@[simp] theorem loadSlots_keeps (img : Image) (s : State) :
    (loadSlots img s).pending = s.pending ∧ (loadSlots img s).powered = s.powered ∧
    (loadSlots img s).second = s.second ∧ (loadSlots img s).cursors = s.cursors ∧
    (loadSlots img s).intake = s.intake ∧ (loadSlots img s).comp = s.comp ∧ (loadSlots img s).ret = s.ret ∧
    (loadSlots img s).audit = s.audit ∧ (loadSlots img s).cat = s.cat ∧ (loadSlots img s).fault = s.fault ∧
    (∀ p, (loadSlots img s).link p = s.link p) ∧ (loadSlots img s).media.dir = s.media.dir ∧
    (loadSlots img s).media.pointer = s.media.pointer ∧ (loadSlots img s).media.slotWait = s.media.slotWait ∧
    (loadSlots img s).media.flash = s.media.flash := by
  have h1 : ∀ (l : List SlotRef) (t : State), ((List.foldl (fun t r => t.setSlotState r .defective) t l).pending = t.pending ∧
      (List.foldl (fun t r => t.setSlotState r .defective) t l).powered = t.powered ∧
      (List.foldl (fun t r => t.setSlotState r .defective) t l).second = t.second ∧
      (List.foldl (fun t r => t.setSlotState r .defective) t l).cursors = t.cursors ∧
      (List.foldl (fun t r => t.setSlotState r .defective) t l).intake = t.intake ∧
      (List.foldl (fun t r => t.setSlotState r .defective) t l).comp = t.comp ∧
      (List.foldl (fun t r => t.setSlotState r .defective) t l).ret = t.ret ∧
      (List.foldl (fun t r => t.setSlotState r .defective) t l).audit = t.audit ∧
      (List.foldl (fun t r => t.setSlotState r .defective) t l).cat = t.cat ∧
      (List.foldl (fun t r => t.setSlotState r .defective) t l).fault = t.fault ∧
      (∀ p, (List.foldl (fun t r => t.setSlotState r .defective) t l).link p = t.link p) ∧
      (List.foldl (fun t r => t.setSlotState r .defective) t l).media.dir = t.media.dir ∧
      (List.foldl (fun t r => t.setSlotState r .defective) t l).media.pointer = t.media.pointer ∧
      (List.foldl (fun t r => t.setSlotState r .defective) t l).media.slotWait = t.media.slotWait ∧
      (List.foldl (fun t r => t.setSlotState r .defective) t l).media.flash = t.media.flash) := by
    intro l
    induction l with
    | nil => simp
    | cons a l ih => intro t; simp [ih]
  unfold loadSlots
  generalize img.dir = d
  simp only
  generalize hu : List.foldl (fun t r => t.setSlotState r .defective) s img.defective = u
  have hk := h1 img.defective s
  rw [hu] at hk
  clear hu h1
  induction d generalizing u with
  | nil => simpa using hk
  | cons a d ih =>
    simp only [List.foldl_cons]
    apply ih
    split <;> simp [hk]

@[simp] theorem loadModes_keeps (img : Image) (s : State) :
    (loadModes img s).pending = s.pending ∧ (loadModes img s).powered = s.powered ∧
    (loadModes img s).second = s.second ∧ (loadModes img s).cursors = s.cursors ∧
    (loadModes img s).intake = s.intake ∧ (loadModes img s).comp = s.comp ∧ (loadModes img s).ret = s.ret ∧
    (loadModes img s).audit = s.audit ∧ (loadModes img s).cat = s.cat ∧ (loadModes img s).fault = s.fault ∧
    (∀ p, (loadModes img s).link p = s.link p) ∧ (loadModes img s).media.dir = s.media.dir ∧
    (loadModes img s).media.pointer = s.media.pointer ∧ (loadModes img s).media.slotWait = s.media.slotWait ∧
    (loadModes img s).media.flash = s.media.flash := by
  unfold loadModes
  generalize List.range Config.channels = l
  induction l generalizing s with
  | nil => simp
  | cons a l ih => simp [ih]

@[simp] theorem loadReleases_keeps (s : State) :
    (loadReleases s).pending = s.pending ∧ (loadReleases s).powered = s.powered ∧
    (loadReleases s).second = s.second ∧ (loadReleases s).cursors = s.cursors ∧ (loadReleases s).comp = s.comp ∧
    (loadReleases s).media = s.media ∧ (loadReleases s).ret = s.ret ∧ (loadReleases s).audit = s.audit ∧
    (loadReleases s).cat = s.cat ∧ (loadReleases s).fault = s.fault ∧ (∀ p, (loadReleases s).link p = s.link p) ∧
    (loadReleases s).intake.slots = s.intake.slots ∧ (loadReleases s).intake.closing = s.intake.closing ∧
    (loadReleases s).intake.tally = s.intake.tally ∧ (loadReleases s).intake.freePages = s.intake.freePages ∧
    (loadReleases s).intake.ageings = s.intake.ageings := by
  unfold loadReleases
  generalize s.intake.sources = l
  induction l generalizing s with
  | nil => simp
  | cons a l ih => simp [ih]

@[simp] theorem loadClosings_keeps (s : State) :
    (loadClosings s).pending = s.pending ∧ (loadClosings s).powered = s.powered ∧
    (loadClosings s).second = s.second ∧ (loadClosings s).cursors = s.cursors ∧ (loadClosings s).comp = s.comp ∧
    (loadClosings s).media = s.media ∧ (loadClosings s).ret = s.ret ∧ (loadClosings s).audit = s.audit ∧
    (loadClosings s).cat = s.cat ∧ (loadClosings s).fault = s.fault ∧ (∀ p, (loadClosings s).link p = s.link p) ∧
    (loadClosings s).intake.sources = s.intake.sources ∧ (loadClosings s).intake.slots = s.intake.slots ∧
    (loadClosings s).intake.closing = s.intake.closing ∧ (loadClosings s).intake.freePages = s.intake.freePages ∧
    (loadClosings s).intake.ageings = s.intake.ageings := by
  simp [loadClosings]

@[simp] theorem rebuildSweeps_keeps (s : State) :
    (rebuildSweeps s).pending = s.pending ∧ (rebuildSweeps s).powered = s.powered ∧
    (rebuildSweeps s).second = s.second ∧ (rebuildSweeps s).cursors = s.cursors ∧
    (rebuildSweeps s).intake = s.intake ∧ (rebuildSweeps s).comp = s.comp ∧ (rebuildSweeps s).media = s.media ∧
    (rebuildSweeps s).audit = s.audit ∧ (rebuildSweeps s).cat = s.cat ∧ (rebuildSweeps s).fault = s.fault ∧
    (∀ p, (rebuildSweeps s).link p = s.link p) ∧ (rebuildSweeps s).ret.today = s.ret.today ∧
    (rebuildSweeps s).ret.lastSwept = s.ret.lastSwept ∧ (rebuildSweeps s).ret.classes = s.ret.classes ∧
    (rebuildSweeps s).ret.suspended = s.ret.suspended ∧ (rebuildSweeps s).ret.lastDay = s.ret.lastDay ∧
    (rebuildSweeps s).ret.lastExtend = s.ret.lastExtend ∧ (rebuildSweeps s).ret.eraserStopped = s.ret.eraserStopped ∧
    (rebuildSweeps s).ret.erasing = s.ret.erasing := by
  unfold rebuildSweeps
  generalize s.owedSweeps = l
  induction l generalizing s with
  | nil => simp
  | cons a l ih => simp [ih]

@[simp] theorem loadTests_keeps (img : Image) (s : State) :
    (loadTests img s).pending = s.pending ∧ (loadTests img s).powered = s.powered ∧
    (loadTests img s).second = s.second ∧ (loadTests img s).cursors = s.cursors ∧ (loadTests img s).media = s.media ∧
    (loadTests img s).audit = s.audit ∧ (loadTests img s).cat = s.cat ∧ (loadTests img s).fault = s.fault ∧
    (∀ p, (loadTests img s).link p = s.link p) ∧ (loadTests img s).intake.slots = s.intake.slots ∧
    (loadTests img s).intake.closing = s.intake.closing ∧ (loadTests img s).intake.freePages = s.intake.freePages ∧
    (loadTests img s).intake.ageings = s.intake.ageings ∧ (loadTests img s).comp.queue = s.comp.queue ∧
    (loadTests img s).comp.headHeld = s.comp.headHeld ∧ (loadTests img s).comp.builders = s.comp.builders ∧
    (loadTests img s).comp.opening = s.comp.opening ∧ (loadTests img s).comp.stopped = s.comp.stopped ∧
    (loadTests img s).comp.closesOwed = s.comp.closesOwed ∧ (loadTests img s).ret.today = s.ret.today ∧
    (loadTests img s).ret.lastSwept = s.ret.lastSwept ∧ (loadTests img s).ret.classes = s.ret.classes ∧
    (loadTests img s).ret.suspended = s.ret.suspended ∧ (loadTests img s).ret.lastDay = s.ret.lastDay ∧
    (loadTests img s).ret.lastExtend = s.ret.lastExtend ∧ (loadTests img s).ret.eraserStopped = s.ret.eraserStopped ∧
    (loadTests img s).ret.erasing = s.ret.erasing := by
  simp [loadTests]

@[simp] theorem formatSlots_keeps (x : Nat) (s : State) :
    (formatSlots x s).pending = s.pending ∧ (formatSlots x s).powered = s.powered ∧
    (formatSlots x s).second = s.second ∧ (formatSlots x s).cursors = s.cursors ∧
    (formatSlots x s).intake = s.intake ∧ (formatSlots x s).comp = s.comp ∧ (formatSlots x s).ret = s.ret ∧
    (formatSlots x s).audit = s.audit ∧ (formatSlots x s).cat = s.cat ∧ (formatSlots x s).fault = s.fault ∧
    (∀ p, (formatSlots x s).link p = s.link p) ∧ (formatSlots x s).media.dir = s.media.dir ∧
    (formatSlots x s).media.pointer = s.media.pointer ∧ (formatSlots x s).media.slotWait = s.media.slotWait ∧
    (formatSlots x s).media.flash = s.media.flash := by
  simp [formatSlots]

@[simp] theorem beginFirstImage_keeps (f : FormatOp) (s : State) :
    (beginFirstImage f s).pending = s.pending ∧ (beginFirstImage f s).powered = s.powered ∧
    (beginFirstImage f s).second = s.second ∧ (beginFirstImage f s).fault = s.fault ∧
    (∀ p, (beginFirstImage f s).link p = s.link p) ∧ (beginFirstImage f s).media.flash = s.media.flash ∧
    (beginFirstImage f s).cat.archive = s.cat.archive ∧
    (beginFirstImage f s).cat.formatCounter = s.cat.formatCounter := by
  simp [beginFirstImage, afterFormat]

@[simp] theorem advanceStage_keeps (fuel : Nat) (s : State) :
    (advanceStage fuel s).pending = s.pending ∧ (advanceStage fuel s).powered = s.powered ∧
    (advanceStage fuel s).second = s.second ∧ (advanceStage fuel s).fault = s.fault ∧
    (∀ p, (advanceStage fuel s).link p = s.link p) ∧ (advanceStage fuel s).media.flash = s.media.flash ∧
    (advanceStage fuel s).cat.archive = s.cat.archive ∧
    (advanceStage fuel s).cat.formatCounter = s.cat.formatCounter := by
  have h : ∀ (k : Nat) (l : List Nat) (t : State), ((List.foldl (fun u c => askFormatErase c k u) t l).pending = t.pending ∧
      (List.foldl (fun u c => askFormatErase c k u) t l).powered = t.powered ∧
      (List.foldl (fun u c => askFormatErase c k u) t l).second = t.second ∧
      (List.foldl (fun u c => askFormatErase c k u) t l).fault = t.fault ∧
      (∀ p, (List.foldl (fun u c => askFormatErase c k u) t l).link p = t.link p) ∧
      (List.foldl (fun u c => askFormatErase c k u) t l).media.flash = t.media.flash ∧
      (List.foldl (fun u c => askFormatErase c k u) t l).cat.archive = t.cat.archive ∧
      (List.foldl (fun u c => askFormatErase c k u) t l).cat.formatCounter = t.cat.formatCounter) := by
    intro k l
    induction l with
    | nil => simp
    | cons a l ih => intro t; simp [ih]
  induction fuel generalizing s with
  | zero => simp [advanceStage]
  | succ n ih =>
    simp only [advanceStage]
    repeat' split
    all_goals simp [ih, h]

@[simp] theorem endClearing_keeps (s : State) :
    (endClearing s).pending = s.pending ∧ (endClearing s).powered = s.powered ∧ (endClearing s).second = s.second ∧
    (endClearing s).fault = s.fault ∧ (∀ p, (endClearing s).link p = s.link p) ∧
    (endClearing s).media.flash = s.media.flash ∧ (endClearing s).cat.archive = s.cat.archive ∧
    (endClearing s).cat.formatCounter = s.cat.formatCounter := by
  simp only [endClearing]
  repeat' split
  all_goals simp

@[simp] theorem afterQuiet_keeps (s : State) :
    (afterQuiet s).pending = s.pending ∧ (afterQuiet s).powered = s.powered ∧ (afterQuiet s).second = s.second ∧
    (afterQuiet s).fault = s.fault ∧ (afterQuiet s).media.flash = s.media.flash ∧
    (afterQuiet s).cat.formatCounter = s.cat.formatCounter ∧ (∀ p, ((afterQuiet s).link p).up = (s.link p).up) ∧
    (∀ p, ((afterQuiet s).link p).epoch = (s.link p).epoch) ∧
    (∀ p, ((afterQuiet s).link p).outstanding = (s.link p).outstanding) ∧
    (∀ p, ((afterQuiet s).link p).sending = (s.link p).sending) ∧
    (∀ p, ((afterQuiet s).link p).replyTurn = (s.link p).replyTurn) ∧
    (∀ p, ((afterQuiet s).link p).frames = (s.link p).frames) ∧
    (∀ p k, ((afterQuiet s).link p).line k = (s.link p).line k) := by
  simp [afterQuiet]

@[simp] theorem nextStageWhenQuiet_keeps (s : State) :
    (nextStageWhenQuiet s).pending = s.pending ∧ (nextStageWhenQuiet s).powered = s.powered ∧
    (nextStageWhenQuiet s).second = s.second ∧ (nextStageWhenQuiet s).fault = s.fault ∧
    (∀ p, (nextStageWhenQuiet s).link p = s.link p) ∧ (nextStageWhenQuiet s).media.flash = s.media.flash ∧
    (nextStageWhenQuiet s).cat.archive = s.cat.archive ∧
    (nextStageWhenQuiet s).cat.formatCounter = s.cat.formatCounter := by
  simp only [nextStageWhenQuiet]
  repeat' split
  all_goals simp

end Sys2Proof.Machine
end

