-- ==== Sys2Proof/Laws/Records.lean ====
section
/-!
SUPPORT. Laws/Records.lean: what taking a chunk's bytes can do to a slot, and that two chunks count as one.
-/

namespace Sys2Proof.Machine
open Sys2Proof

/-- The CRC-32 register over two runs of bytes (R200). -/
@[simp] theorem crcBytes_append (c : Crc) (bs cs : List Byte) : crcBytes c (bs ++ cs) = crcBytes (crcBytes c bs) cs := by
  simp [crcBytes, List.foldl_append]

/-- A record judged: counted, and kept or rejected; no other field changes (R8). -/
theorem IntakeSlot.judge_eq (f : IntakeSlot) (p : Profile) (bs : List Byte) :
    f.judge p bs = { f with
      seen := (f.judge p bs).seen, accepted := (f.judge p bs).accepted, records := (f.judge p bs).records,
      rejects := (f.judge p bs).rejects } := by
  unfold IntakeSlot.judge
  split <;> rfl

/-- Judging a record reads the counts, the records and the rejects alone. -/
theorem IntakeSlot.judge_stamp (f : IntakeSlot) (p : Profile) (bs : List Byte) (n : Nat) (c : Crc) (time : Nat) :
    ({ f with received := n, check := c, lastActivity := time } : IntakeSlot).judge p bs =
      { f.judge p bs with received := n, check := c, lastActivity := time } := by
  unfold IntakeSlot.judge
  split <;> rfl

/-- So does taking one byte (R5). -/
theorem IntakeSlot.takeByte_stamp (f : IntakeSlot) (p : Profile) (b : Byte) (n : Nat) (c : Crc) (time : Nat) :
    ({ f with received := n, check := c, lastActivity := time } : IntakeSlot).takeByte p b =
      { f.takeByte p b with received := n, check := c, lastActivity := time } := by
  by_cases h : byteAt (f.begun ++ [b]) 0 ≤ (f.begun ++ [b]).length
  · simp only [IntakeSlot.takeByte, if_pos h]
    exact IntakeSlot.judge_stamp { f with begun := [] } p _ n c time
  · simp only [IntakeSlot.takeByte, if_neg h]

/-- And taking any number of them. -/
theorem IntakeSlot.takeBytes_stamp (p : Profile) (n : Nat) (c : Crc) (time : Nat) (bs : List Byte) (f : IntakeSlot) :
    ({ f with received := n, check := c, lastActivity := time } : IntakeSlot).takeBytes p bs =
      { f.takeBytes p bs with received := n, check := c, lastActivity := time } := by
  induction bs generalizing f with
  | nil => rfl
  | cons b bs ih =>
    have := ih (f.takeByte p b)
    simp only [IntakeSlot.takeBytes, List.foldl_cons, IntakeSlot.takeByte_stamp] at this ⊢
    exact this

/-- The stamp of a chunk stands over the bytes taken before it (R40). -/
theorem IntakeSlot.receive_eq (f : IntakeSlot) (p : Profile) (now : Nat) (bs : List Byte) :
    f.receive p now bs =
      { f.takeBytes p bs with
        received := f.received + bs.length, check := crcBytes f.check bs, lastActivity := now } := rfl

/-- Bytes taken one after the other. -/
theorem IntakeSlot.takeBytes_append (p : Profile) (f : IntakeSlot) (bs cs : List Byte) :
    f.takeBytes p (bs ++ cs) = (f.takeBytes p bs).takeBytes p cs := by
  simp [IntakeSlot.takeBytes, List.foldl_append]

end Sys2Proof.Machine
end

