-- ==== Sys2Proof/Laws/SlotMap.lean ====
section
/-!
SUPPORT. Laws/SlotMap.lean: what the laws of the Slot Map, the shared codes, the gap lists and the intake pages depend on, so
that whatever leaves it alone keeps them.
-/

namespace Sys2Proof.Machine
open Sys2Proof

/-! ### The Slot Map (R88) -/

/-- The law of the Slot Map depends on the directory, the channels, the wait list, the builders, the Eraser's erases in flight,
and the catalog channel, load and Format alone. -/
theorem State.slotMapLaw_congr {s t : State} (h : s.slotMapLaw) (hd : t.media.dir = s.media.dir)
    (hc : t.media.channels = s.media.channels) (hw : t.media.slotWait = s.media.slotWait)
    (hb : t.comp.builders = s.comp.builders) (he : t.ret.erasing = s.ret.erasing) (ha : t.cat.archive = s.cat.archive)
    (hk : t.cat.channel = s.cat.channel) (hl : t.cat.load = s.cat.load) (hf : t.cat.format = s.cat.format) :
    t.slotMapLaw := by
  simp only [State.slotMapLaw, State.loadLaw, State.formatLaw, State.buildersLinked, State.opsLinked, State.opLinked,
    State.slotsNamed, State.catalogKept, State.onlyAsks, State.asked, State.slotState, State.entry, State.channel,
    State.builder, State.eraseOn, hd, hc, hw, hb, he, ha, hk, hl, hf] at h ⊢
  exact h

/-! ### The shared codes and the gap lists (R15, R74) -/

/-- How many entries use a code depends on the directory alone. -/
theorem State.uses_congr {s t : State} (hd : t.media.dir = s.media.dir) (c : Nat) : t.uses c = s.uses c := by
  simp only [State.uses, hd]

/-- The law of the shared codes depends on the code table, the directory and the builders alone. -/
theorem State.codesLaw_congr {s t : State} (h : s.codesLaw) (hc : t.comp.codes = s.comp.codes)
    (hd : t.media.dir = s.media.dir) (hb : t.comp.builders = s.comp.builders) : t.codesLaw := by
  simp only [State.codesLaw, State.uses, State.code, State.entry, State.builder, hc, hd, hb] at h ⊢
  exact h

/-- The law of the gap lists depends on the Source Table and the Intake Slots alone. -/
theorem State.gapLaw_congr {s t : State} (h : s.gapLaw) (hn : t.intake.sources = s.intake.sources)
    (hk : t.intake.slots = s.intake.slots) : t.gapLaw := by
  simp only [State.gapLaw, State.source, State.intakeSlot, hn, hk] at h ⊢
  exact h

/-! ### The intake pages (R57) -/

/-- The law of the intake pages depends on the slots, the FREE pages and the queue alone. -/
theorem State.pagesOk_congr {s t : State} (h : s.pagesOk = true) (hs : t.intake.slots = s.intake.slots)
    (hp : t.intake.freePages = s.intake.freePages) (hq : t.comp.queue = s.comp.queue) : t.pagesOk = true := by
  simp only [State.pagesOk, hs, hp, hq] at h ⊢
  exact h

/-- The sum of a table's values after a write, where the table rises: the new one's in place of the old one's. -/
theorem Tbl.sum_put {α : Type} (f : α → Nat) {d : α} (hf : f d = 0) {t : Tbl α} (h : Tbl.rising t = true) (k : Nat) (v : α) :
    ((Tbl.put t k v).map (fun e => f e.2)).sum + f (Tbl.get d t k) = (t.map (fun e => f e.2)).sum + f v := by
  induction t with
  | nil => simp [Tbl.put, hf]
  | cons e t ih =>
    obtain ⟨j, w⟩ := e
    obtain ⟨hlt, ht⟩ := (Tbl.rising_cons j w t).mp h
    rw [Tbl.put]
    split
    · rename_i hkj
      have hn : Tbl.find ((j, w) :: t) k = none := Tbl.find_none_of_lt (by
        intro e he
        rcases List.mem_cons.mp he with rfl | he
        · exact hkj
        · exact Nat.lt_trans hkj (hlt e he))
      simp [Tbl.get, hn, hf]
      omega
    · split
      · rename_i hkj
        subst hkj
        simp [Tbl.get, Tbl.find]
        omega
      · rename_i hkj
        have := ih ht
        have hg : Tbl.get d ((j, w) :: t) k = Tbl.get d t k := by
          simp [Tbl.get, Tbl.find, Ne.symm hkj]
        rw [hg]
        simp
        omega

end Sys2Proof.Machine
end

