-- ==== Sys2Proof/Tests/Slice0.lean ====
section
/-!
SUPPORT. Tests/Slice0.lean: the checks of WellFormed refuse what they should, worked values of the spec, and a witness for
the hypotheses of each statement, clause by clause.
-/

namespace Sys2Proof.Tests
open Sys2Proof Sys2Proof.Machine

/-! ### Helpers -/

/-- A part in SERVICE, both links UP, channel 0 the catalog channel, channels 0 and 1 present with CLEAN slots. -/
def svc : State :=
  { powered := true
    portA := { up := true }
    portB := { up := true }
    media := { channels := [(0, { present := true, rest := .clean }), (1, { present := true, rest := .clean })] }
    cat := { archive := .service, profile := .p1, channel := some 0, last := 1, newer := some 0 } }

/-- `svc` in another archive state. -/
def inState (a : ArchiveState) : State := { svc with cat := { svc.cat with archive := a } }

/-- An operation of a kind for a requester. -/
def opOf (k : OpKind) (r : Requester) (slot : Nat) (e : Option Nat) : Op :=
  { kind := k, slot := slot, requester := r, entry := e, data := .blank }

/-- The operation is in progress on a channel since second 0. -/
def running (c : Nat) (op : Op) (s : State) : State :=
  s.setChannel c { s.channel c with queue := [op], started := some 0 }

/-- An 11-byte subscriber's record. -/
def rec1 : Record :=
  { kind := .voiceOut, subscriber := [1, 2, 3, 4, 5], start := 10, duration := 20, charge := 3, other := none,
    trunk := none, cell := none, volume := none }

/-- A DATA record with every optional field, at the ends of its ranges. -/
def rec4 : Record :=
  { kind := .data, subscriber := [9, 9, 9, 9, 9, 9, 9, 9, 9, 9, 9, 9, 9, 9, 9], start := 86399, duration := 86400,
    charge := 4294967295, other := some [], trunk := some 65535, cell := some 4294967295, volume := some 0 }

/-- `rec1` in its coded form, every field literal. -/
def coded1 : CodedRecord := codedRecord rec1 none none none

/-- The scope of all sources and days. -/
def allKeys : HoldScope := { firstSource := 0, lastSource := 1023, firstDay := 0, lastDay := 65535 }

/-- A request of port A with tag 7. -/
def reqA (kind : Nat) : ReqRef := { port := .a, tag := 7, kind := kind, epoch := 0 }

/-- What a command makes of a state. -/
def after (c : Instr) (s : State) (p : State → Bool) : Bool :=
  match exec c s with
  | .next t => p t
  | _ => false

/-! ### WellFormed refuses -/

theorem test_wf_tag_too_wide : (Instr.status .a 65536).wf = false := by decide
theorem test_wf_present_count : (Instr.powerUp [true]).wf = false := by decide
theorem test_wf_channel : (Instr.segmentWriteOk 8).wf = false := by decide
theorem test_wf_slot : (Instr.intakeIdleLimit 8).wf = false := by decide
theorem test_wf_cursor : (Instr.cursorIdleClose 4).wf = false := by decide
theorem test_wf_closes : (Instr.catalogWriteOk 9).wf = false := by decide
theorem test_wf_masks : (Instr.setNoticeMask .a 1 [1, 1]).wf = false := by decide
theorem test_wf_mask_byte : (Instr.setNoticeMask .a 1 [1, 1, 1, 1, 1, 1, 1, 1, 256]).wf = false := by decide
theorem test_wf_kind_byte : (Instr.requestUnknownKind .a 1 256).wf = false := by decide
theorem test_wf_one_byte_field : (Instr.setParameter .a 1 1 256).wf = false := by decide
theorem test_wf_two_byte_field : (Instr.readSegment .a 1 65536).wf = false := by decide
theorem test_wf_three_byte_field : (Instr.openFile .a 1 0 0 0 16777216 1).wf = false := by decide
theorem test_wf_four_byte_field : (Instr.ackFindings .b 1 4294967296 .intakeFirst).wf = false := by decide
theorem test_wf_code_value : (Instr.defineCode .a 1 0 (.known (.trunk 65536))).wf = false := by decide
theorem test_wf_code_unknown : (Instr.defineCode .a 1 0 (.unknown 2 [])).wf = false := by decide
theorem test_wf_code_length : (Instr.defineCode .a 1 0 (.unknown 9 [])).wf = false := by decide
theorem test_wf_seek_length : (Instr.seek .a 1 0 (.unknown 9 [5])).wf = false := by decide
theorem test_wf_seek_place : (Instr.seek .a 1 0 (.place 65536 0)).wf = false := by decide
theorem test_wf_seek_unknown : (Instr.seek .a 1 0 (.unknown 3 [])).wf = false := by decide
theorem test_wf_filter_digit : (Instr.openCursor .a 1 0 0 0 (some { digits := [256], kinds := 1 }) 1).wf = false := by
  decide
theorem test_wf_scope : (Instr.createHold .a 1 { allKeys with lastSource := 65536 } 0).wf = false := by decide
theorem test_wf_payload_record :
    (Instr.verifyReadComplete 0 (.delivered { crc := 0, dyn := [], records := [{ coded1 with start := 86400 }] })).wf
      = false := by decide
theorem test_wf_payload_codes :
    (Instr.verifyReadComplete 0 (.delivered { crc := 0, dyn := List.replicate 241 (.trunk 1), records := [] })).wf
      = false := by decide +kernel
theorem test_wf_bad_page : (Instr.cursorReadComplete 0 .fail [(0, 65535)]).wf = false := by decide

/-- An image with a table out of order. -/
def badImage : Image :=
  { svc.snapshot 2 0 with sources := [(3, { state := .active }), (3, { state := .active })] }

theorem test_wf_image :
    (Instr.catalogReadComplete 0 (.delivered (.share
      { number := 2, index := 0, channel := 0, area := 0, image := badImage }))).wf = false := by decide
theorem test_wf_image_law : { svc.snapshot 2 0 with params := { lookback := 400 } }.wf = false := by decide
theorem test_wf_image_entry : entryAtRest { state := .writing } = false := by decide
/-- An image whose directory is given. -/
def imageOf (dir : Tbl DirEntry) : Image := { svc.snapshot 2 0 with dir := dir }

/-- A STORED entry of a slot. -/
def storedAt (c k : Nat) : DirEntry := { state := .stored, slot := some { channel := c, slot := k } }

theorem test_wf_image_slots :
    (imageOf [(1, storedAt 0 16), (2, storedAt 7 8191)]).slotsOk = true ∧
      (imageOf [(1, storedAt 0 16), (2, storedAt 0 16)]).slotsOk = false ∧ (imageOf [(1, storedAt 0 15)]).slotsOk = false ∧
      (imageOf [(1, storedAt 8 16)]).slotsOk = false ∧ (imageOf [(1, storedAt 0 8192)]).slotsOk = false ∧
      (imageOf [(1, { state := .stored })]).slotsOk = false ∧
      (imageOf [(1, { storedAt 0 16 with state := .free })]).slotsOk = false := by decide
/-- Gap lists that R15 does not allow: a record not behind the base, two that share a number, seventeen, a base that is no
sequence number. -/
theorem test_wf_image_gaps :
    ({ base := 10, gaps := [{ first := 65535, last := 2, day := 0 }, { first := 3, last := 9, day := 0 }] } :
        SourceEntry).gapsOk = true ∧
      ({ base := 10, gaps := [{ first := 9, last := 10, day := 0 }] } : SourceEntry).gapsOk = false ∧
      ({ base := 10, gaps := [{ first := 3, last := 5, day := 0 }, { first := 5, last := 6, day := 0 }] } :
        SourceEntry).gapsOk = false ∧
      ({ base := 100, gaps := (List.range 17).map (fun i => { first := 5 * i, last := 5 * i, day := 0 }) } :
        SourceEntry).gapsOk = false ∧
      ({ base := 65536 } : SourceEntry).gapsOk = false ∧
      { svc.snapshot 2 0 with sources := [(3, { state := .active, gaps := [{ first := 0, last := 0, day := 0 }] })] }.wf =
        false := by decide

/-- Code tables and used sets that R73 and R74 do not allow. -/
theorem test_wf_image_codes :
    let coded (used : List Nat) : Image :=
      { imageOf [(1, { storedAt 0 16 with used := used })] with codes := [(2, { state := .defined }), (3, { state := .retired })] }
    (coded [2, 3]).codesOk = true ∧ (coded [3, 2]).codesOk = false ∧ (coded [4]).codesOk = false ∧
      (imageOf [(1, { used := [2] })]).codesOk = false ∧
      { svc.snapshot 2 0 with codes := [(2, { count := 1 })] }.codesOk = false ∧
      { coded [4] with dir := [(1, { storedAt 0 16 with used := [4] })] }.wf = false := by decide
theorem test_wf_image_sweeps :
    { svc.snapshot 2 0 with
      classes := (List.range 8).map (fun c => (c, { days := 400, least := 400, pending := true }))
      today := 1 }.wf = false := by decide
theorem test_wf_findings_law : findingsOk [] 0 = false := by decide

/-! ### Values of the spec -/

/-- R200: the CRC-32 of the digits 1 to 9. -/
theorem test_crc_check_value :
    crcResult (crcBytes crcStart [0x31, 0x32, 0x33, 0x34, 0x35, 0x36, 0x37, 0x38, 0x39]) = 0xCBF43926 := by
  decide +kernel

/-- spec/00: with a base of 65,530, sequence 5 lies inside at distance 11; with a base of 100, 40 lies behind. -/
theorem test_positions : positionOf 5 65530 = .inside 11 ∧ positionOf 40 100 = .behind := by decide

/-- R17: base 500, marks set for 501 and 502; an acceptance of 500 moves the base to 503. -/
theorem test_window_example :
    judgeInside { base := 500, marks := 6 } 0 512 = .accepted { base := 503, marks := 0 } [] posInside := by
  decide

/-- R193: the reasons a LINK-READY frame and a frame without its sync byte are bad for. -/
theorem test_bad_frames :
    readFrame .intakeFirst .a linkReadyFrame = some (.badFrame .a .frameKind) ∧
      readFrame .intakeFirst .a [0x5A] = some (.badFrame .a .sync) ∧
      readFrame .intakeFirst .a ([0xA5] ++ be 2 11) = some (.badFrame .a .length) ∧
      readFrame .intakeFirst .a ([0xA5] ++ be 2 4201 ++ [1]) = some (.badFrame .a .length) := by decide +kernel

/-- R193: stray bytes before a request's frame give one bad frame and leave the request, and so do a frame of a bad length
and one whose check fails; a frame cut off gives nothing. -/
theorem test_lane :
    let good := frame 1 1 7 0 []
    readLane .intakeFirst .a ([0x5A, 0] ++ good ++ [0xA5, 0]) = [.badFrame .a .sync, .status .a 7] ∧
      readLane .intakeFirst .a ([0xA5] ++ be 2 11 ++ [1, 2] ++ good) = [.badFrame .a .length, .status .a 7] ∧
      readLane .intakeFirst .a (good.dropLast ++ [(good.getLastD 0) ^^^ 1] ++ good) = [.badFrame .a .check, .status .a 7] ∧
      (arrive .intakeFirst .a good svc).pending = [.status .a 7] := by decide +kernel

/-- A LINK-RESET frame whose check disagrees: read whole, a bad frame, and what follows it stands. -/
theorem test_lane_of_a_failed_check :
    let good := frame 4 2 0 0 [7]
    let bad := good.set 9 0xFF
    bad.head? = some 0xA5#8 ∧ bad.length = numAt bad 1 2 ∧ 12 ≤ bad.length ∧ bad.length ≤ 4200 ∧
      numAt bad (bad.length - 4) 4 ≠ (crc32 (bad.take (bad.length - 4))).toNat ∧
      readLane .intakeFirst .b (bad ++ good) = [.badFrame .b .check, .linkResetFrame .b] := by decide +kernel

/-- R194 check 3: a SEEK of 3 bytes and a DEFINE-CODE of 2, lengths their kinds never allow, whatever code they name; bodies of
an allowed length with an unlisted code pass. -/
theorem test_lengths_of_unlisted_codes :
    let read := fun (k : Nat) (body : List Byte) => readFrame .intakeFirst .a (frame 1 k 7 0 body)
    read 73 [3, 9, 5] = some (.requestUnknownKind .a 7 73) ∧ read 73 [3, 9] = some (.seek .a 7 3 (.unknown 9 [])) ∧
      read 32 [4, 9] = some (.requestUnknownKind .a 7 32) ∧ read 32 [4, 9, 5, 8, 1] = some (.requestUnknownKind .a 7 32) ∧
      read 32 [4, 9, 2, 8] = some (.defineCode .a 7 4 (.unknown 9 [2, 8])) := by decide +kernel

/-- A frame of each layout gives its request back. -/
theorem test_request_frame (c : Instr) (h : c ∈ [Instr.status .a 1, .chunk .a 65535 7 4294967295 [1, 2],
    .openCursor .b 3 1023 0 65535 (some { digits := [1, 2], kinds := 63 }) 2, .seek .a 4 3 (.unknown 9 [1, 2, 3, 4])]) :
    (requestOf c).bind (fun r => readFrame (ackOrderOf c) r.port r.bytes) = some c := by
  revert c
  decide +kernel

/-- R6, R7: a carried record of each end of the profiles is read back. -/
theorem test_records_read_back :
    validate .p1 (recordBytes rec1) = .ok rec1 ∧ validate .p4 (recordBytes rec4) = .ok rec4 := by decide

/-- R7: a record that fails each check of the table in turn, and is sound up to it. -/
theorem test_records_rejected :
    let good := recordBytes rec4
    let set (k v : Nat) : List Byte := good.set k (BitVec.ofNat 8 v)
    validate .p4 (set 0 53) = .error .badLength ∧ validate .p4 (set 1 7) = .error .unknownKind ∧
      validate .p4 (set 2 16) = .error .badSubscriber ∧
      validate .p4 ([16, 1, 15] ++ List.replicate 17 0) = .error .badLength ∧
      validate .p4 (set 21 21) = .error .badOtherParty ∧ validate .p4 (set 1 1) = .error .volumeNotData ∧
      validate .p4 (set 0 33) = .error .badLength ∧ validate .p4 (set 3 0xA9) = .error .badSubscriber ∧
      validate .p4 (recordBytes { rec4 with other := some [10] }) = .error .badOtherParty ∧
      validate .p4 (recordBytes { rec4 with start := 86400 }) = .error .badStart ∧
      validate .p4 (recordBytes { rec4 with duration := 86401 }) = .error .badDuration := by decide

/-- The first command of a run: power-up asks slots 0 and 8 of the one module. -/
theorem test_power_up :
    step { State.reset with pending := [.powerUp [true, false, false, false, false, false, false, false]] } =
      exec (.powerUp [true, false, false, false, false, false, false, false]) State.reset := by rfl

/-! ### Witnesses: requests and links -/

theorem test_admits : svc.admits .a 7 = true ∧ svc.admits .b 7 = true ∧ svc.catalogOpen = true := by decide

theorem test_laws_at_svc :
    svc.listsOk = true ∧ svc.logOk = true ∧ svc.classLaw = true ∧ svc.tablesOk = true ∧ svc.queueOk = true ∧
      svc.pagesOk = true := by decide

/-- A command leaves no UP link idle while something waits on it. -/
theorem test_transmitter_begins :
    after (.status .a 7) svc (fun t => (t.link .a).up && (t.link .a).sending.isSome && (t.link .b).sending.isNone &&
      (t.link .b).up && (t.link .b).replies.isEmpty) = true ∧
      after (.badFrame .b .sync) svc (fun t => decide ((t.link .b).sending = some (.notice noticeLinkError 1
        (frameFaultCode .sync))) && (t.link .a).sending.isNone) = true := by decide

theorem test_link_states :
    State.reset.powered = false ∧ (State.reset.link .a).up = false ∧ (svc.link .a).up = true ∧
      requestOf (.status .a 7) = some ⟨.a, 7, 1, []⟩ := by decide

/-- A port with sixteen requests outstanding, tags 0 to 15. -/
def full : State :=
  svc.setLink .a { svc.portA with outstanding := (List.range 16).map (fun t => { tag := t, kind := 1 }) }

theorem test_refusals_at_the_link :
    (full.link .a).holdsTag 15 = true ∧ (full.link .a).holdsTag 16 = false ∧ 16 ≤ (full.link .a).outstanding.length ∧
      svc.admits .b 7 = true ∧ (portsOf 8).map (fun g => g.allows .b) = some false ∧
      (portsOf 8).map (fun g => g.allows .a) = some true := by decide

/-- The archive states in which requests are turned away, and are not. -/
theorem test_state_refusals :
    (inState .halted).admits .a 7 = true ∧ (inState .halted).stateRefusal 16 = some .halted ∧
      (inState .halted).stateRefusal 83 = some .halted ∧ (inState .halted).stateRefusal 43 = none ∧
      (inState .loading).stateRefusal 16 = some .wrongState ∧ (inState .loading).stateRefusal 88 = some .wrongState ∧
      (inState .unformatted).stateRefusal 83 = none ∧ (inState .unformatted).stateRefusal 84 = some .wrongState ∧
      (inState .formatting).stateRefusal 83 = some .wrongState ∧ (inState .formatting).stateRefusal 1 = none ∧
      requestOf (.readChannel .b 7 0) = some ⟨.b, 7, 43, [0]⟩ ∧ (portsOf 43).map (fun g => g.allows .b) = some true := by
  decide

theorem test_read_frame_wf : (Instr.status .a 65535).wf = true ∧ (requestOf (.status .a 65535)).isSome = true := by decide

/-- A reply, and a notice, being sent. -/
def sendingReply : State := svc.setLink .a { svc.portA with sending := some (.reply (replyTo 7 1 .ok [])) }
def sendingNotice : State := svc.setLink .a { svc.portA with sending := some (.notice 2 1 9) }

theorem test_sending :
    (sendingReply.link .a).sending = some (.reply (replyTo 7 1 .ok [])) ∧
      (sendingNotice.link .a).sending = some (.notice 2 1 9) := by decide

theorem test_transmitter :
    ({ up := true, replies := [replyTo 7 1 .ok []] } : LinkIf).nextNotice = none ∧
      ({ up := true, lines := [(2, { count := 1, subject := some 9 })] } : LinkIf).nextNotice = some 2 := by decide

theorem test_masks :
    [1, 1, 2, 1, 2, 1, 2, 1, 2].length = 9 ∧ (∀ m ∈ [1, 1, 2, 1, 2, 1, 2, 1, 2], m = 1 ∨ m = 2) ∧
      [2, 1, 1, 1, 1, 1, 1, 1, 1][0]? = some 2 := by decide

/-! ### Witnesses: settings, sources, windows -/

/-- `svc` with source 1023 ACTIVE, one gap record and one mark. -/
def withSource : State :=
  svc.setSource 1023 { state := .active, cls := 7, base := 10, marks := 2, gaps := [{ first := 3, last := 5, day := 0 }] }

/-- The law of the gap lists at a source that has one. -/
theorem test_gap_law : withSource.tablesOk = true ∧ withSource.gapLaw ∧
    (Instr.openFile .a 7 1023 65535 0 1 16).wf = true := by
  refine ⟨by decide, ⟨fun n => ?_, fun _ => Nat.zero_lt_succ _⟩, by decide⟩
  by_cases h : 1023 = n
  · subst h
    decide
  · have : withSource.source n = {} := by
      simp [State.source, withSource, State.setSource, svc, Tbl.get, Tbl.put, Tbl.set, Tbl.find, h]
    rw [this]
    decide

theorem test_settings :
    profileOf 1 = some .p1 ∧ profileOf 4 = some .p4 ∧ svc.profileLockClear = true ∧ (svc.source 1023).state = .empty ∧
      (withSource.source 1023).state = .active ∧ operandValue (.known (.trunk 65535)) = some (.trunk 65535) ∧
      (svc.code 15).state = .empty ∧ svc.valueUnused 15 (some (.trunk 65535)) = true ∧
      ((svc.setCode 15 { state := .defined }).code 15).state = .defined := by decide

theorem test_parameters :
    setParam svc.cat.params 1 60 = some { svc.cat.params with lookback := 60 } ∧
      setParam svc.cat.params 4 15 = some { svc.cat.params with retry := 15 } ∧
      (∀ c, c < 8 → 60 < (svc.retClass c).least) := by decide

theorem test_retire_source :
    withSource.admits .a 7 = true ∧ withSource.catalogOpen = true ∧ withSource.hasFileOf 1023 = false ∧
      (withSource.source 1023).gaps.length ≤ withSource.freePlaces ∧
      withSource.audit.next + (withSource.source 1023).gaps.length ≤ 4294967296 := by decide

theorem test_resequence :
    withSource.roomToResequence 1023 500 = true ∧
      withSource.audit.next + (resequenceFit (withSource.source 1023) 500 withSource.today).2.length + 1 ≤ 4294967296 :=
  by decide

theorem test_window_marks :
    (withSource.source 1023).marks.getLsbD 1 = true ∧ (withSource.source 1023).marks.getLsbD 63 = false ∧
      (withSource.source 1023).marks.getLsbD 0 = false := by decide

/-- An acceptance of the base, and one ahead, whose room the log has and has not. -/
theorem test_window_moves :
    (advanceWindow 64 { base := 10, marks := (withSource.source 1023).marks ||| 1#64 }).base = 12 ∧
      positionOf 80 (withSource.source 1023).base = .ahead 70 ∧
      (unreceivedRuns (withSource.source 1023).marks 7) = [(0, 0), (2, 6)] ∧
      positionOf 32863 32700 = .ahead 163 ∧
      (fitGaps 32800 [{ first := 3, last := 5, day := 0 }] [{ first := 32700, last := 32799, day := 0 }]).2.length = 1 ∧
      (fitGaps 32772 [{ first := 3, last := 5, day := 0 }] []).2.length = 1 := by decide

/-- Files behind the window: of no gap record, and at each place of the one that holds the number; a split that the list of
sixteen has no room for displaces its oldest record. -/
theorem test_window_behind :
    positionOf 4 10 = .behind ∧ gapHolds 2 { first := 3, last := 5, day := 0 } = false ∧
      gapHolds 3 { first := 3, last := 5, day := 0 } = true ∧ gapHolds 4 { first := 3, last := 5, day := 0 } = true ∧
      gapHolds 5 { first := 3, last := 5, day := 0 } = true ∧ gapHolds 9 { first := 9, last := 9, day := 0 } = true ∧
      judgeFile { base := 0, gaps := (List.range 16).map (fun i => { first := 100 + 10 * i, last := 102 + 10 * i, day := 0 }) }
        (100 + 1 + 32768) 0 0 = .refused .stale ∧
      (fitGaps 32768 ((List.range 16).map (fun i => { first := 100 + 10 * i, last := 102 + 10 * i, day := 0 }))
        [{ first := 262, last := 262, day := 0 }]).2.length = 1 ∧ positionOf 101 32868 = .behind := by decide

theorem test_gap_split :
    gapHolds 4 { first := 3, last := 5, day := 0 } = true ∧ runLength 3 5 ≤ 32767 ∧
      gapHolds 3 { first := 3, last := 3, day := 0 } = true ∧ runLength 1 32767 ≤ 32767 := by decide

/-! ### Witnesses: files -/

/-- A RECEIVING slot of source 1023. -/
def slotRx : IntakeSlot :=
  { phase := .receiving, source := 1023, sequence := 20, day := 0, declaredRecords := 0, declaredLength := 8, pages := 1,
    check := crcStart }

/-- Its part, with the tally entry of its key. -/
def receiving : State := ((withSource.setIntakeSlot 7 slotRx).setTally 1023 0 { inFlight := 1 })

theorem test_records_fit : rec1.fitsProfile .p1 = true ∧ rec4.fitsProfile .p4 = true := by decide

theorem test_open_file :
    firstRefusal (svc.openChecks 1023 73 0 1 1) = some .unknownSource ∧
    withSource.admits .a 7 = true ∧ firstRefusal (withSource.openChecks 1023 73 0 1000000 268435456) = none := by
  decide

theorem test_chunk :
    receiving.admits .a 7 = true ∧ (receiving.intakeSlot 7).phase = .receiving ∧
      (0 = (receiving.intakeSlot 7).received ∧ 0 + [1#8, 2#8].length ≤ (receiving.intakeSlot 7).declaredLength) ∧
      1 ≠ (receiving.intakeSlot 7).received ∧
      (receiving.intakeSlot 7).declaredLength < 0 + (List.replicate 9 (0#8)).length := by decide

/-- R5, R8: what a chunk's bytes make of a slot: a record, one rejected, the first bytes of one, and the same record over two
chunks. -/
theorem test_records_received :
    let good := recordBytes rec1
    ((slotRx.receive .p1 3 good).records = [rec1] ∧ (slotRx.receive .p1 3 good).seen = 1 ∧
        (slotRx.receive .p1 3 good).accepted = 1) ∧
      ([0#8].length = max 1 (byteAt [0#8] 0) ∧ validate .p1 [0#8] = .error .badLength ∧
        (slotRx.receive .p1 3 [0#8]).rejects.badLength = 1 ∧ (slotRx.receive .p1 3 [0#8]).seen = 1) ∧
      ((good.take 5).length < byteAt (good.take 5) 0 ∧ (slotRx.receive .p1 3 (good.take 5)).begun = good.take 5 ∧
        (slotRx.receive .p1 3 (good.take 5)).seen = 0) ∧
      (slotRx.receive .p1 3 (good.take 5)).receive .p1 4 (good.drop 5) = slotRx.receive .p1 4 good := by decide +kernel

/-- The slot when a whole file of eight bytes with no good record has arrived. -/
def slotFull : IntakeSlot := slotRx.receive .p1 0 [2, 0, 2, 0, 2, 0, 2, 0]

theorem test_close_file :
    firstRefusal (contentChecks ((receiving.intakeSlot 7).close (reqA 26)) 0 16) = some .lengthMismatch ∧
      firstRefusal (contentChecks (({ slotFull with declaredRecords := slotFull.seen }).close (reqA 26))
        (crcResult slotFull.check) 16) = none := by decide +kernel

/-- R5: a record that the end of the file cuts off is counted, once, as it closes. -/
theorem test_close_cuts_a_record :
    let f : IntakeSlot := { slotRx with begun := [9, 1], received := 8 }
    (f.begun ≠ [] ∧ f.received = f.declaredLength) ∧ (f.close (reqA 26)).seen = 1 ∧
      (f.close (reqA 26)).rejects.badLength = 1 ∧ (slotRx.close (reqA 26)).seen = 0 := by decide

/-- A closing file of sequence `n`. -/
def closing (n : Nat) : State :=
  let t := receiving.setIntakeSlot 7 { slotRx with phase := .closing, sequence := n, accepted := 1, records := [rec1],
                                                   closeReq := some (reqA 26) }
  { t with intake := { t.intake with closing := [7] } }

/-- The log without a free place. -/
def logFull (s : State) : State := { s with audit := { s.audit with next := 4294967296 } }

/-- A file whose move of the window displaces a gap record that the log has no place for. -/
def overflowing : State :=
  logFull ((closing 32863).setSource 1023
    { state := .active, base := 32700, gaps := [{ first := 3, last := 5, day := 0 }] })

theorem test_acceptance :
    (closing 11).intake.closing = [7] ∧ (closing 11).cat.archive = .service ∧ (closing 11).cat.state = .idle ∧
      (closing 11).comp.queue.length < 64 ∧ (closing 11).isLive (reqA 26) = true ∧
      judgeFile ((closing 11).source 1023) 11 0 512 = .refused .duplicate ∧
      (∃ e gone pos, judgeFile ((closing 20).source 1023) 20 0 512 = .accepted e gone pos) ∧
      (∃ e gone pos, judgeFile ((closing 80).source 1023) 80 0 512 = .accepted e gone pos) ∧
      (∃ e gone pos, judgeFile ((closing 4).source 1023) 4 0 512 = .accepted e gone pos) ∧
      judgeFile (overflowing.source 1023) 32863 0 overflowing.freePlaces = .gapsFull := by
  refine ⟨?_, ?_, ?_, ?_, ?_, ?_, ⟨_, _, _, rfl⟩, ⟨_, _, _, rfl⟩, ⟨_, _, _, rfl⟩, ?_⟩ <;> decide

/-- An acceptance that displaces a gap record the log has a place for. -/
def displacing : State :=
  (closing 32863).setSource 1023
    { state := .active, base := 32700, gaps := [{ first := 3, last := 5, day := 0 }] }

theorem test_acceptance_displaces :
    (∃ e pos, judgeFile (displacing.source 1023) 32863 0 displacing.freePlaces =
      .accepted e [{ first := 3, last := 5, day := 0 }] pos) ∧ displacing.audit.next + 1 ≤ 4294967296 := by
  refine ⟨⟨_, _, rfl⟩, ?_⟩
  decide

/-- One page of 3,808 stands reserved and one held. -/
def paged : State :=
  { receiving with
    intake := { receiving.intake with freePages := 3806 }
    comp := { receiving.comp with
      queue := [{ source := 1, sequence := 1, day := 0, pages := 1, toAppend := 1, appended := 0, records := [rec1] }] } }

theorem test_pages : paged.tablesOk = true ∧ paged.pagesOk = true := by decide

theorem test_acceptance_tally :
    (closing 20).comp.opening = none ∧ (∀ g ∈ (closing 20).comp.queue, g.appended < g.toAppend) ∧
      (closing 20).tallyEntry 1023 0 = some { inFlight := 1 } := by decide

theorem test_abort :
    (receiving.intakeSlot 7).phase = .receiving ∧
      (receiving.intakeSlot 7).lastActivity + receiving.cat.params.idleLimit ≤ ({ receiving with second := 30 }).second := by
  decide

/-! ### Witnesses: compaction and channels -/

/-- A queued file of two records. -/
def file2 : QueuedFile :=
  { source := 1023, sequence := 20, day := 0, pages := 1, toAppend := 2, appended := 0, records := [rec1, rec1] }

/-- A queued file with a FILLING builder for its key. -/
def compacting : State :=
  let t := { withSource with comp := { withSource.comp with queue := [file2] } }
  (t.setBuilder 31 { phase := .filling, source := 1023, day := 0, entry := 65535, bytesUsed := 32 }).setEntry 65535
    { state := .filling, source := 1023, day := 0, payloadBytes := 32 }

theorem test_append :
    compacting.cat.archive = .service ∧ compacting.comp.stopped = false ∧ compacting.cat.state = .idle ∧
      compacting.comp.opening = none ∧ compacting.comp.queue = [file2] ∧ file2.records[file2.appended]? = some rec1 ∧
      compacting.fillingBuilder 1023 0 = some 31 ∧
      recordFits compacting.comp.codes (compacting.builder 31) rec1 = true ∧ file2.appended + 1 < file2.toAppend ∧
      compacting.fault.general.isHeld = false := by decide

/-- `compacting` at the last record of its file, another file behind it, with its key's tally entry. -/
def lastRecord : State :=
  { compacting with comp := { compacting.comp with queue := [{ file2 with appended := 1 }, file2] } }.setTally 1023 0
    { inFlight := 1 }

theorem test_append_last :
    lastRecord.comp.queue.head?.bind (fun f => f.records[f.appended]?) = some rec1 ∧
      lastRecord.fillingBuilder 1023 0 = some 31 ∧
      recordFits lastRecord.comp.codes (lastRecord.builder 31) rec1 = true ∧ file2.toAppend ≤ 1 + 1 ∧
      file2.appended < file2.toAppend ∧ lastRecord.tallyEntry 1023 0 = some { inFlight := 1 } := by decide

/-- `compacting` without its builder. -/
def unopened : State := { withSource with comp := { withSource.comp with queue := [file2] } }

/-- `unopened` with its 32 builders in a phase, for keys of other sources. -/
def builders (ph : BuilderPhase) : State :=
  { unopened with comp := { unopened.comp with
      builders := (List.range 32).map (fun b => (b, { phase := ph, source := b, entry := b, lastAppend := 40 - b })) } }

/-- `compacting` with its builder full. -/
def fullBuilder : State := compacting.setBuilder 31 { compacting.builder 31 with bytesUsed := 2097152 }

theorem test_append_opens :
    unopened.tablesOk = true ∧ unopened.fillingBuilder 1023 0 = none ∧ unopened.freeBuilder = some 0 ∧
      unopened.freeEntryNumber = some 0 := by decide

theorem test_append_waits :
    (builders .filling).tablesOk = true ∧ (builders .filling).fillingBuilder 1023 0 = none ∧
      (builders .filling).freeBuilder = none ∧ (builders .filling).oldestFilling = some 31 ∧
      (builders .filling).pickSlot none = some { channel := 0, slot := 0 } ∧ (builders .closing).freeBuilder = none ∧
      (builders .closing).fillingBuilder 1023 0 = none ∧ (builders .closing).oldestFilling = none ∧
      file2.appended < file2.toAppend := by decide

theorem test_append_closes :
    fullBuilder.tablesOk = true ∧ fullBuilder.fillingBuilder 1023 0 = some 31 ∧
      recordFits fullBuilder.comp.codes (fullBuilder.builder 31) rec1 = false ∧
      fullBuilder.pickSlot none = some { channel := 0, slot := 0 } := by decide

/-- `svc` with one channel, all its slots in a state. -/
def slotsIn (st : SlotState) : State :=
  { svc with media := { svc.media with channels := [(1, { present := true, rest := st })] } }

theorem test_close_begins :
    (slotsIn .dirty).pickSlot none = none ∧ (slotsIn .dirty).willBecomeClean = true ∧
      (slotsIn .used).pickSlot none = none ∧ (slotsIn .used).willBecomeClean = false ∧
      (slotsIn .used).cat.archive = .service ∧ (slotsIn .used).fault.general.isHeld = false := by decide

/-- A directory whose 65,536 entries are all the entry given. -/
def allEntries (e : DirEntry) : State :=
  { svc with media := { svc.media with dir := (List.range' 0 65536).map (fun i => (i, e)) } }

/-- No entry of a run of listed ones is FREE. -/
theorem nextFrom_run (e : DirEntry) (h : e.state ≠ .free) (n k : Nat) :
    Tbl.nextFrom (fun _ (v : DirEntry) => decide (v.state = .free)) true (k + n) k
      ((List.range' k n).map (fun i => (i, e))) = none := by
  induction n generalizing k with
  | zero => simp [Tbl.nextFrom]
  | succ n ih =>
    rw [List.range'_succ, List.map_cons, Tbl.nextFrom]
    have := ih (k + 1)
    rw [show k + 1 + n = k + (n + 1) by omega] at this
    simp [h, this]

theorem test_open_without_entry :
    (allEntries { state := .filling }).freeEntryNumber = none ∧
      (allEntries { state := .filling }).willBecomeFree = false ∧
      (allEntries { state := .expired, slot := some { channel := 1, slot := 0 } }).freeEntryNumber = none ∧
      (allEntries { state := .expired, slot := some { channel := 1, slot := 0 } }).willBecomeFree = true := by
  refine ⟨nextFrom_run _ (by decide) 65536 0, ?_, nextFrom_run _ (by decide) 65536 0, ?_⟩
  · rw [State.willBecomeFree, List.any_eq_false]
    intro x hx
    obtain ⟨i, _, rfl⟩ := List.mem_map.mp hx
    simp [isLeaving]
  · rw [State.willBecomeFree, List.any_eq_true]
    refine ⟨(0, { state := .expired, slot := some { channel := 1, slot := 0 } }), ?_, by decide⟩
    exact List.mem_map.mpr ⟨0, by simp [List.mem_range'], rfl⟩

/-- R4, R64: a record coded for a builder decodes to itself under its profile, and to nothing under another or with a code
out of the list. -/
theorem test_decode :
    decodeRecord .p4 (codeValue [] [] [.trunk 65535, .cell 4294967295]) (encodeRecord [] {} rec4).record = some rec4 ∧
      decodeRecord .p3 (codeValue [] [] [.trunk 65535, .cell 4294967295]) (encodeRecord [] {} rec4).record = none ∧
      decodeRecord .p4 (codeValue [] [] []) (encodeRecord [] {} rec4).record = none := by decide

/-- A builder's write in progress. -/
def writing (fails : Nat) : State :=
  running 1 (opOf .write (.builder 31) 8191 (some 65535))
    ((compacting.setBuilder 31 { phase := .closing, source := 1023, entry := 65535, failures := fails }).setEntry 65535
      { state := .writing, source := 1023, slot := some { channel := 1, slot := 8191 } })

theorem test_builder_writes :
    (writing 0).inProgress 1 (opOf .write (.builder 31) 8191 (some 65535)) = true ∧
      (writing 0).cat.archive = .service ∧ (writing 0).cat.state ≠ .quiescing ∧ (writing 0).comp.opening = none ∧
      (writing 0).comp.stopped = false ∧ ((writing 1).builder 31).failures + 1 < (writing 1).cat.params.retry ∧
      (writing 2).cat.params.retry ≤ ((writing 2).builder 31).failures + 1 ∧ (writing 0).fault.media.isHeld = false ∧
      (writing 0).fault.general.isHeld = false := by decide

/-- An opening waits for a builder: the write's end frees builder 31, and builder 0 opens for the head file's key. -/
theorem test_write_ends_a_wait_for_a_builder :
    let s : State := { writing 0 with comp := { (writing 0).comp with opening := some .builder } }
    let u := (s.setEntry 65535 { s.entry 65535 with state := .stored }).setBuilder 31 {}
    s.tablesOk = true ∧ s.comp.opening = some .builder ∧ file2.appended < file2.toAppend ∧
      u.fillingBuilder 1023 0 = none ∧ u.freeBuilder = some 0 ∧ u.freeEntryNumber = some 0 ∧
      after (.segmentWriteOk 1) s (fun t => decide (t.comp.opening = none ∧ (t.builder 0).phase = .filling ∧
        (t.entry 0).state = .filling ∧ (t.entry 65535).state = .stored ∧ t.cat = s.cat)) = true := by decide +kernel

/-- A checkpoint QUIESCING with its waiter, over a state. -/
def quiescing (s : State) : State :=
  { s with cat := { s.cat with state := .quiescing, waiters := [{ req := some (reqA 80), number := true }] } }

/-- A drain that has nothing to begin, one whose head file goes on, and the faults that abandon one. -/
theorem test_writes_end_in_a_drain :
    (quiescing (writing 0)).drainStands ∧ (writing 0).drainStands ∧
      (compacting.fillingBuilder 1023 0 = some 31 ∧ (quiescing compacting).cat.state = .quiescing ∧
        file2.appended + 1 < file2.toAppend) ∧
      after (.segmentWriteFail 1) (quiescing (writing 2)) (fun t => decide (t.cat.state = .idle ∧ t.cat.waiters = []) &&
        t.replied .a (replyTo 7 80 .notDurable [])) = true ∧
      after (.appendRecord false) (quiescing compacting) (fun t => decide (t.cat.state = .idle ∧ t.comp.headHeld = true) &&
        t.replied .a (replyTo 7 80 .notDurable [])) = true := by
  refine ⟨Or.inr (Or.inr (Or.inl ⟨file2, [], by decide⟩)), Or.inl (by decide), ?_⟩
  decide

/-- An operation of channel 0 in progress, two seconds old. -/
def timed (r : Requester) : State := { running 0 (opOf .erase r 3 none) svc with second := 2 }

/-- A read of a requester in progress on channel 0, two seconds old. -/
def timedRead (k : OpKind) (r : Requester) (s : State) : State := { running 0 (opOf k r 3 none) s with second := 2 }

/-- The states in which a failed write's close is given a slot at once, waits, or finds no space. -/
theorem test_write_retried :
    ((writing 0).setSlotState { channel := 1, slot := 8191 } .defective).pickSlot (some 1) =
        some { channel := 0, slot := 0 } ∧
      ((slotsIn .dirty).setSlotState { channel := 1, slot := 8191 } .defective).pickSlot (some 1) = none ∧
      (((slotsIn .dirty).setSlotState { channel := 1, slot := 8191 } .defective).setEntry 65535
        { state := .filling }).willBecomeClean = true ∧
      ((slotsIn .used).setSlotState { channel := 1, slot := 8191 } .defective).pickSlot (some 1) = none ∧
      (((slotsIn .used).setSlotState { channel := 1, slot := 8191 } .defective).setEntry 65535
        { state := .filling }).willBecomeClean = false := by decide

theorem test_write_fails_stopped :
    let s : State := { writing 0 with comp := { (writing 0).comp with stopped := true } }
    s.cat.archive = .service ∧ s.inProgress 1 (opOf .write (.builder 31) 8191 (some 65535)) = true ∧
      (s.builder 31).failures + 1 < s.cat.params.retry := by decide

/-- An operation started at second 0 has run out at second 2. -/
theorem ranOut_of_started {s : State} {c : Nat} (h : (s.channel c).started = some 0) (h2 : s.second = 2) : s.ranOut c := by
  intro k hk
  rw [h] at hk
  cases hk
  omega

theorem test_timeouts_of_each_requester :
    (timedRead .write (.builder 31) compacting).ranOut 0 ∧ (timedRead .write (.builder 31) compacting).cat.state = .idle ∧
      (timedRead .write (.builder 31) compacting).fault.media.isHeld = false ∧
      (timedRead .read .audit svc).inProgress 0 (opOf .read .audit 3 none) = true ∧
      (timedRead .read (.cursor 3) svc).inProgress 0 (opOf .read (.cursor 3) 3 none) = true ∧
      (timedRead .catalogRead .load svc).inProgress 0 (opOf .catalogRead .load 3 none) = true ∧
      (timedRead .erase .format svc).inProgress 0 (opOf .erase .format 3 none) = true ∧
      (timedRead .catalogWrite .catalog svc).inProgress 0 (opOf .catalogWrite .catalog 3 none) = true ∧
      (timedRead .catalogWrite .catalog svc).cat.channel = some 0 := by
  refine ⟨ranOut_of_started (by decide) rfl, ?_⟩
  decide

theorem test_timeouts :
    (timed .eraser).inProgress 0 (opOf .erase .eraser 3 none) = true ∧
      (timed .discarded).inProgress 0 (opOf .erase .discarded 3 none) = true ∧
      (∀ k, ((timed .eraser).channel 0).started = some k → k + 2 ≤ (timed .eraser).second) ∧
      (timed .discarded).cat.load = none ∧ (timed .discarded).cat.format = none ∧
      ((timed .discarded).channel 0).outside = [] := by
  refine ⟨by decide, by decide, ?_, rfl, rfl, rfl⟩
  intro k hk
  have h : ((timed .eraser).channel 0).started = some 0 := by decide
  rw [h] at hk
  cases hk
  decide

theorem test_set_channel :
    modeOf 2 = some .draining ∧ firstRefusal (svc.setChannelChecks 1 2) = none ∧
      ({ setMode := .offline, slots := [(8191, .clean)] } : Channel).setMode = .offline := by decide

/-- Channel 1 is OFFLINE, with a CLEAN, a DIRTY and a USED slot. -/
def offlineChannel : State :=
  svc.setChannel 1 { present := true, rest := .defective, setMode := .offline,
                     slots := [(0, .clean), (3, .dirty), (8190, .used), (8191, .clean)] }

/-- SET-CHANNEL takes it ONLINE: its CLEAN slots are DIRTY, the others as they were. -/
theorem test_channel_leaves_offline :
    offlineChannel.admits .a 7 = true ∧ offlineChannel.tablesOk = true ∧
      firstRefusal (offlineChannel.setChannelChecks 1 1) = none ∧ (offlineChannel.channel 1).setMode = .offline ∧
      after (.setChannel .a 7 1 1) offlineChannel (fun t => decide ((t.channel 1).setMode = .online ∧
        (t.channel 1).slot 0 = .dirty ∧ (t.channel 1).slot 8191 = .dirty ∧ (t.channel 1).slot 3 = .dirty ∧
        (t.channel 1).slot 8190 = .used ∧ (t.channel 1).slot 5 = .defective)) = true := by decide +kernel

theorem test_allocation :
    svc.pickSlot (some 1) = some { channel := 0, slot := 0 } ∧ svc.pickSlot none = some { channel := 0, slot := 0 } ∧
      (opOf .catalogWrite .catalog 0 none).isCatalogWrite = true ∧ (opOf .read .audit 0 none).isCatalogWrite = false := by
  decide

/-- A STORED entry on the last slot of channel 1, whose segment uses shared code 3. -/
def codedEntry : DirEntry := { storedAt 1 8191 with used := [3] }

/-- `svc` with its catalog slots, and `codedEntry` as entry 65,535. -/
def mapped : State :=
  { svc with
    comp := { svc.comp with codes := [(3, { state := .retired, value := some (.trunk 1), count := 1 })] }
    media := { svc.media with
      dir := [(65535, codedEntry)]
      channels := [(0, { present := true, rest := .clean, slots := (List.range 16).map (fun k => (k, .catalog)) }),
                   (1, { present := true, rest := .clean, slots := [(8191, .used)] })] } }

/-- Its directory, entry by entry. -/
theorem mapped_entry (e : Nat) : mapped.entry e = if 65535 = e then codedEntry else {} := by
  by_cases h : 65535 = e <;> simp [State.entry, Tbl.get, Tbl.find, mapped, h]

/-- Its Slot Map: no other slot is USED. -/
theorem mapped_used (r : SlotRef) (h : mapped.slotState r = .used) : r = { channel := 1, slot := 8191 } := by
  obtain ⟨c, k⟩ := r
  by_cases h0 : 0 = c
  · subst h0
    by_cases hk : k < 16
    · interval_cases k <;> exact absurd h (by decide)
    · have : Tbl.find ((List.range 16).map (fun j => (j, SlotState.catalog))) k = none := by
        cases hf : Tbl.find ((List.range 16).map (fun j => (j, SlotState.catalog))) k with
        | none => rfl
        | some v => exact absurd (by simpa using Tbl.mem_of_find hf) (fun (h : k < 16 ∧ _) => hk h.1)
      simp [State.slotState, State.channel, Channel.slot, Tbl.get, Tbl.find, mapped, this] at h
  · by_cases h1 : 1 = c
    · subst h1
      by_cases hk : 8191 = k <;>
        simp [State.slotState, State.channel, Channel.slot, Tbl.get, Tbl.find, mapped, hk] at h ⊢
    · simp [State.slotState, State.channel, Channel.slot, Tbl.get, Tbl.find, mapped, h0, h1] at h

/-- The law of the Slot Map at a part at rest with a segment stored. -/
theorem test_slot_map_law : mapped.tablesOk = true ∧ mapped.slotMapLaw := by
  have quiet : ∀ c, mapped.asked c = [] := by
    intro c
    by_cases h0 : 0 = c
    · subst h0; rfl
    · by_cases h1 : 1 = c
      · subst h1; rfl
      · simp [State.asked, State.channel, Tbl.get, Tbl.find, mapped, h0, h1]
  have free : ∀ b, mapped.builder b = {} := fun _ => rfl
  refine ⟨by decide, ?_, ?_, ⟨?_, ?_, ?_, ?_⟩, ?_, fun _ => ⟨⟨?_, ?_, ?_⟩, ?_⟩⟩
  · intro h
    exact absurd h (by decide)
  · intro f hf
    exact absurd hf (by simp [mapped, svc])
  · intro b hb
    exact absurd (congrArg Builder.phase (free b)) hb
  · rintro b (hb | hb)
    · rw [free] at hb
      exact absurd hb (by decide)
    · exact absurd hb (List.not_mem_nil)
  · intro b hb
    exact absurd hb (List.not_mem_nil)
  · exact List.nodup_nil
  · intro c
    simp [quiet c]
  · intro e
    rw [mapped_entry]
    split <;> rfl
  · intro e r hr
    rw [mapped_entry] at hr
    split at hr
    · rename_i he
      obtain rfl : { channel := 1, slot := 8191 } = r := by simpa [codedEntry, storedAt] using hr
      refine ⟨by decide, by decide, by decide, fun f hf => ?_⟩
      rw [mapped_entry] at hf
      split at hf
      · omega
      · exact absurd hf (by decide)
    · exact absurd hr (by simp)
  · intro r _ h
    exact ⟨65535, by rw [mapped_used r h]; rfl⟩
  · intro c k hc hk
    obtain rfl : 0 = c := by simpa [mapped, svc] using hc
    interval_cases k <;> rfl

/-- The law of the shared codes there: code 3 is used by one entry. -/
theorem test_codes_law : mapped.codesLaw ∧ (mapped.code 3).count = 1 := by
  refine ⟨⟨fun c => ?_, fun c => ?_, fun e => ?_, fun _ h => absurd h (by simp [State.builder, mapped, svc, Tbl.get, Tbl.find])⟩,
    by decide⟩
  · by_cases h : 3 = c
    · subst h
      decide
    · simp [State.code, State.uses, mapped, codedEntry, storedAt, Tbl.get, Tbl.find, h, Ne.symm h]
  · by_cases h : 3 = c
    · subst h
      exact fun hs => absurd hs (by decide)
    · intro _
      simp [State.code, mapped, Tbl.get, Tbl.find, h]
  · rw [mapped_entry]
    split <;> simp [codedEntry, storedAt]

/-! ### Witnesses: retention and holds -/

/-- A sweep at an entry. -/
def sweeping (k : SweepKind) (n : Nat) (e : DirEntry) : State :=
  (svc.setEntry n e).setSweeps [{ kind := k, position := n }]

/-- A STORED entry that is due on day 0. -/
def dueEntry : DirEntry := { state := .stored, source := 1, cls := some 0, expiryDay := some 0 }

theorem test_advance_and_class :
    svc.enginesUp = true ∧ svc.ret.today < 65535 ∧ svc.dayQueued = false ∧ svc.ret.sweeps.length < 8 ∧
      svc.lookback < 8 ∧ 8 ≤ (svc.retClass 7).days ∧ (svc.retClass 7).days < 4000 := by decide

theorem test_advance_closes_a_tally :
    let s := { svc.setTally 1023 0 {} with ret := { svc.ret with today := 7 } }
    s.tallyEntry 1023 0 = some {} ∧ 0 + s.lookback < s.ret.today + 1 := by decide

/-- Two FILLING builders of day 0, with and without a CLEAN slot in the part. -/
def oldBuilders (rest : SlotState) : State :=
  let filling (e : Nat) : Builder := { phase := .filling, source := e, day := 0, entry := e, bytesUsed := 32 }
  let entry (e : Nat) : DirEntry := { state := .filling, source := e, day := 0, payloadBytes := 32 }
  { svc with
    comp := { svc.comp with builders := [(3, filling 8), (31, filling 9)] }
    media := { svc.media with
      dir := [(8, entry 8), (9, entry 9)]
      channels := [(1, { present := true, rest := rest })] } }

/-- ADVANCE-DAY closes both where there are slots; where there is none, the first stops compaction and the other is owed. -/
theorem test_advance_closes_builders :
    (oldBuilders .clean).tablesOk = true ∧ (oldBuilders .defective).pickSlot none = none ∧
      (oldBuilders .defective).willBecomeClean = false ∧ (oldBuilders .defective).enginesUp = true ∧
      after (.advanceDay .a 7) (oldBuilders .clean) (fun t => decide ((t.builder 3).phase = .closing ∧
        (t.builder 31).phase = .closing ∧ (t.entry 8).state = .writing ∧ (t.entry 9).state = .writing)) = true ∧
      after (.advanceDay .a 7) (oldBuilders .defective) (fun t => decide (t.comp.stopped = true ∧ t.comp.closesOwed = true ∧
        (t.builder 3).phase = .closing ∧ (t.builder 31).phase = .filling)) = true := by decide +kernel

/-- One of the two, which the advance gives a slot. -/
theorem test_advance_closes_one :
    let s := oldBuilders .clean
    let s : State := { s with comp := { s.comp with builders := [(31, s.builder 31)] } }
    s.pickSlot none = some { channel := 1, slot := 0 } ∧ (s.builder 31).day < s.ret.today + 1 ∧
      after (.advanceDay .a 7) s (fun t => decide (t.slotState { channel := 1, slot := 0 } = .used ∧
        (t.asked 1).map Op.slot = [0] ∧ (t.entry 9).slot = some { channel := 1, slot := 0 })) = true := by decide +kernel

/-- `withSource` on a day that ages its gap record, with the line of an earlier ageing that left one. -/
def ageing (left : List Nat) : State :=
  { withSource with ret := { withSource.ret with today := 20 }, intake := { withSource.intake with ageings := left } }

theorem test_ageing :
    (ageing []).leftFrom 0 ∧ (ageing [5]).leftFrom 5 ∧ (ageing [5]).tablesOk = true ∧
      5 ≤ (ageing [5]).ret.today + 1 - (ageing [5]).lookback ∧
      (agedFindings (ageing [5]).intake.sources 0 5).length = 1 ∧ agedFindings (ageing [5]).intake.sources 5 14 = [] ∧
      (logFull (ageing [5])).freePlaces = 0 := by
  refine ⟨Or.inl ⟨rfl, rfl⟩, Or.inr rfl, ?_⟩
  decide

theorem test_day_sweep :
    (sweeping .day 65534 dueEntry).due ((sweeping .day 65534 dueEntry).entry 65534) = true ∧
      ((sweeping .day 65534 dueEntry).entry 65534).holds = [] ∧
      (sweeping .day 65534 dueEntry).tallyEntry 1 0 = none ∧
      ((sweeping .day 0 { dueEntry with holds := [15] }).entry 0).holds ≠ [] ∧
      (sweeping .day 65535 {}).due ((sweeping .day 65535 {}).entry 65535) = false := by decide

/-- A sweep at entry 65,535 with its request, in a catalog state. -/
def sweepEnd (k : SweepKind) (cat : CatalogState) (e : DirEntry) : State :=
  let s := svc.setEntry 65535 e
  { s with
    ret := { s.ret with sweeps := [{ kind := k, position := 65535, reqs := [reqA 48] }] }
    cat := { s.cat with state := cat } }

/-- What pins a due entry: a reader, a tally entry. Entry 65,535 due: it is marked, and the request waits, or is answered. -/
theorem test_day_sweep_pins_and_ends :
    let tallied := (sweeping .day 9 dueEntry).setTally 1 0 {}
    (after .daySweepEntry (sweeping .day 9 { dueEntry with readers := 1 }) (fun t =>
        decide (t.ret.sweeps = [{ kind := .day, position := 10, read := 1 }])) = true ∧
      after .daySweepEntry tallied (fun t => decide (t.ret.sweeps = [{ kind := .day, position := 10, tallied := 1 }])) = true) ∧
      (sweepEnd .day .idle dueEntry).due dueEntry = true ∧ (sweepEnd .day .stopped {}).isLive (reqA 48) = true ∧
      after .daySweepEntry (sweepEnd .day .writing dueEntry) (fun t => decide ((t.entry 65535).state = .expired ∧
        (t.entry 65535).expiryCkpt = some 3 ∧ t.awaitsWith (reqA 48) (dayBody 0 { kind := .day, marked := 1 }) = true)) = true ∧
      after .daySweepEntry (sweepEnd .day .stopped dueEntry) (fun t => decide ((t.entry 65535).expiryCkpt = some 2) &&
        t.replied .a (replyTo 7 48 .notDurable (dayBody 0 { kind := .day, marked := 1 }))) = true := by
  refine ⟨?_, by decide, by decide, ?_⟩ <;> decide

/-- `sweepEnd` with a file queued, compaction running or STOPPED. -/
def drainingEnd (k : SweepKind) (stopped : Bool) : State :=
  let s := sweepEnd k .idle dueEntry
  { s with comp := { s.comp with queue := [file2], stopped := stopped } }

/-- A DAY sweep's end where there is something to drain: its request waits while the checkpoint is QUIESCING, and with
compaction STOPPED it is answered NOT-DURABLE; entry 65,535 is marked. -/
theorem test_day_sweep_ends_before_a_drain :
    (∀ stopped, (drainingEnd .day stopped).triggerSpares 65535) ∧ (sweepEnd .day .idle {}).triggerSpares 65535 ∧
      (∀ t : State, t.comp.stopped = false → (drainingEnd .day false).triggerJoins t) ∧
      (∀ t : State, t.comp.stopped = true → (drainingEnd .day true).triggerFails t) ∧
      after .daySweepEntry (drainingEnd .day false) (fun t => decide (t.cat.state = .quiescing ∧ t.comp.stopped = false ∧
        (t.entry 65535).state = .expired) && t.awaitsWith (reqA 48) (dayBody 0 { kind := .day, marked := 1 })) = true ∧
      after .daySweepEntry (drainingEnd .day true) (fun t => decide (t.cat.state = .idle ∧ t.comp.stopped = true ∧
        (t.entry 65535).state = .expired ∧ (t.portA.line noticeDayDone).subject = some 0) &&
          t.replied .a (replyTo 7 48 .notDurable (dayBody 0 { kind := .day, marked := 1 }))) = true := by
  refine ⟨fun stopped => Or.inr ⟨by cases stopped <;> decide, by cases stopped <;> decide, ?_⟩,
    Or.inl (Or.inr (Or.inr (Or.inr ⟨rfl, rfl⟩))), fun t h => Or.inr (Or.inr ⟨rfl, by decide, h⟩),
    fun t h => Or.inr ⟨rfl, Or.inr h⟩, by decide, by decide⟩
  intro b h
  exact absurd h (by cases stopped <;> simp [drainingEnd, sweepEnd, svc, State.builder, Tbl.get, Tbl.find])

/-- Entry 65,535 of the sweep's class: extended, reclaimed, too late. -/
theorem test_extend_sweep_ends :
    after .extendSweepEntry (sweepEnd (.extend 0) .writing dueEntry) (fun t => decide ((t.entry 65535).expiryDay = some 400 ∧
        t.ret.lastExtend = some { extended := 1, reclaimed := 0, tooLate := 0, cls := 0 })) = true ∧
      after .extendSweepEntry (sweepEnd (.extend 0) .idle { dueEntry with state := .expired, expiryCkpt := some 2 }) (fun t =>
        decide ((t.entry 65535).state = .stored ∧ t.ret.lastExtend = some { extended := 0, reclaimed := 1, tooLate := 0, cls := 0 })) = true ∧
      after .extendSweepEntry (sweepEnd (.extend 0) .stopped { dueEntry with state := .erasing }) (fun t =>
        decide (t.ret.lastExtend = some { extended := 0, reclaimed := 0, tooLate := 1, cls := 0 }) && t.replied .a (replyTo 7 48 .notDurable
          (extendBody { kind := .extend 0, tooLate := 1 }))) = true ∧
      after .extendSweepEntry (sweepEnd (.extend 0) .quiescing dueEntry) (fun t => t.awaitsWith (reqA 48)
        (extendBody { kind := .extend 0, extended := 1 })) = true := by decide +kernel

theorem test_extend_sweep :
    ((sweeping (.extend 0) 65534 dueEntry).entry 65534).cls = some 0 ∧
      (0 : Nat) < 0 + ((sweeping (.extend 0) 65534 dueEntry).retClass 0).days ∧
      (sweeping (.extend 0) 5 { dueEntry with state := .expired }).ret.today <
        0 + ((sweeping (.extend 0) 5 dueEntry).retClass 0).days ∧
      ((sweeping (.extend 0) 5 { dueEntry with state := .erasing }).entry 5).state = .erasing ∧
      ((sweeping (.extend 0) 5 { dueEntry with state := .writing }).entry 5).state = .writing ∧
      0 + ((sweeping (.extend 0) 5 dueEntry).retClass 0).days ≤ ({ dueEntry with expiryDay := some 400 }).expiryDay.getD 0 ∧
      0 + ((sweeping (.extend 0) 5 dueEntry).retClass 0).days ≤ ({ svc.ret with today := 400 } : RetentionUnit).today ∧
      ((sweeping (.extend 0) 65535 { dueEntry with cls := some 7 }).entry 65535).cls ≠ some 0 := by decide

/-- An Eraser erase in progress. -/
def erasing (e : Option Nat) : State :=
  running 1 (opOf .erase .eraser 8191 e) (svc.setEntry 9 { state := .erasing, slot := some { channel := 1, slot := 8191 } })

theorem test_eraser :
    (erasing (some 9)).inProgress 1 (opOf .erase .eraser 8191 (some 9)) = true ∧
      (erasing none).inProgress 1 (opOf .erase .eraser 8191 none) = true ∧ (erasing none).media.slotWait = [] ∧
      (erasing none).comp.opening = none ∧ (erasing none).cat.state ≠ .quiescing := by decide

/-- A CLOSING builder on an entry. -/
def closingOn (e : Nat) : Builder := { phase := .closing, source := 1, entry := e, failures := 2 }

/-- An Eraser erase of entry 9 in progress on channel 1, every other slot of the part in a state, with closes waiting for a
slot, each builder on the entry of its number. -/
def waiting (st : SlotState) (wait : List Nat) : State :=
  let s := (slotsIn st).setSlotState { channel := 1, slot := 8191 } .used
  let s := running 1 (opOf .erase .eraser 8191 (some 9))
    (s.setEntry 9 { state := .erasing, slot := some { channel := 1, slot := 8191 } })
  let s := wait.foldl (fun t b => (t.setBuilder b (closingOn b)).setEntry b { state := .filling, source := 1 }) s
  { s with media := { s.media with slotWait := wait } }

/-- The close of builder 31 is first on the list, and alone with its entry. -/
theorem waiting_first (st : SlotState) : (waiting st [31, 30]).waitsFirst 31 [30] := by
  refine ⟨rfl, by cases st <;> decide, by decide, ?_⟩
  rintro d hd (h | h)
  · rw [List.mem_singleton.mp h]
    cases st <;> decide
  · refine absurd h ?_
    have hb : (waiting st [31, 30]).comp.builders = [(30, closingOn 30), (31, closingOn 31)] := by cases st <;> decide
    rw [State.builder, hb]
    by_cases h30 : 30 = d <;> by_cases h31 : 31 = d <;> simp [Tbl.get, Tbl.find, closingOn, h30, h31]

/-- Where the erase leaves a CLEAN slot, where one will become CLEAN, and where none will. -/
theorem test_wait_list_tested :
    let op := opOf .erase .eraser 8191 (some 9)
    (waiting .used [31, 30]).inProgress 1 op = true ∧ (waiting .used [31, 30]).tablesOk = true ∧
      op.entry ≠ some ((waiting .used [31, 30]).builder 31).entry ∧
      ((waiting .used [31, 30]).erased 1 op true).pickSlot none = some { channel := 1, slot := 8191 } ∧
      ((waiting .used [31, 30]).erased 1 op false).pickSlot none = none ∧
      ((waiting .used [31, 30]).erased 1 op false).willBecomeClean = false ∧
      ((waiting .dirty [31, 30]).erased 1 op false).pickSlot none = none ∧
      ((waiting .dirty [31, 30]).erased 1 op false).willBecomeClean = true ∧
      (waiting .used [31, 30]).drainStands ∧ (waiting .used [31, 30]).fault.general.isHeld = false ∧
      (waiting .used [31, 30]).comp.opening = none := by
  refine ⟨by decide, by decide, by decide, by decide, by decide, by decide, by decide, by decide, Or.inl (by decide), ?_⟩
  decide

/-- The close first on the list is given the slot; with none left it raises SPACE-EXHAUSTED; STOPPED, none is given. -/
theorem test_wait_list_served :
    let stopped : State := { waiting .used [31, 30] with comp := { (waiting .used [31, 30]).comp with stopped := true } }
    after (.entryEraseComplete 1 true) (waiting .dirty [31, 30]) (fun t => decide (t.media.slotWait = [30] ∧
        (t.entry 31).slot = some { channel := 1, slot := 8191 } ∧ (t.entry 9).state = .free ∧
        (t.asked 1).map Op.requester = [.builder 31, .eraser] ∧ t.comp.stopped = false)) = true ∧
      after (.entryEraseComplete 1 false) (waiting .used [31, 30]) (fun t => decide (t.media.slotWait = [30] ∧
        t.comp.stopped = true ∧ t.fault.general = .held 1 { kind := .spaceExhausted, segment := some 31 })) = true ∧
      after (.entryEraseComplete 1 false) (waiting .dirty [31, 30]) (fun t => decide (t.media.slotWait = [31, 30] ∧
        t.comp.stopped = false)) = true ∧
      after (.entryEraseComplete 1 true) stopped (fun t => decide (t.media.slotWait = [31, 30] ∧
        t.slotState { channel := 1, slot := 8191 } = .clean)) = true := by decide +kernel

/-- An opening that waits for a directory entry takes one at the erase's end. -/
theorem test_erase_ends_a_wait_for_an_entry :
    let s : State := { waiting .clean [] with comp := { queue := [file2], opening := some .entry } }
    s.inProgress 1 (opOf .erase .eraser 8191 (some 9)) = true ∧ s.tablesOk = true ∧ s.freeBuilder = some 0 ∧
      s.fillingBuilder 1023 0 = none ∧ (s.erased 1 (opOf .erase .eraser 8191 (some 9)) true).freeEntryNumber = some 0 ∧
      after (.entryEraseComplete 1 true) s (fun t => decide (t.comp.opening = none ∧ (t.builder 0).phase = .filling ∧
        (t.entry 0).state = .filling ∧ t.comp.queue = [file2])) = true := by decide +kernel

/-- A DRAINING channel with CLEAN slots becomes ONLINE: the closes waiting are given its slots. -/
theorem test_channel_serves_the_wait_list :
    let s := waiting .used [31, 30]
    let s := s.setChannel 0 { present := true, rest := .clean, setMode := .draining }
    s.admits .a 7 = true ∧ firstRefusal (s.setChannelChecks 0 1) = none ∧ s.tablesOk = true ∧
      (takeMode 0 .online s).pickSlot none = some { channel := 0, slot := 0 } ∧
      after (.setChannel .a 7 0 1) s (fun t => decide (t.media.slotWait = [] ∧ (t.asked 0).map Op.slot = [0, 1] ∧
        (t.entry 31).slot = some { channel := 0, slot := 0 } ∧ t.cat.state = .quiescing)) = true := by decide +kernel

/-- An entry on channel 1 that the Eraser may take, or that it has left ERASING, and the same part with a DIRTY slot alone. -/
def leaving (e : DirEntry) : State :=
  { svc with media := { svc.media with
      dir := [(65535, { e with slot := some { channel := 1, slot := 8191 } })]
      channels := [(1, { present := true, rest := .clean, slots := [(8190, .dirty), (8191, .used)] })] } }

/-- Its directory, entry by entry. -/
theorem leaving_entry (e : DirEntry) (n : Nat) :
    (leaving e).entry n = if 65535 = n then { e with slot := some { channel := 1, slot := 8191 } } else {} := by
  by_cases h : 65535 = n <;> simp [State.entry, Tbl.get, Tbl.find, leaving, h]

/-- It is the lowest entry on its channel that satisfies what it satisfies. -/
theorem leaving_lowest (e : DirEntry) (p : DirEntry → Prop)
    (h : p { e with slot := some { channel := 1, slot := 8191 } }) : (leaving e).lowestOn 1 65535 p := by
  refine ⟨by decide, ⟨8191, by rw [leaving_entry]; rfl⟩, by rw [leaving_entry]; exact h, ?_⟩
  intro n hn k hk
  rw [leaving_entry, if_neg (by omega)] at hk
  exact absurd hk (by simp)

/-- Entries the Eraser takes, one left ERASING, and one it may not take. -/
theorem test_eraser_takes :
    let due : DirEntry := { state := .expired, cls := some 7, expiryCkpt := some 1 }
    (leaving due).tablesOk = true ∧ ((leaving due).channel 1).mode ≠ .offline ∧ (leaving due).eraseOn 1 = none ∧
      (leaving due).lowestOn 1 65535 (leaving due).mayErase ∧
      (leaving { due with state := .erasing }).lowestOn 1 65535 (fun v => v.state = .erasing) ∧
      ¬ (leaving due).mayErase { due with expiryCkpt := some 2 } ∧ ((leaving due).channel 1).lowest .dirty = some 8190 ∧
      (leaving due).cat.load = none ∧ (leaving due).cat.last = 1 := by
  refine ⟨by decide, by decide, by decide, ?_, ?_, ?_, by decide, by decide, by decide⟩
  · exact leaving_lowest _ _ ⟨rfl, ⟨1, rfl, by decide⟩, by decide⟩
  · exact leaving_lowest _ _ rfl
  · rintro ⟨_, ⟨n, hn, hl⟩, _⟩
    cases hn
    exact absurd hl (by decide)

/-- A step in which an entry becomes ERASING: the Eraser is resumed with an eligible entry. -/
theorem test_step_takes_an_entry :
    let s := leaving { state := .expired, cls := some 7, expiryCkpt := some 1 }
    let s : State := { s with ret := { s.ret with eraserStopped := true }, pending := [.resume .a 7 2] }
    s.admits .a 7 = true ∧
      (match step s with
       | .next t => decide ((t.entry 65535).state = .erasing ∧ (t.asked 1).length = 1)
       | _ => false) = true := by decide

/-- `svc` with hold 15 in a state. -/
def withHold (st : HoldState) : State := svc.setHold 15 { state := st, owner := .a, scope := allKeys }

theorem test_holds :
    scopeOk allKeys = true ∧ svc.emptyHold = some 0 ∧ ((withHold .draft).hold 15).state = .draft ∧
      ((withHold .draft).hold 15).owner = .a ∧ ((withHold .active).hold 15).state = .active ∧
      (withHold .active).catalogOpen = true ∧ (withHold .active).admits .b 7 = true := by decide

/-- A hold's sweep at an entry. -/
def holdSweep (k : SweepKind) (e : DirEntry) : State :=
  ((withHold .applying).setEntry 65534 e).setSweeps [{ kind := k, position := 65534 }]

/-- An APPLY sweep that has lost a segment and waits for a place. -/
def suspended : State :=
  let t := holdSweep (.apply 15) {}
  let t := t.setHold 15 { t.hold 15 with lost := 1, firstLost := some { entry := 1, source := 1, day := 0 } }
  { t with ret := { t.ret with suspended := true } }

/-- A hold's sweep at its last entry, which the hold neither covers nor marks. -/
def holdEnd (k : SweepKind) : State :=
  ((withHold .applying).setHold 15 { (withHold .applying).hold 15 with scope := { allKeys with firstSource := 1 } }).setSweeps
    [{ kind := k, position := 65535, reqs := [reqA 59] }]

theorem test_hold_sweeps_end :
    scopeCovers ((holdEnd (.apply 15)).hold 15).scope ((holdEnd (.apply 15)).entry 65535).source
        ((holdEnd (.apply 15)).entry 65535).day = false ∧ ((holdEnd (.apply 15)).hold 15).lost = 0 ∧
      ((holdEnd (.release 15)).entry 65535).holds.contains 15 = false ∧ (holdEnd (.release 15)).ret.suspended = false := by
  decide

theorem test_hold_sweeps :
    scopeCovers ((holdSweep (.apply 15) dueEntry).hold 15).scope 1 0 = true ∧
      ((holdSweep (.apply 15) dueEntry).entry 65534).state = .stored ∧
      (({ dueEntry with holds := [15] }).holds).contains 15 = true ∧
      suspended.ret.suspended = true ∧ (suspended.hold 15).lost ≠ 0 ∧ 0 < suspended.freePlaces ∧
      suspended.cat.archive = .service := by decide

/-- A hold's sweep at entry 65,535, which the hold covers, with segments lost so far and another sweep behind it. -/
def holdLast (k : SweepKind) (lost : Nat) (e : DirEntry) : State :=
  let s := (sweepEnd k .writing e).setHold 15 { state := .applying, scope := allKeys, lost := lost }
  s.setSweeps (s.ret.sweeps ++ [{ kind := .apply 3 }])

/-- Entry 65,535 of an APPLY sweep: covered, lost with and without a place of the log; of a RELEASE sweep: marked. -/
theorem test_hold_sweeps_handle_the_last_entry :
    (∀ v, (holdLast (.apply 15) 0 dueEntry).ret.sweeps.tail.head? = some v → v.kind ≠ .apply 15) ∧
      after .applySweepEntry (holdLast (.apply 15) 0 dueEntry) (fun t => decide ((t.entry 65535).holds = [15] ∧
        (t.hold 15).state = .active ∧ (t.hold 15).marked = 1 ∧ t.audit.findings = [])) = true ∧
      after .applySweepEntry (holdLast (.apply 15) 1 { dueEntry with state := .erasing }) (fun t =>
        decide ((t.hold 15).state = .active ∧ (t.hold 15).lost = 2 ∧ t.audit.findings.length = 1)) = true ∧
      (logFull (holdLast (.apply 15) 0 { dueEntry with state := .erasing })).freePlaces = 0 ∧
      after .applySweepEntry (logFull (holdLast (.apply 15) 0 { dueEntry with state := .erasing })) (fun t =>
        decide (t.ret.suspended = true ∧ (t.hold 15).state = .applying ∧ (t.hold 15).lost = 1 ∧
          t.ret.sweeps.length = 2)) = true ∧
      after .releaseSweepEntry (holdLast (.release 15) 0 { dueEntry with holds := [3, 15] }) (fun t =>
        decide ((t.entry 65535).holds = [3] ∧ t.hold 15 = {} ∧ t.ret.sweeps.length = 1) &&
          t.awaitsWith (reqA 48) (be 1 15 ++ count4 1)) = true := by
  refine ⟨?_, ?_⟩
  · rintro v hv
    obtain rfl : ({ kind := .apply 3 } : Sweep) = v := Option.some.inj hv
    decide
  · decide

/-- The first 65,535 entries STORED. -/
@[irreducible] def storedRun : Tbl DirEntry := (List.range' 0 65535).map (fun i => (i, { state := .stored }))

theorem storedRun_rising : Tbl.rising storedRun = true := by
  rw [storedRun, Tbl.rising_iff, List.map_map]
  simpa [Function.comp_def] using List.pairwise_lt_range' (s := 0) (n := 65535)

theorem storedRun_get (n : Nat) : Tbl.get {} storedRun n = if n < 65535 then { state := .stored } else {} := by
  split
  · rename_i h
    rw [Tbl.get, Tbl.find_of_mem (v := { state := .stored }) storedRun_rising]
    · rfl
    · rw [storedRun]
      exact List.mem_map.mpr ⟨n, by simp [List.mem_range'_1, h], rfl⟩
  · rename_i h
    rw [Tbl.get]
    cases hf : Tbl.find storedRun n with
    | none => rfl
    | some w =>
      have hm := Tbl.mem_of_find hf
      rw [storedRun] at hm
      obtain ⟨i, hi, he⟩ := List.mem_map.mp hm
      cases he
      simp [List.mem_range'_1] at hi
      omega

/-- A sweep at entry 65,535, EXPIRED and the one entry leaving, every other in use, with a checkpoint QUIESCING and an
opening that waits for an entry. -/
def crowded (k : SweepKind) : State :=
  let s := (sweepEnd k .quiescing {}).setHold 15 { state := .applying, scope := allKeys }
  State.setEntry
    { s with
      media := { s.media with dir := storedRun }
      comp := { s.comp with opening := some .entry }
      ret := { s.ret with eraserStopped := true } }
    65535 { dueEntry with state := .expired, slot := some { channel := 1, slot := 0 } }

theorem crowded_dir (k : SweepKind) :
    (crowded k).media.dir =
      Tbl.set {} storedRun 65535 { dueEntry with state := .expired, slot := some { channel := 1, slot := 0 } } := by
  simp only [crowded, State.setEntry]

theorem crowded_last (k : SweepKind) :
    (clearFrames (crowded k)).entry 65535 =
      { dueEntry with state := .expired, slot := some { channel := 1, slot := 0 } } := by
  simp only [clearFrames, State.entry, crowded_dir, Tbl.get_set_same]

/-- With that entry STORED again, the opening starves. -/
theorem crowded_starves (k : SweepKind) (v : DirEntry) (hv : v.state = .stored) (t : State)
    (ht : t.media.dir = Tbl.set {} (crowded k).media.dir 65535 v) : (crowded k).openingStarves t := by
  have hr : Tbl.rising t.media.dir = true := by
    rw [ht, crowded_dir]
    exact Tbl.rising_set (Tbl.rising_set storedRun_rising _ _ _) _ _ _
  have he : ∀ n, t.entry n = if n = 65535 then v else if n < 65535 then { state := .stored } else {} := by
    intro n
    simp only [State.entry, ht, crowded_dir, Tbl.get_set, storedRun_get]
    split <;> rfl
  refine ⟨rfl, rfl, freeEntryNumber_none hr fun n hn => ?_, willBecomeFree_false hr fun n => ?_⟩
  · rw [he]
    split
    · rw [hv]; decide
    · rw [if_pos (by omega)]; decide
  · rw [he]
    split
    · rw [isLeaving, hv]; decide
    · split <;> decide

/-- Reclaimed, it leaves an opening that starves while a checkpoint is QUIESCING, and the request of the run is live. -/
theorem test_reclaimed_last_entry_starves_an_opening :
    (∃ t, exec .extendSweepEntry (crowded (.extend 0)) = .next t ∧ (crowded (.extend 0)).openingStarves t) ∧
      (∃ t, exec .applySweepEntry (crowded (.apply 15)) = .next t ∧ (crowded (.apply 15)).openingStarves t) ∧
      ∀ k, (crowded k).cat.state = .quiescing ∧ (crowded k).cat.archive = .service ∧
        (crowded k).isLive (reqA 48) = true := by
  let e : DirEntry := { dueEntry with slot := some { channel := 1, slot := 0 } }
  refine ⟨⟨_, rfl, crowded_starves _ { e with expiryDay := some 400 } rfl _ ?_⟩,
    ⟨_, rfl, crowded_starves _ { e with holds := [15] } rfl _ ?_⟩,
    fun k => ⟨rfl, rfl, rfl⟩⟩
  · have hr : (clearFrames (crowded (.extend 0))).runningSweep =
        some { kind := .extend 0, position := 65535, reqs := [reqA 48] } := rfl
    simp only [transmitBoth_keeps, testOpening_keeps, hr, extendEntry, crowded_last]
    rfl
  · have hr : (clearFrames (crowded (.apply 15))).runningSweep =
        some { kind := .apply 15, position := 65535, reqs := [reqA 48] } := rfl
    simp only [transmitBoth_keeps, testOpening_keeps, hr, applyEntry, crowded_last]
    rfl

/-! ### Witnesses: findings, jobs and cursors -/

theorem test_ack_findings : svc.cat.state ≠ .stopped ∧ svc.cat.last < 4294967295 ∧ 0 < svc.audit.next := by decide

/-- `ageing` with its source flagged, and a finding to acknowledge. -/
def flagged : State :=
  let t := (ageing []).setSource 1023 { (ageing []).source 1023 with overflow := true }
  { t with audit := { t.audit with
      findings := [{ number := 1, recorded := 0, body := gapFinal 1 .aged { first := 1, last := 1, day := 0 } }], next := 2 } }

theorem test_ack_passes :
    flagged.tablesOk = true ∧ flagged.ret.suspended = false ∧ flagged.audit.job = none ∧
      (∃ f ∈ flagged.audit.findings, f.number ≤ 1) ∧ (flaggedFindings flagged.intake.sources).length = 1 ∧
      (agedFindings (flagged.intake.sources.map (fun e => (e.1, unflagged e.2))) 0 flagged.ageLine) = [] ∧
      1 < flagged.audit.next := by decide

/-- A STORED entry on a readable slot, and a CLOSED tally entry of its key. -/
def stored : State :=
  (svc.setEntry 9 { state := .stored, source := 1, day := 0, recordCount := 1, payloadBytes := 46, crc := some 5,
                    slot := some { channel := 1, slot := 0 } }).setTally 1 0 { state := .closed, recordsAccepted := 1 }

theorem test_jobs_start :
    stored.admits .b 7 = true ∧ stored.audit.job = none ∧ stored.readable 9 = true ∧
      Tbl.nextFrom (fun _ v => decide (v.state = .stored)) false (65535 + 1) 0 stored.media.dir = some 9 ∧
      Tbl.nextFrom (fun _ v => decide (v.state = .stored)) false (65535 + 1) 10 stored.media.dir = none ∧
      svc.intake.tally = [] ∧ stored.intake.tally = [(1, { state := .closed, recordsAccepted := 1 })] ∧
      stored.keyBusy 1 = false ∧
      Tbl.nextFrom (fun _ v => hasKey 1 v && decide (v.state = .stored)) false 65536 0 stored.media.dir = some 9 := by
  decide

/-- A job with entry 9 in hand and its read in progress. -/
def auditing (j : Job) : State :=
  running 1 (opOf .read .audit 0 (some 9)) (stored.setJob (some { j with inHand := some 9, reading := true }))

/-- A VERIFY and a RECONCILE job at entry 9 and its key. -/
def verifyJob : Job := { kind := .verify 0 65535, position := some 9, req := { port := .b, tag := 7, kind := 66, epoch := 0 } }
def reconcileJob : Job :=
  { kind := .reconcile, position := some 1, counting := true, req := { port := .b, tag := 7, kind := 67, epoch := 0 } }

/-- A payload that agrees with entry 9. -/
def goodPayload : Payload := { crc := 5, dyn := [], records := [coded1] }

/-- A payload whose check agrees and whose record names a code of no list. -/
def brokenPayload : Payload := { crc := 5, dyn := [], records := [{ coded1 with cell := some (.code 16) }] }

theorem test_audit_reads :
    (auditing verifyJob).inProgress 1 (opOf .read .audit 0 (some 9)) = true ∧
      ((auditing verifyJob).entry 9).crc = some goodPayload.crc ∧
      (auditing verifyJob).decoded 9 (some goodPayload) = ((auditing verifyJob).entry 9).recordCount ∧
      (auditing verifyJob).decoded 9 (some brokenPayload) ≠ ((auditing verifyJob).entry 9).recordCount ∧
      ((auditing verifyJob).entry 9).crc ≠ some 6 ∧ 0 < (auditing verifyJob).freePlaces ∧
      (logFull (auditing verifyJob)).freePlaces = 0 ∧ verifyJob.owed = none ∧
      (auditing reconcileJob).cat.archive = .service ∧
      ((auditing reconcileJob).tallyEntry (tallySource 1) (tallyDay 1)).map TallyEntry.recordsAccepted = some 1 ∧
      Tbl.nextFrom (fun _ v => hasKey 1 v && decide (v.state = .stored)) false 65536 (9 + 1) (auditing reconcileJob).media.dir
        = none := by decide

/-- Reads that fail, and whose check differs; a key with another STORED segment to read. -/
theorem test_audit_bad_reads :
    (auditing verifyJob).decoded 9 none = 0 ∧
      ((some ({ goodPayload with crc := 6 } : Payload)).any
        (fun q => decide (((auditing reconcileJob).entry 9).crc = some q.crc))) = false ∧
      (let s := (auditing reconcileJob).setEntry 65535 { (auditing reconcileJob).entry 9 with recordCount := 2 }
       Tbl.nextFrom (fun _ v => hasKey 1 v && decide (v.state = .stored)) false 65536 (9 + 1) s.media.dir = some 65535 ∧
         s.readable 65535 = true ∧ s.cat.archive = .service) ∧ reconcileJob.owed = none := by decide

/-- A mismatch that finds the log full, and the suspended job once a place is free. -/
theorem test_reconcile_suspends :
    (logFull (auditing reconcileJob)).freePlaces = 0 ∧
      (auditing reconcileJob).decoded 9 (some brokenPayload) = 0 ∧
      ((auditing { reconcileJob with owed := some (tallyMismatch 1 1 0) }).audit.job.bind Job.owed).isSome = true ∧
      0 < (auditing { reconcileJob with owed := some (tallyMismatch 1 1 0) }).freePlaces := by decide

/-- A cursor of port A on source 1, OPEN, with its latch. -/
def withCursor (l : Latch) : State :=
  stored.setCursor 3 { isOpen := true, owner := .a, source := 1, firstDay := 0, lastDay := 65535, latch := l }

theorem test_filters :
    filterOk { digits := [1, 2, 3, 4, 5], kinds := 63 } = true ∧ filterOk { digits := [1, 2, 3, 4], kinds := 63 } = false ∧
      (filterOf { digits := [1, 2, 3, 4, 5], kinds := 33 }).kinds.length = 2 := by decide

theorem test_cursors :
    svc.freeCursorNumber = some 0 ∧ ((withCursor .atEnd).cursor 3).isOpen = true ∧
      ((withCursor .atEnd).cursor 3).owner = .a ∧ ((withCursor .atEnd).cursor 3).reading = none ∧
      targetKnown (.place 9 65535) = true ∧ (withCursor .atEnd).seekOk 3 (.place 9 65535) = true ∧
      ((withCursor .atEnd).cursor 3).lastUse + 120 ≤ ({ withCursor .atEnd with second := 120 }).second ∧
      ((withCursor (.ready { day := 0, entry := 9, index := 0 } rec1)).cursor 3).latch =
        .ready { day := 0, entry := 9, index := 0 } rec1 ∧ ((withCursor .loading).cursor 3).latch = .loading := by
  decide

/-- R191: the idle close runs in HALTED too. -/
theorem test_cursor_idles_in_halted :
    let s : State := { withCursor .atEnd with second := 120 }
    after (.cursorIdleClose 3) { s with cat := { s.cat with archive := .halted } } (fun t => decide (t.cursor 3 = {} ∧
      (t.portA.line noticeCursorClosed).subject = some 3)) = true := by decide

/-- R163: a cursor whose prefetch has moved past its position's segment, turned there at record 0, enters that segment
again. -/
theorem test_turn_enters_again :
    let s := (withCursor .atEnd).setCursor 3 { (withCursor .atEnd).cursor 3 with
      position := some { day := 0, entry := 9, index := 0 } }
    ((turnCursor 3 .down s).cursor 3).held = some 9 ∧ ((turnCursor 3 .down s).entry 9).readers = 1 := by decide

/-- R162: a seek downwards from a record of an entry that holds none reaches the entry, and upwards does not. -/
theorem test_seek_into_an_empty_entry :
    boundAdmits .down (.since { day := 0, entry := 9, index := 0 } true) (0, 9) 0 = true ∧
      boundAdmits .up (.since { day := 0, entry := 9, index := 0 } true) (0, 9) 0 = false := by decide

/-- The read of a cursor's load in progress. -/
def loadingCursor : State :=
  let t := withCursor .loading
  running 1 (opOf .read (.cursor 3) 0 (some 9)) (t.setCursor 3 { t.cursor 3 with held := some 9 })

theorem test_cursor_read :
    loadingCursor.inProgress 1 (opOf .read (.cursor 3) 0 (some 9)) = true ∧
      (loadingCursor.cursor 3).held = some 9 ∧ (loadingCursor.entry 9).crc = some goodPayload.crc ∧
      decodeAlong (loadingCursor.cursor 3).filter
        (decodePayload loadingCursor.cat.profile loadingCursor.comp.codes (loadingCursor.entry 9) goodPayload)
        ({ payload := goodPayload, bad := [(1, 0)] } : SegmentCopy).failing
        ((loadingCursor.cursor 3).indexes 0 9 (loadingCursor.entry 9).recordCount) = .found 0 rec1 ∧
      ({ payload := goodPayload, bad := [(1, 0)] } : SegmentCopy).used.failing = [0] := by decide

/-! ### Witnesses: checkpoints, loads, Format, faults -/

theorem test_checkpoint :
    svc.cat.state = .idle ∧ svc.comp.queue = [] ∧ svc.comp.builders = [] ∧ svc.comp.opening = none := by decide

/-- A builder CLOSING alone, its write in progress on channel 1. -/
def lastClose : State := { writing 0 with comp := { (writing 0).comp with queue := [] } }

/-- A checkpoint with something to drain: a file queued, FILLING builders, a builder CLOSING; with no slot for a close it is
abandoned. -/
theorem test_checkpoint_drains :
    compacting.admits .a 7 = true ∧ compacting.catalogOpen = true ∧ lastClose.admits .a 7 = true ∧
      (∀ b, b < 32 → (lastClose.builder b).phase ≠ .filling) ∧ (oldBuilders .clean).catalogOpen = true ∧
      (oldBuilders .clean).pickSlot none = some { channel := 1, slot := 0 } ∧
      after (.checkpoint .a 7) compacting (fun t => decide (t.cat.state = .quiescing ∧ t.comp = compacting.comp)) = true ∧
      after (.checkpoint .a 7) lastClose (fun t => decide (t.cat.state = .quiescing ∧ t.comp = lastClose.comp)) = true ∧
      after (.checkpoint .a 7) (oldBuilders .clean) (fun t => decide (t.cat.state = .quiescing ∧
        (t.builder 3).phase = .closing ∧ (t.builder 31).phase = .closing)) = true ∧
      after (.checkpoint .a 7) (oldBuilders .defective) (fun t => decide (t.cat.state = .idle ∧ t.comp.stopped = true ∧
        t.cat.last = 1) && t.replied .a (replyTo 7 80 .notDurable [])) = true := by decide +kernel

/-- The drain goes on at an append and at a segment write's end, and is complete with the last builder FREE. -/
theorem test_drain_goes_on :
    let s := quiescing compacting
    let last : State := { s with comp := { s.comp with queue := [{ file2 with appended := 1 }] } }
    after (.segmentWriteOk 1) (quiescing lastClose) (fun t => decide (t.cat.state = .writing ∧ t.cat.last = 1 ∧
        t.cat.waiters = (quiescing lastClose).cat.waiters ∧ t.cat.buffer.map Image.number = some 2 ∧
        (t.asked 0).map Op.slot = [8, 9, 10, 11, 12, 13, 14, 15])) = true ∧
      after (.appendRecord true) s (fun t => decide (t.cat.state = .quiescing ∧ (t.builder 31).phase = .filling)) = true ∧
      after (.appendRecord true) last (fun t => decide (t.cat.state = .quiescing ∧ t.comp.queue = [] ∧
        (t.builder 31).phase = .closing)) = true := by decide +kernel

/-- A checkpoint WRITING with `n` shares completed and one in progress. -/
def writingShares (n : Nat) : State :=
  let t := running 0 (opOf .catalogWrite .catalog 8 none) svc
  { t with cat := { t.cat with state := .writing, sharesOk := n } }

theorem test_shares :
    (writingShares 7).inProgress ((writingShares 7).cat.channel.getD 0) (opOf .catalogWrite .catalog 8 none) = true ∧
      (writingShares 6).cat.sharesOk < 7 ∧ (writingShares 7).cat.owed = false ∧
      ({ (writingShares 7).cat with owed := true } : CatalogUnit).owed = true ∧
      (writingShares 7).cat.last + 1 < 4294967295 ∧ (writingShares 7).comp.stopped = false := by decide

/-- An owed checkpoint with a file to drain, and with compaction STOPPED. -/
theorem test_owed_checkpoint_drains :
    let s := fun stopped => ({ writingShares 7 with
      comp := { queue := [file2], stopped := stopped }
      cat := { (writingShares 7).cat with owed := true, owedWaiters := [{ req := some (reqA 80), number := true }] } } : State)
    after (.catalogWriteOk 0) (s false) (fun t => decide (t.cat.state = .quiescing ∧ t.cat.last = 2 ∧
        t.cat.waiters = [{ req := some (reqA 80), number := true }])) = true ∧
      after (.catalogWriteOk 0) (s true) (fun t => decide (t.cat.state = .idle ∧ t.cat.last = 2) &&
        t.replied .a (replyTo 7 80 .notDurable [])) = true := by decide +kernel

theorem test_supply :
    State.reset.powered = false ∧ [true, false].any id = true ∧ [false, false].any id = false ∧ svc.powered = true := by
  decide

/-- The image of `svc`, and its share for a slot of area 0. -/
def svcImage : Image := svc.snapshot 2 0
def svcShare (k : Nat) : CatalogData :=
  .share { number := 2, index := k, channel := 0, area := 0, image := svcImage }

/-- The notes of the sixteen reads of channel 0: area 0 valid, area 1 blank. -/
def notes : List Noted :=
  (List.range 16).map (fun k => { channel := 0, slot := k, data := some (if k < 8 then svcShare k else .blank) })

/-- A load of channel 0, begun by RESET-CONTROLLER, whose last read is in progress. -/
def loading (before : List Noted) : State :=
  let t := { inState .loading with media := { channels := [(0, { present := true }), (1, { present := true })] } }
  (running 0 (opOf .catalogRead .load 15 none) t).setLoad
    (some { target := .channel 0, asked := true, noted := before, starter := some (reqA 82) })

/-- Area 0 of `notes` holds the image. -/
theorem test_valid_image : validImage 0 0 notes = some svcImage := by
  have h : ∀ k, k < 8 → shareAt notes k =
      some { number := 2, index := k, channel := 0, area := 0, image := svcImage } := by
    intro k hk
    interval_cases k <;> rfl
  have hw : svcImage.wf = true := by decide
  have hn : svcImage.number = 2 := rfl
  rw [validImage, h 0 (by omega)]
  simp only [Nat.mul_zero, Nat.zero_add, svcImage, State.snapshot, imageAgrees_sealImage, Bool.true_and]
  rw [if_pos]
  rw [Bool.and_eq_true]
  refine ⟨hw, ?_⟩
  rw [List.all_eq_true]
  intro k hk
  rw [h k (by simpa using hk)]
  simp [shareFits, svcImage, State.snapshot]
  rfl

theorem test_load :
    (loading (notes.take 15)).inProgress 0 (opOf .catalogRead .load 15 none) = true ∧ (notes.take 15).length = 15 ∧
      (chooseImage (validImage 0 0 notes) (validImage 0 1 notes)).isSome = true ∧
      validImage 0 0 [] = none ∧ validImage 0 1 [] = none := by
  refine ⟨by decide, by decide, ?_, by decide, by decide⟩
  rw [test_valid_image, show validImage 0 1 notes = none by rfl]
  rfl

/-- The Slot Map before an image gives it, and the starter's request. -/
theorem test_load_begins_blank :
    (loading []).isLive (reqA 82) = true ∧
      ∀ j, ((loading []).channel j).slots = [] ∧ ((loading []).channel j).rest = .dirty := by
  refine ⟨by decide, fun j => ?_⟩
  by_cases h0 : 0 = j
  · subst h0; exact ⟨rfl, rfl⟩
  · by_cases h1 : 1 = j
    · subst h1; exact ⟨rfl, rfl⟩
    · simp [State.channel, Tbl.get, Tbl.find, loading, running, State.setChannel, Tbl.set, Tbl.put, State.setLoad, h0, h1]

/-- A search whose last read is in progress on channel 1, the others noted as given. -/
def searching (before : List Noted) : State :=
  let t := running 1 (opOf .catalogRead .load 8 none) (inState .loading)
  t.setLoad (some { target := .search, asked := true, noted := before })

/-- The note of a slot read blank, and of one that names its channel. -/
def blankNote (c k : Nat) : Noted := { channel := c, slot := k, data := some .blank }
def namedNote (c : Nat) : Noted :=
  { channel := c, slot := 0,
    data := some (.share { number := 2, index := 0, channel := c, area := 0, image := svcImage }) }

theorem test_search :
    (searching [blankNote 0 0, blankNote 0 8, blankNote 1 0]).presentChannels.length = 2 ∧
      candidates [blankNote 0 0, blankNote 0 8, blankNote 1 0, blankNote 1 8] = [] ∧
      candidates [namedNote 0, blankNote 0 8, blankNote 1 0, blankNote 1 8] = [0] ∧
      candidates [namedNote 0, blankNote 0 8, namedNote 1, blankNote 1 8] = [0, 1] ∧
      (searching [blankNote 0 0, blankNote 0 8, blankNote 1 0]).inProgress 1 (opOf .catalogRead .load 8 none) = true := by
  decide

/-- A Format that clears on a consent, an operation of channel 1 still in progress. -/
def clearingPart : State :=
  let t := running 1 (opOf .erase .discarded 3 none) (inState .formatting)
  t.setFormat (some { phase := .clearing, starter := reqA 84, consent := true, channel := 1, oldChan := some 0 })

theorem test_withdrawn_consent :
    (clearingPart.link .b).up = true ∧ (clearingPart.cat.format.map FormatOp.phase) = some .clearing ∧
      (clearingPart.cat.format.map FormatOp.consent) = some true ∧ clearingPart.channelsQuiet = false := by decide

theorem test_reset_controller : (inState .halted).cat.channel = some 0 ∧ (inState .halted).admits .a 7 = true := by decide

/-- A pending format of channel 0. -/
def pendingFormat : PendingFormat := { number := 1, channel := 0, madeAt := 0 }

theorem test_format :
    (inState .unformatted).admits .a 7 = true ∧ ((inState .unformatted).channel 1).present = true ∧
      svc.cat.pendingFormat = none ∧ (inState .catalogFault).admits .b 7 = true ∧ pendingFormat.madeAt + 60 ≤ 60 ∧
      pendingFormat.channel < 8 ∧ (svc.channel pendingFormat.channel).present = true := by decide

/-- A Format at a phase with an operation of its own in progress on channel 1. -/
def formatting (ph : FormatPhase) (op : Op) (n : Nat) : State :=
  let t := running 1 op (inState .formatting)
  { t with cat := { t.cat with
      sharesOk := n, format := some { phase := ph, starter := reqA 83, consent := false, channel := 1, oldChan := none } } }

theorem test_format_ends :
    (formatting .erasingFirst (opOf .erase .format 14 none) 0).inProgress 1 (opOf .erase .format 14 none) = true ∧
      14 + 1 < (stageSlots .erasingFirst).2 ∧
      (({ phase := .erasingFirst, starter := reqA 83, consent := false, channel := 1, oldChan := none } : FormatOp).fatal
        { channel := 1, slot := 15 }) = true ∧
      (formatting .image (opOf .catalogWrite .catalog 7 none) 7).cat.sharesOk = 7 ∧
      (formatting .image (opOf .catalogWrite .catalog 7 none) 7).isLive (reqA 83) = true ∧
      (stageSlots .erasingRest).2 ≤ 8191 + 1 ∧ (stageSlots .erasingFirst).2 ≤ 15 + 1 ∧
      ((formatting .erasingRest (opOf .erase .format 8191 none) 0).channel 1).queue = [opOf .erase .format 8191 none] ∧
      (∀ d, d < 8 → d ≠ 1 → ((formatting .erasingRest (opOf .erase .format 8191 none) 0).channel d).started = none) ∧
      ((running 0 (opOf .erase .format 3 none) (formatting .erasingRest (opOf .erase .format 8191 none) 0)).channel
        0).started.isSome = true := by decide

/-- The stages of Format: from clearing to the former catalog channel, to the others, to the remaining slots. -/
theorem test_format_stages :
    let f : FormatOp := { phase := .erasingOld, starter := reqA 84, consent := true, channel := 1, oldChan := some 0 }
    let stage := fun (ph : FormatPhase) c (op : Op) (s : State) => (running c op s).setFormat (some { f with phase := ph })
    let s := inState .formatting
    let alone : State := { s with media := { s.media with channels := [(0, { present := true, rest := .clean })] } }
    (∀ c op ph, c < 2 → (stage ph c op s).asksOnly c op) ∧
      after (.operationEndDiscarded 1 true) (stage .clearing 1 (opOf .erase .discarded 3 none) s) (fun t =>
        decide (t.asked 0 = [formatErase 0] ∧ t.asked 1 = [] ∧ t.cat.format = some f)) = true ∧
      after (.formatEraseComplete 0 false) (stage .erasingFirst 0 (opOf .erase .format 9 none) s) (fun t =>
        t.cat.archive = .catalogFault) = true ∧
      after (.formatEraseComplete 0 true) (stage .erasingOld 0 (opOf .erase .format 15 none) s) (fun t =>
        decide (t.asked 0 = [] ∧ t.asked 1 = [formatErase 0] ∧ t.cat.format = some { f with phase := .erasingFirst })) =
          true ∧
      after (.formatEraseComplete 1 true) (stage .erasingFirst 1 (opOf .erase .format 15 none) s) (fun t =>
        decide (t.asked 0 = [formatErase 16] ∧ t.asked 1 = [formatErase 16] ∧
          t.cat.format = some { f with phase := .erasingRest })) = true ∧
      after (.formatEraseComplete 0 true) (stage .erasingOld 0 (opOf .erase .format 15 none) alone) (fun t =>
        decide (t.asked 0 = [formatErase 16] ∧ t.cat.format = some { f with phase := .erasingRest })) = true ∧
      after (.formatEraseComplete 0 true) (running 1 (opOf .erase .format 3 none)
          (stage .erasingRest 0 (opOf .erase .format 8191 none) s)) (fun t =>
        decide (t.asked 0 = [] ∧ t.asked 1 = [opOf .erase .format 3 none])) = true := by
  refine ⟨?_, ?_⟩
  · intro c op ph hc
    refine ⟨?_, fun d hd hn => ?_⟩
    · rcases (by omega : c = 0 ∨ c = 1) with rfl | rfl <;> rfl
    · rcases (by omega : c = 0 ∨ c = 1) with rfl | rfl <;>
        rcases (by omega : d = 0 ∨ d = 1 ∨ d = 2 ∨ d = 3 ∨ d = 4 ∨ d = 5 ∨ d = 6 ∨ d = 7) with
          rfl | rfl | rfl | rfl | rfl | rfl | rfl | rfl <;> first | exact absurd rfl hn | exact ⟨rfl, rfl⟩
  · decide +kernel

/-- `svc` with a HELD General Fault Context. -/
def held : State := { svc with fault := { svc.fault with general := .held 1 { kind := .filePageError } } }

theorem test_faults :
    (svc.contextOf .filePageError).isHeld = false ∧ (held.contextOf .filePageError).isHeld = true ∧
      (inState .halted).cat.archive ≠ .service ∧ held.admits .a 7 = true := by decide

/-- Compaction STOPPED with the head file held. -/
def stoppedHead : State :=
  { held with comp := { held.comp with queue := [file2], headHeld := true, stopped := true } }

/-- Compaction STOPPED with one builder, and a wait list. -/
def stoppedWith (v : Builder) (wait : List Nat) : State :=
  let t := (svc.setBuilder 31 v).setEntry 65535 { state := .filling, source := 1, recordCount := 3 }
  { t with comp := { t.comp with stopped := true }, media := { t.media with slotWait := wait } }

/-- A closing builder on entry 65,535. -/
def closingBuilder : Builder := { phase := .closing, source := 1, entry := 65535, failures := 2 }

theorem test_resume_builders :
    (stoppedWith { closingBuilder with pageHeld := true } []).comp.builders =
        [(31, { closingBuilder with pageHeld := true })] ∧
      (stoppedWith closingBuilder [31]).media.slotWait = [31] ∧
      (stoppedWith closingBuilder []).pickSlot none = some { channel := 0, slot := 0 } ∧
      ((stoppedWith closingBuilder []).entry closingBuilder.entry).state = .filling ∧
      (stoppedWith closingBuilder []).comp.closesOwed = false ∧ (stoppedWith closingBuilder []).comp.queue = [] ∧
      (stoppedWith closingBuilder []).comp.headHeld = false ∧ 1 ≤ (stoppedWith closingBuilder []).freePlaces := by
  decide

/-- Compaction STOPPED as the day advanced past a FILLING builder's, and with an opening held. -/
def owingCloses : State :=
  let t := stoppedWith { closingBuilder with phase := .filling, failures := 0 } []
  { t with comp := { t.comp with closesOwed := true }, ret := { t.ret with today := 1 } }
def heldOpening : State :=
  { svc with comp := { svc.comp with stopped := true, opening := some .held, queue := [file2] } }

theorem test_resume_owed :
    (owingCloses.builder 31).day < owingCloses.ret.today ∧ owingCloses.comp.closesOwed = true ∧
      owingCloses.pickSlot none = some { channel := 0, slot := 0 } ∧ heldOpening.comp.opening = some .held ∧
      heldOpening.freeEntryNumber = some 0 ∧ heldOpening.comp.closesOwed = false ∧ file2.appended < file2.toAppend := by
  decide

/-- The catalog STOPPED: RESUME begins the next checkpoint. -/
theorem test_resume_catalog :
    let s : State := { svc with
      cat := { svc.cat with state := .stopped }
      fault := { svc.fault with media := .taken 3 { kind := .catalogWriteFailed } } }
    s.cat.state = .stopped ∧ s.comp.stopped = false ∧ s.cat.last < 4294967295 ∧
      after (.resume .a 7 3) { s with comp := { queue := [file2] } } (fun t => decide (t.cat.state = .quiescing ∧
        t.cat.last = 1 ∧ t.cat.waiters = [])) = true ∧
      after (.resume .a 7 3) s (fun t => decide (t.cat.state = .writing ∧ t.cat.last = 1 ∧ t.fault.media = .empty)) = true := by
  decide +kernel

/-- The Eraser STOPPED with an entry left ERASING. -/
theorem test_resume_eraser :
    let s := leaving { state := .erasing, cls := some 0, expiryCkpt := some 1 }
    let s : State := { s with ret := { s.ret with eraserStopped := true } }
    s.tablesOk = true ∧ (s.channel 1).mode ≠ .offline ∧ s.eraseOn 1 = none ∧
      (s.entry 65535).slot = some { channel := 1, slot := 8191 } ∧ s.lowestOn 1 65535 (fun v => v.state = .erasing) := by
  refine ⟨by decide, by decide, by decide, by decide, ?_⟩
  exact leaving_lowest { state := .erasing, cls := some 0, expiryCkpt := some 1 } (fun v => v.state = .erasing) rfl

theorem test_responses :
    stoppedHead.comp.stopped = true ∧ stoppedHead.comp.headHeld = true ∧ stoppedHead.comp.queue = [file2] ∧
      stoppedHead.comp.builders = [] ∧ stoppedHead.media.slotWait = [] ∧ 1 ≤ stoppedHead.freePlaces ∧
      ({ svc.ret with eraserStopped := true } : RetentionUnit).eraserStopped = true ∧
      stoppedHead.cat.state ≠ .quiescing := by decide

end Sys2Proof.Tests
end

