-- ==== Sys2Proof/Proofs/Settings.lean ====
section
/-!
PROOFS. Proofs/Settings.lean: a catalog request that passes its checks makes its change and triggers a checkpoint; what each
setting request makes of its setting (O21).
-/

namespace Sys2Proof.Machine
open Sys2Proof

/-! ### Compaction and the Retention Unit

A fault of compaction is none of the Eraser's, so that nothing a trigger does reaches the Retention Unit (R184). -/

theorem waitForSlot_ret (b : Nat) (s : State) : (waitForSlot b s).ret = s.ret := by
  unfold waitForSlot
  split
  · rfl
  · exact raiseFault_ret _ _ (by simp [spaceExhausted])

theorem askSlot_ret (b : Nat) (s : State) : (askSlot b s).ret = s.ret := by
  unfold askSlot
  split
  · simp
  · exact waitForSlot_ret b s

theorem beginClose_ret (b : Nat) (s : State) : (beginClose b s).ret = s.ret := askSlot_ret b _

theorem closeBuilders_ret (p : Builder → Bool) (s : State) : (closeBuilders p s).ret = s.ret := by
  refine foldl_keeps State.ret _ (fun t b => ?_) _ s
  split
  · exact beginClose_ret b t
  · rfl

theorem openOn_ret (b x y : Nat) (s : State) : (openOn b x y s).ret = s.ret := by
  unfold openOn
  split
  · simp
  split
  · rfl
  · exact raiseFault_ret _ _ (by simp [spaceExhausted])

theorem resolveOpening_ret (s : State) : (resolveOpening s).ret = s.ret := by
  unfold resolveOpening
  repeat' split
  all_goals simp [openOn_ret]

theorem drainCloses_ret (s : State) : (drainCloses s).ret = s.ret := by
  unfold drainCloses
  split
  · exact closeBuilders_ret _ s
  · rfl

theorem runCompaction_ret (s : State) : (runCompaction s).ret = s.ret := by
  unfold runCompaction
  split
  · simp [drainCloses_ret, resolveOpening_ret]
  · rfl

theorem beginCheckpoint_ret (ws : List Waiter) (s : State) : (beginCheckpoint ws s).ret = s.ret := by
  simp only [beginCheckpoint]
  split
  · simp
  · exact runCompaction_ret _

theorem trigger_ret (ws : List Waiter) (s : State) : (trigger ws s).ret = s.ret := by
  unfold trigger
  repeat' split
  all_goals simp [beginCheckpoint_ret]

/-- A trigger leaves the Retention Unit. -/
@[simp] theorem triggerFor_ret (r : ReqRef) (a b : List Byte) (s : State) : (triggerFor r a b s).ret = s.ret :=
  trigger_ret _ s

/-! ### Catalog requests (R169) -/

theorem catalogOpen_iff (s : State) :
    s.catalogOpen = true ↔ s.inService = true ∧ s.enginesUp = true ∧ s.numbersSpent = false := by
  simp [State.catalogOpen, and_assoc]

/-- Where the catalog is open, the checks a catalog request begins with pass. -/
theorem firstRefusal_catalogChecks {s : State} (h : s.catalogOpen = true) (cs : List (Bool × Status)) :
    firstRefusal (s.catalogChecks ++ cs) = firstRefusal cs := by
  obtain ⟨hservice, hengines, -⟩ := (catalogOpen_iff s).mp h
  have hhalted : s.notHalted = true := by
    rw [State.inService, decide_eq_true_eq] at hservice
    simp [State.notHalted, hservice]
  simp [State.catalogChecks, State.serviceChecks, firstRefusal, hservice, hengines, hhalted]

/-- And so does the check it ends with. -/
theorem limitCheck_of_catalogOpen {s : State} (h : s.catalogOpen = true) : s.limitCheck.1 = true := by
  simp [State.limitCheck, (catalogOpen_iff s).mp h]

theorem taken_catalogOpen (s : State) (p : Port) (tag kind : Nat) :
    (taken s p tag kind).catalogOpen = s.catalogOpen := by
  simp [State.catalogOpen, State.inService, State.enginesUp, State.numbersSpent]

/-- `t` holds every setting of `v`, and its cursors, Audit Unit and Retention Unit. -/
def State.settles (v t : State) : Prop :=
  t.cat.profile = v.cat.profile ∧ t.cat.params = v.cat.params ∧ t.intake.sources = v.intake.sources ∧
    t.comp.codes = v.comp.codes ∧ t.cursors = v.cursors ∧ t.audit = v.audit ∧ t.ret = v.ret

/-- After a write of one source. -/
theorem State.settles.of_setSource {u t : State} {n : Nat} {v : SourceEntry} (h : (u.setSource n v).settles t) :
    t.source n = v ∧ (∀ m, m ≠ n → t.source m = u.source m) ∧ t.cursors = u.cursors ∧ t.audit = u.audit ∧
      t.ret = u.ret := by
  obtain ⟨-, -, hsources, -, hcursors, haudit, hret⟩ := h
  have hs : ∀ m, t.source m = (u.setSource n v).source m := fun m => by simp only [State.source, hsources]
  exact ⟨by simp [hs], fun m hm => (hs m).trans (u.setSource_source_ne n v hm), hcursors, haudit, hret⟩

/-- After a write of one shared code. -/
theorem State.settles.of_setCode {u t : State} {c : Nat} {v : SharedCode} (h : (u.setCode c v).settles t) :
    t.code c = v ∧ (∀ k, k ≠ c → t.code k = u.code k) ∧ t.cursors = u.cursors ∧ t.audit = u.audit ∧
      t.ret = u.ret := by
  obtain ⟨-, -, -, hcodes, hcursors, haudit, hret⟩ := h
  have hs : ∀ k, t.code k = (u.setCode c v).code k := fun k => by simp only [State.code, hcodes]
  exact ⟨by simp [hs], fun k hk => (hs k).trans (u.setCode_code_ne c v hk), hcursors, haudit, hret⟩

/-- A catalog request of port A whose checks pass makes its change `act`, and neither the checkpoint trigger nor the
transmitter touches a setting. -/
theorem catalogRequest_settles {s : State} {tag kind : Nat} (ha : s.admits .a tag = true)
    {checks : State → List (Bool × Status)} (act : State → State)
    (hc : firstRefusal (checks (taken s .a tag kind)) = none) :
    ∃ t, request .a tag kind .aOnly
        (fun r s => checked r (checks s) (fun s => triggerFor r [] [] (act s)) s) s = .next t ∧
      (act (taken s .a tag kind)).settles t := by
  refine ⟨_, request_admitted ha kind rfl _, ?_⟩
  rw [checked_passed hc]
  simp [State.settles]

/-! ### The setting requests -/

section
variable {tag : Nat} {s : State} (ha : s.admits .a tag = true) (ho : s.catalogOpen = true)
include ha ho

/-- SET-PROFILE (R10). -/
theorem setProfile_settles {v : Nat} {f : Profile} (hf : profileOf v = some f) (hl : s.profileLockClear = true) :
    ∃ t, exec (.setProfile .a tag v) s = .next t ∧ t.cat.profile = f ∧ t.cursors = s.cursors ∧ t.audit = s.audit ∧
      t.intake.sources = s.intake.sources ∧ t.ret = s.ret := by
  have hopen := (taken_catalogOpen s .a tag 8).trans ho
  have hlock : (taken s .a tag 8).profileLockClear = true := by simpa [State.profileLockClear] using hl
  obtain ⟨t, hexec, hprofile, -, hsources, -, hcursors, haudit, hret⟩ := catalogRequest_settles ha (kind := 8)
    (checks := fun s => s.catalogChecks ++
      [((profileOf v).isSome, .badField), (s.profileLockClear, .locked), s.limitCheck])
    (fun s => { s with cat := { s.cat with profile := (profileOf v).getD .none } })
    (by
      rw [firstRefusal_catalogChecks hopen, firstRefusal_none_iff]
      simp [hf, hlock, limitCheck_of_catalogOpen hopen])
  exact ⟨t, hexec, by simp [hprofile, hf], hcursors, haudit, hsources, hret⟩

/-- ENROL-SOURCE (R28). -/
theorem enrolSource_settles {n c b : Nat} (hn : n < 1024) (hc : c < 8) (he : (s.source n).state = .empty) :
    ∃ t, exec (.enrolSource .a tag n c b) s = .next t ∧ t.source n = { state := .active, cls := c, base := b } ∧
      (∀ m, m ≠ n → t.source m = s.source m) ∧ t.cursors = s.cursors ∧ t.audit = s.audit ∧ t.ret = s.ret := by
  have hopen := (taken_catalogOpen s .a tag 16).trans ho
  have hempty : ((taken s .a tag 16).source n).state = .empty := he
  obtain ⟨t, hexec, ht⟩ := catalogRequest_settles ha (kind := 16)
    (checks := fun s => s.sourceChecks n ++
      [(decide (c < 8), .badField), (decide ((s.source n).state ≠ .retired), .wrongState),
       (decide ((s.source n).state = .empty), .inUse), s.limitCheck])
    (fun s => s.setSource n { state := .active, cls := c, base := b })
    (by
      rw [State.sourceChecks, List.append_assoc, firstRefusal_catalogChecks hopen, firstRefusal_none_iff]
      simp [hn, hc, hempty, Config.sources, limitCheck_of_catalogOpen hopen])
  exact ⟨t, hexec, ht.of_setSource⟩

/-- SET-SOURCE-CLASS (R31). -/
theorem setSourceClass_settles {n c : Nat} (hn : n < 1024) (hc : c < 8) (he : (s.source n).state = .active) :
    ∃ t, exec (.setSourceClass .a tag n c) s = .next t ∧ t.source n = { s.source n with cls := c } ∧
      (∀ m, m ≠ n → t.source m = s.source m) ∧ t.cursors = s.cursors ∧ t.audit = s.audit ∧ t.ret = s.ret := by
  have hopen := (taken_catalogOpen s .a tag 18).trans ho
  have hactive : ((taken s .a tag 18).source n).state = .active := he
  obtain ⟨t, hexec, ht⟩ := catalogRequest_settles ha (kind := 18)
    (checks := fun s => s.sourceChecks n ++
      [(decide (c < 8), .badField), (decide ((s.source n).state ≠ .empty), .unknownSource),
       (decide ((s.source n).state ≠ .retired), .wrongState), s.limitCheck])
    (fun s => s.setSource n { s.source n with cls := c })
    (by
      rw [State.sourceChecks, List.append_assoc, firstRefusal_catalogChecks hopen, firstRefusal_none_iff]
      simp [hn, hc, hactive, Config.sources, limitCheck_of_catalogOpen hopen])
  exact ⟨t, hexec, ht.of_setSource⟩

/-- DEFINE-CODE (R75). -/
theorem defineCode_settles {c : Nat} {o : CodeOperand} {v : CodeValue} (hc : c < 16) (hv : operandValue o = some v)
    (hd : (s.code c).state = .empty ∨ (s.code c).state = .defined ∧ (s.code c).count = 0)
    (hu : s.valueUnused c (some v) = true) :
    ∃ t, exec (.defineCode .a tag c o) s = .next t ∧
      t.code c = { state := .defined, value := some v, count := 0 } ∧ (∀ k, k ≠ c → t.code k = s.code k) ∧
      t.cursors = s.cursors ∧ t.audit = s.audit ∧ t.ret = s.ret := by
  have hopen := (taken_catalogOpen s .a tag 32).trans ho
  have hmay : mayDefine ((taken s .a tag 32).code c) = true := by
    have : mayDefine (s.code c) = true := by simpa [mayDefine] using hd
    exact this
  have hunused : (taken s .a tag 32).valueUnused c (some v) = true := hu
  obtain ⟨t, hexec, ht⟩ := catalogRequest_settles ha (kind := 32)
    (checks := fun s => s.catalogChecks ++
      [(decide (c < 16) && (operandValue o).isSome, .badField), (mayDefine (s.code c), .inUse),
       (s.valueUnused c (operandValue o), .inUse), s.limitCheck])
    (fun s => s.setCode c { state := .defined, value := operandValue o, count := 0 })
    (by
      rw [firstRefusal_catalogChecks hopen, firstRefusal_none_iff]
      simp [hc, hv, hmay, hunused, limitCheck_of_catalogOpen hopen])
  exact ⟨t, hexec, hv ▸ ht.of_setCode⟩

/-- RETIRE-CODE (R76). -/
theorem retireCode_settles {c : Nat} (hc : c < 16) (hd : (s.code c).state = .defined) :
    ∃ t, exec (.retireCode .a tag c) s = .next t ∧
      t.code c = (if (s.code c).count = 0 then {} else { s.code c with state := .retired }) ∧
      (∀ k, k ≠ c → t.code k = s.code k) ∧ t.cursors = s.cursors ∧ t.audit = s.audit ∧ t.ret = s.ret := by
  have hopen := (taken_catalogOpen s .a tag 33).trans ho
  have hdefined : ((taken s .a tag 33).code c).state = .defined := hd
  obtain ⟨t, hexec, ht⟩ := catalogRequest_settles ha (kind := 33)
    (checks := fun s => s.catalogChecks ++
      [(decide (c < 16), .badField), (decide ((s.code c).state = .defined), .wrongState), s.limitCheck])
    (fun s => s.setCode c (retireEntry (s.code c)))
    (by
      rw [firstRefusal_catalogChecks hopen, firstRefusal_none_iff]
      simp [hc, hdefined, limitCheck_of_catalogOpen hopen])
  exact ⟨t, hexec, ht.of_setCode⟩

/-- SET-PARAMETER (R175). -/
theorem setParameter_settles {k v : Nat} {q : Params} (hq : setParam s.cat.params k v = some q)
    (hl : k = 1 → ∀ c, c < 8 → v < (s.retClass c).least) :
    ∃ t, exec (.setParameter .a tag k v) s = .next t ∧ t.cat.params = q ∧ t.cat.profile = s.cat.profile ∧
      t.intake.sources = s.intake.sources ∧ t.cursors = s.cursors ∧ t.audit = s.audit ∧ t.ret = s.ret := by
  have hopen := (taken_catalogOpen s .a tag 81).trans ho
  have hallowed : (taken s .a tag 81).lookbackAllowed k v = true := by
    have : s.lookbackAllowed k v = true := by
      by_cases hk : k = 1
      · simpa [State.lookbackAllowed, hk] using hl hk
      · simp [State.lookbackAllowed, hk]
    exact this
  obtain ⟨t, hexec, hprofile, hparams, hsources, -, hcursors, haudit, hret⟩ := catalogRequest_settles ha (kind := 81)
    (checks := fun s => s.catalogChecks ++
      [((setParam s.cat.params k v).isSome, .badField), (s.lookbackAllowed k v, .badField), s.limitCheck])
    (fun s => { s with cat := { s.cat with params := (setParam s.cat.params k v).getD s.cat.params } })
    (by
      rw [firstRefusal_catalogChecks hopen, firstRefusal_none_iff]
      simp [hq, hallowed, limitCheck_of_catalogOpen hopen])
  exact ⟨t, hexec, by rw [hparams]; simp [hq], hprofile, hsources, hcursors, haudit, hret⟩

end

/-- Settles O21: each setting request by its own lemma. -/
theorem settingRequestsTakeEffect : Obligations.SettingRequestsTakeEffect := by
  intro tag s ha ho
  exact ⟨fun v f => setProfile_settles ha ho, fun n c b => enrolSource_settles ha ho,
    fun n c => setSourceClass_settles ha ho, fun c o v => defineCode_settles ha ho,
    fun c => retireCode_settles ha ho, fun k v q => setParameter_settles ha ho⟩

end Sys2Proof.Machine
end

