-- ==== Sys2Proof/Proofs/CarriedRecords.lean ====
section
/-!
PROOFS. Proofs/CarriedRecords.lean: the checks of R7 as one list, whose first failure is the verdict; the fields of a carried
record at their places; a record that fits its profile is read back (O26).
-/

namespace Sys2Proof.Machine
open Sys2Proof

/-! ### Records that fit a profile (R1 to R4) -/

/-- The other party and the trunk group are those a profile names, each in its range (R4). -/
def partyFits (p : Profile) (r : Record) : Prop :=
  if hasParty p then ∃ ds n, r.other = some ds ∧ r.trunk = some n ∧ ds.length ≤ 20 ∧ (∀ d ∈ ds, d ≤ 9) ∧ fits 2 n = true
  else r.other = none ∧ r.trunk = none

/-- The cell is the one a profile names, and the volume stands on DATA alone (R4). -/
def cellFits (p : Profile) (r : Record) : Prop :=
  if hasCell p then ∃ n, r.cell = some n ∧ fits 4 n = true ∧
    (r.kind ≠ .data ∧ r.volume = none ∨ ∃ v, r.kind = .data ∧ r.volume = some v ∧ fits 4 v = true)
  else r.cell = none ∧ r.volume = none

theorem fitsProfile_iff (r : Record) (p : Profile) :
    r.fitsProfile p = true ↔
      (5 ≤ r.subscriber.length ∧ r.subscriber.length ≤ 15 ∧ ∀ d ∈ r.subscriber, d ≤ 9) ∧
        (r.start ≤ 86399 ∧ r.duration ≤ 86400 ∧ fits 4 r.charge = true) ∧ partyFits p r ∧ cellFits p r := by
  rw [← and_assoc, ← and_assoc, Record.fitsProfile, Bool.and_eq_true, Bool.and_eq_true]
  refine and_congr (and_congr ?fields ?party) ?cell
  case fields => simp [isDigit, and_assoc]
  case party =>
    unfold partyFits
    split
    · cases r.other <;> cases r.trunk <;> simp [isDigit, and_assoc]
    · simp
  case cell =>
    unfold cellFits
    split
    · cases r.cell <;> cases r.volume <;> simp
    · simp

/-! ### The verdict of a list of checks (R7) -/

/-- What a list of checks makes of an outcome: the reason of the first that fails, and the outcome where none does. -/
def judgedBy {α : Type} (checks : List (Bool × RejectReason)) (outcome : Except RejectReason α) :
    Except RejectReason α :=
  match checks.find? (fun c => !c.1) with
  | some c => .error c.2
  | none => outcome

/-- The first of the checks, and those behind it where it passes. -/
theorem judgedBy_cons {α : Type} {bad : Prop} [Decidable bad] {ok : Bool} (hbad : bad ↔ ok = false) (e : RejectReason)
    (checks : List (Bool × RejectReason)) {outcome rest : Except RejectReason α}
    (h : ok = true → rest = judgedBy checks outcome) :
    (if bad then .error e else rest) = judgedBy ((ok, e) :: checks) outcome := by
  cases ok
  · rw [if_pos (hbad.mpr rfl)]
    rfl
  · rw [if_neg (fun hb => by simpa using hbad.mp hb), h rfl]
    rfl

/-- The eleven checks of R7, each with its reason. -/
def recordChecks (p : Profile) (bs : List Byte) : List (Bool × RejectReason) :=
  let len := byteAt bs 0
  let digits := byteAt bs 2
  let start := 3 + (digits + 1) / 2
  let party := start + 10
  let named := p = .p2 ∨ p = .p4
  let located := p = .p3 ∨ p = .p4
  let required := 13 + (digits + 1) / 2 + (if named then 3 + byteAt bs party else 0) +
    (if located then (if byteAt bs 1 = 5 then 8 else 4) else 0)
  let digit := fun k => if k % 2 = 0 then byteAt bs (3 + k / 2) / 16 else byteAt bs (3 + k / 2) % 16
  [(decide (16 ≤ len ∧ len ≤ 52), .badLength),
   (decide (1 ≤ byteAt bs 1 ∧ byteAt bs 1 ≤ 6), .unknownKind),
   (decide (5 ≤ digits ∧ digits ≤ 15), .badSubscriber),
   (decide (named → party < len), .badLength),
   (decide (named → byteAt bs party ≤ 20), .badOtherParty),
   (decide (located → byteAt bs 1 = 5 ∨ len ≠ required + 4), .volumeNotData),
   (decide (len = required), .badLength),
   ((List.range digits).all (fun k => decide (digit k ≤ 9)), .badSubscriber),
   (decide (¬named) || (List.range (byteAt bs party)).all (fun k => decide (byteAt bs (party + 1 + k) ≤ 9)),
     .badOtherParty),
   (decide (numAt bs start 3 ≤ 86399), .badStart),
   (decide (numAt bs (start + 3) 3 ≤ 86400), .badDuration)]

theorem hasParty_iff (p : Profile) : hasParty p = true ↔ p = .p2 ∨ p = .p4 := by cases p <;> simp [hasParty]

theorem hasCell_iff (p : Profile) : hasCell p = true ↔ p = .p3 ∨ p = .p4 := by cases p <;> simp [hasCell]

theorem startAt_eq (bs : List Byte) : startAt bs = 3 + (byteAt bs 2 + 1) / 2 := by
  simp only [startAt, subscriberSize]
  omega

theorem partyAt_eq (bs : List Byte) : partyAt bs = 3 + (byteAt bs 2 + 1) / 2 + 10 := by
  rw [partyAt, startAt_eq]

/-- The kinds are numbered 1 to 6, DATA 5 (R2). -/
theorem kindOfNumber_cases (n : Nat) :
    (∃ k, kindOfNumber n = some k ∧ (k = .data ↔ n = 5)) ∧ 1 ≤ n ∧ n ≤ 6 ∨ kindOfNumber n = none ∧ ¬(1 ≤ n ∧ n ≤ 6) := by
  by_cases h : 1 ≤ n ∧ n ≤ 6
  · obtain ⟨h1, h6⟩ := h
    left
    refine ⟨?_, h1, h6⟩
    interval_cases n <;> exact ⟨_, rfl, by decide⟩
  · right
    refine ⟨?_, h⟩
    unfold kindOfNumber
    split
    case h_7 => rfl
    all_goals omega

/-- The length rule (R6). -/
theorem requiredLength_eq (p : Profile) (isData : Bool) (digits other : Nat) :
    requiredLength p isData digits other =
      13 + (digits + 1) / 2 + (if hasParty p then 3 + other else 0) + (if hasCell p then if isData then 8 else 4 else 0) := by
  simp only [requiredLength, subscriberSize]
  split_ifs <;> omega

/-- A digit above 9 among those at some places. -/
theorem any_digit_iff (f : Nat → Nat) (n : Nat) :
    ((List.range n).map f).any (fun d => 9 < d) = true ↔ (List.range n).all (fun k => decide (f k ≤ 9)) = false := by
  simp [List.any_eq_true, List.all_eq_false]

/-- Validation gives the reason of the first check that fails, and otherwise the record read. -/
theorem validate_eq (p : Profile) (bs : List Byte) :
    validate p bs = judgedBy (recordChecks p bs) (.ok (readRecord p ((kindOfNumber (byteAt bs 1)).getD .data) bs)) := by
  simp only [validate, recordChecks, ← hasParty_iff, ← hasCell_iff]
  refine judgedBy_cons (by rw [decide_eq_false_iff_not]; omega) _ _ (fun _ => ?_)
  rcases kindOfNumber_cases (byteAt bs 1) with ⟨⟨kind, hkind, hdata⟩, hnum⟩ | ⟨hkind, hnum⟩
  case inr =>
    simp only [hkind]
    rw [judgedBy, List.find?_cons_of_pos (by simpa only [Bool.not_eq_true', decide_eq_false_iff_not] using hnum)]
  simp only [hkind, requiredLength_eq, startAt_eq, partyAt_eq, subscriberDigits, partyDigits, ne_eq,
    decide_eq_true_eq, hdata]
  rw [judgedBy, List.find?_cons_of_neg (by simpa only [Bool.not_eq_true', decide_eq_false_iff_not, not_not] using hnum), ← judgedBy]
  refine judgedBy_cons (by rw [decide_eq_false_iff_not]; omega) _ _ (fun _ => ?_)
  refine judgedBy_cons (by rw [decide_eq_false_iff_not, Classical.not_imp, Nat.not_lt]) _ _ (fun _ => ?_)
  refine judgedBy_cons (by rw [decide_eq_false_iff_not, Classical.not_imp, Nat.not_le]) _ _ (fun _ => ?_)
  refine judgedBy_cons (by rw [decide_eq_false_iff_not, Classical.not_imp, not_or, not_not]) _ _ (fun _ => ?_)
  refine judgedBy_cons (by rw [decide_eq_false_iff_not]) _ _ (fun _ => ?_)
  refine judgedBy_cons (any_digit_iff _ _) _ _ (fun _ => ?_)
  refine judgedBy_cons (by rw [any_digit_iff]; simp) _ _ (fun _ => ?_)
  refine judgedBy_cons (by rw [decide_eq_false_iff_not, Nat.not_le]) _ _ (fun _ => ?_)
  refine judgedBy_cons (by rw [decide_eq_false_iff_not, Nat.not_le]) _ _ (fun _ => ?_)
  rfl

/-- A record whose bytes pass every check has field values that fit the profile. -/
theorem readRecord_fits {p : Profile} {bs : List Byte} (kind : RecordKind)
    (h : ∀ c ∈ recordChecks p bs, c.1 = true) : (readRecord p kind bs).fitsProfile p = true := by
  simp only [recordChecks, ← hasParty_iff, ← hasCell_iff, ← startAt_eq, List.forall_mem_cons, decide_eq_true_eq] at h
  obtain ⟨-, -, hsub, -, hother, -, -, hsubdigits, hdigits, hstart, hduration, -⟩ := h
  rw [fitsProfile_iff]
  refine ⟨⟨?_, ?_, ?_⟩, ⟨hstart, hduration, fits_numAt _ _ _⟩, ?_, ?_⟩
  · simpa [readRecord, subscriberDigits] using hsub.1
  · simpa [readRecord, subscriberDigits] using hsub.2
  · simpa [readRecord, subscriberDigits, subscriberDigit] using hsubdigits
  · unfold partyFits
    split
    · rename_i hp
      refine ⟨partyDigits bs, _, if_pos hp, if_pos hp, ?_, ?_, fits_numAt _ _ _⟩
      · simpa [partyDigits, partyAt] using hother hp
      · simpa [partyDigits, partyAt, hp] using hdigits
    · rename_i hp
      exact ⟨if_neg hp, if_neg hp⟩
  · unfold cellFits
    split
    · rename_i hp
      refine ⟨_, if_pos hp, fits_numAt _ _ _, ?_⟩
      by_cases hd : kind = .data
      · exact Or.inr ⟨_, hd, if_pos (by simp [hp, hd]), fits_numAt _ _ _⟩
      · exact Or.inl ⟨hd, by simp [readRecord, hd]⟩
    · rename_i hp
      exact ⟨if_neg hp, by simp [readRecord, hp]⟩

/-- A record that passes the eleven checks is accepted. -/
theorem validate_accepts {p : Profile} {bs : List Byte} (h : (recordChecks p bs).find? (fun c => !c.1) = none) :
    ∃ r, validate p bs = .ok r ∧ r.fitsProfile p = true := by
  have hall : ∀ c ∈ recordChecks p bs, c.1 = true := by simpa using h
  have hnum : 1 ≤ byteAt bs 1 ∧ byteAt bs 1 ≤ 6 := by
    simpa only [decide_eq_true_eq] using hall (decide (1 ≤ byteAt bs 1 ∧ byteAt bs 1 ≤ 6), .unknownKind) (by simp [recordChecks])
  rcases kindOfNumber_cases (byteAt bs 1) with ⟨⟨kind, hkind, -⟩, -⟩ | ⟨-, hno⟩
  · exact ⟨readRecord p kind bs, by rw [validate_eq, judgedBy, h, hkind]; rfl, readRecord_fits kind hall⟩
  · exact absurd hnum hno

/-- And one that fails a check is rejected with the reason of the first. -/
theorem validate_rejects {p : Profile} {bs : List Byte} {c : Bool × RejectReason}
    (h : (recordChecks p bs).find? (fun c => !c.1) = some c) : validate p bs = .error c.2 := by
  rw [validate_eq, judgedBy, h]

/-! ### The carried form at its places (R6, R201) -/

theorem byteAt_append (pre bs : List Byte) (i : Nat) : byteAt (pre ++ bs) (pre.length + i) = byteAt bs i := by
  simpa [numAt] using numAt_append pre bs i 1

theorem byteAt_append_left {pre : List Byte} (bs : List Byte) {i : Nat} (h : i < pre.length) :
    byteAt (pre ++ bs) i = byteAt pre i := by
  rw [byteAt, List.getD_append _ _ _ _ h, byteAt]

/-- A number that stands behind some bytes. -/
theorem numAt_behind {pre : List Byte} {i n v : Nat} (hi : pre.length = i) (hv : fits n v = true) (rest : List Byte) :
    numAt (pre ++ (be n v ++ rest)) i n = v := by
  rw [← hi, ← Nat.add_zero pre.length, numAt_append, numAt_be_fits hv]

/-- A byte that stands behind some bytes. -/
theorem byteAt_behind {pre : List Byte} {i v : Nat} (hi : pre.length = i) (hv : v < 256) (rest : List Byte) :
    byteAt (pre ++ (be 1 v ++ rest)) i = v := by
  have h := numAt_behind (n := 1) hi (by simpa [fits] using hv) rest
  simpa [numAt] using h

theorem packDigits_length (ds : List Nat) : (packDigits ds).length = (ds.length + 1) / 2 := by
  induction ds using packDigits.induct with
  | case1 => rfl
  | case2 d => simp [packDigits]
  | case3 d e t ih =>
    simp only [packDigits, List.length_cons, ih]
    omega

/-- Each digit stands in its half of its byte (R201). -/
theorem byteAt_packDigits {ds : List Nat} (hds : ∀ d ∈ ds, d ≤ 9) {k : Nat} (hk : k < ds.length) :
    (if k % 2 = 0 then byteAt (packDigits ds) (k / 2) / 16 else byteAt (packDigits ds) (k / 2) % 16) = ds[k] := by
  induction ds using packDigits.induct generalizing k with
  | case1 => simp at hk
  | case2 d =>
    have hd : d ≤ 9 := hds d (by simp)
    obtain rfl : k = 0 := by simpa using hk
    simp [packDigits]
    omega
  | case3 d e t ih =>
    have hd : d ≤ 9 := hds d (by simp)
    have he : e ≤ 9 := hds e (by simp)
    match k with
    | 0 => simp [packDigits]; omega
    | 1 => simp [packDigits]; omega
    | k + 2 =>
      have hh : (k + 2) / 2 = k / 2 + 1 := by omega
      rw [packDigits, hh, byteAt_cons_succ, Nat.add_mod_right]
      exact ih (fun d hm => hds d (by simp [hm])) (by simpa using hk)

/-- Digits carried one to a byte (R201, R204). -/
theorem byteAt_digits {ds : List Nat} (hds : ∀ d ∈ ds, d ≤ 9) {k : Nat} (hk : k < ds.length) (rest : List Byte) :
    byteAt (ds.flatMap (be 1) ++ rest) k = ds[k] := by
  induction ds generalizing k with
  | nil => simp at hk
  | cons d ds ih =>
    have hd : d ≤ 9 := hds d (by simp)
    rw [List.flatMap_cons, List.append_assoc, be, be, List.cons_append, List.nil_append]
    cases k with
    | zero =>
      rw [byteAt_cons_zero, BitVec.toNat_ofNat, List.getElem_cons_zero]
      omega
    | succ k =>
      rw [byteAt_cons_succ, List.getElem_cons_succ]
      exact ih (fun d hm => hds d (by simp [hm])) (by simpa using hk)

/-- The length byte, the kind and the subscriber of a carried record. -/
def headBytes (r : Record) : List Byte :=
  be 1 ((recordTail r).length + 1) ++ (be 1 (kindNumber r.kind) ++ (be 1 r.subscriber.length ++ packDigits r.subscriber))

/-- What every carried record begins with. -/
def fixedBytes (r : Record) : List Byte :=
  headBytes r ++ (be 3 r.start ++ (be 3 r.duration ++ be 4 r.charge))

/-- The other party and the trunk group, where a record has them. -/
def partyPart (r : Record) : List Byte :=
  (r.other.map digitsBody).getD [] ++ (r.trunk.map (be 2)).getD []

/-- The cell and the volume, where a record has them. -/
def cellPart (r : Record) : List Byte :=
  (r.cell.map (be 4)).getD [] ++ (r.volume.map (be 4)).getD []

theorem recordBytes_eq (r : Record) : recordBytes r = fixedBytes r ++ (partyPart r ++ cellPart r) := by
  have htail : recordTail r = be 1 (kindNumber r.kind) ++ (be 1 r.subscriber.length ++ (packDigits r.subscriber ++
      (be 3 r.start ++ (be 3 r.duration ++ (be 4 r.charge ++ (partyPart r ++ cellPart r)))))) := by
    simp only [recordTail, partyPart, cellPart, List.append_assoc]
    cases r.other <;> cases r.trunk <;> cases r.cell <;> cases r.volume <;> rfl
  rw [recordBytes, fixedBytes, headBytes]
  simp only [List.append_assoc]
  rw [← htail]

theorem headBytes_length (r : Record) : (headBytes r).length = 3 + (r.subscriber.length + 1) / 2 := by
  simp [headBytes, packDigits_length]
  omega

theorem fixedBytes_length (r : Record) : (fixedBytes r).length = 13 + (r.subscriber.length + 1) / 2 := by
  simp [fixedBytes, headBytes_length]
  omega

theorem partyPart_length {p : Profile} {r : Record} (h : partyFits p r) :
    (partyPart r).length = if hasParty p then 3 + (r.other.getD []).length else 0 := by
  unfold partyFits at h
  split at h
  · rename_i hp
    obtain ⟨ds, n, ho, ht, -⟩ := h
    simp [partyPart, ho, ht, hp, digitsBody, listBody, List.length_flatMap]
    omega
  · rename_i hp
    simp [partyPart, h.1, h.2, hp]

theorem partyPart_length_le {p : Profile} {r : Record} (h : partyFits p r) : (partyPart r).length ≤ 23 := by
  rw [partyPart_length h]
  split
  · rename_i hp
    rw [partyFits, if_pos hp] at h
    obtain ⟨ds, n, ho, -, hds, -⟩ := h
    simp [ho]
    omega
  · omega

theorem cellPart_length {p : Profile} {r : Record} (h : cellFits p r) :
    (cellPart r).length = if hasCell p then if r.kind = .data then 8 else 4 else 0 := by
  unfold cellFits at h
  split at h
  · rename_i hp
    obtain ⟨n, hc, -, ⟨hk, hv⟩ | ⟨v, hk, hv, -⟩⟩ := h <;> simp [cellPart, hc, hv, hk, hp]
  · rename_i hp
    simp [cellPart, h.1, h.2, hp]

/-- The record behind its first three bytes. -/
theorem recordBytes_head (r : Record) :
    recordBytes r = be 1 ((recordTail r).length + 1) ++ (be 1 (kindNumber r.kind) ++ (be 1 r.subscriber.length ++
      (packDigits r.subscriber ++ (be 3 r.start ++ (be 3 r.duration ++ (be 4 r.charge ++ (partyPart r ++ cellPart r))))))) := by
  simp only [recordBytes_eq, fixedBytes, headBytes, List.append_assoc]

theorem recordBytes_kind (r : Record) : byteAt (recordBytes r) 1 = kindNumber r.kind := by
  rw [recordBytes_head]
  exact byteAt_behind (be_length ..) (by cases r.kind <;> decide) _

theorem kindOfNumber_kindNumber (k : RecordKind) : kindOfNumber (kindNumber k) = some k := by cases k <;> rfl

theorem kindNumber_eq_five (k : RecordKind) : kindNumber k = 5 ↔ k = .data := by cases k <;> decide

section
variable {p : Profile} {r : Record} (h : r.fitsProfile p = true)
include h

theorem recordBytes_digits : byteAt (recordBytes r) 2 = r.subscriber.length := by
  obtain ⟨⟨-, hn, -⟩, -⟩ := (fitsProfile_iff r p).mp h
  rw [recordBytes_head, ← List.append_assoc]
  exact byteAt_behind (by simp) (by omega) _

/-- The length byte counts every byte of the record (R6). -/
theorem recordBytes_length : byteAt (recordBytes r) 0 =
    13 + (r.subscriber.length + 1) / 2 + (partyPart r).length + (cellPart r).length := by
  obtain ⟨⟨-, hn, -⟩, -, hparty, hcell⟩ := (fitsProfile_iff r p).mp h
  have hlen : (recordTail r).length + 1 =
      13 + (r.subscriber.length + 1) / 2 + (partyPart r).length + (cellPart r).length := by
    have ht : (recordBytes r).length = 1 + (recordTail r).length := by simp [recordBytes]
    rw [recordBytes_eq, List.length_append, List.length_append, fixedBytes_length] at ht
    omega
  have hp := partyPart_length_le hparty
  have hc : (cellPart r).length ≤ 8 := by
    rw [cellPart_length hcell]
    split_ifs <;> omega
  rw [recordBytes_head, hlen]
  exact byteAt_behind (pre := []) rfl (by omega) _

theorem startAt_recordBytes : startAt (recordBytes r) = (headBytes r).length := by
  rw [startAt_eq, recordBytes_digits h, headBytes_length]

theorem partyAt_recordBytes : partyAt (recordBytes r) = (fixedBytes r).length := by
  rw [partyAt_eq, recordBytes_digits h, fixedBytes_length]
  omega

theorem subscriberDigits_recordBytes : subscriberDigits (recordBytes r) = r.subscriber := by
  obtain ⟨⟨-, -, hds⟩, -⟩ := (fitsProfile_iff r p).mp h
  refine List.ext_getElem (by simp [subscriberDigits, recordBytes_digits h]) (fun k hk hk' => ?_)
  have hbyte : byteAt (recordBytes r) (3 + k / 2) = byteAt (packDigits r.subscriber) (k / 2) := by
    rw [recordBytes_head, ← List.append_assoc, ← List.append_assoc]
    refine (byteAt_append _ _ _).trans (byteAt_append_left _ ?_)
    rw [packDigits_length]
    omega
  simp only [subscriberDigits, List.getElem_map, List.getElem_range, subscriberDigit, hbyte]
  exact byteAt_packDigits hds hk'

/-- The start second, the duration and the charge units at their places. -/
theorem recordBytes_times :
    numAt (recordBytes r) (startAt (recordBytes r)) 3 = r.start ∧
      numAt (recordBytes r) (startAt (recordBytes r) + 3) 3 = r.duration ∧
      numAt (recordBytes r) (startAt (recordBytes r) + 6) 4 = r.charge := by
  obtain ⟨-, ⟨hstart, hduration, hcharge⟩, -⟩ := (fitsProfile_iff r p).mp h
  rw [startAt_recordBytes h, recordBytes_eq, fixedBytes]
  simp only [List.append_assoc]
  refine ⟨numAt_behind rfl (by simp [fits]; omega) _, ?_, ?_⟩
  · rw [← List.append_assoc]
    exact numAt_behind (by simp) (by simp [fits]; omega) _
  · rw [← List.append_assoc, ← List.append_assoc]
    exact numAt_behind (by simp) hcharge _

/-- The other party and the trunk group at their places, under a profile that names them. -/
theorem recordBytes_party (hp : hasParty p = true) {ds : List Nat} (hother : r.other = some ds) :
    byteAt (recordBytes r) (partyAt (recordBytes r)) = ds.length ∧ partyDigits (recordBytes r) = ds ∧
      some (numAt (recordBytes r) (partyAt (recordBytes r) + 1 + ds.length) 2) = r.trunk := by
  obtain ⟨-, -, hparty, -⟩ := (fitsProfile_iff r p).mp h
  rw [partyFits, if_pos hp] at hparty
  obtain ⟨ds', n, ho, ht, hlen, hds, hn⟩ := hparty
  obtain rfl : ds' = ds := Option.some.inj (ho.symm.trans hother)
  have hpart : partyPart r = be 1 ds'.length ++ (ds'.flatMap (be 1) ++ be 2 n) := by
    simp [partyPart, ho, ht, digitsBody, listBody]
  have hcount : byteAt (recordBytes r) (partyAt (recordBytes r)) = ds'.length := by
    rw [partyAt_recordBytes h, recordBytes_eq, hpart, List.append_assoc]
    exact byteAt_behind rfl (by omega) _
  have hdigits : recordBytes r =
      (fixedBytes r ++ be 1 ds'.length) ++ (ds'.flatMap (be 1) ++ (be 2 n ++ cellPart r)) := by
    rw [recordBytes_eq, hpart]
    simp only [List.append_assoc]
  refine ⟨hcount, ?_, ?_⟩
  · refine List.ext_getElem (by simp [partyDigits, hcount]) (fun k hk hk' => ?_)
    have hpre : (fixedBytes r ++ be 1 ds'.length).length = (fixedBytes r).length + 1 := by simp
    simp only [partyDigits, List.getElem_map, List.getElem_range]
    rw [partyAt_recordBytes h, hdigits, ← hpre, byteAt_append]
    exact byteAt_digits hds hk' _
  · have hpre : (fixedBytes r ++ be 1 ds'.length ++ ds'.flatMap (be 1)).length =
        partyAt (recordBytes r) + 1 + ds'.length := by
      simp [partyAt_recordBytes h, List.length_flatMap, Nat.add_assoc]
    rw [← hpre, hdigits, ← List.append_assoc, numAt_behind rfl hn, ht]

/-- The cell stands behind the other party and the trunk group, where the profile names these (R6). -/
theorem cellAt_recordBytes : cellAt p (recordBytes r) = (fixedBytes r ++ partyPart r).length := by
  obtain ⟨-, -, hparty, -⟩ := (fitsProfile_iff r p).mp h
  rw [cellAt, List.length_append, partyPart_length hparty, partyAt_recordBytes h]
  split
  · rename_i hp
    rw [partyFits, if_pos hp] at hparty
    obtain ⟨ds, n, ho, -⟩ := hparty
    rw [← partyAt_recordBytes h, (recordBytes_party h hp ho).1, partyAt_recordBytes h, ho, Option.getD_some]
    omega
  · rfl

/-- The cell and the volume at their places, where a record has them. -/
theorem recordBytes_cell (hp : hasCell p = true) :
    some (numAt (recordBytes r) (cellAt p (recordBytes r)) 4) = r.cell ∧
      (r.kind = .data → some (numAt (recordBytes r) (cellAt p (recordBytes r) + 4) 4) = r.volume) := by
  obtain ⟨-, -, -, hcell⟩ := (fitsProfile_iff r p).mp h
  rw [cellFits, if_pos hp] at hcell
  obtain ⟨n, hc, hn, hv⟩ := hcell
  have hpart : recordBytes r = (fixedBytes r ++ partyPart r) ++ (be 4 n ++ (r.volume.map (be 4)).getD []) := by
    rw [recordBytes_eq, List.append_assoc]
    simp [cellPart, hc]
  rw [cellAt_recordBytes h, hpart]
  refine ⟨(congrArg some (numAt_behind rfl hn _)).trans hc.symm, fun hk => ?_⟩
  obtain ⟨hnk, -⟩ | ⟨v, -, hvol, hvfits⟩ := hv
  · exact absurd hk hnk
  · have hpre : (fixedBytes r ++ partyPart r ++ be 4 n).length = (fixedBytes r ++ partyPart r).length + 4 := by
      rw [List.length_append, be_length]
    have hvolume := numAt_behind hpre hvfits []
    rw [List.append_nil, List.append_assoc _ (be 4 n)] at hvolume
    rw [hvol, Option.map_some, Option.getD_some, hvolume]

/-- The record read from the carried form is the record carried. -/
theorem readRecord_recordBytes : readRecord p r.kind (recordBytes r) = r := by
  obtain ⟨-, -, hparty, hcell⟩ := (fitsProfile_iff r p).mp h
  obtain ⟨hstart, hduration, hcharge⟩ := recordBytes_times h
  have hnamed : (if hasParty p then some (partyDigits (recordBytes r)) else none) = r.other ∧
      (if hasParty p then some (numAt (recordBytes r) (partyAt (recordBytes r) + 1 +
        byteAt (recordBytes r) (partyAt (recordBytes r))) 2) else none) = r.trunk := by
    unfold partyFits at hparty
    split
    · rename_i hp
      rw [if_pos hp] at hparty
      obtain ⟨ds, n, ho, -⟩ := hparty
      obtain ⟨hcount, hdigits, htrunk⟩ := recordBytes_party h hp ho
      rw [hcount, hdigits, ho]
      exact ⟨rfl, htrunk⟩
    · rename_i hp
      rw [if_neg hp] at hparty
      exact ⟨hparty.1.symm, hparty.2.symm⟩
  have hlocated : (if hasCell p then some (numAt (recordBytes r) (cellAt p (recordBytes r)) 4) else none) = r.cell ∧
      (if hasCell p && decide (r.kind = .data) then some (numAt (recordBytes r) (cellAt p (recordBytes r) + 4) 4)
        else none) = r.volume := by
    unfold cellFits at hcell
    by_cases hp : hasCell p = true
    · rw [if_pos hp] at hcell
      obtain ⟨n, -, -, hv⟩ := hcell
      obtain ⟨hc, hvol⟩ := recordBytes_cell h hp
      refine ⟨by rw [if_pos hp, hc], ?_⟩
      obtain ⟨hk, hnone⟩ | ⟨v, hk, -⟩ := hv
      · simp [hk, hnone]
      · simp [hp, hk, hvol hk]
    · rw [if_neg hp] at hcell
      simp [hp, hcell.1, hcell.2]
  rw [readRecord, subscriberDigits_recordBytes h, hstart, hduration, hcharge, hnamed.1, hnamed.2, hlocated.1, hlocated.2]

/-- The length byte is what the length rule asks for, with the other party's digits counted where they are carried. -/
theorem recordBytes_required :
    byteAt (recordBytes r) 0 = 13 + (byteAt (recordBytes r) 2 + 1) / 2 +
      (if hasParty p then 3 + byteAt (recordBytes r) (partyAt (recordBytes r)) else 0) +
      (if hasCell p then (if byteAt (recordBytes r) 1 = 5 then 8 else 4) else 0) := by
  obtain ⟨-, -, hparty, hcell⟩ := (fitsProfile_iff r p).mp h
  simp only [recordBytes_length h, recordBytes_digits h, recordBytes_kind, kindNumber_eq_five, partyPart_length hparty,
    cellPart_length hcell]
  unfold partyFits at hparty
  split
  · rename_i hp
    rw [if_pos hp] at hparty
    obtain ⟨ds, n, ho, -⟩ := hparty
    rw [(recordBytes_party h hp ho).1, ho, Option.getD_some]
  · rfl

/-- The carried other party has 20 digits at most, each at most 9. -/
theorem recordBytes_other (hp : hasParty p = true) :
    byteAt (recordBytes r) (partyAt (recordBytes r)) ≤ 20 ∧ ∀ d ∈ partyDigits (recordBytes r), d ≤ 9 := by
  obtain ⟨-, -, hparty, -⟩ := (fitsProfile_iff r p).mp h
  rw [partyFits, if_pos hp] at hparty
  obtain ⟨ds, n, ho, -, hlen, hds, -⟩ := hparty
  obtain ⟨hcount, hdigits, -⟩ := recordBytes_party h hp ho
  rw [hcount, hdigits]
  exact ⟨hlen, hds⟩

/-- The carried form passes each of the eleven checks. -/
theorem recordChecks_recordBytes : ∀ c ∈ recordChecks p (recordBytes r), c.1 = true := by
  obtain ⟨⟨hlow, hhigh, hsub⟩, ⟨hstart, hduration, -⟩, -, -⟩ := (fitsProfile_iff r p).mp h
  obtain ⟨hstartAt, hdurationAt, -⟩ := recordBytes_times h
  have hdigits := recordBytes_digits h
  have hrequired := recordBytes_required h
  have hkind : 1 ≤ byteAt (recordBytes r) 1 ∧ byteAt (recordBytes r) 1 ≤ 6 := by
    rw [recordBytes_kind]
    cases r.kind <;> decide
  have hplace : partyAt (recordBytes r) = 13 + (byteAt (recordBytes r) 2 + 1) / 2 := by
    rw [partyAt_eq]
    omega
  have hcell : (if hasCell p then (if byteAt (recordBytes r) 1 = 5 then 8 else 4) else 0) ≤ 8 := by
    split_ifs <;> omega
  have hother : (if hasParty p then 3 + byteAt (recordBytes r) (partyAt (recordBytes r)) else 0) ≤ 23 := by
    split
    · rename_i hp
      have hle := (recordBytes_other h hp).1
      omega
    · omega
  have hparty : startAt (recordBytes r) + 10 = partyAt (recordBytes r) := rfl
  simp only [recordChecks, ← hasParty_iff, ← hasCell_iff, ← startAt_eq, hparty, List.forall_mem_cons, decide_eq_true_eq]
  refine ⟨by omega, hkind, by omega, fun hp => ?_, fun hp => (recordBytes_other h hp).1, fun _ => Or.inr (by omega),
    hrequired, ?_, ?_, by omega, by omega, by simp⟩
  case refine_1 =>
    rw [if_pos hp] at hrequired
    omega
  case refine_2 =>
    rw [← subscriberDigits_recordBytes h] at hsub
    simpa [subscriberDigits, subscriberDigit] using hsub
  case refine_3 =>
    by_cases hp : hasParty p = true
    · have hle := (recordBytes_other h hp).2
      simpa [partyDigits, hp] using hle
    · simp [hp]

/-- A record that fits the profile is read back from its carried form. -/
theorem validate_recordBytes : validate p (recordBytes r) = .ok r := by
  have hnone : (recordChecks p (recordBytes r)).find? (fun c => !c.1) = none := by
    simpa using recordChecks_recordBytes h
  rw [validate_eq, judgedBy, hnone, recordBytes_kind, kindOfNumber_kindNumber, Option.getD_some, readRecord_recordBytes h]

end

/-- Settles O26, by the verdict of the list of checks and the places of the carried fields. -/
theorem carriedRecordsReadBack : Obligations.CarriedRecordsReadBack :=
  ⟨fun _ _ h => validate_recordBytes h, fun _ _ => ⟨fun _ h => validate_rejects h, validate_accepts⟩⟩

end Sys2Proof.Machine
end

