-- ==== Sys2Proof/Proofs/Coding.lean ====
section
/-!
PROOFS. Proofs/Coding.lean: what the codes of a segment stand for, which a later code never changes, and a coded record read
back (R4, R64, R147).
-/

namespace Sys2Proof.Machine
open Sys2Proof

/-! ### What a code stands for (R64, R147) -/

theorem mem_insertRising {j k : Nat} {l : List Nat} : j ∈ insertRising k l ↔ j = k ∨ j ∈ l := by
  induction l with
  | nil => simp [insertRising]
  | cons i l ih =>
    simp only [insertRising]
    split
    · simp
    split
    · rename_i hk
      simp [hk]
    · simp [ih, or_left_comm]

/-- The value of a code in the segment whose codes these are. -/
def Codes.value (codes : Tbl SharedCode) (c : Codes) (k : Nat) : Option CodeValue := codeValue codes c.used c.dyn k

/-- The codes `d` are those of `c` and others added to them. -/
def Codes.extendedBy (c d : Codes) : Prop := c.used ⊆ d.used ∧ c.dyn <+: d.dyn

theorem Codes.extendedBy_refl (c : Codes) : c.extendedBy c := ⟨List.Subset.refl _, List.prefix_rfl⟩

theorem Codes.extendedBy.trans {c d e : Codes} (h : c.extendedBy d) (h' : d.extendedBy e) : c.extendedBy e :=
  ⟨List.Subset.trans h.1 h'.1, h.2.trans h'.2⟩

/-- A code stands for the same value after others are added. -/
theorem Codes.value_extended {codes : Tbl SharedCode} {c d : Codes} (h : c.extendedBy d) {k : Nat} {v : CodeValue}
    (hv : c.value codes k = some v) : d.value codes k = some v := by
  obtain ⟨hused, hdyn⟩ := h
  unfold Codes.value codeValue at hv ⊢
  split
  · rename_i hk
    rw [if_pos hk] at hv
    split at hv
    · rename_i hc
      rw [if_pos (by simpa using hused (by simpa using hc)), hv]
    · cases hv
  · rename_i hk
    rw [if_neg hk] at hv
    obtain ⟨hlt, hget⟩ := List.getElem?_eq_some_iff.mp hv
    rw [List.prefix_iff_getElem?.mp hdyn _ hlt, hget]

/-- The shared code found for a value is one of the sixteen and holds it. -/
theorem sharedCodeFor_holds {codes : Tbl SharedCode} {v : CodeValue} {k : Nat} (h : sharedCodeFor codes v = some k) :
    k < firstDynamic ∧ (Tbl.get {} codes k).value = some v := by
  have hmem := List.mem_of_find?_eq_some h
  have hfound := List.find?_some h
  simp only [Bool.and_eq_true, decide_eq_true_eq] at hfound
  exact ⟨List.mem_range.mp hmem, hfound.2⟩

/-- A value is written under a code that stands for it, and the codes there were stay. -/
theorem codeFor_spec (codes : Tbl SharedCode) (v : CodeValue) (c : Codes) :
    c.extendedBy (codeFor codes v c).2 ∧
      ∀ k, (codeFor codes v c).1 = some k → (codeFor codes v c).2.value codes k = some v := by
  unfold codeFor
  split
  case h_1 k hk =>
    obtain ⟨hlt, hheld⟩ := sharedCodeFor_holds hk
    refine ⟨⟨fun j hj => mem_insertRising.mpr (Or.inr hj), List.prefix_rfl⟩, fun j hj => ?_⟩
    cases hj
    have hin : (insertRising k c.used).contains k = true := by simp [mem_insertRising]
    simp only [Codes.value, codeValue, if_pos hlt, if_pos hin, hheld]
  case h_2 =>
    split
    case h_1 i hi =>
      refine ⟨c.extendedBy_refl, fun j hj => ?_⟩
      cases hj
      obtain ⟨hlt, hget, -⟩ := List.idxOf?_eq_some_iff.mp hi
      simp [Codes.value, codeValue, hlt, hget]
    case h_2 =>
      split
      · refine ⟨⟨List.Subset.refl _, List.prefix_append ..⟩, fun j hj => ?_⟩
        cases hj
        simp [Codes.value, codeValue]
      · exact ⟨c.extendedBy_refl, fun j hj => by cases hj⟩

/-! ### The coded fields read back -/

/-- The other party reads back from its coded form, whatever codes are added behind it. -/
theorem codeParty_spec (codes : Tbl SharedCode) (other : Option (List Nat)) (c : Codes) :
    c.extendedBy (codeParty codes other c).2 ∧ (codeParty codes other c).1.isSome = other.isSome ∧
      ∀ d, (codeParty codes other c).2.extendedBy d →
        decodeField (decodeParty (d.value codes)) (codeParty codes other c).1 = some other := by
  cases other with
  | none => exact ⟨c.extendedBy_refl, rfl, fun _ _ => rfl⟩
  | some ds =>
    simp only [codeParty]
    split
    · exact ⟨c.extendedBy_refl, rfl, fun _ _ => rfl⟩
    · obtain ⟨hext, hcode⟩ := codeFor_spec codes (.pfx (ds.take pfxDigits)) c
      split
      · rename_i k e he
        rw [he] at hext hcode
        refine ⟨hext, rfl, fun d hd => ?_⟩
        have hv := Codes.value_extended hd (hcode k rfl)
        simp [decodeField, decodeParty, hv]
      · rename_i e he
        rw [he] at hext
        exact ⟨hext, rfl, fun _ _ => rfl⟩

/-- A trunk group or a cell reads back from its coded form, whatever codes are added behind it. -/
theorem codeNum_spec (codes : Tbl SharedCode) {make : Nat → CodeValue}
    {decode : (Nat → Option CodeValue) → CodedNum → Option Nat} (hliteral : ∀ value n, decode value (.literal n) = some n)
    (hmake : ∀ value k n, value k = some (make n) → decode value (.code k) = some n) (number : Option Nat) (c : Codes) :
    c.extendedBy (codeNum codes make number c).2 ∧ (codeNum codes make number c).1.isSome = number.isSome ∧
      ∀ d, (codeNum codes make number c).2.extendedBy d →
        decodeField (decode (d.value codes)) (codeNum codes make number c).1 = some number := by
  cases number with
  | none => exact ⟨c.extendedBy_refl, rfl, fun _ _ => rfl⟩
  | some n =>
    obtain ⟨hext, hcode⟩ := codeFor_spec codes (make n) c
    simp only [codeNum]
    split
    · rename_i k e he
      rw [he] at hext hcode
      refine ⟨hext, rfl, fun d hd => ?_⟩
      rw [decodeField, hmake _ k n (Codes.value_extended hd (hcode k rfl)), Option.map_some]
    · rename_i e he
      rw [he] at hext
      exact ⟨hext, rfl, fun d _ => by rw [decodeField, hliteral, Option.map_some]⟩

theorem decodeTrunk_of_value (value : Nat → Option CodeValue) (k n : Nat) (h : value k = some (.trunk n)) :
    decodeTrunk value (.code k) = some n := by simp [decodeTrunk, h]

theorem decodeCell_of_value (value : Nat → Option CodeValue) (k n : Nat) (h : value k = some (.cell n)) :
    decodeCell value (.code k) = some n := by simp [decodeCell, h]

/-! ### A coded record read back (R4, R147) -/

/-- What is encoded carries the fields of its record, and they read back under the codes it leaves. -/
theorem encodeRecord_spec (codes : Tbl SharedCode) (b : Builder) (r : Record) :
    decodeFields (codeValue codes (encodeRecord codes b r).used (encodeRecord codes b r).dyn)
        (encodeRecord codes b r).record = some r ∧
      (encodeRecord codes b r).record.other.isSome = r.other.isSome ∧
      (encodeRecord codes b r).record.trunk.isSome = r.trunk.isSome ∧
      (encodeRecord codes b r).record.cell.isSome = r.cell.isSome := by
  let party := codeParty codes r.other { used := b.used, dyn := b.dyn }
  let trunk := codeNum codes .trunk r.trunk party.2
  let cell := codeNum codes .cell r.cell trunk.2
  obtain ⟨-, hotherSome, hother⟩ := codeParty_spec codes r.other { used := b.used, dyn := b.dyn }
  obtain ⟨hextTrunk, htrunkSome, htrunk⟩ :=
    codeNum_spec codes (fun _ _ => rfl) decodeTrunk_of_value r.trunk party.2
  obtain ⟨hextCell, hcellSome, hcell⟩ := codeNum_spec codes (fun _ _ => rfl) decodeCell_of_value r.cell trunk.2
  refine ⟨?_, hotherSome, htrunkSome, hcellSome⟩
  have hvalue : codeValue codes (encodeRecord codes b r).used (encodeRecord codes b r).dyn = cell.2.value codes := rfl
  rw [hvalue, decodeFields]
  simp only [encodeRecord, codedRecord]
  rw [hother cell.2 (hextTrunk.trans hextCell), htrunk cell.2 hextCell, hcell cell.2 cell.2.extendedBy_refl]

/-- A record decodes under a profile that names its fields, and under no other. -/
theorem decodeRecord_encodeRecord (codes : Tbl SharedCode) (b : Builder) (r : Record) (p : Profile) :
    decodeRecord p (codeValue codes (encodeRecord codes b r).used (encodeRecord codes b r).dyn)
        (encodeRecord codes b r).record =
      if fieldsNamed p (encodeRecord codes b r).record then some r else none := by
  rw [decodeRecord, (encodeRecord_spec codes b r).1]

/-- A record that fits the profile is encoded with the fields it names. -/
theorem fieldsNamed_encodeRecord (codes : Tbl SharedCode) (b : Builder) {r : Record} {p : Profile}
    (h : r.fitsProfile p = true) : fieldsNamed p (encodeRecord codes b r).record = true := by
  obtain ⟨-, -, hparty, hcell⟩ := (fitsProfile_iff r p).mp h
  obtain ⟨-, hother, htrunk, hcellSome⟩ := encodeRecord_spec codes b r
  have hnamed : r.other.isSome = hasParty p ∧ r.trunk.isSome = hasParty p := by
    unfold partyFits at hparty
    split at hparty
    · rename_i hp
      obtain ⟨ds, n, ho, ht, -⟩ := hparty
      simp [hp, ho, ht]
    · rename_i hp
      simp [hp, hparty]
  have hlocated : r.cell.isSome = hasCell p ∧ r.volume.isSome = (hasCell p && decide (r.kind = .data)) := by
    unfold cellFits at hcell
    split at hcell
    · rename_i hp
      obtain ⟨n, hc, -, ⟨hk, hv⟩ | ⟨v, hk, hv, -⟩⟩ := hcell <;> simp [hp, hc, hk, hv]
    · rename_i hp
      simp [hp, hcell]
  have hvolume : (encodeRecord codes b r).record.volume = r.volume ∧ (encodeRecord codes b r).record.kind = r.kind :=
    ⟨rfl, rfl⟩
  simp [fieldsNamed, hother, htrunk, hcellSome, hvolume, hnamed, hlocated]

end Sys2Proof.Machine
end

