-- ==== Sys2Proof/Proofs/SegmentWrites.lean ====
section
/-!
PROOFS. Proofs/SegmentWrites.lean: a close asks for a slot, an opening for an entry, and what each is given; a write that
completes OK and what goes on after it; with the records of a builder read back, O33.
-/

namespace Sys2Proof.Machine
open Sys2Proof

/-! ### A close asks for a slot (R66, R67, R91) -/

/-- The state in which the close of a builder asks for its slot. -/
def State.askingClose (s : State) (b : Nat) : State :=
  (s.setBuilder b { s.builder b with phase := .closing, failures := 0 }).setEntry (s.builder b).entry (s.closingEntry b)

theorem beginClose_eq (b : Nat) (s : State) : beginClose b s = askSlot b (s.askingClose b) := rfl

theorem askingClose_builder (s : State) (b : Nat) :
    (s.askingClose b).builder b = { s.builder b with phase := .closing, failures := 0 } := by simp [State.askingClose]

theorem askingClose_pickSlot (s : State) (b : Nat) (avoid : Option Nat) :
    (s.askingClose b).pickSlot avoid = s.pickSlot avoid := rfl

theorem askingClose_entry (s : State) (b : Nat) : (s.askingClose b).entry (s.builder b).entry = s.closingEntry b := by
  simp [State.askingClose]

/-- The class the close records makes no slot CLEAN. -/
theorem askingClose_willBecomeClean (s : State) (b : Nat) : (s.askingClose b).willBecomeClean = s.willBecomeClean := by
  have hne : s.closingEntry b ≠ {} := by
    intro h
    have hcls := congrArg DirEntry.cls h
    cases hcls
  exact willBecomeClean_setEntry (s.setBuilder b { s.builder b with phase := .closing, failures := 0 }) _ _ hne rfl rfl

/-- A close that finds a slot is given it. -/
theorem beginClose_slot {b : Nat} {s : State} {k : SlotRef} (h : s.pickSlot none = some k) :
    s.closeBegan (beginClose b s) b k := by
  have hask : beginClose b s = giveSlot b k false (s.askingClose b) := by
    rw [beginClose_eq, askSlot, askingClose_pickSlot, h]
  obtain ⟨hentry, hslot, hwrite, -, hpointer⟩ := giveSlot_spec b k false (s.askingClose b)
  rw [askingClose_builder] at hentry hwrite
  have hwritten : (beginClose b s).entry (s.builder b).entry =
      (s.askingClose b).writingEntry { s.builder b with phase := .closing, failures := 0 } k false := by
    rw [hask, hentry, if_pos rfl]
  refine ⟨by rw [beginClose_builder, if_pos rfl], ?_, by rw [hask, hslot, if_pos rfl], by rw [hask, hpointer],
    hask ▸ hwrite⟩
  rw [hwritten, State.writingEntry, askingClose_entry]
  rfl

/-- A close that finds none waits for one, as builder and entry stand. -/
theorem beginClose_waits {b : Nat} {s : State} (h : s.pickSlot none = none) :
    beginClose b s = waitForSlot b (s.askingClose b) := by
  rw [beginClose_eq, askSlot, askingClose_pickSlot, h]

theorem beginClose_waits_entry {b : Nat} {s : State} (h : s.pickSlot none = none) :
    (beginClose b s).entry (s.builder b).entry = s.closingEntry b := by
  have hdir : (waitForSlot b (s.askingClose b)).media.dir = (s.askingClose b).media.dir := by simp
  rw [beginClose_waits h, State.entry, hdir]
  exact askingClose_entry s b

/-- It joins the wait list while a slot will become CLEAN. -/
theorem beginClose_joins {b : Nat} {s : State} (h : s.pickSlot none = none) (hw : s.willBecomeClean = true) :
    (beginClose b s).media.slotWait = s.media.slotWait ++ [b] ∧ (beginClose b s).fault = s.fault := by
  rw [beginClose_waits h, waitForSlot, askingClose_willBecomeClean, if_pos hw]
  exact ⟨rfl, rfl⟩

/-- And otherwise SPACE-EXHAUSTED names its entry. -/
theorem beginClose_exhausts {b : Nat} {s : State} (h : s.pickSlot none = none) (hw : s.willBecomeClean = false)
    (ha : s.cat.archive = .service) (hg : s.fault.general.isHeld = false) :
    (beginClose b s).media.slotWait = s.media.slotWait ∧ (beginClose b s).comp.stopped = true ∧
      (beginClose b s).fault.general =
        .held s.fault.counter { kind := .spaceExhausted, segment := some (s.builder b).entry } := by
  have hclose : beginClose b s = raiseFault (spaceExhausted (some (s.builder b).entry)) (s.askingClose b) := by
    rw [beginClose_waits h, waitForSlot, askingClose_willBecomeClean, if_neg (by simp [hw]), askingClose_builder]
  obtain ⟨hcomp, hheld, -, -⟩ := raiseFault_spaceExhausted (some (s.builder b).entry) (s.askingClose b) ha
  have hmedia : (beginClose b s).media = (s.askingClose b).media := by simp [hclose]
  rw [hmedia, hclose, hcomp]
  exact ⟨rfl, rfl, hheld hg⟩

/-! ### An opening asks for an entry (R61, R184) -/

/-- An opening without a FREE entry waits while one will become FREE. -/
theorem openOn_waits {s : State} (b n d : Nat) (h : s.freeEntryNumber = none) (hw : s.willBecomeFree = true) :
    openOn b n d s = setOpening (some .entry) s := by
  rw [openOn, h]
  exact if_pos hw

/-- And otherwise is held, by SPACE-EXHAUSTED. -/
theorem openOn_exhausts {s : State} (b n d : Nat) (h : s.freeEntryNumber = none) (hw : s.willBecomeFree = false)
    (ha : s.cat.archive = .service) (hg : s.fault.general.isHeld = false) :
    (openOn b n d s).comp.opening = some .held ∧ (openOn b n d s).comp.stopped = true ∧
      (openOn b n d s).fault.general = .held s.fault.counter { kind := .spaceExhausted } ∧
      (openOn b n d s).media = s.media := by
  have hopen : openOn b n d s = raiseFault (spaceExhausted none) (setOpening (some .held) s) := by
    rw [openOn, h]
    exact if_neg (by simp [hw])
  obtain ⟨hcomp, hheld, -, -⟩ := raiseFault_spaceExhausted none (setOpening (some .held) s) ha
  have hmedia : (openOn b n d s).media = (setOpening (some .held) s).media := by simp [hopen]
  rw [hmedia, hopen, hcomp]
  exact ⟨rfl, rfl, hheld hg, rfl⟩

/-! ### A write that completes OK (R68) -/

/-- Builder `b` is FREE and its entry STORED. -/
def State.stored (s : State) (b : Nat) : State :=
  (s.setEntry (s.builder b).entry { s.entry (s.builder b).entry with state := .stored }).setBuilder b {}

theorem storeSegment_eq (b : Nat) (s : State) : storeSegment b s = runCompaction (s.stored b) := rfl

theorem stored_builder (s : State) (b i : Nat) : (s.stored b).builder i = if i = b then {} else s.builder i := by
  simp [State.stored, State.setBuilder_builder]

theorem stored_entry (s : State) (b e : Nat) :
    (s.stored b).entry e =
      if e = (s.builder b).entry then { s.entry (s.builder b).entry with state := .stored } else s.entry e := by
  simp [State.stored, State.setEntry_entry]

/-- The state in which the end of a builder's write is handled: the frames of the turn gone, the pages in their slot. -/
def State.writeEnds (s : State) (c : Nat) (op : Op) : State := (clearFrames s).setFlash c op.slot op.data

/-- The end of the turn: the channel starts its next operation and the links transmit. -/
def endTurn (c : Nat) (s : State) : State := transmitBoth (startNext c (endOp c s))

@[simp] theorem endTurn_keeps (c : Nat) (s : State) :
    (endTurn c s).comp = s.comp ∧ (endTurn c s).ret = s.ret ∧ (endTurn c s).cat = s.cat ∧
      (∀ e, (endTurn c s).entry e = s.entry e) ∧ (∀ i, (endTurn c s).builder i = s.builder i) ∧
      ∀ d k, (endTurn c s).flashAt d k = s.flashAt d k := by
  simp [endTurn, State.entry, State.builder, State.flashAt]

/-- What stands in the slot makes no difference to the entries and the builders. -/
theorem stored_writeEnds (s : State) (c : Nat) (op : Op) (b : Nat) :
    (∀ e, ((s.writeEnds c op).stored b).entry e = (s.stored b).entry e) ∧
      (∀ i, ((s.writeEnds c op).stored b).builder i = (s.stored b).builder i) ∧
      ((s.writeEnds c op).stored b).second = s.second ∧
      ((s.writeEnds c op).stored b).comp.queue = s.comp.queue ∧ ((s.writeEnds c op).stored b).cat = s.cat :=
  ⟨fun _ => rfl, fun _ => rfl, rfl, rfl, rfl⟩

/-- SEGMENT-WRITE-OK stores the segment and goes on (R68). -/
theorem exec_segmentWriteOk {c b : Nat} {op : Op} {s : State} (h : s.inProgress c op = true) (hk : op.kind = .write)
    (hr : op.requester = .builder b) :
    exec (.segmentWriteOk c) s = .next (endTurn c (runCompaction ((s.writeEnds c op).stored b))) := by
  have hcurrent : ((clearFrames s).channel c).current = some op := of_decide_eq_true h
  have hwrite : isBuilderWrite op = true := by simp [isBuilderWrite, hk, hr]
  have hbuilder : opBuilder op = b := by simp [opBuilder, hr]
  have hleave : leaveInSlot c op true (clearFrames s) = s.writeEnds c op := by simp [leaveInSlot, hk, State.writeEnds]
  have hexec : exec (.segmentWriteOk c) s = execSegmentWriteOk c s := by rfl
  rw [hexec, execSegmentWriteOk, turn_next, onOp, hcurrent]
  simp only [hwrite, if_true, complete, hbuilder, hleave, storeSegment_eq]
  rfl

/-- Where no drain has anything to begin and no opening waits, only finished files leave. -/
theorem stored_stands {c b : Nat} {op : Op} {s : State} (h : (s.stored b).drainStands)
    (ho : s.comp.opening = none ∨ s.comp.opening = some .held) :
    runCompaction ((s.writeEnds c op).stored b) = (s.writeEnds c op).stored b ∨
      runCompaction ((s.writeEnds c op).stored b) = dropFinished ((s.writeEnds c op).stored b) := by
  have hstands : ((s.writeEnds c op).stored b).drainStands := h
  have hopening : ((s.writeEnds c op).stored b).comp.opening = s.comp.opening := rfl
  rw [← hopening] at ho
  exact (runCompaction_stands hstands ho).imp_right And.right

/-- A segment stored where nothing waits on its builder. -/
theorem segmentWriteOk_stores {c b : Nat} {op : Op} {s : State} (h : s.inProgress c op = true) (hk : op.kind = .write)
    (hr : op.requester = .builder b) (hd : (s.stored b).drainStands)
    (ho : s.comp.opening = none ∨ s.comp.opening = some .held) :
    ∃ t, exec (.segmentWriteOk c) s = .next t ∧ (∀ e, t.entry e = (s.stored b).entry e) ∧
      (∀ i, t.builder i = (s.stored b).builder i) ∧ t.flashAt c op.slot = op.data ∧ t.ret = s.ret ∧ t.cat = s.cat := by
  refine ⟨_, exec_segmentWriteOk h hk hr, ?_⟩
  obtain ⟨-, hret, hcat, hentry, hbuilder, hflash⟩ := endTurn_keeps c (runCompaction ((s.writeEnds c op).stored b))
  have hslot : ((s.writeEnds c op).stored b).flashAt c op.slot = op.data := Tbl.get_set_same ..
  simp only [hret, hcat, hentry, hbuilder, hflash]
  rcases stored_stands hd ho with hu | hu
  · rw [hu]
    exact ⟨fun _ => rfl, fun _ => rfl, hslot, rfl, rfl⟩
  · obtain ⟨-, -, -, -, hmedia, hret, -, hcat, -, -, -, -, -, -, -, hbuilders, -⟩ :=
      dropFinished_keeps ((s.writeEnds c op).stored b)
    simp only [hu, State.entry, State.builder, State.flashAt, hmedia, hret, hcat, hbuilders]
    exact ⟨fun _ => rfl, fun _ => rfl, hslot, rfl, rfl⟩

theorem openBuilder_entry (b e x y : Nat) (s : State) (i : Nat) :
    (openBuilder b e x y s).entry i =
      if i = e then { state := .filling, source := x, day := y, payloadBytes := 32 } else s.entry i :=
  State.setEntry_entry ..

theorem openBuilder_builder (b e x y : Nat) (s : State) (i : Nat) :
    (openBuilder b e x y s).builder i =
      if i = b then { phase := .filling, source := x, day := y, entry := e, bytesUsed := 32, lastAppend := s.second }
      else s.builder i :=
  State.setBuilder_builder s b
    { phase := .filling, source := x, day := y, entry := e, bytesUsed := 32, lastAppend := s.second } i

theorem openBuilder_opening (b e x y : Nat) (s : State) : (openBuilder b e x y s).comp.opening = none := rfl

/-- The builder an opening waited for is FREE: it opens for the head file's key, and nothing else goes on. -/
theorem runCompaction_opens {s : State} {f : QueuedFile} {rest : List QueuedFile} {d n : Nat}
    (ha : s.cat.archive = .service) (hs : s.comp.stopped = false) (ho : s.comp.opening = some .builder)
    (hq : s.comp.queue = f :: rest) (hf : f.appended < f.toAppend) (hnone : s.fillingBuilder f.source f.day = none)
    (hd : s.freeBuilder = some d) (hn : s.freeEntryNumber = some n) :
    runCompaction s = openBuilder d n f.source f.day s := by
  have hcompacting : s.compacting = true := by simp [State.compacting, State.inService, ha, hs]
  have hdrop : dropFinished s = s := by
    refine dropFinished_eq (fun g hg => ?_)
    obtain rfl : f = g := by simpa [hq] using hg
    exact hf
  have hresolve : resolveOpening s = openBuilder d n f.source f.day s := by
    simp [resolveOpening, ho, hq, hnone, hd, openOn, hn]
  have hqueue : (openBuilder d n f.source f.day s).comp.queue = f :: rest := hq
  simp only [runCompaction, hcompacting, if_true, hdrop, hresolve, drainCloses, drainComplete, State.drained, hqueue,
    List.isEmpty_cons, Bool.and_false, Bool.false_and, Bool.false_eq_true, if_false]

/-- A segment stored where an opening waits for its builder. -/
theorem segmentWriteOk_opens {c b : Nat} {op : Op} {s : State} {f : QueuedFile} {rest : List QueuedFile} {d n : Nat}
    (h : s.inProgress c op = true) (hk : op.kind = .write) (hr : op.requester = .builder b) (ht : s.tablesOk = true)
    (ha : s.cat.archive = .service) (hs : s.comp.stopped = false) (ho : s.comp.opening = some .builder)
    (hq : s.comp.queue = f :: rest) (hf : f.appended < f.toAppend)
    (hnone : (s.stored b).fillingBuilder f.source f.day = none) (hd : (s.stored b).freeBuilder = some d)
    (hn : (s.stored b).freeEntryNumber = some n) :
    ∃ t, exec (.segmentWriteOk c) s = .next t ∧
      t.entry (s.builder b).entry = (s.stored b).entry (s.builder b).entry ∧ t.comp.opening = none ∧
      t.comp.queue = s.comp.queue ∧
      t.builder d = { phase := .filling, source := f.source, day := f.day, entry := n, bytesUsed := 32,
                      lastAppend := s.second } ∧
      t.entry n = { state := .filling, source := f.source, day := f.day, payloadBytes := 32 } ∧
      (∀ i, i ≠ b → i ≠ d → t.builder i = s.builder i) ∧ t.cat = s.cat := by
  have hopens : runCompaction ((s.writeEnds c op).stored b) =
      openBuilder d n f.source f.day ((s.writeEnds c op).stored b) := runCompaction_opens ha hs ho hq hf hnone hd hn
  have hrising : Tbl.rising s.media.dir = true := by
    simp only [State.tablesOk, Bool.and_eq_true, Tbl.canon_iff] at ht
    obtain ⟨⟨⟨⟨⟨⟨⟨⟨-, hdir⟩, -⟩, -⟩, -⟩, -⟩, -⟩, -⟩, -⟩ := ht
    exact hdir.1
  have hstored : Tbl.rising (s.stored b).media.dir = true :=
    Tbl.rising_set hrising {} (s.builder b).entry { s.entry (s.builder b).entry with state := .stored }
  have hfree : ((s.stored b).entry n).state = .free := freeEntryNumber_free hstored hn
  have hne : (s.builder b).entry ≠ n := by
    rintro rfl
    rw [stored_entry, if_pos rfl] at hfree
    cases hfree
  have hexec := exec_segmentWriteOk h hk hr
  rw [hopens] at hexec
  refine ⟨_, hexec, ?_⟩
  obtain ⟨hcomp, -, hcat, hentry, hbuilder, -⟩ :=
    endTurn_keeps c (openBuilder d n f.source f.day ((s.writeEnds c op).stored b))
  obtain ⟨hsameEntry, hsameBuilder, hsecond, hqueue, hsameCat⟩ := stored_writeEnds s c op b
  simp only [hcomp, hcat, hentry, hbuilder, openBuilder_entry, openBuilder_builder, openBuilder_opening, openBuilder_keeps,
    if_true, if_neg hne, hsameEntry, hsameBuilder, hsecond, hqueue, hsameCat, true_and, and_true]
  intro i hb hi
  rw [if_neg hi, stored_builder, if_neg hb]

/-! ### O33 -/

/-- Settles O33: a close and an opening by what they find, the coding by what a code stands for, and the OK write by what
compaction does once the builder is FREE. -/
theorem writtenSegmentIsStored : Obligations.WrittenSegmentIsStored := by
  refine ⟨fun b s => ⟨fun k hk => beginClose_slot hk, fun hn => ⟨by rw [beginClose_builder, if_pos rfl],
      beginClose_waits_entry hn, beginClose_joins hn, beginClose_exhausts hn⟩⟩,
    fun b n d s hn => ⟨openOn_waits b n d hn, openOn_exhausts b n d hn⟩,
    fun codes b r p => ⟨decodeRecord_encodeRecord codes b r p, fieldsNamed_encodeRecord codes b⟩,
    fun c b op s hp hk hr => ⟨fun hd ho => ?_, fun f rest d n ht ha hs ho hq hf hnone hd hn => ?_⟩⟩
  · obtain ⟨t, hexec, hentry, hbuilder, hflash, hret, hcat⟩ := segmentWriteOk_stores hp hk hr hd ho
    refine ⟨t, hexec, ?_, ?_, fun e he => ?_, fun i hi => ?_, hflash, hret, hcat⟩
    · rw [hentry, stored_entry, if_pos rfl]
    · rw [hbuilder, stored_builder, if_pos rfl]
    · rw [hentry, stored_entry, if_neg he]
    · rw [hbuilder, stored_builder, if_neg hi]
  · obtain ⟨t, hexec, hentry, hrest⟩ := segmentWriteOk_opens hp hk hr ht ha hs ho hq hf hnone hd hn
    exact ⟨t, hexec, by rw [hentry, stored_entry, if_pos rfl], hrest⟩

end Sys2Proof.Machine
end

