-- ==== Sys2Proof/Proofs/ReadRequests.lean ====
section
/-!
PROOFS. Proofs/ReadRequests.lean: a read request is answered from what the part holds beside its links, which the taking of
the request and its answer leave; the twelve read requests (O19).
-/

namespace Sys2Proof.Machine
open Sys2Proof

/-- Taking a request changes nothing beside the links. -/
theorem taken_beside (s : State) (p : Port) (tag kind : Nat) : (taken s p tag kind).beside = s.beside := by simp

/-- A request of either port whose checks and body read nothing of the links is answered by its table of checks and that body,
and nothing beside the links changes. -/
theorem answersReading_of_beside {c : Instr} {s : State} {p : Port} {tag kind : Nat}
    {checks : State → List (Bool × Status)} {body : State → List Byte} {cs : List (Bool × Status)}
    (ha : s.admits p tag = true)
    (hexec : exec c s = request p tag kind .both
      (fun r u => checked r (checks u) (fun v => answer r .ok (body v) v) u) s)
    (hchecks : ∀ u, checks u = checks u.beside) (hbody : ∀ u, body u = body u.beside) (hcs : checks s = cs) :
    answersReading c s p tag kind cs (body s) := by
  have htaken : checks (taken s p tag kind) = cs := by rw [hchecks, taken_beside, ← hchecks, hcs]
  have hanswer : body (taken s p tag kind) = body s := by rw [hbody, taken_beside, ← hbody]
  have hlive := taken_isLive s p tag kind
  refine ⟨_, hexec.trans (request_admitted ha kind rfl _), ?_, ?_⟩
  · cases h : firstRefusal cs with
    | some st => simp [checked_refused (htaken ▸ h)]
    | none => simp [checked_passed (htaken ▸ h)]
  · cases h : firstRefusal cs with
    | some st =>
      rw [checked_refused (htaken ▸ h)]
      exact answer_replied hlive st []
    | none =>
      rw [checked_passed (htaken ▸ h), hanswer]
      exact answer_replied hlive .ok (body s)

/-- The checks of a table that begins by asking for SERVICE. -/
theorem serviceChecks_eq (s : State) : s.serviceChecks =
    [(decide (s.cat.archive ≠ .halted), .halted), (decide (s.cat.archive = .service), .wrongState)] := rfl

/-- The check of a table that begins by asking for SERVICE or HALTED. -/
theorem serviceOrHalted_eq (s : State) :
    s.serviceOrHalted = (decide (s.cat.archive = .service) || decide (s.cat.archive = .halted)) := by
  simp [State.serviceOrHalted, State.inService, State.notHalted]

theorem decide_source (n : Nat) : decide (n < Config.sources) = decide (n ≤ 1023) :=
  decide_eq_decide.mpr Nat.lt_succ_iff

theorem decide_hold (h : Nat) : decide (h < Config.holds) = decide (h ≤ 15) :=
  decide_eq_decide.mpr Nat.lt_succ_iff

/-- Settles O19: the twelve read requests, each by what its checks and its body read. -/
theorem readRequestsAnswerAndChangeNothing : Obligations.ReadRequestsAnswerAndChangeNothing := by
  intro p tag s ha live kept
  refine ⟨fun n => ?readSource, ?readSlots, fun n d => ?readTally, ?readCodes, ?readCompaction, fun e => ?readSegment,
    fun n a b k => ?listSegments, ?readRetention, fun h => ?readHold, fun a n => ?fetchFindings, ?readAudit, ?readCatalog⟩
  case readSource =>
    exact answersReading_of_beside (checks := fun u => u.serviceChecks ++ [(decide (n < Config.sources), .badField)])
      (body := fun u => sourceBody (u.source n)) ha rfl (fun _ => rfl) (fun _ => rfl)
      (by rw [serviceChecks_eq, decide_source])
  case readSlots =>
    exact answersReading_of_beside (checks := State.serviceChecks)
      (body := fun u => (List.range Config.intakeSlots).flatMap (slotDescription u)) ha rfl (fun _ => rfl) (fun _ => rfl) rfl
  case readTally =>
    exact answersReading_of_beside (checks := fun u => u.serviceChecks ++ [(decide (n < Config.sources), .badField)])
      (body := fun u => opt (tallyBody n d) (u.tallyEntry n d)) ha rfl (fun _ => rfl) (fun _ => rfl)
      (by rw [serviceChecks_eq, decide_source])
  case readCodes =>
    exact answersReading_of_beside (checks := State.serviceChecks)
      (body := fun u => (List.range 16).flatMap (fun c => sharedCodeBody (u.code c))) ha rfl (fun _ => rfl) (fun _ => rfl) rfl
  case readCompaction =>
    exact answersReading_of_beside (checks := State.serviceChecks) (body := compactionBody) ha rfl (fun _ => rfl)
      (fun _ => rfl) rfl
  case readSegment =>
    exact answersReading_of_beside (checks := State.serviceChecks) (body := fun u => segmentBody (u.entry e)) ha rfl
      (fun _ => rfl) (fun _ => rfl) rfl
  case listSegments =>
    exact answersReading_of_beside
      (checks := fun u =>
        u.serviceChecks ++ [(decide (n < Config.sources), .badField), (decide (a ≤ b), .badField)])
      (body := fun u => listingBody u (u.listed n a b k)) ha rfl (fun _ => rfl) (fun _ => rfl)
      (by rw [serviceChecks_eq, decide_source])
  case readRetention =>
    exact answersReading_of_beside (checks := fun u => [(u.serviceOrHalted, .wrongState)]) (body := retentionBody) ha rfl
      (fun _ => rfl) (fun _ => rfl) (by rw [serviceOrHalted_eq])
  case readHold =>
    exact answersReading_of_beside
      (checks := fun u => [(u.serviceOrHalted, .wrongState), (decide (h < Config.holds), .badField)])
      (body := fun u => holdBody u h) ha rfl (fun _ => rfl) (fun _ => rfl) (by rw [serviceOrHalted_eq, decide_hold]; rfl)
  case fetchFindings =>
    exact answersReading_of_beside
      (checks := fun u => [(u.serviceOrHalted, .wrongState), (decide (1 ≤ n) && decide (n ≤ 16), .badField)])
      (body := fun u => findingsBody u a n) ha rfl (fun _ => rfl) (fun _ => rfl) (by rw [serviceOrHalted_eq]; rfl)
  case readAudit =>
    exact answersReading_of_beside (checks := fun u => [(u.serviceOrHalted, .wrongState)])
      (body := fun u => be 1 u.auditCode ++ opt jobBody u.audit.job ++ be 5 u.audit.next ++ be 2 u.freePlaces) ha rfl
      (fun _ => rfl) (fun _ => rfl) (by rw [serviceOrHalted_eq])
  case readCatalog =>
    exact answersReading_of_beside (checks := fun u => [(u.serviceOrHalted, .wrongState)]) (body := catalogBody) ha rfl
      (fun _ => rfl) (fun _ => rfl) (by rw [serviceOrHalted_eq])

end Sys2Proof.Machine
end

