-- ==== Sys2Proof/Proofs/GapLists.lean ====
section
/-!
PROOFS. Proofs/GapLists.lean: gap lists as lists of runs apart from each other, whatever the base: what fitting keeps and
displaces, and what is left when a late number is taken (O25, its second and third parts, and the law of one list).
-/

namespace Sys2Proof.Machine
open Sys2Proof

/-! ### Trimming and ordering (R20) -/

/-- Trimming keeps what is left of the records wholly behind once the oldest `excess` of them are displaced. -/
theorem trimGaps_fst (base : Nat) (gs : List GapRecord) (excess : Nat) :
    (trimGaps base excess gs).1 = (gs.filter (whollyBehind base)).drop excess := by
  induction gs generalizing excess with
  | nil => simp [trimGaps]
  | cons g t ih =>
    by_cases hb : whollyBehind base g = true
    · cases excess with
      | zero => simp [trimGaps, hb, ih]
      | succ n => simp [trimGaps, hb, ih]
    · simp [trimGaps, hb, ih]

/-- Of the records wholly behind, the oldest `excess` are displaced. -/
theorem trimGaps_snd_behind (base : Nat) (gs : List GapRecord) (excess : Nat) :
    (trimGaps base excess gs).2.filter (whollyBehind base) = (gs.filter (whollyBehind base)).take excess := by
  induction gs generalizing excess with
  | nil => simp [trimGaps]
  | cons g t ih =>
    by_cases hb : whollyBehind base g = true
    · cases excess with
      | zero => simp [trimGaps, hb, ih]
      | succ n => simp [trimGaps, hb, ih]
    · simp [trimGaps, hb, ih]

/-- Every record that does not lie wholly behind is displaced (log 33). -/
theorem trimGaps_snd_rest (base : Nat) (gs : List GapRecord) (excess : Nat) :
    (trimGaps base excess gs).2.filter (fun g => !whollyBehind base g) = gs.filter (fun g => !whollyBehind base g) := by
  induction gs generalizing excess with
  | nil => simp [trimGaps]
  | cons g t ih =>
    by_cases hb : whollyBehind base g = true
    · cases excess with
      | zero => simp [trimGaps, hb, ih]
      | succ n => simp [trimGaps, hb, ih]
    · simp [trimGaps, hb, ih]

/-- What is displaced leaves in the order of the list. -/
theorem trimGaps_snd_sublist (base : Nat) (gs : List GapRecord) (excess : Nat) :
    (trimGaps base excess gs).2.Sublist gs := by
  induction gs generalizing excess with
  | nil => simp [trimGaps]
  | cons g t ih =>
    simp only [trimGaps]
    split
    · exact (ih _).cons g
    · exact (ih _).cons_cons g

/-- R20 step 3: how a list in order is fitted. -/
theorem fitGaps_spec (base : Nat) (list runs : List GapRecord) :
    let gs := orderByAge base (extendNewest list runs)
    let fit := fitGaps base list runs
    fit.1.length = min 16 (gs.countP (whollyBehind base)) ∧ (∀ g ∈ fit.1, whollyBehind base g = true) ∧
      fit.2.filter (whollyBehind base) ++ fit.1 = gs.filter (whollyBehind base) ∧
      fit.2.filter (fun g => !whollyBehind base g) = gs.filter (fun g => !whollyBehind base g) ∧
      fit.2.Sublist gs := by
  intro gs fit
  have hfst : fit.1 = (gs.filter (whollyBehind base)).drop (excessGaps base gs) := trimGaps_fst base gs _
  have hsnd : fit.2.filter (whollyBehind base) = (gs.filter (whollyBehind base)).take (excessGaps base gs) :=
    trimGaps_snd_behind base gs _
  refine ⟨?_, fun g hg => ?_, ?_, trimGaps_snd_rest base gs _, trimGaps_snd_sublist base gs _⟩
  · rw [hfst, List.length_drop, ← List.countP_eq_length_filter, excessGaps]
    simp only [Config.gaps]
    omega
  · rw [hfst] at hg
    exact (List.mem_filter.mp (List.mem_of_mem_drop hg)).2
  · rw [hsnd, hfst, List.take_append_drop]

theorem insertByAge_perm (base : Nat) (g : GapRecord) (gs : List GapRecord) :
    (insertByAge base g gs).Perm (g :: gs) := by
  induction gs with
  | nil => simp [insertByAge]
  | cons h t ih =>
    simp only [insertByAge]
    split
    · exact .refl _
    · exact (ih.cons h).trans (.swap g h t)

/-- Older records come first. -/
def olderFirst (base : Nat) (gs : List GapRecord) : Prop :=
  gs.Pairwise (fun g h => distance g.first base ≤ distance h.first base)

theorem insertByAge_olderFirst {base : Nat} {gs : List GapRecord} (h : olderFirst base gs) (g : GapRecord) :
    olderFirst base (insertByAge base g gs) := by
  induction gs with
  | nil => simp [insertByAge, olderFirst]
  | cons k t ih =>
    obtain ⟨hk, ht⟩ := List.pairwise_cons.mp h
    simp only [insertByAge]
    split
    · rename_i hlt
      refine List.pairwise_cons.mpr ⟨fun x hx => ?_, h⟩
      rcases List.mem_cons.mp hx with rfl | hx
      · exact Nat.le_of_lt hlt
      · exact Nat.le_trans (Nat.le_of_lt hlt) (hk x hx)
    · rename_i hlt
      refine List.pairwise_cons.mpr ⟨fun x hx => ?_, ih ht⟩
      rcases List.mem_cons.mp ((insertByAge_perm base g t).mem_iff.mp hx) with rfl | hx
      · exact Nat.le_of_not_lt hlt
      · exact hk x hx

theorem orderByAge_foldl (base : Nat) (gs acc : List GapRecord) (h : olderFirst base acc) :
    (gs.foldl (fun acc g => insertByAge base g acc) acc).Perm (acc ++ gs) ∧
      olderFirst base (gs.foldl (fun acc g => insertByAge base g acc) acc) := by
  induction gs generalizing acc with
  | nil => simp [h]
  | cons g t ih =>
    obtain ⟨hperm, holder⟩ := ih (insertByAge base g acc) (insertByAge_olderFirst h g)
    exact ⟨hperm.trans (((insertByAge_perm base g acc).append_right t).trans List.perm_middle.symm), holder⟩

theorem orderByAge_perm (base : Nat) (gs : List GapRecord) : (orderByAge base gs).Perm gs :=
  (orderByAge_foldl base gs [] .nil).1

theorem orderByAge_olderFirst (base : Nat) (gs : List GapRecord) : olderFirst base (orderByAge base gs) :=
  (orderByAge_foldl base gs [] .nil).2

/-! ### Runs apart (R15) -/

/-- A run of at most 32,767 sequence numbers. -/
def isRun (g : GapRecord) : Prop :=
  g.first < 65536 ∧ g.last < 65536 ∧ runLength g.first g.last ≤ 32767

/-- The two runs have no number in common. -/
def apart (g h : GapRecord) : Prop :=
  ∀ m, m < 65536 → gapHolds m g = true → gapHolds m h = false

theorem apart.symm {g h : GapRecord} (hg : apart g h) : apart h g := by
  intro m hm hh
  by_contra hne
  have := hg m hm (by simpa using hne)
  simp [hh] at this

/-- Runs no two of which have a number in common. -/
def runsApart (gs : List GapRecord) : Prop := (∀ g ∈ gs, isRun g) ∧ gs.Pairwise apart

theorem runsApart.sublist {gs hs : List GapRecord} (h : runsApart gs) (hsub : hs.Sublist gs) : runsApart hs :=
  ⟨fun g hg => h.1 g (hsub.subset hg), h.2.sublist hsub⟩

theorem runsApart.perm {gs hs : List GapRecord} (h : runsApart gs) (hp : hs.Perm gs) : runsApart hs :=
  ⟨fun g hg => h.1 g (hp.subset hg), (hp.pairwise_iff (fun hab => hab.symm)).mpr h.2⟩

theorem runsApart_append {gs hs : List GapRecord} :
    runsApart (gs ++ hs) ↔ runsApart gs ∧ runsApart hs ∧ ∀ g ∈ gs, ∀ h ∈ hs, apart g h := by
  simp only [runsApart, List.mem_append, List.pairwise_append, or_imp, forall_and]
  tauto

theorem runsApart_cons {g : GapRecord} {gs : List GapRecord} :
    runsApart (g :: gs) ↔ isRun g ∧ runsApart gs ∧ ∀ h ∈ gs, apart g h := by
  simp only [runsApart, List.mem_cons, List.pairwise_cons, forall_eq_or_imp]
  tauto

theorem gapHolds_iff (n : Nat) (g : GapRecord) :
    gapHolds n g = true ↔ distance n g.first ≤ distance g.last g.first := by simp [gapHolds]

theorem whollyBehind_iff (base : Nat) (g : GapRecord) :
    whollyBehind base g = true ↔
      32768 ≤ distance g.first base ∧ 32768 ≤ distance g.last base ∧ distance g.first base ≤ distance g.last base := by
  simp [whollyBehind, and_assoc]

/-- A number stands in a record wholly behind the base exactly when its distance lies between those of the ends. -/
theorem gapHolds_of_whollyBehind {base m : Nat} {g : GapRecord} (hg : isRun g) (hm : m < 65536)
    (hb : whollyBehind base g = true) :
    gapHolds m g = true ↔ distance g.first base ≤ distance m base ∧ distance m base ≤ distance g.last base := by
  obtain ⟨hfirst, hlast, -⟩ := hg
  rw [whollyBehind_iff] at hb
  rw [gapHolds_iff]
  simp only [distance, seqModulus] at hb ⊢
  omega

/-- Of two runs apart, both wholly behind the base, the older ends before the newer begins. -/
theorem apart.ends_before {base : Nat} {g h : GapRecord} (ha : apart g h) (hg : isRun g) (hh : isRun h)
    (hgb : whollyBehind base g = true) (hle : distance g.first base ≤ distance h.first base) :
    distance g.last base < distance h.first base := by
  have hself : gapHolds h.first h = true := by
    rw [gapHolds_iff]
    simp only [distance, seqModulus]
    omega
  by_contra hge
  have hheld := (gapHolds_of_whollyBehind hg hh.1 hgb).mpr ⟨hle, Nat.le_of_not_lt hge⟩
  rw [ha h.first hh.1 hheld] at hself
  exact Bool.noConfusion hself

/-- And where one ends before the other begins they are apart. -/
theorem apart_of_ends_before {base : Nat} {g h : GapRecord} (hg : isRun g) (hh : isRun h)
    (hgb : whollyBehind base g = true) (hhb : whollyBehind base h = true)
    (hlt : distance g.last base < distance h.first base) : apart g h := by
  intro m hm hheld
  by_contra hne
  have hin := (gapHolds_of_whollyBehind hg hm hgb).mp hheld
  have hin' := (gapHolds_of_whollyBehind hh hm hhb).mp (by simpa using hne)
  omega

/-! ### The law of a gap list -/

theorem gapsOk_iff (e : SourceEntry) :
    e.gapsOk = true ↔ e.base < 65536 ∧ e.gaps.length ≤ 16 ∧
      (∀ g ∈ e.gaps, isRun g ∧ whollyBehind e.base g = true) ∧
      e.gaps.Pairwise (fun g h => distance g.last e.base < distance h.first e.base) := by
  simp only [SourceEntry.gapsOk, isRun, Bool.and_eq_true, decide_eq_true_eq,
    List.all_eq_true, and_assoc]
  constructor
  · rintro ⟨hb, hl, hg, hp⟩
    exact ⟨hb, hl, fun g hm => by have := hg g hm; tauto, hp⟩
  · rintro ⟨hb, hl, hg, hp⟩
    exact ⟨hb, hl, fun g hm => by have := hg g hm; tauto, hp⟩

/-- A list in the law is one of runs apart. -/
theorem runsApart_of_gapsOk {e : SourceEntry} (h : e.gapsOk = true) : runsApart e.gaps := by
  obtain ⟨-, -, hruns, hpair⟩ := (gapsOk_iff e).mp h
  refine ⟨fun g hg => (hruns g hg).1, hpair.imp_of_mem (fun {g k} hg hk hlt => ?_)⟩
  exact apart_of_ends_before (hruns g hg).1 (hruns k hk).1 (hruns g hg).2 (hruns k hk).2 hlt

/-- Runs apart and wholly behind, the older ones first, are in the law. -/
theorem gapsOk_of_runsApart {e : SourceEntry} (hb : e.base < 65536) (hl : e.gaps.length ≤ 16) (hr : runsApart e.gaps)
    (hw : ∀ g ∈ e.gaps, whollyBehind e.base g = true) (ho : olderFirst e.base e.gaps) : e.gapsOk = true := by
  refine (gapsOk_iff e).mpr ⟨hb, hl, fun g hg => ⟨hr.1 g hg, hw g hg⟩, ?_⟩
  exact (hr.2.and ho).imp_of_mem (fun {g k} hg hk h => h.1.ends_before (hr.1 g hg) (hr.1 k hk) (hw g hg) h.2)

/-- A sublist of a list in the law is in the law. -/
theorem gapsOk_of_sublist {e v : SourceEntry} (h : e.gapsOk = true) (hb : v.base = e.base)
    (hs : v.gaps.Sublist e.gaps) : v.gapsOk = true := by
  obtain ⟨hbase, hlen, hruns, hpair⟩ := (gapsOk_iff e).mp h
  rw [gapsOk_iff, hb]
  exact ⟨hbase, hs.length_le.trans hlen, fun g hg => hruns g (hs.subset hg), hpair.sublist hs⟩

/-- A joined record holds numbers of the two alone. -/
theorem gapHolds_joined {g r : GapRecord} {m : Nat} (hg : isRun g) (hr : isRun r) (hm : m < 65536)
    (hjoin : seqAdd g.last 1 = r.first) (h : gapHolds m { g with last := r.last } = true) :
    gapHolds m g = true ∨ gapHolds m r = true := by
  obtain ⟨hgf, hgl, hgr⟩ := hg
  obtain ⟨hrf, hrl, hrr⟩ := hr
  rw [gapHolds_iff] at h ⊢
  rw [gapHolds_iff]
  simp only [runLength, distance, seqAdd, seqModulus] at *
  omega

/-- R20 step 1: extending the newest record keeps the runs apart. -/
theorem runsApart_extendNewest {list runs : List GapRecord} (h : runsApart (list ++ runs)) :
    runsApart (extendNewest list runs) := by
  rcases List.eq_nil_or_concat' list with rfl | ⟨old, newest, rfl⟩
  · simpa [extendNewest] using h
  cases runs with
  | nil => simpa [extendNewest] using h
  | cons r rest =>
    simp only [extendNewest, List.getLast?_append, List.getLast?_singleton, Option.some_or, List.dropLast_concat]
    split
    · rename_i hjoin
      obtain ⟨hlist, hruns, hbetween⟩ := runsApart_append.mp h
      obtain ⟨hold, hnew, holdnew⟩ := runsApart_append.mp hlist
      obtain ⟨hnewest, -, -⟩ := runsApart_cons.mp hnew
      obtain ⟨hr, hrest, hrapart⟩ := runsApart_cons.mp hruns
      have hnewestMem : newest ∈ old ++ [newest] := by simp
      have hmerged : isRun { newest with last := r.last } := ⟨hnewest.1, hr.2.1, hjoin.2⟩
      have hsplit : ∀ k : GapRecord, apart newest k → apart r k →
          apart { newest with last := r.last } k := fun k hn hk m hm hheld =>
        (gapHolds_joined hnewest hr hm hjoin.1 hheld).elim (hn m hm) (hk m hm)
      refine runsApart_append.mpr ⟨hold, runsApart_cons.mpr ⟨hmerged, hrest, fun k hk => ?_⟩, fun g hg k hk => ?_⟩
      · exact hsplit k (hbetween newest hnewestMem k (List.mem_cons_of_mem r hk)) (hrapart k hk)
      · rcases List.mem_cons.mp hk with rfl | hk
        · exact (hsplit g (holdnew g hg newest (by simp)).symm
            (hbetween g (by simp [hg]) r (by simp)).symm).symm
        · exact hbetween g (by simp [hg]) k (List.mem_cons_of_mem r hk)
    · exact h

/-- R20: fitting runs apart to a base leaves a list in the law. -/
theorem gapsOk_fitGaps {base : Nat} {list runs : List GapRecord} (e : SourceEntry) (hb : base < 65536)
    (h : runsApart (list ++ runs)) (hbase : e.base = base) (hgaps : e.gaps = (fitGaps base list runs).1) :
    e.gapsOk = true := by
  subst hbase
  obtain ⟨hlen, hbehind, -, -, -⟩ := fitGaps_spec e.base list runs
  have hsub : (fitGaps e.base list runs).1.Sublist (orderByAge e.base (extendNewest list runs)) := by
    rw [fitGaps, trimGaps_fst]
    exact (List.drop_sublist _ _).trans List.filter_sublist
  refine gapsOk_of_runsApart hb (by rw [hgaps, hlen]; omega) ?_ (by rwa [hgaps]) ?_
  · rw [hgaps]
    exact ((runsApart_extendNewest h).perm (orderByAge_perm _ _)).sublist hsub
  · rw [hgaps]
    exact (orderByAge_olderFirst _ _).sublist hsub

/-! ### A late number (R19) -/

/-- The part below the number taken holds the numbers before it. -/
theorem gapHolds_below {n m : Nat} {g : GapRecord} (hn : n < 65536) (hm : m < 65536) (hg : isRun g)
    (hne : g.first ≠ n) :
    gapHolds m { g with last := seqSub n 1 } = true ↔ distance m g.first < distance n g.first := by
  obtain ⟨hf, -, -⟩ := hg
  rw [gapHolds_iff]
  simp only [distance, seqSub, seqModulus]
  omega

/-- The part above it holds those after it. -/
theorem gapHolds_above {n m : Nat} {g : GapRecord} (hn : n < 65536) (hm : m < 65536) (hg : isRun g)
    (hheld : gapHolds n g = true) (hne : g.last ≠ n) :
    gapHolds m { g with first := seqAdd n 1 } = true ↔
      distance n g.first < distance m g.first ∧ gapHolds m g = true := by
  obtain ⟨hf, hl, hr⟩ := hg
  rw [gapHolds_iff] at hheld ⊢
  rw [gapHolds_iff]
  simp only [runLength, distance, seqAdd, seqModulus] at *
  omega

theorem distance_inj {n m base : Nat} (hn : n < 65536) (hm : m < 65536) : distance n base = distance m base ↔ n = m := by
  simp only [distance, seqModulus]
  omega

/-- The parts left hold every other number of the record, and no more. -/
theorem takeFromGap_holds {n m : Nat} {g : GapRecord} (hn : n < 65536) (hm : m < 65536) (hg : isRun g)
    (hheld : gapHolds n g = true) :
    ((takeFromGap n g).1 ++ (takeFromGap n g).2.toList).any (gapHolds m) = (gapHolds m g && decide (m ≠ n)) := by
  have hbelow := gapHolds_below (m := m) hn hm hg
  have habove := gapHolds_above (m := m) hn hm hg hheld
  have hsame := distance_inj (base := g.first) hm hn
  have hfirst := distance_inj (base := g.first) hg.1 hn
  have hlast := distance_inj (base := g.first) hg.2.1 hn
  have hzero : distance g.first g.first = 0 := by
    obtain ⟨hf, -, -⟩ := hg
    simp only [distance, seqModulus]
    omega
  rw [gapHolds_iff] at hheld
  simp only [gapHolds_iff m g] at habove
  rw [Bool.eq_iff_iff, Bool.and_eq_true, decide_eq_true_eq, gapHolds_iff m g]
  unfold takeFromGap
  split_ifs with hone hf hl
  · simp only [List.append_nil, Option.toList_none, List.any_nil, Bool.false_eq_true, false_iff]
    omega
  · simp only [List.append_nil, Option.toList_none, List.any_cons, List.any_nil, Bool.or_false]
    rw [habove (by omega)]
    omega
  · simp only [List.append_nil, Option.toList_none, List.any_cons, List.any_nil, Bool.or_false]
    rw [hbelow hf]
    omega
  · simp only [List.cons_append, List.nil_append, Option.toList_some, List.any_cons, List.any_nil, Bool.or_false,
      Bool.or_eq_true]
    rw [hbelow hf, habove hl]
    omega

end Sys2Proof.Machine
end

