-- ==== Sys2Proof/Proofs/WindowMoves.lean ====
section
/-!
PROOFS. Proofs/WindowMoves.lean: where a number lies, how a base advances, the runs of unreceived numbers, and the judgement
of a file in each position (O24); every judgement leaves a gap list in its law.
-/

namespace Sys2Proof.Machine
open Sys2Proof

/-! ### Positions (R16) -/

/-- Where a number lies relative to a base. -/
theorem positionOf_spec {n b : Nat} (hn : n < 65536) (hb : b < 65536) :
    match positionOf n b with
    | .inside i => i < 64 ∧ (b + i) % 65536 = n
    | .ahead d => 64 ≤ d ∧ d < 32768 ∧ (b + d) % 65536 = n
    | .behind => ∀ d, d < 32768 → (b + d) % 65536 ≠ n := by
  have hback : (b + distance n b) % 65536 = n := by
    simp only [distance, seqModulus]
    omega
  simp only [positionOf]
  split_ifs with hinside hahead
  · exact ⟨hinside, hback⟩
  · exact ⟨Nat.le_of_not_lt hinside, hahead, hback⟩
  · intro d hd
    simp only [distance, seqModulus] at hahead
    omega

/-! ### Advancing (R17) -/

/-- A base whose mark is clear stands. -/
theorem advanceWindow_clear (fuel : Nat) {w : Window} (h : w.marks.getLsbD 0 = false) : advanceWindow fuel w = w := by
  cases fuel with
  | zero => rfl
  | succ fuel => rw [advanceWindow, h, if_neg Bool.false_ne_true]

/-- With `fuel` at hand the base passes set marks alone, at most `fuel` of them, and stops early only at a clear one. -/
theorem advanceWindow_spec (fuel : Nat) {w : Window} (hb : w.base < 65536) :
    ∃ k, k ≤ fuel ∧ (advanceWindow fuel w).base = (w.base + k) % 65536 ∧ (advanceWindow fuel w).marks = w.marks >>> k ∧
      (∀ i, i < k → w.marks.getLsbD i = true) ∧ (k < fuel → w.marks.getLsbD k = false) := by
  induction fuel generalizing w with
  | zero => exact ⟨0, le_rfl, by simp [advanceWindow, Nat.mod_eq_of_lt hb], by simp [advanceWindow], by simp, by simp⟩
  | succ fuel ih =>
    by_cases hset : w.marks.getLsbD 0 = true
    · obtain ⟨k, hk, hbase, hmarks, hpassed, hstop⟩ := ih (w := { base := seqAdd w.base 1, marks := w.marks >>> 1 })
        (Nat.mod_lt _ (by decide))
      simp only [BitVec.getLsbD_ushiftRight] at hpassed hstop
      refine ⟨k + 1, by omega, ?_, ?_, fun i hi => ?_, fun hlt => ?_⟩
      · rw [advanceWindow, if_pos hset, hbase]
        simp only [seqAdd, seqModulus]
        omega
      · rw [advanceWindow, if_pos hset, hmarks, ← BitVec.shiftRight_add, Nat.add_comm]
      · cases i with
        | zero => exact hset
        | succ i => simpa [Nat.add_comm] using hpassed i (by omega)
      · simpa [Nat.add_comm] using hstop (by omega)
    · have hclear : w.marks.getLsbD 0 = false := by simpa using hset
      exact ⟨0, by omega, by simp [advanceWindow_clear _ hclear, Nat.mod_eq_of_lt hb],
        by simp [advanceWindow_clear _ hclear], by simp, fun _ => hclear⟩

/-- R17: a base that advances passes set marks alone and stops at the first that is clear. -/
theorem advanceWindow_stops {w : Window} (hb : w.base < 65536) :
    ∃ k, k ≤ 64 ∧ (advanceWindow 64 w).base = (w.base + k) % 65536 ∧ (advanceWindow 64 w).marks = w.marks >>> k ∧
      (∀ i, i < k → w.marks.getLsbD i = true) ∧ (advanceWindow 64 w).marks.getLsbD 0 = false := by
  obtain ⟨k, hk, hbase, hmarks, hpassed, hstop⟩ := advanceWindow_spec 64 hb
  refine ⟨k, hk, hbase, hmarks, hpassed, ?_⟩
  rw [hmarks, BitVec.getLsbD_ushiftRight, Nat.add_zero]
  rcases Nat.lt_or_eq_of_le hk with hlt | rfl
  · exact hstop hlt
  · exact BitVec.getLsbD_of_ge _ _ le_rfl

theorem advanceWindow_base_lt (fuel : Nat) {w : Window} (hb : w.base < 65536) : (advanceWindow fuel w).base < 65536 := by
  obtain ⟨k, -, hbase, -⟩ := advanceWindow_spec fuel hb
  omega

/-! ### Runs of unreceived numbers (R18, R32) -/

/-- Some run holds the offset. -/
def heldByRun (runs : List (Nat × Nat)) (i : Nat) : Bool := runs.any (fun r => decide (r.1 ≤ i) && decide (i ≤ r.2))

/-- Runs of offsets below `n`, newest first and apart, that hold exactly the offsets `p` names. -/
structure RunsBelow (n : Nat) (p : Nat → Bool) (runs : List (Nat × Nat)) : Prop where
  bounds : ∀ r ∈ runs, r.1 ≤ r.2 ∧ r.2 < n
  apart  : runs.Pairwise (fun r q => q.2 < r.1)
  holds  : ∀ i, i < n → heldByRun runs i = p i

/-- An offset beyond all runs held is held by none of them. -/
theorem RunsBelow.beyond {n : Nat} {p : Nat → Bool} {runs : List (Nat × Nat)} (h : RunsBelow n p runs) {i : Nat}
    (hi : n ≤ i) : heldByRun runs i = false := by
  simp only [heldByRun, List.any_eq_false, Bool.and_eq_true, decide_eq_true_eq, not_and, not_le]
  intro r hr _
  have := (h.bounds r hr).2
  omega

/-- An offset that `p` leaves out adds nothing. -/
theorem RunsBelow.skip {n : Nat} {p : Nat → Bool} {runs : List (Nat × Nat)} (h : RunsBelow n p runs) (hp : p n = false) :
    RunsBelow (n + 1) p runs where
  bounds r hr := ⟨(h.bounds r hr).1, Nat.lt_succ_of_lt (h.bounds r hr).2⟩
  apart := h.apart
  holds i hi := by
    rcases Nat.lt_or_eq_of_le (Nat.le_of_lt_succ hi) with hlt | rfl
    · exact h.holds i hlt
    · rw [hp, h.beyond le_rfl]

/-- A run of offsets that `p` names, beyond those handled, extends the newest run or begins one of its own. -/
theorem RunsBelow.extend {n m : Nat} {p : Nat → Bool} {a b : Nat} {t : List (Nat × Nat)}
    (h : RunsBelow n p ((a, b) :: t)) (hb : b + 1 = n) (hnm : n < m) (hp : ∀ i, n ≤ i → i < m → p i = true) :
    RunsBelow m p ((a, m - 1) :: t) where
  bounds r hr := by
    have hall := h.bounds
    rcases List.mem_cons.mp hr with rfl | hr
    · have := hall (a, b) (by simp)
      simp only at this ⊢
      omega
    · have := hall r (List.mem_cons_of_mem _ hr)
      omega
  apart := List.pairwise_cons.mpr (List.pairwise_cons.mp h.apart)
  holds i hi := by
    rcases Nat.lt_or_ge i n with hlt | hge
    · rw [← h.holds i hlt, heldByRun, heldByRun, List.any_cons, List.any_cons]
      congr 2
      exact decide_eq_decide.mpr (by constructor <;> intro <;> simp only <;> omega)
    · have := h.bounds (a, b) (by simp)
      rw [hp i hge hi, heldByRun, List.any_cons, Bool.or_eq_true, Bool.and_eq_true, decide_eq_true_eq, decide_eq_true_eq]
      left
      simp only at this ⊢
      omega

theorem RunsBelow.begin {n m : Nat} {p : Nat → Bool} {runs : List (Nat × Nat)} (h : RunsBelow n p runs) (hnm : n < m)
    (hp : ∀ i, n ≤ i → i < m → p i = true) : RunsBelow m p ((n, m - 1) :: runs) where
  bounds r hr := by
    rcases List.mem_cons.mp hr with rfl | hr
    · simp only
      omega
    · have := h.bounds r hr
      omega
  apart := List.pairwise_cons.mpr ⟨fun r hr => (h.bounds r hr).2, h.apart⟩
  holds i hi := by
    rcases Nat.lt_or_ge i n with hlt | hge
    · rw [← h.holds i hlt, heldByRun, heldByRun, List.any_cons]
      have : (decide (n ≤ i) && decide (i ≤ m - 1)) = false := by simp [Nat.not_le.mpr hlt]
      rw [this, Bool.false_or]
    · rw [hp i hge hi, heldByRun, List.any_cons, Bool.or_eq_true, Bool.and_eq_true, decide_eq_true_eq, decide_eq_true_eq]
      left
      simp only
      omega

/-- Adding the next offset. -/
theorem RunsBelow.addOffset {n : Nat} {p : Nat → Bool} {runs : List (Nat × Nat)} (h : RunsBelow n p runs)
    (hp : p n = true) : RunsBelow (n + 1) p (addOffset runs n) := by
  have hnext : ∀ i, n ≤ i → i < n + 1 → p i = true := fun i hge hlt => by
    obtain rfl : i = n := by omega
    exact hp
  cases runs with
  | nil => exact h.begin (Nat.lt_succ_self n) hnext
  | cons r t =>
    obtain ⟨a, b⟩ := r
    simp only [Machine.addOffset]
    split
    · rename_i hb
      exact h.extend hb (Nat.lt_succ_self n) hnext
    · exact h.begin (Nat.lt_succ_self n) hnext

/-- The runs of clear marks among the first `n` offsets. -/
theorem clearRuns_runsBelow (marks : Marks) (n : Nat) : RunsBelow n (fun i => !marks.getLsbD i) (clearRuns marks n) := by
  induction n with
  | zero => exact ⟨by simp [clearRuns], by simp [clearRuns], by simp⟩
  | succ n ih =>
    by_cases h : marks.getLsbD n = true
    · have : clearRuns marks (n + 1) = clearRuns marks n := by simp [clearRuns, List.range_succ, h]
      rw [this]
      exact ih.skip (by simp [h])
    · have : clearRuns marks (n + 1) = Machine.addOffset (clearRuns marks n) n := by
        simp [clearRuns, List.range_succ, h]
      rw [this]
      exact ih.addOffset (by simp [h])

/-- The runs of unreceived numbers, oldest first. -/
theorem unreceivedRuns_runsBelow (marks : Marks) (d : Nat) :
    RunsBelow d (fun i => !marks.getLsbD i) (unreceivedRuns marks d).reverse := by
  have hbeyond : ∀ i, 64 ≤ i → i < d → (!marks.getLsbD i) = true := fun i hi _ => by simp [BitVec.getLsbD_of_ge _ _ hi]
  have hclear := clearRuns_runsBelow marks 64
  unfold unreceivedRuns
  split
  · rw [List.reverse_reverse]
    exact clearRuns_runsBelow marks d
  · rename_i hd
    have hd : 64 < d := Nat.lt_of_not_le hd
    split
    · rename_i a t ht
      rw [List.reverse_reverse]
      exact (ht ▸ hclear).extend rfl hd hbeyond
    · rw [List.reverse_reverse]
      exact hclear.begin hd hbeyond

/-- R18: every number passed whose mark is clear, and no other, comes into a run; beyond the 64 marks every number is
unreceived. -/
theorem unreceivedRuns_spec (marks : Marks) {d i : Nat} (hi : i < d) :
    (∀ r ∈ unreceivedRuns marks d, r.1 ≤ r.2 ∧ r.2 < d) ∧
      (unreceivedRuns marks d).any (fun r => decide (r.1 ≤ i) && decide (i ≤ r.2)) =
        (decide (64 ≤ i) || !marks.getLsbD i) := by
  have h := unreceivedRuns_runsBelow marks d
  refine ⟨fun r hr => h.bounds r (List.mem_reverse.mpr hr), ?_⟩
  have hheld := h.holds i hi
  rw [heldByRun, List.any_reverse] at hheld
  rw [hheld]
  rcases Nat.lt_or_ge i 64 with hlt | hge
  · simp [Nat.not_le.mpr hlt]
  · simp [hge]

/-! ### The judgement of a file (R17 to R20) -/

theorem judgeInside_duplicate {e : SourceEntry} {i : Nat} (h : e.marks.getLsbD i = true) (places : Nat) :
    judgeInside e i places = .refused .duplicate := by rw [judgeInside, if_pos h]

/-- Setting a mark sets it and leaves every other. -/
theorem setMark_getLsbD (m : Marks) {i : Nat} (hi : i < 64) (k : Nat) :
    (setMark m i).getLsbD k = (m.getLsbD k || decide (k = i)) := by
  simp only [setMark, BitVec.getLsbD_or, BitVec.getLsbD_shiftLeft, BitVec.getLsbD_one]
  by_cases hk : k = i
  · subst hk
    simp [hi]
  · have hne : (decide (k < 64) && !decide (k < i) && (decide (0 < 64) && decide (k - i = 0))) = false := by
      simp only [Bool.and_eq_false_iff, Bool.not_eq_false', decide_eq_true_eq, decide_eq_false_iff_not]
      omega
    simp only [hk, decide_false, Bool.or_false]
    rw [hne, Bool.or_false]

/-- While the base is unreceived a file above it has its mark set, and nothing else changes. -/
theorem judgeInside_above {e : SourceEntry} {i : Nat} (hi : i < 64) (h : e.marks.getLsbD i = false) (hpos : 0 < i)
    (hbase : e.marks.getLsbD 0 = false) (places : Nat) :
    judgeInside e i places = .accepted { e with marks := e.marks ||| (1#64 <<< i) } [] posInside := by
  have hclear : (setMark e.marks i).getLsbD 0 = false := by
    rw [setMark_getLsbD e.marks hi, hbase, decide_eq_false (Nat.ne_of_lt hpos), Bool.or_false]
  have hstands : advanceWindow 64 { base := e.base, marks := setMark e.marks i } =
      { base := e.base, marks := setMark e.marks i } := advanceWindow_clear 64 hclear
  simp only [judgeInside, h, Bool.false_eq_true, if_false, hstands, if_true]
  rfl

/-- The base received is passed, with the marks that follow it. -/
theorem advanceWindow_base_received {e : SourceEntry} (hb : e.base < 65536) :
    ∃ k, 1 ≤ k ∧ k ≤ 64 ∧
      (advanceWindow 64 { base := e.base, marks := e.marks ||| 1#64 }).base = (e.base + k) % 65536 := by
  obtain ⟨k, hk, hbase, -, -, hstop⟩ := advanceWindow_spec 64 (w := { base := e.base, marks := e.marks ||| 1#64 }) hb
  refine ⟨k, Nat.pos_of_ne_zero ?_, hk, hbase⟩
  rintro rfl
  simpa [BitVec.getLsbD_or, -BitVec.getLsbD_eq_getElem] using hstop (by decide)

theorem judgeInside_base {e : SourceEntry} (hb : e.base < 65536) (h : e.marks.getLsbD 0 = false) (places : Nat) :
    let w := advanceWindow 64 { base := e.base, marks := e.marks ||| 1#64 }
    let fit := fitGaps w.base e.gaps []
    judgeInside e 0 places =
      if fit.2.length ≤ places then
        .accepted { e with base := w.base, marks := w.marks, gaps := fit.1 } fit.2 posInside
      else .gapsFull := by
  obtain ⟨k, hpos, hk, hbase⟩ := advanceWindow_base_received hb
  have hmoved : (advanceWindow 64 { base := e.base, marks := e.marks ||| 1#64 }).base ≠ e.base := by omega
  have hmark : setMark e.marks 0 = e.marks ||| 1#64 := by rw [setMark, BitVec.shiftLeft_zero]
  simp only [judgeInside, h, Bool.false_eq_true, if_false, hmark, hmoved]
  rfl

/-- R18, log 17. -/
theorem judgeFile_ahead {e : SourceEntry} {n d : Nat} (h : positionOf n e.base = .ahead d) (today places : Nat) :
    judgeFile e n today places = judgeAhead e d today places := by rw [judgeFile, h]

theorem judgeFile_inside {e : SourceEntry} {n i : Nat} (h : positionOf n e.base = .inside i) (today places : Nat) :
    judgeFile e n today places = judgeInside e i places := by rw [judgeFile, h]

theorem judgeFile_behind {e : SourceEntry} {n : Nat} (h : positionOf n e.base = .behind) (today places : Nat) :
    judgeFile e n today places = judgeBehind e n places := by rw [judgeFile, h]

/-- The list with a late number taken from the record `g` that holds it. -/
def takenFrom (n : Nat) (g : GapRecord) (gs : List GapRecord) : List GapRecord :=
  gs.flatMap (fun h => if h = g then (takeFromGap n g).1 else [h])

theorem takenFrom_of_not_mem {n : Nat} {g : GapRecord} {gs : List GapRecord} (h : g ∉ gs) : takenFrom n g gs = gs := by
  induction gs with
  | nil => rfl
  | cons k t ih =>
    obtain ⟨hk, ht⟩ := List.ne_and_not_mem_of_not_mem_cons h
    rw [takenFrom, List.flatMap_cons, if_neg (Ne.symm hk)]
    exact congrArg (k :: ·) (ih ht)

/-- The record is replaced where it stands. -/
theorem takenFrom_split {n : Nat} {g : GapRecord} {pre post : List GapRecord} (hpre : g ∉ pre) (hpost : g ∉ post) :
    takenFrom n g (pre ++ g :: post) = pre ++ ((takeFromGap n g).1 ++ post) := by
  have happend : takenFrom n g (pre ++ g :: post) =
      takenFrom n g pre ++ ((takeFromGap n g).1 ++ takenFrom n g post) := by
    simp [takenFrom, List.flatMap_append, List.flatMap_cons]
  rw [happend, takenFrom_of_not_mem hpre, takenFrom_of_not_mem hpost]

/-- What a late file makes of its source, the record that holds its number found. -/
theorem judgeBehind_found {e : SourceEntry} {n : Nat} {g : GapRecord} (h : e.gaps.find? (gapHolds n) = some g)
    (places : Nat) :
    judgeBehind e n places = match (takeFromGap n g).2 with
      | none => .accepted { e with gaps := takenFrom n g e.gaps } [] posLate
      | some second => settleFit e { base := e.base, marks := e.marks }
          (fitGaps e.base (takenFrom n g e.gaps) [second]) places posLate := by
  rw [judgeBehind, h]
  rfl

theorem seqSub_one (n : Nat) : seqSub n 1 = (n + 65535) % 65536 := by
  simp only [seqSub, seqModulus]
  omega

/-- R19: the record goes, is shrunk at that end, or is split. -/
theorem judgeBehind_late {e : SourceEntry} {n : Nat} {pre post : List GapRecord} {g : GapRecord}
    (hsplit : e.gaps = pre ++ g :: post) (hheld : gapHolds n g = true) (hpre : ∀ h ∈ pre, gapHolds n h = false)
    (hpost : g ∉ post) (places : Nat) :
    let late := fun (gs : List GapRecord) => Verdict.accepted { e with gaps := gs } [] posLate
    let low : GapRecord := { g with last := (n + 65535) % 65536 }
    let high : GapRecord := { g with first := (n + 1) % 65536 }
    let fit := fitGaps e.base (pre ++ low :: post) [high]
    judgeBehind e n places =
      if g.first = n ∧ g.last = n then late (pre ++ post)
      else if g.first = n then late (pre ++ high :: post)
      else if g.last = n then late (pre ++ low :: post)
      else if fit.2.length ≤ places then .accepted { e with gaps := fit.1 } fit.2 posLate
      else .gapsFull := by
  have hfind : e.gaps.find? (gapHolds n) = some g := by
    rw [hsplit, List.find?_append, List.find?_eq_none.mpr (fun h hh => by simp [hpre h hh]), Option.none_or,
      List.find?_cons_of_pos hheld]
  have hgpre : g ∉ pre := fun hg => by simp [hpre g hg] at hheld
  rw [judgeBehind_found hfind, hsplit, takenFrom_split hgpre hpost]
  simp only [takeFromGap, seqSub_one]
  split_ifs with hone hfirst hlast hfit
  · rfl
  · rfl
  · rfl
  · exact if_pos hfit
  · exact if_neg hfit

/-- Settles O24: position, advance, and each judgement by its own lemma. -/
theorem windowsJudgeAndAdvance : Obligations.WindowsJudgeAndAdvance := by
  refine ⟨fun n b hn hb => ?_, fun w => advanceWindow_stops, fun e i places hi => ⟨fun h => ?_, fun h hpos hbase => ?_⟩,
    fun e places hb h => ⟨?_, judgeInside_base hb h places⟩, fun marks d i => unreceivedRuns_spec marks,
    fun e n d today places h => judgeFile_ahead h today places,
    fun e n i today places h => judgeFile_inside h today places, fun e n today places h => ⟨fun hnone => ?_, ?_⟩⟩
  · have hspec := positionOf_spec hn hb
    cases hp : positionOf n b with
    | inside i => simpa only [hp] using hspec
    | ahead d => simpa only [hp] using hspec
    | behind => simpa only [hp] using hspec
  · exact judgeInside_duplicate h places
  · exact judgeInside_above hi h hpos hbase places
  · exact advanceWindow_base_received hb
  · have hfind : e.gaps.find? (gapHolds n) = none := List.find?_eq_none.mpr (fun g hg => by simp [hnone g hg])
    rw [judgeFile_behind h, judgeBehind, hfind]
  · intro pre g post hsplit hheld hpre hpost
    rw [judgeFile_behind h]
    exact judgeBehind_late hsplit hheld hpre hpost places

end Sys2Proof.Machine
end

