-- ==== Sys2Proof/Proofs/SourceRequests.lean ====
section
/-!
PROOFS. Proofs/SourceRequests.lean: what findings written one after the other leave in the log, and the two requests by
which a source's gap records are exported: RETIRE-SOURCE (O22) and RESEQUENCE-SOURCE (O23).
-/

namespace Sys2Proof.Machine
open Sys2Proof

/-! ### Writing findings (R24, R138, R140) -/

/-- How many more findings the log takes: its free places, and the finding numbers left. -/
def State.room (s : State) : Nat := min s.freePlaces (4294967296 - s.audit.next)

/-- From `s` to `t` these findings have been written, in order, as many as there is room for. -/
def State.wrote (s t : State) (bs : List FindingBody) : Prop :=
  t.audit.findings.map Finding.body = s.audit.findings.map Finding.body ++ bs.take s.room ∧
    t.audit.next = s.audit.next + min bs.length s.room ∧ t.room = s.room - bs.length

theorem freePlaces_eq (s : State) :
    s.freePlaces = if 4294967296 ≤ s.audit.next then 0 else 512 - s.audit.findings.length := rfl

theorem room_congr {s t : State} (h : t.audit = s.audit) : t.room = s.room := by
  simp only [State.room, State.freePlaces, h]

/-- The log as it was: nothing has been written. -/
theorem wrote_nil {s t : State} (h : t.audit = s.audit) : s.wrote t [] := by
  simp [State.wrote, h, room_congr h]

theorem State.wrote.trans {s t u : State} {bs cs : List FindingBody} (h : s.wrote t bs) (h' : t.wrote u cs) :
    s.wrote u (bs ++ cs) := by
  obtain ⟨hbody, hnext, hroom⟩ := h
  obtain ⟨hbody', hnext', hroom'⟩ := h'
  refine ⟨?_, ?_, ?_⟩
  · rw [hbody', hbody, hroom, List.take_append, List.append_assoc]
  · rw [hnext', hnext, hroom, List.length_append]
    omega
  · rw [hroom', hroom, List.length_append]
    omega

/-- Only the log counts. -/
theorem State.wrote.congr {s t u : State} {bs : List FindingBody} (h : s.wrote t bs) (hu : u.audit = t.audit) :
    s.wrote u bs := by simpa using h.trans (wrote_nil hu)

theorem State.wrote.congr_left {s t u : State} {bs : List FindingBody} (h : s.wrote t bs) (hu : s.audit = u.audit) :
    u.wrote t bs := by simpa using (wrote_nil hu).trans h

/-- With room for all of them, all are written. -/
theorem State.wrote.all {s t : State} {bs : List FindingBody} (h : s.wrote t bs) (hr : bs.length ≤ s.room) :
    t.audit.findings.map Finding.body = s.audit.findings.map Finding.body ++ bs ∧
      t.audit.next = s.audit.next + bs.length := by
  obtain ⟨hbody, hnext, -⟩ := h
  rw [hbody, hnext, List.take_of_length_le hr, Nat.min_eq_left hr]
  exact ⟨rfl, rfl⟩

/-- There is no room exactly when no place is free. -/
theorem room_eq_zero_iff (s : State) : s.room = 0 ↔ s.freePlaces = 0 := by
  rw [State.room, freePlaces_eq]
  split <;> omega

theorem writeFinding_wrote (b : FindingBody) (s : State) : s.wrote (writeFinding b s) [b] := by
  by_cases hfull : s.freePlaces = 0
  · have hroom := (room_eq_zero_iff s).mpr hfull
    simp [State.wrote, writeFinding, hfull, hroom]
  · have hpos : 0 < s.room := Nat.pos_of_ne_zero (fun h => hfull ((room_eq_zero_iff s).mp h))
    have haudit : (writeFinding b s).audit = { s.audit with
        findings := s.audit.findings ++ [{ number := s.audit.next, recorded := s.today, body := b }],
        next := s.audit.next + 1 } := by
      simp [writeFinding, hfull]
    refine ⟨?_, ?_, ?_⟩
    · rw [haudit, List.take_of_length_le (show [b].length ≤ s.room from hpos)]
      simp
    · rw [haudit]
      simp only [List.length_singleton]
      omega
    · simp only [State.room, freePlaces_eq, haudit, List.length_append, List.length_singleton] at hpos ⊢
      split_ifs at hpos ⊢ <;> omega

/-- R24: gap records exported are GAP-FINAL findings, in list order. -/
theorem exportGaps_wrote (n : Nat) (reason : GapReason) (gs : List GapRecord) (s : State) :
    s.wrote (exportGaps n reason gs s) (gs.map (gapFinal n reason)) := by
  induction gs generalizing s with
  | nil => exact wrote_nil rfl
  | cons g t ih => exact (writeFinding_wrote (gapFinal n reason g) s).trans (ih _)

/-! ### The release test (R30) -/

theorem releaseTest_source (n : Nat) (s : State) (m : Nat) :
    (releaseTest n s).source m =
      if m = n ∧ (s.source n).state = .retired ∧ s.released n = true then {} else s.source m := by
  simp only [releaseTest, Bool.and_eq_true, decide_eq_true_eq]
  by_cases hm : m = n
  · subst hm
    split_ifs <;> simp_all
  · simp only [hm, false_and, if_false]
    split_ifs
    · exact s.setSource_source_ne n {} hm
    · rfl

/-! ### RETIRE-SOURCE (R29) -/

/-- A source retired: RETIRED without its records, or EMPTY when nothing of it is left. -/
theorem retire_source (n : Nat) (s : State) (m : Nat) :
    (retire n s).source m =
      if m = n then (if s.released n then {} else { s.source n with state := .retired, gaps := [], overflow := false })
      else s.source m := by
  have hreleased : ((exportGaps n .retired (s.source n).gaps s).setSource n
      { s.source n with state := .retired, gaps := [], overflow := false }).released n = s.released n := by
    simp [State.released]
  have hothers : (exportGaps n .retired (s.source n).gaps s).source m = s.source m := by simp [State.source]
  rw [retire, releaseTest_source, hreleased]
  by_cases hm : m = n
  · subst hm
    simp
  · simp only [hm, false_and, if_false, State.setSource_source_ne _ _ _ hm, hothers]

theorem retire_wrote (n : Nat) (s : State) : s.wrote (retire n s) ((s.source n).gaps.map (gapFinal n .retired)) :=
  (exportGaps_wrote n .retired (s.source n).gaps s).congr (by simp [retire])

/-- What a source request of port A that passes its checks leaves of the sources and the log. -/
theorem sourceRequest_settles {s : State} {tag kind n : Nat} (ha : s.admits .a tag = true) (ho : s.catalogOpen = true)
    (hn : n < 1024) {checks : State → List (Bool × Status)} (act : State → State)
    (hc : firstRefusal (checks (taken s .a tag kind)) = none) :
    ∃ t, request .a tag kind .aOnly
        (fun r s => checked r (s.sourceChecks n ++ (checks s ++ [s.limitCheck]))
          (fun s => triggerFor r [] [] (act s)) s) s = .next t ∧
      (∀ m, t.source m = (act (taken s .a tag kind)).source m) ∧ t.audit = (act (taken s .a tag kind)).audit := by
  have hopen := (taken_catalogOpen s .a tag kind).trans ho
  obtain ⟨t, hexec, -, -, hsources, -, -, haudit, -⟩ := catalogRequest_settles ha (kind := kind)
    (checks := fun s => s.sourceChecks n ++ (checks s ++ [s.limitCheck])) act (by
      rw [State.sourceChecks, List.append_assoc, firstRefusal_catalogChecks hopen]
      rw [firstRefusal_none_iff] at hc ⊢
      intro c hmem
      simp only [List.cons_append, List.nil_append, List.mem_cons, List.mem_append, List.not_mem_nil, or_false] at hmem
      rcases hmem with rfl | hmem | rfl
      · exact decide_eq_true hn
      · exact hc c hmem
      · exact limitCheck_of_catalogOpen hopen)
  exact ⟨t, hexec, fun m => by simp only [State.source, hsources], haudit⟩

/-- Settles O22: the checks of R29 pass, and what retiring does stands at the end of the command. -/
theorem retireSourceExportsItsGaps : Obligations.RetireSourceExportsItsGaps := by
  intro tag n s ha ho hn hactive hfile hplaces hnumbers
  have hu : ∀ m, (taken s .a tag 17).source m = s.source m := fun _ => rfl
  obtain ⟨t, hexec, hsource, haudit⟩ := sourceRequest_settles ha ho hn (kind := 17)
    (checks := fun s => [(decide ((s.source n).state ≠ .empty), .unknownSource),
      (decide ((s.source n).state ≠ .retired), .wrongState), (!s.hasFileOf n, .busy),
      (decide ((s.source n).gaps.length ≤ s.freePlaces), .noSpace)]) (retire n) (by
        rw [firstRefusal_none_iff]
        have hfile' : (taken s .a tag 17).hasFileOf n = false := hfile
        have hplaces' : (s.source n).gaps.length ≤ (taken s .a tag 17).freePlaces := hplaces
        simp [hu, hactive, hfile', hplaces'])
  obtain ⟨hbody, hnext⟩ := ((retire_wrote n (taken s .a tag 17)).congr haudit).all (by
    rw [List.length_map]
    exact Nat.le_min.mpr ⟨hplaces, Nat.le_sub_of_add_le' hnumbers⟩)
  rw [List.length_map] at hnext
  refine ⟨t, hexec, ?_, fun m hm => ?_, hbody, hnext⟩
  · rw [hsource, retire_source, if_pos rfl]
    rfl
  · rw [hsource, retire_source, if_neg hm]
    rfl

/-! ### RESEQUENCE-SOURCE (R32) -/

theorem resequence_source (n base : Nat) (s : State) (m : Nat) :
    (resequence n base s).source m =
      if m = n then { s.source n with
        base := base, marks := 0, gaps := (resequenceFit (s.source n) base s.today).1, overflow := false }
      else s.source m := by
  rw [resequence, State.setSource_source]
  split
  · rfl
  · simp [State.source]

/-- R32 steps 2 and 3: the records displaced, then RESEQUENCED. -/
theorem resequence_wrote (n base : Nat) (s : State) :
    s.wrote (resequence n base s)
      ((resequenceFit (s.source n) base s.today).2.map (gapFinal n .overflow) ++
        [resequenced n (s.source n).base base (resequenceRuns (s.source n) s.today).length
          (resequenceFit (s.source n) base s.today).2.length]) :=
  ((exportGaps_wrote n .overflow _ s).trans (writeFinding_wrote _ _)).congr (by simp [resequence])

/-- Settles O23: the checks of R32 pass, and what resequencing does stands at the end of the command. -/
theorem resequenceStartsANewNumbering : Obligations.ResequenceStartsANewNumbering := by
  intro tag n base s ha ho hn hactive hroom hnumbers
  have hu : ∀ m, (taken s .a tag 19).source m = s.source m := fun _ => rfl
  obtain ⟨t, hexec, hsource, haudit⟩ := sourceRequest_settles ha ho hn (kind := 19)
    (checks := fun s => [(decide ((s.source n).state ≠ .empty), .unknownSource),
      (decide ((s.source n).state ≠ .retired), .wrongState), (s.roomToResequence n base, .noSpace)])
    (resequence n base) (by
      rw [firstRefusal_none_iff]
      have hroom' : (taken s .a tag 19).roomToResequence n base = true := hroom
      simp [hu, hactive, hroom'])
  obtain ⟨-, hfree⟩ := Bool.and_eq_true_iff.mp hroom
  obtain ⟨hbody, -⟩ := ((resequence_wrote n base (taken s .a tag 19)).congr haudit).all (by
    rw [List.length_append, List.length_map, List.length_singleton]
    exact Nat.le_min.mpr ⟨of_decide_eq_true hfree, Nat.le_sub_of_add_le' hnumbers⟩)
  rw [← List.append_assoc] at hbody
  refine ⟨t, hexec, ?_, fun m hm => ?_, hbody⟩
  · rw [hsource, resequence_source, if_pos rfl]
    rfl
  · rw [hsource, resequence_source, if_neg hm]
    rfl

end Sys2Proof.Machine
end

