-- ==== Sys2Proof/Proofs/IntakeKept.lean ====
section
/-!
PROOFS. Proofs/IntakeKept.lean: the acts of the part that are none of the intake's reach it in two ways alone, by aborting a
closing file as the part enters HALTED (R48) and by a finished file's leaving the Compaction Queue (R59): what both leave
standing goes on to hold.
-/

namespace Sys2Proof.Machine
open Sys2Proof

/-- What the abort of a file and the leaving of a finished one leave standing of the intake. -/
structure IntakeStable (Q : IntakeUnit → Prop) : Prop where
  abort : ∀ k s, Q s.intake → Q (abortSlot k s).intake
  leave : ∀ n d s, Q s.intake → Q (leaveFlight n d s).intake
  pages : ∀ n s, Q s.intake → Q (freePages n s).intake

/-- Such a property holds. -/
def kept (Q : IntakeUnit → Prop) (i : IntakeUnit) : Prop := IntakeStable Q ∧ Q i

section
variable {Q : IntakeUnit → Prop} {s : State}

@[simp] theorem abortSlot_kept (h : kept Q s.intake) (k : Nat) : kept Q (abortSlot k s).intake :=
  ⟨h.1, h.1.abort k s h.2⟩

@[simp] theorem leaveFlight_kept (h : kept Q s.intake) (n d : Nat) : kept Q (leaveFlight n d s).intake :=
  ⟨h.1, h.1.leave n d s h.2⟩

@[simp] theorem freePages_kept (h : kept Q s.intake) (n : Nat) : kept Q (freePages n s).intake :=
  ⟨h.1, h.1.pages n s h.2⟩

/-! ### Faults (R48, R185) -/

@[simp] theorem haltClose_kept (h : kept Q s.intake) (k : Nat) : kept Q (haltClose k s).intake := by
  unfold haltClose
  split <;> simp [h]

@[simp] theorem enterHalted_kept (h : kept Q s.intake) : kept Q (enterHalted s).intake := by
  unfold enterHalted
  exact foldl_inv (fun t : State => kept Q t.intake) _ (fun _ k ht => haltClose_kept ht k) _ _ h

@[simp] theorem raiseFault_kept (h : kept Q s.intake) (f : FaultInfo) : kept Q (raiseFault f s).intake := by
  simp only [raiseFault]
  repeat' split
  all_goals simp [h]

/-! ### Compaction and the checkpoint -/

@[simp] theorem waitForSlot_kept (h : kept Q s.intake) (b : Nat) : kept Q (waitForSlot b s).intake := by
  unfold waitForSlot
  split <;> simp [h]

@[simp] theorem askSlot_kept (h : kept Q s.intake) (b : Nat) : kept Q (askSlot b s).intake := by
  unfold askSlot
  split <;> simp [h]

@[simp] theorem testWait_kept (h : kept Q s.intake) : kept Q (testWait s).intake := by
  unfold testWait
  repeat' split
  all_goals simp [h]

@[simp] theorem beginClose_kept (h : kept Q s.intake) (b : Nat) : kept Q (beginClose b s).intake := by
  rw [beginClose_eq]
  exact askSlot_kept (s := s.askingClose b) h b

@[simp] theorem closeBuilders_kept (h : kept Q s.intake) (f : Builder → Bool) : kept Q (closeBuilders f s).intake := by
  unfold closeBuilders
  refine foldl_inv (fun t : State => kept Q t.intake) _ (fun t b ht => ?_) _ _ h
  split <;> simp [ht]

@[simp] theorem openOn_kept (h : kept Q s.intake) (b x y : Nat) : kept Q (openOn b x y s).intake := by
  unfold openOn
  repeat' split
  all_goals simp [h]

@[simp] theorem tryOpen_kept (h : kept Q s.intake) (x y : Nat) : kept Q (tryOpen x y s).intake := by
  simp only [tryOpen]
  repeat' split
  all_goals simp [h]

@[simp] theorem testOpening_kept (h : kept Q s.intake) : kept Q (testOpening s).intake := by
  unfold testOpening
  split <;> simp [h]

@[simp] theorem resolveOpening_kept (h : kept Q s.intake) : kept Q (resolveOpening s).intake := by
  unfold resolveOpening
  repeat' split
  all_goals simp [h]

@[simp] theorem openAndAppend_kept (h : kept Q s.intake) (f : QueuedFile) (r : Record) :
    kept Q (openAndAppend f r s).intake := by
  unfold openAndAppend
  split <;> simp [h]

@[simp] theorem appendNext_kept (h : kept Q s.intake) (f : QueuedFile) (r : Record) :
    kept Q (appendNext f r s).intake := by
  unfold appendNext
  repeat' split
  all_goals simp [h]

@[simp] theorem leaveQueue_kept (h : kept Q s.intake) : kept Q (leaveQueue s).intake := by
  unfold leaveQueue
  split
  · exact h
  · refine leaveFlight_kept (freePages_kept ?_ _) _ _
    exact h

@[simp] theorem dropFinished_kept (h : kept Q s.intake) : kept Q (dropFinished s).intake := by
  unfold dropFinished
  refine foldl_inv (fun t : State => kept Q t.intake) _ (fun t _ ht => ?_) _ _ h
  repeat' split
  all_goals simp [ht]

@[simp] theorem drainCloses_kept (h : kept Q s.intake) : kept Q (drainCloses s).intake := by
  unfold drainCloses
  split <;> simp [h]

@[simp] theorem runCompaction_kept (h : kept Q s.intake) : kept Q (runCompaction s).intake := by
  unfold runCompaction
  split
  · have hclosed := drainCloses_kept (resolveOpening_kept (dropFinished_kept h))
    simpa using hclosed
  · exact h

@[simp] theorem beginCheckpoint_kept (h : kept Q s.intake) (ws : List Waiter) : kept Q (beginCheckpoint ws s).intake := by
  simp only [beginCheckpoint]
  split <;> simp [h]

@[simp] theorem trigger_kept (h : kept Q s.intake) (ws : List Waiter) : kept Q (trigger ws s).intake := by
  unfold trigger
  repeat' split
  all_goals simp [h]

@[simp] theorem triggerFor_kept (h : kept Q s.intake) (r : ReqRef) (a b : List Byte) :
    kept Q (triggerFor r a b s).intake := trigger_kept h _

@[simp] theorem takeOwed_kept (h : kept Q s.intake) : kept Q (takeOwed s).intake := by
  simp only [takeOwed]
  repeat' split
  all_goals simp [h]

/-! ### The Eraser and the sweeps -/

@[simp] theorem afterSlots_kept (h : kept Q s.intake) : kept Q (afterSlots s).intake := by
  simp [afterSlots, h]

@[simp] theorem timeoutErase_kept (h : kept Q s.intake) (c : Nat) (w : EraseWork) :
    kept Q (timeoutErase c w s).intake := by
  simp [timeoutErase, h]

@[simp] theorem endDay_kept (h : kept Q s.intake) (w : Sweep) : kept Q (endDay w s).intake := by
  simp [endDay, h]

@[simp] theorem endExtend_kept (h : kept Q s.intake) (c : Nat) (w : Sweep) : kept Q (endExtend c w s).intake := by
  simp only [endExtend]
  split <;> simp [h]

@[simp] theorem endApply_kept (h : kept Q s.intake) (k : Nat) (w : Sweep) : kept Q (endApply k w s).intake := by
  simp [endApply, h]

@[simp] theorem runOutApply_kept (h : kept Q s.intake) (k : Nat) (w : Sweep) : kept Q (runOutApply k w s).intake := by
  unfold runOutApply
  repeat' split
  all_goals simp [h]

@[simp] theorem resumeSweep_kept (h : kept Q s.intake) : kept Q (resumeSweep s).intake := by
  unfold resumeSweep
  repeat' split
  all_goals simp [h]

@[simp] theorem endRelease_kept (h : kept Q s.intake) (k : Nat) (w : Sweep) : kept Q (endRelease k w s).intake := by
  simp [endRelease, h]

@[simp] theorem closeOldBuilders_kept (h : kept Q s.intake) : kept Q (closeOldBuilders s).intake := by
  simp [closeOldBuilders, h]

@[simp] theorem abortAllSlots_kept (h : kept Q s.intake) : kept Q (abortAllSlots s).intake := by
  unfold abortAllSlots
  refine foldl_inv (fun t : State => kept Q t.intake) _ (fun t k ht => ?_) _ _ h
  split <;> simp [ht]

end

end Sys2Proof.Machine
end

