-- ==== Sys2Proof/Proofs/Acceptance.lean ====
section
/-!
PROOFS. Proofs/Acceptance.lean: what leaves a tally entry and what is counted in it, how a closing file is refused or
accepted, and what compaction, run at once, makes of the file that joins its queue (O30).
-/

namespace Sys2Proof.Machine
open Sys2Proof

/-! ### The Day Tally (R54, R55) -/

theorem changeTally_tallyEntry (s : State) (n d : Nat) (f : TallyEntry → TallyEntry) :
    (s.changeTally n d f).tallyEntry n d = (s.tallyEntry n d).map f := by
  unfold State.changeTally
  cases h : s.tallyEntry n d with
  | none => simpa using h
  | some y => exact Tbl.find_put_same _ _ _

theorem changeTally_others (s : State) (n d : Nat) (f : TallyEntry → TallyEntry) :
    s.othersTallied (s.changeTally n d f) n d := by
  intro i hi
  unfold State.changeTally
  cases s.tallyEntry n d with
  | none => rfl
  | some y => exact Tbl.find_put_ne _ _ hi

/-- Only the tally counts. -/
theorem State.othersTallied.trans {s t u : State} {n d : Nat} (h : s.othersTallied t n d) (h' : t.othersTallied u n d) :
    s.othersTallied u n d := fun i hi => (h' i hi).trans (h i hi)

theorem othersTallied_of_tally {s t : State} (h : t.intake.tally = s.intake.tally) (n d : Nat) :
    s.othersTallied t n d := fun i _ => by rw [h]

theorem tallyEntry_congr {s t : State} (h : t.intake.tally = s.intake.tally) (n d : Nat) :
    t.tallyEntry n d = s.tallyEntry n d := by simp only [State.tallyEntry, h]

/-- The closing test changes the state of an entry alone. -/
theorem closingTest_eq (today lookback d : Nat) (y : TallyEntry) :
    closingTest today lookback d y = { y with state := (closingTest today lookback d y).state } := by
  unfold closingTest
  split <;> rfl

/-- A tally entry as a file leaves it (R55). -/
def leftEntry (today lookback d : Nat) (y : TallyEntry) : TallyEntry :=
  closingTest today lookback d { y with inFlight := y.inFlight - 1 }

theorem leaveFlight_tallyEntry (n d : Nat) (s : State) :
    (leaveFlight n d s).tallyEntry n d = (s.tallyEntry n d).map (leftEntry s.today s.lookback d) :=
  changeTally_tallyEntry s n d _

theorem leaveFlight_others (n d : Nat) (s : State) : s.othersTallied (leaveFlight n d s) n d :=
  changeTally_others s n d _

/-! ### A file refused (R47) -/

theorem clearSlot_slot (k : Nat) (s : State) : (clearSlot k s).intakeSlot k = {} :=
  State.setIntakeSlot_intakeSlot_same s k {}

theorem intakeSlot_congr {s t : State} (h : t.intake.slots = s.intake.slots) (k : Nat) :
    t.intakeSlot k = s.intakeSlot k := by simp only [State.intakeSlot, h]

theorem abortSlot_slot (k : Nat) (s : State) : (abortSlot k s).intakeSlot k = {} := by
  rw [intakeSlot_congr (s := clearSlot k s) (by simp [abortSlot]), clearSlot_slot]

theorem refuseFile_slot (k : Nat) (s : State) : (refuseFile k s).intakeSlot k = {} := abortSlot_slot k _

/-- The tally entry counts the file refused, and the file leaves it (R54, R55). -/
theorem refuseFile_tallyRefused (k : Nat) (s : State) : s.tallyRefused (refuseFile k s) (s.intakeSlot k) := by
  obtain ⟨f, hf⟩ : ∃ f, s.intakeSlot k = f := ⟨_, rfl⟩
  have hcleared : ∃ v, refuseFile k s = leaveFlight f.source f.day v ∧ v.today = s.today ∧ v.lookback = s.lookback ∧
      v.intake.tally = (s.changeTally f.source f.day (fun y => tallyRefuse y f.declaredRecords)).intake.tally := by
    have hslot : (s.changeTally f.source f.day (fun y => tallyRefuse y f.declaredRecords)).intakeSlot k = f := by
      simpa [State.intakeSlot] using hf
    exact ⟨freePages f.pages (clearSlot k (s.changeTally f.source f.day (fun y => tallyRefuse y f.declaredRecords))),
      by simp only [refuseFile, abortSlot, hf, hslot], by simp [State.today], by simp [State.lookback], by simp⟩
  obtain ⟨v, hrefuse, htoday, hlookback, htally⟩ := hcleared
  rw [hf, hrefuse]
  refine ⟨fun y hy => ⟨leftEntry s.today s.lookback f.day (tallyRefuse y f.declaredRecords), ?_, ?_⟩, ?_⟩
  · rw [leaveFlight_tallyEntry, tallyEntry_congr htally, changeTally_tallyEntry, hy, htoday, hlookback]
    rfl
  · rw [leftEntry, closingTest_eq]
    exact ⟨rfl, rfl, rfl, rfl, rfl, rfl⟩
  · exact ((changeTally_others s f.source f.day _).trans (othersTallied_of_tally htally _ _)).trans
      (leaveFlight_others _ _ v)

/-- Only the tally counts. -/
theorem State.tallyRefused.congr {s t s' t' : State} {f : IntakeSlot} (h : s.tallyRefused t f)
    (hs : s'.intake.tally = s.intake.tally) (ht : t'.intake.tally = t.intake.tally) : s'.tallyRefused t' f := by
  simp only [State.tallyRefused, State.othersTallied, State.tallyEntry, hs, ht] at h ⊢
  exact h

/-- A refused close is answered, its slot IDLE and its file counted as refused; nothing else of the intake's sources and of
compaction changes. -/
theorem refuseClose_spec {k : Nat} {r : ReqRef} {s : State} (st : Status) (hr : (s.intakeSlot k).closeReq = some r)
    (hl : s.isLive r = true) :
    (refuseClose k st s).intakeSlot k = {} ∧ (refuseClose k st s).intake.sources = s.intake.sources ∧
      replyTo r.tag r.kind st (refusalBody (s.intakeSlot k)) ∈ ((refuseClose k st s).link r.port).replies ∧
      s.tallyRefused (refuseClose k st s) (s.intakeSlot k) ∧ (refuseClose k st s).comp = s.comp := by
  have hclose : refuseClose k st s = answer r st (refusalBody (s.intakeSlot k)) (refuseFile k s) := by
    simp only [refuseClose, hr]
  have hlive : (refuseFile k s).isLive r = true := by
    rw [isLive_congr (s := s) r (by simp)]
    exact hl
  rw [hclose]
  refine ⟨?_, by simp, answer_mem hlive st _, (refuseFile_tallyRefused k s).congr rfl (by simp), by simp⟩
  rw [intakeSlot_congr (s := refuseFile k s) (by simp), refuseFile_slot]

/-- An IDLE slot stays IDLE. -/
theorem slotIdle_kept {k : Nat} {s : State} (h : s.intakeSlot k = {}) :
    kept (fun i => Tbl.get {} i.slots k = {}) s.intake := by
  refine ⟨⟨fun j s hs => ?_, fun n d s hs => ?_, fun n s hs => hs⟩, h⟩
  · have hslots : (abortSlot j s).intake.slots = (clearSlot j s).intake.slots := by simp [abortSlot]
    rw [hslots]
    exact (Tbl.get_set _ _ _ _ _).trans (ite_eq_left_iff.mpr (fun _ => hs))
  · have hslots : (leaveFlight n d s).intake.slots = s.intake.slots := by simp
    rwa [hslots]

/-! ### What compaction makes of its queue (R58, R59) -/

theorem leaveQueue_queue (s : State) : (leaveQueue s).comp.queue = s.comp.queue.tail := by
  unfold leaveQueue
  cases h : s.comp.queue with
  | nil => simpa using h
  | cons f rest => simp

/-- A file with a record to append does not leave the queue. -/
theorem mem_dropFinished {s : State} {g : QueuedFile} (hm : g ∈ s.comp.queue) (hg : g.appended < g.toAppend) :
    g ∈ (dropFinished s).comp.queue := by
  unfold dropFinished
  refine foldl_inv (fun t : State => g ∈ t.comp.queue) _ (fun t _ ht => ?_) _ _ hm
  split
  · exact ht
  · rename_i f rest hq
    split
    · rename_i hdone
      rw [leaveQueue_queue, hq, List.tail_cons]
      rw [hq] at ht
      rcases List.mem_cons.mp ht with rfl | hrest
      · omega
      · exact hrest
    · exact ht

theorem mem_runCompaction {s : State} {g : QueuedFile} (hm : g ∈ s.comp.queue) (hg : g.appended < g.toAppend) :
    g ∈ (runCompaction s).comp.queue := by
  unfold runCompaction
  split
  · simpa using mem_dropFinished hm hg
  · exact hm

/-- With no checkpoint QUIESCING, running compaction drops the finished files and goes on with an opening. -/
theorem runCompaction_undrained {s : State} (h : s.cat.state ≠ .quiescing) :
    runCompaction s = s ∨ s.compacting = true ∧ runCompaction s = resolveOpening (dropFinished s) := by
  by_cases hc : s.compacting = true
  · right
    refine ⟨hc, ?_⟩
    have hdropped : (dropFinished s).compacting = true := by
      rw [compacting_congr (s := s) (by simp) (by simp)]
      exact hc
    have hworks := resolveOpening_worksOn hdropped
    have hidle : (resolveOpening (dropFinished s)).draining = false := by
      obtain ⟨-, -, -, -, hruns, -⟩ := hworks
      cases hs : (resolveOpening (dropFinished s)).comp.stopped with
      | true => simp [State.draining, State.compacting, hs]
      | false =>
        have hcat : (dropFinished s).cat = s.cat := by simp
        rw [State.draining, hruns hs, hcat, decide_eq_false h, Bool.false_and]
    simp only [runCompaction, hc, if_true, drainCloses, hidle, Bool.false_and, Bool.false_eq_true, if_false, drainComplete]
  · left
    rw [runCompaction, if_neg hc]

theorem runCompaction_replies_prefix {s : State} (h : s.cat.state ≠ .quiescing) (p : Port) :
    (s.link p).replies <+: ((runCompaction s).link p).replies := by
  rcases runCompaction_undrained h with hrun | ⟨hc, hrun⟩
  · rw [hrun]
  · have hdropped : (dropFinished s).compacting = true := by
      rw [compacting_congr (s := s) (by simp) (by simp)]
      exact hc
    obtain ⟨-, -, -, hlinks, -⟩ := resolveOpening_worksOn hdropped
    have hlink : (dropFinished s).link p = s.link p := by simp
    rw [hrun, ← hlink]
    exact (hlinks p).2

/-- A queue of one file without a record to append. -/
theorem dropFinished_single {s : State} {f : QueuedFile} (hq : s.comp.queue = [f]) (hf : f.toAppend ≤ f.appended) :
    dropFinished s = leaveQueue s := by
  simp [dropFinished, hq, hf]

/-! ### A file accepted (R46) -/

/-- The file of a slot as it joins the Compaction Queue. -/
def queuedFile (f : IntakeSlot) : QueuedFile :=
  { source := f.source, sequence := f.sequence, day := f.day, pages := f.pages, toAppend := f.accepted, appended := 0,
    records := f.records }

/-- A file taken, its displaced records exported, before compaction runs. -/
def fileTaken (k : Nat) (e : SourceEntry) (gone : List GapRecord) (s : State) : State :=
  let f := s.intakeSlot k
  clearSlot k (joinQueue f
    (((exportGaps f.source .overflow gone s).setSource f.source (countAccepted e f.day)).changeTally f.source f.day
      (fun y => tallyAccept y f.declaredRecords f.accepted f.rejects.sum)))

theorem acceptFile_eq {k : Nat} {s : State} {r : ReqRef} (hr : (s.intakeSlot k).closeReq = some r) (e : SourceEntry)
    (gone : List GapRecord) (pos : Nat) :
    acceptFile k e gone pos s =
      runCompaction (answer r .accepted (acceptedBody (s.intakeSlot k) pos s.cat.last) (fileTaken k e gone s)) := by
  simp only [acceptFile, fileTaken, hr]

section
variable (k : Nat) (e : SourceEntry) (gone : List GapRecord) (s : State)

theorem fileTaken_source (n : Nat) :
    (fileTaken k e gone s).source n =
      if n = (s.intakeSlot k).source then countAccepted e (s.intakeSlot k).day else s.source n := by
  have hsources : (fileTaken k e gone s).intake.sources =
      ((exportGaps (s.intakeSlot k).source .overflow gone s).setSource (s.intakeSlot k).source
        (countAccepted e (s.intakeSlot k).day)).intake.sources := by
    simp [fileTaken, joinQueue]
  have hexport : (exportGaps (s.intakeSlot k).source .overflow gone s).source n = s.source n := by simp [State.source]
  rw [State.source, hsources, ← hexport]
  exact State.setSource_source _ _ _ _

theorem fileTaken_slot : (fileTaken k e gone s).intakeSlot k = {} := clearSlot_slot k _

theorem fileTaken_comp :
    (fileTaken k e gone s).comp = { s.comp with queue := s.comp.queue ++ [queuedFile (s.intakeSlot k)] } := by
  simp [fileTaken, joinQueue, queuedFile]

theorem fileTaken_keeps : (fileTaken k e gone s).cat = s.cat ∧ (fileTaken k e gone s).ret = s.ret ∧
    ∀ p, ((fileTaken k e gone s).link p).epoch = (s.link p).epoch := by
  simp [fileTaken, joinQueue]

theorem fileTaken_wrote :
    s.wrote (fileTaken k e gone s) (gone.map (gapFinal (s.intakeSlot k).source .overflow)) :=
  (exportGaps_wrote (s.intakeSlot k).source .overflow gone s).congr (by simp [fileTaken, joinQueue])

/-- The tally entry counts the file accepted. -/
theorem fileTaken_tallyEntry :
    (fileTaken k e gone s).tallyEntry (s.intakeSlot k).source (s.intakeSlot k).day =
        (s.tallyEntry (s.intakeSlot k).source (s.intakeSlot k).day).map (fun y =>
          tallyAccept y (s.intakeSlot k).declaredRecords (s.intakeSlot k).accepted (s.intakeSlot k).rejects.sum) ∧
      s.othersTallied (fileTaken k e gone s) (s.intakeSlot k).source (s.intakeSlot k).day := by
  obtain ⟨v, hv⟩ : ∃ v, v = (exportGaps (s.intakeSlot k).source .overflow gone s).setSource (s.intakeSlot k).source
      (countAccepted e (s.intakeSlot k).day) := ⟨_, rfl⟩
  have hbefore : v.intake.tally = s.intake.tally := by simp [hv]
  have hafter : (fileTaken k e gone s).intake.tally =
      (v.changeTally (s.intakeSlot k).source (s.intakeSlot k).day (fun y =>
        tallyAccept y (s.intakeSlot k).declaredRecords (s.intakeSlot k).accepted
          (s.intakeSlot k).rejects.sum)).intake.tally := by
    simp [fileTaken, joinQueue, hv]
  refine ⟨?_, ((othersTallied_of_tally hbefore _ _).trans (changeTally_others v _ _ _)).trans
    (othersTallied_of_tally hafter _ _)⟩
  rw [tallyEntry_congr hafter, changeTally_tallyEntry, tallyEntry_congr hbefore]

end

/-- What an acceptance leaves: its slot IDLE, its source's entry judged and counted, its reply produced, its records queued,
and the records displaced exported. -/
theorem acceptFile_spec {k : Nat} {r : ReqRef} {s : State} (hr : (s.intakeSlot k).closeReq = some r)
    (hl : s.isLive r = true) (hq : s.cat.state ≠ .quiescing) (e : SourceEntry) (gone : List GapRecord) (pos : Nat) :
    let t := acceptFile k e gone pos s
    let f := s.intakeSlot k
    t.intakeSlot k = {} ∧ (∀ n, t.source n = if n = f.source then countAccepted e f.day else s.source n) ∧
      replyTo r.tag r.kind .accepted (acceptedBody f pos s.cat.last) ∈ (t.link r.port).replies ∧
      (0 < f.accepted → queuedFile f ∈ t.comp.queue) ∧ s.wrote t (gone.map (gapFinal f.source .overflow)) := by
  intro t f
  obtain ⟨hcat, -, hepoch⟩ := fileTaken_keeps k e gone s
  obtain ⟨v, hv⟩ : ∃ v, v = answer r .accepted (acceptedBody f pos s.cat.last) (fileTaken k e gone s) := ⟨_, rfl⟩
  have ht : t = runCompaction v := by rw [hv]; exact acceptFile_eq hr e gone pos
  have hlive : (fileTaken k e gone s).isLive r = true := by rwa [isLive_congr r (hepoch r.port)]
  have hquiet : v.cat.state ≠ .quiescing := by simpa [hv, hcat] using hq
  have hintake : v.intake = (fileTaken k e gone s).intake := by simp [hv]
  have hidle : v.intakeSlot k = {} := by
    rw [intakeSlot_congr (congrArg IntakeUnit.slots hintake), fileTaken_slot]
  rw [ht]
  refine ⟨?_, fun n => ?_, ?_, fun hpos => mem_runCompaction (s := v) ?_ hpos, ?_⟩
  · exact (runCompaction_kept (slotIdle_kept hidle)).2
  · rw [← fileTaken_source k e gone s]
    simp [State.source, hintake]
  · exact (runCompaction_replies_prefix hquiet r.port).subset (hv ▸ answer_mem hlive .accepted _)
  · have hcomp : v.comp = (fileTaken k e gone s).comp := by simp [hv]
    rw [hcomp, fileTaken_comp]
    exact List.mem_append_right _ (List.mem_singleton_self _)
  · exact (fileTaken_wrote k e gone s).congr (by simp [hv])

/-- Where nothing waits on compaction, running it after an acceptance leaves the counts of the tally: it drops at most the file
itself, where that has no record to append. -/
theorem acceptFile_tallyAccepted {k : Nat} {r : ReqRef} {s : State} (hr : (s.intakeSlot k).closeReq = some r)
    (hq : s.cat.state ≠ .quiescing) (e : SourceEntry) (gone : List GapRecord) (pos : Nat) (ho : s.comp.opening = none)
    (hqueue : ∀ g ∈ s.comp.queue, g.appended < g.toAppend) :
    s.tallyAccepted (acceptFile k e gone pos s) (s.intakeSlot k) ∧
      s.othersTallied (acceptFile k e gone pos s) (s.intakeSlot k).source (s.intakeSlot k).day := by
  obtain ⟨v, hv⟩ : ∃ v, v = answer r .accepted (acceptedBody (s.intakeSlot k) pos s.cat.last) (fileTaken k e gone s) :=
    ⟨_, rfl⟩
  have hcomp : v.comp = (fileTaken k e gone s).comp := by simp [hv]
  have hquiet : v.cat.state ≠ .quiescing := by simpa [hv, (fileTaken_keeps k e gone s).1] using hq
  rw [acceptFile_eq hr, ← hv]
  obtain ⟨f, hf⟩ : ∃ f, s.intakeSlot k = f := ⟨_, rfl⟩
  obtain ⟨hentry, hothers⟩ := fileTaken_tallyEntry k e gone s
  have htally : v.intake.tally = (fileTaken k e gone s).intake.tally := by simp [hv]
  rw [← tallyEntry_congr htally] at hentry
  replace hothers := hothers.trans (othersTallied_of_tally htally _ _)
  rw [hf] at hentry hothers ⊢
  have hstays : s.tallyAccepted v f ∧ s.othersTallied v f.source f.day := by
    refine ⟨fun y hy => ⟨_, by rw [hentry, hy]; rfl, ?_⟩, hothers⟩
    exact ⟨rfl, rfl, rfl, rfl, rfl, fun _ => ⟨rfl, rfl⟩⟩
  have hjoined : v.comp.queue = s.comp.queue ++ [queuedFile f] := by rw [hcomp, fileTaken_comp, hf]
  have hopening : v.comp.opening = none := by rw [hcomp, fileTaken_comp, ho]
  rcases runCompaction_stands (s := v) (.inl hquiet) (.inl hopening) with hrun | ⟨-, hrun⟩
  · rwa [hrun]
  rw [hrun]
  by_cases hhead : ∀ g, v.comp.queue.head? = some g → g.appended < g.toAppend
  · rwa [dropFinished_eq hhead]
  · cases hs : s.comp.queue with
    | cons g rest =>
      refine absurd (fun g' hg' => ?_) hhead
      rw [hjoined, hs] at hg'
      obtain rfl : g = g' := by simpa using hg'
      exact hqueue g (by simp [hs])
    | nil =>
      have hsingle : v.comp.queue = [queuedFile f] := by rw [hjoined, hs, List.nil_append]
      have hnone : f.accepted = 0 := by
        by_contra hne
        refine hhead (fun g' hg' => ?_)
        obtain rfl : queuedFile f = g' := by simpa [hsingle] using hg'
        exact Nat.pos_of_ne_zero hne
      have hleaves : ∃ w, leaveQueue v = leaveFlight f.source f.day w ∧ w.intake.tally = v.intake.tally := by
        refine ⟨freePages f.pages { v with comp := { v.comp with queue := [] } }, ?_, by simp [freePages]⟩
        simp only [leaveQueue, hsingle, queuedFile]
      obtain ⟨w, hleave, hw⟩ := hleaves
      rw [dropFinished_single hsingle (by simp [queuedFile, hnone]), hleave]
      refine ⟨fun y hy => ⟨leftEntry w.today w.lookback f.day
          (tallyAccept y f.declaredRecords f.accepted f.rejects.sum), ?_, ?_⟩,
        (hothers.trans (othersTallied_of_tally hw _ _)).trans (leaveFlight_others _ _ w)⟩
      · rw [leaveFlight_tallyEntry, tallyEntry_congr hw, hentry, hy]
        rfl
      · rw [leftEntry, closingTest_eq]
        exact ⟨rfl, rfl, rfl, rfl, rfl, fun hpos => by omega⟩

/-- An acceptance displaces no more records than the log has free places (R20, R23). -/
theorem settleFit_places {e v : SourceEntry} {w : Window} {fit : List GapRecord × List GapRecord}
    {places pos pos' : Nat} {gone : List GapRecord} (h : settleFit e w fit places pos = .accepted v gone pos') :
    v = { e with base := w.base, marks := w.marks, gaps := fit.1 } ∧ gone.length ≤ places := by
  unfold settleFit at h
  split at h
  · obtain ⟨rfl, rfl, -⟩ := h
    exact ⟨rfl, by assumption⟩
  · cases h

theorem judgeFile_places {e v : SourceEntry} {n today places pos : Nat} {gone : List GapRecord}
    (h : judgeFile e n today places = .accepted v gone pos) : gone.length ≤ places := by
  unfold judgeFile at h
  split at h
  · simp only [judgeInside] at h
    split_ifs at h
    · obtain ⟨-, rfl, -⟩ := h
      exact Nat.zero_le _
    · exact (settleFit_places h).2
  · exact (settleFit_places h).2
  · simp only [judgeBehind] at h
    split at h
    · cases h
    · split at h
      · obtain ⟨-, rfl, -⟩ := h
        exact Nat.zero_le _
      · exact (settleFit_places h).2

/-! ### O30 -/

/-- The earliest closing file that waits for nothing is judged (R45, R46). -/
theorem exec_fileAcceptance {k : Nat} {rest : List Nat} {s : State} (hc : s.intake.closing = k :: rest)
    (ha : s.cat.archive = .service) (hq : s.cat.state ≠ .quiescing) (hw : s.cat.state ≠ .writing)
    (hroom : s.comp.queue.length < 64) :
    exec .fileAcceptance s = .next (transmitBoth (judgeClose k (clearFrames s))) := by
  have haccept : acceptNext (clearFrames s) = judgeClose k (clearFrames s) := by
    have hclosing : (clearFrames s).intake.closing = k :: rest := hc
    have hwaits : ((clearFrames s).inService && !(clearFrames s).waitsCheckpoint && !(clearFrames s).waitsRoom) = true := by
      simp [State.inService, State.waitsCheckpoint, State.waitsRoom, ha, hq, hw, Config.queueFiles, hroom]
    simp only [acceptNext, hclosing, hwaits, if_true]
  rw [← haccept]
  rfl

/-- Settles O30: each verdict by what it does, as the command leaves it. -/
theorem fileAcceptanceJudgesTheWindow : Obligations.FileAcceptanceJudgesTheWindow := by
  intro k rest r s hclosing ha hq hw hroom hreq hlive f
  have hexec := exec_fileAcceptance hclosing ha hq hw hroom
  have hlive' : (clearFrames s).isLive r = true := by
    rw [isLive_congr (s := s) r (by simp)]
    exact hlive
  refine ⟨fun st hv => ?_, fun hv => ?_, fun e gone pos hv => ?_⟩
  · have hjudge : judgeClose k (clearFrames s) = refuseClose k st (clearFrames s) := by
      have hv' : judgeFile ((clearFrames s).source ((clearFrames s).intakeSlot k).source)
        ((clearFrames s).intakeSlot k).sequence (clearFrames s).today (clearFrames s).freePlaces = .refused st := hv
      simp only [judgeClose, hv']
    rw [hjudge] at hexec
    obtain ⟨hslot, hsources, hreply, htally, hcomp⟩ := refuseClose_spec st (s := clearFrames s) hreq hlive'
    exact ⟨_, hexec, hslot, hsources, replied_of_mem hreply, htally.congr rfl rfl, hcomp⟩
  · have hjudge : judgeClose k (clearFrames s) =
        refuseClose k .gapsFull ((clearFrames s).setSource f.source { s.source f.source with overflow := true }) := by
      have hv' : judgeFile ((clearFrames s).source ((clearFrames s).intakeSlot k).source)
        ((clearFrames s).intakeSlot k).sequence (clearFrames s).today (clearFrames s).freePlaces = .gapsFull := hv
      simp only [judgeClose, hv']
      rfl
    rw [hjudge] at hexec
    obtain ⟨hslot, hsources, hreply, htally, hcomp⟩ := refuseClose_spec .gapsFull (k := k)
      (s := (clearFrames s).setSource f.source { s.source f.source with overflow := true }) hreq hlive'
    refine ⟨_, hexec, hslot, ?_, replied_of_mem hreply, htally.congr rfl rfl, hcomp⟩
    rw [State.source, show (transmitBoth (refuseClose k .gapsFull ((clearFrames s).setSource f.source
      { s.source f.source with overflow := true }))).intake.sources = _ from hsources]
    exact State.setSource_source_same _ _ _
  · have hjudge : judgeClose k (clearFrames s) = acceptFile k e gone pos (clearFrames s) := by
      have hv' : judgeFile ((clearFrames s).source ((clearFrames s).intakeSlot k).source)
        ((clearFrames s).intakeSlot k).sequence (clearFrames s).today (clearFrames s).freePlaces =
          .accepted e gone pos := hv
      simp only [judgeClose, hv']
    rw [hjudge] at hexec
    obtain ⟨hslot, hsource, hreply, hqueued, hwrote⟩ := acceptFile_spec (s := clearFrames s) hreq hlive' hq e gone pos
    refine ⟨_, hexec, hslot, (hsource f.source).trans (if_pos rfl), fun m hm => (hsource m).trans (if_neg hm),
      replied_of_mem hreply, fun hpos => ⟨_, hqueued hpos, rfl, rfl, rfl, rfl, rfl, rfl, rfl⟩, fun hnumbers => ?_,
      fun ho hqueue => acceptFile_tallyAccepted (s := clearFrames s) hreq hq e gone pos ho hqueue⟩
    obtain ⟨hbody, hnext⟩ := ((hwrote.congr_left rfl : s.wrote _ _).congr rfl).all (by
      rw [List.length_map]
      exact Nat.le_min.mpr ⟨judgeFile_places hv, Nat.le_sub_of_add_le' hnumbers⟩)
    rw [List.length_map] at hnext
    exact ⟨hbody, hnext⟩

end Sys2Proof.Machine
end

