-- ==== Sys2Proof/Proofs/Ageing.lean ====
section
/-!
PROOFS. Proofs/Ageing.lean: the passes over the Source Table in which gap records are exported, of flagged sources and aged
ones: what they write as far as the log has room, and what they leave of each source where it has room for all (R25, R26).
-/

namespace Sys2Proof.Machine
open Sys2Proof

/-! ### Reading a table in order -/

section
variable {α β : Type} (d : α)

theorem get_cons_same (j : Nat) (v : α) (t : Tbl α) : Tbl.get d ((j, v) :: t) j = v := by simp [Tbl.get, Tbl.find]

theorem get_cons_ne {j n : Nat} (h : j ≠ n) (v : α) (t : Tbl α) : Tbl.get d ((j, v) :: t) n = Tbl.get d t n := by
  simp [Tbl.get, Tbl.find, h]

theorem get_of_lt {t : Tbl α} {n : Nat} (h : ∀ e ∈ t, n < e.1) : Tbl.get d t n = d := by
  rw [Tbl.get, Tbl.find_none_of_lt h, Option.getD_none]

/-- What a table gives in index order, the unlisted indexes giving nothing. -/
theorem flatMap_eq_range' (f : Nat → α → List β) (hf : ∀ n, f n d = []) (k : Nat) {t : Tbl α} (hr : Tbl.rising t = true)
    {a : Nat} (hlow : ∀ e ∈ t, a ≤ e.1) (hhigh : ∀ e ∈ t, e.1 < a + k) :
    t.flatMap (fun e => f e.1 e.2) = (List.range' a k).flatMap (fun n => f n (Tbl.get d t n)) := by
  induction k generalizing t a with
  | zero =>
    cases t with
    | nil => rfl
    | cons e t =>
      have h1 := hlow e (by simp)
      have h2 := hhigh e (by simp)
      omega
  | succ k ih =>
    rw [List.range'_succ, List.flatMap_cons]
    by_cases hhead : ∃ v u, t = (a, v) :: u
    · obtain ⟨v, u, rfl⟩ := hhead
      obtain ⟨hlt, hu⟩ := (Tbl.rising_cons a v u).mp hr
      rw [List.flatMap_cons, get_cons_same, ih hu (a := a + 1) hlt (fun e he => by
        have := hhigh e (List.mem_cons_of_mem _ he)
        omega)]
      refine congrArg _ (List.flatMap_congr (fun n hn => ?_))
      rw [get_cons_ne d (by have := (List.mem_range'_1.mp hn).1; omega)]
    · have habove : ∀ e ∈ t, a < e.1 := by
        intro e he
        refine Nat.lt_of_le_of_ne (hlow e he) (fun heq => hhead ?_)
        cases t with
        | nil => simp at he
        | cons e' u =>
          obtain ⟨hlt, -⟩ := (Tbl.rising_cons e'.1 e'.2 u).mp hr
          rcases List.mem_cons.mp he with rfl | hu
          · exact ⟨e.2, u, by rw [heq]⟩
          · have h1 := hlt e hu
            have h2 := hlow e' (by simp)
            omega
      rw [get_of_lt d habove, hf, List.nil_append]
      exact ih hr (fun e he => habove e he) (fun e he => by
        have := hhigh e he
        omega)

/-- Two tables give the same when they do so index by index. -/
theorem flatMap_table_congr {γ : Type} (d' : γ) {f : Nat → α → List β} {g : Nat → γ → List β} (hf : ∀ n, f n d = [])
    (hg : ∀ n, g n d' = []) {t : Tbl α} {u : Tbl γ} (ht : Tbl.rising t = true) (hu : Tbl.rising u = true)
    (h : ∀ n, f n (Tbl.get d t n) = g n (Tbl.get d' u n)) :
    t.flatMap (fun e => f e.1 e.2) = u.flatMap (fun e => g e.1 e.2) := by
  obtain ⟨k, hk⟩ : ∃ k, ∀ i ∈ t.map Prod.fst ++ u.map Prod.fst, i ≤ k :=
    ⟨(t.map Prod.fst ++ u.map Prod.fst).sum, fun i hi => List.single_le_sum (by simp) i hi⟩
  rw [flatMap_eq_range' d f hf (k + 1) ht (a := 0) (by simp) (fun e he => by
      have := hk e.1 (List.mem_append_left _ (List.mem_map_of_mem he))
      omega),
    flatMap_eq_range' d' g hg (k + 1) hu (a := 0) (by simp) (fun e he => by
      have := hk e.1 (List.mem_append_right _ (List.mem_map_of_mem he))
      omega)]
  exact List.flatMap_congr (fun n _ => h n)

theorem get_map_table (f : α → α) (hf : f d = d) (t : Tbl α) (n : Nat) :
    Tbl.get d (t.map (fun e => (e.1, f e.2))) n = f (Tbl.get d t n) := by
  induction t with
  | nil => simp [hf]
  | cons e t ih =>
    by_cases h : e.1 = n
    · subst h
      rw [List.map_cons, get_cons_same]
      exact congrArg f (get_cons_same d e.1 e.2 t).symm
    · rw [List.map_cons, get_cons_ne d h, ih]
      exact congrArg f (get_cons_ne d h e.2 t).symm

end

/-- The Source Table lists its sources in order. -/
theorem sources_rising_of_tablesOk {s : State} (h : s.tablesOk = true) : Tbl.rising s.intake.sources = true := by
  simp only [State.tablesOk, Bool.and_eq_true, Tbl.canon_iff] at h
  obtain ⟨⟨⟨⟨⟨⟨⟨⟨⟨⟨⟨⟨⟨-, hsources⟩, -⟩, -⟩, -⟩, -⟩, -⟩, -⟩, -⟩, -⟩, -⟩, -⟩, -⟩, -⟩ := h
  exact hsources.1

/-- And the builders are listed in theirs. -/
theorem builders_rising_of_tablesOk {s : State} (h : s.tablesOk = true) : Tbl.rising s.comp.builders = true := by
  simp only [State.tablesOk, Bool.and_eq_true, Tbl.canon_iff] at h
  obtain ⟨⟨⟨⟨⟨⟨⟨⟨⟨⟨-, hbuilders⟩, -⟩, -⟩, -⟩, -⟩, -⟩, -⟩, -⟩, -⟩, -⟩ := h
  exact hbuilders.1

/-! ### A pass over the sources -/

/-- An act on one source at a time: it leaves every other source, writes `out` as far as there is room, and, with room for all of
it and `k` more, makes `g` of the source. -/
structure Visits (act : Nat → State → State) (out : Nat → SourceEntry → List FindingBody) (g : SourceEntry → SourceEntry)
    (k : Nat) : Prop where
  others  : ∀ n (t : State) m, m ≠ n → (act n t).source m = t.source m
  rises   : ∀ n (t : State), Tbl.rising t.intake.sources = true → Tbl.rising (act n t).intake.sources = true
  writes  : ∀ n (t : State), t.wrote (act n t) (out n (t.source n))
  settles : ∀ n (t : State), (out n (t.source n)).length + k ≤ t.room → (act n t).source n = g (t.source n)

section
variable {act : Nat → State → State} {out : Nat → SourceEntry → List FindingBody} {g : SourceEntry → SourceEntry} {k : Nat}

/-- Such acts taken one after the other on the sources a table lists. -/
theorem Visits.foldl (hv : Visits act out g k) {T : Tbl SourceEntry} (hr : Tbl.rising T = true) {s : State}
    (hs : ∀ e ∈ T, s.source e.1 = e.2) :
    (∀ m, (∀ e ∈ T, e.1 ≠ m) → (T.foldl (fun t e => act e.1 t) s).source m = s.source m) ∧
      s.wrote (T.foldl (fun t e => act e.1 t) s) (T.flatMap (fun e => out e.1 e.2)) ∧
      ((T.flatMap (fun e => out e.1 e.2)).length + k ≤ s.room →
        ∀ e ∈ T, (T.foldl (fun t e => act e.1 t) s).source e.1 = g e.2) := by
  induction T generalizing s with
  | nil => exact ⟨fun _ _ => rfl, wrote_nil rfl, fun _ e he => absurd he (List.not_mem_nil)⟩
  | cons a T ih =>
    obtain ⟨hlt, hT⟩ := (Tbl.rising_cons a.1 a.2 T).mp hr
    have hsa := hs a (by simp)
    have hne : ∀ e ∈ T, e.1 ≠ a.1 := fun e he => Nat.ne_of_gt (hlt e he)
    obtain ⟨hothers, hwrote, hsettles⟩ := ih hT (s := act a.1 s) (fun e he => by
      rw [hv.others a.1 s e.1 (hne e he)]
      exact hs e (List.mem_cons_of_mem a he))
    have hfirst := hv.writes a.1 s
    rw [hsa] at hfirst
    refine ⟨fun m hm => ?_, hfirst.trans hwrote, fun hroom e he => ?_⟩
    · rw [List.foldl_cons, hothers m (fun e he => hm e (List.mem_cons_of_mem a he)),
        hv.others a.1 s m (Ne.symm (hm a (by simp)))]
    · rw [List.flatMap_cons, List.length_append] at hroom
      rcases List.mem_cons.mp he with rfl | he
      · rw [List.foldl_cons, hothers e.1 hne, hv.settles e.1 s (by rw [hsa]; omega), hsa]
      · exact hsettles (by rw [hfirst.2.2]; omega) e he

theorem foldl_rising (hv : Visits act out g k) (T : Tbl SourceEntry) {s : State}
    (h : Tbl.rising s.intake.sources = true) :
    Tbl.rising (T.foldl (fun t e => act e.1 t) s).intake.sources = true :=
  foldl_inv (fun t : State => Tbl.rising t.intake.sources = true) _ (fun t e => hv.rises e.1 t) T s h

/-- A pass over the whole Source Table. -/
theorem Visits.pass (hv : Visits act out g k) (hg : g {} = {}) {s : State} (hr : Tbl.rising s.intake.sources = true) :
    s.wrote (s.intake.sources.foldl (fun t e => act e.1 t) s) (s.intake.sources.flatMap (fun e => out e.1 e.2)) ∧
      ((s.intake.sources.flatMap (fun e => out e.1 e.2)).length + k ≤ s.room →
        ∀ n, (s.intake.sources.foldl (fun t e => act e.1 t) s).source n = g (s.source n)) := by
  obtain ⟨hothers, hwrote, hsettles⟩ := hv.foldl hr (s := s) (fun e he => by
    rw [State.source, Tbl.get, Tbl.find_of_mem hr he, Option.getD_some])
  refine ⟨hwrote, fun hroom n => ?_⟩
  cases hn : Tbl.find s.intake.sources n with
  | some v =>
    have hget : s.source n = v := by rw [State.source, Tbl.get, hn, Option.getD_some]
    rw [hget]
    exact hsettles hroom (n, v) (Tbl.mem_of_find hn)
  | none =>
    have hget : s.source n = {} := by rw [State.source, Tbl.get, hn, Option.getD_none]
    rw [hothers n (fun e he heq => ?_), hget, hg]
    rw [← heq, Tbl.find_of_mem hr he] at hn
    cases hn

end

/-! ### One record exported (R24) -/

theorem exportOne_wrote (n : Nat) (reason : GapReason) (g : GapRecord) (s : State) :
    s.wrote (exportOne n reason g s) [gapFinal n reason g] := by
  by_cases hfull : s.freePlaces = 0
  · have hroom := (room_eq_zero_iff s).mpr hfull
    simp [State.wrote, exportOne, hfull, hroom]
  · refine (writeFinding_wrote (gapFinal n reason g) s).congr ?_
    simp [exportOne, hfull]

theorem exportOne_source (n : Nat) (reason : GapReason) (g : GapRecord) (s : State) (m : Nat) :
    (exportOne n reason g s).source m =
      if m = n ∧ s.freePlaces ≠ 0 then { s.source n with gaps := (s.source n).gaps.erase g } else s.source m := by
  have hfinding : ∀ k, (writeFinding (gapFinal n reason g) s).source k = s.source k := fun k => by simp [State.source]
  by_cases hfull : s.freePlaces = 0
  · simp [exportOne, hfull]
  · rw [exportOne, if_neg hfull, State.setSource_source, hfinding]
    simp [hfull]

theorem exportOne_rising (n : Nat) (reason : GapReason) (g : GapRecord) {s : State}
    (h : Tbl.rising s.intake.sources = true) : Tbl.rising (exportOne n reason g s).intake.sources = true := by
  unfold exportOne
  split
  · exact h
  · exact Tbl.rising_set (by simpa using h) _ _ _

/-! ### Aged records (R25) -/

/-- Records exported one after the other. -/
theorem exportOne_foldl (n : Nat) (reason : GapReason) (gs : List GapRecord) (s : State) :
    s.wrote (gs.foldl (fun t g => exportOne n reason g t) s) (gs.map (gapFinal n reason)) ∧
      (∀ m, m ≠ n → (gs.foldl (fun t g => exportOne n reason g t) s).source m = s.source m) ∧
      (gs.length ≤ s.room → (gs.foldl (fun t g => exportOne n reason g t) s).source n =
        { s.source n with gaps := (s.source n).gaps.diff gs }) := by
  induction gs generalizing s with
  | nil => exact ⟨wrote_nil rfl, fun _ _ => rfl, fun _ => rfl⟩
  | cons g gs ih =>
    obtain ⟨hwrote, hothers, hsettles⟩ := ih (exportOne n reason g s)
    have hfirst := exportOne_wrote n reason g s
    refine ⟨hfirst.trans hwrote, fun m hm => ?_, fun hroom => ?_⟩
    · rw [List.foldl_cons, hothers m hm, exportOne_source, if_neg (fun h => hm h.1)]
    · rw [List.length_cons] at hroom
      have hfree : s.freePlaces ≠ 0 := fun h => by
        have := (room_eq_zero_iff s).mpr h
        omega
      rw [List.foldl_cons, hsettles (by rw [hfirst.2.2, List.length_singleton]; omega), exportOne_source,
        if_pos ⟨rfl, hfree⟩, List.diff_cons]

/-- Taking from a list what satisfies `p` leaves what does not. -/
theorem diff_filter {α : Type} [DecidableEq α] (p : α → Bool) (l : List α) :
    l.diff (l.filter p) = l.filter (fun x => !p x) := by
  induction l with
  | nil => rfl
  | cons a l ih =>
    by_cases h : p a = true
    · rw [List.filter_cons_of_pos h, List.diff_cons, List.erase_cons_head, ih,
        List.filter_cons_of_neg (by simp [h])]
    · rw [List.filter_cons_of_neg h, List.cons_diff_of_not_mem (fun ha => h (List.mem_filter.mp ha).2), ih,
        List.filter_cons_of_pos (by simp [h])]

/-- The records of a source that are aged before a day. -/
def agedOf (line n : Nat) (e : SourceEntry) : List FindingBody := (e.gaps.filter (isAged line)).map (gapFinal n .aged)

/-- A source without them. -/
def unaged (line : Nat) (e : SourceEntry) : SourceEntry := { e with gaps := e.gaps.filter (fun g => !isAged line g) }

theorem ageSource_visits (line : Nat) : Visits (ageSource line) (agedOf line) (unaged line) 0 where
  others n t m hm := (exportOne_foldl n .aged _ t).2.1 m hm
  rises n t h :=
    foldl_inv (fun u : State => Tbl.rising u.intake.sources = true) _ (fun _ g => exportOne_rising n .aged g) _ _ h
  writes n t := (exportOne_foldl n .aged _ t).1
  settles n t h := by
    rw [ageSource, (exportOne_foldl n .aged _ t).2.2 (by simpa [agedOf] using h), diff_filter]
    rfl

theorem ageBefore_rising (line : Nat) {s : State} (h : Tbl.rising s.intake.sources = true) :
    Tbl.rising (ageBefore line s).intake.sources = true := foldl_rising (ageSource_visits line) _ h

theorem isAged_zero (g : GapRecord) : isAged 0 g = false := by simp [isAged]

theorem agedFindings_zero (T : Tbl SourceEntry) (line : Nat) :
    agedFindings T 0 line = T.flatMap (fun e => agedOf line e.1 e.2) := by
  simp [agedFindings, agedOf, isAged_zero]

/-- The records aged before a day are exported, as many as there is room for. -/
theorem ageBefore_spec (line : Nat) {s : State} (hr : Tbl.rising s.intake.sources = true) :
    s.wrote (ageBefore line s) (agedFindings s.intake.sources 0 line) ∧
      ((agedFindings s.intake.sources 0 line).length ≤ s.room → ∀ n, (ageBefore line s).source n = unaged line (s.source n)) := by
  rw [agedFindings_zero]
  exact (ageSource_visits line).pass rfl hr

/-- Findings listed from one table and from another that holds, source by source, what gives the same. -/
theorem agedFindings_congr {T U : Tbl SourceEntry} (hT : Tbl.rising T = true) (hU : Tbl.rising U = true) {lo hi lo' : Nat}
    (h : ∀ n, (Tbl.get {} T n).gaps.filter (fun g => isAged hi g && !isAged lo g) =
      (Tbl.get {} U n).gaps.filter (fun g => isAged hi g && !isAged lo' g)) :
    agedFindings T lo hi = agedFindings U lo' hi :=
  flatMap_table_congr ({} : SourceEntry) ({} : SourceEntry)
    (f := fun n e => (e.gaps.filter (fun g => isAged hi g && !isAged lo g)).map (gapFinal n .aged))
    (g := fun n e => (e.gaps.filter (fun g => isAged hi g && !isAged lo' g)).map (gapFinal n .aged))
    (fun _ => rfl) (fun _ => rfl) hT hU (fun n => congrArg (List.map (gapFinal n .aged)) (h n))

/-- A full log: whatever comes after writes nothing. -/
theorem State.wrote.of_full {s t : State} {bs : List FindingBody} (h : s.wrote t bs) (hr : s.room = 0)
    (cs : List FindingBody) : s.wrote t cs := by
  simpa [State.wrote, hr] using h

/-- Ageing twice, to a day and then to a later one, is ageing to the later one, the records of the first before the others. -/
theorem ageBefore_twice {h line : Nat} (hle : h ≤ line) {s : State} (hr : Tbl.rising s.intake.sources = true) :
    let aged := agedFindings s.intake.sources 0 h ++ agedFindings s.intake.sources h line
    s.wrote (ageBefore line (ageBefore h s)) aged ∧
      (aged.length ≤ s.room → ∀ n, (ageBefore line (ageBefore h s)).source n = unaged line (s.source n)) := by
  intro aged
  obtain ⟨hfirst, hsettles⟩ := ageBefore_spec h hr
  obtain ⟨hsecond, hsettles'⟩ := ageBefore_spec line (ageBefore_rising h hr)
  by_cases hroom : (agedFindings s.intake.sources 0 h).length ≤ s.room
  · have hrest : agedFindings (ageBefore h s).intake.sources 0 line = agedFindings s.intake.sources h line :=
      agedFindings_congr (ageBefore_rising h hr) hr (fun n => by
        have hn : Tbl.get {} (ageBefore h s).intake.sources n = unaged h (s.source n) := hsettles hroom n
        rw [hn]
        simp only [unaged, List.filter_filter, isAged_zero, Bool.not_false, Bool.and_true]
        rfl)
    rw [hrest] at hsecond hsettles'
    refine ⟨hfirst.trans hsecond, fun hall n => ?_⟩
    rw [List.length_append] at hall
    rw [hsettles' (by rw [hfirst.2.2]; omega), hsettles hroom]
    simp only [unaged, List.filter_filter]
    congr 1
    refine List.filter_congr (fun g _ => ?_)
    simp only [isAged]
    by_cases hg : g.day < line
    · simp [hg]
    · simp [hg, show ¬ g.day < h by omega]
  · refine ⟨hfirst.trans (hsecond.of_full (by rw [hfirst.2.2]; omega) _), fun hall => ?_⟩
    rw [List.length_append] at hall
    omega

/-- R25, R26 pass 2: the records that an earlier ageing left are exported before the others. -/
theorem ageGaps_spec {h : Nat} {s : State} (hleft : s.leftFrom h) (hle : h ≤ s.ageLine)
    (hr : Tbl.rising s.intake.sources = true) :
    let aged := agedFindings s.intake.sources 0 h ++ agedFindings s.intake.sources h s.ageLine
    s.wrote (ageGaps s) aged ∧ (aged.length ≤ s.room → ∀ n, (ageGaps s).source n = unaged s.ageLine (s.source n)) := by
  intro aged
  have hkeep : ∀ u, u.wrote (keepAgeing s.ageLine u) [] ∧ ∀ n, (keepAgeing s.ageLine u).source n = u.source n :=
    fun u => ⟨wrote_nil (by simp), fun n => by simp [State.source]⟩
  rcases hleft with ⟨hnone, rfl⟩ | hone
  · have hage : ageGaps s = keepAgeing s.ageLine (ageBefore s.ageLine s) := by simp [ageGaps, hnone]
    obtain ⟨hwrote, hsettles⟩ := ageBefore_spec s.ageLine hr
    have hzero : agedFindings s.intake.sources 0 0 = [] := by simp [agedFindings, isAged_zero]
    have haged : aged = agedFindings s.intake.sources 0 s.ageLine := by simp [aged, hzero]
    rw [hage, haged]
    exact ⟨by simpa using hwrote.trans (hkeep _).1, fun hroom n => ((hkeep _).2 n).trans (hsettles hroom n)⟩
  · have hage : ageGaps s = keepAgeing s.ageLine (ageBefore s.ageLine (ageBefore h s)) := by
      simp [ageGaps, hone, Nat.min_eq_left hle]
    obtain ⟨hwrote, hsettles⟩ := ageBefore_twice hle hr
    rw [hage]
    exact ⟨by simpa using hwrote.trans (hkeep _).1, fun hroom n => ((hkeep _).2 n).trans (hsettles hroom n)⟩

/-! ### Flagged sources (R26 pass 1) -/

/-- The oldest record of a flagged source. -/
def flaggedOf (n : Nat) (e : SourceEntry) : List FindingBody :=
  if e.overflow then (e.gaps.take 1).map (gapFinal n .overflow) else []

/-- A flagged source taken while a place is free. -/
theorem unflag_eq {n : Nat} {s : State} (hflag : (s.source n).overflow = true) (hfree : s.freePlaces ≠ 0) :
    ∃ t, unflag n s = t.setSource n { t.source n with overflow := false } ∧ s.wrote t (flaggedOf n (s.source n)) ∧
      (∀ m, m ≠ n → t.source m = s.source m) ∧ t.source n = { s.source n with gaps := (s.source n).gaps.tail } ∧
      (Tbl.rising s.intake.sources = true → Tbl.rising t.intake.sources = true) := by
  have hopen : (!(s.source n).overflow || decide (s.freePlaces = 0)) = false := by simp [hflag, hfree]
  cases hg : (s.source n).gaps with
  | nil =>
    refine ⟨s, ?_, ?_, fun _ _ => rfl, ?_, id⟩
    · simp only [unflag, hopen, hg, Bool.false_eq_true, if_false]
    · simpa [flaggedOf, hflag, hg] using wrote_nil (s := s) rfl
    · rw [List.tail_nil, ← hg]
  | cons g gs =>
    refine ⟨exportOne n .overflow g s, ?_, ?_, fun m hm => ?_, ?_, exportOne_rising n .overflow g⟩
    · simp only [unflag, hopen, hg, Bool.false_eq_true, if_false]
    · simpa [flaggedOf, hflag, hg] using exportOne_wrote n .overflow g s
    · rw [exportOne_source, if_neg (fun h => hm h.1)]
    · rw [exportOne_source, if_pos ⟨rfl, hfree⟩, hg, List.erase_cons_head, List.tail_cons]

/-- And one that is not flagged, or taken once no place is free, is left. -/
theorem unflag_skips {n : Nat} {s : State} (h : (s.source n).overflow = false ∨ s.freePlaces = 0) : unflag n s = s := by
  have hclosed : (!(s.source n).overflow || decide (s.freePlaces = 0)) = true := by simpa using h
  simp only [unflag, hclosed, if_true]

theorem unflag_visits : Visits unflag flaggedOf unflagged 1 := by
  refine ⟨fun n t m hm => ?_, fun n t h => ?_, fun n t => ?_, fun n t h => ?_⟩ <;>
    by_cases hskip : (t.source n).overflow = false ∨ t.freePlaces = 0
  case pos => rw [unflag_skips hskip]
  case pos => rwa [unflag_skips hskip]
  case pos =>
    rw [unflag_skips hskip]
    rcases hskip with hflag | hfull
    · simpa [flaggedOf, hflag] using wrote_nil (s := t) rfl
    · exact (wrote_nil rfl).of_full ((room_eq_zero_iff t).mpr hfull) _
  case pos =>
    rw [unflag_skips hskip]
    rcases hskip with hflag | hfull
    · simp [unflagged, hflag]
    · have := (room_eq_zero_iff t).mpr hfull
      omega
  all_goals
    rw [not_or, Bool.not_eq_false] at hskip
    obtain ⟨u, hu, hwrote, hothers, hsource, hrises⟩ := unflag_eq hskip.1 hskip.2
    rw [hu]
  · rw [State.setSource_source_ne _ _ _ hm, hothers m hm]
  · exact Tbl.rising_set (hrises h) _ _ _
  · exact hwrote.congr (by simp)
  · rw [State.setSource_source_same, hsource]
    simp [unflagged, hskip.1]

/-- R26 pass 1: the oldest record of every flagged source, each flag cleared while a place is free. -/
theorem unflagSources_spec {s : State} (hr : Tbl.rising s.intake.sources = true) :
    s.wrote (unflagSources s) (flaggedFindings s.intake.sources) ∧
      ((flaggedFindings s.intake.sources).length < s.room → ∀ n, (unflagSources s).source n = unflagged (s.source n)) :=
  unflag_visits.pass rfl hr

/-- R26: the two passes, with room for all that is exported and a place over. -/
theorem ageGaps_unflagSources {h : Nat} {s : State} (hleft : s.leftFrom h) (hle : h ≤ s.ageLine)
    (hr : Tbl.rising s.intake.sources = true) :
    let calm := s.intake.sources.map (fun e => (e.1, unflagged e.2))
    let gone := flaggedFindings s.intake.sources ++ agedFindings calm 0 h ++ agedFindings calm h s.ageLine
    gone.length < s.room → s.wrote (ageGaps (unflagSources s)) gone ∧
      ∀ n, (ageGaps (unflagSources s)).source n = unaged s.ageLine (unflagged (s.source n)) := by
  intro calm gone hroom
  simp only [gone, List.length_append] at hroom
  obtain ⟨hfirst, hsettles⟩ := unflagSources_spec hr
  have hn := hsettles (by omega)
  have hcalm : ∀ n, Tbl.get {} calm n = Tbl.get {} (unflagSources s).intake.sources n := fun n =>
    (get_map_table ({} : SourceEntry) unflagged rfl s.intake.sources n).trans (hn n).symm
  have hrises : Tbl.rising (unflagSources s).intake.sources = true := foldl_rising unflag_visits _ hr
  have haged : ∀ lo hi, agedFindings calm lo hi = agedFindings (unflagSources s).intake.sources lo hi := fun lo hi =>
    agedFindings_congr (Tbl.rising_map hr _) hrises (fun n => by rw [hcalm])
  have hline : (unflagSources s).ageLine = s.ageLine := by simp [State.ageLine, State.today, State.lookback]
  have hleft' : (unflagSources s).leftFrom h := by simpa [State.leftFrom] using hleft
  obtain ⟨hsecond, hsettles'⟩ := ageGaps_spec hleft' (hline ▸ hle) hrises
  rw [haged, haged] at hroom
  rw [hline] at hsecond hsettles'
  refine ⟨?_, fun n => ?_⟩
  · simp only [gone, haged, List.append_assoc]
    exact hfirst.trans hsecond
  · rw [hsettles' (by rw [hfirst.2.2, List.length_append]; omega), hn]

end Sys2Proof.Machine
end

