-- ==== Sys2Proof/Proofs/Acknowledgement.lean ====
section
/-!
PROOFS. Proofs/Acknowledgement.lean: every act on the Findings Log but ACK-FINDINGS writes findings at its end under the next
number, so that what each such writing leaves standing goes on to hold; what ACK-FINDINGS removes and what follows it (O45).
-/

namespace Sys2Proof.Machine
open Sys2Proof

/-- What the writing of a finding under the next number leaves standing of the log. -/
def LogStable (R : List Finding → Nat → Prop) : Prop :=
  ∀ fs n f, R fs n → f.number = n → R (fs ++ [f]) (n + 1)

/-- Such a property holds of the findings and the next number. -/
def logKept (R : List Finding → Nat → Prop) (fs : List Finding) (n : Nat) : Prop := LogStable R ∧ R fs n

section
variable {R : List Finding → Nat → Prop} {s : State}

@[simp] theorem writeFinding_logKept (h : logKept R s.audit.findings s.audit.next) (b : FindingBody) :
    logKept R (writeFinding b s).audit.findings (writeFinding b s).audit.next := by
  simp only [writeFinding]
  split
  · exact h
  · simpa using ⟨h.1, h.1 _ _ _ h.2 rfl⟩

/-! ### The passes over the sources (R25, R26) -/

@[simp] theorem exportOne_logKept (h : logKept R s.audit.findings s.audit.next) (n : Nat) (reason : GapReason)
    (g : GapRecord) : logKept R (exportOne n reason g s).audit.findings (exportOne n reason g s).audit.next := by
  simp only [exportOne]
  split <;> simp [h]

@[simp] theorem ageSource_logKept (h : logKept R s.audit.findings s.audit.next) (line n : Nat) :
    logKept R (ageSource line n s).audit.findings (ageSource line n s).audit.next :=
  foldl_inv (fun t : State => logKept R t.audit.findings t.audit.next) _ (fun _ g ht => exportOne_logKept ht n .aged g) _ _ h

@[simp] theorem ageBefore_logKept (h : logKept R s.audit.findings s.audit.next) (line : Nat) :
    logKept R (ageBefore line s).audit.findings (ageBefore line s).audit.next :=
  foldl_inv (fun t : State => logKept R t.audit.findings t.audit.next) _ (fun _ e ht => ageSource_logKept ht line e.1) _ _ h

@[simp] theorem ageGaps_logKept (h : logKept R s.audit.findings s.audit.next) :
    logKept R (ageGaps s).audit.findings (ageGaps s).audit.next := by
  have hleft := foldl_inv (fun t : State => logKept R t.audit.findings t.audit.next)
    (fun t h => ageBefore (min h s.ageLine) t) (fun _ a ht => ageBefore_logKept ht _) s.intake.ageings s h
  simpa [ageGaps] using ageBefore_logKept hleft s.ageLine

@[simp] theorem unflag_logKept (h : logKept R s.audit.findings s.audit.next) (n : Nat) :
    logKept R (unflag n s).audit.findings (unflag n s).audit.next := by
  simp only [unflag]
  repeat' split
  all_goals simp [h]

@[simp] theorem unflagSources_logKept (h : logKept R s.audit.findings s.audit.next) :
    logKept R (unflagSources s).audit.findings (unflagSources s).audit.next :=
  foldl_inv (fun t : State => logKept R t.audit.findings t.audit.next) _ (fun _ e ht => unflag_logKept ht e.1) _ _ h

/-! ### Audit jobs and APPLY sweeps (R132, R147, R149, R151) -/

@[simp] theorem markBad_logKept (h : logKept R s.audit.findings s.audit.next) (j : Job) (e : Nat) (b : FindingBody) :
    logKept R (markBad j e b s).audit.findings (markBad j e b s).audit.next := by
  simp [markBad, h]

@[simp] theorem judgeSegment_logKept (h : logKept R s.audit.findings s.audit.next) (j : Job) (e : Nat)
    (p : Option Payload) : logKept R (judgeSegment j e p s).audit.findings (judgeSegment j e p s).audit.next := by
  simp only [judgeSegment]
  repeat' split
  all_goals simp [h]

theorem verifyRun_logKept (fuel : Nat) {s : State} (h : logKept R s.audit.findings s.audit.next) :
    logKept R (verifyRun fuel s).audit.findings (verifyRun fuel s).audit.next := by
  induction fuel generalizing s with
  | zero => exact h
  | succ fuel ih =>
    simp only [verifyRun]
    repeat' split
    all_goals simp [State.setJob, h, ih]

@[simp] theorem verifyOn_logKept (h : logKept R s.audit.findings s.audit.next) :
    logKept R (verifyOn s).audit.findings (verifyOn s).audit.next := verifyRun_logKept _ h

@[simp] theorem settleMismatch_logKept (h : logKept R s.audit.findings s.audit.next) (j : Job) (i : Nat)
    (b : FindingBody) : logKept R (settleMismatch j i b s).audit.findings (settleMismatch j i b s).audit.next := by
  simp [settleMismatch, State.setJob, h]

@[simp] theorem settleKey_logKept (h : logKept R s.audit.findings s.audit.next) (j : Job) (i : Nat) :
    logKept R (settleKey j i s).audit.findings (settleKey j i s).audit.next := by
  simp only [settleKey]
  repeat' split
  all_goals simp [State.setJob, h]

@[simp] theorem countKey_logKept (h : logKept R s.audit.findings s.audit.next) (j : Job) (i : Nat) :
    logKept R (countKey j i s).audit.findings (countKey j i s).audit.next := by
  simp only [countKey]
  repeat' split
  all_goals simp [State.setJob, h]

theorem reconcileRun_logKept (fuel : Nat) {s : State} (h : logKept R s.audit.findings s.audit.next) :
    logKept R (reconcileRun fuel s).audit.findings (reconcileRun fuel s).audit.next := by
  induction fuel generalizing s with
  | zero => exact h
  | succ fuel ih =>
    simp only [reconcileRun]
    repeat' split
    all_goals simp [h, ih]

@[simp] theorem jobOn_logKept (h : logKept R s.audit.findings s.audit.next) :
    logKept R (jobOn s).audit.findings (jobOn s).audit.next := reconcileRun_logKept _ (verifyOn_logKept h)

theorem resumeJob_logKept (h : logKept R s.audit.findings s.audit.next) :
    logKept R (resumeJob s).audit.findings (resumeJob s).audit.next := by
  simp only [resumeJob]
  repeat' split
  all_goals simp [h]

theorem resumeSweep_logKept (h : logKept R s.audit.findings s.audit.next) :
    logKept R (resumeSweep s).audit.findings (resumeSweep s).audit.next := by
  have hrun : ∀ k w, logKept R (runOutApply k w s).audit.findings (runOutApply k w s).audit.next := by
    intro k w
    simp only [runOutApply]
    repeat' split
    all_goals simp [h]
  simp only [resumeSweep]
  repeat' split
  all_goals simp [h, hrun]

/-- The use of the places an ACK-FINDINGS frees (R143). -/
theorem freedFirst_logKept (h : logKept R s.audit.findings s.audit.next) (o : AckOrder) :
    logKept R (freedFirst o s).audit.findings (freedFirst o s).audit.next := by
  cases o with
  | intakeFirst => exact h
  | sweepFirst => exact resumeSweep_logKept h
  | jobFirst => exact resumeJob_logKept h
  | sweepThenJob => exact resumeJob_logKept (resumeSweep_logKept h)
  | jobThenSweep => exact resumeSweep_logKept (resumeJob_logKept h)

theorem intakePasses_logKept (h : logKept R s.audit.findings s.audit.next) (n : Nat) :
    logKept R (intakePasses n s).audit.findings (intakePasses n s).audit.next := by
  simp only [intakePasses]
  split <;> simp [h]

end

/-! ### ACK-FINDINGS (R142) -/

/-- Every finding stands above `through`, those of `left` stand, and the next number has not fallen below `next`. -/
def acknowledged (through next : Nat) (left : List Finding) (fs : List Finding) (n : Nat) : Prop :=
  (∀ f ∈ fs, through < f.number) ∧ (∀ f ∈ left, f ∈ fs) ∧ next ≤ n

theorem acknowledged_stable {through next : Nat} (h : through < next) (left : List Finding) :
    LogStable (acknowledged through next left) := by
  intro fs n f hfs hf
  obtain ⟨habove, hleft, hnext⟩ := hfs
  refine ⟨fun g hg => ?_, fun g hg => List.mem_append_left _ (hleft g hg), by omega⟩
  rcases List.mem_append.mp hg with hg | hg
  · exact habove g hg
  · obtain rfl := List.mem_singleton.mp hg
    omega

/-- An ACK-FINDINGS that passes its checks. -/
theorem exec_ackFindings {s : State} {tag through : Nat} (o : AckOrder) (ha : s.admits .b tag = true)
    (harchive : s.cat.archive = .service) (hstate : s.cat.state ≠ .stopped) (hlast : s.cat.last < 4294967295)
    (hthrough : through < s.audit.next) :
    exec (.ackFindings .b tag through o) s =
      .next (transmitBoth (acknowledge (refOf s .b tag 65) through o (taken s .b tag 65))) := by
  have hexec : exec (.ackFindings .b tag through o) s = request .b tag 65 .bOnly (fun r s =>
    checked r (s.serviceChecks ++
        [(decide (s.cat.state ≠ .stopped), .wrongState), (decide (through < s.audit.next), .badField), s.limitCheck])
      (acknowledge r through o) s) s := rfl
  rw [hexec, request_admitted ha 65 rfl, checked_passed]
  rw [firstRefusal_none_iff]
  have hspent : ¬ 4294967295 ≤ s.cat.last := Nat.not_le.mpr hlast
  simp [State.serviceChecks, State.notHalted, State.inService, harchive, hstate, hthrough, State.limitCheck,
    State.numbersSpent, max32, hspent]

/-- A sweep that is not suspended and a job that does not stand take no place freed. -/
theorem freedFirst_none {s : State} (hs : s.ret.suspended = false) (hj : s.audit.job = none) (o : AckOrder) :
    freedFirst o s = s := by
  have hsweep : resumeSweep s = s := by
    unfold resumeSweep
    repeat' split
    all_goals simp_all
  have hjob : resumeJob s = s := by simp only [resumeJob, hj]
  cases o <;> simp [freedFirst, hsweep, hjob]

/-- R26: the passes that follow the removal, with room for all that is exported and a place over. -/
theorem acknowledge_passes {s : State} {through h : Nat} (ht : s.tablesOk = true) (hs : s.ret.suspended = false)
    (hj : s.audit.job = none) (hremoves : ∃ f ∈ s.audit.findings, f.number ≤ through) (hleft : s.leftFrom h)
    (hle : h ≤ s.ageLine) (r : ReqRef) (o : AckOrder) :
    let u := removeFindings through s
    let calm := s.intake.sources.map (fun e => (e.1, unflagged e.2))
    let gone := flaggedFindings s.intake.sources ++ agedFindings calm 0 h ++ agedFindings calm h s.ageLine
    gone.length < u.room → u.wrote (acknowledge r through o s) gone ∧
      ∀ n, (acknowledge r through o s).source n = unaged s.ageLine (unflagged (s.source n)) := by
  intro u calm gone hroom
  have hcount : s.removedBy through ≠ 0 := by
    obtain ⟨f, hf, hlt⟩ := hremoves
    exact Nat.ne_of_gt (List.length_pos_of_mem (List.mem_filter.mpr ⟨hf, decide_eq_true hlt⟩))
  have hack : acknowledge r through o s =
      triggerFor r (count4 (s.removedBy through)) [] (ageGaps (unflagSources u)) := by
    rw [acknowledge, freedFirst_none (s := removeFindings through s) hs hj, intakePasses, if_neg hcount]
  obtain ⟨hwrote, hsettled⟩ := ageGaps_unflagSources (s := u) hleft hle (sources_rising_of_tablesOk (s := u) ht) hroom
  rw [hack]
  refine ⟨hwrote.congr (by simp), fun n => ?_⟩
  have hsource : ∀ (v : State) (a b : List Byte), (triggerFor r a b v).source n = v.source n := fun v a b => by
    simp [State.source]
  rw [hsource]
  exact hsettled n

/-- Settles O45: what stands above the number goes on to stand, and with room for all the passes write what is owed. -/
theorem acknowledgedFindingsLeave : Obligations.AcknowledgedFindingsLeave := by
  intro tag through o s ha harchive hstate hlast hthrough
  have hexec := exec_ackFindings o ha harchive hstate hlast hthrough
  refine ⟨⟨_, hexec, ?_⟩, ?_⟩
  · have hremoved : logKept (acknowledged through s.audit.next (s.audit.findings.filter (fun f => decide (through < f.number))))
        (removeFindings through (taken s .b tag 65)).audit.findings
        (removeFindings through (taken s .b tag 65)).audit.next :=
      ⟨acknowledged_stable hthrough _, fun f hf => of_decide_eq_true (List.mem_filter.mp hf).2, fun _ hf => hf, le_rfl⟩
    have hend := intakePasses_logKept (freedFirst_logKept hremoved o) ((taken s .b tag 65).removedBy through)
    obtain ⟨-, habove, hleft, hnext⟩ := hend
    simp only [transmitBoth_keeps, acknowledge, triggerFor_keeps]
    exact ⟨habove, fun f hf hlt => hleft f (List.mem_filter.mpr ⟨hf, decide_eq_true hlt⟩), hnext⟩
  · intro htables hsuspended hjob hremoves h hleft hle left calm gone hroom
    have htaken : (taken s .b tag 65).tablesOk = true := htables
    have hspace : gone.length < (removeFindings through (taken s .b tag 65)).room := by
      have hnext : ¬ 4294967296 ≤ s.audit.next := by omega
      have hfree : (removeFindings through (taken s .b tag 65)).freePlaces = 512 - left.length := if_neg hnext
      rw [State.room, hfree]
      exact hroom
    obtain ⟨hwrote, hsettled⟩ := acknowledge_passes (s := taken s .b tag 65) htaken hsuspended hjob hremoves hleft hle
      (refOf s .b tag 65) o hspace
    obtain ⟨hbody, hnext⟩ := hwrote.all hspace.le
    exact ⟨_, hexec, hbody, hnext, hsettled⟩

end Sys2Proof.Machine
end

