-- ==== Sys2Proof/Proofs/DayAdvance.lean ====
section
/-!
PROOFS. Proofs/DayAdvance.lean: the closes of builders that a condition names, taken in builder-number order while compaction
runs; what ADVANCE-DAY makes of the day, of the tally, of the gap records and of the builders of earlier days (O38).
-/

namespace Sys2Proof.Machine
open Sys2Proof

/-! ### Closing the builders that a condition names (R71, R72) -/

/-- A builder that is FILLING and named. -/
def filledAnd (p : Builder → Bool) (v : Builder) : Bool := decide (v.phase = .filling) && p v

/-- A builder as its close begins. -/
def closingBuilder (v : Builder) : Builder := { v with phase := .closing, failures := 0 }

/-- One builder's turn among the closes. -/
def closeOne (p : Builder → Bool) (t : State) (b : Nat) : State :=
  if t.compacting && decide ((t.builder b).phase = .filling) && p (t.builder b) then beginClose b t else t

theorem closeBuilders_foldl (p : Builder → Bool) (s : State) :
    closeBuilders p s = (List.range 32).foldl (closeOne p) s := rfl

section
variable {p : Builder → Bool} {s : State}

theorem filledAnd_iff (v : Builder) : filledAnd p v = true ↔ v.phase = .filling ∧ p v = true := by simp [filledAnd]

theorem closeOne_begins {b : Nat} (hc : s.compacting = true) (h : filledAnd p (s.builder b) = true) :
    closeOne p s b = beginClose b s := by
  obtain ⟨hf, hp⟩ := (filledAnd_iff _).mp h
  simp [closeOne, hc, hf, hp]

theorem closeOne_spares {b : Nat} (h : filledAnd p (s.builder b) = false) : closeOne p s b = s := by
  have hn : (s.compacting && decide ((s.builder b).phase = .filling) && p (s.builder b)) = false := by
    rw [Bool.and_assoc]
    exact Bool.and_eq_false_iff.mpr (Or.inr h)
  simp [closeOne, hn]

theorem closeOne_stopped (h : s.comp.stopped = true) (b : Nat) : closeOne p s b = s := by
  simp [closeOne, State.compacting, h]

theorem closeOne_builder_ne {b i : Nat} (h : i ≠ b) : (closeOne p s b).builder i = s.builder i := by
  unfold closeOne
  split
  · rw [beginClose_builder, if_neg h]
  · rfl

theorem closeOne_compacting {b : Nat} (hc : s.compacting = true) (hu : (closeOne p s b).comp.stopped = false) :
    (closeOne p s b).compacting = true := by
  by_cases h : filledAnd p (s.builder b) = true
  · rw [closeOne_begins hc h] at hu ⊢
    exact (beginClose_worksOn b hc).running hc hu
  · rw [closeOne_spares (Bool.not_eq_true _ ▸ h)]
    exact hc

/-- A fold every step of which leaves its start. -/
theorem foldl_fixed_mem {α β : Type} (f : α → β → α) {a : α} {l : List β} (h : ∀ b ∈ l, f a b = a) : l.foldl f a = a := by
  induction l with
  | nil => rfl
  | cons b l ih =>
    rw [List.foldl_cons, h b (by simp)]
    exact ih (fun c hc => h c (List.mem_cons_of_mem b hc))

/-- A builder that is not to be closed stays as it is. -/
theorem closeOne_foldl_spares {b : Nat} (l : List Nat) (h : filledAnd p (s.builder b) = false) :
    (l.foldl (closeOne p) s).builder b = s.builder b := by
  refine foldl_inv (fun t : State => t.builder b = s.builder b) _ (fun t c ht => ?_) l s rfl
  by_cases hb : b = c
  · subst hb
    rw [closeOne_spares (by rw [ht]; exact h), ht]
  · rw [closeOne_builder_ne hb, ht]

/-- Whatever builder is still FILLING is as it was. -/
theorem closeBuilders_keeps_filling {b : Nat} (h : ((closeBuilders p s).builder b).phase = .filling) :
    (closeBuilders p s).builder b = s.builder b := by
  have hclosed : (closeBuilders p s).builder b = s.builder b ∨ ((closeBuilders p s).builder b).phase = .closing := by
    refine foldl_inv (fun t : State => t.builder b = s.builder b ∨ (t.builder b).phase = .closing) _ (fun t c ht => ?_) _ s
      (Or.inl rfl)
    split
    · rw [beginClose_builder]
      split
      · exact Or.inr rfl
      · exact ht
    · exact ht
  refine hclosed.resolve_right (fun hn => ?_)
  rw [h] at hn
  cases hn

/-- Where compaction still runs at the end, every builder named that was FILLING has been closed. -/
theorem closeOne_foldl_closes {b : Nat} {l : List Nat} (hc : s.compacting = true)
    (hend : (l.foldl (closeOne p) s).comp.stopped = false) (hb : b ∈ l) (h : filledAnd p (s.builder b) = true) :
    (l.foldl (closeOne p) s).builder b = closingBuilder (s.builder b) := by
  induction l generalizing s with
  | nil => exact absurd hb List.not_mem_nil
  | cons a l ih =>
    rw [List.foldl_cons] at hend ⊢
    have hruns : (closeOne p s a).comp.stopped = false := by
      rw [← Bool.not_eq_true]
      intro hs
      rw [foldl_fixed_mem _ (fun c _ => closeOne_stopped hs c), hs] at hend
      cases hend
    by_cases hab : b = a
    · subst hab
      have hclosed : (closeOne p s b).builder b = closingBuilder (s.builder b) := by
        rw [closeOne_begins hc h, beginClose_builder, if_pos rfl]
        rfl
      rw [closeOne_foldl_spares l (by rw [hclosed]; rfl), hclosed]
    · rw [ih (closeOne_compacting hc hruns) hend ((List.mem_cons.mp hb).resolve_left hab)
        (by rw [closeOne_builder_ne hab]; exact h), closeOne_builder_ne hab]

/-- The closes begin with builder `b`, none before it being named, and end there, where its close leaves none. -/
theorem closeBuilders_first {b : Nat} (hb : b < 32) (hc : s.compacting = true)
    (hbefore : ∀ i, i < b → filledAnd p (s.builder i) = false) (h : filledAnd p (s.builder b) = true)
    (hafter : ∀ i, b < i → closeOne p (beginClose b s) i = beginClose b s) : closeBuilders p s = beginClose b s := by
  have hrange : List.range 32 = List.range b ++ b :: List.range' (b + 1) (31 - b) := by
    rw [List.range_eq_range', List.range_eq_range', ← List.range'_succ, show 31 - b + 1 = 32 - b by omega]
    have hsplit := List.range'_append_1 (s := 0) (m := b) (n := 32 - b)
    rw [Nat.zero_add, show b + (32 - b) = 32 by omega] at hsplit
    exact hsplit.symm
  rw [closeBuilders_foldl, hrange, List.foldl_append,
    foldl_fixed_mem _ (fun i hi => closeOne_spares (hbefore i (List.mem_range.mp hi))), List.foldl_cons,
    closeOne_begins hc h, foldl_fixed_mem _ (fun i hi => hafter i (List.mem_range'_1.mp hi).1)]

theorem closeBuilders_rising (h : Tbl.rising s.comp.builders = true) :
    Tbl.rising (closeBuilders p s).comp.builders = true := by
  rw [closeBuilders_foldl]
  refine foldl_inv (fun t : State => Tbl.rising t.comp.builders = true) _ (fun t b ht => ?_) _ s h
  unfold closeOne
  split
  · have hset : (beginClose b t).comp.builders =
        (t.setBuilder b { t.builder b with phase := .closing, failures := 0 }).comp.builders := by simp [beginClose]
    rw [hset]
    exact Tbl.rising_set (α := Builder) ht {} b (closingBuilder (t.builder b))
  · exact ht

end

/-! ### The running of compaction, with no opening pending -/

theorem resolveOpening_none {s : State} (h : s.comp.opening = none) : resolveOpening s = s := by
  simp [resolveOpening, h]

/-- A builder that is not FILLING stays so, and one still FILLING is as it was. -/
theorem runCompaction_builder {s : State} (h : s.comp.opening = none) (b : Nat) :
    ((s.builder b).phase ≠ .filling → (runCompaction s).builder b = s.builder b) ∧
      (((runCompaction s).builder b).phase = .filling → (runCompaction s).builder b = s.builder b) := by
  have hdropped : resolveOpening (dropFinished s) = dropFinished s := resolveOpening_none (by simpa using h)
  have hsame : (dropFinished s).builder b = s.builder b := by simp [State.builder]
  have hcomplete : ∀ t : State, (drainComplete t).builder b = t.builder b := fun t => by simp [State.builder]
  unfold runCompaction
  split
  · rw [hdropped, hcomplete, drainCloses]
    split
    · exact ⟨fun hn => (closeBuilders_spares _ _ b (by rw [hsame]; exact hn)).trans hsame,
        fun hf => (closeBuilders_keeps_filling hf).trans hsame⟩
    · exact ⟨fun _ => hsame, fun _ => hsame⟩
  · exact ⟨fun _ => rfl, fun _ => rfl⟩

theorem runCompaction_stopped {s : State} (h : s.comp.stopped = true) : runCompaction s = s := by
  simp [runCompaction, State.compacting, h]

/-- With a builder in use and none FILLING, at most finished files leave. -/
theorem runCompaction_drops {s : State} (ho : s.comp.opening = none) (hb : s.comp.builders ≠ [])
    (hn : ∀ b, (s.builder b).phase ≠ .filling) :
    (runCompaction s).comp.builders = s.comp.builders ∧ (runCompaction s).media = s.media := by
  unfold runCompaction
  split
  · have hopening : resolveOpening (dropFinished s) = dropFinished s := resolveOpening_none (by simpa using ho)
    have hdrain : drainCloses (dropFinished s) = dropFinished s := by
      unfold drainCloses
      split
      · exact closeBuilders_eq (fun b _ => by simpa [State.builder] using hn b)
      · rfl
    have hcomplete : drainComplete (dropFinished s) = dropFinished s := by
      simp [drainComplete, State.drained, hb]
    rw [hopening, hdrain, hcomplete]
    simp
  · exact ⟨rfl, rfl⟩

/-! ### The Day Tally (R55) -/

/-- A tally entry that is CLOSED, with no file in flight. -/
def settledTally (i : Nat) (z : TallyEntry) (u : IntakeUnit) : Prop :=
  Tbl.find u.tally i = some z ∧ z.state = .closed ∧ z.inFlight = 0

/-- Such an entry stands whatever leaves the intake. -/
theorem settledTally_stable (i : Nat) (z : TallyEntry) : IntakeStable (settledTally i z) := by
  have hleave : ∀ n d s, settledTally i z s.intake → settledTally i z (leaveFlight n d s).intake := by
    intro n d s h
    obtain ⟨hfind, hstate, hflight⟩ := h
    refine ⟨?_, hstate, hflight⟩
    by_cases hi : i = tallyIndex n d
    · subst hi
      have hleft : leftEntry s.today s.lookback d z = z := by
        have hz : ({ z with inFlight := z.inFlight - 1 } : TallyEntry) = z := by rw [hflight, Nat.zero_sub, ← hflight]
        rw [leftEntry, hz, closingTest, if_neg (by rw [hstate]; simp)]
      have htally : (leaveFlight n d s).tallyEntry n d = some z := by
        rw [leaveFlight_tallyEntry, State.tallyEntry, hfind, Option.map_some, hleft]
      exact htally
    · rw [leaveFlight_others n d s i hi, hfind]
  exact ⟨fun k s h => hleave _ _ _ h, hleave, fun _ _ h => h⟩

/-- A table changed entry by entry. -/
theorem find_map_entries {α : Type} (f : Nat → α → α) (t : Tbl α) (i : Nat) :
    Tbl.find (t.map (fun e => (e.1, f e.1 e.2))) i = (Tbl.find t i).map (f i) := by
  induction t with
  | nil => rfl
  | cons e t ih =>
    by_cases h : e.1 = i
    · subst h
      simp [Tbl.find]
    · simpa [Tbl.find, h] using ih

theorem tallyDay_tallyIndex {n : Nat} (hn : n < 1024) (d : Nat) : tallyDay (tallyIndex n d) = d := by
  simp only [tallyDay, tallyIndex, Config.sources]
  omega

theorem closeTallies_tallyEntry {n : Nat} (hn : n < 1024) (d : Nat) (s : State) :
    (closeTallies s).tallyEntry n d = (s.tallyEntry n d).map (closingTest s.today s.lookback d) := by
  have hfind := find_map_entries (fun i => closingTest s.today s.lookback (tallyDay i)) s.intake.tally (tallyIndex n d)
  rw [tallyDay_tallyIndex hn] at hfind
  exact hfind

/-! ### The beginning of the day (R103) -/

/-- The new day, its gap records aged and its tally tested: builders, compaction and sweep follow. -/
def dayBegun (s : State) : State := closeTallies (ageGaps { s with ret := { s.ret with today := s.ret.today + 1 } })

theorem advance_eq (r : ReqRef) (s : State) :
    advance r s = pushSweep .day [r] (runCompaction (closeOldBuilders (dayBegun s))) := rfl

theorem dayBegun_keeps (s : State) :
    (dayBegun s).ret = { s.ret with today := s.ret.today + 1 } ∧ (dayBegun s).cursors = s.cursors ∧
      (dayBegun s).comp = s.comp ∧ (dayBegun s).media = s.media ∧ (dayBegun s).cat = s.cat ∧
      (dayBegun s).fault = s.fault := by
  simp [dayBegun]

theorem dayBegun_builder (s : State) (b : Nat) : (dayBegun s).builder b = s.builder b := by
  simp [State.builder, dayBegun_keeps]

theorem pushSweep_day_ret (rs : List ReqRef) (s : State) :
    (pushSweep .day rs s).ret = { s.ret with sweeps := s.ret.sweeps ++ [{ kind := .day, reqs := rs }] } := by
  unfold pushSweep
  split
  · rename_i hempty
    rw [List.isEmpty_iff] at hempty
    simp [beginHead, State.setSweeps, hempty]
  · rfl

/-- The days, the sweep and the classes. -/
theorem advance_ret (r : ReqRef) (s : State) : (advance r s).ret =
    { s.ret with today := s.ret.today + 1, sweeps := s.ret.sweeps ++ [{ kind := .day, reqs := [r] }] } := by
  have hclosed : ∀ t, (closeOldBuilders t).ret = t.ret := fun t => by simp [closeOldBuilders, closeBuilders_ret]
  rw [advance_eq, pushSweep_day_ret, runCompaction_ret, hclosed, (dayBegun_keeps s).1]

theorem dayBegun_closes {n d : Nat} {y : TallyEntry} {s : State} (hn : n < 1024) (hy : s.tallyEntry n d = some y)
    (hstate : y.state = .opened) (hday : d + s.lookback < s.ret.today + 1) (hflight : y.inFlight = 0) :
    (dayBegun s).tallyEntry n d = some { y with state := .closed } := by
  obtain ⟨u, hu⟩ : ∃ u, u = ageGaps { s with ret := { s.ret with today := s.ret.today + 1 } } := ⟨_, rfl⟩
  have htally : u.tallyEntry n d = some y := by rw [← hy, hu]; simp [State.tallyEntry]
  have htoday : u.today = s.ret.today + 1 := by rw [hu]; simp [State.today]
  have hlookback : u.lookback = s.lookback := by rw [hu]; simp [State.lookback]
  rw [dayBegun, ← hu, closeTallies_tallyEntry hn, htally, htoday, hlookback, Option.map_some, closingTest,
    if_pos ⟨hstate, hday, hflight⟩]

/-- An entry past the lookback that is idle is CLOSED, and remains so. -/
theorem advance_closes_tally (r : ReqRef) {n d : Nat} {y : TallyEntry} {s : State} (hn : n < 1024)
    (hy : s.tallyEntry n d = some y) (hstate : y.state = .opened) (hday : d + s.lookback < s.ret.today + 1)
    (hflight : y.inFlight = 0) : (advance r s).tallyEntry n d = some { y with state := .closed } := by
  have hbegun : kept (settledTally (tallyIndex n d) { y with state := .closed }) (dayBegun s).intake :=
    ⟨settledTally_stable _ _, dayBegun_closes hn hy hstate hday hflight, rfl, hflight⟩
  obtain ⟨-, hfind, -⟩ := runCompaction_kept (closeOldBuilders_kept hbegun)
  rw [advance_eq, State.tallyEntry, (pushSweep_keeps ..).2.2.2.2.1]
  exact hfind

/-- What ageing to the new day writes, and leaves of the sources. -/
theorem advance_ages (r : ReqRef) {h : Nat} {s : State} (hleft : s.leftFrom h) (hle : h ≤ s.ret.today + 1 - s.lookback)
    (hr : Tbl.rising s.intake.sources = true) :
    let line := s.ret.today + 1 - s.lookback
    let aged := agedFindings s.intake.sources 0 h ++ agedFindings s.intake.sources h line
    s.wrote (advance r s) aged ∧ (aged.length ≤ s.room → ∀ n, (advance r s).source n = unaged line (s.source n)) := by
  intro line aged
  obtain ⟨hwrote, hsettles⟩ := ageGaps_spec (s := { s with ret := { s.ret with today := s.ret.today + 1 } }) hleft hle hr
  refine ⟨State.wrote.congr hwrote (by simp [advance_eq, dayBegun]), fun hroom n => ?_⟩
  refine Eq.trans ?_ (hsettles hroom n)
  simp [State.source, advance_eq, dayBegun]

/-! ### The builders of earlier days (R71) -/

theorem hasOldBuilder_iff {s : State} (hr : Tbl.rising s.comp.builders = true) :
    s.hasOldBuilder = true ↔ ∃ b, (s.builder b).phase = .filling ∧ (s.builder b).day < s.today := by
  simp only [State.hasOldBuilder, List.any_eq_true, Bool.and_eq_true, decide_eq_true_eq]
  constructor
  · rintro ⟨⟨b, v⟩, hm, hf, hd⟩
    have hv : s.builder b = v := by rw [State.builder, Tbl.get, Tbl.find_of_mem hr hm, Option.getD_some]
    exact ⟨b, by rw [hv]; exact hf, by rw [hv]; exact hd⟩
  · rintro ⟨b, hf, hd⟩
    cases hfind : Tbl.find s.comp.builders b with
    | none =>
      simp only [State.builder, Tbl.get, hfind, Option.getD_none] at hf
      cases hf
    | some v =>
      have hv : s.builder b = v := by rw [State.builder, Tbl.get, hfind, Option.getD_some]
      exact ⟨(b, v), Tbl.mem_of_find hfind, hv ▸ hf, hv ▸ hd⟩

/-- The builders named as a day begins. -/
def ofEarlierDay (today : Nat) (v : Builder) : Bool := decide (v.day < today)

theorem closeOldBuilders_eq (s : State) : closeOldBuilders s = noteCloses (closeBuilders (ofEarlierDay s.today) s) := rfl

theorem closeOldBuilders_builder (s : State) (b : Nat) :
    (closeOldBuilders s).builder b = (closeBuilders (ofEarlierDay s.today) s).builder b := by
  simp [closeOldBuilders_eq, State.builder]

/-- Where compaction runs on, they are closed and none is owed; where it stops, those still FILLING are owed. -/
theorem closeOldBuilders_spec {s : State} (hc : s.compacting = true) (hr : Tbl.rising s.comp.builders = true)
    (hb : ∀ e ∈ s.comp.builders, e.1 < 32) :
    ((closeOldBuilders s).comp.stopped = false → (closeOldBuilders s).comp.closesOwed = false ∧
      ∀ b, (s.builder b).phase = .filling → (s.builder b).day < s.today →
        (closeOldBuilders s).builder b = closingBuilder (s.builder b)) ∧
    ((closeOldBuilders s).comp.stopped = true → ((closeOldBuilders s).comp.closesOwed = true ↔
      ∃ b, ((closeOldBuilders s).builder b).phase = .filling ∧ ((closeOldBuilders s).builder b).day < s.today)) := by
  obtain ⟨u, hu⟩ : ∃ u, u = closeBuilders (ofEarlierDay s.today) s := ⟨_, rfl⟩
  have htoday : u.today = s.today := by simp [hu, State.today]
  have howed : (closeOldBuilders s).comp.closesOwed = (!u.compacting && u.hasOldBuilder) := by
    rw [closeOldBuilders_eq, ← hu]
    rfl
  have hstopped : (closeOldBuilders s).comp.stopped = u.comp.stopped := by
    rw [closeOldBuilders_eq, ← hu]
    rfl
  simp only [closeOldBuilders_builder, ← hu, howed, hstopped]
  constructor
  · intro hruns
    have hcompacting : u.compacting = true := by
      rw [hu] at hruns ⊢
      exact (closeBuilders_worksOn _ hc).running hc hruns
    refine ⟨by simp [hcompacting], fun b hf hd => ?_⟩
    have hlow : b < 32 := by
      cases hfind : Tbl.find s.comp.builders b with
      | none =>
        simp only [State.builder, Tbl.get, hfind, Option.getD_none] at hf
        cases hf
      | some v => exact hb _ (Tbl.mem_of_find hfind)
    rw [hu, closeBuilders_foldl] at hruns ⊢
    exact closeOne_foldl_closes hc hruns (List.mem_range.mpr hlow)
      ((filledAnd_iff _).mpr ⟨hf, decide_eq_true hd⟩)
  · intro hs
    have hidle : u.compacting = false := by simp [State.compacting, hs]
    rw [hidle, Bool.not_false, Bool.true_and, hasOldBuilder_iff (by rw [hu]; exact closeBuilders_rising hr), htoday]

/-- R71: at the end of the command, compaction running, they are closed; compaction STOPPED, those still FILLING are owed. -/
theorem advance_builders (r : ReqRef) {s : State} (hc : s.compacting = true) (ho : s.comp.opening = none)
    (hr : Tbl.rising s.comp.builders = true) (hb : ∀ e ∈ s.comp.builders, e.1 < 32) :
    ((advance r s).comp.stopped = false → ∀ b, (s.builder b).phase = .filling → (s.builder b).day < s.ret.today + 1 →
      (advance r s).builder b = closingBuilder (s.builder b)) ∧
    ((advance r s).comp.stopped = true → ((advance r s).comp.closesOwed = true ↔
      ∃ b, ((advance r s).builder b).phase = .filling ∧ ((advance r s).builder b).day < s.ret.today + 1)) := by
  obtain ⟨hret, -, hcomp, -, hcat, -⟩ := dayBegun_keeps s
  obtain ⟨hruns, hstops⟩ := closeOldBuilders_spec (s := dayBegun s)
    (by rw [compacting_congr (s := s) (by rw [hcat]) (by rw [hcomp])]; exact hc) (by rw [hcomp]; exact hr)
    (by rw [hcomp]; exact hb)
  have htoday : (dayBegun s).today = s.ret.today + 1 := by rw [State.today, hret]
  simp only [dayBegun_builder, htoday] at hruns hstops
  obtain ⟨w, hw⟩ : ∃ w, w = closeOldBuilders (dayBegun s) := ⟨_, rfl⟩
  have hopening : w.comp.opening = none := by simp [hw, hcomp, ho]
  have hbuilder : ∀ b, (advance r s).builder b = (runCompaction w).builder b := fun b => by
    simp [advance_eq, hw, State.builder]
  have hadvanced : (advance r s).comp = (runCompaction w).comp := by simp [advance_eq, hw]
  rw [← hw] at hruns hstops
  simp only [hbuilder, hadvanced]
  cases hs : w.comp.stopped with
  | true =>
    rw [runCompaction_stopped hs]
    exact ⟨fun h => absurd (hs.symm.trans h) (by simp), fun _ => hstops hs⟩
  | false =>
    obtain ⟨hnone, hclosed⟩ := hruns hs
    refine ⟨fun _ b hf hd => ?_, fun _ => ?_⟩
    · rw [(runCompaction_builder hopening b).1 (by rw [hclosed b hf hd]; simp [closingBuilder]), hclosed b hf hd]
    · have howed : (runCompaction w).comp.closesOwed = false := by simp [hnone]
      rw [howed]
      refine ⟨fun h => (Bool.false_ne_true h).elim, fun ⟨b, hf, hd⟩ => ?_⟩
      have hstands := (runCompaction_builder hopening b).2 hf
      rw [hstands] at hf hd
      have hsame : w.builder b = s.builder b := by
        rw [hw, closeOldBuilders_builder] at hf ⊢
        rw [closeBuilders_keeps_filling hf, dayBegun_builder]
      rw [hclosed b (hsame ▸ hf) (hsame ▸ hd)] at hf
      cases hf

/-! ### One builder of an earlier day, and two -/

theorem builder_cons {s : State} {b : Nat} {v : Builder} {l : Tbl Builder} (h : s.comp.builders = (b, v) :: l) :
    s.builder b = v := by
  rw [State.builder, h, get_cons_same]

theorem builder_single {s : State} {b i : Nat} {v : Builder} (h : s.comp.builders = [(b, v)]) (hi : i ≠ b) :
    s.builder i = {} := by
  rw [State.builder, h, get_cons_ne _ (Ne.symm hi), Tbl.get_nil]

/-- What a close begun shows is of builders and media alone. -/
theorem closeBegan_congr {s t t' : State} {b : Nat} {k : SlotRef} (h : s.closeBegan t b k)
    (hb : t'.comp.builders = t.comp.builders) (hm : t'.media = t.media) : s.closeBegan t' b k := by
  simpa only [State.closeBegan, State.builder, State.entry, State.slotState, State.channel, State.asked, hb, hm] using h

/-- Ageing leaves a source's class. -/
theorem ageGaps_cls (s : State) (n : Nat) : ((ageGaps s).source n).cls = (s.source n).cls := by
  have hone : ∀ m g (t : State), ((exportOne m .aged g t).source n).cls = (t.source n).cls := by
    intro m g t
    rw [exportOne_source]
    split
    · rename_i h
      rw [h.1]
    · rfl
  have hsource : ∀ line m (t : State), ((ageSource line m t).source n).cls = (t.source n).cls := fun line m t =>
    foldl_inv (fun u : State => (u.source n).cls = (t.source n).cls) _ (fun u g hu => (hone m g u).trans hu) _ t rfl
  have hbefore : ∀ line (t : State), ((ageBefore line t).source n).cls = (t.source n).cls := fun line t =>
    foldl_inv (fun u : State => (u.source n).cls = (t.source n).cls) _ (fun u e hu => (hsource line e.1 u).trans hu) _ t rfl
  have hkept : ∀ line (t : State), (keepAgeing line t).source n = t.source n := fun line t => by simp [State.source]
  have hleft := foldl_inv (fun u : State => (u.source n).cls = (s.source n).cls)
    (fun t h => ageBefore (min h s.ageLine) t) (fun u h hu => (hbefore _ u).trans hu) s.intake.ageings s rfl
  simpa only [ageGaps, hkept, hbefore] using hleft

/-- A close begun in the new day is one begun from the state before it. -/
theorem closeBegan_of_dayBegun {s t : State} {b : Nat} {k : SlotRef} (h : (dayBegun s).closeBegan t b k) :
    s.closeBegan t b k := by
  obtain ⟨hret, -, hcomp, hmedia, -, -⟩ := dayBegun_keeps s
  have hcls : ∀ n, ((dayBegun s).source n).cls = (s.source n).cls := fun n => by
    have hsource : (dayBegun s).source n =
        (ageGaps { s with ret := { s.ret with today := s.ret.today + 1 } }).source n := by simp [dayBegun, State.source]
    rw [hsource, ageGaps_cls]
    rfl
  have hcovering : ∀ n d, (dayBegun s).holdsCovering n d = s.holdsCovering n d := fun n d => by
    unfold State.holdsCovering State.hold
    rw [hret]
  have hclass : ∀ c, (dayBegun s).retClass c = s.retClass c := fun c => by simp only [State.retClass, hret]
  have hentry : ∀ n, (dayBegun s).entry n = s.entry n := fun n => by simp only [State.entry, hmedia]
  simpa only [State.closeBegan, State.closingEntry, dayBegun_builder, hentry, hcls, hclass, hcovering] using h

section
variable {s : State} {b : Nat} {v : Builder} {l : Tbl Builder}

theorem dayBegun_compacting (s : State) : (dayBegun s).compacting = s.compacting := by
  obtain ⟨-, -, hcomp, -, hcat, -⟩ := dayBegun_keeps s
  exact compacting_congr (by rw [hcat]) (by rw [hcomp])

/-- The builder of an earlier day is one named. -/
theorem dayBegun_names (hl : s.comp.builders = (b, v) :: l) (hf : v.phase = .filling) (hd : v.day < s.ret.today + 1) :
    filledAnd (ofEarlierDay (dayBegun s).today) ((dayBegun s).builder b) = true := by
  rw [dayBegun_builder, builder_cons hl, filledAnd_iff, State.today, (dayBegun_keeps s).1]
  exact ⟨hf, decide_eq_true hd⟩

/-- R71: the one builder in use, of an earlier day, is closed and given its slot; nothing after that touches it. -/
theorem advance_single (r : ReqRef) {k : SlotRef} (hc : s.compacting = true) (ho : s.comp.opening = none) (hb : b < 32)
    (hl : s.comp.builders = [(b, v)]) (hf : v.phase = .filling) (hd : v.day < s.ret.today + 1)
    (hk : s.pickSlot none = some k) : s.closeBegan (advance r s) b k := by
  obtain ⟨-, -, hcomp, hmedia, -, -⟩ := dayBegun_keeps s
  obtain ⟨w, hw⟩ : ∃ w, w = beginClose b (dayBegun s) := ⟨_, rfl⟩
  have hpick : (dayBegun s).pickSlot none = some k := by
    rw [← hk]
    simp only [State.pickSlot, State.channel, hmedia]
  have hbegan : (dayBegun s).closeBegan w b k := hw ▸ beginClose_slot hpick
  have hfree : ∀ i, i ≠ b → (dayBegun s).builder i = {} := fun i hi => by
    rw [dayBegun_builder, builder_single hl hi]
  have hbuilder : ∀ i, w.builder i = if i = b then closingBuilder v else {} := by
    intro i
    rw [hw, beginClose_builder, dayBegun_builder s b, builder_cons hl]
    split
    · rfl
    · rename_i hi
      exact hfree i hi
  have hclosed : closeBuilders (ofEarlierDay (dayBegun s).today) (dayBegun s) = w := by
    rw [hw]
    refine closeBuilders_first hb ((dayBegun_compacting s).trans hc) (fun i hi => ?_) (dayBegun_names hl hf hd)
      (fun i hi => closeOne_spares ?_)
    · rw [hfree i (Nat.ne_of_lt hi)]
      rfl
    · rw [← hw, hbuilder, if_neg (Nat.ne_of_gt hi)]
      rfl
  have hold : closeOldBuilders (dayBegun s) = noteCloses w := by rw [closeOldBuilders_eq, hclosed]
  have hnoted : ∀ i, (noteCloses w).builder i = w.builder i := fun i => by simp [State.builder]
  have hbuilders : (noteCloses w).comp.builders ≠ [] := by
    intro hnil
    have hvb : (noteCloses w).builder b = closingBuilder v := by rw [hnoted, hbuilder, if_pos rfl]
    rw [State.builder, hnil] at hvb
    exact absurd (congrArg Builder.phase hvb) (by simp [closingBuilder])
  obtain ⟨hruns, hmedia'⟩ := runCompaction_drops (s := noteCloses w) (by simp [hw, hcomp, ho]) hbuilders (fun i => by
    rw [hnoted, hbuilder]
    split <;> simp [closingBuilder])
  refine closeBegan_congr (closeBegan_of_dayBegun hbegan) ?_ ?_
  · simp [advance_eq, hold, hruns]
  · simp [advance_eq, hold, hmedia']

/-- R71, R91: of two, the first finds no slot and stops compaction, so that the close of the second is owed. -/
theorem advance_exhausts (r : ReqRef) {d : Nat} {u : Builder} (hc : s.compacting = true) (hbd : b < d) (hd32 : d < 32)
    (hl : s.comp.builders = [(b, v), (d, u)]) (hv : v.phase = .filling) (hu : u.phase = .filling)
    (hvd : v.day < s.ret.today + 1) (hud : u.day < s.ret.today + 1) (hk : s.pickSlot none = none)
    (hclean : s.willBecomeClean = false) (hheld : s.fault.general.isHeld = false) :
    (advance r s).builder b = closingBuilder v ∧ (advance r s).builder d = u ∧ (advance r s).comp.stopped = true ∧
      (advance r s).comp.closesOwed = true ∧
      (advance r s).fault.general =
        .held s.fault.counter { kind := .spaceExhausted, segment := some v.entry } := by
  obtain ⟨hret, -, hcomp, hmedia, hcat, hfault⟩ := dayBegun_keeps s
  obtain ⟨hservice, -⟩ := (compacting_iff s).mp hc
  obtain ⟨w, hw⟩ : ∃ w, w = beginClose b (dayBegun s) := ⟨_, rfl⟩
  obtain ⟨-, hstopped, hgeneral⟩ := beginClose_exhausts (b := b) (s := dayBegun s)
    (by rw [← hk]; simp only [State.pickSlot, State.channel, hmedia])
    (by rw [← hclean]; unfold State.willBecomeClean State.slotOn State.channel; rw [hmedia])
    (by rw [hcat]; exact hservice) (by rw [hfault]; exact hheld)
  rw [dayBegun_builder, builder_cons hl, hfault, ← hw] at hgeneral
  rw [← hw] at hstopped
  have hd : s.builder d = u := by
    rw [State.builder, hl, get_cons_ne _ (Nat.ne_of_lt hbd), get_cons_same]
  have hwb : w.builder b = closingBuilder v := by
    rw [hw, beginClose_builder, if_pos rfl, dayBegun_builder, builder_cons hl]
    rfl
  have hwd : w.builder d = u := by
    rw [hw, beginClose_builder, if_neg (Nat.ne_of_gt hbd), dayBegun_builder, hd]
  have hclosed : closeBuilders (ofEarlierDay (dayBegun s).today) (dayBegun s) = w := by
    rw [hw] at hstopped ⊢
    refine closeBuilders_first (hbd.trans hd32) ((dayBegun_compacting s).trans hc) (fun i hi => ?_)
      (dayBegun_names hl hv hvd) (fun i _ => closeOne_stopped hstopped i)
    have hi0 : (dayBegun s).builder i = {} := by
      rw [dayBegun_builder, State.builder, hl, get_cons_ne _ (Nat.ne_of_gt hi), get_cons_ne _ (by omega), Tbl.get_nil]
    rw [hi0]
    rfl
  have howed : (noteCloses w).comp.closesOwed = true := by
    have hidle : w.compacting = false := by simp [State.compacting, hstopped]
    have hlist : (d, u) ∈ w.comp.builders := by
      cases hfind : Tbl.find w.comp.builders d with
      | none =>
        simp only [State.builder, Tbl.get, hfind, Option.getD_none] at hwd
        rw [← hwd] at hu
        cases hu
      | some u' =>
        simp only [State.builder, Tbl.get, hfind, Option.getD_some] at hwd
        exact hwd ▸ Tbl.mem_of_find hfind
    have htoday : w.today = s.ret.today + 1 := by simp [hw, State.today, hret]
    have hany : w.hasOldBuilder = true := by
      simp only [State.hasOldBuilder, List.any_eq_true]
      exact ⟨(d, u), hlist, by simp [hu, htoday, hud]⟩
    simp [noteCloses, hidle, hany]
  have hadvance : advance r s = pushSweep .day [r] (noteCloses w) := by
    rw [advance_eq, closeOldBuilders_eq, hclosed, runCompaction_stopped (by simpa using hstopped)]
  refine ⟨?_, ?_, ?_, ?_, ?_⟩
  · simpa [hadvance, State.builder] using hwb
  · simpa [hadvance, State.builder] using hwd
  · simpa [hadvance] using hstopped
  · simpa [hadvance] using howed
  · simpa [hadvance] using hgeneral

end

/-! ### ADVANCE-DAY (R102, R103) -/

theorem exec_advanceDay {s : State} {tag : Nat} (ha : s.admits .a tag = true) (harchive : s.cat.archive = .service)
    (hup : s.enginesUp = true) (htoday : s.ret.today < 65535) (hqueued : s.dayQueued = false)
    (hroom : s.ret.sweeps.length < 8) :
    exec (.advanceDay .a tag) s =
      .next (transmitBoth (advance (refOf s .a tag 48) (taken s .a tag 48))) := by
  have hexec : exec (.advanceDay .a tag) s = request .a tag 48 .aOnly (fun r s =>
    checked r (s.catalogChecks ++
        [(decide (s.today < 65535), .limit), (!s.dayQueued, .busy), (s.sweepRoom, .busy)]) (advance r) s) s := rfl
  rw [hexec, request_admitted ha 48 rfl, checked_passed]
  rw [firstRefusal_none_iff]
  have hup' : (taken s .a tag 48).enginesUp = true := hup
  have hqueued' : (taken s .a tag 48).dayQueued = false := hqueued
  have hroom' : (taken s .a tag 48).sweepRoom = true := decide_eq_true hroom
  simp [State.catalogChecks, State.serviceChecks, State.notHalted, State.inService, harchive, hup', State.today, htoday,
    hqueued', hroom']

/-- Settles O38: each part of the day's beginning stands at the end of the command. -/
theorem advanceDayMovesTheDay : Obligations.AdvanceDayMovesTheDay := by
  intro tag s ha harchive hup htoday hqueued hroom
  have hexec := exec_advanceDay ha harchive hup htoday hqueued hroom
  have hcompacting : (taken s .a tag 48).compacting = true :=
    (compacting_iff _).mpr ⟨harchive, by simpa using (Bool.and_eq_true_iff.mp hup).1⟩
  obtain ⟨v, hv⟩ : ∃ v, v = advance (refOf s .a tag 48) (taken s .a tag 48) := ⟨_, rfl⟩
  rw [← hv] at hexec
  refine ⟨⟨_, hexec, ?_⟩, fun htables h hleft hle => ?_, fun htables ho hb => ?_, fun b x k ho hb hl hx hd hk => ?_,
    fun b x d y ho hbd hd hl hx hy hxd hyd hk hclean hheld => ?_⟩
  · have hret : v.ret = _ := hv ▸ advance_ret _ _
    have hcursors : v.cursors = s.cursors := by simp [hv, advance_eq, dayBegun_keeps]
    refine ⟨by simp [hret], by simp [hret], by simp [hret, refOf, State.link], by simp [hret], by simp [hcursors],
      fun n d y hn hy hstate hday hflight => ?_⟩
    have hclosed := advance_closes_tally (refOf s .a tag 48) (s := taken s .a tag 48) hn hy hstate hday hflight
    rw [← hv] at hclosed
    exact hclosed
  · have hages := advance_ages (refOf s .a tag 48) (s := taken s .a tag 48) hleft hle (sources_rising_of_tablesOk htables)
    rw [← hv] at hages
    obtain ⟨⟨hbody, hnext, -⟩, hsettles⟩ := hages
    exact ⟨_, hexec, hbody, hnext, hsettles⟩
  · have hcloses := advance_builders (refOf s .a tag 48) hcompacting ho (builders_rising_of_tablesOk htables) hb
    rw [← hv] at hcloses
    exact ⟨_, hexec, hcloses⟩
  · have hbegan := advance_single (refOf s .a tag 48) hcompacting ho hb hl hx hd hk
    rw [← hv] at hbegan
    exact ⟨_, hexec, hbegan⟩
  · have hends := advance_exhausts (refOf s .a tag 48) hcompacting hbd hd hl hx hy hxd hyd hk hclean hheld
    rw [← hv] at hends
    exact ⟨_, hexec, hends⟩

end Sys2Proof.Machine
end

