-- ==== Sys2Proof/Proofs/GapLaw.lean ====
section
/-!
PROOFS. Proofs/GapLaw.lean: the judgement of a file and a resequencing leave a source's gap list in the law of R15: a late
number leaves parts of the record it is taken from, and the runs that a moved base passes lie apart from the records behind it.
-/

namespace Sys2Proof.Machine
open Sys2Proof

/-! ### Parts of a record (R19) -/

/-- A run that holds numbers of the record alone. -/
def partOf (p g : GapRecord) : Prop := isRun p ∧ ∀ m, m < 65536 → gapHolds m p = true → gapHolds m g = true

theorem partOf_self {g : GapRecord} (h : isRun g) : partOf g g := ⟨h, fun _ _ hm => hm⟩

theorem partOf.apart {p g q h : GapRecord} (hp : partOf p g) (hq : partOf q h) (ha : apart g h) : apart p q := by
  intro m hm hheld
  by_contra hne
  have hfree := ha m hm (hp.2 m hm hheld)
  rw [hq.2 m hm (by simpa using hne)] at hfree
  cases hfree

theorem gapHolds_first {g : GapRecord} (h : isRun g) : gapHolds g.first g = true := by
  rw [gapHolds_iff]
  obtain ⟨hf, -, -⟩ := h
  simp only [distance, seqModulus]
  omega

theorem gapHolds_last (g : GapRecord) : gapHolds g.last g = true := (gapHolds_iff _ _).mpr le_rfl

/-- A part of a record wholly behind the base lies there, between the record's ends. -/
theorem partOf.behind {base : Nat} {p g : GapRecord} (hp : partOf p g) (hg : isRun g) (hb : whollyBehind base g = true) :
    whollyBehind base p = true ∧ distance g.first base ≤ distance p.first base ∧
      distance p.last base ≤ distance g.last base := by
  obtain ⟨hrun, hholds⟩ := hp
  obtain ⟨hf1, hf2⟩ := (gapHolds_of_whollyBehind hg hrun.1 hb).mp (hholds p.first hrun.1 (gapHolds_first hrun))
  obtain ⟨hl1, hl2⟩ := (gapHolds_of_whollyBehind hg hrun.2.1 hb).mp (hholds p.last hrun.2.1 (gapHolds_last p))
  refine ⟨?_, hf1, hl2⟩
  obtain ⟨hpf, hpl, hlen⟩ := hrun
  rw [whollyBehind_iff] at hb ⊢
  simp only [runLength, distance, seqModulus] at *
  omega

/-- Each record replaced by one part of it at most. -/
def shrinks (f : GapRecord → List GapRecord) (gs : List GapRecord) : Prop :=
  ∀ g ∈ gs, (f g).length ≤ 1 ∧ ∀ p ∈ f g, partOf p g

theorem pairwise_of_length {α : Type} {R : α → α → Prop} {l : List α} (h : l.length ≤ 1) : l.Pairwise R := by
  match l, h with
  | [], _ => exact .nil
  | [a], _ => exact List.pairwise_singleton R a

theorem length_flatMap_le {α β : Type} {f : α → List β} {l : List α} (h : ∀ a ∈ l, (f a).length ≤ 1) :
    (l.flatMap f).length ≤ l.length := by
  induction l with
  | nil => simp
  | cons a l ih =>
    have ha := h a (by simp)
    have hl := ih (fun b hb => h b (List.mem_cons_of_mem a hb))
    rw [List.flatMap_cons, List.length_append, List.length_cons]
    omega

theorem runsApart_flatMap {f : GapRecord → List GapRecord} {gs : List GapRecord} (h : runsApart gs) (hf : shrinks f gs) :
    runsApart (gs.flatMap f) := by
  refine ⟨fun p hp => ?_, List.pairwise_flatMap.mpr ⟨fun g hg => pairwise_of_length (hf g hg).1, ?_⟩⟩
  · obtain ⟨g, hg, hp⟩ := List.mem_flatMap.mp hp
    exact ((hf g hg).2 p hp).1
  · exact h.2.imp_of_mem (fun hg hk ha p hp q hq => ((hf _ hg).2 p hp).apart ((hf _ hk).2 q hq) ha)

/-- A list so replaced is in the law. -/
theorem gapsOk_flatMap {e v : SourceEntry} {f : GapRecord → List GapRecord} (h : e.gapsOk = true)
    (hf : shrinks f e.gaps) (hb : v.base = e.base) (hv : v.gaps = e.gaps.flatMap f) : v.gapsOk = true := by
  obtain ⟨hbase, hlen, hruns, hpair⟩ := (gapsOk_iff e).mp h
  rw [gapsOk_iff, hb, hv]
  refine ⟨hbase, (length_flatMap_le (fun g hg => (hf g hg).1)).trans hlen, fun p hp => ?_,
    List.pairwise_flatMap.mpr ⟨fun g hg => pairwise_of_length (hf g hg).1, ?_⟩⟩
  · obtain ⟨g, hg, hp⟩ := List.mem_flatMap.mp hp
    have hpart := (hf g hg).2 p hp
    exact ⟨hpart.1, (hpart.behind (hruns g hg).1 (hruns g hg).2).1⟩
  · refine hpair.imp_of_mem (fun {g k} hg hk hlt p hp q hq => ?_)
    have hends := ((hf g hg).2 p hp).behind (hruns g hg).1 (hruns g hg).2
    have hbegins := ((hf k hk).2 q hq).behind (hruns k hk).1 (hruns k hk).2
    omega

/-! ### A late number (R19) -/

/-- The parts that a number leaves of its record: one at most in the record's place, and a second apart from it. -/
theorem takeFromGap_parts {n : Nat} {g : GapRecord} (hn : n < 65536) (hg : isRun g) (hheld : gapHolds n g = true) :
    (takeFromGap n g).1.length ≤ 1 ∧ (∀ p ∈ (takeFromGap n g).1, partOf p g) ∧
      ∀ q, (takeFromGap n g).2 = some q → partOf q g ∧ ∀ p ∈ (takeFromGap n g).1, apart p q := by
  have hholds : ∀ p ∈ (takeFromGap n g).1 ++ (takeFromGap n g).2.toList, ∀ m, m < 65536 → gapHolds m p = true →
      gapHolds m g = true := by
    intro p hp m hm hmp
    have hany := takeFromGap_holds hn hm hg hheld
    rw [List.any_eq_true.mpr ⟨p, hp, hmp⟩] at hany
    exact (Bool.and_eq_true_iff.mp hany.symm).1
  have hin := (gapHolds_iff n g).mp hheld
  obtain ⟨hfirst, hlast, hlen⟩ := id hg
  have hlow : g.first ≠ n → isRun { g with last := seqSub n 1 } := by
    intro hne
    refine ⟨hfirst, ?_, ?_⟩ <;> simp only [runLength, distance, seqSub, seqModulus] at * <;> omega
  have hhigh : g.last ≠ n → isRun { g with first := seqAdd n 1 } := by
    intro hne
    refine ⟨?_, hlast, ?_⟩ <;> simp only [runLength, distance, seqAdd, seqModulus] at * <;> omega
  unfold takeFromGap at hholds ⊢
  split_ifs at hholds ⊢ with hone hf hl
  · simp
  · have hrun := hhigh (fun h => hone ⟨hf, h⟩)
    simpa using ⟨hrun, hholds _ (by simp)⟩
  · have hrun := hlow hf
    simpa using ⟨hrun, hholds _ (by simp)⟩
  · refine ⟨by simp, fun p hp => ?_, fun q hq => ⟨?_, fun p hp m hm hmp => ?_⟩⟩
    · obtain rfl := List.mem_singleton.mp hp
      exact ⟨hlow hf, hholds _ (by simp)⟩
    · obtain rfl := Option.some.inj hq
      exact ⟨hhigh hl, hholds _ (by simp)⟩
    · obtain rfl := List.mem_singleton.mp hp
      obtain rfl := Option.some.inj hq
      have hbelow := (gapHolds_below hn hm hg hf).mp hmp
      rw [← Bool.not_eq_true, gapHolds_above hn hm hg hheld hl]
      omega

/-- The record replaced by the parts left of it. -/
theorem takenFrom_shrinks {n : Nat} {g : GapRecord} {gs : List GapRecord} (hn : n < 65536) (hr : ∀ h ∈ gs, isRun h)
    (hheld : gapHolds n g = true) : shrinks (fun h => if h = g then (takeFromGap n g).1 else [h]) gs := by
  intro h hh
  by_cases heq : h = g
  · subst heq
    obtain ⟨hlen, hparts, -⟩ := takeFromGap_parts hn (hr h hh) hheld
    simpa using ⟨hlen, hparts⟩
  · simpa [heq] using partOf_self (hr h hh)

/-- With the second part, the list is one of runs apart. -/
theorem takenFrom_runsApart {n : Nat} {g q : GapRecord} {gs : List GapRecord} (hn : n < 65536) (hr : runsApart gs)
    (hg : g ∈ gs) (hheld : gapHolds n g = true) (hq : (takeFromGap n g).2 = some q) :
    runsApart (takenFrom n g gs ++ [q]) := by
  obtain ⟨-, -, hsecond⟩ := takeFromGap_parts hn (hr.1 g hg) hheld
  obtain ⟨hpart, hbetween⟩ := hsecond q hq
  have hshrinks := takenFrom_shrinks hn hr.1 hheld
  refine runsApart_append.mpr ⟨runsApart_flatMap hr hshrinks,
    runsApart_cons.mpr ⟨hpart.1, ⟨by simp, .nil⟩, by simp⟩, fun p hp k hk => ?_⟩
  obtain rfl := List.mem_singleton.mp hk
  obtain ⟨h, hh, hp⟩ := List.mem_flatMap.mp hp
  by_cases heq : h = g
  · subst heq
    rw [if_pos rfl] at hp
    exact hbetween p hp
  · have hsymm : Std.Symm apart := ⟨fun _ _ => apart.symm⟩
    exact ((hshrinks h hh).2 p hp).apart hpart (hr.2.forall hh hg heq)

/-! ### The runs that a base passes (R18, R32) -/

section
variable {base today : Nat} {r : Nat × Nat}

theorem gapOfRun_holds (hb : base < 65536) (hle : r.1 ≤ r.2) (hr : r.2 < 32767) {m : Nat} (hm : m < 65536) :
    gapHolds m (gapOfRun base today r) = true ↔ r.1 ≤ distance m base ∧ distance m base ≤ r.2 := by
  rw [gapHolds_iff]
  simp only [gapOfRun, distance, seqAdd, seqModulus]
  omega

theorem gapOfRun_isRun (hle : r.1 ≤ r.2) (hr : r.2 < 32767) : isRun (gapOfRun base today r) := by
  refine ⟨?_, ?_, ?_⟩ <;> simp only [gapOfRun, runLength, distance, seqAdd, seqModulus] <;> omega

end

/-- Records behind the base, and the runs of the numbers next after it. -/
theorem runsApart_unreceived {base today d : Nat} {list : List GapRecord} (marks : Marks) (hb : base < 65536)
    (hd : d ≤ 32767) (hl : runsApart list) (hw : ∀ g ∈ list, whollyBehind base g = true) :
    runsApart (list ++ (unreceivedRuns marks d).map (gapOfRun base today)) := by
  have hspec := unreceivedRuns_runsBelow marks d
  have hbounds : ∀ r ∈ unreceivedRuns marks d, r.1 ≤ r.2 ∧ r.2 < 32767 := fun r hr => by
    have := hspec.bounds r (List.mem_reverse.mpr hr)
    omega
  refine runsApart_append.mpr ⟨hl, ⟨fun g hg => ?_, ?_⟩, fun g hg k hk m hm hheld => ?_⟩
  · obtain ⟨r, hr, rfl⟩ := List.mem_map.mp hg
    exact gapOfRun_isRun (hbounds r hr).1 (hbounds r hr).2
  · refine List.pairwise_map.mpr ((List.pairwise_reverse.mp hspec.apart).imp_of_mem (fun {r q} hr hq hlt m hm hheld => ?_))
    rw [gapOfRun_holds hb (hbounds r hr).1 (hbounds r hr).2 hm] at hheld
    rw [← Bool.not_eq_true, gapOfRun_holds hb (hbounds q hq).1 (hbounds q hq).2 hm]
    omega
  · obtain ⟨r, hr, rfl⟩ := List.mem_map.mp hk
    have hin := (gapHolds_of_whollyBehind (hl.1 g hg) hm (hw g hg)).mp hheld
    have hbehind := (whollyBehind_iff base g).mp (hw g hg)
    have hbound := hbounds r hr
    rw [← Bool.not_eq_true, gapOfRun_holds hb hbound.1 hbound.2 hm]
    omega

/-! ### The judgement of a file, and resequencing -/

theorem settleFit_accepted {e v : SourceEntry} {w : Window} {fit : List GapRecord × List GapRecord} {places pos q : Nat}
    {gone : List GapRecord} (h : settleFit e w fit places pos = .accepted v gone q) :
    v.base = w.base ∧ v.gaps = fit.1 := by
  unfold settleFit at h
  split at h
  · injection h with hv
    rw [← hv]
    exact ⟨rfl, rfl⟩
  · cases h

section
variable {e v : SourceEntry} {n today places pos : Nat} {gone : List GapRecord} (he : e.gapsOk = true)
include he

theorem judgeInside_gapsOk {i : Nat} (h : judgeInside e i places = .accepted v gone pos) : v.gapsOk = true := by
  have hbase := ((gapsOk_iff e).mp he).1
  simp only [judgeInside] at h
  split_ifs at h
  · injection h with hv
    rw [← hv]
    exact gapsOk_of_sublist he rfl (List.Sublist.refl e.gaps)
  · obtain ⟨hb, hg⟩ := settleFit_accepted h
    exact gapsOk_fitGaps v (advanceWindow_base_lt 64 hbase)
      (by rw [List.append_nil]; exact runsApart_of_gapsOk he) hb hg

theorem judgeAhead_gapsOk {d : Nat} (hd : d < 32768) (h : judgeAhead e d today places = .accepted v gone pos) :
    v.gapsOk = true := by
  obtain ⟨hbase, -, hruns, -⟩ := (gapsOk_iff e).mp he
  obtain ⟨hb, hg⟩ := settleFit_accepted h
  refine gapsOk_fitGaps v (advanceWindow_base_lt 64 (Nat.mod_lt _ (by decide))) ?_ hb hg
  exact runsApart_unreceived e.marks hbase (by omega) (runsApart_of_gapsOk he) (fun g hg => (hruns g hg).2)

theorem judgeBehind_gapsOk (hn : n < 65536) (h : judgeBehind e n places = .accepted v gone pos) : v.gapsOk = true := by
  cases hfind : e.gaps.find? (gapHolds n) with
  | none =>
    rw [judgeBehind, hfind] at h
    cases h
  | some g =>
    have hheld : gapHolds n g = true := List.find?_some hfind
    have hruns := runsApart_of_gapsOk he
    rw [judgeBehind_found hfind] at h
    cases hq : (takeFromGap n g).2 with
    | none =>
      rw [hq] at h
      injection h with hv
      exact gapsOk_flatMap he (takenFrom_shrinks hn hruns.1 hheld) (by rw [← hv]) (by rw [← hv]; rfl)
    | some q =>
      rw [hq] at h
      obtain ⟨hb, hg⟩ := settleFit_accepted h
      exact gapsOk_fitGaps v ((gapsOk_iff e).mp he).1
        (takenFrom_runsApart hn hruns (List.mem_of_find?_eq_some hfind) hheld hq) hb hg

/-- R17 to R20: what an acceptance makes of a source stays in the law. -/
theorem judgeFile_gapsOk (hn : n < 65536) (h : judgeFile e n today places = .accepted v gone pos) : v.gapsOk = true := by
  have hspec := positionOf_spec hn ((gapsOk_iff e).mp he).1
  cases hp : positionOf n e.base with
  | inside i => exact judgeInside_gapsOk he (judgeFile_inside hp today places ▸ h)
  | ahead d =>
    rw [hp] at hspec
    exact judgeAhead_gapsOk he (by omega) (judgeFile_ahead hp today places ▸ h)
  | behind => exact judgeBehind_gapsOk he hn (judgeFile_behind hp today places ▸ h)

/-- R32: and what a resequencing makes of it. -/
theorem resequenceFit_gapsOk {base : Nat} (hb : base < 65536) (hv : v.base = base)
    (hg : v.gaps = (resequenceFit e base today).1) : v.gapsOk = true := by
  obtain ⟨hbase, -, hruns, -⟩ := (gapsOk_iff e).mp he
  refine gapsOk_fitGaps v hb ?_ hv hg
  unfold resequenceRuns
  cases hmark : highestMark e.marks with
  | none =>
    simpa using runsApart_of_gapsOk he
  | some h =>
    have hlt : h < 64 := List.mem_range.mp (List.mem_reverse.mp (List.mem_of_find?_eq_some hmark))
    exact runsApart_unreceived e.marks hbase (by omega) (runsApart_of_gapsOk he) (fun g hg => (hruns g hg).2)

end

end Sys2Proof.Machine
end

