-- ==== Sys2Proof/Proofs/GapLawKept.lean ====
section
/-!
PROOFS. Proofs/GapLawKept.lean: the law of the gap lists, as a property of the intake, goes on to hold through every act that
the commands are made of: where sources or Intake Slots change, they change within the law, and those an image gives lie in it.
-/

namespace Sys2Proof.Machine
open Sys2Proof

/-- The law of the gap lists, as it speaks of the intake (R15). -/
def gapLawful (i : IntakeUnit) : Prop :=
  (∀ n, (Tbl.get {} i.sources n).gapsOk = true) ∧ ∀ k, (Tbl.get {} i.slots k).sequence < 65536

theorem gapLaw_iff (s : State) : s.gapLaw ↔ gapLawful s.intake := Iff.rfl

theorem gapLawful_congr {i j : IntakeUnit} (h : gapLawful i) (hs : j.sources = i.sources) (hl : j.slots = i.slots) :
    gapLawful j := by
  rw [gapLawful, hs, hl]
  exact h

theorem gapsOk_empty : ({} : SourceEntry).gapsOk = true := rfl

theorem gapLawful_setSource {s : State} (h : gapLawful s.intake) {e : SourceEntry} (he : e.gapsOk = true) (n : Nat) :
    gapLawful (s.setSource n e).intake := by
  refine ⟨fun m => ?_, h.2⟩
  have hm : Tbl.get {} (s.setSource n e).intake.sources m = if m = n then e else s.source m :=
    State.setSource_source s n e m
  rw [hm]
  split
  · exact he
  · exact h.1 m

theorem gapLawful_setSlot {s : State} (h : gapLawful s.intake) {f : IntakeSlot} (hf : f.sequence < 65536) (k : Nat) :
    gapLawful (s.setIntakeSlot k f).intake := by
  refine ⟨h.1, fun j => ?_⟩
  have hj : Tbl.get {} (s.setIntakeSlot k f).intake.slots j = if j = k then f else s.intakeSlot j :=
    State.setIntakeSlot_intakeSlot s k f j
  rw [hj]
  split
  · exact hf
  · exact h.2 j

theorem gapLawful_stable : IntakeStable gapLawful where
  abort k s h := by
    have hcleared := gapLawful_setSlot h (f := {}) (by decide) k
    exact gapLawful_congr hcleared (by simp [abortSlot, clearSlot]) (by simp [abortSlot, clearSlot])
  leave n d s h := gapLawful_congr h (by simp) (by simp)
  pages n s h := gapLawful_congr h (by simp) (by simp)

/-- What leaves sources and Intake Slots leaves the law. -/
theorem gapKept_congr {i j : IntakeUnit} (h : kept gapLawful i) (hs : j.sources = i.sources) (hl : j.slots = i.slots) :
    kept gapLawful j := ⟨h.1, gapLawful_congr h.2 hs hl⟩

/-- An intake in which no source is enrolled and no file stands. -/
@[simp] theorem empty_gapKept : kept gapLawful {} := ⟨gapLawful_stable, fun _ => gapsOk_empty, fun _ => (by decide : 0 < 65536)⟩

section
variable {s : State}

theorem source_gapsOk (h : kept gapLawful s.intake) (n : Nat) : (s.source n).gapsOk = true := h.2.1 n

theorem intakeSlot_sequence (h : kept gapLawful s.intake) (k : Nat) : (s.intakeSlot k).sequence < 65536 := h.2.2 k

@[simp] theorem setSource_gapKept (h : kept gapLawful s.intake) {e : SourceEntry} (he : e.gapsOk = true) (n : Nat) :
    kept gapLawful (s.setSource n e).intake := ⟨h.1, gapLawful_setSource h.2 he n⟩

/-- A source whose base stands, with a part of its gap list. -/
theorem setSource_sublist_gapKept (h : kept gapLawful s.intake) {n : Nat} {e : SourceEntry}
    (hb : e.base = (s.source n).base) (hg : e.gaps.Sublist (s.source n).gaps) : kept gapLawful (s.setSource n e).intake :=
  setSource_gapKept h (gapsOk_of_sublist (source_gapsOk h n) hb hg) n

@[simp] theorem setIntakeSlot_gapKept (h : kept gapLawful s.intake) {f : IntakeSlot} (hf : f.sequence < 65536) (k : Nat) :
    kept gapLawful (s.setIntakeSlot k f).intake := ⟨h.1, gapLawful_setSlot h.2 hf k⟩

@[simp] theorem changeTally_gapKept (h : kept gapLawful s.intake) (n d : Nat) (f : TallyEntry → TallyEntry) :
    kept gapLawful (s.changeTally n d f).intake := gapKept_congr h (by simp) (by simp)

/-! ### The release test (R30, R82, R118, R150) -/

@[simp] theorem releaseTest_gapKept (h : kept gapLawful s.intake) (n : Nat) : kept gapLawful (releaseTest n s).intake := by
  unfold releaseTest
  split
  · exact setSource_gapKept h gapsOk_empty n
  · exact h

@[simp] theorem freeEntryAndTest_gapKept (h : kept gapLawful s.intake) (e : Nat) :
    kept gapLawful (freeEntryAndTest e s).intake := by simp [freeEntryAndTest, h]

@[simp] theorem finishErase_gapKept (h : kept gapLawful s.intake) (c : Nat) (w : EraseWork) (ok : Bool) :
    kept gapLawful (finishErase c w ok s).intake := by
  simp only [finishErase]
  split <;> simp [h]

@[simp] theorem removeTally_gapKept (h : kept gapLawful s.intake) (i : Nat) :
    kept gapLawful (removeTally i s).intake :=
  releaseTest_gapKept (s := { s with intake := { s.intake with tally := Tbl.drop s.intake.tally i } })
    (gapKept_congr h rfl rfl) _

/-! ### Records exported (R24 to R26) -/

@[simp] theorem exportOne_gapKept (h : kept gapLawful s.intake) (n : Nat) (reason : GapReason) (g : GapRecord) :
    kept gapLawful (exportOne n reason g s).intake := by
  unfold exportOne
  split
  · exact h
  · have hwritten : kept gapLawful (writeFinding (gapFinal n reason g) s).intake := by simpa using h
    refine setSource_gapKept hwritten ?_ n
    exact gapsOk_of_sublist (source_gapsOk h n) rfl List.erase_sublist

@[simp] theorem ageSource_gapKept (h : kept gapLawful s.intake) (line n : Nat) :
    kept gapLawful (ageSource line n s).intake :=
  foldl_inv (fun t : State => kept gapLawful t.intake) _ (fun _ g ht => exportOne_gapKept ht n .aged g) _ _ h

@[simp] theorem ageBefore_gapKept (h : kept gapLawful s.intake) (line : Nat) : kept gapLawful (ageBefore line s).intake := by
  unfold ageBefore
  refine foldl_inv (fun t : State => kept gapLawful t.intake) _ (fun t e ht => ?_) _ _ h
  exact ageSource_gapKept ht line e.1

@[simp] theorem keepAgeing_gapKept (h : kept gapLawful s.intake) (line : Nat) :
    kept gapLawful (keepAgeing line s).intake := gapKept_congr h (by simp) (by simp)

@[simp] theorem ageGaps_gapKept (h : kept gapLawful s.intake) : kept gapLawful (ageGaps s).intake := by
  have hleft := foldl_inv (fun t : State => kept gapLawful t.intake)
    (fun t h => ageBefore (min h s.ageLine) t) (fun _ a ht => ageBefore_gapKept ht _) s.intake.ageings s h
  simpa [ageGaps] using keepAgeing_gapKept (ageBefore_gapKept hleft s.ageLine) s.ageLine

@[simp] theorem unflag_gapKept (h : kept gapLawful s.intake) (n : Nat) : kept gapLawful (unflag n s).intake := by
  have hclear : ∀ t : State, kept gapLawful t.intake →
      kept gapLawful (t.setSource n { t.source n with overflow := false }).intake :=
    fun t ht => setSource_sublist_gapKept ht rfl (List.Sublist.refl _)
  simp only [unflag]
  repeat' split
  · exact h
  · exact hclear s h
  · exact hclear _ (exportOne_gapKept h _ _ _)

@[simp] theorem unflagSources_gapKept (h : kept gapLawful s.intake) : kept gapLawful (unflagSources s).intake := by
  unfold unflagSources
  refine foldl_inv (fun t : State => kept gapLawful t.intake) _ (fun t e ht => ?_) _ _ h
  exact unflag_gapKept ht e.1

@[simp] theorem intakePasses_gapKept (h : kept gapLawful s.intake) (n : Nat) :
    kept gapLawful (intakePasses n s).intake := by
  unfold intakePasses
  split <;> simp [h]

/-! ### Audit jobs (R150, R151) -/

@[simp] theorem setJob_gapKept (h : kept gapLawful s.intake) (j : Option Job) : kept gapLawful (s.setJob j).intake := h

@[simp] theorem settleMismatch_gapKept (h : kept gapLawful s.intake) (j : Job) (i : Nat) (b : FindingBody) :
    kept gapLawful (settleMismatch j i b s).intake := by simp [settleMismatch, h]

@[simp] theorem settleKey_gapKept (h : kept gapLawful s.intake) (j : Job) (i : Nat) :
    kept gapLawful (settleKey j i s).intake := by
  simp only [settleKey]
  repeat' split
  all_goals simp [h]

@[simp] theorem countKey_gapKept (h : kept gapLawful s.intake) (j : Job) (i : Nat) :
    kept gapLawful (countKey j i s).intake := by
  simp only [countKey]
  repeat' split
  all_goals simp [h]

theorem reconcileRun_gapKept (fuel : Nat) {s : State} (h : kept gapLawful s.intake) :
    kept gapLawful (reconcileRun fuel s).intake := by
  induction fuel generalizing s with
  | zero => exact h
  | succ fuel ih =>
    simp only [reconcileRun]
    repeat' split
    all_goals simp [h, ih]

@[simp] theorem reconcileOn_gapKept (h : kept gapLawful s.intake) : kept gapLawful (reconcileOn s).intake :=
  reconcileRun_gapKept _ h

@[simp] theorem jobOn_gapKept (h : kept gapLawful s.intake) : kept gapLawful (jobOn s).intake := by simp [jobOn, h]

@[simp] theorem resumeJob_gapKept (h : kept gapLawful s.intake) : kept gapLawful (resumeJob s).intake := by
  simp only [resumeJob]
  repeat' split
  all_goals simp [h]

@[simp] theorem freedFirst_gapKept (h : kept gapLawful s.intake) (o : AckOrder) :
    kept gapLawful (freedFirst o s).intake := by
  cases o <;> simp [freedFirst, h]

/-! ### The load (R177, R178) -/

/-- An image of the part has its sources in the law. -/
theorem image_sources_gapsOk {img : Image} (h : img.wf = true) (n : Nat) : (Tbl.get {} img.sources n).gapsOk = true := by
  simp only [Image.wf, Bool.and_eq_true] at h
  obtain ⟨⟨⟨-, hsources⟩, -⟩, -⟩ := h
  cases hn : Tbl.find img.sources n with
  | none => rw [Tbl.get, hn]; exact gapsOk_empty
  | some e =>
    rw [Tbl.get, hn]
    exact List.all_eq_true.mp hsources (n, e) (Tbl.mem_of_find hn)

theorem restore_gapKept {img : Image} (h : ∀ n, (Tbl.get {} img.sources n).gapsOk = true) :
    kept gapLawful (restore img s).intake := by
  have himage : kept gapLawful { sources := img.sources, tally := img.tally.map (fun e => (e.1, { e.2 with inFlight := 0 })) } :=
    ⟨gapLawful_stable, h, fun _ => (by decide : 0 < 65536)⟩
  exact gapKept_congr himage (by simp [restore]) (by simp [restore])

theorem loadReleases_gapKept (h : kept gapLawful s.intake) : kept gapLawful (loadReleases s).intake := by
  unfold loadReleases
  refine foldl_inv (fun t : State => kept gapLawful t.intake) _ (fun t e ht => ?_) _ _ h
  exact releaseTest_gapKept ht e.1

theorem loadImage_gapKept {img : Image} (h : img.wf = true) (area : Nat) :
    kept gapLawful (loadImage img area s).intake := by
  have htaken : kept gapLawful (takeImage img area s).intake := by
    simpa [takeImage] using restore_gapKept (s := s) (image_sources_gapsOk h)
  exact gapKept_congr (loadReleases_gapKept htaken) (by simp [loadImage, loadTests]) (by simp [loadImage, loadTests])

theorem validImage_wf {c area : Nat} {notes : List Noted} {img : Image} (h : validImage c area notes = some img) :
    img.wf = true := by
  unfold validImage at h
  split at h
  · cases h
  · split_ifs at h with hvalid
    · simp only [Bool.and_eq_true] at hvalid
      obtain ⟨⟨-, hwf⟩, -⟩ := hvalid
      exact Option.some.inj h ▸ hwf

theorem chooseImage_mem {a b : Option Image} {img : Image} {area : Nat} (h : chooseImage a b = some (img, area)) :
    a = some img ∨ b = some img := by
  unfold chooseImage at h
  split at h
  · cases h
  · left; simp_all
  · right; simp_all
  · split_ifs at h
    · right; simp_all
    · left; simp_all

@[simp] theorem judgeAreas_gapKept (h : kept gapLawful s.intake) (c : Nat) (l : Load) :
    kept gapLawful (judgeAreas c l s).intake := by
  unfold judgeAreas
  split
  · simpa using h
  · rename_i img area hchosen
    exact loadImage_gapKept ((chooseImage_mem hchosen).elim validImage_wf validImage_wf) area

@[simp] theorem judgeCandidates_gapKept (h : kept gapLawful s.intake) (l : Load) :
    kept gapLawful (judgeCandidates l s).intake := by
  unfold judgeCandidates
  repeat' split
  · simpa using h
  · simpa using h
  · exact foldl_inv (fun t : State => kept gapLawful t.intake) _ (fun t k ht => by simpa [askCatalogRead] using ht) _ _ h
  · simpa using h

@[simp] theorem noteRead_gapKept (h : kept gapLawful s.intake) (n : Noted) : kept gapLawful (noteRead n s).intake := by
  simp only [noteRead]
  repeat' split
  · exact h
  · refine judgeAreas_gapKept ?_ _ _
    exact h
  · exact h
  · refine judgeCandidates_gapKept ?_ _
    exact h
  · exact h

/-! ### Format (R182) -/

@[simp] theorem blankArchive_gapKept (a : ArchiveState) (s : State) : kept gapLawful (blankArchive a s).intake :=
  empty_gapKept

@[simp] theorem beginFirstImage_gapKept (f : FormatOp) (s : State) : kept gapLawful (beginFirstImage f s).intake := by
  simp [beginFirstImage, afterFormat]

theorem advanceStage_gapKept (fuel : Nat) {s : State} (h : kept gapLawful s.intake) :
    kept gapLawful (advanceStage fuel s).intake := by
  induction fuel generalizing s with
  | zero => exact h
  | succ fuel ih =>
    simp only [advanceStage]
    repeat' split
    · exact h
    · simp
    · exact ih (s := s.setFormat _) h
    · exact foldl_inv (fun t : State => kept gapLawful t.intake) _ (fun t k ht => by simpa [askFormatErase] using ht) _ _ h

@[simp] theorem endClearing_gapKept (h : kept gapLawful s.intake) : kept gapLawful (endClearing s).intake := by
  unfold endClearing
  split
  · exact advanceStage_gapKept 4 (by simpa using h)
  · exact h

@[simp] theorem afterQuiet_gapKept (h : kept gapLawful s.intake) : kept gapLawful (afterQuiet s).intake := by
  simp [afterQuiet, h]

@[simp] theorem nextStageWhenQuiet_gapKept (h : kept gapLawful s.intake) :
    kept gapLawful (nextStageWhenQuiet s).intake := by
  unfold nextStageWhenQuiet
  split
  · exact advanceStage_gapKept 4 h
  · exact h

end

end Sys2Proof.Machine
end

