-- ==== Sys2Proof/Proofs/GapLawActs.lean ====
section
/-!
PROOFS. Proofs/GapLawActs.lean: what each command does inside the part keeps the law of the gap lists, block by block (R15).
-/

namespace Sys2Proof.Machine
open Sys2Proof

section
variable {s : State}

/-! ### Operations that end (R96) -/

theorem leaveInSlot_intake (c : Nat) (op : Op) (ok : Bool) (s : State) : (leaveInSlot c op ok s).intake = s.intake := by
  unfold leaveInSlot
  split <;> simp

/-- The requester's handling is all that an ending operation does to the intake. -/
theorem complete_gapKept (h : kept gapLawful s.intake) (c : Nat) (op : Op) (ok : Bool) {act : State → State}
    (ha : ∀ t : State, kept gapLawful t.intake → kept gapLawful (act t).intake) :
    kept gapLawful (complete c op ok act s).intake := by
  have hact : kept gapLawful (act (leaveInSlot c op ok s)).intake := ha _ (by rw [leaveInSlot_intake]; exact h)
  simpa [complete] using hact

theorem onOp_gapKept (h : kept gapLawful s.intake) (c : Nat) (p : Op → Bool) {act : Op → State → State}
    (ha : ∀ op, kept gapLawful (act op s).intake) : kept gapLawful (onOp c p act s).intake := by
  unfold onOp
  repeat' split
  · exact h
  · exact ha _
  · exact h

/-! ### Files (R37 to R50) -/

theorem openSlot_intake (k source sequence day records length : Nat) (s : State) :
    ∃ f : IntakeSlot, (openSlot k source sequence day records length s).intake.slots = (s.setIntakeSlot k f).intake.slots ∧
      f.sequence = sequence ∧ (openSlot k source sequence day records length s).intake.sources = s.intake.sources :=
  ⟨{ phase := .receiving, source := source, sequence := sequence, day := day, declaredRecords := records,
      declaredLength := length, pages := pagesFor length, check := crcStart, lastActivity := s.second }, rfl, rfl, rfl⟩

theorem openSlot_gapKept (h : kept gapLawful s.intake) (k source : Nat) {sequence : Nat} (hq : sequence < 65536)
    (day records length : Nat) : kept gapLawful (openSlot k source sequence day records length s).intake := by
  obtain ⟨f, hslots, hf, hsources⟩ := openSlot_intake k source sequence day records length s
  exact gapKept_congr (setIntakeSlot_gapKept h (hf ▸ hq) k) hsources hslots

@[simp] theorem refuseFile_gapKept (h : kept gapLawful s.intake) (k : Nat) : kept gapLawful (refuseFile k s).intake := by
  simp [refuseFile, h]

@[simp] theorem refuseClose_gapKept (h : kept gapLawful s.intake) (k : Nat) (st : Status) :
    kept gapLawful (refuseClose k st s).intake := by
  simp only [refuseClose]
  split <;> simp [h]

theorem takeBytes_sequence (p : Profile) (data : List Byte) (f : IntakeSlot) :
    (f.takeBytes p data).sequence = f.sequence := by
  refine foldl_inv (fun g : IntakeSlot => g.sequence = f.sequence) _ (fun g b hg => ?_) data f rfl
  simp only [IntakeSlot.takeByte]
  split
  · rw [IntakeSlot.judge_eq]
    exact hg
  · exact hg

theorem takeChunk_gapKept (h : kept gapLawful s.intake) (r : ReqRef) (k offset : Nat) (data : List Byte) :
    kept gapLawful (takeChunk r k offset data s).intake := by
  simp only [takeChunk]
  repeat' split
  · simpa using h
  · simp [h]
  · have hslot : kept gapLawful (s.setIntakeSlot k ((s.intakeSlot k).receive s.cat.profile s.second data)).intake :=
      setIntakeSlot_gapKept h (by
        have hsame : ((s.intakeSlot k).receive s.cat.profile s.second data).sequence = (s.intakeSlot k).sequence :=
          takeBytes_sequence _ _ _
        rw [hsame]
        exact intakeSlot_sequence h k) k
    simpa using hslot

theorem close_sequence (f : IntakeSlot) (r : ReqRef) : (f.close r).sequence = f.sequence := by
  simp only [IntakeSlot.close]
  split <;> rfl

theorem beginFileClose_gapKept (h : kept gapLawful s.intake) (r : ReqRef) (k : Nat) (crc : Crc) :
    kept gapLawful (beginFileClose r k crc s).intake := by
  have hslot : kept gapLawful (s.setIntakeSlot k ((s.intakeSlot k).close r)).intake :=
    setIntakeSlot_gapKept h (by rw [close_sequence]; exact intakeSlot_sequence h k) k
  simp only [beginFileClose]
  split
  · refine refuseClose_gapKept ?_ k _
    exact gapKept_congr hslot rfl rfl
  · exact gapKept_congr hslot rfl rfl

/-- The file joins the queue and its slot becomes IDLE. -/
theorem joinAndClear_gapKept (h : kept gapLawful s.intake) (k : Nat) (f : IntakeSlot) :
    kept gapLawful (clearSlot k (joinQueue f s)).intake := by
  have hjoined : kept gapLawful (joinQueue f s).intake := h
  exact setIntakeSlot_gapKept hjoined (f := {}) (by decide) k

/-- A file ACCEPTED leaves its source the entry the judgement gave it, counted (R21, R46). -/
theorem acceptFile_gapKept (h : kept gapLawful s.intake) {e : SourceEntry} (he : e.gapsOk = true) (k : Nat)
    (gone : List GapRecord) (pos : Nat) : kept gapLawful (acceptFile k e gone pos s).intake := by
  have hexported : kept gapLawful (exportGaps (s.intakeSlot k).source .overflow gone s).intake := by simpa using h
  have hcounted := setSource_gapKept hexported (e := countAccepted e (s.intakeSlot k).day)
    (gapsOk_of_sublist he rfl (List.Sublist.refl _)) (s.intakeSlot k).source
  have htallied := changeTally_gapKept hcounted (s.intakeSlot k).source (s.intakeSlot k).day
    (fun y => tallyAccept y (s.intakeSlot k).declaredRecords (s.intakeSlot k).accepted (s.intakeSlot k).rejects.sum)
  have hcleared := joinAndClear_gapKept htallied k (s.intakeSlot k)
  simp only [acceptFile]
  refine runCompaction_kept ?_
  split
  · exact hcleared
  · simpa using hcleared

/-- A file judged: refused, or accepted in the law (R17 to R20, R23). -/
theorem judgeClose_gapKept (h : kept gapLawful s.intake) (k : Nat) : kept gapLawful (judgeClose k s).intake := by
  have he := source_gapsOk h (s.intakeSlot k).source
  simp only [judgeClose]
  split
  · simp [h]
  · refine refuseClose_gapKept ?_ k _
    exact setSource_sublist_gapKept h rfl (List.Sublist.refl _)
  · rename_i hjudged
    exact acceptFile_gapKept h (judgeFile_gapsOk he (intakeSlot_sequence h k) hjudged) k _ _

@[simp] theorem acceptNext_gapKept (h : kept gapLawful s.intake) : kept gapLawful (acceptNext s).intake := by
  unfold acceptNext
  repeat' split
  · exact h
  · exact judgeClose_gapKept h _
  · exact h

theorem acceptSome_gapKept (n : Nat) {s : State} (h : kept gapLawful s.intake) :
    kept gapLawful (acceptSome n s).intake := by
  induction n generalizing s with
  | zero => exact h
  | succ n ih => exact ih (acceptNext_gapKept h)

/-! ### Sources (R28 to R32) -/

theorem retire_gapKept (h : kept gapLawful s.intake) (n : Nat) : kept gapLawful (retire n s).intake := by
  have hexported : kept gapLawful (exportGaps n .retired (s.source n).gaps s).intake := by simpa using h
  refine releaseTest_gapKept (setSource_gapKept hexported ?_ n) n
  exact gapsOk_of_sublist (source_gapsOk h n) rfl (List.nil_sublist _)

theorem resequence_gapKept (h : kept gapLawful s.intake) (n : Nat) {base : Nat} (hb : base < 65536) :
    kept gapLawful (resequence n base s).intake := by
  refine setSource_gapKept (by simpa using h) ?_ n
  exact resequenceFit_gapsOk (source_gapsOk h n) hb rfl rfl

/-! ### Checkpoints and the load (R172, R173, R177) -/

theorem shareWritten_gapKept (h : kept gapLawful s.intake) (n : Nat) : kept gapLawful (shareWritten n s).intake := by
  unfold shareWritten
  split
  · exact h
  · refine takeOwed_kept (acceptSome_gapKept _ ?_)
    simpa using h

theorem failCheckpoint_gapKept (h : kept gapLawful s.intake) (c k : Nat) :
    kept gapLawful (failCheckpoint c k s).intake := by
  simp only [failCheckpoint, answerWaiters_keeps]
  refine raiseFault_kept ?_ _
  exact h

theorem shareFails_gapKept (h : kept gapLawful s.intake) (c : Nat) (op : Op) :
    kept gapLawful (shareFails c op s).intake :=
  complete_gapKept h c op false (fun t ht => by
    split
    · exact failCheckpoint_gapKept ht c _
    · exact ht)

theorem loadReadEnds_gapKept (h : kept gapLawful s.intake) (c : Nat) (op : Op) (res : CatalogResult) :
    kept gapLawful (loadReadEnds c op res s).intake :=
  complete_gapKept h c op true (fun t ht => by
    refine noteRead_gapKept ?_ _
    exact ht)

/-! ### Format, Controller Reset and the links (R179 to R182, R196) -/

theorem discardTransient_gapKept (h : kept gapLawful s.intake) (a : ArchiveState) :
    kept gapLawful (discardTransient a s).intake := by
  simp only [discardTransient]
  split
  · refine restore_gapKept ?_
    exact h.2.1
  · rw [(catalogSlots_keeps ..).2.2.2.2.1]
    refine restore_gapKept ?_
    exact h.2.1

theorem beginFormat_gapKept (h : kept gapLawful s.intake) (r : ReqRef) (consent : Bool) (c : Nat) :
    kept gapLawful (beginFormat r consent c s).intake := by
  refine endClearing_gapKept ?_
  refine discardTransient_gapKept ?_ .formatting
  exact h

theorem failFormat_gapKept (f : FormatOp) (r : SlotRef) (s : State) : kept gapLawful (failFormat f r s).intake := by
  simp [failFormat]

theorem formatErased_gapKept (h : kept gapLawful s.intake) (f : FormatOp) (r : SlotRef) (ok : Bool) :
    kept gapLawful (formatErased f r ok s).intake := by
  obtain ⟨v, hv⟩ : ∃ v, v = if ok then SlotState.clean else .defective := ⟨_, rfl⟩
  simp only [formatErased, ← hv]
  repeat' split
  · exact failFormat_gapKept f r s
  · simpa [askFormatErase] using h
  · exact h

theorem formatEraseEnds_gapKept (h : kept gapLawful s.intake) (c : Nat) (op : Op) (ok : Bool) :
    kept gapLawful (formatEraseEnds c op ok s).intake :=
  nextStageWhenQuiet_gapKept (complete_gapKept h c op ok (fun t ht => by
    split
    · exact ht
    · exact formatErased_gapKept ht _ _ ok))

theorem firstImageShare_gapKept (h : kept gapLawful s.intake) (f : FormatOp) :
    kept gapLawful (firstImageShare f s).intake := by
  simp only [firstImageShare]
  split
  · exact h
  · simpa using h

theorem firstImageEnds_gapKept (h : kept gapLawful s.intake) (c : Nat) (op : Op) (ok : Bool) :
    kept gapLawful (firstImageEnds c op ok s).intake :=
  complete_gapKept h c op ok (fun t ht => by
    repeat' split
    · exact ht
    · exact firstImageShare_gapKept ht _
    · exact failFormat_gapKept _ _ t)

theorem searchLoad_gapKept (h : kept gapLawful s.intake) : kept gapLawful (searchLoad s).intake := by simpa using h

theorem withdrawConsent_gapKept (h : kept gapLawful s.intake) : kept gapLawful (withdrawConsent s).intake := by
  unfold withdrawConsent
  repeat' split
  · exact h
  · exact searchLoad_gapKept (blankArchive_gapKept _ _)
  · exact h

theorem linkReset_gapKept (h : kept gapLawful s.intake) (p : Port) : kept gapLawful (linkReset p s).intake := by
  have hfreed : kept gapLawful (freeCursorsOf p (s.setLink p (s.link p).reset)).intake := by simpa using h
  cases p with
  | a =>
    have haborted := abortAllSlots_kept hfreed
    simpa [linkReset, linkResetActs] using haborted
  | b => exact withdrawConsent_gapKept hfreed

/-! ### Compaction (R59 to R69, R78) -/

theorem appendStep_gapKept (h : kept gapLawful s.intake) (ok : Bool) : kept gapLawful (appendStep ok s).intake := by
  unfold appendStep
  repeat' split
  · exact h
  · exact h
  · refine raiseFault_kept ?_ _
    exact h
  · exact runCompaction_kept (appendNext_kept h _ _)
  · exact h

theorem storeSegment_gapKept (h : kept gapLawful s.intake) (b : Nat) : kept gapLawful (storeSegment b s).intake := by
  refine runCompaction_kept ?_
  exact h

theorem failSegment_gapKept (h : kept gapLawful s.intake) (timeout : Bool) (b : Nat) (r : SlotRef) :
    kept gapLawful (failSegment timeout b r s).intake := by
  have hcounted : kept gapLawful (countFailure b r s).intake := by simpa [countFailure] using h
  simp only [failSegment]
  split
  · refine raiseFault_kept ?_ _
    exact hcounted
  · simp only [retryWrite]
    repeat' split
    · exact hcounted
    · simpa using hcounted
    · refine waitForSlot_kept ?_ b
      exact hcounted

theorem builderPageFault_gapKept (h : kept gapLawful s.intake) (b : Nat) (r : SlotRef) :
    kept gapLawful (builderPageFault b r s).intake := by
  refine raiseFault_kept ?_ _
  simpa [toFilling] using h

/-! ### Days and sweeps (R103, R107, R113, R116, R132, R135) -/

theorem advance_gapKept (h : kept gapLawful s.intake) (r : ReqRef) : kept gapLawful (advance r s).intake := by
  have haged : kept gapLawful (ageGaps { s with ret := { s.ret with today := s.ret.today + 1 } }).intake :=
    ageGaps_gapKept (s := { s with ret := { s.ret with today := s.ret.today + 1 } }) h
  have hbegun : kept gapLawful (dayBegun s).intake :=
    gapKept_congr haged (by simp [dayBegun]) (by simp [dayBegun])
  rw [advance_eq, (pushSweep_keeps ..).2.2.2.2.1]
  exact runCompaction_kept (closeOldBuilders_kept hbegun)

theorem stepSweep_gapKept (h : kept gapLawful s.intake) (w : Sweep) {finish : Sweep → State → State}
    (hf : kept gapLawful (finish w s).intake) : kept gapLawful (stepSweep w finish s).intake := by
  unfold stepSweep
  split
  · exact hf
  · exact h

/-! ### Faults answered (R187 to R190) -/

theorem askAgain_gapKept (h : kept gapLawful s.intake) (p : State → Nat → Bool) (f : Builder → Builder) :
    kept gapLawful (askAgain p f s).intake := by
  unfold askAgain
  refine foldl_inv (fun t : State => kept gapLawful t.intake) _ (fun t b ht => ?_) _ _ h
  split
  · exact askSlot_kept (s := t.setBuilder b _) ht b
  · exact ht

theorem resumeCompaction_gapKept (h : kept gapLawful s.intake) : kept gapLawful (resumeCompaction s).intake := by
  have hretry : ∀ t : State, kept gapLawful t.intake → kept gapLawful (retryOpening t).intake := by
    intro t ht
    unfold retryOpening
    split
    · exact resolveOpening_kept (s := setOpening _ t) (by simpa using ht)
    · exact ht
  have hcloses : ∀ t : State, kept gapLawful t.intake → kept gapLawful (takeCloses t).intake := by
    intro t ht
    unfold takeCloses
    split <;> simp [ht]
  have hasked := askAgain_gapKept (askAgain_gapKept
    (s := { s with comp := { s.comp with stopped := false, headHeld := false } }) h
    (fun u b => (u.builder b).pageHeld) (fun v => { v with pageHeld := false })) State.slotless
    (fun v => { v with failures := 0 })
  exact runCompaction_kept (hcloses _ (by simpa using hretry _ hasked))

theorem resumeEngine_gapKept (h : kept gapLawful s.intake) (e : Engine) : kept gapLawful (resumeEngine e s).intake := by
  cases e with
  | compaction => exact resumeCompaction_gapKept h
  | eraser => simpa [resumeEngine] using h
  | catalog =>
    refine trigger_kept ?_ []
    exact h

theorem abandonBuilder_gapKept (h : kept gapLawful s.intake) (b : Nat) : kept gapLawful (abandonBuilder b s).intake := by
  simp only [abandonBuilder]
  refine releaseTest_gapKept ?_ _
  simp [h]

theorem abandonHead_gapKept (h : kept gapLawful s.intake) : kept gapLawful (abandonHead s).intake := by
  unfold abandonHead
  repeat' split
  · exact h
  · simp only [writeFinding_keeps]
    refine leaveQueue_kept ?_
    exact changeTally_gapKept h _ _ _
  · exact h

theorem abandon_gapKept (h : kept gapLawful s.intake) (r : ReqRef) : kept gapLawful (abandon r s).intake := by
  have hbuilders := foldl_inv (fun t : State => kept gapLawful t.intake) (fun u b => abandonBuilder b u)
    (fun t b ht => abandonBuilder_gapKept ht b) s.heldBuilders _ (abandonHead_gapKept h)
  refine resumeCompaction_gapKept ?_
  simpa [emptyContexts] using hbuilders

end

end Sys2Proof.Machine
end

