-- ==== Sys2Proof/Proofs/GapLawStep.lean ====
section
/-!
PROOFS. Proofs/GapLawStep.lean: every command keeps the law of the gap lists, and with it every step (R15); with fitting and
splitting, O25.
-/

namespace Sys2Proof.Machine
open Sys2Proof

/-- The act keeps the law of the gap lists. -/
def GapSafe (f : State → State) : Prop := ∀ s : State, kept gapLawful s.intake → kept gapLawful (f s).intake

/-- The command does. -/
def GapSafeCommand (x : State → Result State) : Prop :=
  ∀ s t : State, kept gapLawful s.intake → x s = .next t → kept gapLawful t.intake

/-! ### Commands as turns and as requests -/

/-- An act that leaves the intake. -/
theorem gapSafe_of_intake {f : State → State} (hf : ∀ s, (f s).intake = s.intake) : GapSafe f := fun s h => by
  rw [hf]
  exact h

/-- What the transmitters do leaves the intake. -/
theorem gapSafe_turn {f : State → State} (hf : GapSafe f) : GapSafeCommand (turn f) := by
  intro s t h ht
  rw [turn_next] at ht
  injection ht with ht
  rw [← ht, (transmitBoth_keeps _).2.2.2.2.1]
  exact hf (clearFrames s) h

/-- A request is refused before it is handed on, or its block acts. -/
theorem gapSafe_request {p : Port} {tag kind : Nat} {g : Rights} {act : ReqRef → State → State}
    (ha : ∀ r, GapSafe (act r)) : GapSafeCommand (request p tag kind g act) := by
  refine gapSafe_turn (fun s h => ?_)
  have hentered : kept gapLawful (enter p tag kind s).intake := by simpa [enter] using h
  unfold takeRequest
  repeat' split
  · exact h
  · simpa using h
  · simpa using h
  · simpa using h
  · exact ha _ _ hentered

/-- A table of checks refuses, or every check passes and the request acts. -/
theorem checked_gapKept {s : State} {r : ReqRef} {cs : List (Bool × Status)} {act : State → State}
    (h : kept gapLawful s.intake) (ha : GapSafe act) : kept gapLawful (checked r cs act s).intake := by
  unfold checked
  split
  · simpa [refuse] using h
  · exact ha s h

/-- A request answered by a table of checks. -/
theorem gapSafe_checked {p : Port} {tag kind : Nat} {g : Rights} {cs : State → List (Bool × Status)}
    {act : ReqRef → State → State} (ha : ∀ r, GapSafe (act r)) :
    GapSafeCommand (request p tag kind g (fun r s => checked r (cs s) (act r) s)) :=
  gapSafe_request (fun r _ h => checked_gapKept h (ha r))

/-- A request that changes something, and triggers a checkpoint for it. -/
theorem gapSafe_triggerFor {f : State → State} (hf : GapSafe f) (r : ReqRef) (a b : List Byte) :
    GapSafe (fun s => triggerFor r a b (f s)) := fun s h => triggerFor_kept (hf s h) r a b

/-! ### Supply and links (R177, R179, R192 to R197) -/

theorem execPowerUp_gapSafe (present : List Bool) : GapSafeCommand (execPowerUp present) := by
  refine gapSafe_turn (fun s h => ?_)
  split
  · exact h
  · exact searchLoad_gapKept empty_gapKept

theorem execPowerLoss_gapSafe : GapSafeCommand execPowerLoss := by
  refine gapSafe_turn (fun s h => ?_)
  split
  · exact empty_gapKept
  · exact h

theorem execLinkUp_gapSafe (p : Port) : GapSafeCommand (execLinkUp p) := by
  refine gapSafe_turn (gapSafe_of_intake (fun s => ?_))
  split <;> simp [sendReady]

theorem execLaneLoss_gapSafe (p : Port) : GapSafeCommand (execLaneLoss p) := by
  refine gapSafe_turn (fun s h => ?_)
  split
  · refine linkReset_gapKept ?_ p
    simpa using h
  · exact h

theorem execLinkResetFrame_gapSafe (p : Port) : GapSafeCommand (execLinkResetFrame p) := by
  refine gapSafe_turn (fun s h => ?_)
  split
  · simpa [sendReady] using linkReset_gapKept h p
  · exact h

theorem execBadFrame_gapSafe (p : Port) (f : FrameFault) : GapSafeCommand (execBadFrame p f) := by
  refine gapSafe_turn (gapSafe_of_intake (fun s => ?_))
  split <;> simp

theorem execRequestUnknownKind_gapSafe (p : Port) (tag kind : Nat) :
    GapSafeCommand (execRequestUnknownKind p tag kind) := by
  refine gapSafe_turn (gapSafe_of_intake (fun s => ?_))
  repeat' split
  all_goals simp

theorem execReplySent_gapSafe (p : Port) : GapSafeCommand (execReplySent p) := by
  refine gapSafe_turn (gapSafe_of_intake (fun s => ?_))
  dsimp only
  split <;> simp

theorem execNoticeSent_gapSafe (p : Port) : GapSafeCommand (execNoticeSent p) := by
  refine gapSafe_turn (gapSafe_of_intake (fun s => ?_))
  dsimp only
  split <;> simp

/-! ### Operations that end (R68, R69, R97, R118, R147, R149, R159, R172, R173) -/

theorem execCatalogReadComplete_gapSafe (c : Nat) (res : CatalogResult) :
    GapSafeCommand (execCatalogReadComplete c res) :=
  gapSafe_turn (fun _ h => onOp_gapKept h c _ (fun op => loadReadEnds_gapKept h c op res))

theorem execSegmentWriteOk_gapSafe (c : Nat) : GapSafeCommand (execSegmentWriteOk c) :=
  gapSafe_turn (fun _ h => onOp_gapKept h c _ (fun op =>
    complete_gapKept h c op true (fun _ ht => storeSegment_gapKept ht _)))

theorem execSegmentWriteFail_gapSafe (c : Nat) : GapSafeCommand (execSegmentWriteFail c) :=
  gapSafe_turn (fun _ h => onOp_gapKept h c _ (fun op =>
    complete_gapKept h c op false (fun _ ht => failSegment_gapKept ht false _ _)))

theorem execBuilderPageError_gapSafe (c : Nat) : GapSafeCommand (execBuilderPageError c) :=
  gapSafe_turn (fun _ h => onOp_gapKept h c _ (fun op => by
    simpa using builderPageFault_gapKept h (opBuilder op) { channel := c, slot := op.slot }))

theorem discardedEnds_gapKept {s : State} (h : kept gapLawful s.intake) (c : Nat) (op : Op) (ok : Bool) :
    kept gapLawful (discardedEnds c op ok s).intake :=
  afterQuiet_gapKept (complete_gapKept h c op ok (fun _ ht => ht))

theorem execOperationEndDiscarded_gapSafe (c : Nat) (ok : Bool) : GapSafeCommand (execOperationEndDiscarded c ok) :=
  gapSafe_turn (fun _ h => onOp_gapKept h c _ (fun op => discardedEnds_gapKept h c op ok))

theorem eraserEnds_gapKept {s : State} (h : kept gapLawful s.intake) (c : Nat) (op : Op) (ok : Bool) :
    kept gapLawful (eraserEnds c op ok s).intake :=
  complete_gapKept h c op ok (fun _ ht => afterSlots_kept (finishErase_gapKept ht c _ ok))

theorem execEntryEraseComplete_gapSafe (c : Nat) (ok : Bool) : GapSafeCommand (execEntryEraseComplete c ok) :=
  gapSafe_turn (fun _ h => onOp_gapKept h c _ (fun op => eraserEnds_gapKept h c op ok))

theorem execDirtySlotEraseComplete_gapSafe (c : Nat) (ok : Bool) : GapSafeCommand (execDirtySlotEraseComplete c ok) :=
  gapSafe_turn (fun _ h => onOp_gapKept h c _ (fun op => eraserEnds_gapKept h c op ok))

theorem verifyRead_intake (c slot : Nat) (res : ReadResult) (s : State) : (verifyRead c slot res s).intake = s.intake := by
  unfold verifyRead
  repeat' split
  · rfl
  · simp [fillBuffer, useFree]
  · rfl

theorem reconcileRead_gapKept {s : State} (h : kept gapLawful s.intake) (c slot : Nat) (res : ReadResult) :
    kept gapLawful (reconcileRead c slot res s).intake := by
  have hafter : ∀ t : State, kept gapLawful t.intake → kept gapLawful (reconcileRead.reconcileAfter t).intake := by
    intro t ht
    unfold reconcileRead.reconcileAfter
    repeat' split
    all_goals simp [ht]
  unfold reconcileRead
  repeat' split
  · exact h
  · refine hafter _ ?_
    simpa [addContribution, fillBuffer, useFree] using h
  · exact h

theorem auditRead_gapKept {s : State} (h : kept gapLawful s.intake) (c : Nat) (op : Op) (res : ReadResult) :
    kept gapLawful (auditRead c op res s).intake :=
  complete_gapKept h c op true (fun t ht => by
    split
    · rw [verifyRead_intake]
      exact ht
    · exact reconcileRead_gapKept ht c _ res)

theorem execVerifyReadComplete_gapSafe (c : Nat) (res : ReadResult) : GapSafeCommand (execVerifyReadComplete c res) :=
  gapSafe_turn (fun s h => by
    split
    · exact onOp_gapKept h c _ (fun op => auditRead_gapKept h c op res)
    · exact h)

theorem execReconcileReadComplete_gapSafe (c : Nat) (res : ReadResult) :
    GapSafeCommand (execReconcileReadComplete c res) :=
  gapSafe_turn (fun s h => by
    split
    · exact onOp_gapKept h c _ (fun op => auditRead_gapKept h c op res)
    · exact h)

theorem cursorReadEnds_gapKept {s : State} (h : kept gapLawful s.intake) (c : Nat) (op : Op) (res : ReadResult)
    (bad : List (Nat × Nat)) : kept gapLawful (cursorReadEnds c op res bad s).intake :=
  complete_gapKept h c op true (fun t ht => by
    have hread : ∀ k p b (u : State), (cursorRead k p b u).intake = u.intake := by
      intro k p b u
      unfold cursorRead
      repeat' split
      all_goals simp
    rw [hread]
    exact ht)

theorem execCursorReadComplete_gapSafe (c : Nat) (res : ReadResult) (bad : List (Nat × Nat)) :
    GapSafeCommand (execCursorReadComplete c res bad) :=
  gapSafe_turn (fun _ h => onOp_gapKept h c _ (fun op => cursorReadEnds_gapKept h c op res bad))

theorem execCatalogWriteOk_gapSafe (n : Nat) : GapSafeCommand (execCatalogWriteOk n) :=
  gapSafe_turn (fun s h => by
    dsimp only
    split
    · refine onOp_gapKept h _ _ (fun op => complete_gapKept h _ op true (fun t ht => ?_))
      split
      · exact shareWritten_gapKept ht n
      · exact ht
    · exact h)

theorem execCatalogWriteFail_gapSafe : GapSafeCommand execCatalogWriteFail :=
  gapSafe_turn (fun s h => by
    dsimp only
    split
    · exact onOp_gapKept h _ _ (fun op => shareFails_gapKept h _ op)
    · exact h)

theorem execFormatEraseComplete_gapSafe (c : Nat) (ok : Bool) : GapSafeCommand (execFormatEraseComplete c ok) :=
  gapSafe_turn (fun _ h => onOp_gapKept h c _ (fun op => formatEraseEnds_gapKept h c op ok))

theorem execFormatImageWriteComplete_gapSafe (ok : Bool) : GapSafeCommand (execFormatImageWriteComplete ok) :=
  gapSafe_turn (fun s h => by
    split
    · exact h
    · exact onOp_gapKept h _ _ (fun op => firstImageEnds_gapKept h _ op ok))

/-- An operation handed to its requester as failed, by kind (R97). -/
theorem timeOut_gapKept {s : State} (h : kept gapLawful s.intake) (c : Nat) (op : Op) :
    kept gapLawful (timeOut c op s).intake := by
  unfold timeOut
  split
  · exact discardedEnds_gapKept h c op false
  · exact complete_gapKept h c op false (fun _ ht => failSegment_gapKept ht true _ _)
  · exact complete_gapKept h c op false (fun _ ht => timeoutErase_kept ht c _)
  · exact formatEraseEnds_gapKept h c op false
  · exact auditRead_gapKept h c op .fail
  · exact cursorReadEnds_gapKept h c op .fail []
  · exact loadReadEnds_gapKept h c op .fail
  · unfold catalogWriteTimesOut
    split
    · exact firstImageEnds_gapKept h c op false
    · exact shareFails_gapKept h c op

theorem execChannelTimeout_gapSafe (c : Nat) : GapSafeCommand (execChannelTimeout c) :=
  gapSafe_turn (fun s h => by
    split
    · exact onOp_gapKept h c _ (fun op => timeOut_gapKept h c op)
    · exact h)

/-! ### Events (R46, R50, R59, R111 to R135, R151, R164, R181) -/

theorem execFileAcceptance_gapSafe : GapSafeCommand execFileAcceptance := gapSafe_turn (fun _ h => acceptNext_gapKept h)

theorem execIntakeIdleLimit_gapSafe (k : Nat) : GapSafeCommand (execIntakeIdleLimit k) :=
  gapSafe_turn (fun s h => by
    dsimp only
    split
    · simp [h]
    · exact h)

theorem execAppendRecord_gapSafe (ok : Bool) : GapSafeCommand (execAppendRecord ok) :=
  gapSafe_turn (fun _ h => appendStep_gapKept h ok)

theorem judgeExpiry_intake (w : Sweep) (s : State) : (judgeExpiry w s).2.intake = s.intake := by
  simp only [judgeExpiry]
  repeat' split
  all_goals simp

theorem extendEntry_intake (c : Nat) (w : Sweep) (s : State) : (extendEntry c w s).2.intake = s.intake := by
  simp only [extendEntry]
  repeat' split
  all_goals simp

theorem applyEntry_intake (k n : Nat) (s : State) : (applyEntry k n s).intake = s.intake := by
  simp only [applyEntry]
  repeat' split
  all_goals simp

theorem releaseEntry_intake (k : Nat) (w : Sweep) (s : State) : (releaseEntry k w s).2.intake = s.intake := by
  simp only [releaseEntry]
  split <;> simp

theorem execDaySweepEntry_gapSafe : GapSafeCommand execDaySweepEntry :=
  gapSafe_turn (fun s h => by
    repeat' split
    · exact h
    · have hjudged : ∀ w, kept gapLawful (judgeExpiry w s).2.intake := fun w => by rw [judgeExpiry_intake]; exact h
      exact stepSweep_gapKept (hjudged _) _ (endDay_kept (hjudged _) _)
    · exact h)

theorem execExtendSweepEntry_gapSafe : GapSafeCommand execExtendSweepEntry :=
  gapSafe_turn (fun s h => by
    repeat' split
    · exact h
    · have hjudged : ∀ c w, kept gapLawful (extendEntry c w s).2.intake := fun c w => by
        rw [extendEntry_intake]
        exact h
      exact testOpening_kept (stepSweep_gapKept (hjudged _ _) _ (endExtend_kept (hjudged _ _) _ _))
    · exact h)

theorem execApplySweepEntry_gapSafe : GapSafeCommand execApplySweepEntry :=
  gapSafe_turn (fun s h => by
    repeat' split
    · exact h
    · have happlied : ∀ k n, kept gapLawful (applyEntry k n s).intake := fun k n => by rw [applyEntry_intake]; exact h
      exact testOpening_kept (stepSweep_gapKept (happlied _ _) _ (runOutApply_kept (happlied _ _) _ _))
    · exact h)

theorem execReleaseSweepEntry_gapSafe : GapSafeCommand execReleaseSweepEntry :=
  gapSafe_turn (fun s h => by
    repeat' split
    · exact h
    · have hcleared : ∀ k w, kept gapLawful (releaseEntry k w s).2.intake := fun k w => by
        rw [releaseEntry_intake]
        exact h
      exact stepSweep_gapKept (hcleared _ _) _ (endRelease_kept (hcleared _ _) _ _)
    · exact h)

theorem execHoldLoss_gapSafe : GapSafeCommand execHoldLoss := gapSafe_turn (fun _ h => resumeSweep_kept h)

theorem execAuditFindingResumed_gapSafe : GapSafeCommand execAuditFindingResumed :=
  gapSafe_turn (fun _ h => resumeJob_gapKept h)

theorem execCursorIdleClose_gapSafe (c : Nat) : GapSafeCommand (execCursorIdleClose c) := by
  refine gapSafe_turn (gapSafe_of_intake (fun s => ?_))
  dsimp only
  split <;> simp

theorem execFormatConsentExpiry_gapSafe : GapSafeCommand execFormatConsentExpiry := by
  refine gapSafe_turn (gapSafe_of_intake (fun s => ?_))
  repeat' split
  all_goals rfl

/-! ### Requests on sources and files (R28 to R32, R37 to R49) -/

theorem execEnrolSource_gapSafe (p : Port) (tag n cls : Nat) {base : Nat} (hb : base < 65536) :
    GapSafeCommand (execEnrolSource p tag n cls base) :=
  gapSafe_checked (fun r => gapSafe_triggerFor (fun s h => by
    refine setSource_gapKept h ?_ n
    exact (gapsOk_iff _).mpr ⟨hb, by simp, by simp, .nil⟩) r [] [])

theorem execRetireSource_gapSafe (p : Port) (tag n : Nat) : GapSafeCommand (execRetireSource p tag n) :=
  gapSafe_checked (fun r => gapSafe_triggerFor (fun _ h => retire_gapKept h n) r [] [])

theorem execSetSourceClass_gapSafe (p : Port) (tag n cls : Nat) : GapSafeCommand (execSetSourceClass p tag n cls) :=
  gapSafe_checked (fun r s h => by
    refine triggerFor_kept ?_ r [] []
    exact setSource_sublist_gapKept h rfl (List.Sublist.refl _))

theorem execResequenceSource_gapSafe (p : Port) (tag n : Nat) {base : Nat} (hb : base < 65536) :
    GapSafeCommand (execResequenceSource p tag n base) :=
  gapSafe_checked (fun r => gapSafe_triggerFor (fun _ h => resequence_gapKept h n hb) r [] [])

theorem execOpenFile_gapSafe (p : Port) (tag n : Nat) {sequence : Nat} (hq : sequence < 65536) (day records length : Nat) :
    GapSafeCommand (execOpenFile p tag n sequence day records length) :=
  gapSafe_checked (fun r s h => by
    simpa using openSlot_gapKept h (s.idleSlot.getD 0) n hq day records length)

theorem execChunk_gapSafe (p : Port) (tag k offset : Nat) (data : List Byte) :
    GapSafeCommand (execChunk p tag k offset data) :=
  gapSafe_checked (fun r _ h => takeChunk_gapKept h r k offset data)

theorem execCloseFile_gapSafe (p : Port) (tag k : Nat) (crc : Crc) : GapSafeCommand (execCloseFile p tag k crc) :=
  gapSafe_checked (fun r _ h => beginFileClose_gapKept h r k crc)

theorem execAbortFile_gapSafe (p : Port) (tag k : Nat) : GapSafeCommand (execAbortFile p tag k) :=
  gapSafe_checked (fun r s h => by simp [h])

/-! ### Requests that trigger a checkpoint (R10, R75, R76, R93, R102, R106, R127 to R134, R142, R174, R175) -/

theorem execSetProfile_gapSafe (p : Port) (tag v : Nat) : GapSafeCommand (execSetProfile p tag v) :=
  gapSafe_checked (fun r => gapSafe_triggerFor (gapSafe_of_intake (fun s => by simp)) r [] [])

theorem execDefineCode_gapSafe (p : Port) (tag c : Nat) (v : CodeOperand) : GapSafeCommand (execDefineCode p tag c v) :=
  gapSafe_checked (fun r => gapSafe_triggerFor (gapSafe_of_intake (fun s => by simp)) r [] [])

theorem execRetireCode_gapSafe (p : Port) (tag c : Nat) : GapSafeCommand (execRetireCode p tag c) :=
  gapSafe_checked (fun r => gapSafe_triggerFor (gapSafe_of_intake (fun s => by simp)) r [] [])

theorem execSetParameter_gapSafe (p : Port) (tag k v : Nat) : GapSafeCommand (execSetParameter p tag k v) :=
  gapSafe_checked (fun r => gapSafe_triggerFor (gapSafe_of_intake (fun s => by simp)) r [] [])

theorem execCheckpoint_gapSafe (p : Port) (tag : Nat) : GapSafeCommand (execCheckpoint p tag) :=
  gapSafe_checked (fun _ _ h => trigger_kept h _)

theorem execSetChannel_gapSafe (p : Port) (tag c mode : Nat) : GapSafeCommand (execSetChannel p tag c mode) :=
  gapSafe_checked (fun r s h => by
    refine triggerFor_kept ?_ r [] []
    split
    · exact h
    · refine afterSlots_kept ?_
      exact h)

theorem execAdvanceDay_gapSafe (p : Port) (tag : Nat) : GapSafeCommand (execAdvanceDay p tag) :=
  gapSafe_checked (fun r _ h => advance_gapKept h r)

theorem execSetClass_gapSafe (p : Port) (tag c days : Nat) : GapSafeCommand (execSetClass p tag c days) :=
  gapSafe_checked (fun r s h => by
    have howed : ∀ u : State, (oweExtend c r u).intake = u.intake := by
      intro u
      unfold oweExtend
      repeat' split
      all_goals simp
    simp only [changeClass]
    split
    · refine trigger_kept ?_ []
      rw [howed]
      exact h
    · refine triggerFor_kept ?_ r [] []
      exact h)

theorem changeHold_intake (k : Nat) (v : Hold) (s : State) : (changeHold k v s).intake = s.intake := by simp [changeHold]

theorem execCreateHold_gapSafe (p : Port) (tag : Nat) (scope : HoldScope) (note : Nat) :
    GapSafeCommand (execCreateHold p tag scope note) :=
  gapSafe_checked (fun r s h => by
    refine triggerFor_kept ?_ r _ _
    rw [changeHold_intake]
    exact h)

theorem execEditHold_gapSafe (p : Port) (tag k : Nat) (scope : HoldScope) (note : Nat) :
    GapSafeCommand (execEditHold p tag k scope note) :=
  gapSafe_checked (fun r => gapSafe_triggerFor (gapSafe_of_intake (fun _ => changeHold_intake k _ _)) r [] [])

theorem execDiscardHold_gapSafe (p : Port) (tag k : Nat) : GapSafeCommand (execDiscardHold p tag k) :=
  gapSafe_checked (fun r => gapSafe_triggerFor (gapSafe_of_intake (fun _ => changeHold_intake k _ _)) r [] [])

theorem execActivateHold_gapSafe (p : Port) (tag k : Nat) : GapSafeCommand (execActivateHold p tag k) :=
  gapSafe_checked (fun r s h => by
    refine trigger_kept ?_ []
    rw [(pushSweep_keeps ..).2.2.2.2.1, changeHold_intake]
    exact h)

theorem execReleaseHold_gapSafe (p : Port) (tag k : Nat) : GapSafeCommand (execReleaseHold p tag k) :=
  gapSafe_checked (fun r s h => by
    refine trigger_kept ?_ []
    rw [(pushSweep_keeps ..).2.2.2.2.1, changeHold_intake]
    exact h)

theorem execAckFindings_gapSafe (p : Port) (tag n : Nat) (o : AckOrder) : GapSafeCommand (execAckFindings p tag n o) :=
  gapSafe_checked (fun r s h => by
    refine triggerFor_kept (intakePasses_gapKept (freedFirst_gapKept ?_ o) _) r _ []
    exact h)

/-! ### Jobs, faults, Controller Reset and Format (R145, R152, R179 to R182, R186 to R190) -/

theorem execReconcile_gapSafe (p : Port) (tag : Nat) : GapSafeCommand (execReconcile p tag) :=
  gapSafe_checked (fun r s h => by
    refine reconcileOn_gapKept ?_
    exact h)

theorem execCancelAudit_gapSafe (p : Port) (tag : Nat) : GapSafeCommand (execCancelAudit p tag) :=
  gapSafe_checked (fun r => gapSafe_of_intake (fun s => by
    have hreleased : ∀ j (u : State), (releaseInHand j u).intake = u.intake := by
      intro j u
      unfold releaseInHand
      split <;> simp
    unfold cancelJob
    split
    · rfl
    · simp [discardAuditRead, hreleased]))

theorem execFetchFault_gapSafe (p : Port) (tag c : Nat) : GapSafeCommand (execFetchFault p tag c) :=
  gapSafe_checked (fun r => gapSafe_of_intake (fun s => by
    have hacknowledged : (acknowledgeFault p c s).intake = s.intake := by
      unfold acknowledgeFault
      split <;> rfl
    simpa using hacknowledged))

theorem execResume_gapSafe (p : Port) (tag e : Nat) : GapSafeCommand (execResume p tag e) :=
  gapSafe_checked (fun r s h => by
    unfold resumeNamed
    split
    · exact h
    · refine resumeEngine_gapKept ?_ _
      simpa [emptyContexts] using h)

theorem execAbandon_gapSafe (p : Port) (tag e : Nat) : GapSafeCommand (execAbandon p tag e) :=
  gapSafe_checked (fun r _ h => abandon_gapKept h r)

theorem execResetController_gapSafe (p : Port) (tag : Nat) : GapSafeCommand (execResetController p tag) :=
  gapSafe_checked (fun r s _ => by simp [controllerReset])

theorem execFormat_gapSafe (p : Port) (tag c : Nat) : GapSafeCommand (execFormat p tag c) :=
  gapSafe_checked (fun r s h => by
    split
    · exact beginFormat_gapKept h r false c
    · simpa [pendFormat] using h)

theorem execConsentFormat_gapSafe (p : Port) (tag n : Nat) : GapSafeCommand (execConsentFormat p tag n) :=
  gapSafe_checked (fun r s h => by
    split
    · exact h
    · exact beginFormat_gapKept h r true _)

/-! ### Requests on cursors (R158 to R165) -/

theorem execReadRecords_gapSafe (p : Port) (tag c n : Nat) : GapSafeCommand (execReadRecords p tag c n) :=
  gapSafe_checked (fun r => gapSafe_of_intake (fun s => by simp [touchCursor]))

theorem execSeek_gapSafe (p : Port) (tag c : Nat) (v : SeekOperand) : GapSafeCommand (execSeek p tag c v) :=
  gapSafe_checked (fun r => gapSafe_of_intake (fun s => by simp [seekCursor, touchCursor]))

theorem execSetDirection_gapSafe (p : Port) (tag c d : Nat) : GapSafeCommand (execSetDirection p tag c d) :=
  gapSafe_checked (fun r => gapSafe_of_intake (fun s => by
    have hturned : ∀ v, (turnCursor c v s).intake = s.intake := by
      intro v
      simp only [turnCursor]
      split <;> simp [touchCursor]
    simpa using hturned _))

theorem execCloseCursor_gapSafe (p : Port) (tag c : Nat) : GapSafeCommand (execCloseCursor p tag c) :=
  gapSafe_checked (fun r => gapSafe_of_intake (fun s => by
    have hcancelled : (cancelReading c s).intake = s.intake := by
      unfold cancelReading
      split <;> simp
    simpa using hcancelled))

theorem execReadCursor_gapSafe (p : Port) (tag c : Nat) : GapSafeCommand (execReadCursor p tag c) :=
  gapSafe_checked (fun r => gapSafe_of_intake (fun s => by
    have htouched : (touchOwned p c s).intake = s.intake := by
      unfold touchOwned
      split <;> simp [touchCursor]
    simpa using htouched))

/-! ### Every command, and every step (R15) -/

theorem exec_gapSafe {i : Instr} (hi : i.wf = true) : GapSafeCommand (exec i) := by
  cases i with
  | powerUp present => exact execPowerUp_gapSafe present
  | powerLoss => exact execPowerLoss_gapSafe
  | catalogReadComplete c res => exact execCatalogReadComplete_gapSafe c res
  | linkUp p => exact execLinkUp_gapSafe p
  | laneLoss p => exact execLaneLoss_gapSafe p
  | linkResetFrame p => exact execLinkResetFrame_gapSafe p
  | badFrame p f => exact execBadFrame_gapSafe p f
  | requestUnknownKind p tag kind => exact execRequestUnknownKind_gapSafe p tag kind
  | replySent p => exact execReplySent_gapSafe p
  | noticeSent p => exact execNoticeSent_gapSafe p
  | status p tag => exact gapSafe_request (fun r => gapSafe_of_intake (fun s => by simp))
  | setProfile p tag v => exact execSetProfile_gapSafe p tag v
  | enrolSource p tag n cls base =>
    simp only [Instr.wf, Bool.and_eq_true, fits, decide_eq_true_eq] at hi
    exact execEnrolSource_gapSafe p tag n cls hi.2
  | retireSource p tag n => exact execRetireSource_gapSafe p tag n
  | setSourceClass p tag n cls => exact execSetSourceClass_gapSafe p tag n cls
  | resequenceSource p tag n base =>
    simp only [Instr.wf, Bool.and_eq_true, fits, decide_eq_true_eq] at hi
    exact execResequenceSource_gapSafe p tag n hi.2
  | openFile p tag n sequence day records length =>
    simp only [Instr.wf, Bool.and_eq_true, fits, decide_eq_true_eq] at hi
    obtain ⟨⟨⟨⟨-, hsequence⟩, -⟩, -⟩, -⟩ := hi
    exact execOpenFile_gapSafe p tag n hsequence day records length
  | chunk p tag k offset data => exact execChunk_gapSafe p tag k offset data
  | closeFile p tag k crc => exact execCloseFile_gapSafe p tag k crc
  | fileAcceptance => exact execFileAcceptance_gapSafe
  | abortFile p tag k => exact execAbortFile_gapSafe p tag k
  | intakeIdleLimit k => exact execIntakeIdleLimit_gapSafe k
  | appendRecord ok => exact execAppendRecord_gapSafe ok
  | segmentWriteOk c => exact execSegmentWriteOk_gapSafe c
  | segmentWriteFail c => exact execSegmentWriteFail_gapSafe c
  | builderPageError c => exact execBuilderPageError_gapSafe c
  | channelTimeout c => exact execChannelTimeout_gapSafe c
  | operationEndDiscarded c ok => exact execOperationEndDiscarded_gapSafe c ok
  | defineCode p tag c v => exact execDefineCode_gapSafe p tag c v
  | retireCode p tag c => exact execRetireCode_gapSafe p tag c
  | setChannel p tag c mode => exact execSetChannel_gapSafe p tag c mode
  | advanceDay p tag => exact execAdvanceDay_gapSafe p tag
  | setClass p tag c days => exact execSetClass_gapSafe p tag c days
  | daySweepEntry => exact execDaySweepEntry_gapSafe
  | extendSweepEntry => exact execExtendSweepEntry_gapSafe
  | entryEraseComplete c ok => exact execEntryEraseComplete_gapSafe c ok
  | dirtySlotEraseComplete c ok => exact execDirtySlotEraseComplete_gapSafe c ok
  | createHold p tag scope note => exact execCreateHold_gapSafe p tag scope note
  | editHold p tag k scope note => exact execEditHold_gapSafe p tag k scope note
  | discardHold p tag k => exact execDiscardHold_gapSafe p tag k
  | activateHold p tag k => exact execActivateHold_gapSafe p tag k
  | applySweepEntry => exact execApplySweepEntry_gapSafe
  | holdLoss => exact execHoldLoss_gapSafe
  | releaseHold p tag k => exact execReleaseHold_gapSafe p tag k
  | releaseSweepEntry => exact execReleaseSweepEntry_gapSafe
  | ackFindings p tag n o => exact execAckFindings_gapSafe p tag n o
  | verifyReadComplete c res => exact execVerifyReadComplete_gapSafe c res
  | reconcile p tag => exact execReconcile_gapSafe p tag
  | reconcileReadComplete c res => exact execReconcileReadComplete_gapSafe c res
  | auditFindingResumed => exact execAuditFindingResumed_gapSafe
  | cancelAudit p tag => exact execCancelAudit_gapSafe p tag
  | cursorReadComplete c res bad => exact execCursorReadComplete_gapSafe c res bad
  | readRecords p tag c n => exact execReadRecords_gapSafe p tag c n
  | seek p tag c v => exact execSeek_gapSafe p tag c v
  | setDirection p tag c d => exact execSetDirection_gapSafe p tag c d
  | closeCursor p tag c => exact execCloseCursor_gapSafe p tag c
  | cursorIdleClose c => exact execCursorIdleClose_gapSafe c
  | readCursor p tag c => exact execReadCursor_gapSafe p tag c
  | checkpoint p tag => exact execCheckpoint_gapSafe p tag
  | catalogWriteOk n => exact execCatalogWriteOk_gapSafe n
  | catalogWriteFail => exact execCatalogWriteFail_gapSafe
  | setParameter p tag k v => exact execSetParameter_gapSafe p tag k v
  | resetController p tag => exact execResetController_gapSafe p tag
  | format p tag c => exact execFormat_gapSafe p tag c
  | consentFormat p tag n => exact execConsentFormat_gapSafe p tag n
  | formatConsentExpiry => exact execFormatConsentExpiry_gapSafe
  | formatEraseComplete c ok => exact execFormatEraseComplete_gapSafe c ok
  | formatImageWriteComplete ok => exact execFormatImageWriteComplete_gapSafe ok
  | fetchFault p tag c => exact execFetchFault_gapSafe p tag c
  | resume p tag e => exact execResume_gapSafe p tag e
  | abandon p tag e => exact execAbandon_gapSafe p tag e
  | setNoticeMask | readSource | readSlots | readTally | readCompaction | readCodes | readSegment | listSegments | readChannel
  | readRetention | readHold | fetchFindings | verify | readAudit | openCursor | readCatalog =>
    exact gapSafe_checked (fun r => gapSafe_of_intake (fun s => by simp))

/-- Every step keeps the law, the command at the front being one that can be given. -/
theorem step_gapLaw {s t : State} (hw : ∀ c, s.pending.head? = some c → c.wf = true) (h : s.gapLaw)
    (ht : step s = .next t) : t.gapLaw := by
  have hlawful : kept gapLawful s.intake := ⟨gapLawful_stable, h⟩
  unfold step at ht
  cases hp : s.pending with
  | nil =>
    rw [hp] at ht
    injection ht with ht
    have htick : (tick s).intake = s.intake := by
      unfold tick
      split <;> rfl
    rw [gapLaw_iff, ← ht, htick]
    exact h
  | cons c rest =>
    rw [hp] at ht
    exact (exec_gapSafe (hw c (by rw [hp]; rfl)) { s with pending := rest } t hlawful ht).2

/-- Settles O25: the law is kept command by command; fitting and splitting are said of the lists alone. -/
theorem gapRecordsFitAndSplit : Obligations.GapRecordsFitAndSplit :=
  ⟨fun _ _ hw _ h ht => step_gapLaw hw h ht, fitGaps_spec,
    fun _ _ _ hn hm hf hl hr hheld => takeFromGap_holds hn hm ⟨hf, hl, hr⟩ hheld⟩

end Sys2Proof.Machine
end

