-- ==== Sys2Proof/Proofs/FileRequests.lean ====
section
/-!
PROOFS. Proofs/FileRequests.lean: how a request of port A whose table of checks passes is answered, and what opening and
aborting a file do to the slots, the pages and the Day Tally (O27, O31).
-/

namespace Sys2Proof.Machine
open Sys2Proof

/-! ### Requests of port A (R194, R195) -/

/-- What reads nothing of the links holds of a state as it holds of any other with the same beside its links. -/
theorem of_beside {P : State → Prop} (hP : ∀ u, P u = P u.beside) {t w : State} (hb : t.beside = w.beside) (h : P w) :
    P t := by
  rw [hP, hb, ← hP]
  exact h

section
variable {s : State} {tag kind : Nat} {checks : State → List (Bool × Status)} {act : ReqRef → State → State}

/-- The first check that fails gives the reply, and nothing beside the links changes. -/
theorem portARequest_refused (ha : s.admits .a tag = true) {st : Status}
    (hc : firstRefusal (checks (taken s .a tag kind)) = some st) :
    ∃ t, request .a tag kind .aOnly (fun r u => checked r (checks u) (act r) u) s = .next t ∧ t.beside = s.beside ∧
      t.replied .a (replyTo tag kind st []) = true := by
  refine ⟨_, request_admitted ha kind rfl _, ?_, ?_⟩
  · simp [checked_refused hc]
  · rw [checked_refused hc]
    exact answer_replied (taken_isLive s .a tag kind) st []

/-- Where every check passes, the request's block acts. -/
theorem portARequest_passed (ha : s.admits .a tag = true) (hc : firstRefusal (checks (taken s .a tag kind)) = none) :
    request .a tag kind .aOnly (fun r u => checked r (checks u) (act r) u) s =
      .next (transmitBoth (act (refOf s .a tag kind) (taken s .a tag kind))) := by
  rw [request_admitted ha kind rfl, checked_passed hc]

/-- A block that changes the part to `w`, without a Link Reset of port A, and answers at once. -/
theorem portARequest_answered (ha : s.admits .a tag = true) (hc : firstRefusal (checks (taken s .a tag kind)) = none)
    {st : Status} {body : List Byte} {w : State}
    (hact : act (refOf s .a tag kind) (taken s .a tag kind) = answer (refOf s .a tag kind) st body w)
    (hw : (w.link .a).epoch = (s.link .a).epoch) :
    ∃ t, request .a tag kind .aOnly (fun r u => checked r (checks u) (act r) u) s = .next t ∧ t.beside = w.beside ∧
      t.replied .a (replyTo tag kind st body) = true := by
  have hlive : w.isLive (refOf s .a tag kind) = true := by simpa [State.isLive] using hw
  refine ⟨_, portARequest_passed ha hc, ?_, ?_⟩
  · simp [hact]
  · rw [hact]
    exact answer_replied hlive st body

end

/-- In SERVICE the checks most tables begin with pass. -/
theorem firstRefusal_serviceChecks {s : State} (h : s.cat.archive = .service) (cs : List (Bool × Status)) :
    firstRefusal (s.serviceChecks ++ cs) = firstRefusal cs := by
  simp [serviceChecks_eq, firstRefusal, h]

/-! ### A file opened (R38, R53) -/

/-- From `s` to `t` a file is opened in slot `k`: the slot, its pages and its key's place in the tally are taken; every other
slot and entry, and every other block, stands. -/
def State.opens (s t : State) (k n q d r l : Nat) : Prop :=
  t.intakeSlot k =
      { phase := .receiving, source := n, sequence := q, day := d, declaredRecords := r, declaredLength := l,
        pages := (l + 262143) / 262144, check := crcStart, lastActivity := s.second } ∧
    (∀ j, j ≠ k → t.intakeSlot j = s.intakeSlot j) ∧
    t.intake.freePages = s.intake.freePages - (l + 262143) / 262144 ∧
    t.tallyEntry n d = some { (s.tallyEntry n d).getD {} with inFlight := ((s.tallyEntry n d).getD {}).inFlight + 1 } ∧
    s.othersTallied t n d ∧
    t.intake.sources = s.intake.sources ∧ t.comp = s.comp ∧ t.media = s.media ∧ t.ret = s.ret ∧ t.cat = s.cat

theorem openSlot_opens (k n q d r l : Nat) (s : State) : s.opens (openSlot k n q d r l s) k n q d r l := by
  obtain ⟨f, hf⟩ : ∃ f : IntakeSlot, f =
      { phase := .receiving, source := n, sequence := q, day := d, declaredRecords := r, declaredLength := l,
        pages := pagesFor l, check := crcStart, lastActivity := s.second } := ⟨_, rfl⟩
  have hslot : ∀ j, (openSlot k n q d r l s).intakeSlot j = (s.setIntakeSlot k f).intakeSlot j :=
    intakeSlot_congr (by rw [hf]; rfl)
  refine ⟨?_, fun j hj => ?_, rfl, Tbl.find_put_same _ _ _, fun _ hi => Tbl.find_put_ne _ _ hi, rfl, rfl, rfl, rfl, rfl⟩
  · rw [hslot, State.setIntakeSlot_intakeSlot_same, hf]
    rfl
  · rw [hslot, State.setIntakeSlot_intakeSlot_ne s k f hj]

theorem openSlot_link (k n q d r l : Nat) (s : State) (p : Port) : (openSlot k n q d r l s).link p = s.link p := by
  cases p <;> rfl

/-- An open that passes the checks of R37 has an IDLE slot to take. -/
theorem idleSlot_of_openChecks {s : State} {n q d r l : Nat} (h : firstRefusal (s.openChecks n q d r l) = none) :
    ∃ k, s.idleSlot = some k := by
  rw [firstRefusal_none_iff] at h
  exact Option.isSome_iff_exists.mp (h (s.idleSlot.isSome, .noSlot) (by simp [State.openChecks]))

/-- Settles O27: the first check that fails refuses; where none does, the lowest IDLE slot is opened. -/
theorem openFileTakesASlot : Obligations.OpenFileTakesASlot := by
  intro tag n q d r l s ha
  refine ⟨fun st hc => ?_, fun hc => ?_⟩
  · exact portARequest_refused (checks := fun u => u.openChecks n q d r l) ha hc
  · obtain ⟨k, hk⟩ := idleSlot_of_openChecks hc
    have hidle : (taken s .a tag 24).idleSlot.getD 0 = k := by
      rw [show (taken s .a tag 24).idleSlot = s.idleSlot from rfl, hk, Option.getD_some]
    obtain ⟨t, hexec, hbeside, hreply⟩ := portARequest_answered (kind := 24) (st := .opened) (body := be 1 k)
      (checks := fun u => u.openChecks n q d r l)
      (act := fun r' u => answer r' .opened (be 1 (u.idleSlot.getD 0)) (openSlot (u.idleSlot.getD 0) n q d r l u))
      (w := openSlot k n q d r l (taken s .a tag 24)) ha hc (by simp only [hidle]) (by simp [openSlot_link])
    have hopens := of_beside (P := fun u => s.opens u k n q d r l) (fun _ => rfl) hbeside
      (openSlot_opens k n q d r l (taken s .a tag 24))
    exact ⟨k, t, hk, hexec, hreply, hopens⟩

/-! ### A file aborted (R49) -/

theorem abortSlot_slot_ne {k j : Nat} (hj : j ≠ k) (s : State) : (abortSlot k s).intakeSlot j = s.intakeSlot j := by
  rw [intakeSlot_congr (s := clearSlot k s) (by simp [abortSlot])]
  exact State.setIntakeSlot_intakeSlot_ne s k {} hj

theorem abortSlot_freePages (k : Nat) (s : State) :
    (abortSlot k s).intake.freePages = s.intake.freePages + (s.intakeSlot k).pages := by
  simp [abortSlot, freePages]

/-- The file leaves its key's tally entry; no other entry changes. -/
theorem abortSlot_tally (k : Nat) (s : State) :
    (abortSlot k s).tallyEntry (s.intakeSlot k).source (s.intakeSlot k).day =
        (s.tallyEntry (s.intakeSlot k).source (s.intakeSlot k).day).map
          (leftEntry s.today s.lookback (s.intakeSlot k).day) ∧
      s.othersTallied (abortSlot k s) (s.intakeSlot k).source (s.intakeSlot k).day := by
  have htally : (freePages (s.intakeSlot k).pages (clearSlot k s)).intake.tally = s.intake.tally := by simp
  refine ⟨?_, (othersTallied_of_tally htally _ _).trans (leaveFlight_others _ _ _)⟩
  rw [abortSlot, leaveFlight_tallyEntry, tallyEntry_congr htally]
  rfl

/-- Of a file that leaves it, an entry keeps every count but that of the files in flight, which falls by one. -/
theorem leftEntry_counts (today lookback d : Nat) (y : TallyEntry) :
    let z := leftEntry today lookback d y
    z.inFlight = y.inFlight - 1 ∧ z.filesAccepted = y.filesAccepted ∧ z.filesRefused = y.filesRefused ∧
      z.declared = y.declared ∧ z.recordsAccepted = y.recordsAccepted ∧ z.recordsRejected = y.recordsRejected := by
  simp only [leftEntry]
  rw [closingTest_eq]
  exact ⟨rfl, rfl, rfl, rfl, rfl, rfl⟩

/-- An aborted file gives up its slot and its pages and is counted nowhere; every other block stands. -/
theorem abortSlot_spec (k : Nat) (s : State) :
    let t := abortSlot k s
    let f := s.intakeSlot k
    t.intakeSlot k = {} ∧ (∀ j, j ≠ k → t.intakeSlot j = s.intakeSlot j) ∧
      t.intake.freePages = s.intake.freePages + f.pages ∧ t.intake.sources = s.intake.sources ∧
      (∀ y, s.tallyEntry f.source f.day = some y → ∃ z, t.tallyEntry f.source f.day = some z ∧
        z.inFlight = y.inFlight - 1 ∧ z.filesAccepted = y.filesAccepted ∧ z.filesRefused = y.filesRefused ∧
        z.declared = y.declared ∧ z.recordsAccepted = y.recordsAccepted ∧ z.recordsRejected = y.recordsRejected) ∧
      s.othersTallied t f.source f.day ∧ t.comp = s.comp ∧ t.media = s.media ∧ t.ret = s.ret ∧ t.audit = s.audit ∧
      t.cursors = s.cursors ∧ t.cat = s.cat := by
  intro t f
  obtain ⟨hentry, hothers⟩ := abortSlot_tally k s
  refine ⟨abortSlot_slot k s, fun j hj => abortSlot_slot_ne hj s, abortSlot_freePages k s, by simp [t], fun y hy => ?_,
    hothers, ?_⟩
  · exact ⟨_, by rw [hentry, hy]; rfl, leftEntry_counts _ _ _ y⟩
  · simp [t]

/-- The checks of ABORT-FILE after the port (R49). -/
def State.abortChecks (k : Nat) (s : State) : List (Bool × Status) :=
  s.serviceChecks ++
    [(decide (k < Config.intakeSlots), .badField), (decide ((s.intakeSlot k).phase ≠ .idle), .wrongState),
     (decide ((s.intakeSlot k).phase ≠ .closing), .busy)]

/-- Settles O31: port B may not abort; on port A the checks of R49 decide; an idle abort is the same act, with its notice. -/
theorem abortedFilesAreCountedNowhere : Obligations.AbortedFilesAreCountedNowhere := by
  intro k s f checks aborted
  refine ⟨fun tag ha => ?portB, fun tag st ha hc => ?refused, fun tag ha hc => ?aborted, fun hphase hlimit => ?idle⟩
  case portB =>
    exact ⟨_, request_notPermitted ha 27 rfl _, by simp, replied_of_mem (by simp)⟩
  case refused =>
    exact portARequest_refused (checks := State.abortChecks k) ha hc
  case aborted =>
    obtain ⟨t, hexec, hbeside, hreply⟩ := portARequest_answered (kind := 27) (st := .ok) (body := [])
      (checks := State.abortChecks k) (act := fun r u => answer r .ok [] (abortSlot k u)) ha hc rfl (by simp)
    exact ⟨t, hexec, of_beside (P := aborted) (fun _ => rfl) hbeside (abortSlot_spec k (taken s .a tag 27)), hreply⟩
  case idle =>
    have hexec : exec (.intakeIdleLimit k) s =
        .next (transmitBoth (raiseOn .a noticeFileAborted k (abortSlot k (clearFrames s)))) := by
      have hidle : ((clearFrames s).intakeSlot k).phase = .receiving ∧
          ((clearFrames s).intakeSlot k).lastActivity + (clearFrames s).cat.params.idleLimit ≤ (clearFrames s).second :=
        ⟨hphase, hlimit⟩
      exact (turn_next _ s).trans (by simp only [if_pos hidle])
    refine ⟨_, hexec, of_beside (P := aborted) (fun _ => rfl) ?_ (abortSlot_spec k (clearFrames s)), ?_⟩
    · simp
    · change ((transmitBoth _).link .a).line noticeFileAborted = ((s.link .a).line noticeFileAborted).raise k
      simp

end Sys2Proof.Machine
end

