-- ==== Sys2Proof/Proofs/Chunks.lean ====
section
/-!
PROOFS. Proofs/Chunks.lean: what the bytes of a chunk make of the slot that takes them, record by record, and what a CHUNK in
order, out of order or past the declared length does (O28).
-/

namespace Sys2Proof.Machine
open Sys2Proof

/-! ### Bytes cut into records (R5, R7, R8) -/

section
variable {p : Profile} {f : IntakeSlot}

/-- A slot with no record begun. -/
theorem begun_empty (hf : f.begun = []) : ({ f with begun := [] } : IntakeSlot) = f :=
  (congrArg (fun l => ({ f with begun := l } : IntakeSlot)) hf).symm

/-- Bytes that do not end the record they begin wait. -/
theorem takeBytes_unfinished (hf : f.begun = []) {bs : List Byte} (hbs : bs ≠ [] → bs.length < byteAt bs 0) :
    f.takeBytes p bs = { f with begun := bs } := by
  induction bs using List.reverseRecOn with
  | nil => exact (begun_empty hf).symm
  | append_singleton bs b ih =>
    have hwaits : (bs ++ [b]).length < byteAt (bs ++ [b]) 0 := hbs (by simp)
    have hbefore : f.takeBytes p bs = { f with begun := bs } := ih (fun hne => by
      rw [byteAt_append_left [b] (List.length_pos_iff.mpr hne)] at hwaits
      exact Nat.lt_of_succ_lt (by simpa using hwaits))
    rw [IntakeSlot.takeBytes_append, hbefore]
    exact if_neg (Nat.not_le.mpr hwaits)

/-- Bytes that are one record to its last byte are judged. -/
theorem takeBytes_record (hf : f.begun = []) {bs : List Byte} (hne : bs ≠ []) (hlen : bs.length = max 1 (byteAt bs 0)) :
    f.takeBytes p bs = f.judge p bs := by
  obtain ⟨init, b, rfl⟩ : ∃ init b, bs = init ++ [b] := ⟨_, _, (List.dropLast_append_getLast hne).symm⟩
  have hends : byteAt (init ++ [b]) 0 ≤ (init ++ [b]).length := by rw [hlen]; exact Nat.le_max_right _ _
  have hbefore : f.takeBytes p init = { f with begun := init } := takeBytes_unfinished hf (fun hi => by
    have hpos := List.length_pos_iff.mpr hi
    rw [byteAt_append_left [b] hpos, List.length_append, List.length_singleton] at hlen
    omega)
  rw [IntakeSlot.takeBytes_append, hbefore]
  exact (if_pos hends).trans (by rw [begun_empty hf])

end

/-- The carried form of a record that fits the profile is as long as its length byte says. -/
theorem recordBytes_whole {p : Profile} {r : Record} (h : r.fitsProfile p = true) :
    recordBytes r ≠ [] ∧ (recordBytes r).length = max 1 (byteAt (recordBytes r) 0) := by
  have hbyte := recordBytes_length h
  have hlen : (recordBytes r).length = byteAt (recordBytes r) 0 := by
    rw [hbyte, recordBytes_eq, List.length_append, List.length_append, fixedBytes_length, ← Nat.add_assoc]
  refine ⟨List.length_pos_iff.mp ?_, ?_⟩ <;> omega

/-- A rejection counts for its reason alone. -/
theorem Rejects.count_add (r : Rejects) (e d : RejectReason) :
    (r.add e).count d = r.count d + if d = e then 1 else 0 := by
  cases e <;> cases d <;> rfl

/-- A record that fits the profile is kept, seen and accepted. -/
theorem receive_accepted {f : IntakeSlot} {p : Profile} {r : Record} (hf : f.begun = []) (hr : r.fitsProfile p = true)
    (now : Nat) :
    f.receive p now (recordBytes r) =
      { f with
        received := f.received + (recordBytes r).length, check := crcBytes f.check (recordBytes r), lastActivity := now,
        seen := f.seen + 1, accepted := f.accepted + 1, records := f.records ++ [r] } := by
  obtain ⟨hne, hlen⟩ := recordBytes_whole hr
  rw [IntakeSlot.receive_eq, takeBytes_record hf hne hlen, IntakeSlot.judge, validate_recordBytes hr]

/-- One that fails a check of R7 is seen and rejected with its reason. -/
theorem receive_rejected {f : IntakeSlot} {p : Profile} {bs : List Byte} {e : RejectReason} (hf : f.begun = [])
    (hne : bs ≠ []) (hlen : bs.length = max 1 (byteAt bs 0)) (he : validate p bs = .error e) (now : Nat) :
    f.receive p now bs =
      { f with
        received := f.received + bs.length, check := crcBytes f.check bs, lastActivity := now, seen := f.seen + 1,
        rejects := f.rejects.add e } := by
  rw [IntakeSlot.receive_eq, takeBytes_record hf hne hlen, IntakeSlot.judge, he]

/-- Bytes that end no record wait and count nothing. -/
theorem receive_waits {f : IntakeSlot} {bs : List Byte} (hf : f.begun = []) (hlen : bs.length < byteAt bs 0)
    {p : Profile} (now : Nat) :
    f.receive p now bs =
      { f with
        received := f.received + bs.length, check := crcBytes f.check bs, lastActivity := now, begun := bs } := by
  rw [IntakeSlot.receive_eq, takeBytes_unfinished hf (fun _ => hlen)]

/-- Bytes in two chunks count as in one. -/
theorem receive_receive (f : IntakeSlot) (p : Profile) (now later : Nat) (bs more : List Byte) :
    (f.receive p now bs).receive p later more = f.receive p later (bs ++ more) := by
  have htaken : (f.receive p now bs).takeBytes p more =
      { (f.takeBytes p bs).takeBytes p more with
        received := f.received + bs.length, check := crcBytes f.check bs, lastActivity := now } :=
    IntakeSlot.takeBytes_stamp p _ _ _ more _
  rw [IntakeSlot.receive_eq, htaken, IntakeSlot.receive_eq, IntakeSlot.receive_eq, IntakeSlot.takeBytes_append,
    crcBytes_append, List.length_append, Nat.add_assoc]

/-! ### Chunks (R40, R42) -/

theorem refuseFile_slot_ne {k j : Nat} (hj : j ≠ k) (s : State) : (refuseFile k s).intakeSlot j = s.intakeSlot j := by
  rw [refuseFile, abortSlot_slot_ne hj]
  exact intakeSlot_congr (by simp) j

theorem refuseFile_freePages (k : Nat) (s : State) :
    (refuseFile k s).intake.freePages = s.intake.freePages + (s.intakeSlot k).pages := by
  have hslot : (s.changeTally (s.intakeSlot k).source (s.intakeSlot k).day
      (fun y => tallyRefuse y (s.intakeSlot k).declaredRecords)).intakeSlot k = s.intakeSlot k :=
    intakeSlot_congr (by simp) k
  rw [refuseFile, abortSlot_freePages, hslot]
  simp

/-- From `s` to `t` the file of slot `k` is ended as refused (R47). -/
def State.endsRefused (s t : State) (k : Nat) : Prop :=
  t.intakeSlot k = {} ∧ t.intake.freePages = s.intake.freePages + (s.intakeSlot k).pages ∧
    t.intake.sources = s.intake.sources ∧ s.tallyRefused t (s.intakeSlot k) ∧
    (∀ j, j ≠ k → t.intakeSlot j = s.intakeSlot j) ∧ t.comp = s.comp

theorem refuseFile_endsRefused (k : Nat) (s : State) : s.endsRefused (refuseFile k s) k :=
  ⟨refuseFile_slot k s, refuseFile_freePages k s, by simp, refuseFile_tallyRefused k s,
    fun _ hj => refuseFile_slot_ne hj s, by simp⟩

section
variable {tag k : Nat} {bs : List Byte} {s : State}

/-- A CHUNK that passes the first checks of R40 and is answered at once by what `takeChunk` does. -/
theorem exec_chunk_answered (ha : s.admits .a tag = true) (hservice : s.cat.archive = .service) (hk : k < 8)
    (hmin : 1 ≤ bs.length) (hmax : bs.length ≤ 4096)
    (hphase : (s.intakeSlot k).phase = .receiving) {o : Nat} {st : Status} {body : List Byte} {w : State}
    (hact : takeChunk (refOf s .a tag 25) k o bs (taken s .a tag 25) = answer (refOf s .a tag 25) st body w)
    (hw : (w.link .a).epoch = (s.link .a).epoch) :
    ∃ t, exec (.chunk .a tag k o bs) s = .next t ∧ t.beside = w.beside ∧
      t.replied .a (replyTo tag 25 st body) = true := by
  refine portARequest_answered (kind := 25) (checks := fun u => u.serviceChecks ++
      [(decide (k < Config.intakeSlots) && decide (1 ≤ bs.length) && decide (bs.length ≤ 4096), .badField),
       (decide ((u.intakeSlot k).phase = .receiving), .wrongState)])
    (act := fun r => takeChunk r k o bs) ha ?_ hact hw
  have hphase' : ((taken s .a tag 25).intakeSlot k).phase = .receiving := hphase
  rw [firstRefusal_serviceChecks (s := taken s .a tag 25) hservice, firstRefusal_none_iff]
  simp [hk, hmin, hmax, hphase', Config.intakeSlots]

end

/-- Settles O28: the bytes by the records they make, the CHUNK by where its offset and its last byte stand. -/
theorem chunksAreReceivedInOrder : Obligations.ChunksAreReceivedInOrder := by
  refine ⟨?bytes, fun tag k o bs s ha hservice hk hmin hmax hphase => ⟨fun ho hfits => ?inOrder, fun ho => ?outOfOrder,
    fun ho hpast => ?overrun⟩⟩
  case bytes =>
    intro f p now bs taken g
    refine ⟨?kept, ?rejected, ?waiting, fun later more => receive_receive f p now later bs more⟩
    case kept =>
      rintro r hf hr rfl
      exact receive_accepted hf hr now
    case rejected =>
      intro e hf hne hlen he
      have hg : g = { taken with seen := f.seen + 1, rejects := f.rejects.add e } :=
        receive_rejected hf hne hlen he now
      rw [hg]
      exact ⟨rfl, Rejects.count_add f.rejects e⟩
    case waiting =>
      intro hf _ hlen
      exact receive_waits hf hlen now
  case inOrder =>
    subst ho
    have hroom : ¬(s.intakeSlot k).declaredLength < (s.intakeSlot k).received + bs.length := Nat.not_lt.mpr hfits
    obtain ⟨t, hexec, hbeside, hreply⟩ := exec_chunk_answered ha hservice hk hmin hmax hphase
      (w := (taken s .a tag 25).setIntakeSlot k ((s.intakeSlot k).receive s.cat.profile s.second bs))
      ((if_neg (fun h => h rfl)).trans (if_neg hroom)) (by simp)
    have hslot : ∀ j, t.intakeSlot j =
        if j = k then (s.intakeSlot k).receive s.cat.profile s.second bs else s.intakeSlot j := fun j =>
      of_beside (P := fun u => u.intakeSlot j = _) (fun _ => rfl) hbeside
        (State.setIntakeSlot_intakeSlot (taken s .a tag 25) k _ j)
    have hk' := (hslot k).trans (if_pos rfl)
    have hrest := of_beside (P := fun u => u.intake.tally = s.intake.tally ∧ u.intake.freePages = s.intake.freePages ∧
      u.intake.sources = s.intake.sources ∧ u.comp = s.comp) (fun _ => rfl) hbeside ⟨rfl, rfl, rfl, rfl⟩
    refine ⟨t, hexec, ?_⟩
    rw [hk']
    exact ⟨rfl, rfl, rfl, hreply, fun j hj => (hslot j).trans (if_neg hj), hrest⟩
  case outOfOrder =>
    exact exec_chunk_answered ha hservice hk hmin hmax hphase (w := taken s .a tag 25) (if_pos ho) (by simp)
  case overrun =>
    subst ho
    obtain ⟨t, hexec, hbeside, hreply⟩ := exec_chunk_answered ha hservice hk hmin hmax hphase
      (w := refuseFile k (taken s .a tag 25)) ((if_neg (fun h => h rfl)).trans (if_pos hpast)) (by simp)
    obtain ⟨hslot, hpages, hsources, htally, hothers, hcomp⟩ :=
      of_beside (P := fun u => s.endsRefused u k) (fun _ => rfl) hbeside (refuseFile_endsRefused k (taken s .a tag 25))
    exact ⟨t, hexec, hslot, hpages, hsources, hreply, htally, hothers, hcomp⟩

end Sys2Proof.Machine
end

