-- ==== Sys2Proof/Proofs/FileCloses.lean ====
section
/-!
PROOFS. Proofs/FileCloses.lean: a CLOSE-FILE makes its slot CLOSING, with the record that the file's end cuts off, and the
content checks pass the file on or refuse it (O29).
-/

namespace Sys2Proof.Machine
open Sys2Proof

/-! ### The slot as it closes (R5, R43) -/

/-- The end of the whole file cuts off the record begun in the slot (R5). -/
def IntakeSlot.cutOff (f : IntakeSlot) : Prop := f.begun ≠ [] ∧ f.received = f.declaredLength

theorem close_cutOff {f : IntakeSlot} (h : f.cutOff) (r : ReqRef) :
    f.close r = { f with
      phase := .closing, begun := [], closeReq := some r, seen := f.seen + 1, rejects := f.rejects.add .badLength } := by
  have hcut : ¬(f.begun.isEmpty || decide (f.received ≠ f.declaredLength)) = true := by simpa [IntakeSlot.cutOff] using h
  exact if_neg hcut

theorem close_whole {f : IntakeSlot} (h : ¬f.cutOff) (r : ReqRef) :
    f.close r = { f with phase := .closing, begun := [], closeReq := some r } := by
  have hwhole : (f.begun.isEmpty || decide (f.received ≠ f.declaredLength)) = true := by
    simpa using not_and_or.mp h
  exact if_pos hwhole

/-- Beside its phase, its pending bytes and its CLOSE-FILE, a closing slot's counts alone change. -/
theorem close_eq (f : IntakeSlot) (r : ReqRef) :
    f.close r = { f with
      phase := .closing, begun := [], closeReq := some r, seen := (f.close r).seen, rejects := (f.close r).rejects } := by
  by_cases h : f.cutOff
  · rw [close_cutOff h]
  · rw [close_whole h]

theorem close_keeps (f : IntakeSlot) (r : ReqRef) :
    (f.close r).phase = .closing ∧ (f.close r).closeReq = some r ∧ (f.close r).pages = f.pages := by
  rw [close_eq]
  exact ⟨rfl, rfl, rfl⟩

/-! ### The close begun (R43, R44, R47) -/

/-- The part with slot `k` CLOSING and its close the latest. -/
def closingSlot (r : ReqRef) (k : Nat) (s : State) : State :=
  let t := s.setIntakeSlot k ((s.intakeSlot k).close r)
  { t with intake := { t.intake with closing := t.intake.closing ++ [k] } }

theorem closingSlot_slot (r : ReqRef) (k j : Nat) (s : State) :
    (closingSlot r k s).intakeSlot j = if j = k then (s.intakeSlot k).close r else s.intakeSlot j :=
  State.setIntakeSlot_intakeSlot s k _ j

theorem closingSlot_same (r : ReqRef) (k : Nat) (s : State) :
    (closingSlot r k s).intakeSlot k = (s.intakeSlot k).close r := (closingSlot_slot r k k s).trans (if_pos rfl)

theorem closingSlot_link (r : ReqRef) (k : Nat) (s : State) (p : Port) : (closingSlot r k s).link p = s.link p := by
  cases p <;> rfl

theorem beginFileClose_passed {k : Nat} {r : ReqRef} {crc : Crc} {s : State}
    (h : firstRefusal (contentChecks ((s.intakeSlot k).close r) crc s.cat.params.tolerance) = none) :
    beginFileClose r k crc s = closingSlot r k s := by
  simp only [beginFileClose, h, closingSlot]

theorem beginFileClose_refused {k : Nat} {r : ReqRef} {crc : Crc} {s : State} {st : Status}
    (h : firstRefusal (contentChecks ((s.intakeSlot k).close r) crc s.cat.params.tolerance) = some st) :
    beginFileClose r k crc s = refuseClose k st (closingSlot r k s) := by
  simp only [beginFileClose, h, closingSlot]

theorem refuseClose_freePages (k : Nat) (st : Status) (s : State) :
    (refuseClose k st s).intake.freePages = s.intake.freePages + (s.intakeSlot k).pages := by
  rw [← refuseFile_freePages]
  simp only [refuseClose]
  split <;> simp

/-- A CLOSE-FILE that passes the first checks of R43 begins its close. -/
theorem exec_closeFile {tag k : Nat} {s : State} (ha : s.admits .a tag = true) (hservice : s.cat.archive = .service)
    (hk : k < 8) (hphase : (s.intakeSlot k).phase = .receiving) (crc : Crc) :
    exec (.closeFile .a tag k crc) s =
      .next (transmitBoth (beginFileClose (refOf s .a tag 26) k crc (taken s .a tag 26))) := by
  refine portARequest_passed (kind := 26) (checks := fun u => u.serviceChecks ++
      [(decide (k < Config.intakeSlots), .badField), (decide ((u.intakeSlot k).phase = .receiving), .wrongState)])
    (act := fun r => beginFileClose r k crc) ha ?_
  have hphase' : ((taken s .a tag 26).intakeSlot k).phase = .receiving := hphase
  rw [firstRefusal_serviceChecks (s := taken s .a tag 26) hservice, firstRefusal_none_iff]
  simp [hk, hphase', Config.intakeSlots]

/-- Settles O29: the slot as it closes, and the content checks by their first refusal. -/
theorem closeFileChecksTheContent : Obligations.CloseFileChecksTheContent := by
  intro tag k crc s ha hservice hk hphase r f cut
  have hexec : exec (.closeFile .a tag k crc) s = .next (transmitBoth (beginFileClose r k crc (taken s .a tag 26))) :=
    exec_closeFile ha hservice hk hphase crc
  obtain ⟨hclosing, hreq, hpages⟩ := close_keeps (s.intakeSlot k) r
  refine ⟨⟨close_eq _ r, ?seen, ?rejects, rfl⟩, fun hpass => ?passed, fun st hrefused => ?refused⟩
  case seen =>
    by_cases h : cut
    · rw [if_pos h, show f = _ from close_cutOff h r]
    · rw [if_neg h, show f = _ from close_whole h r]
      rfl
  case rejects =>
    intro d
    by_cases h : cut
    · rw [show f = _ from close_cutOff h r, Rejects.count_add]
      simp [h]
    · rw [show f = _ from close_whole h r]
      simp [h]
  case passed =>
    rw [beginFileClose_passed (s := taken s .a tag 26) hpass] at hexec
    have hslot := fun j => closingSlot_slot r k j (taken s .a tag 26)
    exact ⟨_, hexec, (hslot k).trans (if_pos rfl), hclosing, rfl, fun j hj => (hslot j).trans (if_neg hj), rfl, rfl, rfl⟩
  case refused =>
    rw [beginFileClose_refused (s := taken s .a tag 26) hrefused] at hexec
    have hsame : (closingSlot r k (taken s .a tag 26)).intakeSlot k = f := closingSlot_same r k (taken s .a tag 26)
    have hlive : (closingSlot r k (taken s .a tag 26)).isLive r = true :=
      (isLive_congr r (by rw [closingSlot_link])).trans (taken_isLive s .a tag 26)
    have hfree := refuseClose_freePages k st (closingSlot r k (taken s .a tag 26))
    obtain ⟨hslot, hsources, hreply, htally, hcomp⟩ := refuseClose_spec st (by rw [hsame]; exact hreq) hlive
    rw [hsame] at hreply htally hfree
    exact ⟨_, hexec, hslot, replied_of_mem hreply, hfree.trans (by rw [hpages]; rfl), hsources, htally.congr rfl rfl,
      hcomp⟩

end Sys2Proof.Machine
end

