-- ==== Sys2Proof/Proofs/Stock.lean ====
section
/-!
PROOFS. Proofs/Stock.lean: the stock of the part, which is what the laws of the Compaction Queue, the intake pages and the
shared codes speak of, and the acts that leave it alone (R57, R58, R74).
-/

namespace Sys2Proof.Machine
open Sys2Proof

/-- What the laws of R57, R58 and R74 speak of: the files received and queued with their pages, the builders, the shared codes
and the directory. -/
structure Stock where
  slots    : Tbl IntakeSlot
  free     : Nat
  queue    : List QueuedFile
  builders : Tbl Builder
  codes    : Tbl SharedCode
  dir      : Tbl DirEntry

/-- The stock of the part as it stands. -/
def State.stock (s : State) : Stock :=
  { slots := s.intake.slots, free := s.intake.freePages, queue := s.comp.queue, builders := s.comp.builders,
    codes := s.comp.codes, dir := s.media.dir }

theorem stock_iff {s t : State} : t.stock = s.stock ↔
    t.intake.slots = s.intake.slots ∧ t.intake.freePages = s.intake.freePages ∧ t.comp.queue = s.comp.queue ∧
      t.comp.builders = s.comp.builders ∧ t.comp.codes = s.comp.codes ∧ t.media.dir = s.media.dir := by
  simp [State.stock]

/-- The stock depends on the intake, the Compaction Unit and the directory alone. -/
theorem stock_congr {s t : State} (hi : t.intake = s.intake) (hc : t.comp = s.comp) (hd : t.media.dir = s.media.dir) :
    t.stock = s.stock := by simp [State.stock, hi, hc, hd]

section
variable (s : State)

/-! ### Tables beside the stock -/

@[simp] theorem setChannel_stock (c : Nat) (v : Channel) : (s.setChannel c v).stock = s.stock := (rfl)
@[simp] theorem setSlotState_stock (r : SlotRef) (v : SlotState) : (s.setSlotState r v).stock = s.stock := (rfl)
@[simp] theorem setFlash_stock (c k : Nat) (v : SlotContent) : (s.setFlash c k v).stock = s.stock := (rfl)
@[simp] theorem setSource_stock (n : Nat) (v : SourceEntry) : (s.setSource n v).stock = s.stock := (rfl)
@[simp] theorem setTally_stock (n d : Nat) (v : TallyEntry) : (s.setTally n d v).stock = s.stock := (rfl)
@[simp] theorem setRetClass_stock (c : Nat) (v : ClassEntry) : (s.setRetClass c v).stock = s.stock := (rfl)
@[simp] theorem setHold_stock (k : Nat) (v : Hold) : (s.setHold k v).stock = s.stock := (rfl)
@[simp] theorem setSweeps_stock (q : List Sweep) : (s.setSweeps q).stock = s.stock := (rfl)
@[simp] theorem setJob_stock (j : Option Job) : (s.setJob j).stock = s.stock := (rfl)
@[simp] theorem setCursor_stock (c : Nat) (v : Cursor) : (s.setCursor c v).stock = s.stock := (rfl)
@[simp] theorem setLoad_stock (l : Option Load) : (s.setLoad l).stock = s.stock := (rfl)
@[simp] theorem setFormat_stock (f : Option FormatOp) : (s.setFormat f).stock = s.stock := (rfl)
@[simp] theorem setOpening_stock (w : Option OpenWait) : (setOpening w s).stock = s.stock := (rfl)

/-! ### Ports, faults and findings -/

@[simp] theorem setLink_stock (p : Port) (l : LinkIf) : (s.setLink p l).stock = s.stock := by simp [State.stock]
@[simp] theorem answer_stock (r : ReqRef) (st : Status) (b : List Byte) : (answer r st b s).stock = s.stock := by
  simp [State.stock]
@[simp] theorem refuse_stock (r : ReqRef) (st : Status) : (refuse r st s).stock = s.stock := by simp [refuse]
@[simp] theorem raiseOn_stock (p : Port) (k n : Nat) : (raiseOn p k n s).stock = s.stock := by simp [State.stock]
@[simp] theorem raiseBoth_stock (k n : Nat) : (raiseBoth k n s).stock = s.stock := by simp [State.stock]
@[simp] theorem transmitBoth_stock : (transmitBoth s).stock = s.stock := by simp [State.stock]
@[simp] theorem answerWaiters_stock (d : Bool) (ws : List Waiter) : (answerWaiters d ws s).stock = s.stock := by
  simp [State.stock]
@[simp] theorem abandonCheckpoint_stock : (abandonCheckpoint s).stock = s.stock := by simp [State.stock]
@[simp] theorem stopEngine_stock (e : Engine) : (stopEngine e s).stock = s.stock := by
  cases e with
  | compaction => simp only [stopEngine, stopCompaction]; split <;> simp [State.stock]
  | eraser => rfl
  | catalog => rfl
@[simp] theorem writeFinding_stock (b : FindingBody) : (writeFinding b s).stock = s.stock := by simp [State.stock]
@[simp] theorem exportGaps_stock (n : Nat) (reason : GapReason) (gs : List GapRecord) :
    (exportGaps n reason gs s).stock = s.stock := by simp [State.stock]

/-! ### Tally and sources -/

@[simp] theorem changeTally_stock (n d : Nat) (f : TallyEntry → TallyEntry) : (s.changeTally n d f).stock = s.stock := by
  simp [State.stock]
@[simp] theorem leaveFlight_stock (n d : Nat) : (leaveFlight n d s).stock = s.stock := by simp [State.stock]
@[simp] theorem releaseTest_stock (n : Nat) : (releaseTest n s).stock = s.stock := by simp [State.stock]
@[simp] theorem ageGaps_stock : (ageGaps s).stock = s.stock := by simp [State.stock]
@[simp] theorem intakePasses_stock (n : Nat) : (intakePasses n s).stock = s.stock := by
  unfold intakePasses
  split <;> simp [State.stock]
@[simp] theorem closeTallies_stock : (closeTallies s).stock = s.stock := by simp [State.stock]

/-! ### Channels -/

@[simp] theorem leaveInSlot_stock (c : Nat) (op : Op) (ok : Bool) : (leaveInSlot c op ok s).stock = s.stock := by
  unfold leaveInSlot
  split <;> simp
@[simp] theorem startNext_stock (c : Nat) : (startNext c s).stock = s.stock := by simp [State.stock]
@[simp] theorem askOp_stock (c : Nat) (op : Op) : (askOp c op s).stock = s.stock := by simp [State.stock]
@[simp] theorem endOp_stock (c : Nat) : (endOp c s).stock = s.stock := by simp [State.stock]
@[simp] theorem mapChannels_stock (f : Channel → Channel) : (mapChannels f s).stock = s.stock := by simp [State.stock]
@[simp] theorem beginWriting_stock : (beginWriting s).stock = s.stock := by simp [State.stock]
@[simp] theorem writeImage_stock (img : Image) (area : Nat) : (writeImage img area s).stock = s.stock := by
  simp [State.stock]
@[simp] theorem catalogSlots_stock (c : Nat) : (catalogSlots c s).stock = s.stock := by simp [State.stock]
@[simp] theorem askRead_stock (e : Nat) (who : Requester) : (askRead e who s).stock = s.stock := by simp [State.stock]
@[simp] theorem askErase_stock (c k : Nat) (e : Option Nat) : (askErase c k e s).stock = s.stock := by
  simp [State.stock, askErase]
@[simp] theorem askFormatErase_stock (c k : Nat) : (askFormatErase c k s).stock = s.stock := by simp [askFormatErase]
@[simp] theorem askCatalogRead_stock (c k : Nat) : (askCatalogRead c k s).stock = s.stock := by simp [askCatalogRead]

/-! ### Sweeps, loads and the code table apart -/

@[simp] theorem pushSweep_stock (k : SweepKind) (rs : List ReqRef) : (pushSweep k rs s).stock = s.stock := by
  simp [State.stock]
@[simp] theorem popSweep_stock : (popSweep s).stock = s.stock := by simp [State.stock]
@[simp] theorem endLoadWith_stock (a : ArchiveState) : (endLoadWith a s).stock = s.stock := by simp [State.stock]
@[simp] theorem beginReads_stock : (beginReads s).stock = s.stock := by simp [State.stock]
@[simp] theorem removeTally_stock (i : Nat) : (removeTally i s).stock = s.stock := by simp [State.stock]
@[simp] theorem endJob_stock (j : Job) (st : Status) : (endJob j st s).stock = s.stock := by simp [endJob]
@[simp] theorem suspendJob_stock (j : Job) (b : FindingBody) : (suspendJob j b s).stock = s.stock := (rfl)
@[simp] theorem passEntry_stock (c e : Nat) : (passEntry c e s).stock = s.stock := (rfl)
@[simp] theorem sendRecords_stock (c : Nat) (w : ReadWait) (st : Status) : (sendRecords c w st s).stock = s.stock := by
  simp [sendRecords]
@[simp] theorem emptyContexts_stock (e : Engine) : (emptyContexts e s).stock = s.stock := (rfl)

end

end Sys2Proof.Machine
end

