-- ==== Sys2Proof/Proofs/StockMoves.lean ====
section
/-!
PROOFS. Proofs/StockMoves.lean: the acts that the commands are made of, as far as the stock goes, and how each leaves the
Compaction Queue bounded and the intake pages 3,808 together (R57, R58).
-/

namespace Sys2Proof.Machine
open Sys2Proof

/-- The entry is one that a builder may have: FILLING or WRITING (R60, R66). -/
def inBuilding (e : DirEntry) : Prop := e.state = .filling ∨ e.state = .writing

/-- An entry written so keeps its used set, does not become FREE, and stays one that a builder may have, unless no FILLING
builder has it; the last is owed under `L` alone, over a directory whose numbers rise. -/
def State.mayWrite (L : Prop) (s : State) (e : Nat) (v : DirEntry) : Prop :=
  v.used = (s.entry e).used ∧ (v.state = .free → (s.entry e).state = .free) ∧
    (L → Tbl.rising s.media.dir = true → (inBuilding (s.entry e) → inBuilding v) ∨ s.unfilled e)

/-- A builder written so is FILLING only as it was, on its entry with its used set. -/
def State.mayBuild (s : State) (b : Nat) (v : Builder) : Prop :=
  v.phase = .filling → (s.builder b).phase = .filling ∧ v.entry = (s.builder b).entry ∧ v.used = (s.builder b).used

/-- The stocks that the acts of the part reach from that of `s₀`, each act under the tests it is made behind; `L` is what the
command may rest on of the links between entries and builders. -/
inductive Moves (L : Prop) (s₀ : State) : Stock → Prop
  | start : Moves L s₀ s₀.stock
  | aborted {s : State} (h : Moves L s₀ s.stock) (k : Nat) : Moves L s₀ (abortSlot k s).stock
  | opened {s : State} (h : Moves L s₀ s.stock) {k : Nat} (hk : s.idleSlot = some k) (n q d r : Nat) {l : Nat}
      (hl : pagesFor l ≤ s.intake.freePages) : Moves L s₀ (openSlot k n q d r l s).stock
  | slot {s : State} (h : Moves L s₀ s.stock) (k : Nat) {f : IntakeSlot} (hf : f.phase ≠ .idle)
      (hp : f.pages = (s.intakeSlot k).pages) : Moves L s₀ (s.setIntakeSlot k f).stock
  | joined {s : State} (h : Moves L s₀ s.stock) (k : Nat) (hq : s.comp.queue.length < Config.queueFiles) :
      Moves L s₀ (clearSlot k (joinQueue (s.intakeSlot k) s)).stock
  | left {s : State} (h : Moves L s₀ s.stock) : Moves L s₀ (leaveQueue s).stock
  | entry {s : State} (h : Moves L s₀ s.stock) {e : Nat} {v : DirEntry} (hv : s.mayWrite L e v) :
      Moves L s₀ (s.setEntry e v).stock
  | builder {s : State} (h : Moves L s₀ s.stock) {b : Nat} {v : Builder} (hv : s.mayBuild b v) :
      Moves L s₀ (s.setBuilder b v).stock
  | built {s : State} (h : Moves L s₀ s.stock) (b : Nat) {e : Nat} (he : s.freeEntryNumber = some e) (n d : Nat) :
      Moves L s₀ (openBuilder b e n d s).stock
  | appended {s : State} (h : Moves L s₀ s.stock) {n d b : Nat} (hb : s.fillingBuilder n d = some b) (q : Nat) (r : Record) :
      Moves L s₀ (appendTo b q r s).stock
  | freed {s : State} (h : Moves L s₀ s.stock) {e : Nat} (he : L → s.unfilled e) : Moves L s₀ (freeEntry e s).stock
  | retired {s : State} (h : Moves L s₀ s.stock) (c : Nat) : Moves L s₀ (s.setCode c (retireEntry (s.code c))).stock

/-! ### The Compaction Queue (R58) -/

theorem advanceHead_pages (s : State) :
    (advanceHead s).comp.queue.map QueuedFile.pages = s.comp.queue.map QueuedFile.pages := by
  unfold advanceHead
  split <;> simp_all

theorem addUses_keeps (l : List Nat) (s : State) :
    (l.foldl (fun u k => addUse k u) s).comp.queue = s.comp.queue ∧
      (l.foldl (fun u k => addUse k u) s).comp.builders = s.comp.builders ∧
      (l.foldl (fun u k => addUse k u) s).media = s.media :=
  ⟨foldl_keeps (fun u : State => u.comp.queue) (fun u k => addUse k u) (by simp) l s,
    foldl_keeps (fun u : State => u.comp.builders) (fun u k => addUse k u) (by simp) l s,
    foldl_keeps State.media (fun u k => addUse k u) (by simp) l s⟩

/-- An append counts at the head file alone. -/
theorem appendTo_pages (b q : Nat) (r : Record) (s : State) :
    (appendTo b q r s).comp.queue.map QueuedFile.pages = s.comp.queue.map QueuedFile.pages := by
  simp only [appendTo, advanceHead_pages, (addUses_keeps _ _).1]
  rfl

/-- The queue as the acts of the part leave it holds at most 64 files. -/
theorem Moves.queue_le {L : Prop} {s₀ : State} (h₀ : s₀.comp.queue.length ≤ Config.queueFiles) {S : Stock}
    (h : Moves L s₀ S) : S.queue.length ≤ Config.queueFiles := by
  induction h with
  | start => exact h₀
  | @aborted s _ k ih => simpa [State.stock] using ih
  | opened _ _ _ _ _ _ _ ih => exact ih
  | slot _ _ _ _ ih => exact ih
  | @joined s _ k hq =>
    have : ((clearSlot k (joinQueue (s.intakeSlot k) s)).stock).queue.length = s.comp.queue.length + 1 := by
      simp [State.stock, joinQueue]
    omega
  | @left s _ ih =>
    have hle : (leaveQueue s).comp.queue.length ≤ s.comp.queue.length := by simp [leaveQueue_queue]
    exact hle.trans ih
  | entry _ _ ih => exact ih
  | builder _ _ ih => exact ih
  | built _ _ _ _ _ ih => exact ih
  | @appended s _ n d b _ q r ih =>
    have hlen : (appendTo b q r s).comp.queue.length = s.comp.queue.length := by
      simpa using congrArg List.length (appendTo_pages b q r s)
    exact hlen.le.trans ih
  | @freed s _ e _ ih => simpa [State.stock] using ih
  | retired _ _ ih => exact ih

/-! ### The intake pages (R57) -/

/-- The sum of a table's values without one of them. -/
theorem Tbl.sum_drop {α : Type} (f : α → Nat) {d : α} (hf : f d = 0) {t : Tbl α} (h : Tbl.rising t = true) (k : Nat) :
    ((Tbl.drop t k).map (fun e => f e.2)).sum + f (Tbl.get d t k) = (t.map (fun e => f e.2)).sum := by
  induction t with
  | nil => simp [Tbl.drop, hf]
  | cons e t ih =>
    obtain ⟨j, w⟩ := e
    obtain ⟨hlt, ht⟩ := (Tbl.rising_cons j w t).mp h
    have hrest := ih ht
    by_cases hj : j = k
    · subst hj
      have hnone : Tbl.find t j = none := Tbl.find_none_of_lt hlt
      rw [Tbl.get, hnone, Option.getD_none, hf] at hrest
      have hdrop : Tbl.drop ((j, w) :: t) j = Tbl.drop t j := by simp [Tbl.drop]
      rw [hdrop]
      simp [Tbl.get, Tbl.find]
      omega
    · have hdrop : Tbl.drop ((j, w) :: t) k = (j, w) :: Tbl.drop t k := by simp [Tbl.drop, hj]
      have hget : Tbl.get d ((j, w) :: t) k = Tbl.get d t k := by simp [Tbl.get, Tbl.find, hj]
      rw [hdrop, hget]
      simp
      omega

/-- The sum of a table's values after a write: the new one's in place of the old one's. -/
theorem Tbl.sum_set {α : Type} [DecidableEq α] (f : α → Nat) {d : α} (hf : f d = 0) {t : Tbl α} (h : Tbl.rising t = true)
    (k : Nat) (v : α) :
    ((Tbl.set d t k v).map (fun e => f e.2)).sum + f (Tbl.get d t k) = (t.map (fun e => f e.2)).sum + f v := by
  unfold Tbl.set
  split
  · rename_i hv
    rw [hv, hf]
    exact Tbl.sum_drop f hf h k
  · exact Tbl.sum_put f hf h k v

/-- The entries listed after a write. -/
theorem Tbl.mem_set {α : Type} [DecidableEq α] {d : α} {t : Tbl α} {k : Nat} {v : α} {e : Nat × α}
    (h : e ∈ Tbl.set d t k v) : e ∈ t ∨ e = (k, v) ∧ v ≠ d := by
  unfold Tbl.set at h
  split at h
  · exact Or.inl (List.mem_of_mem_filter h)
  · rename_i hv
    exact (Tbl.mem_put h).imp_right (fun he => ⟨he, hv⟩)

/-- The law of the intake pages over a slot table in its form (R57). -/
def Stock.pagesHeld (S : Stock) : Prop :=
  Tbl.rising S.slots = true ∧ (∀ e ∈ S.slots, e.2.phase ≠ .idle) ∧
    S.free + (S.slots.map (fun e => e.2.pages)).sum + (S.queue.map QueuedFile.pages).sum = 3808

theorem pagesHeld_iff {s : State} : s.stock.pagesHeld ↔ Tbl.rising s.intake.slots = true ∧ s.pagesOk = true := by
  simp [Stock.pagesHeld, State.pagesOk, State.stock]

/-- The law after a slot is written, the pages of the file it had counted elsewhere. -/
theorem pagesHeld_of_write {S T : Stock} (h : S.pagesHeld) {k : Nat} {f : IntakeSlot} (hf : f = {} ∨ f.phase ≠ .idle)
    (hslots : T.slots = Tbl.set {} S.slots k f)
    (hsum : T.free + f.pages + (T.queue.map QueuedFile.pages).sum =
      S.free + (Tbl.get {} S.slots k).pages + (S.queue.map QueuedFile.pages).sum) : T.pagesHeld := by
  obtain ⟨hrising, hused, htotal⟩ := h
  have hreserved := Tbl.sum_set IntakeSlot.pages (d := {}) rfl hrising k f
  rw [Stock.pagesHeld, hslots]
  refine ⟨Tbl.rising_set hrising {} k f, fun e he => ?_, by omega⟩
  rcases Tbl.mem_set he with hm | ⟨rfl, hne⟩
  · exact hused e hm
  · exact hf.resolve_left hne

/-- The law where the slots stand and the pages of the queue and the FREE ones are as many. -/
theorem pagesHeld_of_slots {S T : Stock} (h : S.pagesHeld) (hslots : T.slots = S.slots)
    (hsum : T.free + (T.queue.map QueuedFile.pages).sum = S.free + (S.queue.map QueuedFile.pages).sum) : T.pagesHeld := by
  obtain ⟨hrising, hused, htotal⟩ := h
  rw [Stock.pagesHeld, hslots]
  exact ⟨hrising, hused, by omega⟩

/-- The slot given to a file opened is IDLE and holds no page. -/
theorem idleSlot_empty {s : State} (h : s.stock.pagesHeld) {k : Nat} (hk : s.idleSlot = some k) : s.intakeSlot k = {} := by
  obtain ⟨hrising, hused, -⟩ := h
  obtain ⟨-, -, hfound⟩ := Tbl.nextFrom_spec _ _ _ hrising hk
  rw [State.intakeSlot, Tbl.get]
  cases hf : Tbl.find s.intake.slots k with
  | none => rfl
  | some f =>
    have hidle : f.phase = .idle := by
      have hstock : Tbl.find s.stock.slots k = some f := hf
      rw [hstock] at hfound
      exact of_decide_eq_true hfound
    exact absurd hidle (hused (k, f) (Tbl.mem_of_find hf))

/-- The law of the intake pages holds of every stock reached. -/
theorem Moves.pagesHeld {L : Prop} {s₀ : State} (h₀ : s₀.stock.pagesHeld) {S : Stock} (h : Moves L s₀ S) :
    S.pagesHeld := by
  induction h with
  | start => exact h₀
  | @aborted s _ k ih =>
    refine pagesHeld_of_write ih (k := k) (f := {}) (Or.inl rfl) ?_ ?_
    · simp [State.stock, abortSlot, clearSlot, State.setIntakeSlot]
    · simp [State.stock, abortSlot, clearSlot, freePages, State.intakeSlot]
  | @opened s _ k hk n q d r l hl ih =>
    refine pagesHeld_of_write (k := k) (f :=
      { phase := .receiving, source := n, sequence := q, day := d, declaredRecords := r, declaredLength := l,
        pages := pagesFor l, check := crcStart, lastActivity := s.second }) ih (Or.inr (by simp)) rfl ?_
    have hempty : Tbl.get {} s.stock.slots k = {} := idleSlot_empty ih hk
    rw [hempty]
    simp [State.stock, openSlot, joinFlight]
    omega
  | @slot s _ k f hf hp ih => exact pagesHeld_of_write ih (Or.inr hf) rfl (by rw [hp]; rfl)
  | @joined s _ k hq ih =>
    refine pagesHeld_of_write ih (k := k) (f := {}) (Or.inl rfl) rfl ?_
    simp [State.stock, joinQueue, State.intakeSlot]
    omega
  | @left s _ ih =>
    unfold leaveQueue
    split
    · exact ih
    · rename_i f rest hqueue
      refine pagesHeld_of_slots ih (by simp [State.stock]) ?_
      simp [State.stock, hqueue, freePages]
      omega
  | entry _ _ ih => exact ih
  | builder _ _ ih => exact ih
  | built _ _ _ _ _ ih => exact ih
  | @appended s _ n d b _ q r ih =>
    refine pagesHeld_of_slots ih (by simp [State.stock]) ?_
    have hpages := appendTo_pages b q r s
    simp [State.stock, hpages]
  | @freed s _ e _ ih => exact pagesHeld_of_slots ih (by simp [State.stock]) (by simp [State.stock])
  | retired _ _ ih => exact ih

end Sys2Proof.Machine
end

