-- ==== Sys2Proof/Proofs/CodeCounts.lean ====
section
/-!
PROOFS. Proofs/CodeCounts.lean: the counts of the shared codes, with the values of the codes in use, through the acts that the
commands are made of (R60, R64, R73, R74).
-/

namespace Sys2Proof.Machine
open Sys2Proof

/-! ### The codes a record takes (R64) -/

theorem pairwise_insertRising {k : Nat} {l : List Nat} (h : l.Pairwise (· < ·)) : (insertRising k l).Pairwise (· < ·) := by
  induction l with
  | nil => simp [insertRising]
  | cons j l ih =>
    obtain ⟨hj, hl⟩ := List.pairwise_cons.mp h
    simp only [insertRising]
    split
    · rename_i hk
      refine List.pairwise_cons.mpr ⟨fun i hi => ?_, h⟩
      rcases List.mem_cons.mp hi with rfl | hi
      · exact hk
      · exact hk.trans (hj i hi)
    split
    · exact h
    · refine List.pairwise_cons.mpr ⟨fun i hi => ?_, ih hl⟩
      rcases mem_insertRising.mp hi with rfl | hi
      · omega
      · exact hj i hi

/-- The used set `new` is `old` with DEFINED codes put in, in ascending order where `old` is. -/
def usedGrows (codes : Tbl SharedCode) (old new : List Nat) : Prop :=
  (old.Pairwise (· < ·) → new.Pairwise (· < ·)) ∧ old ⊆ new ∧
    ∀ k ∈ new, k ∈ old ∨ (Tbl.get {} codes k).state = .defined

theorem usedGrows_refl (codes : Tbl SharedCode) (l : List Nat) : usedGrows codes l l :=
  ⟨id, List.Subset.refl _, fun _ h => Or.inl h⟩

theorem usedGrows.trans {codes : Tbl SharedCode} {a b c : List Nat} (h : usedGrows codes a b) (h' : usedGrows codes b c) :
    usedGrows codes a c := by
  obtain ⟨hsorted, hsub, hnew⟩ := h
  obtain ⟨hsorted', hsub', hnew'⟩ := h'
  exact ⟨hsorted' ∘ hsorted, List.Subset.trans hsub hsub', fun k hk => (hnew' k hk).elim (hnew k) Or.inr⟩

theorem sharedCodeFor_defined {codes : Tbl SharedCode} {v : CodeValue} {k : Nat} (h : sharedCodeFor codes v = some k) :
    (Tbl.get {} codes k).state = .defined := by
  have hfound := List.find?_some h
  simp only [Bool.and_eq_true, decide_eq_true_eq] at hfound
  exact hfound.1

theorem codeFor_grows (codes : Tbl SharedCode) (v : CodeValue) (c : Codes) :
    usedGrows codes c.used (codeFor codes v c).2.used := by
  unfold codeFor
  split
  case h_1 k hk =>
    refine ⟨pairwise_insertRising, fun j hj => mem_insertRising.mpr (Or.inr hj), fun j hj => ?_⟩
    rcases mem_insertRising.mp hj with rfl | hj
    · exact Or.inr (sharedCodeFor_defined hk)
    · exact Or.inl hj
  case h_2 =>
    repeat' split
    all_goals exact usedGrows_refl _ _

theorem codeParty_grows (codes : Tbl SharedCode) (other : Option (List Nat)) (c : Codes) :
    usedGrows codes c.used (codeParty codes other c).2.used := by
  unfold codeParty
  split
  · exact usedGrows_refl _ _
  · rename_i ds
    split
    · exact usedGrows_refl _ _
    · have hcode := codeFor_grows codes (.pfx (ds.take pfxDigits)) c
      split <;> rename_i hd <;> rwa [hd] at hcode

theorem codeNum_grows (codes : Tbl SharedCode) (make : Nat → CodeValue) (value : Option Nat) (c : Codes) :
    usedGrows codes c.used (codeNum codes make value c).2.used := by
  unfold codeNum
  split
  · exact usedGrows_refl _ _
  · rename_i n
    have hcode := codeFor_grows codes (make n) c
    split <;> rename_i hd <;> rwa [hd] at hcode

/-- A record encoded for a builder adds DEFINED codes to its used set. -/
theorem encodeRecord_grows (codes : Tbl SharedCode) (b : Builder) (r : Record) :
    usedGrows codes b.used (encodeRecord codes b r).used :=
  ((codeParty_grows codes r.other { used := b.used, dyn := b.dyn }).trans (codeNum_grows codes .trunk r.trunk _)).trans
    (codeNum_grows codes .cell r.cell _)

/-! ### Many codes written -/

/-- Every code of a list without repetitions is written once. -/
theorem foldl_setCode (f : SharedCode → SharedCode) {l : List Nat} (hl : l.Nodup) (s : State) (k : Nat) :
    (l.foldl (fun t c => t.setCode c (f (t.code c))) s).code k = if k ∈ l then f (s.code k) else s.code k := by
  induction l generalizing s with
  | nil => simp
  | cons a l ih =>
    obtain ⟨ha, hl⟩ := List.nodup_cons.mp hl
    rw [List.foldl_cons, ih hl, State.setCode_code]
    by_cases hk : k = a
    · subst hk
      simp [ha]
    · simp [hk]

/-! ### How many entries hold a code -/

/-- What an entry counts for a code: 1 where it is not FREE and its used set holds the code. -/
def usesOf (c : Nat) (e : DirEntry) : Nat := if e.state ≠ .free ∧ c ∈ e.used then 1 else 0

theorem uses_eq_sum (s : State) (c : Nat) : s.uses c = (s.media.dir.map (fun e => usesOf c e.2)).sum := by
  unfold State.uses
  induction s.media.dir with
  | nil => rfl
  | cons e l ih =>
    rw [List.countP_cons, ih, List.map_cons, List.sum_cons, Nat.add_comm]
    congr 1
    simp [usesOf]

/-- An entry written counts in place of what it was. -/
theorem setEntry_uses {s : State} (hr : Tbl.rising s.media.dir = true) (e : Nat) (v : DirEntry) (c : Nat) :
    (s.setEntry e v).uses c + usesOf c (s.entry e) = s.uses c + usesOf c v := by
  rw [uses_eq_sum, uses_eq_sum]
  exact Tbl.sum_set (usesOf c) (by simp [usesOf]) hr e v

theorem setEntry_uses_same {s : State} (hr : Tbl.rising s.media.dir = true) {e : Nat} {v : DirEntry} {c : Nat}
    (h : usesOf c v = usesOf c (s.entry e)) : (s.setEntry e v).uses c = s.uses c := by
  have hsum := setEntry_uses hr e v c
  omega

/-! ### The law with what keeps it -/

/-- The law of the shared codes with the links that keep it: each FILLING builder has an entry that a builder may have, and no
other FILLING builder has it (R60, R74). -/
structure State.codesHeld (s : State) : Prop where
  dir : Tbl.rising s.media.dir = true
  builders : Tbl.rising s.comp.builders = true
  law : s.codesLaw
  building : ∀ b, (s.builder b).phase = .filling → inBuilding (s.entry (s.builder b).entry)
  apart : ∀ b d, (s.builder b).phase = .filling → (s.builder d).phase = .filling →
    (s.builder d).entry = (s.builder b).entry → d = b

/-- Each code of `t` is EMPTY, or was not so in `s` and has the value it had there. -/
def State.valuesKept (s t : State) : Prop :=
  ∀ c, t.code c = {} ∨ s.code c ≠ {} ∧ (t.code c).value = (s.code c).value

theorem valuesKept_refl (s : State) : s.valuesKept s := fun c => by
  by_cases h : s.code c = {}
  · exact Or.inl h
  · exact Or.inr ⟨h, rfl⟩

theorem State.valuesKept.trans {s t u : State} (h : s.valuesKept t) (h' : t.valuesKept u) : s.valuesKept u := fun c => by
  rcases h' c with hempty | ⟨hne, hvalue⟩
  · exact Or.inl hempty
  · rcases h c with hempty | ⟨hne', hvalue'⟩
    · exact absurd hempty hne
    · exact Or.inr ⟨hne', hvalue.trans hvalue'⟩

/-- A code table that stands has its values kept. -/
theorem valuesKept_of_codes {s t : State} (h : t.comp.codes = s.comp.codes) : s.valuesKept t := fun c => by
  have hsame : t.code c = s.code c := by simp only [State.code, h]
  rw [hsame]
  exact valuesKept_refl s c

theorem State.codesHeld.congr {s t : State} (h : s.codesHeld) (hb : t.comp.builders = s.comp.builders)
    (hc : t.comp.codes = s.comp.codes) (hd : t.media.dir = s.media.dir) : t.codesHeld where
  dir := hd ▸ h.dir
  builders := hb ▸ h.builders
  law := State.codesLaw_congr h.law hc hd hb
  building := by
    have hbuilding := h.building
    simpa only [State.builder, State.entry, hb, hd] using hbuilding
  apart := by
    have hapart := h.apart
    simpa only [State.builder, hb] using hapart

section
variable {s : State}

/-- A FILLING builder has its entry's used set. -/
theorem State.codesHeld.used (h : s.codesHeld) {b : Nat} (hb : (s.builder b).phase = .filling) :
    (s.entry (s.builder b).entry).used = (s.builder b).used := by
  obtain ⟨-, -, -, hused⟩ := h.law
  exact hused b hb

theorem usesOf_of_free {e : DirEntry} (h : e.state = .free) (c : Nat) : usesOf c e = 0 := by simp [usesOf, h]

theorem usesOf_of_unused {e : DirEntry} (h : e.used = []) (c : Nat) : usesOf c e = 0 := by simp [usesOf, h]

/-- An entry that is written as `State.mayWrite` allows counts as it did. -/
theorem usesOf_of_mayWrite {L : Prop} (h : s.codesHeld) {e : Nat} {v : DirEntry} (hv : s.mayWrite L e v) (c : Nat) :
    usesOf c v = usesOf c (s.entry e) := by
  obtain ⟨-, -, hentries, -⟩ := h.law
  obtain ⟨hused, hfree, -⟩ := hv
  by_cases hold : (s.entry e).state = .free
  · have hempty := (hentries e).2 hold
    rw [usesOf_of_unused hempty, usesOf_of_unused (hused.trans hempty)]
  · have hnew : v.state ≠ .free := fun hf => hold (hfree hf)
    simp [usesOf, hold, hnew, hused]

theorem setEntry_codesHeld {L : Prop} (hL : L) (h : s.codesHeld) {e : Nat} {v : DirEntry} (hv : s.mayWrite L e v) :
    (s.setEntry e v).codesHeld where
  dir := Tbl.rising_set h.dir {} e v
  builders := h.builders
  law := by
    obtain ⟨hcount, hempty, hentries, hfilling⟩ := h.law
    refine ⟨fun c => ?_, hempty, fun i => ?_, fun b hb => ?_⟩
    · rw [setEntry_uses_same h.dir (usesOf_of_mayWrite h hv c)]
      exact hcount c
    · obtain ⟨hused, hfree, -⟩ := hv
      rw [State.setEntry_entry]
      split
      · obtain ⟨hsorted, hnone⟩ := hentries e
        exact ⟨hused ▸ hsorted, fun hf => hused.trans (hnone (hfree hf))⟩
      · exact hentries i
    · obtain ⟨hused, -, -⟩ := hv
      rw [State.setEntry_builder, State.setEntry_entry]
      split
      · rename_i he
        rw [hused, ← he]
        exact hfilling b hb
      · exact hfilling b hb
  building := fun b hb => by
    obtain ⟨-, -, hstays⟩ := hv
    rw [State.setEntry_builder, State.setEntry_entry]
    split
    · rename_i he
      rcases hstays hL h.dir with hstays | hunfilled
      · exact hstays (he ▸ h.building b hb)
      · exact absurd he (hunfilled b hb)
    · exact h.building b hb
  apart := h.apart

theorem setBuilder_codesHeld (h : s.codesHeld) {b : Nat} {v : Builder} (hv : s.mayBuild b v) :
    (s.setBuilder b v).codesHeld := by
  have hwas : ∀ d, ((s.setBuilder b v).builder d).phase = .filling → (s.builder d).phase = .filling ∧
      ((s.setBuilder b v).builder d).entry = (s.builder d).entry ∧
      ((s.setBuilder b v).builder d).used = (s.builder d).used := by
    intro d hd
    rw [State.setBuilder_builder] at hd ⊢
    split at hd
    · rename_i hdb
      subst hdb
      simpa using hv hd
    · rename_i hdb
      simpa [hdb] using hd
  obtain ⟨hcount, hempty, hentries, hfilling⟩ := h.law
  refine ⟨h.dir, Tbl.rising_set h.builders {} b v, ⟨hcount, hempty, hentries, fun d hd => ?_⟩, fun d hd => ?_,
    fun d i hd hi he => ?_⟩
  · obtain ⟨hphase, hentry, hused⟩ := hwas d hd
    rw [hentry, hused]
    exact hfilling d hphase
  · obtain ⟨hphase, hentry, -⟩ := hwas d hd
    rw [hentry]
    exact h.building d hphase
  · obtain ⟨hdphase, hdentry, -⟩ := hwas d hd
    obtain ⟨hiphase, hientry, -⟩ := hwas i hi
    rw [hdentry, hientry] at he
    exact h.apart d i hdphase hiphase he

/-! ### A builder opened, and a record appended (R59, R61) -/

theorem openBuilder_codesHeld (h : s.codesHeld) {b e : Nat} (he : s.freeEntryNumber = some e) (n d : Nat) :
    (openBuilder b e n d s).codesHeld := by
  have hfree : (s.entry e).state = .free := freeEntryNumber_free h.dir he
  have hunfilled : s.unfilled e := fun i hi hie => by
    rcases hie ▸ h.building i hi with hx | hx <;> rw [hfree] at hx <;> cases hx
  let v : Builder := { phase := .filling, source := n, day := d, entry := e, bytesUsed := 32, lastAppend := s.second }
  let w : DirEntry := { state := .filling, source := n, day := d, payloadBytes := 32 }
  have hbuilder : ∀ i, (openBuilder b e n d s).builder i = if i = b then v else s.builder i := fun i =>
    State.setBuilder_builder s b v i
  have hentry : ∀ i, (openBuilder b e n d s).entry i = if i = e then w else s.entry i := fun i =>
    State.setEntry_entry (s.setBuilder b v) e w i
  have hother : ∀ i, ((openBuilder b e n d s).builder i).phase = .filling → i ≠ b →
      (s.builder i).phase = .filling ∧ (openBuilder b e n d s).builder i = s.builder i := fun i hi hib => by
    rw [hbuilder, if_neg hib] at hi ⊢
    exact ⟨hi, rfl⟩
  have hnew : (openBuilder b e n d s).builder b = v := by rw [hbuilder, if_pos rfl]
  obtain ⟨hcount, hempty, hentries, hfilling⟩ := h.law
  refine ⟨Tbl.rising_set h.dir {} e w, Tbl.rising_set h.builders {} b v, ⟨fun c => ?_, hempty, fun i => ?_, fun i hi => ?_⟩,
    fun i hi => ?_, fun i j hi hj hij => ?_⟩
  · have huses : ((s.setBuilder b v).setEntry e w).uses c = (s.setBuilder b v).uses c :=
      setEntry_uses_same (s := s.setBuilder b v) h.dir (by
        rw [usesOf_of_unused rfl]
        exact (usesOf_of_free hfree c).symm)
    exact (hcount c).trans huses.symm
  · rw [hentry]
    split
    · exact ⟨List.Pairwise.nil, fun _ => rfl⟩
    · exact hentries i
  · by_cases hib : i = b
    · subst hib
      rw [hnew, hentry, if_pos rfl]
    · obtain ⟨hphase, hsame⟩ := hother i hi hib
      rw [hsame, hentry, if_neg (hunfilled i hphase)]
      exact hfilling i hphase
  · by_cases hib : i = b
    · subst hib
      rw [hnew, hentry, if_pos rfl]
      exact Or.inl rfl
    · obtain ⟨hphase, hsame⟩ := hother i hi hib
      rw [hsame, hentry, if_neg (hunfilled i hphase)]
      exact h.building i hphase
  · by_cases hib : i = b
    · by_cases hjb : j = b
      · rw [hib, hjb]
      · obtain ⟨hphase, hsame⟩ := hother j hj hjb
        rw [hib, hnew, hsame] at hij
        exact absurd hij (hunfilled j hphase)
    · obtain ⟨hphase, hsame⟩ := hother i hi hib
      by_cases hjb : j = b
      · rw [hjb, hnew, hsame] at hij
        exact absurd hij.symm (hunfilled i hphase)
      · obtain ⟨hphase', hsame'⟩ := hother j hj hjb
        rw [hsame, hsame'] at hij
        exact h.apart i j hphase hphase' hij

theorem fillingBuilder_filling (hr : Tbl.rising s.comp.builders = true) {n d b : Nat} (h : s.fillingBuilder n d = some b) :
    (s.builder b).phase = .filling := by
  obtain ⟨-, -, hfound⟩ := Tbl.nextFrom_spec _ _ _ hr h
  rw [State.builder, Tbl.get]
  split at hfound <;> rename_i hv <;> simp_all

/-- A code table whose counts follow the directory's, each code EMPTY, or changed in its count alone. -/
theorem codesLaw_counted {t : State} (h : s.codesLaw)
    (hcode : ∀ c, t.code c = {} ∨
      (t.code c).state = (s.code c).state ∧ (t.code c).value = (s.code c).value ∧ s.code c ≠ {})
    (hcount : ∀ c, (t.code c).count = t.uses c)
    (hentries : ∀ e, (t.entry e).used.Pairwise (· < ·) ∧ ((t.entry e).state = .free → (t.entry e).used = []))
    (hfilling : ∀ b, (t.builder b).phase = .filling → (t.entry (t.builder b).entry).used = (t.builder b).used) :
    t.codesLaw ∧ s.valuesKept t := by
  obtain ⟨-, hempty, -, -⟩ := h
  refine ⟨⟨hcount, fun c hc => ?_, hentries, hfilling⟩, fun c => ?_⟩
  · rcases hcode c with hx | ⟨hstate, -, hne⟩
    · exact hx
    · exact absurd (hempty c (hstate ▸ hc)) hne
  · exact (hcode c).imp_right (fun ⟨_, hvalue, hne⟩ => ⟨hne, hvalue⟩)

/-- The codes put into a used set count one entry more. -/
theorem addUses_code {l : List Nat} (hl : l.Nodup) (t : State) (k : Nat) :
    (l.foldl (fun u k => addUse k u) t).code k =
      if k ∈ l then { t.code k with count := (t.code k).count + 1 } else t.code k :=
  foldl_setCode (fun c => { c with count := c.count + 1 }) hl t k

/-- Builder `b` with record `r` of the file with sequence `q` appended (R59). -/
def State.appendedBuilder (s : State) (b q : Nat) (r : Record) : Builder :=
  let v := s.builder b
  let c := encodeRecord s.comp.codes v r
  { v with records := v.records ++ [c.record], bytesUsed := v.bytesUsed + c.bytes + c.cost, dyn := c.dyn, used := c.used,
           span := some (spanAfter v.span q), lastAppend := s.second }

/-- The entry of builder `b` with the record appended (R59). -/
def State.appendedEntry (s : State) (b q : Nat) (r : Record) : DirEntry :=
  let v := s.builder b
  let c := encodeRecord s.comp.codes v r
  { s.entry v.entry with recordCount := (s.entry v.entry).recordCount + 1, payloadBytes := v.bytesUsed + c.bytes + c.cost,
                         used := c.used, span := some (spanAfter v.span q) }

/-- The codes that the used set of builder `b` takes up for the record (R64, R74). -/
def State.freshCodes (s : State) (b : Nat) (r : Record) : List Nat :=
  (encodeRecord s.comp.codes (s.builder b) r).used.filter (fun k => !(s.builder b).used.contains k)

/-- An append writes the builder, its entry, and the codes taken up, and counts at the head file. -/
theorem appendTo_eq (b q : Nat) (r : Record) (s : State) :
    appendTo b q r s = advanceHead ((s.freshCodes b r).foldl (fun u k => addUse k u)
      ((s.setBuilder b (s.appendedBuilder b q r)).setEntry (s.builder b).entry (s.appendedEntry b q r))) := rfl

theorem appendTo_builders (b q : Nat) (r : Record) (s : State) :
    (appendTo b q r s).comp.builders = (s.setBuilder b (s.appendedBuilder b q r)).comp.builders := by
  rw [appendTo_eq, (advanceHead_keeps _).2.2.2.2.2.2.2.2.2.2.2.2.1, (addUses_keeps _ _).2.1]
  rfl

theorem appendTo_dir (b q : Nat) (r : Record) (s : State) :
    (appendTo b q r s).media.dir = (s.setEntry (s.builder b).entry (s.appendedEntry b q r)).media.dir := by
  rw [appendTo_eq, (advanceHead_keeps _).2.2.2.2.2.1, (addUses_keeps _ _).2.2]
  rfl

theorem appendTo_builder (b q : Nat) (r : Record) (s : State) (i : Nat) :
    (appendTo b q r s).builder i = if i = b then s.appendedBuilder b q r else s.builder i := by
  rw [State.builder, appendTo_builders]
  exact State.setBuilder_builder s b _ i

theorem appendTo_entry (b q : Nat) (r : Record) (s : State) (i : Nat) :
    (appendTo b q r s).entry i = if i = (s.builder b).entry then s.appendedEntry b q r else s.entry i := by
  rw [State.entry, appendTo_dir]
  exact State.setEntry_entry s _ _ i

theorem appendTo_code {b : Nat} (q : Nat) {r : Record} {s : State} (h : (s.freshCodes b r).Nodup) (k : Nat) :
    (appendTo b q r s).code k =
      if k ∈ s.freshCodes b r then { s.code k with count := (s.code k).count + 1 } else s.code k := by
  rw [appendTo_eq, State.code, (advanceHead_keeps _).2.2.2.2.2.2.2.2.2.2.2.2.2.2.2.2]
  exact addUses_code h _ k

/-- An append adds to the builder's used set the codes that it takes up, and counts each (R64, R74). -/
theorem appendTo_codesHeld (h : s.codesHeld) {b : Nat} (hb : (s.builder b).phase = .filling) (q : Nat) (r : Record) :
    (appendTo b q r s).codesHeld ∧ s.valuesKept (appendTo b q r s) := by
  obtain ⟨hcount, hempty, hentries, hfilling⟩ := h.law
  have hgrows := encodeRecord_grows s.comp.codes (s.builder b) r
  have hused := h.used hb
  have hbuilt : ∀ i, ((appendTo b q r s).builder i).phase = (s.builder i).phase ∧
      ((appendTo b q r s).builder i).entry = (s.builder i).entry := fun i => by
    rw [appendTo_builder]
    split
    · rename_i hib
      subst hib
      exact ⟨rfl, rfl⟩
    · exact ⟨rfl, rfl⟩
  have hopen := h.building b hb
  have hnotFree : (s.entry (s.builder b).entry).state ≠ .free := by
    rcases hopen with hx | hx <;> rw [hx] <;> simp
  obtain ⟨hsorted, hsub, hdefined⟩ := hgrows
  have hsorted' := hsorted (hused ▸ (hentries (s.builder b).entry).1)
  have hnodup : (s.freshCodes b r).Nodup := (hsorted'.imp (fun hlt => Nat.ne_of_lt hlt)).filter _
  have hfresh : ∀ k, k ∈ s.freshCodes b r ↔
      k ∈ (encodeRecord s.comp.codes (s.builder b) r).used ∧ k ∉ (s.builder b).used := fun k => by
    simp [State.freshCodes]
  have hcode := appendTo_code q hnodup
  have hcodes : ∀ c, (appendTo b q r s).code c = {} ∨ ((appendTo b q r s).code c).state = (s.code c).state ∧
      ((appendTo b q r s).code c).value = (s.code c).value ∧ s.code c ≠ {} := fun c => by
    rw [hcode]
    split
    · rename_i hc
      obtain ⟨hin, hnew⟩ := (hfresh c).mp hc
      refine Or.inr ⟨rfl, rfl, fun hx => ?_⟩
      have hstate : (s.code c).state = .defined := (hdefined c hin).resolve_left hnew
      rw [hx] at hstate
      cases hstate
    · by_cases hx : s.code c = {}
      · exact Or.inl hx
      · exact Or.inr ⟨rfl, rfl, hx⟩
  have hcounts : ∀ c, ((appendTo b q r s).code c).count = (appendTo b q r s).uses c := fun c => by
    have hsum := setEntry_uses h.dir (s.builder b).entry (s.appendedEntry b q r) c
    have hold : usesOf c (s.entry (s.builder b).entry) = if c ∈ (s.builder b).used then 1 else 0 := by
      simp [usesOf, hnotFree, hused]
    have hnew : usesOf c (s.appendedEntry b q r) =
        if c ∈ (encodeRecord s.comp.codes (s.builder b) r).used then 1 else 0 := by
      simp [usesOf, State.appendedEntry, hnotFree]
    rw [State.uses_congr (appendTo_dir b q r s) c, hcode]
    have hwas := hcount c
    by_cases hin : c ∈ (s.builder b).used
    · have hin' := hsub hin
      have hnotFresh : c ∉ s.freshCodes b r := fun hx => ((hfresh c).mp hx).2 hin
      simp only [hin, hin', if_true] at hold hnew
      rw [if_neg hnotFresh]
      omega
    · by_cases hin' : c ∈ (encodeRecord s.comp.codes (s.builder b) r).used
      · simp only [hin, hin', if_true, if_false] at hold hnew
        rw [if_pos ((hfresh c).mpr ⟨hin', hin⟩)]
        dsimp only
        omega
      · have hnotFresh : c ∉ s.freshCodes b r := fun hx => hin' ((hfresh c).mp hx).1
        simp only [hin, hin', if_false] at hold hnew
        rw [if_neg hnotFresh]
        omega
  obtain ⟨hlaw, hvalues⟩ := codesLaw_counted h.law hcodes hcounts
    (fun e => by
      rw [appendTo_entry]
      split
      · exact ⟨hsorted', fun hx => absurd hx hnotFree⟩
      · exact hentries e)
    (fun i hi => by
      obtain ⟨hphase, hentry⟩ := hbuilt i
      by_cases hib : i = b
      · subst hib
        rw [hentry, appendTo_entry, if_pos rfl, appendTo_builder, if_pos rfl]
        rfl
      · have hapart : (s.builder i).entry ≠ (s.builder b).entry := fun hx => hib (h.apart b i hb (hphase ▸ hi) hx)
        rw [hentry, appendTo_entry, if_neg hapart, appendTo_builder, if_neg hib]
        exact hfilling i (hphase ▸ hi))
  refine ⟨⟨?_, ?_, hlaw, fun i hi => ?_, fun i j hi hj hij => ?_⟩, hvalues⟩
  · rw [appendTo_dir]
    exact Tbl.rising_set h.dir {} _ _
  · rw [appendTo_builders]
    exact Tbl.rising_set h.builders {} _ _
  · obtain ⟨hphase, hentry⟩ := hbuilt i
    rw [hentry, appendTo_entry]
    split
    · exact hopen
    · exact h.building i (hphase ▸ hi)
  · obtain ⟨hphase, hentry⟩ := hbuilt i
    obtain ⟨hphase', hentry'⟩ := hbuilt j
    rw [hentry, hentry'] at hij
    exact h.apart i j (hphase ▸ hi) (hphase' ▸ hj) hij

/-! ### An entry that becomes FREE, and a code retired (R74, R76) -/

/-- A code that one entry less holds: its count is one less, and it is EMPTY or changed in its count alone. -/
theorem dropUse_spec (c : SharedCode) :
    (dropUse c).count = c.count - 1 ∧
      (dropUse c = {} ∨ (dropUse c).state = c.state ∧ (dropUse c).value = c.value) := by
  unfold dropUse
  split
  · rename_i hc
    exact ⟨(Nat.sub_eq_zero_of_le hc.2).symm, Or.inl rfl⟩
  · exact ⟨rfl, Or.inr ⟨rfl, rfl⟩⟩

theorem dropUse_empty : dropUse {} = {} := rfl

theorem freeEntry_codesHeld (h : s.codesHeld) {e : Nat} (he : s.unfilled e) :
    (freeEntry e s).codesHeld ∧ s.valuesKept (freeEntry e s) := by
  obtain ⟨hcount, hempty, hentries, hfilling⟩ := h.law
  obtain ⟨hsorted, hnone⟩ := hentries e
  have hcode : ∀ k, (freeEntry e s).code k = if k ∈ (s.entry e).used then dropUse (s.code k) else s.code k :=
    foldl_setCode dropUse (hsorted.imp (fun hlt => Nat.ne_of_lt hlt)) (s.setEntry e {})
  have hdir : (freeEntry e s).media.dir = (s.setEntry e {}).media.dir :=
    foldl_keeps (fun t : State => t.media.dir) (fun t c => t.setCode c (dropUse (t.code c))) (fun _ _ => rfl) _ _
  have hbuilder : ∀ b, (freeEntry e s).builder b = s.builder b := fun b => by simp [State.builder]
  have hentry : ∀ i, (freeEntry e s).entry i = if i = e then {} else s.entry i := fun i => by
    rw [State.entry, hdir]
    exact State.setEntry_entry s e {} i
  have hcodes : ∀ c, (freeEntry e s).code c = {} ∨ ((freeEntry e s).code c).state = (s.code c).state ∧
      ((freeEntry e s).code c).value = (s.code c).value ∧ s.code c ≠ {} := fun c => by
    rw [hcode]
    by_cases hx : s.code c = {}
    · simp [hx, dropUse_empty]
    · split
      · exact (dropUse_spec _).2.imp_right (fun ⟨hstate, hvalue⟩ => ⟨hstate, hvalue, hx⟩)
      · exact Or.inr ⟨rfl, rfl, hx⟩
  have hcounts : ∀ c, ((freeEntry e s).code c).count = (freeEntry e s).uses c := fun c => by
    have hsum := setEntry_uses h.dir e {} c
    rw [usesOf_of_unused (e := ({} : DirEntry)) rfl] at hsum
    rw [State.uses_congr hdir, hcode]
    have hwas := hcount c
    split
    · rename_i hc
      have hnotFree : (s.entry e).state ≠ .free := fun hf => by simp [hnone hf] at hc
      have hone : usesOf c (s.entry e) = 1 := by simp [usesOf, hnotFree, hc]
      rw [(dropUse_spec _).1]
      omega
    · rename_i hc
      have hzero : usesOf c (s.entry e) = 0 := by simp [usesOf, hc]
      omega
  obtain ⟨hlaw, hvalues⟩ := codesLaw_counted h.law hcodes hcounts
    (fun i => by
      rw [hentry]
      split
      · exact ⟨List.Pairwise.nil, fun _ => rfl⟩
      · exact hentries i)
    (fun b hb => by
      rw [hbuilder] at hb ⊢
      rw [hentry, if_neg (he b hb)]
      exact hfilling b hb)
  refine ⟨⟨?_, by simpa using h.builders, hlaw, fun b hb => ?_, fun b d hb hd hbd => ?_⟩, hvalues⟩
  · rw [hdir]
    exact Tbl.rising_set h.dir {} e {}
  · rw [hbuilder] at hb ⊢
    rw [hentry, if_neg (he b hb)]
    exact h.building b hb
  · rw [hbuilder] at hb hd hbd
    rw [hbuilder] at hbd
    exact h.apart b d hb hd hbd

theorem retire_codesHeld (h : s.codesHeld) (c : Nat) :
    (s.setCode c (retireEntry (s.code c))).codesHeld ∧ s.valuesKept (s.setCode c (retireEntry (s.code c))) := by
  obtain ⟨hcount, hempty, hentries, hfilling⟩ := h.law
  have hretired : retireEntry (s.code c) = {} ∧ (s.code c).count = 0 ∨
      retireEntry (s.code c) = { s.code c with state := .retired } ∧ s.code c ≠ {} := by
    unfold retireEntry
    split
    · exact Or.inl ⟨rfl, ‹_›⟩
    · rename_i hne
      exact Or.inr ⟨rfl, fun hx => hne (by rw [hx])⟩
  refine ⟨⟨h.dir, h.builders, ⟨fun k => ?_, fun k hk => ?_, hentries, hfilling⟩, h.building, h.apart⟩, fun k => ?_⟩
  · rw [State.setCode_code]
    split
    · rename_i hkc
      subst hkc
      have huses : (s.setCode k (retireEntry (s.code k))).uses k = (s.code k).count := (hcount k).symm
      rw [huses]
      rcases hretired with ⟨hnew, hzero⟩ | ⟨hnew, -⟩
      · rw [hnew, hzero]
      · rw [hnew]
    · exact hcount k
  · rw [State.setCode_code] at hk ⊢
    split at hk
    · rename_i hkc
      rcases hretired with ⟨hnew, -⟩ | ⟨hnew, -⟩
      · rw [if_pos hkc, hnew]
      · rw [hnew] at hk
        cases hk
    · rename_i hkc
      rw [if_neg hkc]
      exact hempty k hk
  · rw [State.setCode_code]
    split
    · rename_i hkc
      subst hkc
      rcases hretired with ⟨hnew, -⟩ | ⟨hnew, hne⟩
      · exact Or.inl hnew
      · exact Or.inr ⟨hne, by rw [hnew]⟩
    · exact valuesKept_refl s k

end

/-! ### Every act (R74) -/

/-- The law of the shared codes, with what keeps it, holds of every stock reached, and the codes in use keep their values. -/
theorem Moves.codesHeld {L : Prop} (hL : L) {s₀ : State} (h₀ : s₀.codesHeld) {S : Stock} (h : Moves L s₀ S) :
    ∀ t : State, t.stock = S → t.codesHeld ∧ s₀.valuesKept t := by
  have hcongr : ∀ {s t : State}, t.stock = s.stock → s.codesHeld ∧ s₀.valuesKept s → t.codesHeld ∧ s₀.valuesKept t := by
    intro s t hst hs
    obtain ⟨-, -, -, hbuilders, hcodes, hdir⟩ := stock_iff.mp hst
    exact ⟨hs.1.congr hbuilders hcodes hdir, hs.2.trans (valuesKept_of_codes hcodes)⟩
  have hsame : ∀ {s t : State}, t.comp.builders = s.comp.builders → t.comp.codes = s.comp.codes →
      t.media.dir = s.media.dir → s.codesHeld ∧ s₀.valuesKept s → t.codesHeld ∧ s₀.valuesKept t := fun hb hc hd hs =>
    ⟨hs.1.congr hb hc hd, hs.2.trans (valuesKept_of_codes hc)⟩
  induction h with
  | start => exact fun t ht => hcongr ht ⟨h₀, valuesKept_refl s₀⟩
  | aborted _ k ih => exact fun t ht => hcongr ht (hsame (by simp) (by simp) (by simp) (ih _ rfl))
  | @opened s _ k hk n q d r l hl ih => exact fun t ht => hcongr ht (hsame (s := s) rfl rfl rfl (ih s rfl))
  | @slot s _ k f hf hp ih => exact fun t ht => hcongr ht (hsame (s := s) rfl rfl rfl (ih s rfl))
  | @joined s _ k hq ih => exact fun t ht => hcongr ht (hsame (s := s) rfl rfl rfl (ih s rfl))
  | left _ ih => exact fun t ht => hcongr ht (hsame (by simp) (by simp) (by simp) (ih _ rfl))
  | entry _ hv ih =>
    obtain ⟨hheld, hvalues⟩ := ih _ rfl
    exact fun t ht => hcongr ht ⟨setEntry_codesHeld hL hheld hv, hvalues.trans (valuesKept_of_codes rfl)⟩
  | builder _ hv ih =>
    obtain ⟨hheld, hvalues⟩ := ih _ rfl
    exact fun t ht => hcongr ht ⟨setBuilder_codesHeld hheld hv, hvalues.trans (valuesKept_of_codes rfl)⟩
  | built _ b he n d ih =>
    obtain ⟨hheld, hvalues⟩ := ih _ rfl
    exact fun t ht => hcongr ht ⟨openBuilder_codesHeld hheld he n d, hvalues.trans (valuesKept_of_codes rfl)⟩
  | appended _ hb q r ih =>
    obtain ⟨hheld, hvalues⟩ := ih _ rfl
    obtain ⟨hheld', hvalues'⟩ := appendTo_codesHeld hheld (fillingBuilder_filling hheld.builders hb) q r
    exact fun t ht => hcongr ht ⟨hheld', hvalues.trans hvalues'⟩
  | freed _ he ih =>
    obtain ⟨hheld, hvalues⟩ := ih _ rfl
    obtain ⟨hheld', hvalues'⟩ := freeEntry_codesHeld hheld (he hL)
    exact fun t ht => hcongr ht ⟨hheld', hvalues.trans hvalues'⟩
  | retired _ c ih =>
    obtain ⟨hheld, hvalues⟩ := ih _ rfl
    obtain ⟨hheld', hvalues'⟩ := retire_codesHeld hheld c
    exact fun t ht => hcongr ht ⟨hheld', hvalues.trans hvalues'⟩

end Sys2Proof.Machine
end

