-- ==== Sys2Proof/Proofs/StockActs.lean ====
section
/-!
PROOFS. Proofs/StockActs.lean: the shared acts of the part, as far as the stock goes: each is made of the acts of `Moves`.
-/

namespace Sys2Proof.Machine
open Sys2Proof

section
variable {L : Prop} {s₀ s : State}

/-- The stock alone counts. -/
theorem Moves.of_stock {t : State} (h : Moves L s₀ s.stock) (ht : t.stock = s.stock) : Moves L s₀ t.stock := ht ▸ h

/-! ### Entries and builders written -/

/-- An entry written with its state and used set as they were. -/
theorem mayWrite_of_state {e : Nat} {v : DirEntry} (hu : v.used = (s.entry e).used) (hs : v.state = (s.entry e).state) :
    s.mayWrite L e v :=
  ⟨hu, fun hf => hs ▸ hf, fun _ _ => Or.inl (fun hb => by rwa [inBuilding, hs])⟩

/-- An entry written FILLING or WRITING. -/
theorem mayWrite_of_building {e : Nat} {v : DirEntry} (hu : v.used = (s.entry e).used) (hs : inBuilding v) :
    s.mayWrite L e v := by
  refine ⟨hu, fun hf => ?_, fun _ _ => Or.inl (fun _ => hs)⟩
  rcases hs with hx | hx <;> rw [hf] at hx <;> cases hx

/-- An entry written that no builder has, as its state shows. -/
theorem mayWrite_of_notBuilding {e : Nat} {v : DirEntry} (hu : v.used = (s.entry e).used) (hf : v.state ≠ .free)
    (hs : Tbl.rising s.media.dir = true → ¬ inBuilding (s.entry e)) : s.mayWrite L e v :=
  ⟨hu, fun hx => absurd hx hf, fun _ hr => Or.inl (fun hb => absurd hb (hs hr))⟩

/-- A builder written that is not FILLING. -/
theorem mayBuild_of_phase {b : Nat} {v : Builder} (hv : v.phase ≠ .filling) : s.mayBuild b v := fun hx => absurd hx hv

theorem toFilling_moves (h : Moves L s₀ s.stock) (e : Nat) : Moves L s₀ (toFilling e s).stock :=
  .entry h (mayWrite_of_building rfl (Or.inl rfl))

theorem raiseReader_moves (h : Moves L s₀ s.stock) (e : Nat) : Moves L s₀ (raiseReader e s).stock :=
  .entry h (mayWrite_of_state rfl rfl)

theorem lowerReader_moves (h : Moves L s₀ s.stock) (e : Nat) : Moves L s₀ (lowerReader e s).stock :=
  .entry h (mayWrite_of_state rfl rfl)

theorem setVerify_moves (h : Moves L s₀ s.stock) (e : Nat) (st : VerifyStatus) : Moves L s₀ (setVerify e st s).stock :=
  lowerReader_moves (s := s.setEntry e { s.entry e with verify := st, verifyDay := some s.today })
    (.entry h (mayWrite_of_state rfl rfl)) e

/-! ### Faults (R48, R185) -/

@[simp] theorem abortSlot_moves (h : Moves L s₀ s.stock) (k : Nat) : Moves L s₀ (abortSlot k s).stock := .aborted h k

theorem haltClose_moves (h : Moves L s₀ s.stock) (k : Nat) : Moves L s₀ (haltClose k s).stock := by
  unfold haltClose
  split <;> simp [h]

@[simp] theorem enterHalted_moves (h : Moves L s₀ s.stock) : Moves L s₀ (enterHalted s).stock := by
  unfold enterHalted
  exact foldl_inv (fun t : State => Moves L s₀ t.stock) _ (fun _ k ht => haltClose_moves ht k) _ _ h

theorem setContextOf_stock (k : FaultKind) (c : FaultContext) (s : State) : (s.setContextOf k c).stock = s.stock := by
  unfold State.setContextOf
  split <;> rfl

@[simp] theorem raiseFault_moves (h : Moves L s₀ s.stock) (f : FaultInfo) : Moves L s₀ (raiseFault f s).stock := by
  simp only [raiseFault]
  repeat' split
  · exact h
  · refine enterHalted_moves ?_
    rw [raiseBoth_stock, stopEngine_stock]
    exact h
  · rw [raiseBoth_stock, stopEngine_stock, setContextOf_stock]
    exact h

/-! ### Closes and openings (R61, R62, R66, R67, R91) -/

@[simp] theorem giveSlot_moves (h : Moves L s₀ s.stock) (b : Nat) (r : SlotRef) (retry : Bool) :
    Moves L s₀ (giveSlot b r retry s).stock := by
  have hwritten : Moves L s₀ (s.setEntry (s.builder b).entry (s.writingEntry (s.builder b) r retry)).stock :=
    .entry h (mayWrite_of_building rfl (Or.inr rfl))
  rw [giveSlot, askOp_stock]
  exact hwritten

@[simp] theorem waitForSlot_moves (h : Moves L s₀ s.stock) (b : Nat) : Moves L s₀ (waitForSlot b s).stock := by
  unfold waitForSlot
  split
  · exact h
  · exact raiseFault_moves h _

@[simp] theorem askSlot_moves (h : Moves L s₀ s.stock) (b : Nat) : Moves L s₀ (askSlot b s).stock := by
  unfold askSlot
  split <;> simp [h]

theorem serveOne_moves (h : Moves L s₀ s.stock) : Moves L s₀ (serveOne s).stock := by
  unfold serveOne
  split
  · split
    · refine giveSlot_moves ?_ _ _ _
      exact h
    · exact h
  · exact h

@[simp] theorem serveWait_moves (h : Moves L s₀ s.stock) : Moves L s₀ (serveWait s).stock := by
  unfold serveWait
  exact foldl_inv (fun t : State => Moves L s₀ t.stock) _ (fun _ _ ht => serveOne_moves ht) _ _ h

@[simp] theorem testWait_moves (h : Moves L s₀ s.stock) : Moves L s₀ (testWait s).stock := by
  unfold testWait
  repeat' split
  · exact h
  · refine raiseFault_moves ?_ _
    exact h
  · exact h

@[simp] theorem beginClose_moves (h : Moves L s₀ s.stock) (b : Nat) : Moves L s₀ (beginClose b s).stock := by
  have hclosing : Moves L s₀ (s.setBuilder b { s.builder b with phase := .closing, failures := 0 }).stock :=
    .builder h (mayBuild_of_phase (by simp))
  have hasking : Moves L s₀ (s.askingClose b).stock := .entry (v := s.closingEntry b) hclosing (mayWrite_of_state rfl rfl)
  rw [beginClose_eq]
  exact askSlot_moves hasking b

@[simp] theorem closeBuilders_moves (h : Moves L s₀ s.stock) (f : Builder → Bool) :
    Moves L s₀ (closeBuilders f s).stock := by
  unfold closeBuilders
  refine foldl_inv (fun t : State => Moves L s₀ t.stock) _ (fun t b ht => ?_) _ _ h
  split <;> simp [ht]

@[simp] theorem openOn_moves (h : Moves L s₀ s.stock) (b n d : Nat) : Moves L s₀ (openOn b n d s).stock := by
  unfold openOn
  split
  · exact .built h b ‹_› n d
  · split <;> simp [h]

@[simp] theorem tryOpen_moves (h : Moves L s₀ s.stock) (n d : Nat) : Moves L s₀ (tryOpen n d s).stock := by
  simp only [tryOpen]
  repeat' split
  all_goals simp [h]

@[simp] theorem testOpening_moves (h : Moves L s₀ s.stock) : Moves L s₀ (testOpening s).stock := by
  unfold testOpening
  split <;> simp [h]

@[simp] theorem resolveOpening_moves (h : Moves L s₀ s.stock) : Moves L s₀ (resolveOpening s).stock := by
  unfold resolveOpening
  repeat' split
  all_goals simp [h]

/-! ### Appending and the drain (R59, R65, R72) -/

theorem appendIfOpen_moves (h : Moves L s₀ s.stock) (f : QueuedFile) (r : Record) :
    Moves L s₀ (appendIfOpen f r s).stock := by
  unfold appendIfOpen
  split
  · exact h
  · split
    · exact .appended h ‹_› _ _
    · exact h

theorem openAndAppend_moves (h : Moves L s₀ s.stock) (f : QueuedFile) (r : Record) :
    Moves L s₀ (openAndAppend f r s).stock := by
  unfold openAndAppend
  split
  · exact appendIfOpen_moves (tryOpen_moves h _ _) f r
  · exact h

theorem appendNext_moves (h : Moves L s₀ s.stock) (f : QueuedFile) (r : Record) :
    Moves L s₀ (appendNext f r s).stock := by
  unfold appendNext
  split
  · exact openAndAppend_moves h f r
  · split
    · exact .appended h ‹_› _ _
    · exact openAndAppend_moves (beginClose_moves h _) f r

@[simp] theorem leaveQueue_moves (h : Moves L s₀ s.stock) : Moves L s₀ (leaveQueue s).stock := .left h

@[simp] theorem dropFinished_moves (h : Moves L s₀ s.stock) : Moves L s₀ (dropFinished s).stock := by
  unfold dropFinished
  refine foldl_inv (fun t : State => Moves L s₀ t.stock) _ (fun t _ ht => ?_) _ _ h
  repeat' split
  all_goals simp [ht]

@[simp] theorem drainCloses_moves (h : Moves L s₀ s.stock) : Moves L s₀ (drainCloses s).stock := by
  unfold drainCloses
  split <;> simp [h]

@[simp] theorem drainComplete_moves (h : Moves L s₀ s.stock) : Moves L s₀ (drainComplete s).stock := by
  unfold drainComplete
  split <;> simp [h]

@[simp] theorem runCompaction_moves (h : Moves L s₀ s.stock) : Moves L s₀ (runCompaction s).stock := by
  unfold runCompaction
  split
  · exact drainComplete_moves (drainCloses_moves (resolveOpening_moves (dropFinished_moves h)))
  · exact h

/-! ### Checkpoints (R169, R170, R172) -/

@[simp] theorem beginCheckpoint_moves (h : Moves L s₀ s.stock) (ws : List Waiter) :
    Moves L s₀ (beginCheckpoint ws s).stock := by
  simp only [beginCheckpoint]
  split
  · rw [abandonCheckpoint_stock]
    exact h
  · refine runCompaction_moves ?_
    exact h

@[simp] theorem trigger_moves (h : Moves L s₀ s.stock) (ws : List Waiter) : Moves L s₀ (trigger ws s).stock := by
  unfold trigger
  repeat' split
  · simp [h]
  · simp [h]
  · exact h
  · exact h
  · simp [h]

@[simp] theorem triggerFor_moves (h : Moves L s₀ s.stock) (r : ReqRef) (a b : List Byte) :
    Moves L s₀ (triggerFor r a b s).stock := trigger_moves h _

@[simp] theorem takeOwed_moves (h : Moves L s₀ s.stock) : Moves L s₀ (takeOwed s).stock := by
  simp only [takeOwed]
  repeat' split
  · rw [answerWaiters_stock]
    exact h
  · refine beginCheckpoint_moves ?_ _
    exact h
  · exact h

/-! ### The Eraser (R117 to R120) -/

/-- The entry that a search on a channel finds satisfies its test. -/
theorem lowestEntry_spec (hr : Tbl.rising s.media.dir = true) {c e : Nat} {p : DirEntry → Bool}
    (h : s.lowestEntry c p = some e) : p (s.entry e) = true := by
  obtain ⟨-, -, hfound⟩ := Tbl.nextFrom_spec _ _ _ hr h
  rw [State.entry, Tbl.get]
  split at hfound
  · cases hfound
  · rename_i v hv
    rw [hv]
    simp only [Bool.and_eq_true] at hfound
    exact hfound.2

/-- The Eraser takes an entry that no builder has. -/
theorem eraseEntry_moves (h : Moves L s₀ s.stock) {c e : Nat} {p : DirEntry → Bool} (he : s.lowestEntry c p = some e)
    (hp : ∀ v, p v = true → ¬ inBuilding v) : Moves L s₀ (eraseEntry c e s).stock := by
  simp only [eraseEntry, askErase_stock]
  exact .entry h (mayWrite_of_notBuilding rfl (by simp) (fun hr => hp _ (lowestEntry_spec hr he)))

theorem eligible_notBuilding {v : DirEntry} (h : s.eligible v = true) : ¬ inBuilding v := by
  simp only [State.eligible, Bool.and_eq_true, decide_eq_true_eq] at h
  obtain ⟨⟨hexpired, -⟩, -⟩ := h
  simp [inBuilding, hexpired]

theorem eraserWork_moves (h : Moves L s₀ s.stock) (c : Nat) : Moves L s₀ (eraserWork c s).stock := by
  unfold eraserWork
  split
  · split
    · rename_i e he
      exact eraseEntry_moves h he (fun v hv => by
        have herasing : v.state = .erasing := of_decide_eq_true hv
        simp [inBuilding, herasing])
    · split
      · rename_i e he
        exact eraseEntry_moves h he (fun v hv => eligible_notBuilding hv)
      · split <;> simp [h]
  · exact h

@[simp] theorem lookForWork_moves (h : Moves L s₀ s.stock) : Moves L s₀ (lookForWork s).stock := by
  unfold lookForWork
  split
  · exact foldl_inv (fun t : State => Moves L s₀ t.stock) _ (fun _ c ht => eraserWork_moves ht c) _ _ h
  · exact h

@[simp] theorem afterSlots_moves (h : Moves L s₀ s.stock) : Moves L s₀ (afterSlots s).stock :=
  lookForWork_moves (runCompaction_moves (testWait_moves (serveWait_moves h)))

theorem timeoutErase_moves (h : Moves L s₀ s.stock) (c : Nat) (w : EraseWork) :
    Moves L s₀ (timeoutErase c w s).stock := by
  refine raiseFault_moves ?_ _
  exact h

theorem completeCheckpoint_moves (h : Moves L s₀ s.stock) : Moves L s₀ (completeCheckpoint s).stock := by
  simp only [completeCheckpoint]
  refine lookForWork_moves ?_
  rw [answerWaiters_stock, raiseBoth_stock]
  exact h

/-! ### Sweeps (R104, R113, R116, R132, R135) -/

theorem endDay_moves (h : Moves L s₀ s.stock) (w : Sweep) : Moves L s₀ (endDay w s).stock := by
  refine trigger_moves ?_ _
  rw [popSweep_stock]
  exact h

theorem endExtend_moves (h : Moves L s₀ s.stock) (c : Nat) (w : Sweep) : Moves L s₀ (endExtend c w s).stock := by
  refine lookForWork_moves (trigger_moves ?_ _)
  split <;> simp only [setRetClass_stock, popSweep_stock] <;> exact h

theorem endApply_moves (h : Moves L s₀ s.stock) (k : Nat) (w : Sweep) : Moves L s₀ (endApply k w s).stock := by
  refine trigger_moves ?_ _
  simpa using h

@[simp] theorem runOutApply_moves (h : Moves L s₀ s.stock) (k : Nat) (w : Sweep) :
    Moves L s₀ (runOutApply k w s).stock := by
  unfold runOutApply
  repeat' split
  · exact endApply_moves h k w
  · exact h
  · exact endApply_moves (by simpa using h) k w

@[simp] theorem resumeSweep_moves (h : Moves L s₀ s.stock) : Moves L s₀ (resumeSweep s).stock := by
  unfold resumeSweep
  repeat' split
  all_goals simp [h]

theorem endRelease_moves (h : Moves L s₀ s.stock) (k : Nat) (w : Sweep) : Moves L s₀ (endRelease k w s).stock := by
  refine trigger_moves ?_ _
  simpa using h

theorem noteCloses_stock (s : State) : (noteCloses s).stock = s.stock := rfl

@[simp] theorem closeOldBuilders_moves (h : Moves L s₀ s.stock) : Moves L s₀ (closeOldBuilders s).stock := by
  rw [closeOldBuilders, noteCloses_stock]
  exact closeBuilders_moves h _

theorem abortAllSlots_moves (h : Moves L s₀ s.stock) : Moves L s₀ (abortAllSlots s).stock := by
  unfold abortAllSlots
  refine foldl_inv (fun t : State => Moves L s₀ t.stock) _ (fun t k ht => ?_) _ _ h
  split <;> simp [ht]

/-! ### Cursors (R159 to R164) -/

@[simp] theorem releaseHeld_moves (h : Moves L s₀ s.stock) (c : Nat) : Moves L s₀ (releaseHeld c s).stock := by
  unfold releaseHeld
  split
  · exact h
  · simpa using lowerReader_moves h _

theorem enterEntry_moves (h : Moves L s₀ s.stock) (c e : Nat) : Moves L s₀ (enterEntry c e s).stock := by
  simpa [enterEntry] using raiseReader_moves h e

theorem seekEntry_moves (c fuel : Nat) {s : State} (h : Moves L s₀ s.stock) : Moves L s₀ (seekEntry c fuel s).stock := by
  induction fuel generalizing s with
  | zero => exact h
  | succ fuel ih =>
    simp only [seekEntry]
    repeat' split
    · exact h
    · exact ih h
    · exact ih h
    · exact enterEntry_moves h c _
    · exact ih h

@[simp] theorem seekOn_moves (h : Moves L s₀ s.stock) (c : Nat) : Moves L s₀ (seekOn c s).stock := seekEntry_moves c _ h

theorem loadFromCopy_moves (h : Moves L s₀ s.stock) (c e : Nat) (copy : SegmentCopy) :
    Moves L s₀ (loadFromCopy c e copy s).stock := by
  simp only [loadFromCopy]
  split
  · exact h
  · refine seekOn_moves ?_ c
    rw [passEntry_stock]
    exact releaseHeld_moves h c
  · refine seekOn_moves ?_ c
    rw [passEntry_stock]
    refine releaseHeld_moves ?_ c
    exact h

@[simp] theorem startLoad_moves (h : Moves L s₀ s.stock) (c : Nat) : Moves L s₀ (startLoad c s).stock := by
  simp only [startLoad]
  repeat' split
  · refine loadFromCopy_moves ?_ c _ _
    exact h
  · refine seekOn_moves (releaseHeld_moves ?_ c) c
    exact h
  · refine seekOn_moves ?_ c
    exact h

@[simp] theorem endLoad_moves (h : Moves L s₀ s.stock) (c : Nat) : Moves L s₀ (endLoad c s).stock := by
  unfold endLoad
  split <;> simp [h]

theorem gather_moves (c fuel : Nat) {s : State} (h : Moves L s₀ s.stock) : Moves L s₀ (gather c fuel s).stock := by
  induction fuel generalizing s with
  | zero => exact h
  | succ fuel ih =>
    simp only [gather]
    repeat' split
    all_goals simp [h, ih]

@[simp] theorem gatherAll_moves (h : Moves L s₀ s.stock) (c : Nat) : Moves L s₀ (gatherAll c s).stock :=
  gather_moves c _ h

@[simp] theorem freeCursor_moves (h : Moves L s₀ s.stock) (c : Nat) : Moves L s₀ (freeCursor c s).stock := by
  simp [freeCursor, h]

@[simp] theorem freeCursorsOf_moves (h : Moves L s₀ s.stock) (p : Port) : Moves L s₀ (freeCursorsOf p s).stock := by
  unfold freeCursorsOf
  refine foldl_inv (fun t : State => Moves L s₀ t.stock) _ (fun t c ht => ?_) _ _ h
  split <;> simp [ht]

/-! ### Audit jobs (R146 to R151) -/

theorem markBad_moves (h : Moves L s₀ s.stock) (j : Job) (e : Nat) (b : FindingBody) :
    Moves L s₀ (markBad j e b s).stock := by
  simp only [markBad, setJob_stock]
  exact setVerify_moves (by simpa using h) e _

theorem judgeSegment_moves (h : Moves L s₀ s.stock) (j : Job) (e : Nat) (p : Option Payload) :
    Moves L s₀ (judgeSegment j e p s).stock := by
  simp only [judgeSegment]
  generalize ({ j with failed := if p.isNone then j.failed + 1 else j.failed } : Job) = j
  split
  · simpa [markGood] using setVerify_moves h e .good
  · split
    · exact h
    · exact markBad_moves h j e _

theorem verifyRun_moves (fuel : Nat) {s : State} (h : Moves L s₀ s.stock) : Moves L s₀ (verifyRun fuel s).stock := by
  induction fuel generalizing s with
  | zero => exact h
  | succ fuel ih =>
    simp only [verifyRun]
    repeat' split
    · exact h
    · exact h
    · exact h
    · simpa using h
    · simpa using raiseReader_moves h _
    · exact ih (judgeSegment_moves (raiseReader_moves h _) _ _ none)

theorem verifyOn_moves (h : Moves L s₀ s.stock) : Moves L s₀ (verifyOn s).stock := verifyRun_moves _ h

theorem addContribution_moves (h : Moves L s₀ s.stock) (j : Job) (e : Nat) (p : Option Payload) :
    Moves L s₀ (addContribution j e p s).stock := by
  simpa [addContribution] using lowerReader_moves h e

@[simp] theorem settleMismatch_stock (j : Job) (i : Nat) (b : FindingBody) (s : State) :
    (settleMismatch j i b s).stock = s.stock := by simp [settleMismatch]

theorem settleKey_stock (j : Job) (i : Nat) (s : State) : (settleKey j i s).stock = s.stock := by
  simp only [settleKey]
  repeat' split
  all_goals simp

theorem takeKey_stock (j : Job) (s : State) : (takeKey j s).stock = s.stock := by
  simp only [takeKey]
  repeat' split
  all_goals simp

theorem countKey_moves (h : Moves L s₀ s.stock) (j : Job) (i : Nat) : Moves L s₀ (countKey j i s).stock := by
  simp only [countKey]
  repeat' split
  · simpa [settleKey_stock] using h
  · simpa using raiseReader_moves h _
  · exact addContribution_moves (raiseReader_moves h _) _ _ none

theorem reconcileRun_moves (fuel : Nat) {s : State} (h : Moves L s₀ s.stock) :
    Moves L s₀ (reconcileRun fuel s).stock := by
  induction fuel generalizing s with
  | zero => exact h
  | succ fuel ih =>
    simp only [reconcileRun]
    repeat' split
    · exact h
    · exact h
    · exact ih (countKey_moves h _ _)
    · exact ih (by simpa [takeKey_stock] using h)
    · exact h

theorem reconcileOn_moves (h : Moves L s₀ s.stock) : Moves L s₀ (reconcileOn s).stock := reconcileRun_moves _ h

theorem jobOn_moves (h : Moves L s₀ s.stock) : Moves L s₀ (jobOn s).stock := reconcileOn_moves (verifyOn_moves h)

@[simp] theorem resumeJob_moves (h : Moves L s₀ s.stock) : Moves L s₀ (resumeJob s).stock := by
  simp only [resumeJob]
  repeat' split
  · exact h
  · exact h
  · exact jobOn_moves (markBad_moves h _ _ _)
  · exact jobOn_moves (by simpa using h)
  · exact h
  · exact h

theorem freedFirst_moves (h : Moves L s₀ s.stock) (o : AckOrder) : Moves L s₀ (freedFirst o s).stock := by
  cases o <;> simp [freedFirst, h]

end

end Sys2Proof.Machine
end

