-- ==== Sys2Proof/Proofs/StockCommands.lean ====
section
/-!
PROOFS. Proofs/StockCommands.lean: what the commands do to the stock is made of the acts of `Moves` too, for all but a power-up,
a power loss, a load, a Controller Reset, a Format and the definition of a code.
-/

namespace Sys2Proof.Machine
open Sys2Proof

section
variable {L : Prop} {s₀ s : State}

theorem intakeSlot_of_stock {t : State} (h : t.stock = s.stock) (k : Nat) : t.intakeSlot k = s.intakeSlot k := by
  obtain ⟨hslots, -⟩ := stock_iff.mp h
  rw [State.intakeSlot, hslots]
  rfl

theorem builder_of_stock {t : State} (h : t.stock = s.stock) (b : Nat) : t.builder b = s.builder b := by
  obtain ⟨-, -, -, hbuilders, -⟩ := stock_iff.mp h
  rw [State.builder, hbuilders]
  rfl

/-- Which entries no FILLING builder has depends on the builders alone. -/
theorem unfilled_of_stock {t : State} (h : t.stock = s.stock) {e : Nat} (he : s.unfilled e) : t.unfilled e := fun b hb => by
  rw [builder_of_stock h] at hb ⊢
  exact he b hb

/-! ### Files received (R38 to R50) -/

theorem refuseFile_moves (h : Moves L s₀ s.stock) (k : Nat) : Moves L s₀ (refuseFile k s).stock :=
  abortSlot_moves (by simpa using h) k

theorem refuseClose_moves (h : Moves L s₀ s.stock) (k : Nat) (st : Status) : Moves L s₀ (refuseClose k st s).stock := by
  simp only [refuseClose]
  split
  · exact refuseFile_moves h k
  · simpa using refuseFile_moves h k

/-- A file that takes a chunk keeps its phase and its pages. -/
theorem receive_keeps (f : IntakeSlot) (p : Profile) (now : Nat) (data : List Byte) :
    (f.receive p now data).phase = f.phase ∧ (f.receive p now data).pages = f.pages := by
  refine foldl_inv (fun g : IntakeSlot => g.phase = f.phase ∧ g.pages = f.pages) (IntakeSlot.takeByte p)
    (fun g b hg => ?_) data f ⟨rfl, rfl⟩
  simp only [IntakeSlot.takeByte]
  split
  · rw [IntakeSlot.judge_eq]
    exact hg
  · exact hg

theorem takeChunk_moves (h : Moves L s₀ s.stock) (r : ReqRef) {k : Nat} (hk : (s.intakeSlot k).phase = .receiving)
    (offset : Nat) (data : List Byte) : Moves L s₀ (takeChunk r k offset data s).stock := by
  simp only [takeChunk]
  repeat' split
  · simpa using h
  · simpa using refuseFile_moves h k
  · obtain ⟨hphase, hpages⟩ := receive_keeps (s.intakeSlot k) s.cat.profile s.second data
    rw [answer_stock]
    exact .slot h k (by rw [hphase, hk]; simp) hpages

theorem beginFileClose_moves (h : Moves L s₀ s.stock) (r : ReqRef) (k : Nat) (crc : Crc) :
    Moves L s₀ (beginFileClose r k crc s).stock := by
  obtain ⟨hphase, -, hpages⟩ := close_keeps (s.intakeSlot k) r
  have hclosed : Moves L s₀ (s.setIntakeSlot k ((s.intakeSlot k).close r)).stock :=
    .slot h k (by rw [hphase]; simp) hpages
  simp only [beginFileClose]
  split
  · refine refuseClose_moves ?_ k _
    exact hclosed
  · exact hclosed

theorem acceptFile_moves (h : Moves L s₀ s.stock) (hq : s.comp.queue.length < Config.queueFiles) (k : Nat)
    (e : SourceEntry) (gone : List GapRecord) (pos : Nat) : Moves L s₀ (acceptFile k e gone pos s).stock := by
  obtain ⟨t, ht⟩ : ∃ t, t = ((exportGaps (s.intakeSlot k).source .overflow gone s).setSource (s.intakeSlot k).source
      (countAccepted e (s.intakeSlot k).day)).changeTally (s.intakeSlot k).source (s.intakeSlot k).day
        (fun y => tallyAccept y (s.intakeSlot k).declaredRecords (s.intakeSlot k).accepted (s.intakeSlot k).rejects.sum) :=
    ⟨_, rfl⟩
  have hstock : t.stock = s.stock := by simp [ht]
  have hqueue : t.comp.queue = s.comp.queue := by
    obtain ⟨-, -, hqueue, -⟩ := stock_iff.mp hstock
    exact hqueue
  have hjoined : Moves L s₀ (clearSlot k (joinQueue (s.intakeSlot k) t)).stock := by
    rw [← intakeSlot_of_stock hstock k]
    exact .joined (h.of_stock hstock) k (by rw [hqueue]; exact hq)
  simp only [acceptFile, ← ht]
  refine runCompaction_moves ?_
  split
  · exact hjoined
  · simpa using hjoined

theorem judgeClose_moves (h : Moves L s₀ s.stock) (hq : s.comp.queue.length < Config.queueFiles) (k : Nat) :
    Moves L s₀ (judgeClose k s).stock := by
  simp only [judgeClose]
  split
  · exact refuseClose_moves h k _
  · refine refuseClose_moves ?_ k _
    exact h
  · exact acceptFile_moves h hq k _ _ _

theorem acceptNext_moves (h : Moves L s₀ s.stock) : Moves L s₀ (acceptNext s).stock := by
  unfold acceptNext
  split
  · exact h
  · split
    · rename_i hready
      have hroom : s.waitsRoom = false := by simpa using (Bool.and_eq_true_iff.mp hready).2
      exact judgeClose_moves h (by simpa [State.waitsRoom] using hroom) _
    · exact h

theorem acceptSome_moves (n : Nat) {s : State} (h : Moves L s₀ s.stock) : Moves L s₀ (acceptSome n s).stock := by
  induction n generalizing s with
  | zero => exact h
  | succ n ih => exact ih (acceptNext_moves h)

/-! ### Compaction (R59, R68, R69, R78) -/

theorem appendStep_moves (h : Moves L s₀ s.stock) (ok : Bool) : Moves L s₀ (appendStep ok s).stock := by
  unfold appendStep
  repeat' split
  · exact h
  · exact h
  · refine raiseFault_moves ?_ _
    exact h
  · exact runCompaction_moves (appendNext_moves h _ _)
  · exact h

theorem storeSegment_moves (h : Moves L s₀ s.stock) {b : Nat} (hb : L → s.unfilled (s.builder b).entry) :
    Moves L s₀ (storeSegment b s).stock := by
  have hstored : Moves L s₀
      (s.setEntry (s.builder b).entry { s.entry (s.builder b).entry with state := .stored }).stock :=
    .entry h ⟨rfl, (fun hf => by cases hf), fun hL _ => Or.inr (hb hL)⟩
  exact runCompaction_moves (.builder hstored (mayBuild_of_phase (by simp)))

theorem countFailure_moves (h : Moves L s₀ s.stock) (b : Nat) (r : SlotRef) : Moves L s₀ (countFailure b r s).stock :=
  .builder (s := s.setSlotState r .defective) h (fun hf => ⟨hf, rfl, rfl⟩)

theorem failSegment_moves (h : Moves L s₀ s.stock) (timeout : Bool) (b : Nat) (r : SlotRef) :
    Moves L s₀ (failSegment timeout b r s).stock := by
  have hcounted := countFailure_moves h b r
  simp only [failSegment]
  split
  · exact raiseFault_moves (toFilling_moves hcounted _) _
  · simp only [retryWrite]
    repeat' split
    · exact toFilling_moves hcounted _
    · exact giveSlot_moves hcounted _ _ _
    · exact waitForSlot_moves (toFilling_moves hcounted _) b

theorem builderPageFault_moves (h : Moves L s₀ s.stock) (b : Nat) (r : SlotRef) :
    Moves L s₀ (builderPageFault b r s).stock := by
  have hfilling : Moves L s₀ (toFilling (s.builder b).entry (s.setSlotState r .clean)).stock := toFilling_moves h _
  refine raiseFault_moves ?_ _
  exact .builder hfilling (fun hf => ⟨hf, rfl, rfl⟩)

/-! ### The Eraser (R118, R119) -/

theorem finishErase_moves (h : Moves L s₀ s.stock) (c : Nat) (w : EraseWork) (ok : Bool)
    (hw : L → ∀ e, w.entry = some e → s.unfilled e) : Moves L s₀ (finishErase c w ok s).stock := by
  simp only [finishErase]
  split
  · exact h
  · rename_i e he
    rw [freeEntryAndTest, releaseTest_stock]
    refine .freed ?_ (fun hL => ?_)
    · exact h
    · exact hw hL e he

theorem eraserEnds_moves (h : Moves L s₀ s.stock) (c : Nat) (op : Op) (ok : Bool)
    (hop : L → ∀ e, op.entry = some e → s.unfilled e) : Moves L s₀ (eraserEnds c op ok s).stock := by
  rw [eraserEnds, complete, startNext_stock, endOp_stock]
  refine afterSlots_moves (finishErase_moves ?_ c _ ok (fun hL e he => ?_))
  · exact h.of_stock (by simp)
  · exact unfilled_of_stock (by simp) (hop hL e he)

/-- The requester's handling is all that an ending operation does to the stock. -/
theorem complete_moves (h : Moves L s₀ s.stock) (c : Nat) (op : Op) (ok : Bool) {act : State → State}
    (ha : ∀ t : State, Moves L s₀ t.stock → Moves L s₀ (act t).stock) : Moves L s₀ (complete c op ok act s).stock := by
  rw [complete, startNext_stock, endOp_stock]
  exact ha _ (h.of_stock (by simp))

/-! ### Reads (R147, R149, R159) -/

theorem verifyRead_moves (h : Moves L s₀ s.stock) (c slot : Nat) (res : ReadResult) :
    Moves L s₀ (verifyRead c slot res s).stock := by
  unfold verifyRead
  repeat' split
  · exact h
  · refine verifyOn_moves (judgeSegment_moves ?_ _ _ _)
    exact h
  · exact h

theorem reconcileAfter_moves (h : Moves L s₀ s.stock) : Moves L s₀ (reconcileRead.reconcileAfter s).stock := by
  unfold reconcileRead.reconcileAfter
  repeat' split
  · exact h
  · exact h
  · exact reconcileOn_moves h
  · rw [settleKey_stock]
    exact h
  · exact h

theorem reconcileRead_moves (h : Moves L s₀ s.stock) (c slot : Nat) (res : ReadResult) :
    Moves L s₀ (reconcileRead c slot res s).stock := by
  unfold reconcileRead
  repeat' split
  · exact h
  · refine reconcileAfter_moves (addContribution_moves ?_ _ _ _)
    exact h
  · exact h

theorem auditRead_moves (h : Moves L s₀ s.stock) (c : Nat) (op : Op) (res : ReadResult) :
    Moves L s₀ (auditRead c op res s).stock :=
  complete_moves h c op true (fun t ht => by
    split
    · exact verifyRead_moves ht c _ res
    · exact reconcileRead_moves ht c _ res)

theorem cursorRead_moves (h : Moves L s₀ s.stock) (c : Nat) (p : Option Payload) (bad : List (Nat × Nat)) :
    Moves L s₀ (cursorRead c p bad s).stock := by
  unfold cursorRead
  repeat' split
  · exact h
  · exact gatherAll_moves (loadFromCopy_moves h c _ _) c
  · refine gatherAll_moves (seekOn_moves ?_ c) c
    rw [passEntry_stock]
    refine releaseHeld_moves ?_ c
    exact h

theorem cursorReadEnds_moves (h : Moves L s₀ s.stock) (c : Nat) (op : Op) (res : ReadResult) (bad : List (Nat × Nat)) :
    Moves L s₀ (cursorReadEnds c op res bad s).stock :=
  complete_moves h c op true (fun t ht => by
    refine cursorRead_moves ?_ _ _ bad
    exact ht)

/-! ### Checkpoints (R172, R173) -/

theorem shareWritten_moves (h : Moves L s₀ s.stock) (n : Nat) : Moves L s₀ (shareWritten n s).stock := by
  unfold shareWritten
  split
  · exact h
  · exact takeOwed_moves (acceptSome_moves _ (completeCheckpoint_moves h))

theorem failCheckpoint_moves (h : Moves L s₀ s.stock) (c k : Nat) : Moves L s₀ (failCheckpoint c k s).stock := by
  simp only [failCheckpoint, answerWaiters_stock]
  refine raiseFault_moves ?_ _
  exact h

theorem shareFails_moves (h : Moves L s₀ s.stock) (c : Nat) (op : Op) : Moves L s₀ (shareFails c op s).stock :=
  complete_moves h c op false (fun t ht => by
    split
    · exact failCheckpoint_moves ht c _
    · exact ht)

/-! ### Days and sweeps (R103, R107, R111, R115, R130, R135) -/

theorem advance_moves (h : Moves L s₀ s.stock) (r : ReqRef) : Moves L s₀ (advance r s).stock := by
  simp only [advance, pushSweep_stock]
  refine runCompaction_moves (closeOldBuilders_moves ?_)
  rw [closeTallies_stock, ageGaps_stock]
  exact h

theorem oweExtend_stock (c : Nat) (r : ReqRef) (s : State) : (oweExtend c r s).stock = s.stock := by
  unfold oweExtend
  repeat' split
  all_goals simp

theorem changeClass_moves (h : Moves L s₀ s.stock) (r : ReqRef) (c days : Nat) :
    Moves L s₀ (changeClass r c days s).stock := by
  simp only [changeClass]
  split
  · refine trigger_moves ?_ []
    rw [oweExtend_stock]
    exact h
  · refine triggerFor_moves ?_ r [] []
    exact h

theorem stepSweep_moves (h : Moves L s₀ s.stock) (w : Sweep) {finish : Sweep → State → State}
    (hf : Moves L s₀ (finish w s).stock) : Moves L s₀ (stepSweep w finish s).stock := by
  unfold stepSweep
  split
  · exact hf
  · exact h

theorem notBuilding_of_state {v : DirEntry} (hf : v.state ≠ .filling) (hw : v.state ≠ .writing) : ¬ inBuilding v :=
  fun h => h.elim hf hw

theorem judgeExpiry_moves (h : Moves L s₀ s.stock) (w : Sweep) : Moves L s₀ (judgeExpiry w s).2.stock := by
  simp only [judgeExpiry]
  repeat' split
  · exact h
  · exact h
  · exact h
  · exact h
  · rename_i hdue _ _ _
    have hstored : (s.entry w.position).state = .stored := by
      simp only [Bool.not_eq_true, Bool.not_eq_false', State.due, Bool.and_eq_true, decide_eq_true_eq] at hdue
      exact hdue.1
    exact .entry h (mayWrite_of_notBuilding rfl (by simp) (fun _ =>
      notBuilding_of_state (by simp [hstored]) (by simp [hstored])))

theorem extendEntry_moves (h : Moves L s₀ s.stock) (c : Nat) (w : Sweep) : Moves L s₀ (extendEntry c w s).2.stock := by
  have hdays : ∀ d, Moves L s₀ (s.setEntry w.position { s.entry w.position with expiryDay := d }).stock := fun d =>
    .entry h (mayWrite_of_state rfl rfl)
  simp only [extendEntry]
  split
  · exact h
  · split
    · split
      · exact hdays _
      · exact h
    · split
      · exact hdays _
      · exact h
    · rename_i hexpired
      split
      · exact .entry h (mayWrite_of_notBuilding rfl (by simp) (fun _ =>
          notBuilding_of_state (by simp [hexpired]) (by simp [hexpired])))
      · split
        · exact hdays _
        · exact h
    · exact h
    · exact h
    · exact h

theorem applyEntry_moves (h : Moves L s₀ s.stock) (k n : Nat) : Moves L s₀ (applyEntry k n s).stock := by
  have hmarked : Moves L s₀ (s.setEntry n (withMark k (s.entry n))).stock := .entry h (mayWrite_of_state rfl rfl)
  simp only [applyEntry]
  split
  · exact h
  · split
    · exact hmarked
    · exact hmarked
    · rename_i hexpired
      have hreclaimed : Moves L s₀
          (s.setEntry n { withMark k (s.entry n) with state := .stored, expiryCkpt := none }).stock :=
        .entry h (mayWrite_of_notBuilding rfl (by simp) (fun _ =>
          notBuilding_of_state (by simp [hexpired]) (by simp [hexpired])))
      exact hreclaimed
    · exact h
    · exact h
    · exact h

theorem releaseEntry_moves (h : Moves L s₀ s.stock) (k : Nat) (w : Sweep) : Moves L s₀ (releaseEntry k w s).2.stock := by
  simp only [releaseEntry]
  split
  · exact .entry h (mayWrite_of_state rfl rfl)
  · exact h

/-! ### Faults answered (R187 to R190) -/

theorem askAgain_moves (h : Moves L s₀ s.stock) (p : State → Nat → Bool) {f : Builder → Builder}
    (hf : ∀ v, (f v).phase = v.phase ∧ (f v).entry = v.entry ∧ (f v).used = v.used) :
    Moves L s₀ (askAgain p f s).stock := by
  unfold askAgain
  refine foldl_inv (fun t : State => Moves L s₀ t.stock) _ (fun t b ht => ?_) _ _ h
  split
  · obtain ⟨hphase, hentry, hused⟩ := hf (t.builder b)
    exact askSlot_moves (.builder ht (fun hx => ⟨hphase ▸ hx, hentry, hused⟩)) b
  · exact ht

theorem retryOpening_moves (h : Moves L s₀ s.stock) : Moves L s₀ (retryOpening s).stock := by
  unfold retryOpening
  split
  · refine resolveOpening_moves ?_
    exact h
  · exact h

theorem takeCloses_moves (h : Moves L s₀ s.stock) : Moves L s₀ (takeCloses s).stock := by
  unfold takeCloses
  split <;> simp [h]

theorem resumeCompaction_moves (h : Moves L s₀ s.stock) : Moves L s₀ (resumeCompaction s).stock := by
  have hpages := askAgain_moves (s := { s with comp := { s.comp with stopped := false, headHeld := false } }) h
    (fun u b => (u.builder b).pageHeld) (f := fun v => { v with pageHeld := false }) (fun _ => ⟨rfl, rfl, rfl⟩)
  have hslots := askAgain_moves hpages State.slotless (f := fun v => { v with failures := 0 }) (fun _ => ⟨rfl, rfl, rfl⟩)
  exact runCompaction_moves (takeCloses_moves (serveWait_moves (retryOpening_moves hslots)))

theorem resumeEngine_moves (h : Moves L s₀ s.stock) (e : Engine) : Moves L s₀ (resumeEngine e s).stock := by
  cases e with
  | compaction => exact resumeCompaction_moves h
  | eraser =>
    refine lookForWork_moves ?_
    exact h
  | catalog =>
    refine trigger_moves ?_ []
    exact h

theorem resumeNamed_moves (h : Moves L s₀ s.stock) (r : ReqRef) (engine : Nat) :
    Moves L s₀ (resumeNamed r engine s).stock := by
  unfold resumeNamed
  split
  · exact h
  · refine resumeEngine_moves ?_ _
    rw [emptyContexts_stock, answer_stock]
    exact h

theorem abandonHead_moves (h : Moves L s₀ s.stock) : Moves L s₀ (abandonHead s).stock := by
  unfold abandonHead
  repeat' split
  · exact h
  · rw [writeFinding_stock]
    refine leaveQueue_moves ?_
    exact h.of_stock (changeTally_stock s _ _ _)
  · exact h

theorem abandonHead_builder (s : State) (b : Nat) : (abandonHead s).builder b = s.builder b := by
  unfold abandonHead
  repeat' split
  · rfl
  · simp [State.builder]
  · rfl

theorem abandonBuilder_builder (a : Nat) (s : State) (b : Nat) :
    (abandonBuilder a s).builder b = if b = a then {} else s.builder b := by
  have hbuilders : ∀ t : State, t.comp.builders = s.comp.builders →
      (t.setBuilder a {}).builder b = if b = a then {} else s.builder b := fun t ht => by
    rw [State.setBuilder_builder, State.builder, ht]
    rfl
  simp only [abandonBuilder]
  rw [builder_of_stock (releaseTest_stock _ _)]
  exact hbuilders _ (by simp)

theorem abandonBuilder_moves (h : Moves L s₀ s.stock) {b : Nat} (hb : L → s.unfilled (s.builder b).entry) :
    Moves L s₀ (abandonBuilder b s).stock := by
  simp only [abandonBuilder, releaseTest_stock]
  refine .builder ?_ (mayBuild_of_phase (by simp))
  rw [writeFinding_stock]
  refine .freed (h.of_stock (changeTally_stock s _ _ _)) (fun hL => ?_)
  exact unfilled_of_stock (changeTally_stock s _ _ _) (hb hL)

/-- The builders held are abandoned in turn, each leaving an entry that no FILLING builder has. -/
theorem abandonBuilders_moves {l : List Nat} (hl : l.Nodup) {s : State} (h : Moves L s₀ s.stock)
    (hb : L → ∀ b ∈ l, s.unfilled (s.builder b).entry) :
    Moves L s₀ (l.foldl (fun u b => abandonBuilder b u) s).stock := by
  induction l generalizing s with
  | nil => exact h
  | cons a l ih =>
    obtain ⟨ha, hl⟩ := List.nodup_cons.mp hl
    refine ih hl (abandonBuilder_moves h (fun hL => hb hL a (by simp))) (fun hL b hbl d hd => ?_)
    have hba : b ≠ a := fun hx => ha (hx ▸ hbl)
    rw [abandonBuilder_builder] at hd ⊢
    rw [abandonBuilder_builder, if_neg hba]
    split at hd
    · cases hd
    · rename_i hda
      rw [if_neg hda]
      exact hb hL b (by simp [hbl]) d hd

theorem abandon_moves (h : Moves L s₀ s.stock) (r : ReqRef)
    (hb : L → ∀ b, (s.builder b).pageHeld = true → s.unfilled (s.builder b).entry) :
    Moves L s₀ (abandon r s).stock := by
  have hheld : s.heldBuilders.Nodup := List.nodup_range.filter _
  have hbuilders := abandonBuilders_moves hheld (abandonHead_moves h) (fun hL b hbl d hd => by
    have hpage : (s.builder b).pageHeld = true := (List.mem_filter.mp hbl).2
    rw [abandonHead_builder] at hd ⊢
    rw [abandonHead_builder]
    exact hb hL b hpage d hd)
  refine resumeCompaction_moves ?_
  rw [emptyContexts_stock, answer_stock]
  exact hbuilders

/-! ### Sources and holds (R29, R32, R124) -/

theorem retire_stock (n : Nat) (s : State) : (retire n s).stock = s.stock := by simp [retire]

theorem resequence_stock (n base : Nat) (s : State) : (resequence n base s).stock = s.stock := by simp [resequence]

theorem changeHold_stock (k : Nat) (v : Hold) (s : State) : (changeHold k v s).stock = s.stock := by simp [changeHold]

end

end Sys2Proof.Machine
end

