-- ==== Sys2Proof/Proofs/StockImages.lean ====
section
/-!
PROOFS. Proofs/StockImages.lean: the stock that a load takes from an image, and that the clearing of a Format leaves; the counts
of the shared codes in it (R73, R74, R178, R182).
-/

namespace Sys2Proof.Machine
open Sys2Proof

/-! ### Tables changed throughout -/

/-- A listed entry is what `f` makes of it, and an entry that is not listed stays so. -/
theorem Tbl.get_mapListed {α : Type} [DecidableEq α] {d : α} (f : Nat → α → α) {t : Tbl α} (h : Tbl.rising t = true)
    (k : Nat) : Tbl.get d (Tbl.mapListed d f t) k = (Tbl.find t k).elim d (f k) := by
  induction t with
  | nil => rfl
  | cons e t ih =>
    obtain ⟨j, v⟩ := e
    obtain ⟨hlt, ht⟩ := (Tbl.rising_cons j v t).mp h
    have hrest := ih ht
    by_cases hv : f j v = d
    · have hmap : Tbl.mapListed d f ((j, v) :: t) = Tbl.mapListed d f t := by simp [Tbl.mapListed, hv]
      by_cases hjk : j = k
      · subst hjk
        have hnone : Tbl.find t j = none := Tbl.find_none_of_lt hlt
        rw [hmap, hrest, hnone]
        simp [Tbl.find, hv]
      · rw [hmap, hrest]
        simp [Tbl.find, hjk]
    · have hmap : Tbl.mapListed d f ((j, v) :: t) = (j, f j v) :: Tbl.mapListed d f t := by simp [Tbl.mapListed, hv]
      rw [hmap]
      by_cases hjk : j = k
      · subst hjk
        simp [Tbl.get, Tbl.find]
      · have hget : Tbl.get d ((j, f j v) :: Tbl.mapListed d f t) k = Tbl.get d (Tbl.mapListed d f t) k := by
          simp [Tbl.get, Tbl.find, hjk]
        rw [hget, hrest]
        simp [Tbl.find, hjk]

theorem Tbl.rising_mapListed {α : Type} [DecidableEq α] {d : α} {t : Tbl α} (h : Tbl.rising t = true)
    (f : Nat → α → α) : Tbl.rising (Tbl.mapListed d f t) = true :=
  ((Tbl.canon_iff d _).mp (Tbl.canon_mapListed h f)).1

/-- What holds of the empty entry and of every listed one holds of every entry. -/
theorem Tbl.get_of_all {α : Type} {d : α} {P : α → Prop} (hd : P d) {t : Tbl α} (h : ∀ e ∈ t, P e.2) (k : Nat) :
    P (Tbl.get d t k) := by
  rw [Tbl.get]
  cases hk : Tbl.find t k with
  | none => exact hd
  | some v => exact h (k, v) (Tbl.mem_of_find hk)

/-! ### Images -/

/-- The stock that is taken from an image: its directory with no reader, the counts of its shared codes, and nothing else. -/
def stockOf (i : Image) : Stock :=
  { State.reset.stock with codes := loadCodes i, dir := Tbl.mapListed {} (fun _ e => { e with readers := 0 }) i.dir }

/-- The law of an image's shared codes, as its tables are read (R73, R74). -/
structure CodesLaid (i : Image) : Prop where
  dir : Tbl.rising i.dir = true
  codes : Tbl.rising i.codes = true
  empty : ∀ c, (Tbl.get {} i.codes c).state = .empty → Tbl.get {} i.codes c = {}
  used : ∀ e, (Tbl.get {} i.dir e).used.Pairwise (· < ·) ∧
    ((Tbl.get {} i.dir e).state = .free → (Tbl.get {} i.dir e).used = []) ∧
    ∀ c ∈ (Tbl.get {} i.dir e).used, (Tbl.get {} i.codes c).state ≠ .empty

/-- An image that the part could have laid out keeps the law of its shared codes. -/
theorem codesLaid_of_wf {i : Image} (h : i.wf = true) : CodesLaid i := by
  simp only [Image.wf, Image.codesOk, Bool.and_eq_true, List.all_eq_true, Bool.or_eq_true, decide_eq_true_eq,
    List.isEmpty_iff] at h
  obtain ⟨⟨⟨⟨⟨⟨⟨⟨⟨⟨-, hdir⟩, hcodes⟩, -⟩, -⟩, -⟩, -⟩, -⟩, -⟩, hlisted, hused⟩, -⟩ := h
  refine ⟨((Tbl.canon_iff _ _).mp hdir).1, ((Tbl.canon_iff _ _).mp hcodes).1, fun c => ?_, fun e => ?_⟩
  · exact Tbl.get_of_all (P := fun v : SharedCode => v.state = .empty → v = {}) (fun _ => rfl)
      (fun v hv hempty => absurd hempty (hlisted v hv)) c
  · refine Tbl.get_of_all (P := fun v : DirEntry => v.used.Pairwise (· < ·) ∧ (v.state = .free → v.used = []) ∧
      ∀ c ∈ v.used, (Tbl.get {} i.codes c).state ≠ .empty) ⟨List.Pairwise.nil, fun _ => rfl, by simp⟩ (fun v hv => ?_) e
    obtain ⟨⟨hsorted, hfree⟩, hin⟩ := hused v hv
    exact ⟨hsorted, fun hf => hfree.resolve_left (fun hne => hne hf), hin⟩

section
variable {i : Image}

/-- A code that the image does not have in use is held by no entry. -/
theorem useCount_of_empty (h : CodesLaid i) {c : Nat} (hc : (Tbl.get {} i.codes c).state = .empty) :
    useCount i.dir c = 0 := by
  rw [useCount, List.length_eq_zero_iff, List.filter_eq_nil_iff]
  intro e he hin
  obtain ⟨-, -, hused⟩ := h.used e.1
  have hget : Tbl.get {} i.dir e.1 = e.2 := by
    rw [Tbl.get, Tbl.find_of_mem h.dir he]
    rfl
  rw [hget] at hused
  exact hused c (by simpa using hin) hc

/-- The code as a load takes it. -/
def codeTaken (n : Nat) (v : SharedCode) : SharedCode := if v.state = .retired ∧ n = 0 then {} else { v with count := n }

theorem loadCodes_get (h : CodesLaid i) (c : Nat) :
    Tbl.get {} (loadCodes i) c = codeTaken (useCount i.dir c) (Tbl.get {} i.codes c) := by
  have hget : Tbl.get {} (loadCodes i) c = (Tbl.find i.codes c).elim {} (codeTaken (useCount i.dir c)) :=
    Tbl.get_mapListed (fun c v => codeTaken (useCount i.dir c) v) h.codes c
  rw [hget]
  cases hc : Tbl.find i.codes c with
  | some v => simp [Tbl.get, hc]
  | none =>
    have hunlisted : Tbl.get {} i.codes c = {} := by rw [Tbl.get, hc]; rfl
    rw [hunlisted, useCount_of_empty h (by rw [hunlisted])]
    rfl

theorem loadedDir_get (h : CodesLaid i) (e : Nat) :
    (Tbl.get {} (stockOf i).dir e).used = (Tbl.get {} i.dir e).used ∧
      (Tbl.get {} (stockOf i).dir e).state = (Tbl.get {} i.dir e).state := by
  have hget : Tbl.get {} (stockOf i).dir e = (Tbl.find i.dir e).elim {} (fun v => { v with readers := 0 }) :=
    Tbl.get_mapListed (fun _ (v : DirEntry) => { v with readers := 0 }) h.dir e
  rw [hget, Tbl.get]
  cases Tbl.find i.dir e <;> exact ⟨rfl, rfl⟩

/-- The entries that hold a code are as many as the load counts. -/
theorem loadedDir_uses (h : CodesLaid i) {s : State} (hs : s.media.dir = (stockOf i).dir) (c : Nat) :
    s.uses c = useCount i.dir c := by
  have hentry : ∀ e ∈ i.dir, e.2.state = .free → e.2.used = [] := fun e he hf => by
    obtain ⟨-, hfree, -⟩ := h.used e.1
    have hget : Tbl.get {} i.dir e.1 = e.2 := by
      rw [Tbl.get, Tbl.find_of_mem h.dir he]
      rfl
    rw [hget] at hfree
    exact hfree hf
  rw [State.uses, hs, useCount, ← List.countP_eq_length_filter]
  simp only [stockOf, Tbl.mapListed, List.countP_filter, List.countP_map]
  refine List.countP_congr (fun e he => ?_)
  have hfree := hentry e he
  simp only [Function.comp, Bool.and_eq_true, decide_eq_true_eq, List.contains_iff_mem]
  refine ⟨fun hx => hx.1.2, fun hx => ⟨⟨fun hf => by simp [hfree hf] at hx, hx⟩, fun hempty => ?_⟩⟩
  have hused := congrArg DirEntry.used hempty
  simp only at hused
  simp [hused] at hx

/-- The law of the shared codes holds of what is taken from an image. -/
theorem codesHeld_of_image (h : CodesLaid i) {s : State} (hs : s.stock = stockOf i) : s.codesHeld := by
  obtain ⟨-, -, -, hbuilders, hcodes, hdir⟩ : s.intake.slots = (stockOf i).slots ∧ s.intake.freePages = (stockOf i).free ∧
      s.comp.queue = (stockOf i).queue ∧ s.comp.builders = (stockOf i).builders ∧ s.comp.codes = (stockOf i).codes ∧
      s.media.dir = (stockOf i).dir := by
    rw [← hs]
    exact ⟨rfl, rfl, rfl, rfl, rfl, rfl⟩
  have hfree : ∀ b, (s.builder b).phase ≠ .filling := fun b => by
    have hempty : s.builder b = {} := by
      rw [State.builder, hbuilders]
      rfl
    rw [hempty]
    simp
  have hcode : ∀ c, s.code c = codeTaken (useCount i.dir c) (Tbl.get {} i.codes c) := fun c => by
    rw [State.code, hcodes]
    exact loadCodes_get h c
  refine ⟨?_, by rw [hbuilders]; rfl, ⟨fun c => ?_, fun c hc => ?_, fun e => ?_, fun b hb => absurd hb (hfree b)⟩,
    fun b hb => absurd hb (hfree b), fun b _ hb => absurd hb (hfree b)⟩
  · rw [hdir]
    exact Tbl.rising_mapListed h.dir (fun _ (e : DirEntry) => { e with readers := 0 })
  · rw [hcode, loadedDir_uses h hdir, codeTaken]
    split
    · rename_i hzero
      exact hzero.2.symm
    · rfl
  · rw [hcode] at hc ⊢
    unfold codeTaken at hc ⊢
    split at hc
    · rename_i hzero
      rw [if_pos hzero]
    · rename_i hne
      rw [if_neg hne, h.empty c hc, useCount_of_empty h hc]
  · obtain ⟨hsorted, hfree, -⟩ := h.used e
    obtain ⟨hused, hstate⟩ := loadedDir_get h e
    rw [State.entry, hdir, hused, hstate]
    exact ⟨hsorted, hfree⟩

end

/-! ### The image that a Format's clearing stands on (R182) -/

/-- What an image would hold of the part, its entries as a Format's clearing leaves them (R182 phase 1). -/
def State.keptImage (s : State) : Image :=
  { s.contents s.cat.last (s.cat.channel.getD 0) with dir := Tbl.mapListed {} (fun _ e => entryKept e) s.media.dir }

theorem entryKept_keeps (e : DirEntry) :
    entryKept e = {} ∨ (entryKept e).used = e.used ∧ ((entryKept e).state = .free → e.state = .free) := by
  unfold entryKept
  split
  · exact Or.inl rfl
  · exact Or.inl rfl
  · refine Or.inr ⟨?_, ?_⟩ <;> unfold imageEntry <;> split <;> simp_all

/-- The part's shared codes are the ones that the image lists, uncounted. -/
theorem keptImage_code (s : State) (hr : Tbl.rising s.comp.codes = true) (c : Nat) :
    Tbl.get {} s.keptImage.codes c = { s.code c with count := 0 } := by
  have hget : Tbl.get {} s.keptImage.codes c = (Tbl.find s.comp.codes c).elim {} (fun v => { v with count := 0 }) :=
    Tbl.get_mapListed (fun _ (v : SharedCode) => { v with count := 0 }) hr c
  rw [hget, State.code, Tbl.get]
  cases Tbl.find s.comp.codes c <;> rfl

theorem keptImage_codesLaid {s : State} (hd : Tbl.rising s.media.dir = true) (hr : Tbl.rising s.comp.codes = true)
    (h : s.codesLaw) : CodesLaid s.keptImage := by
  obtain ⟨hcount, hempty, hentries, -⟩ := h
  have hkept : ∀ e, Tbl.get {} s.keptImage.dir e = {} ∨ (Tbl.get {} s.keptImage.dir e).used = (s.entry e).used ∧
      ((Tbl.get {} s.keptImage.dir e).state = .free → (s.entry e).state = .free) := fun e => by
    have hget : Tbl.get {} s.keptImage.dir e = (Tbl.find s.media.dir e).elim {} entryKept :=
      Tbl.get_mapListed (fun _ e => entryKept e) hd e
    rw [hget, State.entry, Tbl.get]
    cases Tbl.find s.media.dir e with
    | none => exact Or.inl rfl
    | some v => exact entryKept_keeps v
  have hin : ∀ e c, c ∈ (s.entry e).used → (s.code c).state ≠ .empty := fun e c hc hx => by
    have hnotFree : (s.entry e).state ≠ .free := fun hf => by simp [(hentries e).2 hf] at hc
    have hzero : s.uses c = 0 := by rw [← hcount c, hempty c hx]
    have hone : usesOf c (s.entry e) = 1 := by simp [usesOf, hnotFree, hc]
    have hsum := setEntry_uses hd e {} c
    rw [usesOf_of_unused (e := ({} : DirEntry)) rfl] at hsum
    omega
  refine ⟨Tbl.rising_mapListed hd (fun _ e => entryKept e), Tbl.rising_mapListed hr (fun _ (v : SharedCode) => { v with count := 0 }),
    fun c hc => ?_, fun e => ?_⟩
  · rw [keptImage_code s hr] at hc ⊢
    rw [hempty c hc]
  · rcases hkept e with hnone | ⟨hused, hfree⟩
    · rw [hnone]
      exact ⟨List.Pairwise.nil, fun _ => rfl, by simp⟩
    · obtain ⟨hsorted, hnone⟩ := hentries e
      rw [hused]
      refine ⟨hsorted, fun hf => hnone (hfree hf), fun c hc => ?_⟩
      rw [keptImage_code s hr]
      exact hin e c hc

/-! ### The stock of a part that nothing is left of -/

theorem codesHeld_of_blank {s : State} (hs : s.stock = State.reset.stock) : s.codesHeld := by
  have hlaid : CodesLaid { State.reset.contents 0 0 with dir := [], codes := [] } :=
    ⟨rfl, rfl, fun _ _ => rfl, fun _ => ⟨List.Pairwise.nil, fun _ => rfl, by simp⟩⟩
  exact codesHeld_of_image hlaid hs

theorem pagesHeld_of_image (i : Image) : (stockOf i).pagesHeld := by
  refine ⟨rfl, by simp [stockOf, State.stock, State.reset], ?_⟩
  simp [stockOf, State.stock, State.reset]

end Sys2Proof.Machine
end

