-- ==== Sys2Proof/Proofs/StockRenewed.lean ====
section
/-!
PROOFS. Proofs/StockRenewed.lean: how a command leaves the stock, and the acts that give the part another one: a power-up, a
power loss, a load, a Controller Reset and a Format (R177 to R182).
-/

namespace Sys2Proof.Machine
open Sys2Proof

/-! ### How a command leaves the stock -/

/-- How the stock of `t` comes of a command given in `s`: by the acts of `Moves`, after the definition of a code (R75), from an
image that a load takes (R178), as the clearing of a Format leaves it (R182), or as nothing is left of it (R179, R182). -/
inductive Reached (s t : State) : Prop
  | moved (h : Moves s.slotMapLaw s t.stock)
  | defined (c : Nat) (v : Option CodeValue) (hc : mayDefine (s.code c) = true)
      (h : Moves s.slotMapLaw (s.setCode c { state := .defined, value := v, count := 0 }) t.stock)
  | loaded (i : Image) (hi : i.wf = true) (hl : s.cat.load.isSome = true) (u : State) (hu : u.stock = stockOf i)
      (h : Moves s.slotMapLaw u t.stock)
  | discarded (h : t.stock = stockOf s.keptImage) (ha : t.cat.archive = .formatting)
  | blank (h : t.stock = State.reset.stock)

theorem Reached.congr {s t u : State} (h : Reached s t) (hs : u.stock = t.stock) (ha : u.cat.archive = t.cat.archive) :
    Reached s u := by
  cases h with
  | moved h => exact .moved (h.of_stock hs)
  | defined c v hc h => exact .defined c v hc (h.of_stock hs)
  | loaded i hi hl w hw h => exact .loaded i hi hl w hw (h.of_stock hs)
  | discarded h hf => exact .discarded (hs.trans h) (ha.trans hf)
  | blank h => exact .blank (hs.trans h)

/-- What is reached depends on the stock that the command starts from, and on what it may rest on. -/
theorem Moves.base {L L' : Prop} {s u : State} (hu : u.stock = s.stock) (hL : L' → L) {S : Stock} (h : Moves L s S) :
    Moves L' u S := by
  induction h with
  | start => exact hu ▸ .start
  | aborted _ k ih => exact .aborted ih k
  | opened _ hk n q d r hl ih => exact .opened ih hk n q d r hl
  | slot _ k hf hp ih => exact .slot ih k hf hp
  | joined _ k hq ih => exact .joined ih k hq
  | left _ ih => exact .left ih
  | entry _ hv ih =>
    obtain ⟨hused, hfree, hstays⟩ := hv
    exact .entry ih ⟨hused, hfree, fun hl => hstays (hL hl)⟩
  | builder _ hv ih => exact .builder ih hv
  | built _ b he n d ih => exact .built ih b he n d
  | appended _ hb q r ih => exact .appended ih hb q r
  | freed _ he ih => exact .freed ih (fun hl => he (hL hl))
  | retired _ c ih => exact .retired ih c

theorem slotMapLaw_of_beside {s u : State} (h : u.beside = s.beside) (hs : s.slotMapLaw) : u.slotMapLaw :=
  of_beside (P := State.slotMapLaw) (fun _ => rfl) h hs

theorem stock_of_beside {s u : State} (h : u.beside = s.beside) : u.stock = s.stock :=
  of_beside (P := fun t => t.stock = s.stock) (fun _ => rfl) h rfl

/-- It depends on nothing of the links. -/
theorem Reached.of_beside {s t u : State} (hu : u.beside = s.beside) (h : Reached s t) : Reached u t := by
  have hlaw : u.slotMapLaw → s.slotMapLaw := slotMapLaw_of_beside hu.symm
  cases h with
  | moved h => exact .moved (h.base (stock_of_beside hu) hlaw)
  | defined c v hc h =>
    have hcode : u.code c = s.code c := by
      obtain ⟨-, -, -, -, hcodes, -⟩ := stock_iff.mp (stock_of_beside hu)
      rw [State.code, hcodes]
      rfl
    refine .defined c v (hcode ▸ hc) (h.base (stock_of_beside ?_) hlaw)
    exact congrArg (fun w : State => w.setCode c { state := .defined, value := v, count := 0 }) hu
  | loaded i hi hl w hw h =>
    have hload : u.cat.load = s.cat.load :=
      Sys2Proof.Machine.of_beside (P := fun w => w.cat.load = s.cat.load) (fun _ => rfl) hu rfl
    exact .loaded i hi (hload ▸ hl) w hw (h.base rfl hlaw)
  | discarded h ha =>
    have hkept : u.keptImage = s.keptImage :=
      Sys2Proof.Machine.of_beside (P := fun w => w.keptImage = s.keptImage) (fun _ => rfl) hu rfl
    exact .discarded (hkept ▸ h) ha
  | blank h => exact .blank h

/-! ### Acts that keep the stock or leave nothing of it -/

/-- The stock stays, or nothing is left of it. -/
def keepsOrClears (s t : State) : Prop := t.stock = s.stock ∨ t.stock = State.reset.stock

theorem keepsOrClears.trans {s t u : State} (h : keepsOrClears s t) (h' : keepsOrClears t u) : keepsOrClears s u :=
  h'.elim (fun hu => h.imp hu.trans hu.trans) Or.inr

theorem keepsOrClears.of_stock {s t u : State} (h : keepsOrClears s t) (hu : u.stock = t.stock) : keepsOrClears s u :=
  h.imp hu.trans hu.trans

theorem Reached.of_clears {s t u : State} (h : Moves s.slotMapLaw s t.stock) (h' : keepsOrClears t u) : Reached s u :=
  h'.elim (fun hu => .moved (h.of_stock hu)) .blank

theorem blankArchive_stock (a : ArchiveState) (s : State) : (blankArchive a s).stock = State.reset.stock := rfl

theorem searchLoad_stock (s : State) : (searchLoad s).stock = s.stock := by simp [searchLoad]

theorem withdrawConsent_clears (s : State) : keepsOrClears s (withdrawConsent s) := by
  unfold withdrawConsent
  repeat' split
  · exact Or.inl rfl
  · exact Or.inr (by rw [searchLoad_stock, blankArchive_stock])
  · exact Or.inl rfl

theorem beginFirstImage_stock (f : FormatOp) (s : State) : (beginFirstImage f s).stock = State.reset.stock := by
  simp only [beginFirstImage, writeImage_stock]
  rfl

theorem advanceStage_clears (fuel : Nat) (s : State) : keepsOrClears s (advanceStage fuel s) := by
  induction fuel generalizing s with
  | zero => exact Or.inl rfl
  | succ fuel ih =>
    simp only [advanceStage]
    repeat' split
    · exact Or.inl rfl
    · exact Or.inr (beginFirstImage_stock _ _)
    · exact ih (s.setFormat _)
    · exact Or.inl (foldl_keeps State.stock _ (fun t c => askFormatErase_stock t c _) _ _)

theorem endClearing_clears (s : State) : keepsOrClears s (endClearing s) := by
  unfold endClearing
  split
  · exact keepsOrClears.trans (Or.inl (mapChannels_stock s Channel.opened)) (advanceStage_clears 4 _)
  · exact Or.inl rfl

theorem afterQuiet_clears (s : State) : keepsOrClears s (afterQuiet s) :=
  keepsOrClears.trans (Or.inl (beginReads_stock s)) (endClearing_clears _)

theorem nextStageWhenQuiet_clears (s : State) : keepsOrClears s (nextStageWhenQuiet s) := by
  unfold nextStageWhenQuiet
  split
  · exact advanceStage_clears 4 s
  · exact Or.inl rfl

theorem failFormat_stock (f : FormatOp) (r : SlotRef) (s : State) : (failFormat f r s).stock = State.reset.stock := by
  rw [failFormat, answer_stock, blankArchive_stock]

theorem formatErased_clears (f : FormatOp) (r : SlotRef) (ok : Bool) (s : State) :
    keepsOrClears s (formatErased f r ok s) := by
  generalize hv : (if ok then SlotState.clean else SlotState.defective) = v
  simp only [formatErased, hv]
  repeat' split
  · exact Or.inr (failFormat_stock f r s)
  · exact Or.inl (by simp)
  · exact Or.inl (by simp)

theorem complete_clears (c : Nat) (op : Op) (ok : Bool) {act : State → State} (ha : ∀ t, keepsOrClears t (act t))
    (s : State) : keepsOrClears s (complete c op ok act s) := by
  have hact := keepsOrClears.trans (Or.inl (leaveInSlot_stock s c op ok)) (ha _)
  exact hact.of_stock (by simp [complete])

theorem discardedEnds_clears (c : Nat) (op : Op) (ok : Bool) (s : State) : keepsOrClears s (discardedEnds c op ok s) :=
  (complete_clears c op ok (fun _ => Or.inl rfl) s).trans (afterQuiet_clears _)

theorem formatEraseEnds_clears (c : Nat) (op : Op) (ok : Bool) (s : State) :
    keepsOrClears s (formatEraseEnds c op ok s) := by
  refine (complete_clears c op ok (fun t => ?_) s).trans (nextStageWhenQuiet_clears _)
  split
  · exact Or.inl rfl
  · exact formatErased_clears _ _ ok t

theorem firstImageShare_stock (f : FormatOp) (s : State) : (firstImageShare f s).stock = s.stock := by
  simp only [firstImageShare]
  split
  · rfl
  · rw [answer_stock, raiseBoth_stock]
    rfl

theorem firstImageEnds_clears (c : Nat) (op : Op) (ok : Bool) (s : State) :
    keepsOrClears s (firstImageEnds c op ok s) := by
  refine complete_clears c op ok (fun t => ?_) s
  repeat' split
  · exact Or.inl rfl
  · exact Or.inl (firstImageShare_stock _ t)
  · exact Or.inr (failFormat_stock _ _ t)

theorem setCat_stock (cat : CatalogUnit) (s : State) : ({ s with cat := cat } : State).stock = s.stock := rfl

theorem linkReset_reached (p : Port) (s : State) : Reached s (linkReset p s) := by
  have hfreed : Moves s.slotMapLaw s (freeCursorsOf p (s.setLink p (s.link p).reset)).stock :=
    freeCursorsOf_moves (Moves.start.of_stock (setLink_stock s p _)) p
  cases p with
  | a =>
    refine .moved ?_
    rw [linkReset, linkResetActs, setCat_stock]
    exact abortAllSlots_moves hfreed
  | b =>
    rw [linkReset]
    exact .of_clears hfreed (withdrawConsent_clears _)

/-! ### The load (R177, R178) -/

theorem rebuildSweeps_stock (s : State) : (rebuildSweeps s).stock = s.stock :=
  foldl_keeps State.stock _ (fun t k => pushSweep_stock t k []) _ _

theorem loadReleases_stock (s : State) : (loadReleases s).stock = s.stock :=
  foldl_keeps State.stock _ (fun t (e : Nat × SourceEntry) => releaseTest_stock t e.1) _ _

theorem restore_stock (i : Image) (s : State) : (restore i s).stock = { stockOf i with codes := i.codes } := by
  simp [restore, State.stock, stockOf, State.reset]

theorem takeImage_stock (i : Image) (area : Nat) (s : State) :
    (takeImage i area s).stock = { stockOf i with codes := i.codes } := by
  simp only [takeImage]
  rw [setCat_stock, catalogSlots_stock, restore_stock]

theorem setCodes_stock (codes : Tbl SharedCode) (s : State) :
    ({ s with comp := { s.comp with codes := codes } } : State).stock = { s.stock with codes := codes } := rfl

theorem loadClosings_stock (s : State) : (loadClosings s).stock = s.stock := rfl

theorem loadTests_stock (i : Image) (s : State) : (loadTests i s).stock = { s.stock with codes := loadCodes i } := by
  simp only [loadTests, rebuildSweeps_stock, setCodes_stock, loadClosings_stock, loadReleases_stock]

/-- A load that takes an image leaves its stock to the Eraser's look for work (R178). -/
theorem loadImage_reached {s₀ : State} {i : Image} (hi : i.wf = true) (hl : s₀.cat.load.isSome = true) (area : Nat)
    (s : State) : Reached s₀ (loadImage i area s) := by
  have hu : (endLoadWith .service (loadTests i (takeImage i area s))).stock = stockOf i := by
    rw [endLoadWith_stock, loadTests_stock, takeImage_stock]
    rfl
  exact .loaded i hi hl _ hu (lookForWork_moves .start)

theorem judgeAreas_reached {s₀ s : State} (h : Moves s₀.slotMapLaw s₀ s.stock) (hl : s₀.cat.load.isSome = true) (c : Nat)
    (l : Load) : Reached s₀ (judgeAreas c l s) := by
  unfold judgeAreas
  split
  · exact .moved (h.of_stock (endLoadWith_stock s _))
  · rename_i i area hchosen
    exact loadImage_reached ((chooseImage_mem hchosen).elim validImage_wf validImage_wf) hl area s

theorem judgeCandidates_stock (l : Load) (s : State) : (judgeCandidates l s).stock = s.stock := by
  unfold judgeCandidates
  repeat' split
  · simp
  · simp
  · exact foldl_keeps State.stock _ (fun t k => askCatalogRead_stock t _ k) _ _
  · simp

theorem noteRead_reached {s₀ s : State} (h : Moves s₀.slotMapLaw s₀ s.stock) (hl : s.cat.load = s₀.cat.load) (n : Noted) :
    Reached s₀ (noteRead n s) := by
  simp only [noteRead]
  split
  · exact .moved h
  · rename_i l hload
    have hsome : s₀.cat.load.isSome = true := by rw [← hl, hload]; rfl
    repeat' split
    · refine judgeAreas_reached ?_ hsome _ _
      exact h
    · exact .moved h
    · refine .moved ?_
      rw [judgeCandidates_stock]
      exact h
    · exact .moved h

theorem leaveInSlot_cat (c : Nat) (op : Op) (ok : Bool) (s : State) : (leaveInSlot c op ok s).cat = s.cat := by
  unfold leaveInSlot
  split <;> rfl

theorem loadReadEnds_reached (c : Nat) (op : Op) (res : CatalogResult) (s : State) :
    Reached s (loadReadEnds c op res s) := by
  obtain ⟨t, ht⟩ : ∃ t, t = leaveInSlot c op true s := ⟨_, rfl⟩
  have hstock : Moves s.slotMapLaw s (useFree t).stock := Moves.start.of_stock (ht ▸ leaveInSlot_stock s c op true)
  have hload : (useFree t).cat.load = s.cat.load := by
    rw [useFree, ht, leaveInSlot_cat]
  have hnoted := noteRead_reached hstock hload
    { channel := c, slot := op.slot, data := readCatalogData c op.slot res t }
  rw [loadReadEnds, complete, ← ht]
  refine hnoted.congr (by simp) ?_
  simp

/-! ### Controller Reset and Format (R179 to R182) -/

theorem controllerReset_stock (r : ReqRef) (s : State) : (controllerReset r s).stock = State.reset.stock := by
  simp only [controllerReset, beginReads_stock, setLoad_stock]
  rfl

theorem discardTransient_stock (a : ArchiveState) (s : State) : (discardTransient a s).stock = stockOf s.keptImage := by
  have hrestored : ({ restore s.keptImage (blankArchive a s) with
      comp := { (restore s.keptImage (blankArchive a s)).comp with codes := loadCodes s.keptImage } } : State).stock =
      stockOf s.keptImage := by
    rw [setCodes_stock, restore_stock]
    rfl
  simp only [discardTransient]
  rw [setCat_stock]
  split
  · exact hrestored
  · rw [catalogSlots_stock]
    exact hrestored

theorem discardTransient_archive (a : ArchiveState) (s : State) : (discardTransient a s).cat.archive = a := by
  simp only [discardTransient]
  split <;> simp [restore, blankArchive]

theorem beginFormat_reached (r : ReqRef) (consent : Bool) (c : Nat) (s : State) :
    Reached s (beginFormat r consent c s) := by
  have hbeside : (resetRequests r s).beside = s.beside := rfl
  have hkept : (resetRequests r s).keptImage = s.keptImage := rfl
  simp only [beginFormat]
  rcases endClearing_clears ((discardTransient .formatting (resetRequests r s)).setFormat (some
    { phase := .clearing, starter := r, consent := consent, channel := c,
      oldChan := (resetRequests r s).cat.channel })) with hkeeps | hclears
  · refine .discarded (hkeeps.trans ?_) ?_
    · rw [setFormat_stock, discardTransient_stock, hkept]
    · simp [discardTransient_archive]
  · exact .blank hclears

end Sys2Proof.Machine
end

