-- ==== Sys2Proof/Proofs/StockStep.lean ====
section
/-!
PROOFS. Proofs/StockStep.lean: how every command leaves the stock (R57, R58, R74).
-/

namespace Sys2Proof.Machine
open Sys2Proof

/-- The command leaves the stock as `Reached` says. -/
def StockCommand (x : State → Result State) : Prop := ∀ s t : State, x s = .next t → Reached s t

theorem Reached.of_stock {s t : State} (h : t.stock = s.stock) : Reached s t := .moved (Moves.start.of_stock h)

theorem Reached.same (s : State) : Reached s s := .of_stock rfl

theorem Reached.of_keepsOrClears {s t : State} (h : keepsOrClears s t) : Reached s t := .of_clears .start h

/-! ### Commands as turns and as requests -/

theorem stockCommand_turn {f : State → State} (hf : ∀ s, Reached s (f s)) : StockCommand (turn f) := by
  intro s t ht
  rw [turn_next] at ht
  injection ht with ht
  rw [← ht]
  have hclear : s.beside = (clearFrames s).beside := rfl
  have hacted : Reached s (f (clearFrames s)) := (hf (clearFrames s)).of_beside hclear
  exact hacted.congr (transmitBoth_stock _) (by simp)

theorem takeRequest_reached {p : Port} {tag kind : Nat} {g : Rights} {act : ReqRef → State → State}
    (ha : ∀ r s, Reached s (act r s)) (s : State) : Reached s (takeRequest p tag kind g act s) := by
  have hentered : s.beside = (enter p tag kind s).beside := by simp [enter]
  unfold takeRequest
  repeat' split
  · exact .same s
  · exact .of_stock (by simp [State.stock])
  · exact .of_stock (by simp [State.stock])
  · exact .of_stock (by simp [State.stock])
  · exact (ha _ _).of_beside hentered

theorem stockCommand_request {p : Port} {tag kind : Nat} {g : Rights} {act : ReqRef → State → State}
    (ha : ∀ r s, Reached s (act r s)) : StockCommand (request p tag kind g act) :=
  stockCommand_turn (takeRequest_reached ha)

/-- A request answered by a table of checks acts where every check passes. -/
theorem stockCommand_checked {p : Port} {tag kind : Nat} {g : Rights} {cs : State → List (Bool × Status)}
    {act : ReqRef → State → State} (ha : ∀ r s, firstRefusal (cs s) = none → Reached s (act r s)) :
    StockCommand (request p tag kind g (fun r s => checked r (cs s) (act r) s)) :=
  stockCommand_request (fun r s => by
    unfold checked
    split
    · exact .of_stock (refuse_stock s r _)
    · rename_i hpassed
      exact ha r s hpassed)

/-- An event of a channel concerns the operation in progress there. -/
theorem onOp_reached {c : Nat} {p : Op → Bool} {act : Op → State → State} {s : State}
    (ha : ∀ op, op ∈ s.asked c → p op = true → Reached s (act op s)) : Reached s (onOp c p act s) := by
  unfold onOp
  split
  · exact .same s
  · rename_i op hop
    split
    · rename_i hp
      refine ha op (List.mem_append_left _ ?_) hp
      unfold Channel.current at hop
      split at hop
      · exact List.mem_of_mem_head? hop
      · cases hop
    · exact .same s

/-! ### What the laws say of an operation's entry (R67, R118) -/

section
variable {s : State} (h : s.slotMapLaw)
include h

/-- The builder that an operation writes has its entry for itself, and is not FILLING. -/
theorem unfilled_of_write {c b : Nat} {op : Op} (hop : op ∈ s.asked c) (hb : op.requester = .builder b) :
    s.unfilled (s.builder b).entry := by
  obtain ⟨-, -, ⟨hbuilders, -⟩, hops, -⟩ := h
  have hlinked := (hops c).1 op hop
  simp only [State.opLinked, hb] at hlinked
  obtain ⟨hclosing, -⟩ := hlinked
  intro d hd he
  have hdb := (hbuilders b (by simp [hclosing])).2 d (by simp [hd]) he
  rw [hdb, hclosing] at hd
  cases hd

/-- The Eraser erases an entry that no builder has. -/
theorem unfilled_of_erase {c e : Nat} {op : Op} (hop : op ∈ s.asked c) (hr : op.requester = .eraser)
    (he : op.entry = some e) : s.unfilled e := by
  obtain ⟨-, -, ⟨hbuilders, -⟩, hops, -⟩ := h
  have hlinked := (hops c).1 op hop
  simp only [State.opLinked, hr, he] at hlinked
  obtain ⟨-, herasing, -⟩ := hlinked
  intro d hd hde
  rcases (hbuilders d (by simp [hd])).1 with hx | ⟨-, hx⟩ <;> rw [hde, herasing] at hx <;> cases hx

/-- A builder held by a page error has its entry for itself, and is not FILLING. -/
theorem unfilled_of_pageHeld {b : Nat} (hb : (s.builder b).pageHeld = true) : s.unfilled (s.builder b).entry := by
  obtain ⟨-, -, ⟨hbuilders, hheld, -⟩, -⟩ := h
  obtain ⟨hclosing, -⟩ := hheld b (Or.inl hb)
  intro d hd he
  have hdb := (hbuilders b (by simp [hclosing])).2 d (by simp [hd]) he
  rw [hdb, hclosing] at hd
  cases hd

end

/-! ### Supply and links (R177, R179, R192 to R197) -/

theorem execPowerUp_stock (present : List Bool) : StockCommand (execPowerUp present) :=
  stockCommand_turn (fun s => by
    split
    · exact .same s
    · exact .blank (by rw [searchLoad_stock]; rfl))

theorem execPowerLoss_stock : StockCommand execPowerLoss :=
  stockCommand_turn (fun s => by
    split
    · exact .blank rfl
    · exact .same s)

theorem sendReady_stock (p : Port) (s : State) : (sendReady p s).stock = s.stock := by simp [sendReady]

theorem sendReady_archive (p : Port) (s : State) : (sendReady p s).cat.archive = s.cat.archive := by simp [sendReady]

theorem execLinkUp_stock (p : Port) : StockCommand (execLinkUp p) :=
  stockCommand_turn (fun s => by
    split
    · exact .of_stock (by simp [sendReady_stock])
    · exact .same s)

theorem execLaneLoss_stock (p : Port) : StockCommand (execLaneLoss p) :=
  stockCommand_turn (fun s => by
    split
    · exact (linkReset_reached p _).of_beside (by simp)
    · exact .same s)

theorem execLinkResetFrame_stock (p : Port) : StockCommand (execLinkResetFrame p) :=
  stockCommand_turn (fun s => by
    split
    · exact (linkReset_reached p s).congr (sendReady_stock p _) (sendReady_archive p _)
    · exact .same s)

theorem execBadFrame_stock (p : Port) (f : FrameFault) : StockCommand (execBadFrame p f) :=
  stockCommand_turn (fun s => by split <;> exact .of_stock (by simp))

theorem execRequestUnknownKind_stock (p : Port) (tag kind : Nat) : StockCommand (execRequestUnknownKind p tag kind) :=
  stockCommand_turn (fun s => by
    repeat' split
    all_goals exact .of_stock (by simp [State.stock]))

theorem execReplySent_stock (p : Port) : StockCommand (execReplySent p) :=
  stockCommand_turn (fun s => by
    dsimp only
    split <;> exact .of_stock (by simp))

theorem execNoticeSent_stock (p : Port) : StockCommand (execNoticeSent p) :=
  stockCommand_turn (fun s => by
    dsimp only
    split <;> exact .of_stock (by simp))

/-! ### Operations that end (R68, R69, R97, R118, R147, R149, R159, R172, R173) -/

theorem execCatalogReadComplete_stock (c : Nat) (res : CatalogResult) : StockCommand (execCatalogReadComplete c res) :=
  stockCommand_turn (fun s => onOp_reached (fun op _ _ => loadReadEnds_reached c op res s))

theorem opBuilder_of_write {op : Op} (h : isBuilderWrite op = true) : op.requester = .builder (opBuilder op) := by
  unfold isBuilderWrite at h
  split at h
  · rename_i b _ hb
    simp [opBuilder, hb]
  · cases h

theorem execSegmentWriteOk_stock (c : Nat) : StockCommand (execSegmentWriteOk c) :=
  stockCommand_turn (fun s => onOp_reached (fun op hop hp => .moved (by
    have hleft := leaveInSlot_stock s c op true
    rw [complete, startNext_stock, endOp_stock]
    refine storeSegment_moves (Moves.start.of_stock hleft) (fun hlaw => ?_)
    rw [builder_of_stock hleft]
    exact unfilled_of_stock hleft (unfilled_of_write hlaw hop (opBuilder_of_write hp)))))

theorem execSegmentWriteFail_stock (c : Nat) : StockCommand (execSegmentWriteFail c) :=
  stockCommand_turn (fun _ => onOp_reached (fun op _ _ =>
    .moved (complete_moves .start c op false (fun _ ht => failSegment_moves ht false _ _))))

theorem execBuilderPageError_stock (c : Nat) : StockCommand (execBuilderPageError c) :=
  stockCommand_turn (fun _ => onOp_reached (fun op _ _ => .moved (by
    rw [startNext_stock, endOp_stock]
    exact builderPageFault_moves .start _ _)))

theorem execOperationEndDiscarded_stock (c : Nat) (ok : Bool) : StockCommand (execOperationEndDiscarded c ok) :=
  stockCommand_turn (fun s => onOp_reached (fun op _ _ => .of_keepsOrClears (discardedEnds_clears c op ok s)))

theorem eraserEnds_reached {s : State} {c : Nat} {op : Op} (hop : op ∈ s.asked c) (hr : op.requester = .eraser)
    (ok : Bool) : Reached s (eraserEnds c op ok s) :=
  .moved (eraserEnds_moves .start c op ok (fun hlaw _ he => unfilled_of_erase hlaw hop hr he))

theorem eraser_of_erasing {op : Op} (h : isErasing op = true) : op.requester = .eraser :=
  of_decide_eq_true (Bool.and_eq_true_iff.mp h).2

theorem execEntryEraseComplete_stock (c : Nat) (ok : Bool) : StockCommand (execEntryEraseComplete c ok) :=
  stockCommand_turn (fun _ => onOp_reached (fun _ hop hp =>
    eraserEnds_reached hop (eraser_of_erasing (Bool.and_eq_true_iff.mp hp).1) ok))

theorem execDirtySlotEraseComplete_stock (c : Nat) (ok : Bool) : StockCommand (execDirtySlotEraseComplete c ok) :=
  stockCommand_turn (fun _ => onOp_reached (fun _ hop hp =>
    eraserEnds_reached hop (eraser_of_erasing (Bool.and_eq_true_iff.mp hp).1) ok))

theorem execVerifyReadComplete_stock (c : Nat) (res : ReadResult) : StockCommand (execVerifyReadComplete c res) :=
  stockCommand_turn (fun s => by
    split
    · exact onOp_reached (fun op _ _ => .moved (auditRead_moves .start c op res))
    · exact .same s)

theorem execReconcileReadComplete_stock (c : Nat) (res : ReadResult) : StockCommand (execReconcileReadComplete c res) :=
  stockCommand_turn (fun s => by
    split
    · exact onOp_reached (fun op _ _ => .moved (auditRead_moves .start c op res))
    · exact .same s)

theorem execCursorReadComplete_stock (c : Nat) (res : ReadResult) (bad : List (Nat × Nat)) :
    StockCommand (execCursorReadComplete c res bad) :=
  stockCommand_turn (fun _ => onOp_reached (fun op _ _ => .moved (cursorReadEnds_moves .start c op res bad)))

theorem execCatalogWriteOk_stock (n : Nat) : StockCommand (execCatalogWriteOk n) :=
  stockCommand_turn (fun s => by
    dsimp only
    split
    · refine onOp_reached (fun op _ _ => .moved (complete_moves .start _ op true (fun t ht => ?_)))
      split
      · exact shareWritten_moves ht n
      · exact ht
    · exact .same s)

theorem execCatalogWriteFail_stock : StockCommand execCatalogWriteFail :=
  stockCommand_turn (fun s => by
    dsimp only
    split
    · exact onOp_reached (fun op _ _ => .moved (shareFails_moves .start _ op))
    · exact .same s)

theorem execFormatEraseComplete_stock (c : Nat) (ok : Bool) : StockCommand (execFormatEraseComplete c ok) :=
  stockCommand_turn (fun s => onOp_reached (fun op _ _ => .of_keepsOrClears (formatEraseEnds_clears c op ok s)))

theorem execFormatImageWriteComplete_stock (ok : Bool) : StockCommand (execFormatImageWriteComplete ok) :=
  stockCommand_turn (fun s => by
    split
    · exact .same s
    · exact onOp_reached (fun op _ _ => .of_keepsOrClears (firstImageEnds_clears _ op ok s)))

/-- An operation handed to its requester as failed, by kind (R97). -/
theorem timeOut_reached (c : Nat) (op : Op) (s : State) : Reached s (timeOut c op s) := by
  unfold timeOut
  split
  · exact .of_keepsOrClears (discardedEnds_clears c op false s)
  · exact .moved (complete_moves .start c op false (fun _ ht => failSegment_moves ht true _ _))
  · exact .moved (complete_moves .start c op false (fun _ ht => timeoutErase_moves ht c _))
  · exact .of_keepsOrClears (formatEraseEnds_clears c op false s)
  · exact .moved (auditRead_moves .start c op .fail)
  · exact .moved (cursorReadEnds_moves .start c op .fail [])
  · exact loadReadEnds_reached c op .fail s
  · unfold catalogWriteTimesOut
    split
    · exact .of_keepsOrClears (firstImageEnds_clears c op false s)
    · exact .moved (shareFails_moves .start c op)

theorem execChannelTimeout_stock (c : Nat) : StockCommand (execChannelTimeout c) :=
  stockCommand_turn (fun s => by
    split
    · exact onOp_reached (fun op _ _ => timeOut_reached c op s)
    · exact .same s)

/-! ### Events (R46, R50, R59, R111 to R135, R151, R164, R181) -/

theorem execFileAcceptance_stock : StockCommand execFileAcceptance :=
  stockCommand_turn (fun _ => .moved (acceptNext_moves .start))

theorem execIntakeIdleLimit_stock (k : Nat) : StockCommand (execIntakeIdleLimit k) :=
  stockCommand_turn (fun s => by
    dsimp only
    split
    · exact .moved (by simpa using abortSlot_moves .start k)
    · exact .same s)

theorem execAppendRecord_stock (ok : Bool) : StockCommand (execAppendRecord ok) :=
  stockCommand_turn (fun _ => .moved (appendStep_moves .start ok))

theorem execDaySweepEntry_stock : StockCommand execDaySweepEntry :=
  stockCommand_turn (fun s => by
    repeat' split
    · exact .same s
    · have hjudged := fun w => judgeExpiry_moves (.start : Moves s.slotMapLaw s s.stock) w
      exact .moved (stepSweep_moves (hjudged _) _ (endDay_moves (hjudged _) _))
    · exact .same s)

theorem execExtendSweepEntry_stock : StockCommand execExtendSweepEntry :=
  stockCommand_turn (fun s => by
    repeat' split
    · exact .same s
    · have hjudged := fun c w => extendEntry_moves (.start : Moves s.slotMapLaw s s.stock) c w
      exact .moved (testOpening_moves (stepSweep_moves (hjudged _ _) _ (endExtend_moves (hjudged _ _) _ _)))
    · exact .same s)

theorem execApplySweepEntry_stock : StockCommand execApplySweepEntry :=
  stockCommand_turn (fun s => by
    repeat' split
    · exact .same s
    · have happlied := fun k n => applyEntry_moves (.start : Moves s.slotMapLaw s s.stock) k n
      exact .moved (testOpening_moves (stepSweep_moves (happlied _ _) _ (runOutApply_moves (happlied _ _) _ _)))
    · exact .same s)

theorem execReleaseSweepEntry_stock : StockCommand execReleaseSweepEntry :=
  stockCommand_turn (fun s => by
    repeat' split
    · exact .same s
    · have hcleared := fun k w => releaseEntry_moves (.start : Moves s.slotMapLaw s s.stock) k w
      exact .moved (stepSweep_moves (hcleared _ _) _ (endRelease_moves (hcleared _ _) _ _))
    · exact .same s)

theorem execHoldLoss_stock : StockCommand execHoldLoss := stockCommand_turn (fun _ => .moved (resumeSweep_moves .start))

theorem execAuditFindingResumed_stock : StockCommand execAuditFindingResumed :=
  stockCommand_turn (fun _ => .moved (resumeJob_moves .start))

theorem execCursorIdleClose_stock (c : Nat) : StockCommand (execCursorIdleClose c) :=
  stockCommand_turn (fun s => by
    dsimp only
    split
    · exact .moved (by simpa using freeCursor_moves .start c)
    · exact .same s)

theorem execFormatConsentExpiry_stock : StockCommand execFormatConsentExpiry :=
  stockCommand_turn (fun s => by
    repeat' split
    all_goals exact .of_stock rfl)

/-! ### Requests on files (R37 to R49) -/

theorem execOpenFile_stock (p : Port) (tag n q d r l : Nat) : StockCommand (execOpenFile p tag n q d r l) :=
  stockCommand_checked (fun req s hpassed => .moved (by
    obtain ⟨k, hk⟩ := idleSlot_of_openChecks hpassed
    have hpages : pagesFor l ≤ s.intake.freePages := of_decide_eq_true
      ((firstRefusal_none_iff _).mp hpassed (decide (pagesFor l ≤ s.intake.freePages), .stagingFull)
        (by simp [State.openChecks]))
    rw [answer_stock, hk]
    exact .opened .start hk n q d r hpages))

theorem execChunk_stock (p : Port) (tag k offset : Nat) (data : List Byte) :
    StockCommand (execChunk p tag k offset data) :=
  stockCommand_checked (fun r s hpassed => .moved (by
    have hphase : (s.intakeSlot k).phase = .receiving := of_decide_eq_true
      ((firstRefusal_none_iff _).mp hpassed (decide ((s.intakeSlot k).phase = .receiving), .wrongState) (by simp))
    exact takeChunk_moves .start r hphase offset data))

theorem execCloseFile_stock (p : Port) (tag k : Nat) (crc : Crc) : StockCommand (execCloseFile p tag k crc) :=
  stockCommand_checked (fun r _ _ => .moved (beginFileClose_moves .start r k crc))

theorem execAbortFile_stock (p : Port) (tag k : Nat) : StockCommand (execAbortFile p tag k) :=
  stockCommand_checked (fun r s _ => .moved (by simpa using abortSlot_moves .start k))

/-! ### Requests that trigger a checkpoint (R10, R75, R76, R93, R102, R106, R127 to R134, R142, R174, R175) -/

/-- A request that leaves the stock, and triggers a checkpoint for its change. -/
theorem triggerFor_reached {s t : State} (h : t.stock = s.stock) (r : ReqRef) (a b : List Byte) :
    Reached s (triggerFor r a b t) := .moved (triggerFor_moves (Moves.start.of_stock h) r a b)

theorem trigger_reached {s t : State} (h : t.stock = s.stock) (ws : List Waiter) : Reached s (trigger ws t) :=
  .moved (trigger_moves (Moves.start.of_stock h) ws)

theorem execSetProfile_stock (p : Port) (tag v : Nat) : StockCommand (execSetProfile p tag v) :=
  stockCommand_checked (fun r s _ => triggerFor_reached (setCat_stock _ s) r [] [])

theorem execEnrolSource_stock (p : Port) (tag n cls base : Nat) : StockCommand (execEnrolSource p tag n cls base) :=
  stockCommand_checked (fun r s _ => triggerFor_reached (setSource_stock s n _) r [] [])

theorem execRetireSource_stock (p : Port) (tag n : Nat) : StockCommand (execRetireSource p tag n) :=
  stockCommand_checked (fun r s _ => triggerFor_reached (retire_stock n s) r [] [])

theorem execSetSourceClass_stock (p : Port) (tag n cls : Nat) : StockCommand (execSetSourceClass p tag n cls) :=
  stockCommand_checked (fun r s _ => triggerFor_reached (setSource_stock s n _) r [] [])

theorem execResequenceSource_stock (p : Port) (tag n base : Nat) : StockCommand (execResequenceSource p tag n base) :=
  stockCommand_checked (fun r s _ => triggerFor_reached (resequence_stock n base s) r [] [])

theorem execDefineCode_stock (p : Port) (tag c : Nat) (v : CodeOperand) : StockCommand (execDefineCode p tag c v) :=
  stockCommand_checked (fun r s hpassed => by
    have hmay : mayDefine (s.code c) = true :=
      (firstRefusal_none_iff _).mp hpassed (mayDefine (s.code c), .inUse) (by simp)
    exact .defined c _ hmay (triggerFor_moves .start r [] []))

theorem execRetireCode_stock (p : Port) (tag c : Nat) : StockCommand (execRetireCode p tag c) :=
  stockCommand_checked (fun r _ _ => .moved (triggerFor_moves (.retired .start c) r [] []))

theorem execSetParameter_stock (p : Port) (tag k v : Nat) : StockCommand (execSetParameter p tag k v) :=
  stockCommand_checked (fun r s _ => triggerFor_reached (setCat_stock _ s) r [] [])

theorem execCheckpoint_stock (p : Port) (tag : Nat) : StockCommand (execCheckpoint p tag) :=
  stockCommand_checked (fun _ _ _ => trigger_reached rfl _)

theorem execSetChannel_stock (p : Port) (tag c mode : Nat) : StockCommand (execSetChannel p tag c mode) :=
  stockCommand_checked (fun r s _ => .moved (by
    refine triggerFor_moves ?_ r [] []
    split
    · exact .start
    · exact afterSlots_moves (Moves.start.of_stock (setChannel_stock s c _))))

theorem execAdvanceDay_stock (p : Port) (tag : Nat) : StockCommand (execAdvanceDay p tag) :=
  stockCommand_checked (fun r _ _ => .moved (advance_moves .start r))

theorem execSetClass_stock (p : Port) (tag c days : Nat) : StockCommand (execSetClass p tag c days) :=
  stockCommand_checked (fun r _ _ => .moved (changeClass_moves .start r c days))

theorem execCreateHold_stock (p : Port) (tag : Nat) (scope : HoldScope) (note : Nat) :
    StockCommand (execCreateHold p tag scope note) :=
  stockCommand_checked (fun r s _ => triggerFor_reached (changeHold_stock _ _ s) r _ _)

theorem execEditHold_stock (p : Port) (tag k : Nat) (scope : HoldScope) (note : Nat) :
    StockCommand (execEditHold p tag k scope note) :=
  stockCommand_checked (fun r s _ => triggerFor_reached (changeHold_stock k _ s) r [] [])

theorem execDiscardHold_stock (p : Port) (tag k : Nat) : StockCommand (execDiscardHold p tag k) :=
  stockCommand_checked (fun r s _ => triggerFor_reached (changeHold_stock k _ s) r [] [])

theorem execActivateHold_stock (p : Port) (tag k : Nat) : StockCommand (execActivateHold p tag k) :=
  stockCommand_checked (fun r s _ => trigger_reached (by rw [pushSweep_stock, changeHold_stock]) [])

theorem execReleaseHold_stock (p : Port) (tag k : Nat) : StockCommand (execReleaseHold p tag k) :=
  stockCommand_checked (fun r s _ => trigger_reached (by rw [pushSweep_stock, changeHold_stock]) [])

theorem execAckFindings_stock (p : Port) (tag n : Nat) (o : AckOrder) : StockCommand (execAckFindings p tag n o) :=
  stockCommand_checked (fun r s _ => .moved (by
    refine triggerFor_moves ?_ r _ []
    rw [intakePasses_stock]
    refine freedFirst_moves ?_ o
    exact .start))

/-! ### Jobs, faults, Controller Reset and Format (R145, R152, R179 to R182, R186 to R190) -/

theorem execVerify_stock (p : Port) (tag first last : Nat) : StockCommand (execVerify p tag first last) :=
  stockCommand_checked (fun _ s _ => .moved (verifyOn_moves (Moves.start.of_stock (setJob_stock s _))))

theorem execReconcile_stock (p : Port) (tag : Nat) : StockCommand (execReconcile p tag) :=
  stockCommand_checked (fun _ s _ => .moved (reconcileOn_moves (Moves.start.of_stock (setJob_stock s _))))

theorem execCancelAudit_stock (p : Port) (tag : Nat) : StockCommand (execCancelAudit p tag) :=
  stockCommand_checked (fun r s _ => .moved (by
    unfold cancelJob
    split
    · exact .start
    · simp only [discardAuditRead, answer_stock, endJob_stock, mapChannels_stock, releaseInHand]
      split
      · exact .start
      · exact lowerReader_moves .start _))

theorem execFetchFault_stock (p : Port) (tag c : Nat) : StockCommand (execFetchFault p tag c) :=
  stockCommand_checked (fun r s _ => .of_stock (by
    rw [answer_stock]
    unfold acknowledgeFault
    split <;> rfl))

theorem execResume_stock (p : Port) (tag e : Nat) : StockCommand (execResume p tag e) :=
  stockCommand_checked (fun r _ _ => .moved (resumeNamed_moves .start r e))

theorem execAbandon_stock (p : Port) (tag e : Nat) : StockCommand (execAbandon p tag e) :=
  stockCommand_checked (fun r _ _ => .moved (abandon_moves .start r (fun hlaw _ hb => unfilled_of_pageHeld hlaw hb)))

theorem execResetController_stock (p : Port) (tag : Nat) : StockCommand (execResetController p tag) :=
  stockCommand_checked (fun r s _ => .blank (controllerReset_stock r s))

theorem execFormat_stock (p : Port) (tag c : Nat) : StockCommand (execFormat p tag c) :=
  stockCommand_checked (fun r s _ => by
    split
    · exact beginFormat_reached r false c s
    · exact .of_stock (by rw [pendFormat, answer_stock]; rfl))

theorem execConsentFormat_stock (p : Port) (tag n : Nat) : StockCommand (execConsentFormat p tag n) :=
  stockCommand_checked (fun r s _ => by
    split
    · exact .same s
    · exact beginFormat_reached r true _ s)

/-! ### Requests on cursors (R158 to R165) -/

theorem execOpenCursor_stock (p : Port) (tag n a b : Nat) (f : Option FilterOperand) (d : Nat) :
    StockCommand (execOpenCursor p tag n a b f d) :=
  stockCommand_checked (fun r s _ => .moved (by
    rw [answer_stock]
    exact startLoad_moves (Moves.start.of_stock (setCursor_stock s _ _)) _))

theorem touchCursor_stock (c : Nat) (s : State) : (touchCursor c s).stock = s.stock := rfl

theorem execReadRecords_stock (p : Port) (tag c n : Nat) : StockCommand (execReadRecords p tag c n) :=
  stockCommand_checked (fun _ s _ => .moved (gatherAll_moves (Moves.start.of_stock
    ((setCursor_stock _ c _).trans (touchCursor_stock c s))) c))

theorem execSeek_stock (p : Port) (tag c : Nat) (v : SeekOperand) : StockCommand (execSeek p tag c v) :=
  stockCommand_checked (fun r s _ => .moved (by
    rw [answer_stock]
    refine startLoad_moves ?_ c
    rw [setCursor_stock]
    exact endLoad_moves (Moves.start.of_stock (touchCursor_stock c s)) c))

theorem execSetDirection_stock (p : Port) (tag c d : Nat) : StockCommand (execSetDirection p tag c d) :=
  stockCommand_checked (fun r s _ => .moved (by
    have htouched : Moves s.slotMapLaw s (touchCursor c s).stock := Moves.start.of_stock (touchCursor_stock c s)
    simp only [answer_stock, turnCursor]
    split
    · exact htouched
    · refine startLoad_moves ?_ c
      rw [setCursor_stock]
      exact endLoad_moves htouched c))

theorem execCloseCursor_stock (p : Port) (tag c : Nat) : StockCommand (execCloseCursor p tag c) :=
  stockCommand_checked (fun r s _ => .moved (by
    rw [answer_stock]
    refine freeCursor_moves ?_ c
    unfold cancelReading
    split
    · exact .start
    · exact Moves.start.of_stock (answer_stock s _ _ _)))

theorem execReadCursor_stock (p : Port) (tag c : Nat) : StockCommand (execReadCursor p tag c) :=
  stockCommand_checked (fun r s _ => .of_stock (by
    rw [answer_stock]
    unfold touchOwned
    split
    · exact touchCursor_stock c s
    · rfl))

/-! ### Every command (R57, R58, R74) -/

theorem exec_stock (i : Instr) : StockCommand (exec i) := by
  cases i with
  | powerUp present => exact execPowerUp_stock present
  | powerLoss => exact execPowerLoss_stock
  | catalogReadComplete c res => exact execCatalogReadComplete_stock c res
  | linkUp p => exact execLinkUp_stock p
  | laneLoss p => exact execLaneLoss_stock p
  | linkResetFrame p => exact execLinkResetFrame_stock p
  | badFrame p f => exact execBadFrame_stock p f
  | requestUnknownKind p tag kind => exact execRequestUnknownKind_stock p tag kind
  | replySent p => exact execReplySent_stock p
  | noticeSent p => exact execNoticeSent_stock p
  | status p tag => exact stockCommand_request (fun r s => .of_stock (answer_stock s r _ _))
  | setProfile p tag v => exact execSetProfile_stock p tag v
  | enrolSource p tag n cls base => exact execEnrolSource_stock p tag n cls base
  | retireSource p tag n => exact execRetireSource_stock p tag n
  | setSourceClass p tag n cls => exact execSetSourceClass_stock p tag n cls
  | resequenceSource p tag n base => exact execResequenceSource_stock p tag n base
  | openFile p tag n q d r l => exact execOpenFile_stock p tag n q d r l
  | chunk p tag k offset data => exact execChunk_stock p tag k offset data
  | closeFile p tag k crc => exact execCloseFile_stock p tag k crc
  | fileAcceptance => exact execFileAcceptance_stock
  | abortFile p tag k => exact execAbortFile_stock p tag k
  | intakeIdleLimit k => exact execIntakeIdleLimit_stock k
  | appendRecord ok => exact execAppendRecord_stock ok
  | segmentWriteOk c => exact execSegmentWriteOk_stock c
  | segmentWriteFail c => exact execSegmentWriteFail_stock c
  | builderPageError c => exact execBuilderPageError_stock c
  | channelTimeout c => exact execChannelTimeout_stock c
  | operationEndDiscarded c ok => exact execOperationEndDiscarded_stock c ok
  | defineCode p tag c v => exact execDefineCode_stock p tag c v
  | retireCode p tag c => exact execRetireCode_stock p tag c
  | setChannel p tag c mode => exact execSetChannel_stock p tag c mode
  | advanceDay p tag => exact execAdvanceDay_stock p tag
  | setClass p tag c days => exact execSetClass_stock p tag c days
  | daySweepEntry => exact execDaySweepEntry_stock
  | extendSweepEntry => exact execExtendSweepEntry_stock
  | entryEraseComplete c ok => exact execEntryEraseComplete_stock c ok
  | dirtySlotEraseComplete c ok => exact execDirtySlotEraseComplete_stock c ok
  | createHold p tag scope note => exact execCreateHold_stock p tag scope note
  | editHold p tag k scope note => exact execEditHold_stock p tag k scope note
  | discardHold p tag k => exact execDiscardHold_stock p tag k
  | activateHold p tag k => exact execActivateHold_stock p tag k
  | applySweepEntry => exact execApplySweepEntry_stock
  | holdLoss => exact execHoldLoss_stock
  | releaseHold p tag k => exact execReleaseHold_stock p tag k
  | releaseSweepEntry => exact execReleaseSweepEntry_stock
  | ackFindings p tag n o => exact execAckFindings_stock p tag n o
  | verify p tag first last => exact execVerify_stock p tag first last
  | verifyReadComplete c res => exact execVerifyReadComplete_stock c res
  | reconcile p tag => exact execReconcile_stock p tag
  | reconcileReadComplete c res => exact execReconcileReadComplete_stock c res
  | auditFindingResumed => exact execAuditFindingResumed_stock
  | cancelAudit p tag => exact execCancelAudit_stock p tag
  | openCursor p tag n a b f d => exact execOpenCursor_stock p tag n a b f d
  | cursorReadComplete c res bad => exact execCursorReadComplete_stock c res bad
  | readRecords p tag c n => exact execReadRecords_stock p tag c n
  | seek p tag c v => exact execSeek_stock p tag c v
  | setDirection p tag c d => exact execSetDirection_stock p tag c d
  | closeCursor p tag c => exact execCloseCursor_stock p tag c
  | cursorIdleClose c => exact execCursorIdleClose_stock c
  | readCursor p tag c => exact execReadCursor_stock p tag c
  | checkpoint p tag => exact execCheckpoint_stock p tag
  | catalogWriteOk n => exact execCatalogWriteOk_stock n
  | catalogWriteFail => exact execCatalogWriteFail_stock
  | setParameter p tag k v => exact execSetParameter_stock p tag k v
  | resetController p tag => exact execResetController_stock p tag
  | format p tag c => exact execFormat_stock p tag c
  | consentFormat p tag n => exact execConsentFormat_stock p tag n
  | formatConsentExpiry => exact execFormatConsentExpiry_stock
  | formatEraseComplete c ok => exact execFormatEraseComplete_stock c ok
  | formatImageWriteComplete ok => exact execFormatImageWriteComplete_stock ok
  | fetchFault p tag c => exact execFetchFault_stock p tag c
  | resume p tag e => exact execResume_stock p tag e
  | abandon p tag e => exact execAbandon_stock p tag e
  | setNoticeMask | readSource | readSlots | readTally | readCompaction | readCodes | readSegment | listSegments | readChannel
  | readRetention | readHold | fetchFindings | readAudit | readCatalog =>
    exact stockCommand_checked (fun r s _ => .of_stock (by simp))

end Sys2Proof.Machine
end

