-- ==== Sys2Proof/Proofs/StockLaws.lean ====
section
/-!
PROOFS. Proofs/StockLaws.lean: every step keeps the Compaction Queue bounded, the intake pages 3,808 and the counts of the shared
codes (R57, R58, R74): O9.
-/

namespace Sys2Proof.Machine
open Sys2Proof

section
variable {s t : State}

/-! ### Compaction Queue and intake pages (R57, R58) -/

theorem Reached.queue_le (h : Reached s t) (hs : s.comp.queue.length ≤ Config.queueFiles) :
    t.comp.queue.length ≤ Config.queueFiles := by
  cases h with
  | moved h => exact h.queue_le hs
  | defined c v _ h =>
    have hsame : (s.setCode c { state := .defined, value := v }).comp.queue.length ≤ Config.queueFiles := hs
    exact h.queue_le hsame
  | loaded i _ _ u hu h =>
    have hempty : u.comp.queue = [] := congrArg Stock.queue hu
    exact h.queue_le (by simp [hempty])
  | discarded h _ =>
    have hempty : t.comp.queue = [] := congrArg Stock.queue h
    simp [hempty]
  | blank h =>
    have hempty : t.comp.queue = [] := congrArg Stock.queue h
    simp [hempty]

theorem Reached.pagesHeld (h : Reached s t) (hs : s.stock.pagesHeld) : t.stock.pagesHeld := by
  cases h with
  | moved h => exact h.pagesHeld hs
  | defined c v _ h =>
    have hsame : (s.setCode c { state := .defined, value := v }).stock.pagesHeld := hs
    exact h.pagesHeld hsame
  | loaded i _ _ u hu h => exact h.pagesHeld (hu ▸ pagesHeld_of_image i)
  | discarded h _ => exact h ▸ pagesHeld_of_image s.keptImage
  | blank h =>
    rw [h]
    exact pagesHeld_of_image { State.reset.contents 0 0 with dir := [], codes := [] }

/-! ### Shared codes (R74) -/

theorem slots_rising_of_tablesOk (h : s.tablesOk = true) : Tbl.rising s.intake.slots = true := by
  simp only [State.tablesOk, Bool.and_eq_true, Tbl.canon_iff] at h
  tauto

theorem codes_rising_of_tablesOk (h : s.tablesOk = true) : Tbl.rising s.comp.codes = true := by
  simp only [State.tablesOk, Bool.and_eq_true, Tbl.canon_iff] at h
  tauto

theorem dir_rising_of_tablesOk (h : s.tablesOk = true) : Tbl.rising s.media.dir = true := by
  simp only [State.tablesOk, Bool.and_eq_true, Tbl.canon_iff] at h
  tauto

/-- The law of the shared codes, the tables in their form and the links of the Slot Map's law give what the acts keep. -/
theorem codesHeld_of_laws (ht : s.tablesOk = true) (hm : s.slotMapLaw) (hc : s.codesLaw) : s.codesHeld := by
  obtain ⟨-, -, ⟨hlinked, -⟩, -⟩ := hm
  refine ⟨dir_rising_of_tablesOk ht, builders_rising_of_tablesOk ht, hc, fun b hb => ?_, fun b d hb hd he => ?_⟩
  · exact (hlinked b (by simp [hb])).1.imp_right And.right
  · exact (hlinked b (by simp [hb])).2 d (by simp [hd]) he

/-- A code that may be defined has count 0. -/
theorem count_of_mayDefine (hc : s.codesLaw) {c : Nat} (h : mayDefine (s.code c) = true) : (s.code c).count = 0 := by
  obtain ⟨-, hempty, -⟩ := hc
  simp only [mayDefine, Bool.or_eq_true, Bool.and_eq_true, decide_eq_true_eq] at h
  rcases h with hstate | ⟨-, hzero⟩
  · rw [hempty c hstate]
  · exact hzero

theorem defined_codesHeld (h : s.codesHeld) {c : Nat} (hc : (s.code c).count = 0) (v : Option CodeValue) :
    (s.setCode c { state := .defined, value := v, count := 0 }).codesHeld := by
  obtain ⟨hcount, hempty, hentries, hfilling⟩ := h.law
  refine ⟨h.dir, h.builders, ⟨fun k => ?_, fun k hk => ?_, hentries, hfilling⟩, h.building, h.apart⟩
  · rw [State.setCode_code]
    split
    · rename_i hkc
      subst hkc
      exact hc.symm.trans (hcount k)
    · exact hcount k
  · rw [State.setCode_code] at hk ⊢
    split at hk
    · cases hk
    · rename_i hkc
      rw [if_neg hkc]
      exact hempty k hk

/-- A code that is in use has its value kept by the acts. -/
theorem value_of_valuesKept (h : s.valuesKept t) {c : Nat} (hc : 0 < (t.code c).count) :
    (t.code c).value = (s.code c).value := by
  rcases h c with hnone | ⟨-, hvalue⟩
  · rw [hnone] at hc
    cases hc
  · exact hvalue

/-- The codes' law after a command, and the values of the codes in use through SERVICE. -/
theorem Reached.codesLaw (h : Reached s t) (ht : s.tablesOk = true) (hm : s.slotMapLaw) (hc : s.codesLaw) :
    t.codesLaw ∧ (s.cat.archive = .service → t.cat.archive = .service →
      ∀ c, 0 < (s.code c).count → 0 < (t.code c).count → (t.code c).value = (s.code c).value) := by
  have hheld := codesHeld_of_laws ht hm hc
  cases h with
  | moved h =>
    obtain ⟨hkept, hvalues⟩ := h.codesHeld hm hheld t rfl
    exact ⟨hkept.law, fun _ _ c _ hafter => value_of_valuesKept hvalues hafter⟩
  | defined c v hmay h =>
    have hzero := count_of_mayDefine hc hmay
    obtain ⟨hkept, hvalues⟩ := h.codesHeld hm (defined_codesHeld hheld hzero v) t rfl
    refine ⟨hkept.law, fun _ _ k hbefore hafter => ?_⟩
    have hkc : k ≠ c := fun hx => by
      rw [hx, hzero] at hbefore
      cases hbefore
    have hvalue := value_of_valuesKept hvalues hafter
    rwa [State.setCode_code, if_neg hkc] at hvalue
  | loaded i hi hl u hu h =>
    obtain ⟨hkept, -⟩ := h.codesHeld hm (codesHeld_of_image (codesLaid_of_wf hi) hu) t rfl
    obtain ⟨hload, -⟩ := hm
    exact ⟨hkept.law, fun hs => by
      rw [(hload hl).1] at hs
      cases hs⟩
  | discarded h ha =>
    have hlaid := keptImage_codesLaid hheld.dir (codes_rising_of_tablesOk ht) hc
    exact ⟨(codesHeld_of_image hlaid h).law, fun _ hx => by
      rw [ha] at hx
      cases hx⟩
  | blank h =>
    have hnone : ∀ c, t.code c = {} := fun c => by
      have hcodes : t.comp.codes = [] := congrArg Stock.codes h
      rw [State.code, hcodes]
      rfl
    exact ⟨(codesHeld_of_blank h).law, fun _ _ c _ hafter => by
      rw [hnone] at hafter
      cases hafter⟩

end

/-- Settles O9: every command leaves the stock as `Reached` says, and the acts that this is made of keep the three laws. -/
theorem compactionQueueStaysBounded : Obligations.CompactionQueueStaysBounded := by
  intro s t hstep
  have hreached : ∃ u : State, u.stock = s.stock ∧ (s.tablesOk = true → u.tablesOk = true) ∧
      (s.slotMapLaw → u.slotMapLaw) ∧ u.cat = s.cat ∧ Reached u t := by
    unfold step at hstep
    split at hstep
    · injection hstep with hstep
      have htick : t.stock = s.stock := by
        rw [← hstep]
        unfold tick
        split <;> rfl
      exact ⟨s, rfl, id, id, rfl, .of_stock htick⟩
    · rename_i i rest hpending
      exact ⟨{ s with pending := rest }, rfl, id, id, rfl, exec_stock i _ t hstep⟩
  obtain ⟨u, hstock, htables, hmap, hcat, h⟩ := hreached
  obtain ⟨-, -, hqueue, hbuilders, hcodes, hdir⟩ := stock_iff.mp hstock
  refine ⟨fun hq => ?_, fun ht hp => ?_, fun ht hm hc => ?_⟩
  · simp only [State.queueOk, decide_eq_true_eq] at hq ⊢
    exact h.queue_le (hqueue ▸ hq)
  · have hheld := pagesHeld_iff.mpr ⟨slots_rising_of_tablesOk ht, hp⟩
    exact (pagesHeld_iff.mp (h.pagesHeld (hstock ▸ hheld))).2
  · have hlaws := h.codesLaw (htables ht) (hmap hm) (State.codesLaw_congr hc hcodes hdir hbuilders)
    have hcode : ∀ c, u.code c = s.code c := fun c => by rw [State.code, hcodes]; rfl
    rw [hcat] at hlaws
    simpa only [hcode] using hlaws

end Sys2Proof.Machine
end

