-- ==== Sys2Proof/Proofs/FailedWrites.lean ====
section
/-!
PROOFS. Proofs/FailedWrites.lean: a builder's write that ends FAIL, or at whose start a builder page fails its check (R69, R78,
R91, R97, R184): O34.
-/

namespace Sys2Proof.Machine
open Sys2Proof

/-! ### A slot that is not CLEAN is not given (R91) -/

/-- A search does not find an index at which an entry that fails its test has been put. -/
theorem Tbl.nextFrom_put_ne {α : Type} {p : Nat → α → Bool} {empty : Bool} {bound k : Nat} {v : α} (hv : p k v = false)
    {t : Tbl α} {n : Nat} (hn : n ≤ k) : Tbl.nextFrom p empty bound n (Tbl.put t k v) ≠ some k := by
  have hbeyond : ∀ (t : Tbl α) (n : Nat), k < n → Tbl.nextFrom p empty bound n t ≠ some k := by
    intro t
    induction t with
    | nil =>
      intro n hkn
      simp only [Tbl.nextFrom]
      split <;> simp
      omega
    | cons e t ih =>
      obtain ⟨j, w⟩ := e
      intro n hkn
      simp only [Tbl.nextFrom]
      split
      · exact ih n hkn
      · repeat' split
        · simp
          omega
        · simp
          omega
        · exact ih (j + 1) (by omega)
  have hhead : ∀ (t : Tbl α) (n : Nat), n ≤ k → Tbl.nextFrom p empty bound n ((k, v) :: t) ≠ some k := by
    intro t n hnk
    simp only [Tbl.nextFrom, hv, Bool.false_and, Bool.false_eq_true, if_false]
    rw [if_neg (by omega)]
    split
    · rename_i hlt
      simp only [Bool.and_eq_true, decide_eq_true_eq] at hlt
      simp
      omega
    · exact hbeyond t (k + 1) (by omega)
  induction t generalizing n with
  | nil => exact hhead [] n hn
  | cons e t ih =>
    obtain ⟨j, w⟩ := e
    simp only [Tbl.put]
    split
    · exact hhead _ n hn
    · split
      · exact hhead _ n hn
      · rename_i hge hne
        simp only [Tbl.nextFrom]
        split
        · exact ih hn
        · repeat' split
          · rename_i hlt
            simp only [Bool.and_eq_true, decide_eq_true_eq] at hlt
            simp
            omega
          · simp
            omega
          · exact ih (by omega)

/-- A search that takes no unlisted index finds one that is listed. -/
theorem Tbl.nextFrom_listed {α : Type} {p : Nat → α → Bool} {bound n k : Nat} {t : Tbl α}
    (h : Tbl.nextFrom p false bound n t = some k) : ∃ v, (k, v) ∈ t := by
  induction t generalizing n with
  | nil => simp [Tbl.nextFrom] at h
  | cons e t ih =>
    obtain ⟨j, w⟩ := e
    simp only [Tbl.nextFrom, Bool.false_and, Bool.false_eq_true, if_false] at h
    split at h
    · exact (ih h).imp (fun v hv => List.mem_cons_of_mem _ hv)
    · split at h
      · obtain rfl : j = k := by simpa using h
        exact ⟨w, List.mem_cons_self⟩
      · exact (ih h).imp (fun v hv => List.mem_cons_of_mem _ hv)

/-- A slot made DEFECTIVE is not the lowest CLEAN one of its channel. -/
theorem lowest_setSlot_ne (ch : Channel) (k : Nat) : (ch.setSlot k .defective).lowest .clean ≠ some k := by
  have hlowest : (ch.setSlot k .defective).lowest .clean = Tbl.nextFrom (fun _ v => v = .clean)
      (ch.rest = .clean) Config.slotsPerChannel 0 (Tbl.set ch.rest ch.slots k .defective) := rfl
  rw [hlowest, Tbl.set]
  split
  · rename_i hrest
    have hempty : decide (ch.rest = .clean) = false := by rw [← hrest]; rfl
    rw [hempty]
    intro hfound
    obtain ⟨v, hv⟩ := Tbl.nextFrom_listed hfound
    simpa using (List.mem_filter.mp hv).2
  · exact Tbl.nextFrom_put_ne (by simp) (Nat.zero_le _)

/-- The slot that an allocation gives is the lowest CLEAN one of its channel. -/
theorem pickSlot_lowest {s : State} {avoid : Option Nat} {k : SlotRef} (h : s.pickSlot avoid = some k) :
    (s.channel k.channel).lowest .clean = some k.slot := by
  simp only [State.pickSlot] at h
  split at h
  · cases h
  · rename_i c _
    obtain ⟨j, hj, rfl⟩ := Option.map_eq_some_iff.mp h
    exact hj

/-- A slot made DEFECTIVE is not given. -/
theorem pickSlot_ne_defective {s : State} {r k : SlotRef} {avoid : Option Nat}
    (h : (s.setSlotState r .defective).pickSlot avoid = some k) : k ≠ r := by
  rintro rfl
  have hlowest := pickSlot_lowest h
  rw [State.setSlotState, State.setChannel_channel_same] at hlowest
  exact lowest_setSlot_ne _ _ hlowest

/-! ### The end of the turn (R96) -/

theorem startNext_slotState (c : Nat) (s : State) (q : SlotRef) : (startNext c s).slotState q = s.slotState q := by
  simp only [startNext]
  split
  · rw [State.slotState, State.setChannel_channel]
    split
    · rename_i hq
      rw [← hq]
      rfl
    · rfl
  · rfl

theorem join_slots (ch : Channel) (op : Op) : (ch.join op).slots = ch.slots ∧ (ch.join op).rest = ch.rest := by
  simp only [Channel.join]
  split <;> exact ⟨rfl, rfl⟩

theorem refillOne_slots (ch : Channel) : ch.refillOne.slots = ch.slots ∧ ch.refillOne.rest = ch.rest := by
  unfold Channel.refillOne
  repeat' split
  · exact join_slots _ _
  · exact ⟨rfl, rfl⟩
  · exact join_slots _ _
  · exact ⟨rfl, rfl⟩

theorem refill_slot (ch : Channel) (k : Nat) : ch.refill.slot k = ch.slot k := by
  obtain ⟨hslots, hrest⟩ := foldl_inv (fun c : Channel => c.slots = ch.slots ∧ c.rest = ch.rest)
    (fun c (_ : Nat) => c.refillOne) (fun c _ hc => by
      obtain ⟨hslots, hrest⟩ := refillOne_slots c
      exact ⟨hslots.trans hc.1, hrest.trans hc.2⟩) (List.range ch.outside.length) ch ⟨rfl, rfl⟩
  rw [Channel.slot, Channel.refill, hslots, hrest]
  rfl

theorem endOp_slotState (c : Nat) (s : State) (q : SlotRef) : (endOp c s).slotState q = s.slotState q := by
  simp only [endOp, State.slotState, State.setChannel_channel]
  split
  · rename_i hq
    rw [← hq]
    split
    · rw [refill_slot]
      rfl
    · rfl
  · rfl

theorem endTurn_rest (c : Nat) (s : State) :
    (endTurn c s).fault = s.fault ∧ (endTurn c s).media.slotWait = s.media.slotWait ∧
      ∀ q, (endTurn c s).slotState q = s.slotState q := by
  refine ⟨by simp [endTurn], by simp [endTurn], fun q => ?_⟩
  have hchannels : ∀ t : State, (transmitBoth t).slotState q = t.slotState q := fun _ => rfl
  rw [endTurn, hchannels, startNext_slotState, endOp_slotState]

/-- An operation asked while another is in progress stays asked as that one ends. -/
theorem endTurn_asked {c d : Nat} {op w : Op} {s : State} (h : s.inProgress c op = true) :
    w ∈ (endTurn c (askOp d w s)).asked d := by
  obtain ⟨hadded, -⟩ := askOp_asked d w s
  have hends : (endTurn c (askOp d w s)).asked d = (endOp c (askOp d w s)).asked d := by
    have hchannels : ∀ t : State, (transmitBoth t).asked d = t.asked d := fun _ => rfl
    rw [endTurn, hchannels, startNext_asked]
  obtain ⟨hleft, hothers⟩ := endOp_asked c (askOp d w s)
  rw [hends]
  by_cases hdc : d = c
  · subst hdc
    have hhead : ∀ u : State, u.inProgress d op = true → u.asked d = op :: ((u.channel d).queue.tail ++ (u.channel d).outside) := by
      intro u hu
      have hcurrent : (u.channel d).current = some op := of_decide_eq_true hu
      unfold Channel.current at hcurrent
      split at hcurrent
      · have hqueue := List.cons_head?_tail hcurrent
        rw [State.asked, ← List.cons_append, hqueue]
      · cases hcurrent
    rw [hhead s h, hhead _ (askOp_current h)] at hadded
    have hperm := (hadded.trans (List.Perm.swap op w _)).cons_inv
    exact hleft.mem_iff.mpr (hperm.mem_iff.mpr List.mem_cons_self)
  · rw [State.asked, hothers d hdc]
    exact hadded.mem_iff.mpr List.mem_cons_self

/-- What a fault did to a checkpoint stands as the turn ends. -/
theorem endTurn_abandoned {s v : State} (c : Nat) (h : s.checkpointAbandoned (transmitBoth v)) :
    s.checkpointAbandoned (endTurn c v) := by
  have hlink : ∀ p, (endTurn c v).link p = (transmitBoth v).link p := fun p => by
    rw [endTurn, transmitBoth_transmit, transmitBoth_transmit]
    simp
  have hcat : (endTurn c v).cat = (transmitBoth v).cat := by simp [endTurn]
  simpa only [State.checkpointAbandoned, State.waitersRefused, State.replied, hlink, hcat] using h

/-! ### How a write that fails is handled (R69) -/

/-- The failure counted: the slot's contents unknown and the slot DEFECTIVE, and the builder's failures one more (R69). -/
def State.failed (s : State) (c : Nat) (op : Op) (b : Nat) : State :=
  countFailure b { channel := c, slot := op.slot } ((clearFrames s).setFlash c op.slot .unknown)

theorem failed_builder (s : State) (c : Nat) (op : Op) (b : Nat) :
    (s.failed c op b).builder b = { s.builder b with failures := (s.builder b).failures + 1 } :=
  Tbl.get_set_same ..

theorem failed_entryNumber (s : State) (c : Nat) (op : Op) (b : Nat) :
    ((s.failed c op b).builder b).entry = (s.builder b).entry := by rw [failed_builder]

theorem failed_slotState (s : State) (c : Nat) (op : Op) (b : Nat) :
    (s.failed c op b).slotState { channel := c, slot := op.slot } = .defective := by
  have hslot := setSlotState_slotState ((clearFrames s).setFlash c op.slot .unknown) { channel := c, slot := op.slot }
    { channel := c, slot := op.slot } .defective
  rw [if_pos rfl] at hslot
  exact hslot

/-- SEGMENT-WRITE-FAIL counts the failure, and retries or stops (R69). -/
theorem exec_segmentWriteFail {c b : Nat} {op : Op} {s : State} (h : s.inProgress c op = true) (hk : op.kind = .write)
    (hr : op.requester = .builder b) :
    exec (.segmentWriteFail c) s = .next (endTurn c
      (if s.cat.params.retry ≤ (s.builder b).failures + 1 then
        failAtLimit b { channel := c, slot := op.slot } (s.failed c op b)
       else retryWrite b { channel := c, slot := op.slot } (s.failed c op b))) := by
  have hcurrent : ((clearFrames s).channel c).current = some op := of_decide_eq_true h
  have hwrite : isBuilderWrite op = true := by simp [isBuilderWrite, hk, hr]
  have hbuilder : opBuilder op = b := by simp [opBuilder, hr]
  have hleave : leaveInSlot c op false (clearFrames s) = (clearFrames s).setFlash c op.slot .unknown := by
    simp [leaveInSlot, hk]
  have hexec : exec (.segmentWriteFail c) s = execSegmentWriteFail c s := by rfl
  have hfailures : ((s.failed c op b).builder b).failures = (s.builder b).failures + 1 := by rw [failed_builder]
  have hfails : failSegment false b { channel := c, slot := op.slot } ((clearFrames s).setFlash c op.slot .unknown) =
      if s.cat.params.retry ≤ (s.builder b).failures + 1 then
        failAtLimit b { channel := c, slot := op.slot } (s.failed c op b)
      else retryWrite b { channel := c, slot := op.slot } (s.failed c op b) := by
    rw [← hfailures]
    simp only [failSegment, Bool.false_or, decide_eq_true_eq]
    rfl
  rw [hexec, execSegmentWriteFail, turn_next, onOp, hcurrent]
  simp only [hwrite, if_true, complete, hbuilder, hleave, hfails]
  rfl

/-- BUILDER-PAGE-ERROR holds the builder (R78). -/
theorem exec_builderPageError {c b : Nat} {op : Op} {s : State} (h : s.inProgress c op = true) (hk : op.kind = .write)
    (hr : op.requester = .builder b) :
    exec (.builderPageError c) s =
      .next (endTurn c (builderPageFault b { channel := c, slot := op.slot } (clearFrames s))) := by
  have hcurrent : ((clearFrames s).channel c).current = some op := of_decide_eq_true h
  have hwrite : isBuilderWrite op = true := by simp [isBuilderWrite, hk, hr]
  have hbuilder : opBuilder op = b := by simp [opBuilder, hr]
  have hexec : exec (.builderPageError c) s = execBuilderPageError c s := by rfl
  rw [hexec, execBuilderPageError, turn_next, onOp, hcurrent]
  simp only [hwrite, if_true, hbuilder]
  rfl

/-! ### Faults at a context that is not HELD (R184, R185) -/

/-- The fault is HELD in its context. -/
theorem raiseFault_held {f : FaultInfo} {s : State} (ha : s.cat.archive = .service)
    (hh : (s.contextOf f.kind).isHeld = false) :
    (raiseFault f s).contextOf f.kind = .held s.fault.counter f := by
  have hset : ((takeFaultNumber s).setContextOf f.kind (.held s.fault.counter f)).contextOf f.kind =
      .held s.fault.counter f := by
    unfold State.setContextOf
    split <;> simp_all [State.contextOf]
  have hkept : ∀ u v : State, v.fault = u.fault → v.contextOf f.kind = u.contextOf f.kind := fun u v hv => by
    rw [State.contextOf, hv]
    rfl
  simp only [raiseFault, ha, hh, ne_eq, not_true_eq_false, if_false, Bool.false_eq_true]
  exact (hkept _ _ (by simp)).trans hset

/-- A checkpoint is abandoned alike from two states with the same Catalog Unit and the same requests live. -/
theorem checkpointAbandoned_congr {s u t : State} (hc : u.cat = s.cat) (hl : ∀ r, u.isLive r = s.isLive r)
    (h : u.checkpointAbandoned t) : s.checkpointAbandoned t := by
  simpa only [State.checkpointAbandoned, State.waitersRefused, hc, hl] using h

/-- What a fault of compaction, raised in `u`, leaves as the turn ends: compaction STOPPED, a checkpoint QUIESCING abandoned, and
the fault HELD. -/
theorem endTurn_fault {s u : State} (c : Nat) {f : FaultInfo} (hf : engineOf f.kind = .compaction)
    (ha : s.cat.archive = .service) (hh : (s.contextOf f.kind).isHeld = false) (hcat : u.cat = s.cat)
    (hfault : u.fault = s.fault) (hlink : ∀ p, (u.link p).epoch = (s.link p).epoch) :
    (endTurn c (raiseFault f u)).comp.stopped = true ∧ s.checkpointAbandoned (endTurn c (raiseFault f u)) ∧
      (endTurn c (raiseFault f u)).contextOf f.kind = .held s.fault.counter f := by
  have hservice : u.cat.archive = .service := by rw [hcat, ha]
  have hcontext : (u.contextOf f.kind).isHeld = false := by
    rw [State.contextOf, hfault]
    exact hh
  obtain ⟨hcomp, -⟩ := raiseFault_compaction hf hservice
  obtain ⟨hsame, -⟩ := endTurn_keeps c (raiseFault f u)
  obtain ⟨hrest, -⟩ := endTurn_rest c (raiseFault f u)
  refine ⟨by rw [hsame, hcomp], ?_, ?_⟩
  · have habandoned := endTurn_abandoned c (raiseFault_abandons hf hservice hcontext)
    exact checkpointAbandoned_congr hcat (fun r => isLive_congr r (hlink r.port)) habandoned
  · have hheld := raiseFault_held hservice hcontext
    rw [hfault] at hheld
    rw [← hheld, State.contextOf, hrest]
    rfl

/-! ### The outcomes of a failed write (R69, R91) -/

/-- The entry's write given up: it is FILLING again, without slot, check, expiry day and hold mask (R69). -/
def State.givenUp (s : State) (b : Nat) : DirEntry :=
  { s.entry (s.builder b).entry with state := .filling, slot := none, crc := none, expiryDay := none, holds := [] }

theorem toFilling_entry (e : Nat) (s : State) (i : Nat) :
    (toFilling e s).entry i =
      if i = e then { s.entry e with state := .filling, slot := none, crc := none, expiryDay := none, holds := [] }
      else s.entry i := State.setEntry_entry ..

/-- The failed write with its entry given up (R69). -/
def State.failedBack (s : State) (c : Nat) (op : Op) (b : Nat) : State :=
  toFilling ((s.failed c op b).builder b).entry (s.failed c op b)

/-- What the entries, the builders and the slots are as the turn ends, from tables that stand. -/
theorem endTurn_views {c : Nat} {u v : State} (hd : v.media.dir = u.media.dir) (hc : v.media.channels = u.media.channels)
    (hb : v.comp.builders = u.comp.builders) :
    (∀ e, (endTurn c v).entry e = u.entry e) ∧ (∀ i, (endTurn c v).builder i = u.builder i) ∧
      ∀ q, (endTurn c v).slotState q = u.slotState q := by
  obtain ⟨-, -, -, hentry, hbuilder, -⟩ := endTurn_keeps c v
  obtain ⟨-, -, hslot⟩ := endTurn_rest c v
  simp only [hentry, hbuilder, hslot]
  simp only [State.entry, State.builder, State.slotState, State.channel, hd, hc, hb, implies_true, and_self]

/-- The failed write, its entry given up, as the turn ends. -/
theorem endTurn_failedBack {s v : State} {c : Nat} {op : Op} {b : Nat} (hd : v.media.dir = (s.failedBack c op b).media.dir)
    (hc : v.media.channels = (s.failedBack c op b).media.channels)
    (hb : v.comp.builders = (s.failedBack c op b).comp.builders) :
    (endTurn c v).builder b = { s.builder b with failures := (s.builder b).failures + 1 } ∧
      (endTurn c v).slotState { channel := c, slot := op.slot } = .defective ∧
      (endTurn c v).entry (s.builder b).entry = s.givenUp b := by
  obtain ⟨hentry, hbuilder, hslot⟩ := endTurn_views (c := c) hd hc hb
  refine ⟨(hbuilder b).trans (failed_builder s c op b), (hslot _).trans (failed_slotState s c op b), ?_⟩
  rw [hentry, State.failedBack, toFilling_entry, failed_entryNumber, if_pos rfl]
  rfl

/-- The slots that will become CLEAN are found in the Slot Map and the directory alone. -/
theorem failedBack_willBecomeClean (s : State) (c : Nat) (op : Op) (b : Nat) :
    (s.failedBack c op b).willBecomeClean =
      ((s.setSlotState { channel := c, slot := op.slot } .defective).setEntry (s.builder b).entry
        (s.givenUp b)).willBecomeClean := by
  rw [State.failedBack, failed_entryNumber]
  rfl

/-- The builder page has failed its check: the slot CLEAN, the entry given up and the page held (R78). -/
def State.pageFails (s : State) (c : Nat) (op : Op) (b : Nat) : State :=
  (toFilling (s.builder b).entry ((clearFrames s).setSlotState { channel := c, slot := op.slot } .clean)).setBuilder b
    { s.builder b with pageHeld := true }

theorem pageFails_builder (s : State) (c : Nat) (op : Op) (b : Nat) :
    (s.pageFails c op b).builder b = { s.builder b with pageHeld := true } := Tbl.get_set_same ..

theorem pageFails_slotState (s : State) (c : Nat) (op : Op) (b : Nat) :
    (s.pageFails c op b).slotState { channel := c, slot := op.slot } = .clean := by
  have hslot := setSlotState_slotState (clearFrames s) { channel := c, slot := op.slot }
    { channel := c, slot := op.slot } .clean
  rw [if_pos rfl] at hslot
  exact hslot

theorem pageFails_entry (s : State) (c : Nat) (op : Op) (b : Nat) :
    (s.pageFails c op b).entry (s.builder b).entry = s.givenUp b := by
  have hentry := toFilling_entry (s.builder b).entry
    ((clearFrames s).setSlotState { channel := c, slot := op.slot } .clean) (s.builder b).entry
  rw [if_pos rfl] at hentry
  exact hentry

section
variable {c b : Nat} {op : Op} {s : State} (hp : s.inProgress c op = true) (hk : op.kind = .write)
  (hr : op.requester = .builder b)
include hp hk hr

/-- Below the limit the close asks again (R69). -/
theorem segmentWriteFail_retries (hf : (s.builder b).failures + 1 < s.cat.params.retry) :
    exec (.segmentWriteFail c) s =
      .next (endTurn c (retryWrite b { channel := c, slot := op.slot } (s.failed c op b))) := by
  rw [exec_segmentWriteFail hp hk hr, if_neg (by omega)]

end

theorem failed_compacting {s : State} (ha : s.cat.archive = .service) (c : Nat) (op : Op) (b : Nat) :
    (s.failed c op b).compacting = !s.comp.stopped := by
  have hsame : (s.failed c op b).compacting = s.compacting := rfl
  rw [hsame]
  simp [State.compacting, State.inService, ha]

/-- With compaction STOPPED the entry is given up. -/
theorem retryWrite_stopped {s : State} (ha : s.cat.archive = .service) (hs : s.comp.stopped = true) (c : Nat) (op : Op)
    (b : Nat) (r : SlotRef) : retryWrite b r (s.failed c op b) = s.failedBack c op b := by
  simp only [retryWrite, failed_compacting ha, hs, Bool.not_true, Bool.not_false, if_true]
  rfl

/-- A slot elsewhere is taken at once. -/
theorem retryWrite_slot {s : State} (ha : s.cat.archive = .service) (hs : s.comp.stopped = false) {c : Nat} {op : Op}
    {b : Nat} {k : SlotRef}
    (h : (s.setSlotState { channel := c, slot := op.slot } .defective).pickSlot (some c) = some k) :
    retryWrite b { channel := c, slot := op.slot } (s.failed c op b) = giveSlot b k true (s.failed c op b) := by
  have hpick : (s.failed c op b).pickSlot (some c) = some k := h
  simp only [retryWrite, failed_compacting ha, hs, Bool.not_false, Bool.not_true, Bool.false_eq_true, if_false, hpick]

/-- Without one the entry is given up, and its close waits. -/
theorem retryWrite_waits {s : State} (ha : s.cat.archive = .service) (hs : s.comp.stopped = false) {c : Nat} {op : Op}
    {b : Nat} (h : (s.setSlotState { channel := c, slot := op.slot } .defective).pickSlot (some c) = none) :
    retryWrite b { channel := c, slot := op.slot } (s.failed c op b) = waitForSlot b (s.failedBack c op b) := by
  have hpick : (s.failed c op b).pickSlot (some c) = none := h
  simp only [retryWrite, failed_compacting ha, hs, Bool.not_false, Bool.not_true, Bool.false_eq_true, if_false, hpick]
  rfl

/-- A close given a slot asks its WRITE there, every operation in progress running on. -/
theorem giveSlot_asks (b : Nat) (r : SlotRef) (retry : Bool) (s : State) :
    ∃ u, giveSlot b r retry s = askOp r.channel (builderWrite b (s.builder b) r.slot) u ∧ s.runsOn u :=
  ⟨_, rfl, fun d o h => setSlotState_runsOn r .used
    (s.setEntry (s.builder b).entry (s.writingEntry (s.builder b) r retry)) d o h⟩

/-- Whatever a retry comes to, it leaves the builders. -/
theorem retryWrite_builders (b : Nat) (r : SlotRef) (s : State) : (retryWrite b r s).comp.builders = s.comp.builders := by
  simp only [retryWrite]
  repeat' split
  all_goals simp

/-! ### What the outcomes leave (O34) -/

/-- What a fault that stops compaction after the failed write's entry is given up leaves as the turn ends. -/
theorem endTurn_failedFault {s : State} (ha : s.cat.archive = .service) (c : Nat) (op : Op) (b : Nat) {f : FaultInfo}
    (hf : engineOf f.kind = .compaction) (hh : (s.contextOf f.kind).isHeld = false) :
    let t := endTurn c (raiseFault f (s.failedBack c op b))
    t.builder b = { s.builder b with failures := (s.builder b).failures + 1 } ∧
      t.slotState { channel := c, slot := op.slot } = .defective ∧ t.entry (s.builder b).entry = s.givenUp b ∧
      t.media.slotWait = s.media.slotWait ∧ t.comp.stopped = true ∧ s.checkpointAbandoned t ∧
      t.contextOf f.kind = .held s.fault.counter f := by
  obtain ⟨hbuilder, hslot, hentry⟩ := endTurn_failedBack (s := s) (c := c) (op := op) (b := b)
    (v := raiseFault f (s.failedBack c op b)) (by simp) (by simp) (by simp)
  obtain ⟨hstopped, habandoned, hheld⟩ :=
    endTurn_fault (s := s) (u := s.failedBack c op b) c hf ha hh rfl rfl (fun p => by cases p <;> rfl)
  obtain ⟨-, hwait, -⟩ := endTurn_rest c (raiseFault f (s.failedBack c op b))
  have hkept : (raiseFault f (s.failedBack c op b)).media.slotWait = (s.failedBack c op b).media.slotWait := by simp
  exact ⟨hbuilder, hslot, hentry, hwait.trans hkept, hstopped, habandoned, hheld⟩

section
variable {c b : Nat} {op : Op} {s : State} (hp : s.inProgress c op = true) (hk : op.kind = .write)
  (hr : op.requester = .builder b) (ha : s.cat.archive = .service)
include hp hk hr

/-- A retry, whatever it comes to, counts the failure and keeps the builder's records. -/
theorem segmentWriteFail_counts (hf : (s.builder b).failures + 1 < s.cat.params.retry) :
    ∃ t, exec (.segmentWriteFail c) s = .next t ∧ (t.builder b).failures = (s.builder b).failures + 1 ∧
      (t.builder b).records = (s.builder b).records := by
  refine ⟨_, segmentWriteFail_retries hp hk hr hf, ?_⟩
  obtain ⟨-, -, -, -, hbuilder, -⟩ :=
    endTurn_keeps c (retryWrite b { channel := c, slot := op.slot } (s.failed c op b))
  rw [hbuilder, State.builder, retryWrite_builders, ← State.builder, failed_builder]
  exact ⟨rfl, rfl⟩

include ha

/-- A retry that finds a slot elsewhere writes there (R69, R91). -/
theorem segmentWriteFail_moves (hs : s.comp.stopped = false) (hf : (s.builder b).failures + 1 < s.cat.params.retry)
    {k : SlotRef} (h : (s.setSlotState { channel := c, slot := op.slot } .defective).pickSlot (some c) = some k) :
    ∃ t, exec (.segmentWriteFail c) s = .next t ∧
      t.builder b = { s.builder b with failures := (s.builder b).failures + 1 } ∧
      t.slotState { channel := c, slot := op.slot } = .defective ∧ t.slotState k = .used ∧
      t.entry (s.builder b).entry = { s.entry (s.builder b).entry with
        state := .writing, slot := some k, payloadBytes := (s.builder b).bytesUsed,
        crc := some (payloadOf (s.builder b)).crc } ∧
      builderWrite b (s.builder b) k.slot ∈ t.asked k.channel ∧ t.media.slotWait = s.media.slotWait ∧
      t.fault = s.fault := by
  refine ⟨_, segmentWriteFail_retries hp hk hr hf, ?_⟩
  rw [retryWrite_slot ha hs h]
  obtain ⟨hentry, hslot, -⟩ := giveSlot_spec b k true (s.failed c op b)
  obtain ⟨u, hasks, hruns⟩ := giveSlot_asks b k true (s.failed c op b)
  obtain ⟨hcomp, -, -, hentryEnd, hbuilderEnd, -⟩ := endTurn_keeps c (giveSlot b k true (s.failed c op b))
  obtain ⟨hfault, hwait, hslotEnd⟩ := endTurn_rest c (giveSlot b k true (s.failed c op b))
  have hrunsFailed : (s.failed c op b).inProgress c op = true :=
    setSlotState_runsOn { channel := c, slot := op.slot } .defective ((clearFrames s).setFlash c op.slot .unknown) c op hp
  have hne : ({ channel := c, slot := op.slot } : SlotRef) ≠ k := (pickSlot_ne_defective h).symm
  rw [failed_builder] at hentry hasks
  refine ⟨?_, ?_, ?_, ?_, ?_, ?_, ?_⟩
  · have hbuilders : (giveSlot b k true (s.failed c op b)).comp = (s.failed c op b).comp := by simp
    rw [hbuilderEnd, State.builder, hbuilders]
    exact failed_builder s c op b
  · rw [hslotEnd, hslot, if_neg hne, failed_slotState]
  · rw [hslotEnd, hslot, if_pos rfl]
  · rw [hentryEnd, hentry, if_pos rfl]
    rfl
  · rw [hasks]
    exact endTurn_asked (hruns c op hrunsFailed)
  · rw [hwait]
    have hkept : (giveSlot b k true (s.failed c op b)).media.slotWait = (s.failed c op b).media.slotWait := by simp
    exact hkept
  · rw [hfault]
    have hkept : (giveSlot b k true (s.failed c op b)).fault = (s.failed c op b).fault := by simp
    exact hkept

/-- A retry that finds none waits while a slot will become CLEAN (R69, R91). -/
theorem segmentWriteFail_joins (hs : s.comp.stopped = false) (hf : (s.builder b).failures + 1 < s.cat.params.retry)
    (h : (s.setSlotState { channel := c, slot := op.slot } .defective).pickSlot (some c) = none)
    (hw : (s.failedBack c op b).willBecomeClean = true) :
    ∃ t, exec (.segmentWriteFail c) s = .next t ∧
      t.builder b = { s.builder b with failures := (s.builder b).failures + 1 } ∧
      t.slotState { channel := c, slot := op.slot } = .defective ∧ t.entry (s.builder b).entry = s.givenUp b ∧
      t.media.slotWait = s.media.slotWait ++ [b] ∧ t.fault = s.fault := by
  refine ⟨_, segmentWriteFail_retries hp hk hr hf, ?_⟩
  rw [retryWrite_waits ha hs h, waitForSlot, if_pos hw]
  obtain ⟨hbuilder, hslot, hentry⟩ := endTurn_failedBack (s := s) (c := c) (op := op) (b := b)
    (v := { s.failedBack c op b with
      media := { (s.failedBack c op b).media with slotWait := (s.failedBack c op b).media.slotWait ++ [b] } }) rfl rfl rfl
  obtain ⟨hfault, hwait, -⟩ := endTurn_rest c { s.failedBack c op b with
    media := { (s.failedBack c op b).media with slotWait := (s.failedBack c op b).media.slotWait ++ [b] } }
  exact ⟨hbuilder, hslot, hentry, hwait, hfault⟩

/-- A retry that finds none, where none will become CLEAN, raises SPACE-EXHAUSTED (R69, R91, R184). -/
theorem segmentWriteFail_exhausts (hs : s.comp.stopped = false) (hf : (s.builder b).failures + 1 < s.cat.params.retry)
    (h : (s.setSlotState { channel := c, slot := op.slot } .defective).pickSlot (some c) = none)
    (hw : (s.failedBack c op b).willBecomeClean = false) (hg : s.fault.general.isHeld = false) :
    ∃ t, exec (.segmentWriteFail c) s = .next t ∧
      t.builder b = { s.builder b with failures := (s.builder b).failures + 1 } ∧
      t.slotState { channel := c, slot := op.slot } = .defective ∧ t.entry (s.builder b).entry = s.givenUp b ∧
      t.media.slotWait = s.media.slotWait ∧ t.comp.stopped = true ∧ s.checkpointAbandoned t ∧
      t.fault.general = .held s.fault.counter { kind := .spaceExhausted, segment := some (s.builder b).entry } := by
  refine ⟨_, segmentWriteFail_retries hp hk hr hf, ?_⟩
  have hnames : ((s.failedBack c op b).builder b).entry = (s.builder b).entry := failed_entryNumber s c op b
  rw [retryWrite_waits ha hs h, waitForSlot, if_neg (by simp [hw]), hnames]
  exact endTurn_failedFault ha c op b (f := spaceExhausted (some (s.builder b).entry)) rfl hg

/-- With compaction STOPPED the entry is given up, and nothing else (R69). -/
theorem segmentWriteFail_stopped (hs : s.comp.stopped = true) (hf : (s.builder b).failures + 1 < s.cat.params.retry) :
    ∃ t, exec (.segmentWriteFail c) s = .next t ∧
      t.builder b = { s.builder b with failures := (s.builder b).failures + 1 } ∧
      t.slotState { channel := c, slot := op.slot } = .defective ∧ t.entry (s.builder b).entry = s.givenUp b ∧
      t.fault = s.fault ∧ t.media.slotWait = s.media.slotWait := by
  refine ⟨_, segmentWriteFail_retries hp hk hr hf, ?_⟩
  rw [retryWrite_stopped ha hs]
  obtain ⟨hbuilder, hslot, hentry⟩ := endTurn_failedBack (s := s) (c := c) (op := op) (b := b) rfl rfl rfl
  obtain ⟨hfault, hwait, -⟩ := endTurn_rest c (s.failedBack c op b)
  exact ⟨hbuilder, hslot, hentry, hfault, hwait⟩

/-- At the write retry limit SEGMENT-WRITE-FAILED stops compaction (R69). -/
theorem segmentWriteFail_limit (hf : s.cat.params.retry ≤ (s.builder b).failures + 1)
    (hm : s.fault.media.isHeld = false) :
    ∃ t, exec (.segmentWriteFail c) s = .next t ∧ (t.builder b).failures = (s.builder b).failures + 1 ∧
      t.slotState { channel := c, slot := op.slot } = .defective ∧ t.entry (s.builder b).entry = s.givenUp b ∧
      t.comp.stopped = true ∧ s.checkpointAbandoned t ∧
      t.fault.media = .held s.fault.counter
        { kind := .segmentWriteFailed, segment := some (s.builder b).entry,
          slot := some { channel := c, slot := op.slot }, retries := (s.builder b).failures + 1 } := by
  refine ⟨_, by rw [exec_segmentWriteFail hp hk hr, if_pos hf], ?_⟩
  have hraise : failAtLimit b { channel := c, slot := op.slot } (s.failed c op b) =
      raiseFault { kind := .segmentWriteFailed, segment := some (s.builder b).entry,
                   slot := some { channel := c, slot := op.slot }, retries := (s.builder b).failures + 1 }
        (s.failedBack c op b) := by
    simp only [failAtLimit, State.failedBack, failed_builder]
  rw [hraise]
  obtain ⟨hbuilder, hslot, hentry, -, hstopped, habandoned, hheld⟩ := endTurn_failedFault ha c op b
    (f := { kind := .segmentWriteFailed, segment := some (s.builder b).entry,
            slot := some { channel := c, slot := op.slot }, retries := (s.builder b).failures + 1 }) rfl hm
  exact ⟨congrArg Builder.failures hbuilder, hslot, hentry, hstopped, habandoned, hheld⟩

/-- A builder page that fails its check leaves the slot CLEAN and holds the builder (R78). -/
theorem builderPageError_holds (hg : s.fault.general.isHeld = false) :
    ∃ t, exec (.builderPageError c) s = .next t ∧ (t.builder b).pageHeld = true ∧
      t.slotState { channel := c, slot := op.slot } = .clean ∧ t.entry (s.builder b).entry = s.givenUp b ∧
      t.comp.stopped = true ∧ s.checkpointAbandoned t ∧
      t.fault.general = .held s.fault.counter { kind := .builderPageError, segment := some (s.builder b).entry } := by
  refine ⟨_, exec_builderPageError hp hk hr, ?_⟩
  have hraise : builderPageFault b { channel := c, slot := op.slot } (clearFrames s) =
      raiseFault { kind := .builderPageError, segment := some (s.builder b).entry } (s.pageFails c op b) := rfl
  rw [hraise]
  obtain ⟨hentry, hbuilder, hslot⟩ := endTurn_views (c := c) (u := s.pageFails c op b)
    (v := raiseFault { kind := .builderPageError, segment := some (s.builder b).entry } (s.pageFails c op b))
    (by simp) (by simp) (by simp)
  obtain ⟨hstopped, habandoned, hheld⟩ := endTurn_fault (s := s) (u := s.pageFails c op b) c
    (f := { kind := .builderPageError, segment := some (s.builder b).entry }) rfl ha hg rfl rfl
    (fun p => by cases p <;> rfl)
  refine ⟨?_, ?_, ?_, hstopped, habandoned, hheld⟩
  · rw [hbuilder, pageFails_builder]
  · rw [hslot, pageFails_slotState]
  · rw [hentry, pageFails_entry]

end

/-- Settles O34, an outcome at a time. -/
theorem failedWritesAreHeld : Obligations.FailedWritesAreHeld := by
  intro c b op s hp hk hr ha
  refine ⟨fun _ hf => segmentWriteFail_counts hp hk hr hf, fun hs hf => ⟨fun k h => ?_, fun h hw => ?_, fun h hw hg => ?_⟩,
    fun hs hf => segmentWriteFail_stopped hp hk hr ha hs hf, fun hf hm => segmentWriteFail_limit hp hk hr ha hf hm,
    fun hg => builderPageError_holds hp hk hr ha hg⟩
  · exact segmentWriteFail_moves hp hk hr ha hs hf h
  · exact segmentWriteFail_joins hp hk hr ha hs hf h ((failedBack_willBecomeClean s c op b).trans hw)
  · exact segmentWriteFail_exhausts hp hk hr ha hs hf h ((failedBack_willBecomeClean s c op b).trans hw) hg

end Sys2Proof.Machine
end

