-- ==== Sys2Proof/Proofs/BuilderSearches.lean ====
section
/-!
PROOFS. Proofs/BuilderSearches.lean: what the searches of the builder table find (R60, R61, R62), for O32.
-/

namespace Sys2Proof.Machine
open Sys2Proof

/-- Where a search finds nothing, no entry in its range satisfies the test, nor an unlisted one where the empty entry would. -/
theorem Tbl.nextFrom_none {α : Type} {p : Nat → α → Bool} {empty : Bool} {bound n : Nat} {t : Tbl α}
    (hr : Tbl.rising t = true) (h : Tbl.nextFrom p empty bound n t = none) {k : Nat} (hn : n ≤ k) (hk : k < bound) :
    (Tbl.find t k = none → empty = false) ∧ ∀ v, Tbl.find t k = some v → p k v = false := by
  induction t generalizing n with
  | nil =>
    cases empty with
    | false => simp [Tbl.find]
    | true => simp [Tbl.nextFrom, show n < bound by omega] at h
  | cons e t ih =>
    obtain ⟨j, w⟩ := e
    rw [Tbl.rising_cons] at hr
    obtain ⟨hbeyond, hrest⟩ := hr
    simp only [Tbl.nextFrom] at h
    split at h
    · have hne : j ≠ k := by omega
      simpa [Tbl.find, hne] using ih hrest h hn
    · split at h
      · cases h
      · rename_i hempty
        split at h
        · cases h
        · rename_i htest
          rcases Nat.lt_trichotomy k j with hlt | rfl | hgt
          · have hunlisted : Tbl.find t k = none := Tbl.find_none_of_lt (fun e he => lt_trans hlt (hbeyond e he))
            have hne : j ≠ k := by omega
            have hfalse : empty = false := by
              cases empty with
              | false => rfl
              | true => simp [show n < j by omega, show n < bound by omega] at hempty
            simp [Tbl.find, hne, hunlisted, hfalse]
          · simpa [Tbl.find, hk] using htest
          · have hne : j ≠ k := by omega
            simpa [Tbl.find, hne] using ih hrest h hgt

section
variable {α : Type} {p : α → Bool} {d : α} {bound : Nat} {t : Tbl α} (hr : Tbl.rising t = true)
include hr

/-- A search for a test, told what the empty entry makes of it, finds an entry that satisfies it. -/
theorem Tbl.nextFrom_some_get {k : Nat} (h : Tbl.nextFrom (fun _ v => p v) (p d) bound 0 t = some k) :
    k < bound ∧ p (Tbl.get d t k) = true := by
  obtain ⟨-, hk, hfound⟩ := Tbl.nextFrom_spec _ _ _ hr h
  refine ⟨hk, ?_⟩
  rw [Tbl.get]
  split at hfound <;> rename_i hv <;> simpa [hv] using hfound

/-- And finds nothing where none does. -/
theorem Tbl.nextFrom_none_get :
    Tbl.nextFrom (fun _ v => p v) (p d) bound 0 t = none ↔ ∀ k, k < bound → p (Tbl.get d t k) = false := by
  constructor
  · intro h k hk
    obtain ⟨hunlisted, hlisted⟩ := Tbl.nextFrom_none hr h (Nat.zero_le k) hk
    rw [Tbl.get]
    cases hv : Tbl.find t k with
    | none => exact hunlisted hv
    | some v => exact hlisted v hv
  · intro h
    rw [Option.eq_none_iff_forall_ne_some]
    intro k hfound
    obtain ⟨hk, htrue⟩ := Tbl.nextFrom_some_get hr hfound
    rw [h k hk] at htrue
    cases htrue

end

/-- The builder is FILLING for the key (R60). -/
def fillsKey (n d : Nat) (v : Builder) : Bool := decide (v.phase = .filling) && decide (v.source = n) && decide (v.day = d)

/-- The builder is FREE. -/
def isFreeBuilder (v : Builder) : Bool := decide (v.phase = .free)

/-- The older of the FILLING builder found so far and the next one listed, by the last append (R62). -/
def olderFilling (best : Option (Nat × Nat)) (e : Nat × Builder) : Option (Nat × Nat) :=
  if e.2.phase = .filling then
    match best with
    | none => some (e.1, e.2.lastAppend)
    | some (b, t) => if e.2.lastAppend < t then some (e.1, e.2.lastAppend) else some (b, t)
  else best

theorem oldestFilling_eq (s : State) : s.oldestFilling = (s.comp.builders.foldl olderFilling none).map Prod.fst := rfl

theorem olderFilling_some {best : Option (Nat × Nat)} {e : Nat × Builder} {x : Nat × Nat}
    (h : olderFilling best e = some x) : best = some x ∨ e.1 = x.1 ∧ e.2.phase = .filling := by
  unfold olderFilling at h
  split at h
  · rename_i hphase
    split at h
    · exact Or.inr ⟨congrArg Prod.fst (Option.some.inj h), hphase⟩
    · split at h
      · exact Or.inr ⟨congrArg Prod.fst (Option.some.inj h), hphase⟩
      · exact Or.inl h
  · exact Or.inl h

theorem fillsKey_phase {n d : Nat} {v : Builder} (h : fillsKey n d v = true) : v.phase = .filling := by
  simp only [fillsKey, Bool.and_eq_true, decide_eq_true_eq] at h
  exact h.1.1

section
variable {s : State} (hr : Tbl.rising s.comp.builders = true)
include hr

theorem fillingBuilder_some {n d b : Nat} (h : s.fillingBuilder n d = some b) :
    b < 32 ∧ fillsKey n d (s.builder b) = true :=
  Tbl.nextFrom_some_get (p := fillsKey n d) (d := ({} : Builder)) hr h

theorem fillingBuilder_none_iff {n d : Nat} :
    s.fillingBuilder n d = none ↔ ∀ b, b < 32 → fillsKey n d (s.builder b) = false :=
  Tbl.nextFrom_none_get (p := fillsKey n d) (d := ({} : Builder)) hr

theorem freeBuilder_some {b : Nat} (h : s.freeBuilder = some b) : b < 32 ∧ (s.builder b).phase = .free := by
  obtain ⟨hb, hfree⟩ := Tbl.nextFrom_some_get (p := isFreeBuilder) (d := ({} : Builder)) hr h
  exact ⟨hb, of_decide_eq_true hfree⟩

theorem freeBuilder_none_iff : s.freeBuilder = none ↔ ∀ b, b < 32 → (s.builder b).phase ≠ .free := by
  have hnone : s.freeBuilder = none ↔ ∀ b, b < 32 → isFreeBuilder (s.builder b) = false :=
    Tbl.nextFrom_none_get (p := isFreeBuilder) (d := ({} : Builder)) hr
  simpa only [isFreeBuilder, decide_eq_false_iff_not] using hnone

/-- The builder longest without an append is a FILLING one. -/
theorem oldestFilling_filling {b : Nat} (h : s.oldestFilling = some b) : (s.builder b).phase = .filling := by
  rw [oldestFilling_eq] at h
  obtain ⟨best, hbest, rfl⟩ := Option.map_eq_some_iff.mp h
  have hlisted : ∀ (l : List (Nat × Builder)) (start : Option (Nat × Nat)),
      (∀ x, start = some x → (s.builder x.1).phase = .filling) → (∀ e ∈ l, e ∈ s.comp.builders) →
      ∀ x, l.foldl olderFilling start = some x → (s.builder x.1).phase = .filling := by
    intro l
    induction l with
    | nil => exact fun start hstart _ x hx => hstart x hx
    | cons e l ih =>
      intro start hstart hl x hx
      refine ih _ (fun y hy => ?_) (fun e' he' => hl e' (List.mem_cons_of_mem _ he')) x hx
      rcases olderFilling_some hy with hbefore | ⟨hindex, hphase⟩
      · exact hstart y hbefore
      · have hsame : s.builder e.1 = e.2 := by
          rw [State.builder, Tbl.get, Tbl.find_of_mem hr (hl e List.mem_cons_self)]
          rfl
        rw [← hindex, hsame, hphase]
  exact hlisted s.comp.builders none (by simp) (fun _ he => he) best hbest

end

end Sys2Proof.Machine
end

