-- ==== Sys2Proof/Proofs/Appends.lean ====
section
/-!
PROOFS. Proofs/Appends.lean: the append of the head file's next record (R59, R61, R62, R64, R65, R78): O32.
-/

namespace Sys2Proof.Machine
open Sys2Proof

/-! ### What compaction does after an append (R59, R72) -/

/-- An append counts at the head file. -/
theorem appendTo_queue {b q : Nat} {r : Record} {s : State} {f : QueuedFile} {rest : List QueuedFile}
    (h : s.comp.queue = f :: rest) :
    (appendTo b q r s).comp.queue = { f with appended := f.appended + 1 } :: rest := by
  have hadded := (addUses_keeps (s.freshCodes b r)
    ((s.setBuilder b (s.appendedBuilder b q r)).setEntry (s.builder b).entry (s.appendedEntry b q r))).1
  have hqueue : ((s.freshCodes b r).foldl (fun u k => addUse k u)
      ((s.setBuilder b (s.appendedBuilder b q r)).setEntry (s.builder b).entry (s.appendedEntry b q r))).comp.queue =
      f :: rest := hadded.trans h
  rw [appendTo_eq, advanceHead, hqueue]

/-- Of the files at the head, only the first is finished: it alone leaves. -/
theorem dropFinished_leaves {s : State} {f : QueuedFile} {rest : List QueuedFile} (hq : s.comp.queue = f :: rest)
    (hf : f.toAppend ≤ f.appended) (hrest : ∀ g, rest.head? = some g → g.appended < g.toAppend) :
    dropFinished s = leaveQueue s := by
  have hleft : (leaveQueue s).comp.queue = rest := by simp [leaveQueue, hq]
  have hstep : dropFinished s = dropFinished (leaveQueue s) := by
    simp only [dropFinished, hq, List.foldl_cons, hf, if_true, hleft]
  rw [hstep, dropFinished_eq (by rw [hleft]; exact hrest)]

/-- In a drain, a file with a record to append heads the queue after the append of the head file's next record. -/
def State.drainsOn (s : State) (f : QueuedFile) (rest : List QueuedFile) : Prop :=
  s.cat.state = .quiescing → f.appended + 1 < f.toAppend ∨ ∃ g, rest.head? = some g ∧ g.appended < g.toAppend

/-- A queue that keeps a file in a drain: with no opening pending, finished files leave and nothing else goes on. -/
theorem runCompaction_drops_only {s : State} (hc : s.compacting = true) (ho : s.comp.opening = none)
    (hq : s.cat.state = .quiescing → (dropFinished s).comp.queue ≠ []) : runCompaction s = dropFinished s := by
  have hresolve : resolveOpening (dropFinished s) = dropFinished s := resolveOpening_none (by simpa using ho)
  have hstate : (dropFinished s).cat = s.cat := by simp
  by_cases hdrain : s.cat.state = .quiescing
  · simp [runCompaction, hc, hresolve, drainCloses, drainComplete, State.drained, hq hdrain]
  · simp [runCompaction, hc, hresolve, drainCloses, drainComplete, State.draining, hdrain]

/-- After the append of a record only finished files leave. -/
theorem runCompaction_appendTo {b q : Nat} {r : Record} {s : State} {f : QueuedFile} {rest : List QueuedFile}
    (hc : s.compacting = true) (ho : s.comp.opening = none) (hq : s.comp.queue = f :: rest) (hd : s.drainsOn f rest) :
    runCompaction (appendTo b q r s) = dropFinished (appendTo b q r s) := by
  have hqueue := appendTo_queue (b := b) (q := q) (r := r) hq
  have hcompacting : (appendTo b q r s).compacting = true := (compacting_congr (by simp) (by simp)).trans hc
  refine runCompaction_drops_only hcompacting (by simpa using ho) (fun hquiescing => ?_)
  rcases hd (by simpa using hquiescing) with hmore | ⟨g, hg, hnext⟩
  · rw [dropFinished_eq (by simpa [hqueue] using hmore), hqueue]
    exact List.cons_ne_nil _ _
  · by_cases hmore : f.appended + 1 < f.toAppend
    · rw [dropFinished_eq (by simpa [hqueue] using hmore), hqueue]
      exact List.cons_ne_nil _ _
    · rw [dropFinished_leaves hqueue (Nat.not_lt.mp hmore) (by simpa [hg] using hnext), leaveQueue, hqueue]
      have hrest : rest ≠ [] := by
        rintro rfl
        cases hg
      simpa using hrest

/-! ### The file whose records are all appended (R55, R59) -/

/-- A tally entry as a file leaves it, its state told. -/
theorem leftEntry_eq (today lookback d : Nat) (y : TallyEntry) :
    leftEntry today lookback d y = { y with
      inFlight := y.inFlight - 1
      state := if y.state = .opened ∧ d + lookback < today ∧ y.inFlight - 1 = 0 then .closed else y.state } := by
  unfold leftEntry closingTest
  split <;> rfl

/-- The head file leaves: its pages become FREE and its key's files in flight falls by one. -/
theorem leaveQueue_leaves {s : State} {f : QueuedFile} {rest : List QueuedFile} (h : s.comp.queue = f :: rest) :
    (leaveQueue s).comp.queue = rest ∧ (leaveQueue s).intake.freePages = s.intake.freePages + f.pages ∧
      (leaveQueue s).tallyEntry f.source f.day =
        (s.tallyEntry f.source f.day).map (leftEntry s.ret.today s.lookback f.day) ∧
      s.othersTallied (leaveQueue s) f.source f.day := by
  have hleave : leaveQueue s =
      leaveFlight f.source f.day (freePages f.pages { s with comp := { s.comp with queue := rest } }) := by
    rw [leaveQueue, h]
  rw [hleave]
  exact ⟨by simp, by simp [freePages], leaveFlight_tallyEntry _ _ _, leaveFlight_others _ _ _⟩

/-- The files that leave touch neither the entries nor the builders. -/
theorem dropFinished_views (w : State) :
    (∀ e, (transmitBoth (dropFinished w)).entry e = w.entry e) ∧
      ∀ i, (transmitBoth (dropFinished w)).builder i = w.builder i := by
  simp [State.entry, State.builder]

/-- The builder opened for a key without one is that key's. -/
theorem openBuilder_fills {s : State} (hr : Tbl.rising s.comp.builders = true) {x y b n : Nat}
    (hnone : s.fillingBuilder x y = none) (hb : s.freeBuilder = some b) :
    (openBuilder b n x y s).fillingBuilder x y = some b := by
  have hrising : Tbl.rising (openBuilder b n x y s).comp.builders = true :=
    Tbl.rising_set hr {} b
      { phase := .filling, source := x, day := y, entry := n, bytesUsed := 32, lastAppend := s.second }
  have hbefore := (fillingBuilder_none_iff hr).mp hnone
  cases hfound : (openBuilder b n x y s).fillingBuilder x y with
  | none =>
    have hfills := (fillingBuilder_none_iff hrising).mp hfound b (freeBuilder_some hr hb).1
    rw [openBuilder_builder, if_pos rfl] at hfills
    simp [fillsKey] at hfills
  | some j =>
    obtain ⟨hj, hfills⟩ := fillingBuilder_some hrising hfound
    rw [openBuilder_builder] at hfills
    split at hfills
    · rename_i hjb
      rw [hjb]
    · rw [hbefore j hj] at hfills
      cases hfills

/-! ### An opening that waits for a builder (R62) -/

/-- While the opening waits for a builder, compaction goes no further. -/
theorem runCompaction_openingWaits {s : State} {f : QueuedFile} {rest : List QueuedFile} (hc : s.compacting = true)
    (ho : s.comp.opening = some .builder) (hq : s.comp.queue = f :: rest) (hf : f.appended < f.toAppend)
    (hnone : s.fillingBuilder f.source f.day = none) (hfree : s.freeBuilder = none) : runCompaction s = s := by
  have hdrop : dropFinished s = s := dropFinished_eq (by simpa [hq] using hf)
  have hresolve : resolveOpening s = s := by simp [resolveOpening, ho, hq, hnone, hfree]
  simp [runCompaction, hc, hdrop, hresolve, drainCloses, drainComplete, State.drained, hq]

theorem beginClose_rising {s : State} (hr : Tbl.rising s.comp.builders = true) (b : Nat) :
    Tbl.rising (beginClose b s).comp.builders = true := by
  have hset : (beginClose b s).comp.builders =
      (s.setBuilder b { s.builder b with phase := .closing, failures := 0 }).comp.builders := by simp [beginClose]
  rw [hset]
  exact Tbl.rising_set hr {} b { s.builder b with phase := .closing, failures := 0 }

/-- A close makes no builder FILLING for a key, and none FREE. -/
theorem beginClose_opensNone {s : State} (hr : Tbl.rising s.comp.builders = true) {b n d : Nat}
    (hnone : s.fillingBuilder n d = none) (hfree : s.freeBuilder = none) :
    (beginClose b s).fillingBuilder n d = none ∧ (beginClose b s).freeBuilder = none := by
  rw [fillingBuilder_none_iff (beginClose_rising hr b), freeBuilder_none_iff (beginClose_rising hr b)]
  rw [fillingBuilder_none_iff hr] at hnone
  rw [freeBuilder_none_iff hr] at hfree
  refine ⟨fun i hi => ?_, fun i hi => ?_⟩
  · rw [beginClose_builder]
    split
    · simp [fillsKey]
    · exact hnone i hi
  · rw [beginClose_builder]
    split
    · simp
    · exact hfree i hi

/-- A close that finds a slot lets compaction run on. -/
theorem beginClose_compacting {s : State} {b : Nat} {k : SlotRef} (hk : s.pickSlot none = some k)
    (hc : s.compacting = true) : (beginClose b s).compacting = true := by
  have hask : beginClose b s = giveSlot b k false (s.askingClose b) := by
    rw [beginClose_eq, askSlot, askingClose_pickSlot, hk]
  have hsame : (beginClose b s).compacting = (s.askingClose b).compacting :=
    compacting_congr (by simp [hask]) (by simp [hask])
  exact hsame.trans hc

/-- The head file held, before the fault of its page is raised (R78). -/
def State.headHolds (s : State) : State :=
  { clearFrames s with comp := { s.comp with headHeld := true } }

/-! ### The step (R59, R78) -/

section
variable {f : QueuedFile} {rest : List QueuedFile} {r : Record} {s : State} (ha : s.cat.archive = .service)
  (hs : s.comp.stopped = false) (ho : s.comp.opening = none) (hq : s.comp.queue = f :: rest)
  (hr : f.records[f.appended]? = some r)
include ha hs ho hq hr

/-- APPEND-RECORD reads the head file's next record and appends it, or finds its page in error. -/
theorem exec_appendRecord (ok : Bool) :
    exec (.appendRecord ok) s = .next (transmitBoth
      (if ok then runCompaction (appendNext f r (clearFrames s)) else filePageError f (clearFrames s))) := by
  have hcompacting : (clearFrames s).compacting = true := (compacting_iff s).mpr ⟨ha, hs⟩
  have hexec : exec (.appendRecord ok) s = execAppendRecord ok s := by rfl
  rw [hexec, execAppendRecord, turn_next]
  cases ok <;> simp [appendStep, hq, ho, hr, hcompacting]

/-- The record appended to a builder that is there: to the key's, or to one opened for it. Finished files leave. -/
theorem appendRecord_appends {b : Nat} {u : State} (hnext : appendNext f r (clearFrames s) = appendTo b f.sequence r u)
    (hcat : u.cat = s.cat) (hstopped : u.comp.stopped = s.comp.stopped) (hopening : u.comp.opening = none)
    (hqueue : u.comp.queue = f :: rest) (hd : s.drainsOn f rest) :
    exec (.appendRecord true) s = .next (transmitBoth (dropFinished (appendTo b f.sequence r u))) := by
  have hcompacting : u.compacting = true := (compacting_iff u).mpr ⟨hcat ▸ ha, hstopped.trans hs⟩
  have hdrains : u.drainsOn f rest := fun h => hd (hcat ▸ h)
  rw [exec_appendRecord ha hs ho hq hr, if_pos rfl, hnext, runCompaction_appendTo hcompacting hopening hqueue hdrains]

/-- A record that fits is appended to its key's builder, and with its last record the file leaves (R59, R64). -/
theorem appendRecord_fits {b : Nat} (hd : s.drainsOn f rest) (hb : s.fillingBuilder f.source f.day = some b)
    (hfits : recordFits s.comp.codes (s.builder b) r = true) :
    ∃ t, exec (.appendRecord true) s = .next t ∧ t.builder b = s.appendedBuilder b f.sequence r ∧
      t.entry (s.builder b).entry = s.appendedEntry b f.sequence r ∧
      (∀ e, e ≠ (s.builder b).entry → t.entry e = s.entry e) ∧
      (f.appended + 1 < f.toAppend →
        t.comp.queue = { f with appended := f.appended + 1 } :: rest ∧ t.intake = s.intake) ∧
      (f.toAppend ≤ f.appended + 1 → (∀ g, rest.head? = some g → g.appended < g.toAppend) →
        t.comp.queue = rest ∧ t.intake.freePages = s.intake.freePages + f.pages ∧ t.intake.slots = s.intake.slots ∧
          t.intake.sources = s.intake.sources ∧
          t.tallyEntry f.source f.day = (s.tallyEntry f.source f.day).map (leftEntry s.ret.today s.lookback f.day) ∧
          s.othersTallied t f.source f.day) := by
  have hfound : (clearFrames s).fillingBuilder f.source f.day = some b := hb
  have hroom : recordFits (clearFrames s).comp.codes ((clearFrames s).builder b) r = true := hfits
  have hnext : appendNext f r (clearFrames s) = appendTo b f.sequence r (clearFrames s) := by
    simp only [appendNext, hfound, hroom, if_true]
  refine ⟨_, appendRecord_appends ha hs ho hq hr hnext rfl rfl ho hq hd, ?_⟩
  generalize hw : appendTo b f.sequence r (clearFrames s) = w
  have hbuilder : ∀ i, w.builder i = if i = b then s.appendedBuilder b f.sequence r else s.builder i :=
    fun i => hw ▸ appendTo_builder b f.sequence r (clearFrames s) i
  have hentry : ∀ e, w.entry e = if e = (s.builder b).entry then s.appendedEntry b f.sequence r else s.entry e :=
    fun e => hw ▸ appendTo_entry b f.sequence r (clearFrames s) e
  have hqueue : w.comp.queue = { f with appended := f.appended + 1 } :: rest := hw ▸ appendTo_queue hq
  have hkept : w.intake = s.intake ∧ w.ret = s.ret ∧ w.cat = s.cat := by simp [← hw]
  obtain ⟨hintake, hret, hcat⟩ := hkept
  obtain ⟨hentries, hbuilders⟩ := dropFinished_views w
  refine ⟨?_, ?_, fun e he => ?_, fun hmore => ?_, fun hlast hrest => ?_⟩
  · rw [hbuilders, hbuilder, if_pos rfl]
  · rw [hentries, hentry, if_pos rfl]
  · rw [hentries, hentry, if_neg he]
  · rw [dropFinished_eq (by simpa [hqueue] using hmore)]
    exact ⟨hqueue, hintake⟩
  · rw [dropFinished_leaves hqueue hlast hrest]
    obtain ⟨hleft, hfree, htally, hothers⟩ := leaveQueue_leaves hqueue
    have hslots : (leaveQueue w).intake.slots = s.intake.slots := by simp [hintake]
    have hsources : (leaveQueue w).intake.sources = s.intake.sources := by simp [hintake]
    simp only [State.tallyEntry, State.lookback, State.othersTallied, hintake, hret, hcat] at hfree htally hothers
    exact ⟨hleft, hfree, hslots, hsources, htally, hothers⟩

/-- With no builder for the key one is opened, and the record appended there (R61, R65). -/
theorem appendRecord_opens {b n : Nat} (hd : s.drainsOn f rest) (ht : s.tablesOk = true)
    (hnone : s.fillingBuilder f.source f.day = none) (hb : s.freeBuilder = some b) (hn : s.freeEntryNumber = some n) :
    exec (.appendRecord true) s = .next (transmitBoth (dropFinished
      (appendTo b f.sequence r (openBuilder b n f.source f.day (clearFrames s))))) := by
  have hrising : Tbl.rising (clearFrames s).comp.builders = true := builders_rising_of_tablesOk ht
  have hnoneHere : (clearFrames s).fillingBuilder f.source f.day = none := hnone
  have hbHere : (clearFrames s).freeBuilder = some b := hb
  have hnHere : (clearFrames s).freeEntryNumber = some n := hn
  have hopened := openBuilder_fills (n := n) hrising hnoneHere hbHere
  have hcompacting : (clearFrames s).compacting = true := (compacting_iff s).mpr ⟨ha, hs⟩
  have hstill : (openBuilder b n f.source f.day (clearFrames s)).compacting = true := hcompacting
  have hnext : appendNext f r (clearFrames s) =
      appendTo b f.sequence r (openBuilder b n f.source f.day (clearFrames s)) := by
    simp only [appendNext, hnoneHere, openAndAppend, hcompacting, if_true, tryOpen, hbHere, openOn, hnHere, appendIfOpen,
      hopened, hstill]
  exact appendRecord_appends ha hs ho hq hr hnext rfl rfl rfl hq hd

/-- With every builder in use and none FILLING, the opening waits (R62). -/
theorem appendRecord_waits (hf : f.appended < f.toAppend) (hnone : s.fillingBuilder f.source f.day = none)
    (hfree : s.freeBuilder = none) (holdest : s.oldestFilling = none) :
    exec (.appendRecord true) s = .next (transmitBoth (setOpening (some .builder) (clearFrames s))) := by
  have hcompacting : (clearFrames s).compacting = true := (compacting_iff s).mpr ⟨ha, hs⟩
  have hnoneHere : (clearFrames s).fillingBuilder f.source f.day = none := hnone
  have hfreeHere : (clearFrames s).freeBuilder = none := hfree
  have holdestHere : (setOpening (some .builder) (clearFrames s)).oldestFilling = none := holdest
  have hnoneStill : (setOpening (some .builder) (clearFrames s)).fillingBuilder f.source f.day = none := hnone
  have hnext : appendNext f r (clearFrames s) = setOpening (some .builder) (clearFrames s) := by
    simp only [appendNext, hnoneHere, openAndAppend, hcompacting, if_true, tryOpen, hfreeHere, holdestHere, appendIfOpen,
      hnoneStill]
  rw [exec_appendRecord ha hs ho hq hr, if_pos rfl, hnext,
    runCompaction_openingWaits (s := setOpening (some .builder) (clearFrames s)) hcompacting rfl hq hf hnone hfree]

/-- With every builder in use, the FILLING one longest without an append is closed, and the opening waits (R62). -/
theorem appendRecord_closesOldest {b : Nat} {k : SlotRef} (hf : f.appended < f.toAppend)
    (hnone : s.fillingBuilder f.source f.day = none) (hfree : s.freeBuilder = none) (ht : s.tablesOk = true)
    (holdest : s.oldestFilling = some b) (hk : s.pickSlot none = some k) :
    exec (.appendRecord true) s = .next (transmitBoth (beginClose b (setOpening (some .builder) (clearFrames s)))) := by
  have hrising : Tbl.rising s.comp.builders = true := builders_rising_of_tablesOk ht
  have hcompacting : (clearFrames s).compacting = true := (compacting_iff s).mpr ⟨ha, hs⟩
  have hnoneHere : (clearFrames s).fillingBuilder f.source f.day = none := hnone
  have hfreeHere : (clearFrames s).freeBuilder = none := hfree
  have holdestHere : (setOpening (some .builder) (clearFrames s)).oldestFilling = some b := holdest
  obtain ⟨hnoneStill, hfreeStill⟩ := beginClose_opensNone (b := b) (s := setOpening (some .builder) (clearFrames s)) hrising
    hnone hfree
  have hstill := beginClose_compacting (s := setOpening (some .builder) (clearFrames s)) (b := b) hk hcompacting
  have hnext : appendNext f r (clearFrames s) = beginClose b (setOpening (some .builder) (clearFrames s)) := by
    simp only [appendNext, hnoneHere, openAndAppend, hcompacting, if_true, tryOpen, hfreeHere, holdestHere, appendIfOpen,
      hnoneStill]
  have hopening : (beginClose b (setOpening (some .builder) (clearFrames s))).comp.opening = some .builder := by
    simp [setOpening]
  have hqueue : (beginClose b (setOpening (some .builder) (clearFrames s))).comp.queue = f :: rest := by
    simp [setOpening, hq]
  rw [exec_appendRecord ha hs ho hq hr, if_pos rfl, hnext,
    runCompaction_openingWaits hstill hopening hqueue hf hnoneStill hfreeStill]

/-- A builder that the record does not fit is closed, and the record goes on from there (R65). -/
theorem appendRecord_closesFull {b : Nat} (hb : s.fillingBuilder f.source f.day = some b)
    (hfits : recordFits s.comp.codes (s.builder b) r = false) :
    exec (.appendRecord true) s =
      .next (transmitBoth (runCompaction (openAndAppend f r (beginClose b (clearFrames s))))) := by
  have hfound : (clearFrames s).fillingBuilder f.source f.day = some b := hb
  have hroom : recordFits (clearFrames s).comp.codes ((clearFrames s).builder b) r = false := hfits
  have hnext : appendNext f r (clearFrames s) = openAndAppend f r (beginClose b (clearFrames s)) := by
    simp only [appendNext, hfound, hroom, Bool.false_eq_true, if_false]
  rw [exec_appendRecord ha hs ho hq hr, if_pos rfl, hnext]

/-- A file page that fails its check holds the head file and stops compaction (R78). -/
theorem appendRecord_pageError (hg : s.fault.general.isHeld = false) :
    ∃ t, exec (.appendRecord false) s = .next t ∧ t.comp.headHeld = true ∧ t.comp.stopped = true ∧
      t.fault.general = .held s.fault.counter { kind := .filePageError, file := some (f.source, f.sequence) } ∧
      t.comp.queue = s.comp.queue ∧ t.media = s.media ∧ s.checkpointAbandoned t := by
  refine ⟨_, exec_appendRecord ha hs ho hq hr false, ?_⟩
  have hcomp := (raiseFault_compaction (f := { kind := .filePageError, file := some (f.source, f.sequence) })
    (s := s.headHolds) rfl ha).1
  have hheld := raiseFault_held (f := { kind := .filePageError, file := some (f.source, f.sequence) })
    (s := s.headHolds) ha hg
  have habandoned := raiseFault_abandons (f := { kind := .filePageError, file := some (f.source, f.sequence) })
    (s := s.headHolds) rfl ha hg
  have hqueue : (raiseFault { kind := .filePageError, file := some (f.source, f.sequence) } s.headHolds).comp.queue =
      s.headHolds.comp.queue := by simp
  have hmedia : (raiseFault { kind := .filePageError, file := some (f.source, f.sequence) } s.headHolds).media =
      s.headHolds.media := by simp
  refine ⟨congrArg CompactionUnit.headHeld hcomp, congrArg CompactionUnit.stopped hcomp, hheld, hqueue,
    hmedia, ?_⟩
  exact checkpointAbandoned_congr (u := s.headHolds) rfl
    (fun q => isLive_congr q (by cases q.port <;> rfl)) habandoned

end

end Sys2Proof.Machine
end

