-- ==== Sys2Proof/Proofs/CloseStands.lean ====
section
/-!
PROOFS. Proofs/CloseStands.lean: a close that was given its slot stands, whatever compaction does next (R66, R67); O32.
-/

namespace Sys2Proof.Machine
open Sys2Proof

/-- Builder `b` stands as `v`, slot `k` is USED and the operation `w` is asked of its channel. -/
structure State.closeStands (s : State) (b : Nat) (v : Builder) (k : SlotRef) (w : Op) : Prop where
  rising : Tbl.rising s.comp.builders = true
  builder : s.builder b = v
  slot : s.slotState k = .used
  write : w ∈ s.asked k.channel

section
variable {s : State} {b : Nat} {v : Builder} {k : SlotRef} {w : Op}

/-- Only the builders and the channels count. -/
theorem State.closeStands.congr {t : State} (h : s.closeStands b v k w) (hb : t.comp.builders = s.comp.builders)
    (hc : t.media.channels = s.media.channels) : t.closeStands b v k w := by
  obtain ⟨hrising, hbuilder, hslot, hwrite⟩ := h
  refine ⟨hb ▸ hrising, ?_, ?_, ?_⟩
  · rw [State.builder, hb]
    exact hbuilder
  · rw [State.slotState, State.channel, hc]
    exact hslot
  · rw [State.asked, State.channel, hc]
    exact hwrite

theorem State.closeStands.setBuilder (h : s.closeStands b v k w) {i : Nat} (hi : i ≠ b) (x : Builder) :
    (s.setBuilder i x).closeStands b v k w := by
  obtain ⟨hrising, hbuilder, hslot, hwrite⟩ := h
  exact ⟨Tbl.rising_set hrising {} i x, by rw [State.setBuilder_builder_ne _ _ _ hi.symm, hbuilder], hslot, hwrite⟩

theorem State.closeStands.askOp (h : s.closeStands b v k w) (c : Nat) (op : Op) :
    (askOp c op s).closeStands b v k w := by
  obtain ⟨hrising, hbuilder, hslot, hwrite⟩ := h
  have hcomp : (Machine.askOp c op s).comp = s.comp := by simp
  refine ⟨hcomp ▸ hrising, ?_, by rw [askOp_slotState, hslot], askOp_asked_mono c op hwrite⟩
  rw [State.builder, hcomp]
  exact hbuilder

theorem State.closeStands.giveSlot (h : s.closeStands b v k w) (i : Nat) (r : SlotRef) (retry : Bool) :
    (giveSlot i r retry s).closeStands b v k w := by
  obtain ⟨hrising, hbuilder, hslot, hwrite⟩ := h
  obtain ⟨-, hslots, -, hasked, -⟩ := giveSlot_spec i r retry s
  have hcomp : (Machine.giveSlot i r retry s).comp = s.comp := by simp
  refine ⟨hcomp ▸ hrising, ?_, ?_, hasked _ _ hwrite⟩
  · rw [State.builder, hcomp]
    exact hbuilder
  · rw [hslots, hslot, ite_self]

/-- The close of another builder. -/
theorem State.closeStands.beginClose (h : s.closeStands b v k w) {i : Nat} (hi : i ≠ b) :
    (beginClose i s).closeStands b v k w := by
  have hasking : (s.askingClose i).closeStands b v k w := (h.setBuilder hi _).congr rfl rfl
  rw [beginClose_eq, askSlot]
  split
  · exact hasking.giveSlot _ _ _
  · exact hasking.congr (by simp) (by simp)

section
variable (hv : v.phase = .closing)
include hv

/-- A builder found FREE or FILLING is another one than a builder CLOSING. -/
theorem State.closeStands.other (h : s.closeStands b v k w) {i : Nat} (hi : (s.builder i).phase ≠ .closing) : i ≠ b := by
  rintro rfl
  exact hi (by rw [h.builder, hv])

theorem State.closeStands.openOn (h : s.closeStands b v k w) {i : Nat} (hi : s.freeBuilder = some i) (n d : Nat) :
    (openOn i n d s).closeStands b v k w := by
  have hother : i ≠ b := h.other hv (by simp [(freeBuilder_some h.rising hi).2])
  unfold Machine.openOn
  split
  · exact (h.setBuilder hother _).congr rfl rfl
  · split
    · exact h.congr rfl rfl
    · exact h.congr (by simp [setOpening]) (by simp [setOpening])

theorem State.closeStands.tryOpen (h : s.closeStands b v k w) (n d : Nat) : (tryOpen n d s).closeStands b v k w := by
  have hwaits : (setOpening (some .builder) s).closeStands b v k w := h.congr rfl rfl
  unfold Machine.tryOpen
  split
  · rename_i i hi
    exact h.openOn hv hi n d
  · dsimp only
    split
    · exact hwaits
    · rename_i i hi
      exact hwaits.beginClose (hwaits.other hv (by simp [oldestFilling_filling hwaits.rising hi]))

theorem State.closeStands.resolveOpening (h : s.closeStands b v k w) : (resolveOpening s).closeStands b v k w := by
  unfold Machine.resolveOpening
  split
  · exact h
  · exact h
  · exact h.congr rfl rfl
  · split
    · exact h.congr rfl rfl
    · rename_i i _ hi
      exact h.openOn hv hi _ _
    · exact h

theorem State.closeStands.openAndAppend (h : s.closeStands b v k w) (f : QueuedFile) (r : Record) :
    (openAndAppend f r s).closeStands b v k w := by
  have htried := h.tryOpen hv f.source f.day
  unfold Machine.openAndAppend
  split
  · unfold appendIfOpen
    split
    · exact htried
    · rename_i i hi
      split
      · have hfilling := fillingBuilder_filling htried.rising hi
        exact (htried.setBuilder (htried.other hv (by simp [hfilling])) _).congr (appendTo_builders ..) (by simp)
      · exact htried
  · exact h

theorem State.closeStands.closeBuilders (h : s.closeStands b v k w) (p : Builder → Bool) :
    (closeBuilders p s).closeStands b v k w := by
  refine foldl_inv (fun t : State => t.closeStands b v k w) _ (fun t i ht => ?_) _ s h
  split
  · rename_i hi
    simp only [Bool.and_eq_true, decide_eq_true_eq] at hi
    exact ht.beginClose (ht.other hv (by simp [hi.1.2]))
  · exact ht

/-- Whatever compaction goes on to do. -/
theorem State.closeStands.runCompaction (h : s.closeStands b v k w) : (runCompaction s).closeStands b v k w := by
  have hdropped : (dropFinished s).closeStands b v k w := h.congr (by simp) (by simp)
  have hresolved := hdropped.resolveOpening hv
  have hclosed : (drainCloses (Machine.resolveOpening (dropFinished s))).closeStands b v k w := by
    unfold drainCloses
    split
    · exact hresolved.closeBuilders hv _
    · exact hresolved
  unfold Machine.runCompaction
  split
  · unfold drainComplete
    split
    · unfold beginWriting writeImage
      exact foldl_inv (fun t : State => t.closeStands b v k w) _ (fun t _ ht => ht.askOp _ _) _ _ (hclosed.congr rfl rfl)
    · exact hclosed
  · exact h

end

end

/-- A close that finds a slot stands. -/
theorem beginClose_closeStands {s : State} (hr : Tbl.rising s.comp.builders = true) {b : Nat} {k : SlotRef}
    (hk : s.pickSlot none = some k) :
    (beginClose b s).closeStands b { s.builder b with phase := .closing, failures := 0 } k
      (builderWrite b (s.builder b) k.slot) := by
  obtain ⟨hbuilder, -, hslot, -, hwrite⟩ := beginClose_slot (b := b) hk
  exact ⟨beginClose_rising hr b, hbuilder, hslot, hwrite⟩

/-! ### O32 -/

section
variable {f : QueuedFile} {rest : List QueuedFile} {r : Record} {s : State} (ha : s.cat.archive = .service)
  (hs : s.comp.stopped = false) (ho : s.comp.opening = none) (hq : s.comp.queue = f :: rest)
  (hr : f.records[f.appended]? = some r)
include ha hs ho hq hr

/-- A builder that the record does not fit is closed, and given a slot where there is one (R65). -/
theorem appendRecord_closes {b : Nat} {k : SlotRef} (ht : s.tablesOk = true)
    (hb : s.fillingBuilder f.source f.day = some b) (hfits : recordFits s.comp.codes (s.builder b) r = false)
    (hk : s.pickSlot none = some k) :
    ∃ t, exec (.appendRecord true) s = .next t ∧
      t.builder b = { s.builder b with phase := .closing, failures := 0 } ∧ t.slotState k = .used ∧
      builderWrite b (s.builder b) k.slot ∈ t.asked k.channel := by
  refine ⟨_, appendRecord_closesFull ha hs ho hq hr hb hfits, ?_⟩
  have hrising : Tbl.rising (clearFrames s).comp.builders = true := builders_rising_of_tablesOk ht
  have hbegan := beginClose_closeStands (s := clearFrames s) (b := b) (k := k) hrising hk
  obtain ⟨-, hbuilder, hslot, hwrite⟩ := (hbegan.openAndAppend rfl f r).runCompaction rfl
  exact ⟨hbuilder, hslot, hwrite⟩

/-- A builder opened for the key takes the record, and its entry with it (R61, R65). -/
theorem appendRecord_appendsOpened {b n : Nat} (hd : s.drainsOn f rest) (ht : s.tablesOk = true)
    (hnone : s.fillingBuilder f.source f.day = none) (hb : s.freeBuilder = some b) (hn : s.freeEntryNumber = some n) :
    ∃ t, exec (.appendRecord true) s = .next t ∧
      t.builder b = (openBuilder b n f.source f.day s).appendedBuilder b f.sequence r ∧
      t.entry n = (openBuilder b n f.source f.day s).appendedEntry b f.sequence r ∧
      (∀ e, e ≠ n → t.entry e = s.entry e) ∧ ∀ i, i ≠ b → t.builder i = s.builder i := by
  refine ⟨_, appendRecord_opens ha hs ho hq hr hd ht hnone hb hn, ?_⟩
  generalize hu : openBuilder b n f.source f.day (clearFrames s) = u
  have hopened : (u.builder b).entry = n := by rw [← hu, openBuilder_builder, if_pos rfl]
  obtain ⟨hentries, hbuilders⟩ := dropFinished_views (appendTo b f.sequence r u)
  simp only [hentries, hbuilders, appendTo_entry, appendTo_builder, hopened, if_true]
  subst hu
  refine ⟨rfl, rfl, fun e he => ?_, fun i hi => ?_⟩
  · rw [if_neg he, openBuilder_entry, if_neg he]
    rfl
  · rw [if_neg hi, openBuilder_builder, if_neg hi]
    rfl

end

/-- Settles O32, by what APPEND-RECORD finds: a builder the record fits, none, every builder in use, a builder the record does
not fit, or a page in error. -/
theorem recordsAreAppended : Obligations.RecordsAreAppended := by
  intro f rest r s ha hs ho hq hr
  refine ⟨fun b hd hb hfits => ?_, fun b n hd ht hnone hb hn => ?_,
    fun hf hnone hfree => ⟨fun holdest => ?_, fun b k ht holdest hk => ?_⟩,
    fun b k ht hb hfits hk => appendRecord_closes ha hs ho hq hr ht hb hfits hk,
    appendRecord_pageError ha hs ho hq hr⟩
  · obtain ⟨t, hexec, hbuilder, hentry, hothers, hmore, hlast⟩ := appendRecord_fits ha hs ho hq hr hd hb hfits
    refine ⟨t, hexec, hbuilder, hentry, hothers, hmore, fun hfinal hrest => ?_⟩
    obtain ⟨hqueue, hfree, hslots, hsources, htally, hkeys⟩ := hlast hfinal hrest
    refine ⟨hqueue, hfree, hslots, hsources, fun y hy => ?_, hkeys⟩
    rw [htally, hy, Option.map_some, leftEntry_eq]
  · obtain ⟨t, hexec, hbuilder, hentry, hentries, hbuilders⟩ := appendRecord_appendsOpened ha hs ho hq hr hd ht hnone hb hn
    refine ⟨t, hexec, ?_, ?_, hentries, hbuilders⟩
    · rw [hbuilder]
      simp [State.appendedBuilder, openBuilder_builder, spanAfter]
    · rw [hentry]
      simp [State.appendedEntry, openBuilder_builder, openBuilder_entry, spanAfter]
  · exact ⟨_, appendRecord_waits ha hs ho hq hr hf hnone hfree holdest, rfl, rfl, rfl⟩
  · refine ⟨_, appendRecord_closesOldest ha hs ho hq hr hf hnone hfree ht holdest hk, ?_⟩
    have hbegan := beginClose_slot (s := setOpening (some .builder) (clearFrames s)) (b := b) (k := k) hk
    generalize hw : beginClose b (setOpening (some .builder) (clearFrames s)) = w at hbegan
    have hopening : w.comp.opening = some .builder := by simp [← hw, setOpening]
    have hqueue : w.comp.queue = s.comp.queue := by simp [← hw, setOpening]
    exact ⟨hopening, hqueue, hbegan⟩

end Sys2Proof.Machine
end

