-- ==== Sys2Proof/Proofs/ResetLaws.lean ====
section
/-!
PROOFS. Proofs/ResetLaws.lean: the part before its first power-up keeps every law: its tables are empty, so each law speaks
of default values alone (log 3).
-/
namespace Sys2Proof.Machine
open Sys2Proof

/-- No entry has a slot, no slot is USED, and neither a load nor a Format runs. -/
theorem slotMapLaw_reset : State.reset.slotMapLaw := by
  refine ⟨nofun, nofun, ⟨fun b hb => absurd rfl hb, ?_, nofun, List.nodup_nil⟩, fun c => ⟨nofun, List.Pairwise.nil⟩,
    fun _ => ⟨⟨fun _ => rfl, nofun, nofun⟩, nofun⟩⟩
  rintro b (hb | hb)
  · cases hb
  · cases hb

/-- Every code's count is 0, and no entry uses a code. -/
theorem codesLaw_reset : State.reset.codesLaw :=
  ⟨fun _ => rfl, fun _ _ => rfl, fun _ => ⟨List.Pairwise.nil, fun _ => rfl⟩, nofun⟩

theorem gapLaw_reset : State.reset.gapLaw :=
  ⟨fun _ => rfl, fun _ => (by decide : (0 : Nat) < 65536)⟩

/-- Settles O4: the tables are empty, so every law holds of the default values. -/
theorem lawsHoldAtReset : Obligations.LawsHoldAtReset :=
  ⟨rfl, rfl, by decide, rfl, rfl, rfl, slotMapLaw_reset, codesLaw_reset, gapLaw_reset, rfl, rfl, rfl,
    fun p => by cases p <;> exact ⟨rfl, rfl⟩, fun _ => rfl, rfl, rfl, rfl⟩

end Sys2Proof.Machine
end

