-- ==== Sys2Proof/Proofs/StatusAndChannels.lean ====
section
/-!
PROOFS. Proofs/StatusAndChannels.lean: READ-CHANNEL and STATUS. A STATUS body counts the port's outstanding requests, its own
among them, and reads nothing else of the links (O20).
-/

namespace Sys2Proof.Machine
open Sys2Proof

/-- Of the links a STATUS body reads one list of outstanding requests (R199). -/
theorem statusBody_eq (p : Port) (s : State) :
    statusBody p s = statusBody p (s.beside.setLink p { outstanding := (s.link p).outstanding }) := by
  cases p <;> rfl

/-- A STATUS is answered with its own request among those outstanding (R199). -/
theorem statusBody_taken (p : Port) (tag kind : Nat) (s : State) :
    statusBody p (taken s p tag kind) = statusBody p (enter p tag kind s) := by
  have hbeside : (taken s p tag kind).beside = (enter p tag kind s).beside := by simp
  have hlist : ((taken s p tag kind).link p).outstanding = ((enter p tag kind s).link p).outstanding := by simp [enter]
  rw [statusBody_eq, hbeside, hlist, ← statusBody_eq]

theorem status_answers {s : State} {p : Port} {tag : Nat} (ha : s.admits p tag = true) :
    answersReading (.status p tag) s p tag 1 [] (statusBody p (enter p tag 1 s)) := by
  have hexec : exec (.status p tag) s =
      .next (transmitBoth (answer (refOf s p tag 1) .ok (statusBody p (taken s p tag 1)) (taken s p tag 1))) :=
    request_admitted ha 1 rfl _
  refine ⟨_, hexec, by simp, ?_⟩
  rw [statusBody_taken]
  exact answer_replied (taken_isLive s p tag 1) .ok _

/-- 5 bytes in LOADING and FORMATTING, and 45 otherwise (R203). -/
theorem statusBody_length (p : Port) (s : State) :
    (statusBody p s).length = if s.cat.archive = .loading ∨ s.cat.archive = .formatting then 5 else 45 := by
  unfold statusBody
  split
  · simp
  · simp

/-- Either body begins with the archive state's code. -/
theorem statusBody_head (p : Port) (s : State) :
    (statusBody p s).head? = some (BitVec.ofNat 8 (archiveCode s.cat.archive)) := by
  unfold statusBody
  split
  · simp [be]
  · simp [be]

/-- Settles O20: READ-CHANNEL as the read requests before it, STATUS by what its body reads of the links. -/
theorem statusAndChannelsAreRead : Obligations.StatusAndChannelsAreRead := by
  intro p tag s ha
  have hchannel : ∀ c, decide (c < Config.channels) = decide (c ≤ 7) := fun c => decide_eq_decide.mpr Nat.lt_succ_iff
  refine ⟨fun c => ?_, status_answers ha, statusBody_length p s, statusBody_head p s⟩
  exact answersReading_of_beside
    (checks := fun u => [(u.serviceOrHalted, .wrongState), (decide (c < Config.channels), .badField)])
    (body := channelBody c) ha rfl (fun _ => rfl) (fun _ => rfl) (by rw [serviceOrHalted_eq, hchannel])

end Sys2Proof.Machine
end

