-- ==== Sys2Proof/Proofs/Timeouts.lean ====
section
/-!
PROOFS. Proofs/Timeouts.lean: an operation that ran 2 s ends as its requester's FAIL, and one whose result is discarded
touches nothing beside its channel and its slot's contents (R97, R99, R120): O35.
-/

namespace Sys2Proof.Machine
open Sys2Proof

/-! ### The end of the operation in progress -/

/-- An event given to the operation in progress is that operation's when its requester expects it. -/
theorem onOp_current {s : State} {c : Nat} {op : Op} (h : (s.channel c).current = some op) {p : Op → Bool}
    (hp : p op = true) (act : Op → State → State) : onOp c p act s = act op s := by
  simp only [onOp, h, hp, if_true]

/-- A channel with an operation in progress has started it. -/
theorem current_started {ch : Channel} {op : Op} (h : ch.current = some op) : ∃ k, ch.started = some k := by
  unfold Channel.current at h
  split at h
  · rename_i hstarted
    exact Option.isSome_iff_exists.mp hstarted
  · cases h

/-- What an operation that ends leaves beside its slot's contents. -/
theorem leaveInSlot_eq (c : Nat) (op : Op) (ok : Bool) (s : State) :
    ∃ held, leaveInSlot c op ok s = { s with media := { s.media with flash := held } } := by
  unfold leaveInSlot
  repeat' split
  all_goals exact ⟨_, rfl⟩

/-- What an operation leaves in the flash (log 8). -/
theorem leaveInSlot_flashAt (c : Nat) (op : Op) (ok : Bool) (s : State) :
    (∀ d k, d * 8192 + k ≠ c * 8192 + op.slot → (leaveInSlot c op ok s).flashAt d k = s.flashAt d k) ∧
      (leaveInSlot c op ok s).flashAt c op.slot =
        if op.kind = .read ∨ op.kind = .catalogRead then s.flashAt c op.slot
        else if ok = true then op.data else .unknown := by
  have hwrites : ∀ v, (∀ d k, d * 8192 + k ≠ c * 8192 + op.slot → (s.setFlash c op.slot v).flashAt d k = s.flashAt d k) ∧
      (s.setFlash c op.slot v).flashAt c op.slot = v := fun v =>
    ⟨fun d k hne => Tbl.get_set_ne _ _ _ hne, Tbl.get_set_same ..⟩
  unfold leaveInSlot
  split
  · rename_i hk
    exact ⟨fun _ _ _ => rfl, by rw [hk]; rfl⟩
  · rename_i hk
    exact ⟨fun _ _ _ => rfl, by rw [hk]; rfl⟩
  · rename_i hread hcatalog
    rw [if_neg (not_or.mpr ⟨hread, hcatalog⟩)]
    exact hwrites _

theorem refill_setMode (ch : Channel) : ch.refill.setMode = ch.setMode := by
  refine foldl_inv (fun c : Channel => c.setMode = ch.setMode) (fun c (_ : Nat) => c.refillOne) (fun c _ hc => ?_)
    (List.range ch.outside.length) ch rfl
  rw [← hc]
  unfold Channel.refillOne Channel.join
  repeat' split
  all_goals rfl

theorem refill_none {ch : Channel} (h : ch.outside = []) : ch.refill = ch := by
  rw [Channel.refill, h]
  rfl

/-- The channel as the operation in progress has left it, and the next one not yet started. -/
theorem endOp_channel (c : Nat) (s : State) :
    ((endOp c s).channel c).setMode = (s.channel c).setMode ∧
      ((s.channel c).outside = [] → ((endOp c s).channel c).queue = (s.channel c).queue.tail) := by
  obtain ⟨ch, hch⟩ : ∃ ch : Channel, ch = { s.channel c with queue := (s.channel c).queue.tail, started := none } :=
    ⟨_, rfl⟩
  rw [endOp, State.setChannel_channel_same, ← hch]
  split
  · refine ⟨(refill_setMode ch).trans (by rw [hch]), fun ho => ?_⟩
    rw [refill_none (by rw [hch]; exact ho), hch]
  · rw [hch]
    exact ⟨rfl, fun _ => rfl⟩

/-- What the end of a turn leaves of the channels (R96). -/
theorem endTurn_channel (c : Nat) (s : State) :
    (∀ d, d ≠ c → (endTurn c s).channel d = s.channel d) ∧
      (∀ k, ((endTurn c s).channel c).slot k = (s.channel c).slot k) ∧
      ((endTurn c s).channel c).setMode = (s.channel c).setMode ∧
      ((s.channel c).outside = [] → ((endTurn c s).channel c).queue = (s.channel c).queue.tail) := by
  obtain ⟨hmode, hqueue⟩ := endOp_channel c s
  obtain ⟨-, -, hslots⟩ := endTurn_rest c s
  refine ⟨fun d hd => ?_, fun k => hslots { channel := c, slot := k }, ?_, fun ho => ?_⟩
  · exact (startNext_channel_ne hd _).trans (State.setChannel_channel_ne _ _ _ hd)
  · have hstart : ((startNext c (endOp c s)).channel c).setMode = ((endOp c s).channel c).setMode := by
      rw [startNext]
      split
      · rw [State.setChannel_channel_same]
      · rfl
    exact hstart.trans hmode
  · exact (startNext_channel c c (endOp c s)).1.trans (hqueue ho)

/-- What an Eraser erase that times out raises (R120). -/
def Op.eraseFault (op : Op) (c : Nat) : FaultInfo :=
  { kind := .eraseTimeout, segment := op.entry, slot := some { channel := c, slot := op.slot } }

/-- What a builder's write that times out raises (R69, R97). -/
def State.writeFault (s : State) (c : Nat) (op : Op) (b : Nat) : FaultInfo :=
  { kind := .segmentWriteFailed, segment := some (s.builder b).entry, slot := some { channel := c, slot := op.slot },
    retries := (s.builder b).failures + 1 }

section
variable {c : Nat} {op : Op} {s : State} (hp : s.inProgress c op = true)
include hp

theorem cleared_current : ((clearFrames s).channel c).current = some op := of_decide_eq_true hp

/-- CHANNEL_TIMEOUT of an operation that ran 2 s is the timeout of its requester (R97). -/
theorem exec_channelTimeout (hran : s.ranOut c) :
    exec (.channelTimeout c) s = .next (transmitBoth (timeOut c op (clearFrames s))) := by
  have hexec : exec (.channelTimeout c) s = execChannelTimeout c s := by rfl
  obtain ⟨k, hstarted⟩ := current_started (cleared_current hp)
  have hover : (clearFrames s).overLimit c = true := by
    have hlimit := hran k hstarted
    simpa [State.overLimit, hstarted, Config.operationLimit] using hlimit
  rw [hexec, execChannelTimeout, turn_next, if_pos hover, onOp_current (cleared_current hp) rfl]

/-- OPERATION_END_DISCARDED of an operation whose result is discarded (R99). -/
theorem exec_operationEndDiscarded (hr : op.requester = .discarded) (ok : Bool) :
    exec (.operationEndDiscarded c ok) s = .next (transmitBoth (discardedEnds c op ok (clearFrames s))) := by
  have hexec : exec (.operationEndDiscarded c ok) s = execOperationEndDiscarded c ok s := by rfl
  rw [hexec, execOperationEndDiscarded, turn_next, onOp_current (cleared_current hp) (by simp [isDiscarded, hr])]

/-! ### Timeouts as their requester's FAIL (R97) -/

theorem timeout_discarded (hran : s.ranOut c) (hr : op.requester = .discarded) :
    exec (.channelTimeout c) s = exec (.operationEndDiscarded c false) s := by
  rw [exec_channelTimeout hp hran, exec_operationEndDiscarded hp hr]
  simp only [timeOut, hr]

theorem timeout_audit (hran : s.ranOut c) (hr : op.requester = .audit) (hk : op.kind = .read)
    (hjob : s.audit.job.isSome = true) :
    exec (.channelTimeout c) s =
      if s.jobIs true = true then exec (.verifyReadComplete c .fail) s else exec (.reconcileReadComplete c .fail) s := by
  have hread : isAuditRead op = true := by simp [isAuditRead, hr, hk]
  have hverify : exec (.verifyReadComplete c .fail) s = execVerifyReadComplete c .fail s := by rfl
  have hreconcile : exec (.reconcileReadComplete c .fail) s = execReconcileReadComplete c .fail s := by rfl
  have hsame : ∀ v, (clearFrames s).jobIs v = s.jobIs v := fun _ => rfl
  rw [exec_channelTimeout hp hran]
  simp only [timeOut, hr]
  split
  · rename_i hv
    rw [hverify, execVerifyReadComplete, turn_next, if_pos ((hsame true).trans hv),
      onOp_current (cleared_current hp) hread]
  · rename_i hv
    have hother : s.jobIs false = true := by
      obtain ⟨j, hj⟩ := Option.isSome_iff_exists.mp hjob
      simp only [State.jobIs, hj] at hv ⊢
      split at hv
      · exact absurd rfl hv
      · rfl
    rw [hreconcile, execReconcileReadComplete, turn_next, if_pos ((hsame false).trans hother),
      onOp_current (cleared_current hp) hread]

theorem timeout_cursor (hran : s.ranOut c) {k : Nat} (hr : op.requester = .cursor k) (hk : op.kind = .read) :
    exec (.channelTimeout c) s = exec (.cursorReadComplete c .fail []) s := by
  have hexec : exec (.cursorReadComplete c .fail []) s = execCursorReadComplete c .fail [] s := by rfl
  rw [exec_channelTimeout hp hran, hexec, execCursorReadComplete, turn_next,
    onOp_current (cleared_current hp) (by simp [isCursorRead, hr, hk])]
  simp only [timeOut, hr]

theorem timeout_load (hran : s.ranOut c) (hr : op.requester = .load) (hk : op.kind = .catalogRead) :
    exec (.channelTimeout c) s = exec (.catalogReadComplete c .fail) s := by
  have hexec : exec (.catalogReadComplete c .fail) s = execCatalogReadComplete c .fail s := by rfl
  rw [exec_channelTimeout hp hran, hexec, execCatalogReadComplete, turn_next,
    onOp_current (cleared_current hp) (by simp [isLoadRead, hr, hk])]
  simp only [timeOut, hr]

theorem timeout_format (hran : s.ranOut c) (hr : op.requester = .format) (hk : op.kind = .erase) :
    exec (.channelTimeout c) s = exec (.formatEraseComplete c false) s := by
  have hexec : exec (.formatEraseComplete c false) s = execFormatEraseComplete c false s := by rfl
  rw [exec_channelTimeout hp hran, hexec, execFormatEraseComplete, turn_next,
    onOp_current (cleared_current hp) (by simp [isFormatErase, hr, hk])]
  simp only [timeOut, hr]

theorem timeout_share (hran : s.ranOut c) (hr : op.requester = .catalog) (hk : op.kind = .catalogWrite)
    (ha : s.cat.archive = .service) (hw : s.cat.state = .writing) (hc : s.cat.channel = some c) :
    exec (.channelTimeout c) s = exec .catalogWriteFail s := by
  have hexec : exec .catalogWriteFail s = execCatalogWriteFail s := by rfl
  have hchannel : (clearFrames s).cat.channel.getD 0 = c := by
    have hsame : (clearFrames s).cat.channel = s.cat.channel := rfl
    rw [hsame, hc, Option.getD_some]
  have hservice : (clearFrames s).cat.archive ≠ .formatting := by
    have hsame : (clearFrames s).cat.archive = s.cat.archive := rfl
    rw [hsame, ha]
    nofun
  rw [exec_channelTimeout hp hran, hexec, execCatalogWriteFail, turn_next]
  simp only [hchannel]
  rw [if_pos (show (clearFrames s).cat.state = .writing from hw),
    onOp_current (cleared_current hp) (by simp [isShareWrite, hr, hk])]
  simp only [timeOut, hr, catalogWriteTimesOut, if_neg hservice]

theorem timeout_firstImage (hran : s.ranOut c) (hr : op.requester = .catalog) (hk : op.kind = .catalogWrite)
    (ha : s.cat.archive = .formatting) {f : FormatOp} (hf : s.cat.format = some f) (hi : f.phase = .image)
    (hc : f.channel = c) : exec (.channelTimeout c) s = exec (.formatImageWriteComplete false) s := by
  have hexec : exec (.formatImageWriteComplete false) s = execFormatImageWriteComplete false s := by rfl
  have hwriting : (clearFrames s).writingFirstImage = some c := by
    have hsame : (clearFrames s).cat.format = s.cat.format := rfl
    simp only [State.writingFirstImage, hsame, hf, hi, if_true, hc]
  have hformatting : (clearFrames s).cat.archive = .formatting := ha
  rw [exec_channelTimeout hp hran, hexec, execFormatImageWriteComplete, turn_next]
  simp only [hwriting]
  rw [onOp_current (cleared_current hp) (by simp [isShareWrite, hr, hk])]
  simp only [timeOut, hr, catalogWriteTimesOut, if_pos hformatting]

/-! ### The Eraser's erase (R120) -/

/-- An Eraser erase that times out stops the Eraser, with the entry and the slot as they were. -/
theorem eraserTimesOut (hr : op.requester = .eraser) (hran : s.ranOut c) (ha : s.cat.archive = .service)
    (hh : s.fault.media.isHeld = false) :
    ∃ t, exec (.channelTimeout c) s = .next t ∧ t.ret.eraserStopped = true ∧ t.eraseOn c = none ∧
      t.media.dir = s.media.dir ∧
      t.slotState { channel := c, slot := op.slot } = s.slotState { channel := c, slot := op.slot } ∧
      t.fault.media = .held s.fault.counter
        { kind := .eraseTimeout, segment := op.entry, slot := some { channel := c, slot := op.slot } } := by
  obtain ⟨held, hleft⟩ := leaveInSlot_eq c op false (clearFrames s)
  obtain ⟨f, hf⟩ : ∃ f, f = op.eraseFault c := ⟨_, rfl⟩
  have hkind : f.kind = .eraseTimeout := by rw [hf]; rfl
  obtain ⟨u, hu⟩ : ∃ u, u = endErase c (leaveInSlot c op false (clearFrames s)) := ⟨_, rfl⟩
  have hends : timeOut c op (clearFrames s) = startNext c (endOp c (raiseFault f u)) := by
    simp only [timeOut, hr, eraseTimesOut, complete, timeoutErase, hf, hu, Op.eraseFault]
  have hservice : u.cat.archive = .service := by rw [hu, hleft]; exact ha
  have hcontext : (u.contextOf f.kind).isHeld = false := by
    rw [hu, hleft, hkind]
    exact hh
  have hheld := raiseFault_held hservice hcontext
  have hstops : (raiseFault f u).ret.eraserStopped = true := by
    simp only [raiseFault, hservice, ne_eq, not_true_eq_false, if_false, hcontext, Bool.false_eq_true]
    simp [hkind, stopEngine]
  obtain ⟨hfault, -, hslot⟩ := endTurn_rest c (raiseFault f u)
  obtain ⟨-, hret, -⟩ := endTurn_keeps c (raiseFault f u)
  have hmedia : (raiseFault f u).media = u.media := by simp
  refine ⟨endTurn c (raiseFault f u), by rw [exec_channelTimeout hp hran, hends, endTurn], ?_, ?_, ?_, ?_, ?_⟩
  · rw [hret, hstops]
  · have herasing : (raiseFault f u).ret.erasing = Tbl.drop s.ret.erasing c := by
      have hkept : (raiseFault f u).ret.erasing = u.ret.erasing := by simp
      rw [hkept, hu, hleft]
      rfl
    rw [State.eraseOn, hret, herasing]
    exact Tbl.find_drop_same _ _
  · have hdir : (endTurn c (raiseFault f u)).media.dir = (raiseFault f u).media.dir := by simp [endTurn]
    rw [hdir, hmedia, hu, hleft]
    rfl
  · rw [hslot, State.slotState, State.channel, hmedia, hu, hleft]
    rfl
  · have hmediaContext : ∀ v : State, v.fault.media = v.contextOf f.kind := fun v => by
      rw [hkind]
      rfl
    have hsame : (endTurn c (raiseFault f u)).contextOf f.kind = (raiseFault f u).contextOf f.kind := by
      rw [State.contextOf, hfault]
      rfl
    have hcounter : u.fault.counter = s.fault.counter := by rw [hu, hleft]; rfl
    rw [hmediaContext, hsame, hheld, hcounter, hf, Op.eraseFault]

/-! ### A builder's write (R69, R97) -/

/-- A builder's write that times out raises SEGMENT-WRITE-FAILED whatever its failures. -/
theorem builderTimesOut {b : Nat} (hr : op.requester = .builder b) (hran : s.ranOut c)
    (ha : s.cat.archive = .service) (hh : s.fault.media.isHeld = false) :
    ∃ t, exec (.channelTimeout c) s = .next t ∧ (t.builder b).failures = (s.builder b).failures + 1 ∧
      t.slotState { channel := c, slot := op.slot } = .defective ∧
      t.entry (s.builder b).entry = s.givenUp b ∧ t.comp.stopped = true ∧ s.checkpointAbandoned t ∧
      t.fault.media = .held s.fault.counter
        { kind := .segmentWriteFailed, segment := some (s.builder b).entry,
          slot := some { channel := c, slot := op.slot }, retries := (s.builder b).failures + 1 } := by
  obtain ⟨held, hleft⟩ := leaveInSlot_eq c op false (clearFrames s)
  obtain ⟨f, hf⟩ : ∃ f, f = s.writeFault c op b := ⟨_, rfl⟩
  have hkind : f.kind = .segmentWriteFailed := by rw [hf]; rfl
  obtain ⟨w, hw⟩ : ∃ w, w = countFailure b { channel := c, slot := op.slot } (leaveInSlot c op false (clearFrames s)) :=
    ⟨_, rfl⟩
  have hcounted : w.builder b = { s.builder b with failures := (s.builder b).failures + 1 } := by
    rw [hw, hleft]
    exact Tbl.get_set_same ..
  have hends : timeOut c op (clearFrames s) =
      startNext c (endOp c (raiseFault f (toFilling (s.builder b).entry w))) := by
    simp only [timeOut, hr, complete, failSegment, Bool.true_or, if_true, ← hw, failAtLimit, hcounted, hf,
      State.writeFault]
  obtain ⟨u, hu⟩ : ∃ u, u = toFilling (s.builder b).entry w := ⟨_, rfl⟩
  have hdir : u.media.dir = (s.failedBack c op b).media.dir := by
    rw [hu, hw, hleft, State.failedBack, failed_entryNumber]
    rfl
  have hchannels : u.media.channels = (s.failedBack c op b).media.channels := by
    rw [hu, hw, hleft]
    rfl
  have hbuilders : u.comp.builders = (s.failedBack c op b).comp.builders := by
    rw [hu, hw, hleft]
    rfl
  obtain ⟨hbuilder, hslot, hentry⟩ := endTurn_failedBack (s := s) (c := c) (op := op) (b := b) (v := raiseFault f u)
    (by simpa using hdir) (by simpa using hchannels) (by simpa using hbuilders)
  obtain ⟨hstopped, habandoned, hheld⟩ := endTurn_fault (s := s) (u := u) c (f := f) (by simp [hkind]) ha
    (by rw [hkind]; exact hh) (by rw [hu, hw, hleft]; rfl) (by rw [hu, hw, hleft]; rfl)
    (fun p => by rw [hu, hw, hleft]; cases p <;> rfl)
  refine ⟨endTurn c (raiseFault f u), by rw [exec_channelTimeout hp hran, hends, hu, endTurn],
    congrArg Builder.failures hbuilder, hslot, hentry, hstopped, habandoned, ?_⟩
  have hmediaContext : ∀ v : State, v.fault.media = v.contextOf f.kind := fun v => by
    rw [hkind]
    rfl
  rw [hmediaContext, hheld, hf, State.writeFault]

/-! ### Results discarded (R99) -/

/-- Where neither a load nor a Format runs, nothing waits for the channels to fall quiet. -/
theorem exec_discarded_plain (hr : op.requester = .discarded) (hl : s.cat.load = none) (hf : s.cat.format = none)
    (ok : Bool) :
    exec (.operationEndDiscarded c ok) s = .next (endTurn c (leaveInSlot c op ok (clearFrames s))) := by
  obtain ⟨u, hu⟩ : ∃ u, u = startNext c (endOp c (leaveInSlot c op ok (clearFrames s))) := ⟨_, rfl⟩
  have hcat : u.cat = s.cat := by
    rw [hu]
    simp
  have hreads : beginReads u = u := by simp only [beginReads, hcat, hl]
  have hclearing : u.clearing = false := by simp only [State.clearing, hcat, hf]
  have hcompletes : complete c op ok id (clearFrames s) = u := hu.symm
  have hends : discardedEnds c op ok (clearFrames s) = u := by
    rw [discardedEnds, hcompletes, afterQuiet, hreads, endClearing, hclearing]
    rfl
  rw [exec_operationEndDiscarded hp hr, hends, hu, endTurn]

/-- An operation whose result is discarded touches nothing beside its channel and its slot's contents. -/
theorem discarded_touches (hr : op.requester = .discarded) (hl : s.cat.load = none) (hf : s.cat.format = none)
    (ok : Bool) :
    ∃ t, exec (.operationEndDiscarded c ok) s = .next t ∧ t.media.dir = s.media.dir ∧ t.intake = s.intake ∧
      t.comp = s.comp ∧ t.ret = s.ret ∧ t.audit = s.audit ∧ t.cursors = s.cursors ∧ t.cat = s.cat ∧ t.fault = s.fault ∧
      t.media.pointer = s.media.pointer ∧ t.media.slotWait = s.media.slotWait ∧
      (∀ d, d ≠ c → t.channel d = s.channel d) ∧
      (∀ k, (t.channel c).slot k = (s.channel c).slot k) ∧ (t.channel c).setMode = (s.channel c).setMode ∧
      (∀ d k, d * 8192 + k ≠ c * 8192 + op.slot → t.flashAt d k = s.flashAt d k) ∧
      t.flashAt c op.slot = (if op.kind = .read ∨ op.kind = .catalogRead then s.flashAt c op.slot
        else if ok = true then op.data else .unknown) ∧
      ((s.channel c).outside = [] → (t.channel c).queue = (s.channel c).queue.tail) := by
  refine ⟨_, exec_discarded_plain hp hr hl hf ok, ?_⟩
  obtain ⟨-, -, -, -, -, hflash⟩ := endTurn_keeps c (leaveInSlot c op ok (clearFrames s))
  obtain ⟨hother, hsame⟩ := leaveInSlot_flashAt c op ok (clearFrames s)
  obtain ⟨held, hleft⟩ := leaveInSlot_eq c op ok (clearFrames s)
  obtain ⟨hothers, hslot, hmode, hqueue⟩ := endTurn_channel c (leaveInSlot c op ok (clearFrames s))
  rw [hleft] at hothers hslot hmode hqueue
  refine ⟨by simp [endTurn], by simp [endTurn], by simp, by simp, by simp [endTurn], by simp [endTurn], by simp,
    by simp [endTurn], by simp [endTurn], by simp [endTurn], fun d hd => ?_, fun k => ?_, ?_,
    fun d k hne => (hflash d k).trans (hother d k hne), (hflash c op.slot).trans hsame, fun ho => ?_⟩
  · rw [hleft]
    exact hothers d hd
  · rw [hleft]
    exact hslot k
  · rw [hleft]
    exact hmode
  · rw [hleft]
    exact hqueue ho

end

/-- Settles O35: the Eraser's erase and a builder's write by the fault they raise, every other requester by the completion
that its FAIL is, and a result discarded by what the end of its turn touches. -/
theorem timeoutsAndDiscardedEnds : Obligations.TimeoutsAndDiscardedEnds := by
  intro c op s hp
  refine ⟨fun hr hran ha hh => eraserTimesOut hp hr hran ha hh, fun b hr hran ha hh => builderTimesOut hp hr hran ha hh,
    fun hran => ⟨fun ok hr => ⟨timeout_discarded hp hran hr, _, exec_operationEndDiscarded hp hr ok⟩,
      fun hr hk hjob => timeout_audit hp hran hr hk hjob, fun k hr hk => timeout_cursor hp hran hr hk,
      fun hr hk => timeout_load hp hran hr hk, fun hr hk => timeout_format hp hran hr hk,
      fun hr hk ha hw hc => timeout_share hp hran hr hk ha hw hc,
      fun f hr hk ha hf hi hc => timeout_firstImage hp hran hr hk ha hf hi hc⟩,
    fun hr hl hf ok => discarded_touches hp hr hl hf ok⟩

end Sys2Proof.Machine
end

