-- ==== Sys2Proof/Proofs/ActsKeep.lean ====
section
/-!
PROOFS. Proofs/ActsKeep.lean: what the single acts of compaction and of the Eraser keep, the running of compaction, a trigger
and the search for work keep (R61, R66, R72, R117, R169).
-/

namespace Sys2Proof.Machine
open Sys2Proof

/-- The single acts keep `P`: the close of a FILLING builder, an opening on a FREE entry, an operation asked, an entry taken for
an erase, and whatever leaves the directory, the channels and the builders. -/
structure ActsKeep (P : State → Prop) : Prop where
  same : ∀ {s t : State}, P s → t.media.dir = s.media.dir → t.media.channels = s.media.channels →
    t.comp.builders = s.comp.builders → P t
  close : ∀ {s : State} {b : Nat}, P s → (s.builder b).phase = .filling → P (beginClose b s)
  openFree : ∀ {s : State} {b e : Nat} (n d : Nat), P s → s.freeBuilder = some b → s.freeEntryNumber = some e →
    P (openBuilder b e n d s)
  ask : ∀ {s : State} (c : Nat) (op : Op), P s → P (askOp c op s)
  take : ∀ {s : State} {c e : Nat} {p : DirEntry → Bool}, P s → s.lowestEntry c p = some e →
    (∀ v, p v = true → v.state = .erasing ∨ v.state = .expired) → P (s.setEntry e { s.entry e with state := .erasing })

/-- An entry the Eraser may take is EXPIRED (R117). -/
theorem eligible_expired {s : State} {v : DirEntry} (h : s.eligible v = true) : v.state = .expired := by
  simp only [State.eligible, Bool.and_eq_true] at h
  exact of_decide_eq_true h.1.1

namespace ActsKeep
variable {P : State → Prop} {s : State} (k : ActsKeep P)
include k

theorem raise (h : P s) (f : FaultInfo) : P (raiseFault f s) := k.same h (by simp) (by simp) (by simp)

theorem testsWait (h : P s) : P (testWait s) := k.same h (by simp) (by simp) (by simp)

theorem closes (h : P s) (p : Builder → Bool) : P (closeBuilders p s) := by
  refine foldl_inv P _ (fun t b ht => ?_) _ s h
  split
  · rename_i hcond
    simp only [Bool.and_eq_true, decide_eq_true_eq] at hcond
    obtain ⟨⟨-, hfilling⟩, -⟩ := hcond
    exact k.close ht hfilling
  · exact ht

theorem resolves (h : P s) : P (resolveOpening s) := by
  unfold resolveOpening
  repeat' split
  · exact h
  · exact h
  · exact k.same h rfl rfl rfl
  · exact k.same h rfl rfl rfl
  · rename_i hbuilder
    unfold openOn
    repeat' split
    · exact k.openFree _ _ h hbuilder ‹_›
    · exact k.same h rfl rfl rfl
    · exact k.raise (k.same (t := setOpening (some .held) s) h rfl rfl rfl) _
  · exact h

theorem writes (h : P s) : P (beginWriting s) :=
  foldl_inv P _ (fun _ _ ht => k.ask _ _ ht) _ _ (k.same (s := s) h rfl rfl rfl)

theorem runs (h : P s) : P (runCompaction s) := by
  have hdropped : P (dropFinished s) := k.same h (by simp) (by simp) (by simp)
  have hresolved := k.resolves hdropped
  have hclosed : P (drainCloses (resolveOpening (dropFinished s))) := by
    unfold drainCloses
    split
    · exact k.closes hresolved _
    · exact hresolved
  unfold runCompaction drainComplete
  repeat' split
  · exact k.writes hclosed
  · exact hclosed
  · exact h

theorem erases (h : P s) (c e : Nat) {p : DirEntry → Bool} (he : s.lowestEntry c p = some e)
    (hp : ∀ v, p v = true → v.state = .erasing ∨ v.state = .expired) : P (eraseEntry c e s) :=
  k.ask _ _ (k.same (k.take h he hp) rfl rfl rfl)

theorem works (h : P s) (c : Nat) : P (eraserWork c s) := by
  unfold eraserWork
  repeat' split
  · exact k.erases h c _ ‹_› (fun v hv => Or.inl (of_decide_eq_true hv))
  · exact k.erases h c _ ‹_› (fun v hv => Or.inr (eligible_expired hv))
  · exact k.ask _ _ (k.same h rfl rfl rfl)
  · exact h
  · exact h

theorem looks (h : P s) : P (lookForWork s) := by
  unfold lookForWork
  split
  · exact foldl_inv P _ (fun _ c ht => k.works ht c) _ s h
  · exact h

theorem triggers (h : P s) (ws : List Waiter) : P (trigger ws s) := by
  have hanswered : P (answerWaiters false ws s) := k.same h (by simp) (by simp) (by simp)
  unfold trigger
  repeat' split
  · exact hanswered
  · have hbegun : P { s with cat := { s.cat with state := .quiescing, waiters := ws } } := k.same h rfl rfl rfl
    simp only [beginCheckpoint]
    split
    · exact k.same hbegun (by simp) (by simp) (by simp)
    · exact k.runs hbegun
  · exact k.same h rfl rfl rfl
  · exact k.same h rfl rfl rfl
  · exact hanswered

end ActsKeep

/-! ### What the acts leave of the channels (R91, R93) -/

/-- From `s` to `t` no channel's presence or set mode changes, nor any slot of a channel without a CLEAN one. -/
def State.keepsChannels (s t : State) : Prop :=
  ∀ d, (t.channel d).setMode = (s.channel d).setMode ∧ (t.channel d).present = (s.channel d).present ∧
    ((s.channel d).lowest .clean = none →
      (t.channel d).slots = (s.channel d).slots ∧ (t.channel d).rest = (s.channel d).rest)

theorem State.keepsChannels_rfl (s : State) : s.keepsChannels s := fun _ => ⟨rfl, rfl, fun _ => ⟨rfl, rfl⟩⟩

theorem State.keepsChannels_of_channels {s t : State} (h : t.media.channels = s.media.channels) : s.keepsChannels t := by
  intro d
  rw [State.channel, h]
  exact ⟨rfl, rfl, fun _ => ⟨rfl, rfl⟩⟩

theorem State.keepsChannels.trans {s t u : State} (h : s.keepsChannels t) (g : t.keepsChannels u) : s.keepsChannels u := by
  intro d
  obtain ⟨hmode, hpresent, hslots⟩ := h d
  obtain ⟨hmode', hpresent', hslots'⟩ := g d
  refine ⟨hmode'.trans hmode, hpresent'.trans hpresent, fun hn => ?_⟩
  obtain ⟨hlist, hrest⟩ := hslots hn
  have hn' : (t.channel d).lowest .clean = none := by
    rw [Channel.lowest, hlist, hrest]
    exact hn
  obtain ⟨hlist', hrest'⟩ := hslots' hn'
  exact ⟨hlist'.trans hlist, hrest'.trans hrest⟩

/-- Joining a queue, or waiting outside it, leaves a channel's presence, set mode and slots. -/
theorem ask_keeps (ch : Channel) (op : Op) :
    (ch.ask op).setMode = ch.setMode ∧ (ch.ask op).present = ch.present ∧ (ch.ask op).slots = ch.slots ∧
      (ch.ask op).rest = ch.rest := by
  simp only [Channel.ask, Channel.join]
  repeat' split
  all_goals exact ⟨rfl, rfl, rfl, rfl⟩

theorem askOp_keepsChannels (c : Nat) (op : Op) (s : State) : s.keepsChannels (askOp c op s) := by
  intro d
  by_cases hd : d = c
  · subst hd
    obtain ⟨hmode, hpresent, hslots, hrest⟩ := ask_keeps (s.channel d) op
    simp only [askOp, startNext]
    split
    · simp [hmode, hpresent, hslots, hrest]
    · simp [hmode, hpresent, hslots, hrest]
  · obtain ⟨-, hothers⟩ := askOp_asked c op s
    rw [hothers d hd]
    exact ⟨rfl, rfl, fun _ => ⟨rfl, rfl⟩⟩

/-- An allocation writes a slot of a channel that has a CLEAN one. -/
theorem giveSlot_keepsChannels {s t : State} {avoid : Option Nat} {r : SlotRef} (h : s.pickSlot avoid = some r)
    (ht : t.media.channels = s.media.channels) (b : Nat) (retry : Bool) : s.keepsChannels (giveSlot b r retry t) := by
  refine State.keepsChannels.trans ?_ (askOp_keepsChannels _ _ _)
  intro d
  have hchannel : ∀ u : State, u.media.channels = s.media.channels → ∀ d, (u.setSlotState r .used).channel d =
      if d = r.channel then (s.channel r.channel).setSlot r.slot .used else s.channel d := fun u hu d => by
    rw [State.setSlotState, State.setChannel_channel]
    simp only [State.channel, hu]
  have hd := hchannel (t.setEntry (t.builder b).entry (t.writingEntry (t.builder b) r retry)) ht d
  have hsame : ∀ u : State, ∀ p : Nat, ({ u with media := { u.media with pointer := p } } : State).channel d = u.channel d :=
    fun _ _ => rfl
  rw [hsame, hd]
  split
  · rename_i hc
    rw [hc, pickSlot_lowest h]
    exact ⟨rfl, rfl, nofun⟩
  · exact ⟨rfl, rfl, fun _ => ⟨rfl, rfl⟩⟩

theorem beginClose_keepsChannels (b : Nat) (s : State) : s.keepsChannels (beginClose b s) := by
  rw [beginClose_eq, askSlot]
  split
  · rename_i r hr
    exact giveSlot_keepsChannels (t := s.askingClose b) (show s.pickSlot none = some r from hr) rfl b false
  · refine State.keepsChannels_of_channels ?_
    unfold waitForSlot
    split
    · rfl
    · simp [State.askingClose]

theorem serveOne_keepsChannels (s : State) : s.keepsChannels (serveOne s) := by
  unfold serveOne
  split
  · rename_i b rest r _ hr
    split
    · exact giveSlot_keepsChannels (t := { s with media := { s.media with slotWait := rest } }) hr rfl b false
    · exact s.keepsChannels_rfl
  · exact s.keepsChannels_rfl

theorem serveWait_keepsChannels (s : State) : s.keepsChannels (serveWait s) :=
  foldl_inv s.keepsChannels (fun t (_ : Nat) => serveOne t) (fun t _ ht => ht.trans (serveOne_keepsChannels t)) _ s
    s.keepsChannels_rfl

theorem keepsChannels_acts (s : State) : ActsKeep s.keepsChannels where
  same h _ hc _ := h.trans (State.keepsChannels_of_channels hc)
  close h _ := h.trans (beginClose_keepsChannels _ _)
  openFree _ _ h _ _ := h.trans (State.keepsChannels_of_channels rfl)
  ask c op h := h.trans (askOp_keepsChannels c op _)
  take h _ _ := h.trans (State.keepsChannels_of_channels rfl)

/-! ### A close that has been given its slot (R67, R91) -/

/-- Builder `b`, as in `v`, has its WRITE of slot `r` asked, and its entry, as in `w`, for itself. -/
structure State.Served (b : Nat) (r : SlotRef) (v : Builder) (w : DirEntry) (t : State) : Prop where
  builder : t.builder b = v
  entry : t.entry v.entry = w
  slot : t.slotState r = .used
  asked : builderWrite b v r.slot ∈ t.asked r.channel
  apart : ∀ d, (t.builder d).phase = .filling → (t.builder d).entry ≠ v.entry
  entries : Tbl.rising t.media.dir = true
  builders : Tbl.rising t.comp.builders = true

theorem setEntry_rising {s : State} (h : Tbl.rising s.media.dir = true) (e : Nat) (v : DirEntry) :
    Tbl.rising (s.setEntry e v).media.dir = true := Tbl.rising_set h _ _ _

section
variable {b : Nat} {r : SlotRef} {v : Builder} {w : DirEntry}

theorem State.Served.same {s t : State} (h : s.Served b r v w) (hd : t.media.dir = s.media.dir)
    (hc : t.media.channels = s.media.channels) (hb : t.comp.builders = s.comp.builders) : t.Served b r v w := by
  obtain ⟨hbuilder, hentry, hslot, hasked, hapart, hentries, hbuilders⟩ := h
  refine ⟨?_, ?_, ?_, ?_, ?_, hd ▸ hentries, hb ▸ hbuilders⟩
  · rw [State.builder, hb]; exact hbuilder
  · rw [State.entry, hd]; exact hentry
  · rw [State.slotState, State.channel, hc]; exact hslot
  · rw [State.asked, State.channel, hc]; exact hasked
  · intro d
    rw [State.builder, hb]
    exact hapart d

/-- A slot given to another builder, on an entry of its own. -/
theorem State.Served.gives {s : State} (h : s.Served b r v w) {d : Nat} (hd : (s.builder d).entry ≠ v.entry) (k : SlotRef)
    (retry : Bool) : (giveSlot d k retry s).Served b r v w := by
  obtain ⟨hbuilder, hentry, hslot, hasked, hapart, hentries, hbuilders⟩ := h
  obtain ⟨hentryGiven, hslotGiven, -, haskedGiven, -⟩ := giveSlot_spec d k retry s
  have hcomp : (giveSlot d k retry s).comp = s.comp := by simp
  have hdir : (giveSlot d k retry s).media.dir =
      (s.setEntry (s.builder d).entry (s.writingEntry (s.builder d) k retry)).media.dir := by
    simp [giveSlot, State.setSlotState]
  refine ⟨?_, ?_, ?_, haskedGiven _ _ hasked, ?_, ?_, hcomp ▸ hbuilders⟩
  · rw [State.builder, hcomp]; exact hbuilder
  · rw [hentryGiven, if_neg hd.symm]; exact hentry
  · rw [hslotGiven, hslot, ite_self]
  · intro i
    rw [State.builder, hcomp]
    exact hapart i
  · rw [hdir]
    exact setEntry_rising hentries _ _

theorem State.Served.closes {s : State} (h : s.Served b r v w) (hv : v.phase = .closing) {d : Nat}
    (hd : (s.builder d).phase = .filling) : (beginClose d s).Served b r v w := by
  obtain ⟨hbuilder, hentry, hslot, hasked, hapart, hentries, hbuilders⟩ := h
  have hne : b ≠ d := by
    rintro rfl
    rw [hbuilder, hv] at hd
    cases hd
  have hentryNe := hapart d hd
  have hasking : (s.askingClose d).Served b r v w := by
    have hother : ∀ i, (s.askingClose d).builder i =
        if i = d then { s.builder d with phase := .closing, failures := 0 } else s.builder i :=
      fun i => State.setBuilder_builder ..
    have hrising : Tbl.rising (s.askingClose d).comp.builders = true :=
      Tbl.rising_set hbuilders {} d { s.builder d with phase := .closing, failures := 0 }
    refine ⟨?_, ?_, hslot, hasked, fun i => ?_, Tbl.rising_set hentries _ _ _, hrising⟩
    · rw [hother, if_neg hne]; exact hbuilder
    · exact (Tbl.get_set_ne _ _ _ hentryNe.symm).trans hentry
    · rw [hother]
      split
      · nofun
      · exact hapart i
  rw [beginClose_eq, askSlot]
  split
  · refine hasking.gives ?_ _ _
    rw [askingClose_builder]
    exact hentryNe
  · unfold waitForSlot
    split
    · exact hasking.same rfl rfl rfl
    · exact hasking.same (by simp) (by simp) (by simp)

theorem served_acts (hv : v.phase = .closing) (hw : w.state = .writing) : ActsKeep (State.Served b r v w) where
  same h hd hc hb := h.same hd hc hb
  close h hfilling := h.closes hv hfilling
  openFree {s d e} n y h hd he := by
    obtain ⟨hbuilder, hentry, hslot, hasked, hapart, hentries, hbuilders⟩ := h
    have hfree := (freeBuilder_some hbuilders hd).2
    have hne : b ≠ d := by
      rintro rfl
      rw [hbuilder, hv] at hfree
      cases hfree
    have hentryNe : v.entry ≠ e := by
      rintro rfl
      have hunused := freeEntryNumber_free hentries he
      rw [hentry, hw] at hunused
      cases hunused
    have hrising : Tbl.rising (openBuilder d e n y s).comp.builders = true := Tbl.rising_set hbuilders {} d
      { phase := .filling, source := n, day := y, entry := e, bytesUsed := 32, lastAppend := s.second }
    have hopened : Tbl.rising (openBuilder d e n y s).media.dir = true := setEntry_rising hentries e
      { state := .filling, source := n, day := y, payloadBytes := 32 }
    refine ⟨?_, ?_, hslot, hasked, fun i => ?_, hopened, hrising⟩
    · rw [openBuilder_builder, if_neg hne]; exact hbuilder
    · rw [openBuilder_entry, if_neg hentryNe]; exact hentry
    · rw [openBuilder_builder]
      split
      · exact fun _ => hentryNe.symm
      · exact hapart i
  ask {s} c op h := by
    obtain ⟨hbuilder, hentry, hslot, hasked, hapart, hentries, hbuilders⟩ := h
    have hcomp : (askOp c op s).comp = s.comp := by simp
    have hdir : (askOp c op s).media.dir = s.media.dir := by simp
    refine ⟨?_, ?_, ?_, askOp_asked_mono c op hasked, fun i => ?_, hdir ▸ hentries, hcomp ▸ hbuilders⟩
    · rw [State.builder, hcomp]; exact hbuilder
    · rw [State.entry, hdir]; exact hentry
    · rw [askOp_slotState]; exact hslot
    · rw [State.builder, hcomp]
      exact hapart i
  take {s c e p} h he hp := by
    obtain ⟨hbuilder, hentry, hslot, hasked, hapart, hentries, hbuilders⟩ := h
    have hne : v.entry ≠ e := by
      rintro rfl
      obtain ⟨-, htest⟩ := Tbl.nextFrom_some_get (p := fun v => onChannel c v && p v) (d := ({} : DirEntry)) hentries he
      have hstate := hp _ (Bool.and_eq_true_iff.mp htest).2
      have hwriting : (Tbl.get {} s.media.dir v.entry).state = .writing := by
        have hw' : (s.entry v.entry).state = .writing := by rw [hentry, hw]
        exact hw'
      rw [hwriting] at hstate
      rcases hstate with hstate | hstate
      · cases hstate
      · cases hstate
    exact ⟨hbuilder, (State.setEntry_entry_ne _ _ _ hne).trans hentry, hslot, hasked, hapart,
      setEntry_rising hentries _ _, hbuilders⟩

end

end Sys2Proof.Machine
end

