-- ==== Sys2Proof/Proofs/ChannelModes.lean ====
section
/-!
PROOFS. Proofs/ChannelModes.lean: SET-CHANNEL takes its mode, and where that leaves a CLEAN slot the wait list is served (R91,
R93): O36.
-/

namespace Sys2Proof.Machine
open Sys2Proof

/-! ### The CLEAN slots of a channel that leaves OFFLINE (R93) -/

/-- What a slot is once the CLEAN ones are made DIRTY. -/
def dirtied (st : SlotState) : SlotState := if st = .clean then .dirty else st

theorem dirtied_ne (st : SlotState) : dirtied st ≠ .clean := by
  cases st <;> decide

theorem dirtyClean_eq (ch : Channel) : ch.dirtyClean =
    { ch with rest := dirtied ch.rest, slots := Tbl.mapListed (dirtied ch.rest) (fun _ => dirtied) ch.slots } := rfl

theorem dirtyClean_slot {ch : Channel} (h : Tbl.rising ch.slots = true) (k : Nat) :
    ch.dirtyClean.slot k = dirtied (ch.slot k) := by
  rw [dirtyClean_eq, Channel.slot, Tbl.get_mapListed _ h, Channel.slot, Tbl.get]
  cases Tbl.find ch.slots k <;> rfl

/-- A search that takes no unlisted index finds none where no listed entry satisfies its test. -/
theorem Tbl.nextFrom_none_of_all {α : Type} {p : Nat → α → Bool} {bound : Nat} {t : Tbl α} (n : Nat)
    (h : ∀ e ∈ t, ∀ k, p k e.2 = false) : Tbl.nextFrom p false bound n t = none := by
  induction t generalizing n with
  | nil => rfl
  | cons e t ih =>
    obtain ⟨j, w⟩ := e
    have hrest := fun n => ih n (fun e he => h e (List.mem_cons_of_mem _ he))
    have hhead : p j w = false := h (j, w) List.mem_cons_self j
    simp only [Tbl.nextFrom, hhead, Bool.false_and, Bool.false_eq_true, if_false, hrest, ite_self]

/-- A channel whose CLEAN slots were made DIRTY offers none. -/
theorem dirtyClean_lowest (ch : Channel) : ch.dirtyClean.lowest .clean = none := by
  have hempty : decide (dirtied ch.rest = .clean) = false := decide_eq_false (dirtied_ne _)
  rw [dirtyClean_eq, Channel.lowest, hempty]
  refine Tbl.nextFrom_none_of_all 0 (fun e he _ => decide_eq_false ?_)
  obtain ⟨x, -, rfl⟩ := List.mem_map.mp (List.mem_filter.mp he).1
  exact dirtied_ne _

theorem withMode_left {ch : Channel} {m : ChanMode} (ho : ch.setMode = .offline) (hm : m ≠ .offline) :
    ch.withMode m = { ch.dirtyClean with setMode := m } := if_pos ⟨ho, hm⟩

theorem withMode_slot {ch : Channel} {m : ChanMode} (hr : Tbl.rising ch.slots = true) (ho : ch.setMode = .offline)
    (hm : m ≠ .offline) (k : Nat) : (ch.withMode m).slot k = if ch.slot k = .clean then .dirty else ch.slot k := by
  rw [withMode_left ho hm]
  exact dirtyClean_slot hr k

theorem withMode_mode (ch : Channel) (m : ChanMode) : (ch.withMode m).setMode = m ∧ (ch.withMode m).present = ch.present := by
  unfold Channel.withMode
  split
  · exact ⟨rfl, rfl⟩
  · exact ⟨rfl, rfl⟩

/-! ### Tables in their order -/

/-- Every channel's list of slots stands in order. -/
theorem slots_rising {s : State} (h : s.tablesOk = true) (c : Nat) : Tbl.rising (s.channel c).slots = true := by
  simp only [State.tablesOk, Bool.and_eq_true] at h
  obtain ⟨⟨⟨⟨⟨-, hslots⟩, -⟩, -⟩, -⟩, -⟩ := h
  refine Tbl.get_of_all (P := fun ch : Channel => Tbl.rising ch.slots = true) Tbl.rising_nil (fun e he => ?_) c
  exact ((Tbl.canon_iff _ _).mp (List.all_eq_true.mp hslots e he)).1

/-- The directory and the builders stand in order. -/
theorem tables_rising {s : State} (h : s.tablesOk = true) :
    Tbl.rising s.media.dir = true ∧ Tbl.rising s.comp.builders = true := by
  simp only [State.tablesOk, Bool.and_eq_true, Tbl.canon_iff] at h
  obtain ⟨⟨⟨⟨⟨⟨⟨⟨⟨⟨-, hbuilders⟩, -⟩, hdir⟩, -⟩, -⟩, -⟩, -⟩, -⟩, -⟩, -⟩ := h
  exact ⟨hdir.1, hbuilders.1⟩

/-! ### The request (R91, R93) -/

/-- SET-CHANNEL past its checks. -/
theorem exec_setChannel {s : State} {tag c mode : Nat} {m : ChanMode} (ha : s.admits .a tag = true)
    (hm : modeOf mode = some m) (hc : firstRefusal (s.setChannelChecks c mode) = none) :
    exec (.setChannel .a tag c mode) s =
      .next (transmitBoth (setChannelMode (refOf s .a tag 42) c m (taken s .a tag 42))) := by
  have hexec : exec (.setChannel .a tag c mode) s = execSetChannel .a tag c mode s := by rfl
  have hsame : (taken s .a tag 42).setChannelChecks c mode = s.setChannelChecks c mode := rfl
  rw [hexec, execSetChannel, request_admitted ha 42 rfl, checked_passed (by rw [hsame]; exact hc), hm, Option.getD_some]

/-- Compaction runs where the checks pass. -/
theorem compacting_of_setChannelChecks {s : State} {c mode : Nat}
    (hc : firstRefusal (s.setChannelChecks c mode) = none) : s.compacting = true := by
  rw [firstRefusal_none_iff] at hc
  have hservice := hc (s.inService, .wrongState) (by simp [State.setChannelChecks, State.catalogChecks, State.serviceChecks])
  have hengines := hc (s.enginesUp, .wrongState) (by simp [State.setChannelChecks, State.catalogChecks])
  simp only [State.enginesUp, Bool.and_eq_true] at hengines
  simp only [State.compacting, Bool.and_eq_true]
  exact ⟨hservice, hengines.1⟩

/-- A channel that takes the mode it has stays as it was. -/
theorem takeMode_same {s : State} {c : Nat} {m : ChanMode} (h : (s.channel c).setMode = m) :
    (takeMode c m s).keepsChannels s := by
  have hsame : (s.channel c).withMode m = s.channel c := by
    rw [Channel.withMode, if_neg (fun hleft => hleft.2 (h ▸ hleft.1)), ← h]
  intro d
  have hd : (takeMode c m s).channel d = s.channel d := by
    rw [takeMode, State.setChannel_channel, hsame]
    split
    · rename_i hdc
      rw [hdc]
    · rfl
  rw [hd]
  exact ⟨rfl, rfl, fun _ => ⟨rfl, rfl⟩⟩

theorem setChannelMode_keepsChannels (r : ReqRef) (c : Nat) (m : ChanMode) (s : State) :
    (takeMode c m s).keepsChannels (setChannelMode r c m s) := by
  have hacts := keepsChannels_acts (takeMode c m s)
  rw [setChannelMode, triggerFor]
  refine hacts.triggers ?_ _
  split
  · exact takeMode_same ‹_›
  · exact hacts.looks (hacts.runs (hacts.testsWait (serveWait_keepsChannels _)))

/-- SET-CHANNEL takes the mode; only the CLEAN slots of a channel that leaves OFFLINE change. -/
theorem setChannel_takes {s : State} {tag c mode : Nat} {m : ChanMode} (ha : s.admits .a tag = true)
    (hm : modeOf mode = some m) (hc : firstRefusal (s.setChannelChecks c mode) = none) :
    ∃ t, exec (.setChannel .a tag c mode) s = .next t ∧ (t.channel c).setMode = m ∧
      (s.tablesOk = true → (s.channel c).setMode = .offline → m ≠ .offline → ∀ k,
        (t.channel c).slot k = (if (s.channel c).slot k = .clean then .dirty else (s.channel c).slot k)) ∧
      (t.channel c).present = (s.channel c).present ∧ (∀ d, d ≠ c → (t.channel d).setMode = (s.channel d).setMode) ∧
      t.intake.sources = s.intake.sources ∧ t.cursors = s.cursors ∧ t.audit = s.audit := by
  refine ⟨_, exec_setChannel ha hm hc, ?_⟩
  obtain ⟨x, hx⟩ : ∃ x, x = taken s .a tag 42 := ⟨_, rfl⟩
  have hchannel : ∀ d, x.channel d = s.channel d := fun d => by rw [hx]; rfl
  have hkeeps := setChannelMode_keepsChannels (refOf s .a tag 42) c m x
  have htaken : (takeMode c m x).channel c = (s.channel c).withMode m := by
    rw [takeMode, State.setChannel_channel_same, hchannel]
  have hend : ∀ (u : State) d, (transmitBoth u).channel d = u.channel d := fun _ _ => rfl
  obtain ⟨hmode, hpresent, hslots⟩ := hkeeps c
  obtain ⟨hwithMode, hwithPresent⟩ := withMode_mode (s.channel c) m
  rw [htaken] at hmode hpresent hslots
  rw [← hx]
  refine ⟨?_, fun ht ho hne k => ?_, ?_, fun d hd => ?_, ?_, ?_, ?_⟩
  · rw [hend, hmode, hwithMode]
  · have hnone : ((s.channel c).withMode m).lowest .clean = none := by
      rw [withMode_left ho hne]
      exact dirtyClean_lowest _
    obtain ⟨hlist, hrest⟩ := hslots hnone
    rw [hend, ← withMode_slot (slots_rising ht c) ho hne k, Channel.slot, hlist, hrest]
    rfl
  · rw [hend, hpresent, hwithPresent]
  · rw [hend, (hkeeps d).1, takeMode, State.setChannel_channel_ne _ _ _ hd, hchannel]
  all_goals
    rw [setChannelMode]
    split
    · simp [hx]
    · simp [hx, takeMode]

/-! ### The wait list served (R91) -/

/-- Serving the list serves its first close, and then the list that is left. -/
theorem serveWait_cons {s : State} {b : Nat} {rest : List Nat} {r : SlotRef} (h : s.compacting = true)
    (hw : s.media.slotWait = b :: rest) (hr : s.pickSlot none = some r) :
    serveWait s = serveWait (serveOne s) ∧ (serveOne s).media.slotWait = rest := by
  have hrest : (serveOne s).media.slotWait = rest := by
    rw [serveOne_eq h hw hr]
    simp
  refine ⟨?_, hrest⟩
  rw [serveWait, hw, List.foldl_cons, serveWait, hrest]

theorem serveWait_rising {s : State} (h : Tbl.rising s.media.dir = true) : Tbl.rising (serveWait s).media.dir = true := by
  refine foldl_inv (fun t : State => Tbl.rising t.media.dir = true) (fun t (_ : Nat) => serveOne t) (fun t _ ht => ?_) _ s h
  unfold serveOne
  split
  · rename_i b rest r _ _
    split
    · have hdir : (giveSlot b r false { t with media := { t.media with slotWait := rest } }).media.dir =
          (t.setEntry (t.builder b).entry (t.writingEntry (t.builder b) r false)).media.dir := by
        simp [giveSlot, State.setSlotState, State.writingEntry, State.builder, State.entry]
        rfl
      rw [hdir]
      exact setEntry_rising ht _ _
    · exact ht
  · exact ht

/-- The first close on the list, served, has its slot and its entry for itself. -/
theorem serveWait_served_first {s : State} {b : Nat} {rest : List Nat} {r : SlotRef} (h : s.compacting = true)
    (hw : s.waitsFirst b rest) (hr : s.pickSlot none = some r) (hd : Tbl.rising s.media.dir = true)
    (hb : Tbl.rising s.comp.builders = true) :
    (serveWait s).Served b r (s.builder b) (s.writingEntry (s.builder b) r false) := by
  obtain ⟨hbuilder, hentry, hslot, hasked⟩ := serveWait_first h hw hr
  obtain ⟨-, hclosing, -, hapart⟩ := hw
  have hcomp : (serveWait s).comp = s.comp := by simp
  refine ⟨hbuilder, hentry, hslot, hasked, fun d hfilling => ?_, serveWait_rising hd, hcomp ▸ hb⟩
  rw [State.builder, hcomp] at hfilling ⊢
  refine hapart d ?_ (Or.inr hfilling)
  rintro rfl
  have hboth : (s.builder d).phase = .filling := hfilling
  rw [hclosing] at hboth
  cases hboth

/-- A close served stays so through what follows the change of mode. -/
theorem setChannelMode_served {r : ReqRef} {c : Nat} {m : ChanMode} {s : State} {b : Nat} {rest : List Nat} {k : SlotRef}
    (h : s.compacting = true) (hm : m ≠ (s.channel c).setMode) (hw : s.waitsFirst b rest)
    (hk : (takeMode c m s).pickSlot none = some k) (hd : Tbl.rising s.media.dir = true)
    (hb : Tbl.rising s.comp.builders = true) :
    (setChannelMode r c m s).Served b k (s.builder b) (s.writingEntry (s.builder b) k false) := by
  have hacts := served_acts (b := b) (r := k) (v := s.builder b) (w := s.writingEntry (s.builder b) k false)
    hw.2.1 rfl
  have hserved : (serveWait (takeMode c m s)).Served b k (s.builder b) (s.writingEntry (s.builder b) k false) :=
    serveWait_served_first (s := takeMode c m s) h hw hk hd hb
  rw [setChannelMode, triggerFor, if_neg (Ne.symm hm), afterSlots]
  exact hacts.triggers (hacts.looks (hacts.runs (hacts.testsWait hserved))) _

/-! ### What is left of the wait list (R91) -/

/-- In SERVICE, a test of the wait list changes nothing or stops compaction. -/
theorem testWait_or (s : State) : testWait s = s ∨ (testWait s).comp.stopped = true := by
  unfold testWait
  split
  · exact Or.inl rfl
  · rename_i b rest _
    split
    · rename_i hcond
      simp only [Bool.and_eq_true] at hcond
      obtain ⟨⟨hservice, -⟩, -⟩ := hcond
      obtain ⟨hcomp, -⟩ := raiseFault_compaction (f := spaceExhausted (some (s.builder b).entry))
        (s := { s with media := { s.media with slotWait := rest } }) (spaceExhausted_engine _)
        (of_decide_eq_true hservice)
      exact Or.inr (by rw [hcomp])
    · exact Or.inl rfl

/-- A drain that stands closes no builder, and is not complete. -/
theorem runCompaction_of_stands {s : State} (hc : s.compacting = true) (h : s.drainStands) :
    runCompaction s = resolveOpening (dropFinished s) := by
  obtain ⟨w, hw⟩ : ∃ w, w = resolveOpening (dropFinished s) := ⟨_, rfl⟩
  have hdropped : (dropFinished s).compacting = true := by
    rw [compacting_congr (s := s) (by simp) (by simp)]
    exact hc
  have hworks := resolveOpening_worksOn hdropped
  rw [← hw] at hworks
  have hdraining : w.draining = true → w.cat = (dropFinished s).cat := fun hdrain => by
    simp only [State.draining, Bool.and_eq_true] at hdrain
    exact hworks.2.2.2.2.1 ((compacting_iff w).mp hdrain.2).2
  have hquiescing : w.draining = true → s.cat.state = .quiescing := fun hdrain => by
    have hcat := hdraining hdrain
    simp only [State.draining, Bool.and_eq_true, decide_eq_true_eq] at hdrain
    have hsame : (dropFinished s).cat = s.cat := by simp
    rw [← hsame, ← hcat]
    exact hdrain.1
  have hqueue : w.comp.queue = (dropFinished s).comp.queue := by rw [hw]; simp
  have hstands : drainComplete (drainCloses w) = w := by
    rcases h with h | h | ⟨f, q, hq, hf⟩ | ⟨hq, hb, hn⟩
    · have hnot : w.draining = false := by
        by_contra hdrain
        exact h (hquiescing (by simpa using hdrain))
      simp [drainCloses, drainComplete, hnot]
    · rw [hc] at h
      cases h
    · have hkept : dropFinished s = s := dropFinished_eq (fun g hg => by simp_all)
      rw [hkept, hq] at hqueue
      simp [drainCloses, drainComplete, State.drained, hqueue]
    · have hkept : dropFinished s = s := dropFinished_eq (fun g hg => by simp_all)
      have hbuilders : w.comp.builders = s.comp.builders := by
        rw [hw, hkept, resolveOpening, hq]
        split
        · rfl
        · rfl
        · rfl
        · rename_i hcons
          cases hcons
      have hnone : ∀ b, b < 32 → (w.builder b).phase ≠ .filling := fun b hlt => by
        rw [State.builder, hbuilders]
        exact hn b hlt
      simp [drainCloses, drainComplete, closeBuilders_eq hnone, State.drained, hbuilders, hb]
  rw [runCompaction, if_pos hc, ← hw, hstands]

/-- From `s` to `t` every channel keeps its presence, its set mode and its slots. -/
def State.sameSlots (s t : State) : Prop :=
  ∀ d, (t.channel d).setMode = (s.channel d).setMode ∧ (t.channel d).present = (s.channel d).present ∧
    (t.channel d).slots = (s.channel d).slots ∧ (t.channel d).rest = (s.channel d).rest

theorem State.sameSlots.trans {s t u : State} (h : s.sameSlots t) (g : t.sameSlots u) : s.sameSlots u := by
  intro d
  obtain ⟨hmode, hpresent, hslots, hrest⟩ := h d
  obtain ⟨hmode', hpresent', hslots', hrest'⟩ := g d
  exact ⟨hmode'.trans hmode, hpresent'.trans hpresent, hslots'.trans hslots, hrest'.trans hrest⟩

theorem State.sameSlots_of_channels {s t : State} (h : t.media.channels = s.media.channels) : s.sameSlots t := by
  intro d
  rw [State.channel, h]
  exact ⟨rfl, rfl, rfl, rfl⟩

theorem askOp_sameSlots (c : Nat) (op : Op) (s : State) : s.sameSlots (askOp c op s) := by
  intro d
  obtain ⟨hmode, hpresent, -⟩ := askOp_keepsChannels c op s d
  exact ⟨hmode, hpresent, askOp_slots c d op s⟩

/-- The Eraser, looking for work, writes no slot. -/
theorem lookForWork_sameSlots (s : State) : s.sameSlots (lookForWork s) := by
  unfold lookForWork
  split
  · refine foldl_inv s.sameSlots (fun t c => eraserWork c t) (fun t c ht => ht.trans ?_) _ s (State.sameSlots_of_channels rfl)
    unfold eraserWork
    repeat' split
    · exact askOp_sameSlots _ _ _
    · exact askOp_sameSlots _ _ _
    · exact askOp_sameSlots _ _ _
    · exact State.sameSlots_of_channels rfl
    · exact State.sameSlots_of_channels rfl
  · exact State.sameSlots_of_channels rfl

/-- An allocation looks at the slots, the modes and the pointer alone. -/
theorem pickSlot_congr {s t : State} (hp : t.media.pointer = s.media.pointer) (hc : s.sameSlots t)
    (avoid : Option Nat) : t.pickSlot avoid = s.pickSlot avoid := by
  have hlowest : ∀ d, (t.channel d).lowest .clean = (s.channel d).lowest .clean := fun d => by
    obtain ⟨-, -, hslots, hrest⟩ := hc d
    rw [Channel.lowest, hslots, hrest]
    rfl
  have hoffers : ∀ d, (t.channel d).offers = (s.channel d).offers := fun d => by
    obtain ⟨hmode, hpresent, -⟩ := hc d
    rw [Channel.offers, hlowest, Channel.mode, hmode, hpresent]
    rfl
  simp only [State.pickSlot, hp, hlowest, hoffers]

/-- A trigger of a checkpoint that is not the first of its waiters' leaves the media and compaction. -/
theorem trigger_waits {s : State} (h : s.cat.state ≠ .idle) (ws : List Waiter) :
    (trigger ws s).media = s.media ∧ (trigger ws s).comp = s.comp := by
  unfold trigger
  split
  · rename_i hidle
    exact absurd hidle h
  · exact ⟨rfl, rfl⟩
  · exact ⟨rfl, rfl⟩
  · simp

/-- A trigger does not set compaction running. -/
theorem trigger_stopped {s : State} (h : s.comp.stopped = true) (ws : List Waiter) :
    (trigger ws s).comp.stopped = true := by
  unfold trigger
  repeat' split
  · simpa using h
  · simp [beginCheckpoint, h]
  · exact h
  · exact h
  · simpa using h

/-- While a checkpoint is under way and no drain has anything to begin, what follows the change of mode serves the list from its
head. -/
theorem setChannelMode_servesFromHead {q : ReqRef} {c : Nat} {m : ChanMode} {s : State} {b : Nat} {rest : List Nat}
    {k : SlotRef} (h : s.compacting = true) (hm : m ≠ (s.channel c).setMode) (hw : s.media.slotWait = b :: rest)
    (hk : (takeMode c m s).pickSlot none = some k) (hidle : s.cat.state ≠ .idle) (hstands : s.drainStands)
    (hruns : (setChannelMode q c m s).comp.stopped = false) : (setChannelMode q c m s).servedFromHead rest := by
  obtain ⟨u, hu⟩ : ∃ u, u = serveWait (takeMode c m s) := ⟨_, rfl⟩
  have hcomp : u.comp = s.comp := by rw [hu]; simp [takeMode]
  have hcat : u.cat = s.cat := by rw [hu]; simp [takeMode]
  have hserved : u.servedFromHead rest := by
    obtain ⟨hcons, hrest⟩ := serveWait_cons (s := takeMode c m s) h hw hk
    have hagain := serveWait_served (s := serveOne (takeMode c m s)) (by
      rw [compacting_congr (s := s) (by simp [takeMode]) (by simp [takeMode])]
      exact h)
    rw [← hcons, ← hu, hrest] at hagain
    exact hagain
  rw [setChannelMode, triggerFor, if_neg (Ne.symm hm), afterSlots, ← hu] at hruns ⊢
  obtain ⟨v, hv⟩ : ∃ v, v = lookForWork (runCompaction (testWait u)) := ⟨_, rfl⟩
  rw [← hv] at hruns ⊢
  have hrunning : v.comp.stopped = false := by
    by_contra hstop
    rw [trigger_stopped (by simpa using hstop)] at hruns
    cases hruns
  have hcompacting : u.compacting = true := by
    rw [compacting_congr (s := s) (by rw [hcat]) (by rw [hcomp])]
    exact h
  rcases testWait_or u with htest | hstopped
  · rw [htest] at hv
    have hstand : u.drainStands := by
      unfold State.drainStands State.builder
      rw [hcat, hcomp, hcompacting, ← h]
      exact hstands
    obtain ⟨w, hw⟩ : ∃ w, w = resolveOpening (dropFinished u) := ⟨_, rfl⟩
    rw [runCompaction_of_stands hcompacting hstand, ← hw] at hv
    have hmedia : w.media.slotWait = u.media.slotWait ∧ w.media.pointer = u.media.pointer ∧
        w.media.channels = u.media.channels := by
      rw [hw]
      simp
    have hvcat : v.cat = w.cat := by rw [hv]; simp
    have hwrunning : w.comp.stopped = false := by
      have hsame : v.comp = w.comp := by rw [hv]; simp
      rw [← hsame]
      exact hrunning
    have hworks : (dropFinished u).worksOn w := hw ▸ resolveOpening_worksOn (by
      rw [compacting_congr (s := u) (by simp) (by simp)]
      exact hcompacting)
    have hbusy : v.cat.state ≠ .idle := by
      have hdropped : (dropFinished u).cat = u.cat := by simp
      rw [hvcat, hworks.2.2.2.2.1 hwrunning, hdropped, hcat]
      exact hidle
    obtain ⟨hwait, hpointer, hchannels⟩ := hmedia
    have hvwait : v.media.slotWait = u.media.slotWait := by rw [hv]; simp [hwait]
    have hvpick : v.pickSlot none = u.pickSlot none := by
      rw [hv, pickSlot_congr (s := w) (by simp) (lookForWork_sameSlots w),
        pickSlot_congr hpointer (State.sameSlots_of_channels hchannels)]
    have hpick : ∀ t : State, t.media = v.media → t.pickSlot none = u.pickSlot none := fun t ht => by
      rw [← hvpick]
      exact pickSlot_congr (by rw [ht]) (State.sameSlots_of_channels (by rw [ht])) none
    obtain ⟨hmediaEnd, -⟩ := trigger_waits hbusy [{ req := some q, okBody := [], failBody := [] }]
    rw [State.servedFromHead, hpick _ hmediaEnd, hmediaEnd, hvwait]
    exact hserved
  · have hidles : runCompaction (testWait u) = testWait u := by
      simp [runCompaction, State.compacting, hstopped]
    rw [hidles] at hv
    have hkept : v.comp.stopped = true := by
      rw [hv]
      simpa using hstopped
    rw [hkept] at hrunning
    cases hrunning

/-- Settles O36: the mode by what follows it, the closes by the service of the list, and the slots of a channel that leaves
OFFLINE. -/
theorem setChannelTakesItsMode : Obligations.SetChannelTakesItsMode := by
  refine ⟨fun tag c mode m s ha hm hc => setChannel_takes ha hm hc, fun tag c mode b rest m k s ha hm hc hne ht hw hk => ?_,
    fun ch m k hr ho hne => withMode_slot ((Tbl.canon_iff _ _).mp hr).1 ho hne k⟩
  obtain ⟨hentries, hbuilders⟩ := tables_rising ht
  obtain ⟨x, hx⟩ : ∃ x, x = taken s .a tag 42 := ⟨_, rfl⟩
  obtain ⟨y, hy⟩ : ∃ y, y = setChannelMode (refOf s .a tag 42) c m x := ⟨_, rfl⟩
  have hcompacting : x.compacting = true := hx ▸ compacting_of_setChannelChecks hc
  have hmode : m ≠ (x.channel c).setMode := hx ▸ hne
  have hfirst : x.waitsFirst b rest := hx ▸ hw
  have hpick : (takeMode c m x).pickSlot none = some k := by
    rw [hx]
    exact hk
  refine ⟨transmitBoth y, by rw [exec_setChannel ha hm hc, hy, hx], ?_, fun hidle hstands hruns => ?_⟩
  · obtain ⟨hbuilder, hentry, hslot, hasked, -⟩ : y.Served b k (x.builder b) (x.writingEntry (x.builder b) k false) :=
      hy ▸ setChannelMode_served hcompacting hmode hfirst hpick (hx ▸ hentries) (hx ▸ hbuilders)
    rw [hx] at hbuilder hentry hasked
    exact ⟨hbuilder, hentry, hslot, hasked⟩
  · have hruns' : y.comp.stopped = false := hruns
    have hserves : y.servedFromHead rest := hy ▸ setChannelMode_servesFromHead hcompacting hmode hfirst.1 hpick
      (hx ▸ hidle) (hx ▸ hstands) (hy ▸ hruns')
    exact hserves

end Sys2Proof.Machine
end

