-- ==== Sys2Proof/Proofs/Supply.lean ====
section
/-!
PROOFS. Proofs/Supply.lean: power-up finds the modules and asks slots 0 and 8 of each; power loss leaves what the flash holds (R92,
R177, R179): O52.
-/

namespace Sys2Proof.Machine
open Sys2Proof

/-! ### The modules found (R92) -/

/-- A loop of writes writes each index it runs over. -/
theorem Tbl.get_foldl_set {α : Type} [DecidableEq α] (d : α) (f : Nat → α) (l : List Nat) (t : Tbl α) (k : Nat) :
    Tbl.get d (l.foldl (fun t c => Tbl.set d t c (f c)) t) k = if k ∈ l then f k else Tbl.get d t k := by
  induction l generalizing t with
  | nil => simp
  | cons c l ih =>
    rw [List.foldl_cons, ih, Tbl.get_set]
    by_cases hk : k = c
    · simp [hk]
    · simp [hk]

theorem poweredUp_channel (present : List Bool) (s : State) (c : Nat) :
    (poweredUp present s).channel c = if c < 8 then { present := present.getD c false } else {} := by
  have hget := Tbl.get_foldl_set ({} : Channel) (fun c => { present := present.getD c false })
    (List.range Config.channels) [] c
  simp only [List.mem_range, Config.channels, Tbl.get_nil] at hget
  exact hget

theorem poweredUp_quiet (present : List Bool) (s : State) : (poweredUp present s).channelsQuiet = true := by
  refine List.all_eq_true.mpr (fun c _ => ?_)
  rw [poweredUp_channel]
  split
  · rfl
  · rfl

theorem mem_presentChannels {s : State} {c : Nat} : c ∈ s.presentChannels ↔ c < 8 ∧ (s.channel c).present = true := by
  simp [State.presentChannels, Config.channels]

/-! ### The reads asked (R95, R177) -/

/-- An ordinary operation joins the queue at its tail. -/
theorem join_ordinary {ch : Channel} {op : Op} (h : op.isCatalogWrite = false) : (ch.join op).queue = ch.queue ++ [op] := by
  simp [Channel.join, h]

theorem ask_ordinary {ch : Channel} {op : Op} (h : op.isCatalogWrite = false) (hroom : ch.queue.length < 16) :
    (ch.ask op).queue = ch.queue ++ [op] := by
  rw [Channel.ask, if_pos (show ch.queue.length < Config.queueOps from hroom), join_ordinary h]

theorem askOp_queue {c : Nat} {op : Op} {s : State} (h : op.isCatalogWrite = false)
    (hroom : (s.channel c).queue.length < 16) : ((askOp c op s).channel c).queue = (s.channel c).queue ++ [op] := by
  rw [askOp, (startNext_channel c c _).1, State.setChannel_channel_same, ask_ordinary h hroom]

/-- The CATALOG-READ of a slot that a load asks. -/
def loadRead (k : Nat) : Op := { kind := .catalogRead, slot := k, requester := .load, entry := none, data := .unknown }

/-- Slots 0 and 8 of a channel are asked, in that order (log 57). -/
def askFirstSlots (c : Nat) (s : State) : State := askCatalogRead c 8 (askCatalogRead c 0 s)

theorem askFirstSlots_channel (c : Nat) (s : State) :
    ((s.channel c).queue = [] → ((askFirstSlots c s).channel c).queue = [loadRead 0, loadRead 8]) ∧
      ∀ d, d ≠ c → (askFirstSlots c s).channel d = s.channel d := by
  refine ⟨fun hempty => ?_, fun d hd => ?_⟩
  · have hfirst : ((askCatalogRead c 0 s).channel c).queue = [loadRead 0] := by
      rw [askCatalogRead, askOp_queue rfl (by simp [hempty]), hempty]
      rfl
    rw [askFirstSlots, askCatalogRead, askOp_queue rfl (by rw [hfirst]; decide), hfirst]
    rfl
  · obtain ⟨-, hfirst⟩ := askOp_asked c (loadRead 0) s
    obtain ⟨-, hsecond⟩ := askOp_asked c (loadRead 8) (askCatalogRead c 0 s)
    exact (hsecond d hd).trans (hfirst d hd)

/-- Every channel asked has the two reads queued. -/
theorem askFirstSlots_all {l : List Nat} (hl : l.Nodup) {s : State} (hempty : ∀ c ∈ l, (s.channel c).queue = []) :
    ∀ c, ((l.foldl (fun u c => askFirstSlots c u) s).channel c).queue =
      if c ∈ l then [loadRead 0, loadRead 8] else (s.channel c).queue := by
  induction l generalizing s with
  | nil => simp
  | cons a l ih =>
    obtain ⟨ha, hl⟩ := List.nodup_cons.mp hl
    obtain ⟨hasked, hothers⟩ := askFirstSlots_channel a s
    have hne : ∀ c ∈ l, c ≠ a := fun c hc hca => ha (hca ▸ hc)
    have hrest := ih hl (s := askFirstSlots a s) (fun c hc => by
      rw [hothers c (hne c hc)]
      exact hempty c (List.mem_cons_of_mem a hc))
    intro c
    rw [List.foldl_cons, hrest c]
    by_cases hca : c = a
    · subst hca
      simp [ha, hasked (hempty c List.mem_cons_self)]
    · simp [hca, hothers c hca]

theorem askFirstSlots_present (l : List Nat) (s : State) (c : Nat) :
    ((l.foldl (fun u c => askFirstSlots c u) s).channel c).present = (s.channel c).present := by
  refine foldl_keeps (fun t : State => (t.channel c).present) (fun u c => askFirstSlots c u) (fun t a => ?_) l s
  obtain ⟨-, hfirst, -⟩ := askOp_keepsChannels a (loadRead 0) t c
  obtain ⟨-, hsecond, -⟩ := askOp_keepsChannels a (loadRead 8) (askCatalogRead a 0 t) c
  exact hsecond.trans hfirst

/-! ### Power-up (R177) -/

/-- The part as the search asks its reads. -/
def searching (present : List Bool) (s : State) : State :=
  (poweredUp present s).setLoad (some { target := .search, asked := true })

/-- POWER_UP begins a search. -/
theorem exec_powerUp {present : List Bool} {s : State} (h : s.powered = false) :
    exec (.powerUp present) s = .next (transmitBoth
      (if (poweredUp present (clearFrames s)).presentChannels.isEmpty then
        endLoadWith .unformatted (searching present (clearFrames s))
      else (poweredUp present (clearFrames s)).presentChannels.foldl (fun u c => askFirstSlots c u)
        (searching present (clearFrames s)))) := by
  have hexec : exec (.powerUp present) s = execPowerUp present s := by rfl
  have hoff : ¬ (clearFrames s).powered = true := by simp [h]
  have hquiet : ((poweredUp present (clearFrames s)).setLoad (some { target := .search })).channelsQuiet = true :=
    poweredUp_quiet present (clearFrames s)
  rw [hexec, execPowerUp, turn_next, if_neg hoff, searchLoad, beginReads]
  simp only [State.setLoad, Bool.false_or]
  rw [if_neg (by simpa [State.setLoad] using hquiet)]
  rfl

/-- With a module PRESENT, slots 0 and 8 of each are asked. -/
theorem powerUp_searches {present : List Bool} {s : State} (hp : present.length = 8) (h : s.powered = false)
    (hany : present.any id = true) :
    ∃ t, exec (.powerUp present) s = .next t ∧ t.powered = true ∧ t.cat.archive = .loading ∧
      (∀ q, (t.link q).up = false ∧ (t.link q).outstanding = []) ∧
      (∀ c, c < 8 → (t.channel c).present = present.getD c false) ∧
      (∀ c, c < 8 → present.getD c false = true → (t.channel c).queue.map Op.slot = [0, 8] ∧
        ∀ o ∈ (t.channel c).queue, o.kind = .catalogRead) ∧
      t.media.flash = s.media.flash ∧ t.media.dir = [] := by
  refine ⟨_, exec_powerUp h, ?_⟩
  obtain ⟨x, hx⟩ : ∃ x, x = searching present (clearFrames s) := ⟨_, rfl⟩
  obtain ⟨l, hl⟩ : ∃ l, l = (poweredUp present (clearFrames s)).presentChannels := ⟨_, rfl⟩
  rw [← hl, ← hx]
  have hchannel : ∀ c, x.channel c = if c < 8 then { present := present.getD c false } else {} := fun c => by
    rw [hx]
    exact poweredUp_channel present (clearFrames s) c
  have hmem : ∀ c, c < 8 → (c ∈ l ↔ present.getD c false = true) := fun c hc => by
    rw [hl, mem_presentChannels, poweredUp_channel, if_pos hc]
    simp [hc]
  have hsome : l.isEmpty = false := by
    obtain ⟨b, hb, hid⟩ := List.any_eq_true.mp hany
    obtain ⟨c, hc, rfl⟩ := List.getElem_of_mem hb
    have hcl : c ∈ l := (hmem c (by omega)).mpr (by simpa [hc] using hid)
    rw [List.isEmpty_eq_false_iff]
    exact List.ne_nil_of_mem hcl
  have hnodup : l.Nodup := hl ▸ List.nodup_range.filter _
  obtain ⟨t, ht⟩ : ∃ t, t = l.foldl (fun u c => askFirstSlots c u) x := ⟨_, rfl⟩
  have hqueue := askFirstSlots_all hnodup (s := x) (fun c _ => by
    rw [hchannel]
    split <;> rfl)
  have hpresent := askFirstSlots_present l x
  have hkept : t.powered = x.powered ∧ t.cat = x.cat ∧ (∀ q, t.link q = x.link q) ∧ t.media.flash = x.media.flash ∧
      t.media.dir = x.media.dir := by
    rw [ht]
    exact foldl_inv (fun t : State => t.powered = x.powered ∧ t.cat = x.cat ∧ (∀ q, t.link q = x.link q) ∧
      t.media.flash = x.media.flash ∧ t.media.dir = x.media.dir) (fun u c => askFirstSlots c u)
      (fun u c hu => by simpa [askFirstSlots] using hu) l x ⟨rfl, rfl, fun _ => rfl, rfl, rfl⟩
  rw [hsome, if_neg Bool.false_ne_true, ← ht]
  rw [← ht] at hqueue hpresent
  obtain ⟨hpowered, hcat, hlink, hflash, hdir⟩ := hkept
  have hend : ∀ c, (transmitBoth t).channel c = t.channel c := fun _ => rfl
  refine ⟨by simp [hpowered, hx, searching, State.setLoad, poweredUp], ?_, fun q => ?_, fun c hc => ?_,
    fun c hc hfound => ?_, ?_, ?_⟩
  · simp [hcat, hx, searching, State.setLoad, poweredUp]
  · have hdown : (x.link q).up = false ∧ (x.link q).outstanding = [] := by
      rw [hx]
      cases q <;> exact ⟨rfl, rfl⟩
    simpa [hlink] using hdown
  · rw [hend, hpresent, hchannel, if_pos hc]
  · rw [hend, hqueue, if_pos ((hmem c hc).mpr hfound)]
    exact ⟨rfl, by simp [loadRead]⟩
  · simp [hflash, hx, searching, State.setLoad, poweredUp]
  · simp [hdir, hx, searching, State.setLoad, poweredUp]

/-- Without a module the archive is UNFORMATTED at once. -/
theorem powerUp_unformatted {present : List Bool} {s : State} (h : s.powered = false)
    (hany : present.any id = false) :
    ∃ t, exec (.powerUp present) s = .next t ∧ t.powered = true ∧ t.cat.archive = .unformatted ∧ t.cat.load = none ∧
      (∀ q, (t.link q).up = false) ∧ t.media.flash = s.media.flash := by
  refine ⟨_, exec_powerUp h, ?_⟩
  have hnone : (poweredUp present (clearFrames s)).presentChannels = [] := by
    rw [List.eq_nil_iff_forall_not_mem]
    intro c hc
    obtain ⟨hlt, hfound⟩ := mem_presentChannels.mp hc
    rw [poweredUp_channel, if_pos hlt] at hfound
    simp only at hfound
    rw [List.getD_eq_getElem?_getD] at hfound
    cases hget : present[c]? with
    | none => simp [hget] at hfound
    | some b =>
      have hid := List.any_eq_false.mp hany b (List.mem_of_getElem? hget)
      simp [hget] at hfound
      exact hid (by simpa using hfound)
  rw [hnone]
  refine ⟨by simp [endLoadWith, searching, State.setLoad, poweredUp], by simp [endLoadWith, searching, State.setLoad],
    by simp [endLoadWith, searching, State.setLoad], fun q => ?_,
    by simp [endLoadWith, searching, State.setLoad, poweredUp]⟩
  cases q <;> simp [endLoadWith, searching, State.setLoad] <;> rfl

/-! ### Power loss (R179) -/

/-- What is left of a channel's operation in progress writes no other slot than its own. -/
theorem cutShort_spec (d : Nat) (s : State) :
    (cutShort d s).media.channels = s.media.channels ∧
      ∀ c k, (∀ op, s.inProgress d op = true → d * 8192 + op.slot ≠ c * 8192 + k) →
        (cutShort d s).flashAt c k = s.flashAt c k := by
  unfold cutShort
  split
  · exact ⟨rfl, fun _ _ _ => rfl⟩
  · rename_i op hcurrent
    refine ⟨by simp, fun c k hother => ?_⟩
    exact (leaveInSlot_flashAt d op false s).1 c k (hother op (decide_eq_true hcurrent)).symm

theorem cutShort_all {l : List Nat} {s : State} {c k : Nat}
    (h : ∀ d ∈ l, ∀ op, s.inProgress d op = true → d * 8192 + op.slot ≠ c * 8192 + k) :
    (l.foldl (fun t d => cutShort d t) s).flashAt c k = s.flashAt c k := by
  induction l generalizing s with
  | nil => rfl
  | cons d l ih =>
    obtain ⟨hchannels, hflash⟩ := cutShort_spec d s
    have hsame : ∀ e op, (cutShort d s).inProgress e op = s.inProgress e op := fun e op => by
      rw [State.inProgress, State.channel, hchannels]
      rfl
    rw [List.foldl_cons, ih (fun e he op hop => h e (List.mem_cons_of_mem d he) op ((hsame e op) ▸ hop)),
      hflash c k (h d List.mem_cons_self)]

/-- Settles O52: power-up with a module and without one, and power loss. -/
theorem supplyBeginsAndEnds : Obligations.SupplyBeginsAndEnds := by
  refine fun s => ⟨fun present hp h hany => powerUp_searches hp h hany, fun present h hany => powerUp_unformatted h hany,
    fun h => ?_⟩
  have hexec : exec .powerLoss s = execPowerLoss s := by rfl
  have hon : (clearFrames s).powered = true := by simpa using h
  obtain ⟨held, hheld⟩ : ∃ held,
      held = ((List.range Config.channels).foldl (fun t c => cutShort c t) (clearFrames s)).media.flash := ⟨_, rfl⟩
  have hleft : unpowered (clearFrames s) =
      { pending := (clearFrames s).pending, free := (clearFrames s).free, media := { flash := held } } := by
    rw [hheld]
    rfl
  rw [hexec, execPowerLoss, turn_next, if_pos hon, hleft]
  refine ⟨_, rfl, rfl, rfl, rfl, rfl, rfl, rfl, rfl, rfl, rfl, fun c k hspared => ?_⟩
  have hflash := cutShort_all (l := List.range Config.channels) (s := clearFrames s) (c := c) (k := k)
    (fun d hd op hop => hspared d op (List.mem_range.mp hd) hop)
  rw [State.flashAt, ← hheld] at hflash
  exact hflash

end Sys2Proof.Machine
end

