-- ==== Sys2Proof/Proofs/SlotViews.lean ====
section
/-!
PROOFS. Proofs/SlotViews.lean: what the law of the Slot Map speaks of, as functions of entries, slots, builders and channels,
and the moves of the part that keep the law (R60, R82, R88, R91, R117).
-/

namespace Sys2Proof.Machine
open Sys2Proof

/-- The directory, the Slot Map, the builders, the wait list, the operations asked and the Eraser, as far as the law of the
Slot Map speaks of them (R88). -/
structure SlotView where
  state   : Nat → EntryState
  place   : Nat → Option SlotRef
  slot    : SlotRef → SlotState
  phase   : Nat → BuilderPhase
  entry   : Nat → Nat
  held    : Nat → Bool
  wait    : List Nat
  ops     : Nat → Multiset Op
  erasing : Nat → Bool
  catalog : Option Nat

namespace SlotView

/-! ### The law -/

/-- The builders and the operations asked are linked to the entries and slots they work on (R60, R67, R91, R118). -/
structure Linked (v : SlotView) : Prop where
  builds : ∀ b, v.phase b ≠ .free →
    v.state (v.entry b) = .filling ∨ v.phase b = .closing ∧ v.state (v.entry b) = .writing
  own : ∀ b d, v.phase b ≠ .free → v.phase d ≠ .free → v.entry d = v.entry b → d = b
  rests : ∀ b, v.held b = true ∨ b ∈ v.wait → v.phase b = .closing ∧ v.state (v.entry b) = .filling
  apart : ∀ b ∈ v.wait, v.held b = false
  once : v.wait.Nodup
  writes : ∀ c op b, op ∈ v.ops c → op.requester = .builder b →
    v.phase b = .closing ∧ v.state (v.entry b) = .writing ∧ v.place (v.entry b) = some { channel := c, slot := op.slot }
  erases : ∀ c op, op ∈ v.ops c → op.requester = .eraser → v.erasing c = true ∧
    (∀ e, op.entry = some e → v.state e = .erasing ∧ v.place e = some { channel := c, slot := op.slot }) ∧
    (op.entry = none → v.slot { channel := c, slot := op.slot } = .dirty)
  oneErase : ∀ c, (v.ops c).countP (fun op => op.requester = .eraser) ≤ 1
  oneWrite : ∀ c b, (v.ops c).countP (fun op => op.requester = .builder b) ≤ 1

/-- The slots that entries name are those the Slot Map has USED, and the catalog slots are CATALOG (R82, R88, R90). -/
structure Named (v : SlotView) : Prop where
  placed : ∀ e, (v.place e).isSome = true ↔
    v.state e = .writing ∨ v.state e = .stored ∨ v.state e = .expired ∨ v.state e = .erasing
  used : ∀ e r, v.place e = some r → r.channel < 8 ∧ r.slot < 8192 ∧ v.slot r = .used
  alone : ∀ e f r, v.place e = some r → v.place f = some r → f = e
  covered : ∀ r, r.channel < 8 → v.slot r = .used → ∃ e, v.place e = some r
  catalog : ∀ c k, v.catalog = some c → k < 16 → v.slot { channel := c, slot := k } = .catalog

/-- The law of the view. -/
structure Law (v : SlotView) : Prop extends v.Linked, v.Named

/-! ### The moves -/

/-- An entry takes a state and a place. -/
def putEntry (e : Nat) (st : EntryState) (pl : Option SlotRef) (v : SlotView) : SlotView :=
  { v with state := Function.update v.state e st, place := Function.update v.place e pl }

/-- A slot takes a state. -/
def putSlot (r : SlotRef) (x : SlotState) (v : SlotView) : SlotView := { v with slot := Function.update v.slot r x }

/-- A builder takes a phase and an entry, and is held or not. -/
def putBuilder (b : Nat) (ph : BuilderPhase) (n : Nat) (hd : Bool) (v : SlotView) : SlotView :=
  { v with phase := Function.update v.phase b ph, entry := Function.update v.entry b n, held := Function.update v.held b hd }

/-- The wait list becomes `l`. -/
def putWait (l : List Nat) (v : SlotView) : SlotView := { v with wait := l }

/-- An operation is asked of a channel. -/
def ask (c : Nat) (op : Op) (v : SlotView) : SlotView := { v with ops := Function.update v.ops c (op ::ₘ v.ops c) }

/-- The Eraser has an erase in flight on a channel, or has none. -/
def putErasing (c : Nat) (x : Bool) (v : SlotView) : SlotView := { v with erasing := Function.update v.erasing c x }

theorem putEntry_self (v : SlotView) (e : Nat) : v.putEntry e (v.state e) (v.place e) = v := by simp [putEntry]

theorem putEntry_again (v : SlotView) (e : Nat) (st st' : EntryState) (pl pl' : Option SlotRef) :
    (v.putEntry e st pl).putEntry e st' pl' = v.putEntry e st' pl' := by simp [putEntry]

theorem putBuilder_self (v : SlotView) (b : Nat) : v.putBuilder b (v.phase b) (v.entry b) (v.held b) = v := by
  simp [putBuilder]

end SlotView

/-- No operation asked is that of builder `b`. -/
def SlotView.unasked (v : SlotView) (b : Nat) : Prop := ∀ c, ∀ op ∈ v.ops c, op.requester ≠ .builder b

/-- No operation asked of channel `c` is that of the Eraser. -/
def SlotView.unerased (v : SlotView) (c : Nat) : Prop := ∀ op ∈ v.ops c, op.requester ≠ .eraser

/-- One operation of a kind is asked more, where none was. -/
theorem countP_cons_le {m : Multiset Op} {p : Op → Prop} [DecidablePred p] {op : Op} (hm : m.countP p ≤ 1)
    (h : p op → ∀ o ∈ m, ¬ p o) : (op ::ₘ m).countP p ≤ 1 := by
  by_cases hp : p op
  · rw [Multiset.countP_cons_of_pos m hp, Multiset.countP_eq_zero.mpr (h hp)]
  · rwa [Multiset.countP_cons_of_neg m hp]

namespace SlotView.Law
variable {v : SlotView}
open SlotView

/-! ### Builders (R60, R66, R67, R69, R78, R91) -/

/-- A builder whose entry is not WRITING has no operation asked. -/
theorem unasked (h : v.Law) {b : Nat} (hb : v.phase b = .closing → v.state (v.entry b) ≠ .writing) : v.unasked b :=
  fun c op hop hr => by
    obtain ⟨hclosing, hwriting, -⟩ := h.writes c op b hop hr
    exact hb hclosing hwriting

/-- An entry that is not WRITING, STORED, EXPIRED or ERASING names no slot. -/
theorem place_none (h : v.Law) {e : Nat} (he : v.state e = .free ∨ v.state e = .filling) : v.place e = none := by
  have hplaced := h.placed e
  rw [← Option.not_isSome_iff_eq_none]
  grind

/-- A builder in use is CLOSING, and held only as the law allows (R66, R78, R187). -/
theorem closing (h : v.Law) {b : Nat} {ph : BuilderPhase} {x : Bool} (hp : ph = .closing) (hb : v.phase b ≠ .free)
    (hx : x = true → v.phase b = .closing ∧ v.state (v.entry b) = .filling ∧ b ∉ v.wait) :
    (v.putBuilder b ph (v.entry b) x).Law := by
  subst hp
  exact
  { h with
    builds := by simp only [putBuilder, Function.update_apply]; grind [h.builds]
    own := by simp only [putBuilder, Function.update_apply]; grind [h.own]
    rests := by simp only [putBuilder, Function.update_apply]; grind [h.rests]
    apart := by simp only [putBuilder, Function.update_apply]; grind [h.apart]
    writes := by simp only [putBuilder, Function.update_apply]; grind [h.writes] }

/-- A close joins the slot wait list (R67, R91). -/
theorem wait (h : v.Law) {b : Nat} (hb : v.phase b = .closing) (hf : v.state (v.entry b) = .filling)
    (hh : v.held b = false) (hw : b ∉ v.wait) : (v.putWait (v.wait ++ [b])).Law :=
  { h with
    rests := by simp only [putWait]; grind [h.rests]
    apart := by simp only [putWait]; grind [h.apart]
    once := by
      simp only [putWait, List.nodup_append, List.nodup_singleton, List.mem_singleton, true_and]
      exact ⟨h.once, by grind⟩ }

/-- Closes leave the slot wait list (R91). -/
theorem unwait (h : v.Law) {l : List Nat} (hl : l.Sublist v.wait) : (v.putWait l).Law :=
  { h with
    rests := fun b hb => h.rests b (hb.imp_right (fun hm => hl.subset hm))
    apart := fun b hb => h.apart b (hl.subset hb)
    once := h.once.sublist hl }

/-- The entry of a closing builder is WRITING on a CLEAN slot (R67, R91). -/
theorem write (h : v.Law) {b : Nat} {r : SlotRef} (hb : v.phase b = .closing) (hf : v.state (v.entry b) = .filling)
    (hw : b ∉ v.wait) (hh : v.held b = false) (hr : v.slot r = .clean) (hc : r.channel < 8) (hk : r.slot < 8192) :
    ((v.putEntry (v.entry b) .writing (some r)).putSlot r .used).Law := by
  have hnone := h.place_none (Or.inr hf)
  exact
  { h with
    builds := by simp only [putEntry, putSlot, Function.update_apply]; grind [h.builds, h.own]
    rests := by simp only [putEntry, putSlot, Function.update_apply]; grind [h.rests, h.own]
    writes := by simp only [putEntry, putSlot, Function.update_apply]; grind [h.writes]
    erases := by simp only [putEntry, putSlot, Function.update_apply]; grind [h.erases]
    placed := by simp only [putEntry, putSlot, Function.update_apply]; grind [h.placed]
    used := fun e r' => by
      have hused := h.used e r'
      simp only [putEntry, putSlot, Function.update_apply]
      grind
    alone := by simp only [putEntry, putSlot, Function.update_apply]; grind [h.alone, h.used]
    covered := by simp only [putEntry, putSlot, Function.update_apply]; grind [h.covered]
    catalog := by simp only [putEntry, putSlot, Function.update_apply]; grind [h.catalog] }

/-- The WRITING entry of a builder without an operation returns to FILLING, and its slot is USED no more (R69, R78, R97). -/
theorem unwrite (h : v.Law) {b : Nat} {r : SlotRef} {x : SlotState} (hb : v.phase b = .closing)
    (hf : v.state (v.entry b) = .writing) (hr : v.place (v.entry b) = some r) (hu : v.unasked b) (hx : x ≠ .used) :
    ((v.putEntry (v.entry b) .filling none).putSlot r x).Law := by
  obtain ⟨-, -, hused⟩ := h.used _ _ hr
  exact
  { h with
    builds := by simp only [putEntry, putSlot, Function.update_apply]; grind [h.builds, h.own]
    rests := by simp only [putEntry, putSlot, Function.update_apply]; grind [h.rests, h.own]
    writes := by simp only [putEntry, putSlot, Function.update_apply, SlotView.unasked] at *; grind [h.writes, h.own]
    erases := by simp only [putEntry, putSlot, Function.update_apply]; grind [h.erases]
    placed := by simp only [putEntry, putSlot, Function.update_apply]; grind [h.placed]
    used := fun e r' => by
      have hused := h.used e r'
      simp only [putEntry, putSlot, Function.update_apply]
      grind [h.alone]
    alone := by simp only [putEntry, putSlot, Function.update_apply]; grind [h.alone]
    covered := by simp only [putEntry, putSlot, Function.update_apply]; grind [h.covered]
    catalog := by simp only [putEntry, putSlot, Function.update_apply]; grind [h.catalog] }

/-- The WRITING entry of a builder without an operation is STORED, and the builder FREE (R68). -/
theorem store (h : v.Law) {b : Nat} (hb : v.phase b = .closing) (hf : v.state (v.entry b) = .writing)
    (hu : v.unasked b) :
    ((v.putEntry (v.entry b) .stored (v.place (v.entry b))).putBuilder b .free 0 false).Law :=
  { h with
    builds := by simp only [putEntry, putBuilder, Function.update_apply]; grind [h.builds, h.own]
    own := by simp only [putEntry, putBuilder, Function.update_apply]; grind [h.own]
    rests := by simp only [putEntry, putBuilder, Function.update_apply]; grind [h.rests, h.own]
    apart := by simp only [putEntry, putBuilder, Function.update_apply]; grind [h.apart]
    writes := by simp only [putEntry, putBuilder, Function.update_apply, SlotView.unasked] at *; grind [h.writes, h.own]
    erases := by simp only [putEntry, putBuilder, Function.update_apply]; grind [h.erases]
    placed := by simp only [putEntry, putBuilder, Function.update_apply]; grind [h.placed]
    used := fun e r' => by
      have hused := h.used e r'
      simp only [putEntry, putBuilder, Function.update_apply]
      grind
    alone := by simp only [putEntry, putBuilder, Function.update_apply]; grind [h.alone]
    covered := by simp only [putEntry, putBuilder, Function.update_apply]; grind [h.covered] }

/-- A FREE builder opens on a FREE entry (R61). -/
theorem openOn (h : v.Law) {b e : Nat} (hb : v.phase b = .free) (he : v.state e = .free) :
    ((v.putBuilder b .filling e false).putEntry e .filling none).Law := by
  have hnone := h.place_none (Or.inl he)
  exact
  { h with
    builds := by simp only [putEntry, putBuilder, Function.update_apply]; grind [h.builds]
    own := by simp only [putEntry, putBuilder, Function.update_apply]; grind [h.own, h.builds]
    rests := by simp only [putEntry, putBuilder, Function.update_apply]; grind [h.rests]
    apart := by simp only [putEntry, putBuilder, Function.update_apply]; grind [h.apart]
    writes := by simp only [putEntry, putBuilder, Function.update_apply]; grind [h.writes]
    erases := by simp only [putEntry, putBuilder, Function.update_apply]; grind [h.erases]
    placed := by simp only [putEntry, putBuilder, Function.update_apply]; grind [h.placed]
    used := fun e r' => by
      have hused := h.used e r'
      simp only [putEntry, putBuilder, Function.update_apply]
      grind
    alone := by simp only [putEntry, putBuilder, Function.update_apply]; grind [h.alone]
    covered := by simp only [putEntry, putBuilder, Function.update_apply]; grind [h.covered] }

/-- A builder held by a page error is FREE, and its entry with it (R190). -/
theorem abandon (h : v.Law) {b : Nat} (hb : v.held b = true) :
    ((v.putEntry (v.entry b) .free none).putBuilder b .free 0 false).Law := by
  obtain ⟨hclosing, hfilling⟩ := h.rests b (Or.inl hb)
  have hnone := h.place_none (Or.inr hfilling)
  exact
  { h with
    builds := by simp only [putEntry, putBuilder, Function.update_apply]; grind [h.builds, h.own]
    own := by simp only [putEntry, putBuilder, Function.update_apply]; grind [h.own]
    rests := by simp only [putEntry, putBuilder, Function.update_apply]; grind [h.rests, h.own, h.apart]
    apart := by simp only [putEntry, putBuilder, Function.update_apply]; grind [h.apart]
    writes := by simp only [putEntry, putBuilder, Function.update_apply]; grind [h.writes, h.own]
    erases := by simp only [putEntry, putBuilder, Function.update_apply]; grind [h.erases]
    placed := by simp only [putEntry, putBuilder, Function.update_apply]; grind [h.placed]
    used := fun e r' => by
      have hused := h.used e r'
      simp only [putEntry, putBuilder, Function.update_apply]
      grind
    alone := by simp only [putEntry, putBuilder, Function.update_apply]; grind [h.alone]
    covered := by simp only [putEntry, putBuilder, Function.update_apply]; grind [h.covered] }

/-! ### Sweeps and the Eraser (R111, R115, R118 to R120) -/

/-- A STORED or EXPIRED entry is marked STORED or EXPIRED (R111, R115, R130). -/
theorem mark (h : v.Law) {e : Nat} {x : EntryState} (he : v.state e = .stored ∨ v.state e = .expired)
    (hx : x = .stored ∨ x = .expired) : (v.putEntry e x (v.place e)).Law :=
  { h with
    builds := by simp only [putEntry, Function.update_apply]; grind [h.builds]
    rests := by simp only [putEntry, Function.update_apply]; grind [h.rests]
    writes := by simp only [putEntry, Function.update_apply]; grind [h.writes]
    erases := by simp only [putEntry, Function.update_apply]; grind [h.erases]
    placed := by simp only [putEntry, Function.update_apply]; grind [h.placed]
    used := by simpa [putEntry] using h.used
    alone := by simpa [putEntry] using h.alone
    covered := by simpa [putEntry] using h.covered }

/-- An EXPIRED or ERASING entry becomes ERASING (R118, R120). -/
theorem erase (h : v.Law) {e : Nat} (he : v.state e = .expired ∨ v.state e = .erasing) :
    (v.putEntry e .erasing (v.place e)).Law :=
  { h with
    builds := by simp only [putEntry, Function.update_apply]; grind [h.builds]
    rests := by simp only [putEntry, Function.update_apply]; grind [h.rests]
    writes := by simp only [putEntry, Function.update_apply]; grind [h.writes]
    erases := by simp only [putEntry, Function.update_apply]; grind [h.erases]
    placed := by simp only [putEntry, Function.update_apply]; grind [h.placed]
    used := by simpa [putEntry] using h.used
    alone := by simpa [putEntry] using h.alone
    covered := by simpa [putEntry] using h.covered }

/-- The Eraser has an erase in flight on a channel (R117). -/
theorem beginErase (h : v.Law) (c : Nat) : (v.putErasing c true).Law :=
  { h with
    erases := fun d op hop hr => (h.erases d op hop hr).imp_left (fun hd => by
      simp only [putErasing, Function.update_apply]
      split
      · rfl
      · exact hd) }

/-- The Eraser's erase on a channel is in flight no more: no operation there is its own (R118 to R120). -/
theorem endErase (h : v.Law) {c : Nat} (hc : v.unerased c) : (v.putErasing c false).Law :=
  { h with erases := by simp only [putErasing, Function.update_apply, unerased] at *; grind [h.erases] }

/-- The entry erased is FREE, and its slot is USED no more (R118). -/
theorem free (h : v.Law) {e : Nat} {r : SlotRef} {x : SlotState} (he : v.state e = .erasing) (hr : v.place e = some r)
    (hc : v.unerased r.channel) (hx : x ≠ .used) : ((v.putEntry e .free none).putSlot r x).Law := by
  obtain ⟨-, -, hused⟩ := h.used _ _ hr
  exact
  { h with
    builds := by simp only [putEntry, putSlot, Function.update_apply]; grind [h.builds]
    rests := by simp only [putEntry, putSlot, Function.update_apply]; grind [h.rests]
    writes := by simp only [putEntry, putSlot, Function.update_apply]; grind [h.writes]
    erases := by simp only [putEntry, putSlot, Function.update_apply, unerased] at *; grind [h.erases]
    placed := by simp only [putEntry, putSlot, Function.update_apply]; grind [h.placed]
    used := fun e r' => by
      have hused := h.used e r'
      simp only [putEntry, putSlot, Function.update_apply]
      grind [h.alone]
    alone := by simp only [putEntry, putSlot, Function.update_apply]; grind [h.alone]
    covered := by simp only [putEntry, putSlot, Function.update_apply]; grind [h.covered]
    catalog := by simp only [putEntry, putSlot, Function.update_apply]; grind [h.catalog] }

/-- A DIRTY slot that the Eraser has erased is CLEAN or DEFECTIVE (R119). -/
theorem clean (h : v.Law) {r : SlotRef} {x : SlotState} (hr : v.slot r = .dirty) (hc : v.unerased r.channel)
    (hx : x ≠ .used) : (v.putSlot r x).Law :=
  { h with
    erases := by simp only [putSlot, Function.update_apply, unerased] at *; grind [h.erases]
    used := fun e r' => by
      have hused := h.used e r'
      simp only [putSlot, Function.update_apply]
      grind
    covered := by simp only [putSlot, Function.update_apply]; grind [h.covered]
    catalog := by simp only [putSlot, Function.update_apply]; grind [h.catalog] }

/-! ### The Slot Map and the operations asked (R93, R95, R96, R99) -/

/-- CLEAN slots become DIRTY (R93). -/
theorem dirty (h : v.Law) {f : SlotRef → SlotState} (hf : ∀ r, f r = v.slot r ∨ v.slot r = .clean ∧ f r = .dirty) :
    ({ v with slot := f } : SlotView).Law :=
  { h with
    erases := by grind [h.erases]
    used := fun e r => by
      have hused := h.used e r
      grind
    covered := by grind [h.covered]
    catalog := by grind [h.catalog] }

/-- An operation is asked: its requester stands behind it, and has none other on the channel (R67, R95, R118). -/
theorem ask (h : v.Law) {c : Nat} {op : Op}
    (hw : ∀ b, op.requester = .builder b → v.unasked b ∧
      v.phase b = .closing ∧ v.state (v.entry b) = .writing ∧ v.place (v.entry b) = some { channel := c, slot := op.slot })
    (he : op.requester = .eraser → v.unerased c ∧ v.erasing c = true ∧
      (∀ e, op.entry = some e → v.state e = .erasing ∧ v.place e = some { channel := c, slot := op.slot }) ∧
      (op.entry = none → v.slot { channel := c, slot := op.slot } = .dirty)) : (v.ask c op).Law :=
  { h with
    writes := by simp only [SlotView.ask, Function.update_apply]; grind [h.writes]
    erases := by simp only [SlotView.ask, Function.update_apply]; grind [h.erases]
    oneErase := fun d => by
      simp only [SlotView.ask, Function.update_apply]
      split
      · exact countP_cons_le (h.oneErase c) (fun hr => (he hr).1)
      · exact h.oneErase d
    oneWrite := fun d b => by
      simp only [SlotView.ask, Function.update_apply]
      split
      · exact countP_cons_le (h.oneWrite c b) (fun hr => (hw b hr).1 c)
      · exact h.oneWrite d b }

/-- An operation that neither a builder nor the Eraser asks (R95). -/
theorem askOther (h : v.Law) {c : Nat} {op : Op} (hw : ∀ b, op.requester ≠ .builder b) (he : op.requester ≠ .eraser) :
    (v.ask c op).Law :=
  h.ask (fun b hr => absurd hr (hw b)) (fun hr => absurd hr he)

/-- A closing builder without a slot is given a CLEAN one, and its WRITE is asked (R67, R91). -/
theorem give {b : Nat} {r : SlotRef} {op : Op} (h : (v.putEntry (v.entry b) .filling none).Law)
    (hb : v.phase b = .closing) (hw : b ∉ v.wait) (hh : v.held b = false) (hr : v.slot r = .clean)
    (hc : r.channel < 8) (hk : r.slot < 8192) (ho : op.requester = .builder b) (hs : op.slot = r.slot) :
    (((v.putEntry (v.entry b) .writing (some r)).putSlot r .used).ask r.channel op).Law := by
  have hfilling : (v.putEntry (v.entry b) .filling none).state (v.entry b) = .filling := by simp [putEntry]
  have hunasked : v.unasked b := h.unasked (b := b) (fun _ => by simp [putEntry])
  have hwritten := h.write (b := b) (r := r) hb hfilling hw hh hr hc hk
  rw [show (v.putEntry (v.entry b) .filling none).entry b = v.entry b from rfl, putEntry_again] at hwritten
  refine hwritten.ask (fun d hd => ?_) (fun he => by simp [ho] at he)
  obtain rfl : b = d := by simpa [ho] using hd
  refine ⟨hunasked, hb, ?_, ?_⟩
  · simp [putEntry, putSlot]
  · simp [putEntry, putSlot, hs]

end SlotView.Law
end Sys2Proof.Machine
end

