-- ==== Sys2Proof/Proofs/SlotMapViews.lean ====
section
/-!
PROOFS. Proofs/SlotMapViews.lean: the view of the Slot Map's law at a state, in the course of a command: the operation that a
command ends is none of its requester's any more, though it stays at the head of its channel's queue until the command is
done (R88, R96).
-/

namespace Sys2Proof.Machine
open Sys2Proof

/-! ### The view of a state -/

/-- The operations that stand asked of a channel: those in its queue or waiting outside, but for the one in progress on the
channel `h`, which a command is ending (R95, R96). -/
def State.standing (s : State) (h : Option Nat) (c : Nat) : List Op :=
  (if h = some c then (s.channel c).queue.tail else (s.channel c).queue) ++ (s.channel c).outside

/-- What the law of the Slot Map speaks of, while the operation in progress on channel `h` ends. -/
def State.view (s : State) (h : Option Nat) : SlotView where
  state e := (s.entry e).state
  place e := (s.entry e).slot
  slot r := s.slotState r
  phase b := (s.builder b).phase
  entry b := (s.builder b).entry
  held b := (s.builder b).pageHeld
  wait := s.media.slotWait
  ops c := (s.standing h c : Multiset Op)
  erasing c := (s.eraseOn c).isSome
  catalog := s.cat.channel

/-- The channel whose operation a command is ending has that operation in progress. -/
def State.occupied (s : State) (h : Option Nat) : Prop := ∀ c, h = some c → (s.channel c).current.isSome = true

@[simp] theorem standing_none (s : State) (c : Nat) : s.standing none c = s.asked c := rfl

/-! ### What a state's law says of its view -/

/-- No two operations of a list are of one kind exactly where at most one is. -/
theorem pairwise_not_iff_countP {l : List Op} {p : Op → Prop} [DecidablePred p] :
    l.Pairwise (fun a b => p a → ¬ p b) ↔ (l : Multiset Op).countP p ≤ 1 := by
  rw [Multiset.coe_countP]
  induction l with
  | nil => simp
  | cons a l ih =>
    rw [List.pairwise_cons, ih]
    by_cases ha : p a
    · rw [List.countP_cons_of_pos (p := fun o => decide (p o)) (decide_eq_true ha)]
      have hzero : l.countP (fun o => decide (p o)) = 0 ↔ ∀ b ∈ l, ¬ p b := by simp [List.countP_eq_zero]
      simp only [ha, true_implies, ← hzero]
      omega
    · rw [List.countP_cons_of_neg (p := fun o => decide (p o)) (by simpa using ha)]
      simp [ha]

/-- Of the operations asked of one channel, no two are the Eraser's, and no two one builder's (R95, R117). -/
theorem pairwise_asks_iff {l : List Op} :
    l.Pairwise (fun a b => (a.requester = .eraser → b.requester ≠ .eraser) ∧
        ∀ n, a.requester = .builder n → b.requester ≠ .builder n) ↔
      (l : Multiset Op).countP (fun op => op.requester = .eraser) ≤ 1 ∧
        ∀ b, (l : Multiset Op).countP (fun op => op.requester = .builder b) ≤ 1 := by
  simp only [← pairwise_not_iff_countP, List.pairwise_iff_forall_sublist]
  exact ⟨fun h => ⟨fun hl => (h hl).1, fun b _ _ hl => (h hl).2 b⟩, fun h _ _ hl => ⟨h.1 hl, fun b => h.2 b hl⟩⟩

theorem opLinked_iff (s : State) (c : Nat) (op : Op) : s.opLinked c op ↔
    (∀ b, op.requester = .builder b → (s.builder b).phase = .closing ∧ (s.entry (s.builder b).entry).state = .writing ∧
      (s.entry (s.builder b).entry).slot = some { channel := c, slot := op.slot }) ∧
    (op.requester = .eraser → (s.eraseOn c).isSome = true ∧
      (∀ e, op.entry = some e → (s.entry e).state = .erasing ∧
        (s.entry e).slot = some { channel := c, slot := op.slot }) ∧
      (op.entry = none → s.slotState { channel := c, slot := op.slot } = .dirty)) := by
  unfold State.opLinked
  cases op.requester <;> cases op.entry <;> simp

/-- The links of a state are those of its view (R60, R67, R91, R118). -/
theorem linked_iff (s : State) : (s.view none).Linked ↔ s.buildersLinked ∧ s.opsLinked := by
  constructor
  · intro h
    refine ⟨⟨fun b hb => ⟨h.builds b hb, fun d hd he => h.own b d hb hd he⟩, h.rests, h.apart, h.once⟩, fun c => ⟨?_, ?_⟩⟩
    · exact fun op hop => (opLinked_iff s c op).mpr ⟨fun b => h.writes c op b hop, h.erases c op hop⟩
    · exact pairwise_asks_iff.mpr ⟨h.oneErase c, h.oneWrite c⟩
  · rintro ⟨⟨hbuilds, hrests, hapart, honce⟩, hops⟩
    exact
    { builds := fun b hb => (hbuilds b hb).1
      own := fun b d hb hd he => (hbuilds b hb).2 d hd he
      rests := hrests
      apart := hapart
      once := honce
      writes := fun c op b hop => ((opLinked_iff s c op).mp ((hops c).1 op hop)).1 b
      erases := fun c op hop => ((opLinked_iff s c op).mp ((hops c).1 op hop)).2
      oneErase := fun c => (pairwise_asks_iff.mp (hops c).2).1
      oneWrite := fun c => (pairwise_asks_iff.mp (hops c).2).2 }

/-- The slots that a state's entries name are those of its view, whatever operation ends (R82, R88). -/
theorem named_iff (s : State) (h : Option Nat) : (s.view h).Named ↔ s.slotsNamed ∧ s.catalogKept := by
  have hplaced : ∀ e, ((s.entry e).slot.isSome =
      (decide ((s.entry e).state = .writing) || decide ((s.entry e).state = .stored) ||
        decide ((s.entry e).state = .expired) || decide ((s.entry e).state = .erasing))) ↔
      ((s.entry e).slot.isSome = true ↔ (s.entry e).state = .writing ∨ (s.entry e).state = .stored ∨
        (s.entry e).state = .expired ∨ (s.entry e).state = .erasing) := fun e => by
    rw [Bool.eq_iff_iff]
    simp [or_assoc]
  constructor
  · intro hn
    refine ⟨⟨fun e => (hplaced e).mpr (hn.placed e), fun e r hr => ?_, hn.covered⟩, hn.catalog⟩
    obtain ⟨hchannel, hslot, hused⟩ := hn.used e r hr
    exact ⟨hchannel, hslot, hused, fun f => hn.alone e f r hr⟩
  · rintro ⟨⟨hisSome, hnamed, hcovered⟩, hcatalog⟩
    exact
    { placed := fun e => (hplaced e).mp (hisSome e)
      used := fun e r hr => ⟨(hnamed e r hr).1, (hnamed e r hr).2.1, (hnamed e r hr).2.2.1⟩
      alone := fun e f r hr => (hnamed e r hr).2.2.2 f
      covered := hcovered
      catalog := hcatalog }

/-! ### The view after each write -/

/-- The view depends on the directory, the channels, the wait list, the builders, the erases in flight and the catalog channel
alone. -/
theorem view_congr {s t : State} (h : Option Nat) (hd : t.media.dir = s.media.dir)
    (hc : t.media.channels = s.media.channels) (hw : t.media.slotWait = s.media.slotWait)
    (hb : t.comp.builders = s.comp.builders) (he : t.ret.erasing = s.ret.erasing) (hk : t.cat.channel = s.cat.channel) :
    t.view h = s.view h := by
  simp only [State.view, State.entry, State.slotState, State.standing, State.channel, State.builder, State.eraseOn, hd, hc, hw,
    hb, he, hk]

section
variable (s : State) (h : Option Nat)

theorem setEntry_view (e : Nat) (v : DirEntry) : (s.setEntry e v).view h = (s.view h).putEntry e v.state v.slot := by
  simp only [State.view, SlotView.putEntry, SlotView.mk.injEq]
  refine ⟨?_, ?_, rfl, rfl, rfl, rfl, rfl, rfl, rfl, rfl⟩ <;>
  · funext i
    rw [State.setEntry_entry, Function.update_apply]
    split <;> rfl

theorem setBuilder_view (b : Nat) (v : Builder) :
    (s.setBuilder b v).view h = (s.view h).putBuilder b v.phase v.entry v.pageHeld := by
  simp only [State.view, SlotView.putBuilder, SlotView.mk.injEq]
  refine ⟨rfl, rfl, rfl, ?_, ?_, ?_, rfl, rfl, rfl, rfl⟩ <;>
  · funext i
    rw [State.setBuilder_builder, Function.update_apply]
    split <;> rfl

theorem setSlotState_standing (r : SlotRef) (x : SlotState) (c : Nat) :
    (s.setSlotState r x).standing h c = s.standing h c := by
  unfold State.standing State.setSlotState
  by_cases hc : c = r.channel
  · rw [hc, State.setChannel_channel_same]
    rfl
  · rw [State.setChannel_channel_ne _ _ _ hc]

theorem setSlotState_view (r : SlotRef) (x : SlotState) : (s.setSlotState r x).view h = (s.view h).putSlot r x := by
  simp only [State.view, SlotView.putSlot, SlotView.mk.injEq]
  refine ⟨rfl, rfl, ?_, rfl, rfl, rfl, rfl, ?_, rfl, rfl⟩
  · funext i
    rw [setSlotState_slotState, Function.update_apply]
  · funext c
    rw [setSlotState_standing]

end

/-! ### Operations asked and ended (R95, R96) -/

theorem current_isSome_iff (ch : Channel) : ch.current.isSome = true ↔ ch.started.isSome = true ∧ ch.queue ≠ [] := by
  unfold Channel.current
  split <;> cases ch.queue <;> simp_all

/-- An operation that joins behind the one in progress. -/
theorem Channel.join_tail {ch : Channel} (op : Op) (hc : ch.current.isSome = true) :
    (ch.join op).queue.tail.Perm (op :: ch.queue.tail) := by
  obtain ⟨hstarted, hqueue⟩ := (current_isSome_iff ch).mp hc
  obtain ⟨o, q, hq⟩ := List.exists_cons_of_ne_nil hqueue
  obtain ⟨q', hq', -⟩ := ch.join_head op hstarted hq
  have hperm := (ch.join_perm op).1
  rw [hq', hq] at hperm
  rw [hq', hq]
  exact (hperm.trans (List.Perm.swap o op q)).cons_inv

/-- An operation asked of a channel stands there, and the others as before. -/
theorem Channel.ask_tail {ch : Channel} (op : Op) (hc : ch.current.isSome = true) :
    ((ch.ask op).queue.tail ++ (ch.ask op).outside).Perm (op :: (ch.queue.tail ++ ch.outside)) := by
  unfold Channel.ask
  split
  · rw [(ch.join_perm op).2]
    exact (ch.join_tail op hc).append_right _
  · rw [← List.append_assoc]
    exact List.perm_append_singleton _ _

theorem askOp_standing {s : State} {h : Option Nat} (ho : s.occupied h) (c : Nat) (op : Op) :
    ((askOp c op s).standing h c).Perm (op :: s.standing h c) := by
  have hstarted := startNext_channel c c (s.setChannel c ((s.channel c).ask op))
  rw [State.setChannel_channel_same] at hstarted
  unfold State.standing askOp
  rw [hstarted.1, hstarted.2]
  split
  · exact Channel.ask_tail op (ho c ‹_›)
  · exact Channel.ask_perm _ op

theorem askOp_view {s : State} {h : Option Nat} (ho : s.occupied h) (c : Nat) (op : Op) :
    (askOp c op s).view h = (s.view h).ask c op := by
  simp only [State.view, SlotView.ask, SlotView.mk.injEq]
  refine ⟨?_, ?_, ?_, ?_, ?_, ?_, ?_, ?_, ?_, ?_⟩
  case refine_8 =>
    funext d
    rw [Function.update_apply]
    split
    · rename_i hd
      rw [hd]
      exact Multiset.coe_eq_coe.mpr (askOp_standing ho c op)
    · rename_i hd
      rw [State.standing, (askOp_asked c op s).2 d hd]
      rfl
  all_goals simp [State.entry, State.builder, State.eraseOn]

theorem askOp_occupied {s : State} {h : Option Nat} (ho : s.occupied h) (c : Nat) (op : Op) :
    (askOp c op s).occupied h := fun d hd => by
  obtain ⟨o, ho⟩ := Option.isSome_iff_exists.mp (ho d hd)
  have hkept : (askOp c op s).inProgress d o = true := askOp_current (by simp [State.inProgress, ho])
  rw [State.inProgress, decide_eq_true_eq] at hkept
  simp [hkept]

/-- The channels whose queues stand as they were have the operations in progress that they had. -/
theorem occupied_congr {s t : State} {h : Option Nat} (ho : s.occupied h)
    (hc : ∀ c, (t.channel c).started = (s.channel c).started ∧ (t.channel c).queue = (s.channel c).queue) :
    t.occupied h := fun c hd => by
  obtain ⟨hstarted, hqueue⟩ := hc c
  rw [current_isSome_iff, hstarted, hqueue, ← current_isSome_iff]
  exact ho c hd

/-! ### The part at work -/

/-- The part neither loads nor formats, and its tables stand in their order, so that its searches find what they look for. -/
structure State.Settled (s : State) : Prop where
  unloaded : s.cat.load = none
  unformatted : s.cat.format = none
  entries : Tbl.rising s.media.dir = true
  builders : Tbl.rising s.comp.builders = true
  slots : ∀ c, Tbl.rising (s.channel c).slots = true

/-- The law of the Slot Map, of a part that neither loads nor formats, while the operation in progress on channel `h` ends. -/
structure State.AtWork (h : Option Nat) (s : State) : Prop extends s.Settled where
  occupied : s.occupied h
  law : (s.view h).Law

namespace State.AtWork
variable {h : Option Nat} {s t : State}

/-- What the law speaks of, and the tables searched, stand as they were. -/
theorem congr (hs : s.AtWork h) (hd : t.media.dir = s.media.dir) (hc : t.media.channels = s.media.channels)
    (hw : t.media.slotWait = s.media.slotWait) (hb : t.comp.builders = s.comp.builders)
    (he : t.ret.erasing = s.ret.erasing) (hk : t.cat.channel = s.cat.channel) (hl : t.cat.load = s.cat.load)
    (hf : t.cat.format = s.cat.format) : t.AtWork h where
  unloaded := hl.trans hs.unloaded
  unformatted := hf.trans hs.unformatted
  entries := hd ▸ hs.entries
  builders := hb ▸ hs.builders
  slots c := by simpa only [State.channel, hc] using hs.slots c
  occupied := occupied_congr hs.occupied (fun c => by simp only [State.channel, hc, and_self])
  law := by
    rw [view_congr h hd hc hw hb he hk]
    exact hs.law

/-- An entry is written. -/
theorem setEntry (hs : s.AtWork h) {e : Nat} {v : DirEntry} (hl : ((s.view h).putEntry e v.state v.slot).Law) :
    (s.setEntry e v).AtWork h :=
  { hs with
    entries := Tbl.rising_set hs.entries _ _ _
    law := by rwa [setEntry_view] }

end State.AtWork
end Sys2Proof.Machine
end

