-- ==== Sys2Proof/Proofs/SlotMapActs.lean ====
section
/-!
PROOFS. Proofs/SlotMapActs.lean: the acts of compaction and of the Eraser keep the law of the Slot Map (R60 to R72, R78, R91,
R117 to R120).
-/

namespace Sys2Proof.Machine
open Sys2Proof

/-! ### What the searches find (R61, R91, R117) -/

/-- The slot a search of a channel finds is in the state sought. -/
theorem lowest_spec {ch : Channel} (hr : Tbl.rising ch.slots = true) {st : SlotState} {k : Nat} (h : ch.lowest st = some k) :
    k < 8192 ∧ ch.slot k = st := by
  obtain ⟨hk, hst⟩ := Tbl.nextFrom_some_get (p := fun v => decide (v = st)) (d := ch.rest) hr h
  exact ⟨hk, of_decide_eq_true hst⟩

theorem mem_channelOrder {c p : Nat} : c ∈ channelOrder p ↔ c < 8 := by
  simp only [channelOrder, Config.channels, List.mem_map, List.mem_range]
  exact ⟨fun ⟨i, _, hi⟩ => by omega, fun hc => ⟨(c + 7 * (p + 1)) % 8, by omega, by omega⟩⟩

/-- An allocation gives a CLEAN slot of an ONLINE channel, of the one to be avoided only where no other offers one (R91). -/
theorem pickSlot_spec {s : State} (hr : ∀ c, Tbl.rising (s.channel c).slots = true) {avoid : Option Nat} {r : SlotRef}
    (h : s.pickSlot avoid = some r) :
    s.slotState r = .clean ∧ (s.channel r.channel).mode = .online ∧ r.channel < 8 ∧ r.slot < 8192 ∧
      (avoid = some r.channel → ∀ c, c < 8 → c ≠ r.channel → (s.channel c).offers = false) := by
  have hlowest := pickSlot_lowest h
  obtain ⟨hslot, hclean⟩ := lowest_spec (hr r.channel) hlowest
  obtain ⟨cs, hcs⟩ : ∃ cs, cs = (channelOrder s.media.pointer).filter (fun c => (s.channel c).offers) := ⟨_, rfl⟩
  have hchosen : (cs.find? (fun c => some c != avoid)).orElse (fun _ => cs.head?) = some r.channel := by
    simp only [State.pickSlot, ← hcs] at h
    split at h
    · cases h
    · rename_i c hc
      obtain ⟨k, -, rfl⟩ := Option.map_eq_some_iff.mp h
      exact hc
  have hoffers : r.channel ∈ cs := by
    cases hfind : cs.find? (fun c => some c != avoid) with
    | some c =>
      rw [hfind] at hchosen
      cases hchosen
      exact List.mem_of_find?_eq_some hfind
    | none =>
      rw [hfind] at hchosen
      exact List.mem_of_mem_head? hchosen
  rw [hcs, List.mem_filter, mem_channelOrder] at hoffers
  obtain ⟨hchannel, hoffers⟩ := hoffers
  refine ⟨hclean, of_decide_eq_true (Bool.and_eq_true_iff.mp hoffers).1, hchannel, hslot, fun havoid c hc hne => ?_⟩
  by_contra hother
  have hmem : c ∈ cs := by
    rw [hcs, List.mem_filter, mem_channelOrder]
    exact ⟨hc, by simpa using hother⟩
  cases hfind : cs.find? (fun c => some c != avoid) with
  | some d =>
    rw [hfind] at hchosen
    cases hchosen
    have hd := List.find?_some hfind
    simp [havoid] at hd
  | none =>
    have hnone := List.find?_eq_none.mp hfind c hmem
    simp [havoid, hne] at hnone

/-- The entry a search of a channel finds has its slot there, and satisfies the test. -/
theorem lowestEntry_place {s : State} (hr : Tbl.rising s.media.dir = true) {c e : Nat} {p : DirEntry → Bool}
    (h : s.lowestEntry c p = some e) : p (s.entry e) = true ∧ ∃ k, (s.entry e).slot = some { channel := c, slot := k } := by
  obtain ⟨-, htest⟩ := Tbl.nextFrom_some_get (p := fun v => onChannel c v && p v) (d := ({} : DirEntry)) hr h
  obtain ⟨hon, hp⟩ := Bool.and_eq_true_iff.mp htest
  refine ⟨hp, ?_⟩
  simp only [onChannel] at hon
  split at hon
  · cases hon
  · rename_i r hr
    exact ⟨r.slot, by rw [State.entry, hr, ← of_decide_eq_true hon]⟩

/-! ### Tables in their order -/

namespace State.Settled
variable {s : State}

theorem setEntry (hs : s.Settled) (e : Nat) (v : DirEntry) : (s.setEntry e v).Settled :=
  { hs with entries := Tbl.rising_set hs.entries _ _ _ }

theorem setBuilder (hs : s.Settled) (b : Nat) (v : Builder) : (s.setBuilder b v).Settled :=
  { hs with builders := Tbl.rising_set hs.builders _ _ _ }

theorem setSlotState (hs : s.Settled) (r : SlotRef) (x : SlotState) : (s.setSlotState r x).Settled :=
  { hs with
    slots := fun c => by
      rw [State.setSlotState, State.setChannel_channel]
      split
      · exact Tbl.rising_set (hs.slots r.channel) _ _ _
      · exact hs.slots c }

theorem askOp (hs : s.Settled) (c : Nat) (op : Op) : (askOp c op s).Settled where
  unloaded := by simpa using hs.unloaded
  unformatted := by simpa using hs.unformatted
  entries := by simpa using hs.entries
  builders := by simpa using hs.builders
  slots d := by simpa only [askOp_slots] using hs.slots d

end State.Settled

theorem setSlotState_occupied {s : State} {h : Option Nat} (ho : s.occupied h) (r : SlotRef) (x : SlotState) :
    (s.setSlotState r x).occupied h :=
  occupied_congr ho (fun c => by
    rw [State.setSlotState, State.setChannel_channel]
    split
    · rename_i hc
      rw [hc]
      exact ⟨rfl, rfl⟩
    · exact ⟨rfl, rfl⟩)

/-- What the law speaks of, once a closing builder is given a slot (R67, R91). -/
theorem giveSlot_view {s : State} {h : Option Nat} (ho : s.occupied h) (b : Nat) (r : SlotRef) (retry : Bool) :
    (giveSlot b r retry s).view h =
      (((s.view h).putEntry (s.builder b).entry .writing (some r)).putSlot r .used).ask r.channel
        (builderWrite b (s.builder b) r.slot) := by
  have hslot := setSlotState_view (s.setEntry (s.builder b).entry (s.writingEntry (s.builder b) r retry)) h r .used
  rw [setEntry_view] at hslot
  rw [giveSlot, askOp_view]
  · exact congrArg (fun v => SlotView.ask r.channel (builderWrite b (s.builder b) r.slot) v) hslot
  · exact setSlotState_occupied (s := s.setEntry (s.builder b).entry (s.writingEntry (s.builder b) r retry)) ho r .used

namespace State.AtWork
variable {h : Option Nat} {s : State}

/-! ### Single writes -/

/-- An act that leaves the media, the builders and the catalog, and the erases in flight, as they were. -/
theorem keeps {t : State} (hs : s.AtWork h) (hm : t.media = s.media) (hb : t.comp.builders = s.comp.builders)
    (he : t.ret.erasing = s.ret.erasing) (hk : t.cat.channel = s.cat.channel ∧ t.cat.load = s.cat.load ∧
      t.cat.format = s.cat.format) : t.AtWork h :=
  hs.congr (by rw [hm]) (by rw [hm]) (by rw [hm]) hb he hk.1 hk.2.1 hk.2.2

/-- An entry keeps its state and its slot. -/
theorem rewriteEntry (hs : s.AtWork h) {e : Nat} {v : DirEntry} (hst : v.state = (s.entry e).state)
    (hpl : v.slot = (s.entry e).slot) : (s.setEntry e v).AtWork h := by
  refine hs.setEntry ?_
  rw [hst, hpl]
  exact (SlotView.putEntry_self (s.view h) e).symm ▸ hs.law

/-- A builder is written. -/
theorem setBuilder (hs : s.AtWork h) {b : Nat} {v : Builder}
    (hl : ((s.view h).putBuilder b v.phase v.entry v.pageHeld).Law) : (s.setBuilder b v).AtWork h :=
  { hs.toSettled.setBuilder b v with
    occupied := hs.occupied
    law := by rwa [setBuilder_view] }

/-- A builder keeps its phase and its entry, and is held as it was. -/
theorem rewriteBuilder (hs : s.AtWork h) {b : Nat} {v : Builder} (hp : v.phase = (s.builder b).phase)
    (he : v.entry = (s.builder b).entry) (hh : v.pageHeld = (s.builder b).pageHeld) : (s.setBuilder b v).AtWork h := by
  refine hs.setBuilder ?_
  rw [hp, he, hh]
  exact (SlotView.putBuilder_self (s.view h) b).symm ▸ hs.law

/-- The wait list loses closes (R91). -/
theorem unwait (hs : s.AtWork h) {l : List Nat} (hl : l.Sublist s.media.slotWait) :
    ({ s with media := { s.media with slotWait := l } } : State).AtWork h :=
  { hs with law := hs.law.unwait hl }

/-- An operation that neither a builder nor the Eraser asks (R95). -/
theorem askOther (hs : s.AtWork h) {c : Nat} {op : Op} (hw : ∀ b, op.requester ≠ .builder b)
    (he : op.requester ≠ .eraser) : (askOp c op s).AtWork h :=
  { hs.toSettled.askOp c op with
    occupied := askOp_occupied hs.occupied c op
    law := by
      rw [askOp_view hs.occupied]
      exact hs.law.askOther hw he }

/-- A FILLING entry returned to FILLING keeps what the law speaks of. -/
theorem refill (hs : s.AtWork h) {e : Nat} (he : (s.entry e).state = .filling) : (toFilling e s).AtWork h :=
  hs.rewriteEntry he.symm (hs.law.place_none (Or.inr he)).symm

end State.AtWork

section
variable {h : Option Nat} {s : State}

/-! ### Faults (R48, R185) -/

theorem raiseFault_atWork (hs : s.AtWork h) (f : FaultInfo) : (raiseFault f s).AtWork h :=
  hs.congr (by simp) (by simp) (by simp) (by simp) (by simp) (by simp) (by simp) (by simp)

/-! ### Closes (R66, R67, R69, R91) -/

/-- A closing builder whose entry has no slot is given the one that an allocation finds (R67, R91). -/
theorem giveSlot_atWork {b : Nat} {r : SlotRef} {retry : Bool} (hs : (toFilling (s.builder b).entry s).AtWork h)
    (ht : s.Settled) (hb : (s.builder b).phase = .closing) (hh : (s.builder b).pageHeld = false)
    (hw : b ∉ s.media.slotWait) {avoid : Option Nat} (hr : s.pickSlot avoid = some r) :
    (giveSlot b r retry s).AtWork h := by
  have ho : s.occupied h := hs.occupied
  obtain ⟨hclean, -, hchannel, hslot, -⟩ := pickSlot_spec ht.slots hr
  obtain ⟨u, hu⟩ : ∃ u, u = s.setEntry (s.builder b).entry (s.writingEntry (s.builder b) r retry) := ⟨_, rfl⟩
  have hentry : u.Settled := hu ▸ ht.setEntry _ _
  have hsettled : (u.setSlotState r .used).Settled := hentry.setSlotState r .used
  have hoccupied : (u.setSlotState r .used).occupied h := setSlotState_occupied (hu ▸ ho : u.occupied h) r .used
  obtain ⟨t, ht⟩ : ∃ t : State, t = { u.setSlotState r .used with media := { (u.setSlotState r .used).media with
    pointer := r.channel } } := ⟨_, rfl⟩
  have hpointed : t.Settled := by
    rw [ht]
    exact ⟨hsettled.unloaded, hsettled.unformatted, hsettled.entries, hsettled.builders, hsettled.slots⟩
  have hgiven : giveSlot b r retry s = askOp r.channel (builderWrite b (s.builder b) r.slot) t := by rw [ht, hu]; rfl
  have hlaw := hs.law
  rw [toFilling, setEntry_view] at hlaw
  refine { hgiven ▸ hpointed.askOp r.channel _ with occupied := ?_, law := ?_ }
  · rw [hgiven]
    exact askOp_occupied (ht ▸ hoccupied) _ _
  · rw [giveSlot_view ho]
    exact hlaw.give hb hw hh hclean hchannel hslot rfl rfl

theorem slotless_iff {b : Nat} : s.slotless b = true ↔ (s.builder b).phase = .closing ∧
    (s.builder b).pageHeld = false ∧ (s.entry (s.builder b).entry).state = .filling ∧ b ∉ s.media.slotWait := by
  simp [State.slotless, and_assoc]

theorem waitForSlot_atWork (hs : s.AtWork h) {b : Nat} (hb : s.slotless b = true) : (waitForSlot b s).AtWork h := by
  obtain ⟨hclosing, hheld, hfilling, hwait⟩ := slotless_iff.mp hb
  unfold waitForSlot
  split
  · exact { hs with law := hs.law.wait hclosing hfilling hheld hwait }
  · exact raiseFault_atWork hs _

theorem askSlot_atWork (hs : s.AtWork h) {b : Nat} (hb : s.slotless b = true) : (askSlot b s).AtWork h := by
  obtain ⟨hclosing, hheld, hfilling, hwait⟩ := slotless_iff.mp hb
  unfold askSlot
  split
  · exact giveSlot_atWork (hs.refill hfilling) hs.toSettled hclosing hheld hwait ‹_›
  · exact waitForSlot_atWork hs hb

/-- The first close of the wait list, taken from it, is without a slot (R91). -/
theorem slotless_of_head (hs : s.AtWork h) {b : Nat} {rest : List Nat} (hw : s.media.slotWait = b :: rest) :
    ({ s with media := { s.media with slotWait := rest } } : State).slotless b = true := by
  have hb : b ∈ s.media.slotWait := by simp [hw]
  obtain ⟨hclosing, hfilling⟩ := hs.law.rests b (Or.inr hb)
  have honce : (b :: rest).Nodup := hw ▸ hs.law.once
  exact slotless_iff.mpr ⟨hclosing, hs.law.apart b hb, hfilling, (List.nodup_cons.mp honce).1⟩

theorem serveOne_atWork (hs : s.AtWork h) : (serveOne s).AtWork h := by
  unfold serveOne
  split
  · rename_i b rest r hw hr
    split
    · have htaken : ({ s with media := { s.media with slotWait := rest } } : State).AtWork h :=
        hs.unwait (by rw [hw]; exact List.sublist_cons_self b rest)
      obtain ⟨hclosing, hheld, hfilling, hwait⟩ := slotless_iff.mp (slotless_of_head hs hw)
      exact giveSlot_atWork (htaken.refill hfilling) htaken.toSettled hclosing hheld hwait hr
    · exact hs
  · exact hs

theorem serveWait_atWork (hs : s.AtWork h) : (serveWait s).AtWork h :=
  foldl_inv (State.AtWork h) _ (fun _ _ ht => serveOne_atWork ht) _ _ hs

theorem testWait_atWork (hs : s.AtWork h) : (testWait s).AtWork h := by
  unfold testWait
  split
  · exact hs
  · rename_i b rest hw
    split
    · exact raiseFault_atWork (hs.unwait (by rw [hw]; exact List.sublist_cons_self b rest)) _
    · exact hs

theorem beginClose_atWork (hs : s.AtWork h) {b : Nat} (hb : (s.builder b).phase = .filling) :
    (beginClose b s).AtWork h := by
  have hwait : b ∉ s.media.slotWait := fun hw => by
    have hclosing := (hs.law.rests b (Or.inr hw)).1
    rw [show (s.builder b).phase = _ from hclosing] at hb
    cases hb
  have hheld : (s.builder b).pageHeld = false := by
    by_contra hheld
    have hclosing := (hs.law.rests b (Or.inl (Bool.not_eq_false _ ▸ hheld))).1
    rw [show (s.builder b).phase = _ from hclosing] at hb
    cases hb
  have hfilling : (s.entry (s.builder b).entry).state = .filling := by
    rcases hs.law.builds b (by simp [State.view, hb]) with hfilling | ⟨hclosing, -⟩
    · exact hfilling
    · rw [show (s.builder b).phase = _ from hclosing] at hb
      cases hb
  have hclosed : (s.setBuilder b { s.builder b with phase := .closing, failures := 0 }).AtWork h :=
    hs.setBuilder (hs.law.closing (b := b) rfl (by simp [State.view, hb]) (fun hx => by simp [hheld] at hx))
  have hasking : (s.askingClose b).AtWork h := hclosed.rewriteEntry rfl rfl
  rw [beginClose_eq]
  refine askSlot_atWork hasking (slotless_iff.mpr ⟨?_, ?_, ?_, hwait⟩)
  · simp [askingClose_builder]
  · simp [askingClose_builder, hheld]
  · rw [askingClose_builder, askingClose_entry]
    exact hfilling

theorem closeBuilders_atWork (hs : s.AtWork h) (p : Builder → Bool) : (closeBuilders p s).AtWork h := by
  unfold closeBuilders
  refine foldl_inv (State.AtWork h) _ (fun t b ht => ?_) _ _ hs
  split
  · rename_i hcond
    simp only [Bool.and_eq_true, decide_eq_true_eq] at hcond
    obtain ⟨⟨-, hfilling⟩, -⟩ := hcond
    exact beginClose_atWork ht hfilling
  · exact ht

/-! ### Openings (R61, R62) -/

theorem setOpening_atWork (hs : s.AtWork h) (w : Option OpenWait) : (setOpening w s).AtWork h :=
  hs.congr rfl rfl rfl rfl rfl rfl rfl rfl

theorem openOn_atWork (hs : s.AtWork h) {b : Nat} (hb : (s.builder b).phase = .free) (n d : Nat) :
    (openOn b n d s).AtWork h := by
  unfold openOn
  split
  · rename_i e he
    have hfree : (s.entry e).state = .free := freeEntryNumber_free hs.entries he
    refine setOpening_atWork ?_ none
    refine { (hs.toSettled.setBuilder b _).setEntry e _ with occupied := hs.occupied, law := ?_ }
    rw [setEntry_view, setBuilder_view]
    exact hs.law.openOn hb hfree
  · split
    · exact setOpening_atWork hs _
    · exact raiseFault_atWork (setOpening_atWork hs _) _

theorem tryOpen_atWork (hs : s.AtWork h) (n d : Nat) : (tryOpen n d s).AtWork h := by
  have hopening := setOpening_atWork hs (some .builder)
  simp only [tryOpen]
  split
  · exact openOn_atWork hs (freeBuilder_some hs.builders ‹_›).2 n d
  · split
    · exact hopening
    · exact beginClose_atWork hopening (oldestFilling_filling hopening.builders ‹_›)

theorem testOpening_atWork (hs : s.AtWork h) : (testOpening s).AtWork h := by
  unfold testOpening
  split
  · exact raiseFault_atWork (setOpening_atWork hs _) _
  · exact hs

theorem resolveOpening_atWork (hs : s.AtWork h) : (resolveOpening s).AtWork h := by
  unfold resolveOpening
  split
  · exact hs
  · exact hs
  · exact setOpening_atWork hs none
  · split
    · exact setOpening_atWork hs none
    · exact openOn_atWork hs (freeBuilder_some hs.builders ‹_›).2 _ _
    · exact hs

/-! ### Appending and the drain (R59, R65, R72) -/

theorem addUses_atWork (hs : s.AtWork h) (l : List Nat) : (l.foldl (fun u k => addUse k u) s).AtWork h :=
  foldl_inv (State.AtWork h) _ (fun _ _ ht =>
    ht.congr (by simp) (by simp) (by simp) (by simp) (by simp) (by simp) (by simp) (by simp)) l s hs

theorem advanceHead_atWork (hs : s.AtWork h) : (advanceHead s).AtWork h :=
  hs.congr (by simp) (by simp) (by simp) (by simp) (by simp) (by simp) (by simp) (by simp)

theorem appendTo_atWork (hs : s.AtWork h) (b q : Nat) (r : Record) : (appendTo b q r s).AtWork h := by
  simp only [appendTo]
  refine advanceHead_atWork (addUses_atWork ?_ _)
  refine State.AtWork.rewriteEntry (State.AtWork.rewriteBuilder hs ?_ ?_ ?_) ?_ ?_ <;> rfl

theorem dropFinished_atWork (hs : s.AtWork h) : (dropFinished s).AtWork h :=
  hs.congr (by simp) (by simp) (by simp) (by simp) (by simp) (by simp) (by simp) (by simp)

theorem appendIfOpen_atWork (hs : s.AtWork h) (f : QueuedFile) (r : Record) : (appendIfOpen f r s).AtWork h := by
  unfold appendIfOpen
  split
  · exact hs
  · split
    · exact appendTo_atWork hs _ _ r
    · exact hs

theorem openAndAppend_atWork (hs : s.AtWork h) (f : QueuedFile) (r : Record) : (openAndAppend f r s).AtWork h := by
  unfold openAndAppend
  split
  · exact appendIfOpen_atWork (tryOpen_atWork hs _ _) f r
  · exact hs

theorem appendNext_atWork (hs : s.AtWork h) (f : QueuedFile) (r : Record) : (appendNext f r s).AtWork h := by
  unfold appendNext
  split
  · exact openAndAppend_atWork hs f r
  · split
    · exact appendTo_atWork hs _ _ r
    · exact openAndAppend_atWork (beginClose_atWork hs (fillingBuilder_filling hs.builders ‹_›)) f r

theorem drainCloses_atWork (hs : s.AtWork h) : (drainCloses s).AtWork h := by
  unfold drainCloses
  split
  · exact closeBuilders_atWork hs _
  · exact hs

theorem writeImage_atWork (hs : s.AtWork h) (img : Image) (area : Nat) : (writeImage img area s).AtWork h :=
  foldl_inv (State.AtWork h) _ (fun _ k ht => ht.askOther (by simp [shareWrite]) (by simp [shareWrite])) _ _ hs

theorem setCat_atWork (hs : s.AtWork h) {k : CatalogUnit} (hk : k.channel = s.cat.channel) (hl : k.load = s.cat.load)
    (hf : k.format = s.cat.format) : ({ s with cat := k } : State).AtWork h :=
  hs.congr rfl rfl rfl rfl rfl hk hl hf

theorem beginWriting_atWork (hs : s.AtWork h) : (beginWriting s).AtWork h := by
  have hbegun := setCat_atWork hs (k := { s.cat with
    state := .writing, buffer := some (s.snapshot (s.cat.last + 1) (s.cat.channel.getD 0)), sharesOk := 0 }) rfl rfl rfl
  exact writeImage_atWork hbegun _ _

theorem drainComplete_atWork (hs : s.AtWork h) : (drainComplete s).AtWork h := by
  unfold drainComplete
  split
  · exact beginWriting_atWork hs
  · exact hs

theorem runCompaction_atWork (hs : s.AtWork h) : (runCompaction s).AtWork h := by
  unfold runCompaction
  split
  · exact drainComplete_atWork (drainCloses_atWork (resolveOpening_atWork (dropFinished_atWork hs)))
  · exact hs

/-! ### Checkpoints (R169, R170) -/

theorem answerWaiters_atWork (hs : s.AtWork h) (d : Bool) (ws : List Waiter) : (answerWaiters d ws s).AtWork h :=
  hs.congr (by simp) (by simp) (by simp) (by simp) (by simp) (by simp) (by simp) (by simp)

theorem abandonCheckpoint_atWork (hs : s.AtWork h) : (abandonCheckpoint s).AtWork h :=
  hs.congr (by simp) (by simp) (by simp) (by simp) (by simp) (by simp) (by simp) (by simp)

theorem beginCheckpoint_atWork (hs : s.AtWork h) (ws : List Waiter) : (beginCheckpoint ws s).AtWork h := by
  have hbegun : ({ s with cat := { s.cat with state := .quiescing, waiters := ws } } : State).AtWork h :=
    hs.congr rfl rfl rfl rfl rfl rfl rfl rfl
  simp only [beginCheckpoint]
  split
  · exact abandonCheckpoint_atWork hbegun
  · exact runCompaction_atWork hbegun

theorem trigger_atWork (hs : s.AtWork h) (ws : List Waiter) : (trigger ws s).AtWork h := by
  unfold trigger
  repeat' split
  · exact answerWaiters_atWork hs false ws
  · exact beginCheckpoint_atWork hs ws
  · exact hs.congr rfl rfl rfl rfl rfl rfl rfl rfl
  · exact hs.congr rfl rfl rfl rfl rfl rfl rfl rfl
  · exact answerWaiters_atWork hs false ws

theorem triggerFor_atWork (hs : s.AtWork h) (r : ReqRef) (a b : List Byte) : (triggerFor r a b s).AtWork h :=
  trigger_atWork hs _

theorem takeOwed_atWork (hs : s.AtWork h) : (takeOwed s).AtWork h := by
  have htaken : ({ s with cat := { s.cat with owed := false, owedWaiters := [] } } : State).AtWork h :=
    hs.congr rfl rfl rfl rfl rfl rfl rfl rfl
  simp only [takeOwed]
  repeat' split
  · exact answerWaiters_atWork htaken false _
  · exact beginCheckpoint_atWork htaken _
  · exact hs

end
end Sys2Proof.Machine
end

