-- ==== Sys2Proof/Proofs/SlotMapEraser.lean ====
section
/-!
PROOFS. Proofs/SlotMapEraser.lean: the Eraser, the ends of writes and of erases, RESUME, ABANDON and the sweeps keep the law
of the Slot Map (R68, R69, R78, R104 to R135, R187 to R190).
-/

namespace Sys2Proof.Machine
open Sys2Proof

section
variable {h : Option Nat} {s : State}

/-! ### The Eraser at work (R117 to R120) -/

theorem setErasing_view (s : State) (h : Option Nat) (c : Nat) (w : EraseWork) :
    ({ s with ret := { s.ret with erasing := Tbl.put s.ret.erasing c w } } : State).view h =
      (s.view h).putErasing c true := by
  have hisSome : (fun d => (Tbl.find (Tbl.put s.ret.erasing c w) d).isSome) =
      Function.update (fun d => (s.eraseOn d).isSome) c true := by
    funext d
    rw [Function.update_apply]
    split
    · rename_i hd
      rw [hd, Tbl.find_put_same]
      rfl
    · rw [Tbl.find_put_ne _ _ ‹_›]
      rfl
  exact congrArg (fun x => ({ s.view h with erasing := x } : SlotView)) hisSome

theorem endErase_view (s : State) (h : Option Nat) (c : Nat) : (endErase c s).view h = (s.view h).putErasing c false := by
  have hisSome : (fun d => (Tbl.find (Tbl.drop s.ret.erasing c) d).isSome) =
      Function.update (fun d => (s.eraseOn d).isSome) c false := by
    funext d
    rw [Function.update_apply]
    split
    · rename_i hd
      rw [hd, Tbl.find_drop_same]
      rfl
    · rw [Tbl.find_drop_ne _ ‹_›]
      rfl
  exact congrArg (fun x => ({ s.view h with erasing := x } : SlotView)) hisSome

/-- A channel without an erase in flight has no operation of the Eraser. -/
theorem unerased_of_eraseOn (hs : s.AtWork h) {c : Nat} (hc : s.eraseOn c = none) : (s.view h).unerased c :=
  fun op hop hr => by
    have hin : (s.eraseOn c).isSome = true := (hs.law.erases c op hop hr).1
    simp [hc] at hin

theorem askErase_atWork (hs : s.AtWork h) {c k : Nat} {e : Option Nat} (hc : s.eraseOn c = none)
    (hentry : ∀ n, e = some n → (s.entry n).state = .erasing ∧ (s.entry n).slot = some { channel := c, slot := k })
    (hdirty : e = none → s.slotState { channel := c, slot := k } = .dirty) : (askErase c k e s).AtWork h := by
  obtain ⟨t, ht⟩ : ∃ t : State, t = { s with ret := { s.ret with
    erasing := Tbl.put s.ret.erasing c { slot := k, entry := e } } } := ⟨_, rfl⟩
  have hview : t.view h = (s.view h).putErasing c true := by rw [ht, setErasing_view]
  have hsettled : t.Settled := by
    rw [ht]
    exact ⟨hs.unloaded, hs.unformatted, hs.entries, hs.builders, hs.slots⟩
  have hoccupied : t.occupied h := ht ▸ hs.occupied
  simp only [askErase, ← ht]
  refine { hsettled.askOp c _ with occupied := askOp_occupied hoccupied c _, law := ?_ }
  rw [askOp_view hoccupied, hview]
  refine (hs.law.beginErase c).ask (fun b hb => by cases hb) (fun _ => ⟨?_, ?_, hentry, hdirty⟩)
  · exact unerased_of_eraseOn hs hc
  · simp [SlotView.putErasing]

theorem eraseEntry_atWork (hs : s.AtWork h) {c e k : Nat} (hc : s.eraseOn c = none)
    (he : (s.entry e).state = .expired ∨ (s.entry e).state = .erasing)
    (hk : (s.entry e).slot = some { channel := c, slot := k }) : (eraseEntry c e s).AtWork h := by
  have herasing : (s.setEntry e { s.entry e with state := .erasing }).AtWork h := hs.setEntry (hs.law.erase he)
  simp only [eraseEntry]
  refine askErase_atWork herasing hc (fun n hn => ?_) (fun hn => by cases hn)
  cases hn
  simp [hk]

theorem eraserWork_atWork (hs : s.AtWork h) (c : Nat) : (eraserWork c s).AtWork h := by
  unfold eraserWork
  split
  · rename_i hfree
    have hc : s.eraseOn c = none := by simpa using (Bool.and_eq_true_iff.mp hfree).2
    split
    · obtain ⟨herasing, k, hk⟩ := lowestEntry_place hs.entries ‹_›
      exact eraseEntry_atWork hs hc (Or.inr (of_decide_eq_true herasing)) hk
    · split
      · obtain ⟨heligible, k, hk⟩ := lowestEntry_place hs.entries ‹_›
        simp only [State.eligible, Bool.and_eq_true, decide_eq_true_eq] at heligible
        obtain ⟨⟨hexpired, -⟩, -⟩ := heligible
        exact eraseEntry_atWork hs hc (Or.inl hexpired) hk
      · split
        · rename_i k hk
          exact askErase_atWork hs hc (fun n hn => by cases hn) (fun _ => (lowest_spec (hs.slots c) hk).2)
        · exact hs
  · exact hs

theorem lookForWork_atWork (hs : s.AtWork h) : (lookForWork s).AtWork h := by
  unfold lookForWork
  split
  · exact foldl_inv (State.AtWork h) _ (fun _ c ht => eraserWork_atWork ht c) _ _ hs
  · exact hs

theorem afterSlots_atWork (hs : s.AtWork h) : (afterSlots s).AtWork h :=
  lookForWork_atWork (runCompaction_atWork (testWait_atWork (serveWait_atWork hs)))

theorem endErase_atWork (hs : s.AtWork h) {c : Nat} (hc : (s.view h).unerased c) : (endErase c s).AtWork h :=
  { hs with
    law := by
      rw [endErase_view]
      exact hs.law.endErase hc }

theorem timeoutErase_atWork (hs : s.AtWork h) {c : Nat} (hc : (s.view h).unerased c) (w : EraseWork) :
    (timeoutErase c w s).AtWork h :=
  raiseFault_atWork (endErase_atWork hs hc) _

/-- Freeing an entry writes no table that the law speaks of but the directory. -/
theorem freeEntry_dir (e : Nat) (s : State) : (freeEntry e s).media.dir = (s.setEntry e {}).media.dir :=
  foldl_keeps (fun t : State => t.media.dir) (fun t c => t.setCode c (dropUse (t.code c))) (fun _ _ => rfl) _ _

theorem freeEntry_atWork {e : Nat} (hs : (s.setEntry e {}).AtWork h) : (freeEntry e s).AtWork h :=
  hs.congr (freeEntry_dir e s) (by simp) (by simp) (by simp) (by simp) (by simp) (by simp) (by simp)

theorem releaseTest_atWork (hs : s.AtWork h) (n : Nat) : (releaseTest n s).AtWork h :=
  hs.congr (by simp) (by simp) (by simp) (by simp) (by simp) (by simp) (by simp) (by simp)

/-- The Eraser's erase of a channel ends, its operation no longer standing (R118, R119). -/
theorem finishErase_atWork (hs : s.AtWork h) {c : Nat} {w : EraseWork} (hc : (s.view h).unerased c)
    (hentry : ∀ e, w.entry = some e → (s.entry e).state = .erasing ∧
      (s.entry e).slot = some { channel := c, slot := w.slot })
    (hdirty : w.entry = none → s.slotState { channel := c, slot := w.slot } = .dirty) (ok : Bool) :
    (finishErase c w ok s).AtWork h := by
  have hended := endErase_atWork hs hc
  have hunerased : ((endErase c s).view h).unerased c := hc
  have hx : (if ok then SlotState.clean else .defective) ≠ .used := by split <;> simp
  have hsettled := hended.toSettled.setSlotState { channel := c, slot := w.slot } (if ok then .clean else .defective)
  have hoccupied := setSlotState_occupied hended.occupied { channel := c, slot := w.slot }
    (if ok then .clean else .defective)
  simp only [finishErase]
  split
  · rename_i hnone
    refine { hsettled with occupied := hoccupied, law := ?_ }
    rw [setSlotState_view]
    exact hended.law.clean (hdirty hnone) hunerased hx
  · rename_i e he
    obtain ⟨herasing, hplace⟩ := hentry e he
    refine releaseTest_atWork (freeEntry_atWork ?_) _
    refine { hsettled.setEntry e {} with occupied := hoccupied, law := ?_ }
    rw [setEntry_view, setSlotState_view]
    exact hended.law.free herasing hplace hunerased hx

theorem completeCheckpoint_atWork (hs : s.AtWork h) : (completeCheckpoint s).AtWork h := by
  simp only [completeCheckpoint]
  exact lookForWork_atWork (hs.congr (by simp) (by simp) (by simp) (by simp) (by simp) (by simp) (by simp) (by simp))

/-! ### The ends of builder writes (R68, R69, R78, R97) -/

/-- The operation that ends was the builder's own: its entry is WRITING where it says, and no other of the builder stands. -/
structure State.Ending (s : State) (h : Option Nat) (b : Nat) (r : SlotRef) : Prop where
  closing : (s.builder b).phase = .closing
  writing : (s.entry (s.builder b).entry).state = .writing
  place : (s.entry (s.builder b).entry).slot = some r
  unasked : (s.view h).unasked b

theorem storeSegment_atWork (hs : s.AtWork h) {b : Nat} {r : SlotRef} (hb : s.Ending h b r) :
    (storeSegment b s).AtWork h := by
  simp only [storeSegment]
  refine runCompaction_atWork { (hs.toSettled.setEntry _ _).setBuilder b {} with occupied := hs.occupied, law := ?_ }
  rw [setBuilder_view, setEntry_view]
  exact hs.law.store hb.closing hb.writing hb.unasked

/-- The entry of a write that fails returns to FILLING, and its slot takes another state (R69, R78). -/
theorem unwrite_atWork (hs : s.AtWork h) {b : Nat} {r : SlotRef} (hb : s.Ending h b r) {x : SlotState} (hx : x ≠ .used) :
    (toFilling (s.builder b).entry (s.setSlotState r x)).AtWork h :=
  { (hs.toSettled.setSlotState r x).setEntry _ _ with
    occupied := setSlotState_occupied hs.occupied r x
    law := by
      rw [toFilling, setEntry_view, setSlotState_view]
      exact hs.law.unwrite hb.closing hb.writing hb.place hb.unasked hx }

/-- A builder whose entry is WRITING neither waits for a slot nor is held. -/
theorem notWaiting_of_writing (hs : s.AtWork h) {b : Nat} (hb : (s.entry (s.builder b).entry).state = .writing) :
    b ∉ s.media.slotWait ∧ (s.builder b).pageHeld = false := by
  have hrests := hs.law.rests b
  constructor
  · intro hw
    rw [show (s.entry (s.builder b).entry).state = _ from (hrests (Or.inr hw)).2] at hb
    cases hb
  · by_contra hheld
    rw [show (s.entry (s.builder b).entry).state = _ from (hrests (Or.inl (Bool.not_eq_false _ ▸ hheld))).2] at hb
    cases hb

theorem failSegment_atWork (hs : s.AtWork h) {b : Nat} {r : SlotRef} (hb : s.Ending h b r) (timeout : Bool) :
    (failSegment timeout b r s).AtWork h := by
  obtain ⟨hwait, hheld⟩ := notWaiting_of_writing hs hb.writing
  obtain ⟨t, ht⟩ : ∃ t, t = countFailure b r s := ⟨_, rfl⟩
  have hbuilder : t.builder b = { s.builder b with failures := (s.builder b).failures + 1 } := by
    simp only [ht, countFailure, State.setBuilder_builder_same]
    rfl
  have hentry : (t.builder b).entry = (s.builder b).entry := by rw [hbuilder]
  have hfilling : (toFilling (t.builder b).entry t).AtWork h := by
    rw [hentry, ht]
    have hunwritten := unwrite_atWork hs hb (x := .defective) (by simp)
    exact hunwritten.rewriteBuilder (b := b) (v := { s.builder b with failures := (s.builder b).failures + 1 }) rfl rfl rfl
  have hsettled : t.Settled := by
    rw [ht]
    exact (hs.toSettled.setSlotState r .defective).setBuilder b _
  have hclosing : (t.builder b).phase = .closing := by rw [hbuilder]; exact hb.closing
  have hnotHeld : (t.builder b).pageHeld = false := by rw [hbuilder]; exact hheld
  have hnotWaiting : b ∉ t.media.slotWait := by rw [ht]; exact hwait
  simp only [failSegment, ← ht]
  split
  · exact raiseFault_atWork hfilling _
  · simp only [retryWrite]
    split
    · exact hfilling
    · split
      · exact giveSlot_atWork hfilling hsettled hclosing hnotHeld hnotWaiting ‹_›
      · refine waitForSlot_atWork hfilling (slotless_iff.mpr ⟨hclosing, hnotHeld, ?_, hnotWaiting⟩)
        simp [toFilling]

theorem builderPageFault_atWork (hs : s.AtWork h) {b : Nat} {r : SlotRef} (hb : s.Ending h b r) :
    (builderPageFault b r s).AtWork h := by
  obtain ⟨hwait, -⟩ := notWaiting_of_writing hs hb.writing
  have hfilling := unwrite_atWork hs hb (x := .clean) (by simp)
  have hused : (s.builder b).phase ≠ .free := by simp [hb.closing]
  have hstate : ((toFilling (s.builder b).entry (s.setSlotState r .clean)).entry (s.builder b).entry).state = .filling := by
    simp [toFilling]
  refine raiseFault_atWork (hfilling.setBuilder (v := { s.builder b with pageHeld := true }) ?_) _
  exact hfilling.law.closing (b := b) hb.closing hused (fun _ => ⟨hb.closing, hstate, hwait⟩)

/-! ### RESUME and ABANDON (R71, R187 to R190) -/

/-- The builders that `p` names ask for a slot again, each one without a slot once `f` has written it (R187). -/
theorem askAgain_atWork (hs : s.AtWork h) {p : State → Nat → Bool} {f : Builder → Builder}
    (hp : ∀ t : State, t.AtWork h → ∀ b, p t b = true →
      (t.setBuilder b (f (t.builder b))).AtWork h ∧ (t.setBuilder b (f (t.builder b))).slotless b = true) :
    (askAgain p f s).AtWork h := by
  unfold askAgain
  refine foldl_inv (State.AtWork h) _ (fun t b ht => ?_) _ _ hs
  split
  · obtain ⟨hwritten, hslotless⟩ := hp t ht b (Bool.and_eq_true_iff.mp ‹_›).2
    exact askSlot_atWork hwritten hslotless
  · exact ht

theorem askHeld_atWork (hs : s.AtWork h) :
    (askAgain (fun u b => (u.builder b).pageHeld) (fun v => { v with pageHeld := false }) s).AtWork h :=
  askAgain_atWork hs (fun t ht b hb => by
    obtain ⟨hclosing, hfilling⟩ := ht.law.rests b (Or.inl hb)
    have hclosing' : (t.builder b).phase = .closing := hclosing
    have hwait : b ∉ t.media.slotWait := fun hw => by
      have hheld : (t.builder b).pageHeld = false := ht.law.apart b hw
      rw [hheld] at hb
      cases hb
    refine ⟨ht.setBuilder (ht.law.closing (b := b) hclosing (by rw [hclosing]; simp) (fun hx => by cases hx)),
      slotless_iff.mpr ⟨?_, ?_, ?_, hwait⟩⟩
    · simp [hclosing']
    · simp
    · rw [State.setBuilder_builder_same]
      exact hfilling)

theorem askSlotless_atWork (hs : s.AtWork h) : (askAgain State.slotless (fun v => { v with failures := 0 }) s).AtWork h :=
  askAgain_atWork hs (fun t ht b hb => by
    obtain ⟨hclosing, hheld, hfilling, hwait⟩ := slotless_iff.mp hb
    refine ⟨ht.rewriteBuilder rfl rfl rfl, slotless_iff.mpr ⟨?_, ?_, ?_, hwait⟩⟩
    · simp [hclosing]
    · simp [hheld]
    · rw [State.setBuilder_builder_same]
      exact hfilling)

theorem noteCloses_atWork (hs : s.AtWork h) : (noteCloses s).AtWork h :=
  hs.keeps (by simp) (by simp) (by simp) (by simp)

theorem closeOldBuilders_atWork (hs : s.AtWork h) : (closeOldBuilders s).AtWork h := by
  rw [closeOldBuilders]
  exact noteCloses_atWork (closeBuilders_atWork hs _)

theorem retryOpening_atWork (hs : s.AtWork h) : (retryOpening s).AtWork h := by
  unfold retryOpening
  split
  · exact resolveOpening_atWork (setOpening_atWork hs _)
  · exact hs

theorem takeCloses_atWork (hs : s.AtWork h) : (takeCloses s).AtWork h := by
  unfold takeCloses
  split
  · exact closeOldBuilders_atWork hs
  · exact hs

theorem resumeCompaction_atWork (hs : s.AtWork h) : (resumeCompaction s).AtWork h := by
  have hrunning : ({ s with comp := { s.comp with stopped := false, headHeld := false } } : State).AtWork h :=
    hs.congr rfl rfl rfl rfl rfl rfl rfl rfl
  exact runCompaction_atWork (takeCloses_atWork (serveWait_atWork (retryOpening_atWork
    (askSlotless_atWork (askHeld_atWork hrunning)))))

theorem resumeEngine_atWork (hs : s.AtWork h) (e : Engine) : (resumeEngine e s).AtWork h := by
  cases e with
  | compaction => exact resumeCompaction_atWork hs
  | eraser =>
    have hrunning : ({ s with ret := { s.ret with eraserStopped := false } } : State).AtWork h :=
      hs.keeps rfl rfl rfl ⟨rfl, rfl, rfl⟩
    exact lookForWork_atWork hrunning
  | catalog => exact trigger_atWork (setCat_atWork hs (k := { s.cat with state := .idle }) rfl rfl rfl) []

theorem answer_atWork (hs : s.AtWork h) (r : ReqRef) (st : Status) (b : List Byte) : (answer r st b s).AtWork h :=
  hs.congr (by simp) (by simp) (by simp) (by simp) (by simp) (by simp) (by simp) (by simp)

theorem resumeNamed_atWork (hs : s.AtWork h) (r : ReqRef) (n : Nat) : (resumeNamed r n s).AtWork h := by
  unfold resumeNamed
  split
  · exact hs
  · rename_i e _
    have hemptied : (emptyContexts e (answer r .ok [] s)).AtWork h :=
      (answer_atWork hs r .ok []).keeps rfl rfl rfl ⟨rfl, rfl, rfl⟩
    exact resumeEngine_atWork hemptied e

theorem abandonHead_atWork (hs : s.AtWork h) : (abandonHead s).AtWork h := by
  unfold abandonHead
  repeat' split
  · exact hs
  · exact hs.keeps (by simp) (by simp) (by simp) (by simp)
  · exact hs

theorem abandonBuilder_atWork (hs : s.AtWork h) {b : Nat} (hb : (s.builder b).pageHeld = true) :
    (abandonBuilder b s).AtWork h := by
  have hfreed : ((s.setEntry (s.builder b).entry {}).setBuilder b {}).AtWork h := by
    refine { (hs.toSettled.setEntry _ {}).setBuilder b {} with occupied := hs.occupied, law := ?_ }
    rw [setBuilder_view, setEntry_view]
    exact hs.law.abandon hb
  obtain ⟨t, ht⟩ : ∃ t, t = s.changeTally (s.entry (s.builder b).entry).source (s.entry (s.builder b).entry).day
    (fun y => tallyReduce y (s.entry (s.builder b).entry).recordCount) := ⟨_, rfl⟩
  have hmedia : t.media = s.media := by simp [ht]
  have hcomp : t.comp = s.comp := by simp [ht]
  have hcat : t.cat = s.cat := by simp [ht]
  have hret : t.ret = s.ret := by simp [ht]
  have hdir : (freeEntry (s.builder b).entry t).media.dir = (s.setEntry (s.builder b).entry {}).media.dir := by
    rw [freeEntry_dir, State.setEntry, hmedia]
    rfl
  simp only [abandonBuilder, ← ht]
  refine hfreed.congr ?_ ?_ ?_ ?_ ?_ ?_ ?_ ?_
  · simp [hdir]
  all_goals simp [hmedia, hcomp, hcat, hret, State.setBuilder]

/-- Every builder that a page error holds is abandoned, in number order (R188, R190). -/
theorem abandonBuilders_atWork (hs : s.AtWork h) {l : List Nat} (hl : ∀ b ∈ l, (s.builder b).pageHeld = true)
    (hn : l.Nodup) : (l.foldl (fun u b => abandonBuilder b u) s).AtWork h := by
  induction l generalizing s with
  | nil => exact hs
  | cons b l ih =>
    obtain ⟨hnot, hrest⟩ := List.nodup_cons.mp hn
    refine ih (abandonBuilder_atWork hs (hl b List.mem_cons_self)) (fun d hd => ?_) hrest
    have hne : d ≠ b := fun hdb => hnot (hdb ▸ hd)
    rw [abandonBuilder_builder, if_neg hne]
    exact hl d (List.mem_cons_of_mem b hd)

theorem abandon_atWork (hs : s.AtWork h) (r : ReqRef) : (abandon r s).AtWork h := by
  have hheld : s.heldBuilders.Nodup := List.nodup_range.filter _
  have habandoned := abandonBuilders_atWork (abandonHead_atWork hs) (l := s.heldBuilders) (fun b hb => by
    rw [abandonHead_builder]
    exact (List.mem_filter.mp hb).2) hheld
  have hemptied : (emptyContexts .compaction (answer r .ok (abandonBody s)
      (s.heldBuilders.foldl (fun u b => abandonBuilder b u) (abandonHead s)))).AtWork h :=
    (answer_atWork habandoned r .ok _).keeps rfl rfl rfl ⟨rfl, rfl, rfl⟩
  exact resumeCompaction_atWork hemptied

/-! ### Sweeps (R104 to R135) -/

/-- A STORED or EXPIRED entry is written as one of the two (R111, R115, R130). -/
theorem mark_atWork (hs : s.AtWork h) {e : Nat} {v : DirEntry}
    (he : (s.entry e).state = .stored ∨ (s.entry e).state = .expired) (hv : v.state = .stored ∨ v.state = .expired)
    (hp : v.slot = (s.entry e).slot) : (s.setEntry e v).AtWork h :=
  hs.setEntry (hp ▸ hs.law.mark he hv)

theorem popSweep_atWork (hs : s.AtWork h) : (popSweep s).AtWork h :=
  hs.keeps (by simp) (by simp) (by simp) (by simp)

theorem pushSweep_atWork (hs : s.AtWork h) (k : SweepKind) (rs : List ReqRef) : (pushSweep k rs s).AtWork h :=
  hs.keeps (by simp) (by simp) (by simp) (by simp)

end
end Sys2Proof.Machine
end

