-- ==== Sys2Proof/Proofs/SlotMapRegimes.lean ====
section
/-!
PROOFS. Proofs/SlotMapRegimes.lean: the whole law of the Slot Map in the course of a command, in service, during a load and
during a Format; what leaves fewer operations asked keeps it, and the end of an operation closes the command (R88, R96, R177,
R182).
-/

namespace Sys2Proof.Machine
open Sys2Proof

/-! ### The whole law in the course of a command -/

/-- The builders, the wait list and the Eraser are at rest, and every operation that stands is of one of the requesters or has
its result discarded. -/
def State.restsBut (s : State) (h : Option Nat) (who : Requester → Bool) : Prop :=
  s.comp.builders = [] ∧ s.media.slotWait = [] ∧ s.ret.erasing = [] ∧
    ∀ c, ∀ op ∈ s.standing h c, op.requester = .discarded ∨ who op.requester = true

/-- The requesters of a Format's operations: its own erases, and with the image the shares (R182). -/
def FormatOp.asks (f : FormatOp) (r : Requester) : Bool :=
  f.erasing && decide (r = .format) || decide (f.phase = .image) && decide (r = .catalog)

/-- The law of the Slot Map while the operation in progress on channel `h` ends (R88). -/
structure State.MapLaw (h : Option Nat) (s : State) : Prop where
  loads : s.cat.load.isSome = true → s.cat.archive = .loading ∧ s.cat.format = none ∧ s.media.dir = [] ∧
    s.restsBut h (fun r => r = .load) ∧ ∀ c, (s.channel c).slots = [] ∧ (s.channel c).rest = .dirty
  formats : ∀ f, s.cat.format = some f → s.cat.archive = .formatting ∧ s.restsBut h f.asks ∧
    (f.phase ≠ .image → (∀ c, c < 8 → (s.channel c).started = none → s.standing h c = []) ∧
      ∀ c, ∀ op ∈ s.standing h c, op.requester = .format → c < 8) ∧
    (f.phase = .image → s.media.dir = [])
  linked : (s.view h).Linked
  named : (∀ f, s.cat.format = some f → f.erasing = false) → (s.view h).Named

/-- Between commands it is the law of the Slot Map. -/
theorem mapLaw_iff (s : State) : s.MapLaw none ↔ s.slotMapLaw := by
  constructor
  · intro hs
    obtain ⟨hbuilders, hops⟩ := (linked_iff s).mp hs.linked
    exact ⟨hs.loads, hs.formats, hbuilders, hops, fun hf => (named_iff s none).mp (hs.named hf)⟩
  · rintro ⟨hloads, hformats, hbuilders, hops, hnamed⟩
    exact ⟨hloads, hformats, (linked_iff s).mpr ⟨hbuilders, hops⟩, fun hf => (named_iff s none).mpr (hnamed hf)⟩

/-- The tables that searches run over stand in order. -/
structure State.Ordered (s : State) : Prop where
  entries : Tbl.rising s.media.dir = true
  builders : Tbl.rising s.comp.builders = true
  slots : ∀ c, Tbl.rising (s.channel c).slots = true

theorem ordered_of_tables {s : State} (h : s.tablesOk = true) : s.Ordered :=
  ⟨(tables_rising h).1, (tables_rising h).2, slots_rising h⟩

/-- Neither a load nor a Format runs. -/
def State.plain (s : State) : Prop := s.cat.load = none ∧ s.cat.format = none

section
variable {h : Option Nat} {s t : State}

/-- A load runs in LOADING and a Format in FORMATTING alone. -/
theorem State.MapLaw.plain (hs : s.MapLaw h) (hl : s.cat.archive ≠ .loading) (hf : s.cat.archive ≠ .formatting) : s.plain := by
  constructor
  · cases hload : s.cat.load with
    | none => rfl
    | some l => exact absurd (hs.loads (by rw [hload]; rfl)).1 hl
  · cases hformat : s.cat.format with
    | none => rfl
    | some f => exact absurd (hs.formats f hformat).1 hf

/-- In service the law is that of the part at work. -/
theorem State.MapLaw.atWork (hs : s.MapLaw h) (ho : s.Ordered) (hp : s.plain) (hc : s.occupied h) : s.AtWork h :=
  { unloaded := hp.1
    unformatted := hp.2
    entries := ho.entries
    builders := ho.builders
    slots := ho.slots
    occupied := hc
    law := { toLinked := hs.linked
             toNamed := hs.named (fun f hf => by rw [hp.2] at hf; cases hf) } }

theorem State.AtWork.mapLaw (hs : s.AtWork h) : s.MapLaw h where
  loads hl := by rw [hs.unloaded] at hl; cases hl
  formats f hf := by rw [hs.unformatted] at hf; cases hf
  linked := hs.law.toLinked
  named _ := hs.law.toNamed

theorem State.AtWork.ordered (hs : s.AtWork h) : s.Ordered := ⟨hs.entries, hs.builders, hs.slots⟩

/-! ### Fewer operations asked (R96, R99) -/

/-- From `s` to `t` nothing that the law speaks of changes, but that operations go or have their results discarded. -/
structure State.Thins (h : Option Nat) (s t : State) : Prop where
  entry : ∀ e, (t.entry e).state = (s.entry e).state ∧ (t.entry e).slot = (s.entry e).slot
  empty : s.media.dir = [] → t.media.dir = []
  rises : Tbl.rising s.media.dir = true → Tbl.rising t.media.dir = true
  builders : t.comp.builders = s.comp.builders
  wait : t.media.slotWait = s.media.slotWait
  erasing : t.ret.erasing = s.ret.erasing
  channel : t.cat.channel = s.cat.channel
  load : t.cat.load = s.cat.load
  format : t.cat.format = s.cat.format
  archive : t.cat.archive = s.cat.archive
  slots : ∀ c, (t.channel c).slots = (s.channel c).slots ∧ (t.channel c).rest = (s.channel c).rest
  kept : ∀ c, ∀ op ∈ t.standing h c, op.requester ≠ .discarded → op ∈ s.standing h c
  count : ∀ c who, who ≠ .discarded → (t.standing h c).countP (fun op => op.requester = who) ≤
    (s.standing h c).countP (fun op => op.requester = who)
  nothing : ∀ c, s.standing h c = [] → t.standing h c = []
  started : ∀ c, (t.channel c).started = none → (s.channel c).started = none
  current : ∀ c, (s.channel c).current.isSome = true → (t.channel c).current.isSome = true

/-- What leaves the media, the builders, the erases in flight and the catalog alone. -/
theorem State.Thins.of_eq (hm : t.media.dir = s.media.dir) (hc : t.media.channels = s.media.channels)
    (hw : t.media.slotWait = s.media.slotWait) (hb : t.comp.builders = s.comp.builders)
    (he : t.ret.erasing = s.ret.erasing) (hk : t.cat.channel = s.cat.channel) (hl : t.cat.load = s.cat.load)
    (hf : t.cat.format = s.cat.format) (ha : t.cat.archive = s.cat.archive) : s.Thins h t := by
  have hchannel : ∀ c, t.channel c = s.channel c := fun c => by simp only [State.channel, hc]
  have hstanding : ∀ c, t.standing h c = s.standing h c := fun c => by simp only [State.standing, hchannel]
  have hentry : ∀ e, t.entry e = s.entry e := fun e => by simp only [State.entry, hm]
  exact
  { entry := fun e => by rw [hentry]; exact ⟨rfl, rfl⟩
    empty := fun hd => hm.trans hd
    rises := fun hd => hm ▸ hd
    builders := hb, wait := hw, erasing := he, channel := hk, load := hl, format := hf, archive := ha
    slots := fun c => by rw [hchannel]; exact ⟨rfl, rfl⟩
    kept := fun c op hop _ => by rwa [hstanding] at hop
    count := fun c _ _ => by rw [hstanding]
    nothing := fun c hn => (hstanding c).trans hn
    started := fun c hn => by rwa [hchannel] at hn
    current := fun c hn => by rwa [hchannel] }

theorem State.Thins.of_media (hm : t.media = s.media) (hb : t.comp.builders = s.comp.builders)
    (he : t.ret.erasing = s.ret.erasing) (hk : t.cat.channel = s.cat.channel ∧ t.cat.load = s.cat.load ∧
      t.cat.format = s.cat.format ∧ t.cat.archive = s.cat.archive) : s.Thins h t :=
  .of_eq (by rw [hm]) (by rw [hm]) (by rw [hm]) hb he hk.1 hk.2.1 hk.2.2.1 hk.2.2.2

theorem State.Thins.same (s : State) : s.Thins h s := .of_media (rfl) (rfl) (rfl) ⟨rfl, rfl, rfl, rfl⟩

theorem State.Thins.trans {u : State} (h₁ : s.Thins h t) (h₂ : t.Thins h u) : s.Thins h u where
  entry e := ⟨(h₂.entry e).1.trans (h₁.entry e).1, (h₂.entry e).2.trans (h₁.entry e).2⟩
  empty hd := h₂.empty (h₁.empty hd)
  rises hd := h₂.rises (h₁.rises hd)
  builders := h₂.builders.trans h₁.builders
  wait := h₂.wait.trans h₁.wait
  erasing := h₂.erasing.trans h₁.erasing
  channel := h₂.channel.trans h₁.channel
  load := h₂.load.trans h₁.load
  format := h₂.format.trans h₁.format
  archive := h₂.archive.trans h₁.archive
  slots c := ⟨(h₂.slots c).1.trans (h₁.slots c).1, (h₂.slots c).2.trans (h₁.slots c).2⟩
  kept c op hop hr := h₁.kept c op (h₂.kept c op hop hr) hr
  count c who hw := (h₂.count c who hw).trans (h₁.count c who hw)
  nothing c hn := h₂.nothing c (h₁.nothing c hn)
  started c hn := h₁.started c (h₂.started c hn)
  current c hn := h₂.current c (h₁.current c hn)

/-- An entry keeps its state and its slot. -/
theorem setEntry_thins {e : Nat} {v : DirEntry} (hst : v.state = (s.entry e).state) (hpl : v.slot = (s.entry e).slot)
    (hv : s.media.dir = [] → v = {}) : s.Thins h (s.setEntry e v) :=
  { State.Thins.same s with
    entry := fun i => by
      rw [State.setEntry_entry]
      split
      · rename_i hi
        rw [hi]
        exact ⟨hst, hpl⟩
      · exact ⟨rfl, rfl⟩
    empty := fun hd => by
      rw [State.setEntry, hv hd]
      simp [hd, Tbl.set, Tbl.drop]
    rises := fun hd => setEntry_rising hd e v }

theorem lowerReader_thins (e : Nat) (s : State) : s.Thins h (lowerReader e s) :=
  setEntry_thins (rfl) (rfl) (fun hd => by simp [State.entry, hd])

/-! ### Results discarded (R96) -/

theorem mapChannels_channel (f : Channel → Channel) (s : State) (c : Nat) :
    (mapChannels f s).channel c = if c < 8 then f (s.channel c) else s.channel c := by
  have hloop : ∀ (l : List Nat) (t : State), l.Nodup →
      (l.foldl (fun t c => t.setChannel c (f (t.channel c))) t).channel c =
        if c ∈ l then f (t.channel c) else t.channel c := by
    intro l
    induction l with
    | nil => simp
    | cons a l ih =>
      intro t hl
      obtain ⟨ha, hl⟩ := List.nodup_cons.mp hl
      rw [List.foldl_cons, ih _ hl, State.setChannel_channel]
      by_cases hca : c = a
      · subst hca
        simp [ha]
      · simp [hca]
  have hall := hloop (List.range Config.channels) s List.nodup_range
  simp only [List.mem_range] at hall
  exact hall

/-- An operation with its result discarded where its requester satisfies `p`. -/
def discardOp (p : Requester → Bool) (op : Op) : Op := if p op.requester then { op with requester := .discarded } else op

theorem discard_eq (ch : Channel) (p : Requester → Bool) : ch.discard p =
    { ch with queue := ch.queue.map (discardOp p), outside := ch.outside.map (discardOp p) } := rfl

theorem countP_discardOp (p : Requester → Bool) (who : Requester) (hw : who ≠ .discarded) (l : List Op) :
    (l.map (discardOp p)).countP (fun op => op.requester = who) ≤ l.countP (fun op => op.requester = who) := by
  rw [List.countP_map]
  refine List.countP_mono_left (fun op _ hop => ?_)
  simp only [Function.comp, discardOp] at hop
  split at hop
  · exact absurd (of_decide_eq_true hop).symm hw
  · exact hop

theorem discard_thins (p : Requester → Bool) (s : State) : s.Thins h (mapChannels (fun ch => ch.discard p) s) := by
  obtain ⟨t, ht⟩ : ∃ t, t = mapChannels (fun ch => ch.discard p) s := ⟨_, rfl⟩
  have hchannel : ∀ c, t.channel c = s.channel c ∨ t.channel c = (s.channel c).discard p := fun c => by
    rw [ht, mapChannels_channel]
    split
    · exact Or.inr (rfl)
    · exact Or.inl (rfl)
  have hstanding : ∀ c, t.standing h c = s.standing h c ∨ t.standing h c = (s.standing h c).map (discardOp p) := fun c => by
    rcases hchannel c with hc | hc
    · exact Or.inl (by simp only [State.standing, hc])
    · refine Or.inr ?_
      simp only [State.standing, hc, discard_eq, List.map_append]
      split
      · rw [List.map_tail]
      · exact rfl
  have hdir : t.media.dir = s.media.dir := by rw [ht]; simp
  have hentry : ∀ e, t.entry e = s.entry e := fun e => by simp only [State.entry, hdir]
  rw [← ht]
  exact
  { entry := fun e => by rw [hentry]; exact ⟨rfl, rfl⟩
    empty := fun hd => hdir.trans hd
    rises := fun hd => hdir ▸ hd
    builders := by rw [ht]; simp
    wait := by rw [ht]; simp
    erasing := by rw [ht]; simp
    channel := by rw [ht]; simp
    load := by rw [ht]; simp
    format := by rw [ht]; simp
    archive := by rw [ht]; simp
    slots := fun c => by rcases hchannel c with hc | hc <;> rw [hc] <;> exact ⟨rfl, rfl⟩
    kept := fun c op hop hr => by
      rcases hstanding c with hc | hc
      · rwa [hc] at hop
      · rw [hc, List.mem_map] at hop
        obtain ⟨o, ho, rfl⟩ := hop
        unfold discardOp at hr ⊢
        split at hr
        · exact absurd (rfl) hr
        · rename_i hp
          rwa [if_neg hp]
    count := fun c who hw => by
      rcases hstanding c with hc | hc
      · rw [hc]
      · rw [hc]
        exact countP_discardOp p who hw _
    nothing := fun c hn => by
      rcases hstanding c with hc | hc
      · rw [hc, hn]
      · rw [hc, hn, List.map_nil]
    started := fun c hn => by rcases hchannel c with hc | hc <;> rw [hc] at hn <;> exact hn
    current := fun c hn => by
      rcases hchannel c with hc | hc
      · rwa [hc]
      · rw [current_isSome_iff] at hn ⊢
        rw [hc, discard_eq]
        exact ⟨hn.1, by simpa using hn.2⟩ }

/-! ### The law of fewer operations -/

theorem State.Thins.ordered (ht : s.Thins h t) (ho : s.Ordered) : t.Ordered :=
  ⟨ht.rises ho.entries, ht.builders ▸ ho.builders, fun c => (ht.slots c).1 ▸ ho.slots c⟩

theorem State.Thins.occupied (ht : s.Thins h t) (ho : s.occupied h) : t.occupied h := fun c hc => ht.current c (ho c hc)

/-- The view with the operations that stand. -/
theorem State.Thins.view (ht : s.Thins h t) :
    t.view h = { s.view h with ops := fun c => (t.standing h c : Multiset Op) } := by
  have hslot : ∀ r, t.slotState r = s.slotState r := fun r => by
    rw [State.slotState, Channel.slot, (ht.slots r.channel).1, (ht.slots r.channel).2]
    exact rfl
  simp only [State.view, State.builder, State.eraseOn, ht.builders, ht.wait, ht.erasing, ht.channel, hslot,
    fun e => (ht.entry e).1, fun e => (ht.entry e).2]

theorem State.Thins.linked (ht : s.Thins h t) (hs : (s.view h).Linked) : (t.view h).Linked := by
  rw [ht.view]
  exact
  { hs with
    writes := fun c op b hop hr => hs.writes c op b (ht.kept c op hop (by simp [hr])) hr
    erases := fun c op hop hr => hs.erases c op (ht.kept c op hop (by simp [hr])) hr
    oneErase := fun c => (ht.count c .eraser (by simp)).trans (hs.oneErase c)
    oneWrite := fun c b => (ht.count c (.builder b) (by simp)).trans (hs.oneWrite c b) }

theorem State.Thins.named (ht : s.Thins h t) (hs : (s.view h).Named) : (t.view h).Named := by
  rw [ht.view]
  exact { hs with }

theorem State.Thins.atWork (ht : s.Thins h t) (hs : s.AtWork h) : t.AtWork h :=
  { unloaded := ht.load.trans hs.unloaded
    unformatted := ht.format.trans hs.unformatted
    entries := (ht.ordered hs.ordered).entries
    builders := (ht.ordered hs.ordered).builders
    slots := (ht.ordered hs.ordered).slots
    occupied := ht.occupied hs.occupied
    law := { toLinked := ht.linked hs.law.toLinked, toNamed := ht.named hs.law.toNamed } }

theorem State.Thins.rests (ht : s.Thins h t) {who : Requester → Bool} (hs : s.restsBut h who) : t.restsBut h who := by
  obtain ⟨hbuilders, hwait, herasing, hops⟩ := hs
  refine ⟨ht.builders.trans hbuilders, ht.wait.trans hwait, ht.erasing.trans herasing, fun c op hop => ?_⟩
  by_cases hr : op.requester = .discarded
  · exact Or.inl hr
  · exact hops c op (ht.kept c op hop hr)

theorem State.Thins.mapLaw (ht : s.Thins h t) (hs : s.MapLaw h) : t.MapLaw h where
  loads hl := by
    rw [ht.load] at hl
    obtain ⟨harchive, hformat, hdir, hrests, hslots⟩ := hs.loads hl
    refine ⟨ht.archive.trans harchive, ht.format.trans hformat, ht.empty hdir, ht.rests hrests, fun c => ?_⟩
    rw [(ht.slots c).1, (ht.slots c).2]
    exact hslots c
  formats f hf := by
    rw [ht.format] at hf
    obtain ⟨harchive, hrests, hphase, himage⟩ := hs.formats f hf
    refine ⟨ht.archive.trans harchive, ht.rests hrests, fun hn => ?_, fun hi => ht.empty (himage hi)⟩
    obtain ⟨hquiet, hbelow⟩ := hphase hn
    refine ⟨fun c hc hn => ht.nothing c (hquiet c hc (ht.started c hn)), fun c op hop hr => ?_⟩
    exact hbelow c op (ht.kept c op hop (by simp [hr])) hr
  linked := ht.linked hs.linked
  named hf := ht.named (hs.named (fun f hx => hf f (ht.format.trans hx)))

/-! ### The end of an operation (R96) -/

/-- The operation in progress ends: it stands no more, though it is at the head of its queue till the command is done. -/
theorem standing_opened {c : Nat} {op : Op} (hp : s.inProgress c op = true) :
    s.asked c = op :: s.standing (some c) c ∧ ∀ d, d ≠ c → s.standing (some c) d = s.asked d := by
  have hcurrent : (s.channel c).current = some op := of_decide_eq_true hp
  unfold Channel.current at hcurrent
  split at hcurrent
  · refine ⟨?_, fun d hd => ?_⟩
    · rw [State.asked, State.standing, if_pos (rfl), ← List.cons_append, List.cons_head?_tail hcurrent]
    · rw [State.standing, if_neg (by simpa using hd.symm), State.asked]
  · cases hcurrent

theorem occupied_of_inProgress {c : Nat} {op : Op} (hp : s.inProgress c op = true) : s.occupied (some c) := fun d hd => by
  obtain rfl : c = d := by simpa using hd
  have hcurrent : (s.channel c).current = some op := of_decide_eq_true hp
  simp [hcurrent]

theorem standing_sublist {c : Nat} {op : Op} (hp : s.inProgress c op = true) (d : Nat) :
    (s.standing (some c) d).Sublist (s.asked d) := by
  obtain ⟨hhead, hothers⟩ := standing_opened hp
  by_cases hd : d = c
  · rw [hd, hhead]
    exact List.sublist_cons_self _ _
  · rw [hothers d hd]

/-- The law as the operation in progress begins to end. -/
theorem State.MapLaw.opens (hs : s.MapLaw none) {c : Nat} {op : Op} (hp : s.inProgress c op = true) : s.MapLaw (some c) := by
  have hsub := standing_sublist hp
  have hrests : ∀ who, s.restsBut none who → s.restsBut (some c) who := fun who hr =>
    ⟨hr.1, hr.2.1, hr.2.2.1, fun d o ho => hr.2.2.2 d o ((hsub d).subset ho)⟩
  have hlinked := hs.linked
  exact
  { loads := fun hl => by
      obtain ⟨harchive, hformat, hdir, hr, hslots⟩ := hs.loads hl
      exact ⟨harchive, hformat, hdir, hrests _ hr, hslots⟩
    formats := fun f hf => by
      obtain ⟨harchive, hr, hphase, himage⟩ := hs.formats f hf
      refine ⟨harchive, hrests _ hr, fun hn => ?_, himage⟩
      obtain ⟨hquiet, hbelow⟩ := hphase hn
      exact ⟨fun d hd hn => List.sublist_nil.mp ((hquiet d hd hn) ▸ hsub d), fun d o ho => hbelow d o ((hsub d).subset ho)⟩
    linked :=
    { hlinked with
      writes := fun d o b ho => hlinked.writes d o b ((hsub d).subset ho)
      erases := fun d o ho => hlinked.erases d o ((hsub d).subset ho)
      oneErase := fun d => ((hsub d).countP_le).trans (hlinked.oneErase d)
      oneWrite := fun d b => ((hsub d).countP_le).trans (hlinked.oneWrite d b) }
    named := fun hf => { hs.named hf with } }

/-- The view once the operation has left its queue. -/
theorem endOp_view (c : Nat) (s : State) : (startNext c (endOp c s)).view none = s.view (some c) := by
  obtain ⟨hleft, hothers⟩ := endOp_asked c s
  have hops : ∀ d, ((startNext c (endOp c s)).asked d : Multiset Op) = (s.standing (some c) d : Multiset Op) := fun d => by
    rw [startNext_asked]
    by_cases hd : d = c
    · rw [hd, State.standing, if_pos (rfl)]
      exact Multiset.coe_eq_coe.mpr hleft
    · rw [State.asked, hothers d hd, State.standing, if_neg (by simpa using fun hc => hd hc.symm)]
  simp only [State.view, standing_none, hops]
  simp [State.entry, State.builder, State.eraseOn, startNext_slotState, endOp_slotState]

theorem refill_slots (ch : Channel) : ch.refill.slots = ch.slots ∧ ch.refill.rest = ch.rest :=
  foldl_inv (fun c : Channel => c.slots = ch.slots ∧ c.rest = ch.rest) (fun c (_ : Nat) => c.refillOne) (fun c _ hc => by
    obtain ⟨hslots, hrest⟩ := refillOne_slots c
    exact ⟨hslots.trans hc.1, hrest.trans hc.2⟩) (List.range ch.outside.length) ch ⟨rfl, rfl⟩

theorem endOp_slots (c d : Nat) (s : State) :
    ((startNext c (endOp c s)).channel d).slots = (s.channel d).slots ∧
      ((startNext c (endOp c s)).channel d).rest = (s.channel d).rest := by
  have hstart : ∀ u : State, ((startNext c u).channel d).slots = (u.channel d).slots ∧
      ((startNext c u).channel d).rest = (u.channel d).rest := fun u => by
    simp only [startNext]
    split
    · rw [State.setChannel_channel]
      split
      · rename_i hd
        rw [hd]
        exact ⟨rfl, rfl⟩
      · exact ⟨rfl, rfl⟩
    · exact ⟨rfl, rfl⟩
  have hend : ((endOp c s).channel d).slots = (s.channel d).slots ∧ ((endOp c s).channel d).rest = (s.channel d).rest := by
    rw [endOp, State.setChannel_channel]
    split
    · rename_i hd
      rw [hd]
      split
      · exact refill_slots _
      · exact ⟨rfl, rfl⟩
    · exact ⟨rfl, rfl⟩
  exact ⟨(hstart _).1.trans hend.1, (hstart _).2.trans hend.2⟩

/-- A place in an empty queue is taken by any operation that waits outside (R95). -/
theorem refillOne_ne_nil {ch : Channel} (h : ch.queue ≠ [] ∨ ch.outside ≠ []) : ch.refillOne.queue ≠ [] := by
  have hjoin : ∀ (c : Channel) (op : Op), (c.join op).queue ≠ [] := fun c op => by
    unfold Channel.join
    split <;> simp
  unfold Channel.refillOne
  split
  · split
    · exact hjoin _ _
    · split
      · rename_i hempty
        exact h.resolve_right (fun hne => hne hempty)
      · exact hjoin _ _
  · rename_i hfull
    intro hnil
    simp [hnil, Config.queueOps] at hfull

/-- A queue left empty has nothing waiting outside (R95). -/
theorem refill_empty {ch : Channel} (h : ch.refill.queue = []) : ch.refill.outside = [] := by
  cases hout : ch.outside with
  | nil => rw [refill_none hout, hout]
  | cons o rest =>
    exfalso
    have hfirst : ch.refillOne.queue ≠ [] := refillOne_ne_nil (Or.inr (by simp [hout]))
    have hrange : List.range ch.outside.length = 0 :: (List.range rest.length).map Nat.succ := by
      rw [hout, List.length_cons, List.range_succ_eq_map]
    have hkept := foldl_inv (fun c : Channel => c.queue ≠ []) (fun c (_ : Nat) => c.refillOne)
      (fun c _ hc => refillOne_ne_nil (Or.inl hc)) ((List.range rest.length).map Nat.succ) ch.refillOne hfirst
    rw [Channel.refill, hrange, List.foldl_cons] at h
    exact hkept h

/-- A channel with no operation in progress, once the next has been started, has none asked. -/
theorem endOp_idle {c : Nat} {s : State} (ha : s.notHalted = true)
    (hn : ((startNext c (endOp c s)).channel c).started = none) : (startNext c (endOp c s)).asked c = [] := by
  have hhalted : (endOp c s).notHalted = true := ha
  have hqueue : ((endOp c s).channel c).queue = [] := by
    rw [startNext, hhalted, Bool.true_and] at hn
    split at hn
    · rw [State.setChannel_channel_same] at hn
      cases hn
    · rename_i hidle
      simpa [hn] using hidle
  rw [startNext_asked, State.asked, hqueue]
  rw [endOp, State.setChannel_channel_same, if_pos ha] at hqueue ⊢
  exact refill_empty hqueue

/-- The law as the operation that ended has left its queue. -/
theorem State.MapLaw.closes {c : Nat} (hs : s.MapLaw (some c)) : (startNext c (endOp c s)).MapLaw none := by
  obtain ⟨t, ht⟩ : ∃ t, t = startNext c (endOp c s) := ⟨_, rfl⟩
  have hview : t.view none = s.view (some c) := by rw [ht, endOp_view]
  have hmem : ∀ d op, op ∈ t.standing none d → op ∈ s.standing (some c) d := fun d op hop => by
    have hops : (t.view none).ops d = (s.view (some c)).ops d := by rw [hview]
    exact (Multiset.coe_eq_coe.mp hops).mem_iff.mp hop
  have hcat : t.cat = s.cat := by rw [ht]; simp
  have hdir : t.media.dir = s.media.dir := by rw [ht]; simp
  have hrests : ∀ who, s.restsBut (some c) who → t.restsBut none who := fun who hr => by
    refine ⟨?_, ?_, ?_, fun d op hop => hr.2.2.2 d op (hmem d op hop)⟩
    · rw [ht]; simpa using hr.1
    · rw [ht]; simpa using hr.2.1
    · rw [ht]; simpa using hr.2.2.1
  rw [← ht]
  refine ⟨fun hl => ?_, fun f hf => ?_, hview ▸ hs.linked, fun hf => hview ▸ hs.named (fun f hx => hf f (hcat ▸ hx))⟩
  · rw [hcat] at hl ⊢
    obtain ⟨harchive, hformat, hempty, hr, hslots⟩ := hs.loads hl
    refine ⟨harchive, hformat, hdir.trans hempty, hrests _ hr, fun d => ?_⟩
    obtain ⟨hlist, hrest⟩ := endOp_slots c d s
    rw [ht, hlist, hrest]
    exact hslots d
  · rw [hcat] at hf ⊢
    obtain ⟨harchive, hr, hphase, himage⟩ := hs.formats f hf
    refine ⟨harchive, hrests _ hr, fun hn => ?_, fun hi => hdir.trans (himage hi)⟩
    obtain ⟨hquiet, hbelow⟩ := hphase hn
    refine ⟨fun d hd hstarted => ?_, fun d op hop => hbelow d op (hmem d op hop)⟩
    by_cases hdc : d = c
    · subst hdc
      rw [ht] at hstarted ⊢
      exact endOp_idle (by simp [State.notHalted, harchive]) hstarted
    · obtain ⟨-, hothers⟩ := endOp_asked c s
      have hchannel : t.channel d = s.channel d := by
        rw [ht, startNext_channel_ne hdc, hothers d hdc]
      have hstanding : t.standing none d = s.standing (some c) d := by
        simp only [State.standing, hchannel]
        simp [Ne.symm hdc]
      rw [hstanding]
      exact hquiet d hd (hchannel ▸ hstarted)

/-- What an operation leaves in its slot is not the law's. -/
theorem leaveInSlot_thins (c : Nat) (op : Op) (ok : Bool) (s : State) : s.Thins h (leaveInSlot c op ok s) :=
  .of_eq (by simp) (by simp) (by simp) (by simp) (by simp) (by simp) (by simp) (by simp) (by simp)

/-- An operation that ends keeps the law, where its requester's handling does while it ends (R96). -/
theorem complete_mapLaw {c : Nat} {op : Op} (hs : s.MapLaw none) (hp : s.inProgress c op = true) (ok : Bool)
    {act : State → State}
    (ha : (leaveInSlot c op ok s).MapLaw (some c) → (act (leaveInSlot c op ok s)).MapLaw (some c)) :
    (complete c op ok act s).MapLaw none :=
  (ha ((leaveInSlot_thins c op ok s).mapLaw (hs.opens hp))).closes

end
end Sys2Proof.Machine
end

