-- ==== Sys2Proof/Proofs/SlotMapService.lean ====
section
/-!
PROOFS. Proofs/SlotMapService.lean: what the part does in service keeps the law of the Slot Map: sweeps, files accepted,
cursors, audit jobs and the ends of checkpoints (R38 to R50, R88, R104 to R135, R146 to R164, R172, R173).
-/

namespace Sys2Proof.Machine
open Sys2Proof

section
variable {h : Option Nat} {s : State}

/-! ### Sweeps (R104 to R135) -/

theorem endDay_atWork (hs : s.AtWork h) (w : Sweep) : (endDay w s).AtWork h := by
  refine trigger_atWork (popSweep_atWork ?_) _
  exact hs.keeps rfl rfl rfl ⟨rfl, rfl, rfl⟩

theorem endExtend_atWork (hs : s.AtWork h) (c : Nat) (w : Sweep) : (endExtend c w s).AtWork h := by
  refine lookForWork_atWork (trigger_atWork ?_ _)
  have hpopped : (popSweep { s with ret := { s.ret with
      lastExtend := some { extended := w.extended, reclaimed := w.reclaimed, tooLate := w.tooLate, cls := c } } }).AtWork h :=
    popSweep_atWork (hs.keeps rfl rfl rfl ⟨rfl, rfl, rfl⟩)
  split
  · exact hpopped
  · exact hpopped.keeps rfl rfl rfl ⟨rfl, rfl, rfl⟩

theorem endApply_atWork (hs : s.AtWork h) (k : Nat) (w : Sweep) : (endApply k w s).AtWork h := by
  refine trigger_atWork (popSweep_atWork ?_) _
  exact hs.keeps (by simp) (by simp) (by simp) (by simp)

theorem writeFinding_atWork (hs : s.AtWork h) (b : FindingBody) : (writeFinding b s).AtWork h :=
  hs.keeps (by simp) (by simp) (by simp) (by simp)

theorem runOutApply_atWork (hs : s.AtWork h) (k : Nat) (w : Sweep) : (runOutApply k w s).AtWork h := by
  unfold runOutApply
  repeat' split
  · exact endApply_atWork hs k w
  · exact hs.keeps rfl rfl rfl ⟨rfl, rfl, rfl⟩
  · exact endApply_atWork (writeFinding_atWork hs _) k w

theorem resumeSweep_atWork (hs : s.AtWork h) : (resumeSweep s).AtWork h := by
  unfold resumeSweep
  repeat' split
  · exact runOutApply_atWork hs _ _
  all_goals exact hs

theorem endRelease_atWork (hs : s.AtWork h) (k : Nat) (w : Sweep) : (endRelease k w s).AtWork h := by
  refine trigger_atWork (popSweep_atWork ?_) _
  exact hs.keeps (by simp) (by simp) (by simp) (by simp)

theorem stepSweep_atWork (hs : s.AtWork h) (w : Sweep) {finish : Sweep → State → State} (hf : (finish w s).AtWork h) :
    (stepSweep w finish s).AtWork h := by
  unfold stepSweep
  split
  · exact hf
  · exact hs.keeps rfl rfl rfl ⟨rfl, rfl, rfl⟩

theorem judgeExpiry_atWork (hs : s.AtWork h) (w : Sweep) : (judgeExpiry w s).2.AtWork h := by
  simp only [judgeExpiry]
  repeat' split
  · exact hs
  · exact hs
  · exact hs
  · exact hs
  · rename_i hdue _ _ _
    have hstored : (s.entry w.position).state = .stored := by
      simp only [Bool.not_eq_true, Bool.not_eq_false', State.due, Bool.and_eq_true, decide_eq_true_eq] at hdue
      exact hdue.1
    exact mark_atWork hs (Or.inl hstored) (Or.inr rfl) rfl

theorem extendEntry_atWork (hs : s.AtWork h) (c : Nat) (w : Sweep) : (extendEntry c w s).2.AtWork h := by
  have hdays : ∀ d, (s.setEntry w.position { s.entry w.position with expiryDay := d }).AtWork h := fun d =>
    hs.rewriteEntry rfl rfl
  simp only [extendEntry]
  split
  · exact hs
  · split
    · split
      · exact hdays _
      · exact hs
    · split
      · exact hdays _
      · exact hs
    · rename_i hexpired
      split
      · exact mark_atWork hs (Or.inr hexpired) (Or.inl rfl) rfl
      · split
        · exact hdays _
        · exact hs
    · exact hs
    · exact hs
    · exact hs

theorem setHold_atWork (hs : s.AtWork h) (k : Nat) (v : Hold) : (s.setHold k v).AtWork h :=
  hs.keeps rfl rfl rfl ⟨rfl, rfl, rfl⟩

theorem applyEntry_atWork (hs : s.AtWork h) (k n : Nat) : (applyEntry k n s).AtWork h := by
  have hmarked : (s.setEntry n (withMark k (s.entry n))).AtWork h := hs.rewriteEntry rfl rfl
  simp only [applyEntry]
  split
  · exact hs
  · split
    · exact setHold_atWork hmarked _ _
    · exact setHold_atWork hmarked _ _
    · rename_i hexpired
      have hreclaimed :
          (s.setEntry n { withMark k (s.entry n) with state := .stored, expiryCkpt := none }).AtWork h :=
        mark_atWork hs (Or.inr hexpired) (Or.inl rfl) rfl
      exact setHold_atWork hreclaimed _ _
    · exact setHold_atWork hs _ _
    · exact hs
    · exact hs

theorem releaseEntry_atWork (hs : s.AtWork h) (k : Nat) (w : Sweep) : (releaseEntry k w s).2.AtWork h := by
  simp only [releaseEntry]
  split
  · exact hs.rewriteEntry rfl rfl
  · exact hs

/-! ### Days and classes (R102, R103, R107) -/

theorem advance_atWork (hs : s.AtWork h) (r : ReqRef) : (advance r s).AtWork h := by
  simp only [advance]
  refine pushSweep_atWork (runCompaction_atWork (closeOldBuilders_atWork ?_)) _ _
  exact hs.keeps (by simp) (by simp) (by simp) (by simp)

theorem oweExtend_atWork (hs : s.AtWork h) (c : Nat) (r : ReqRef) : (oweExtend c r s).AtWork h := by
  unfold oweExtend
  repeat' split
  · exact hs.keeps rfl rfl rfl ⟨rfl, rfl, rfl⟩
  all_goals exact pushSweep_atWork hs _ _

theorem changeClass_atWork (hs : s.AtWork h) (r : ReqRef) (c days : Nat) : (changeClass r c days s).AtWork h := by
  have hset : ∀ v, (s.setRetClass c v).AtWork h := fun v => hs.keeps rfl rfl rfl ⟨rfl, rfl, rfl⟩
  simp only [changeClass]
  split
  · exact trigger_atWork (oweExtend_atWork (hset _) c r) []
  · exact triggerFor_atWork (hset _) r [] []

/-! ### Files received and accepted (R38 to R50) -/

theorem abortSlot_atWork (hs : s.AtWork h) (k : Nat) : (abortSlot k s).AtWork h :=
  hs.keeps (by simp) (by simp) (by simp) (by simp)

theorem refuseFile_atWork (hs : s.AtWork h) (k : Nat) : (refuseFile k s).AtWork h :=
  hs.keeps (by simp [refuseFile]) (by simp [refuseFile]) (by simp [refuseFile]) (by simp [refuseFile])

theorem refuseClose_atWork (hs : s.AtWork h) (k : Nat) (st : Status) : (refuseClose k st s).AtWork h := by
  simp only [refuseClose]
  split
  · exact refuseFile_atWork hs k
  · exact answer_atWork (refuseFile_atWork hs k) _ _ _

theorem acceptFile_atWork (hs : s.AtWork h) (k : Nat) (e : SourceEntry) (gone : List GapRecord) (pos : Nat) :
    (acceptFile k e gone pos s).AtWork h := by
  have hjoined : ∀ (f : IntakeSlot) (t : State), t.AtWork h → (clearSlot k (joinQueue f t)).AtWork h := fun f t ht =>
    ht.keeps rfl rfl rfl ⟨rfl, rfl, rfl⟩
  have hcounted := hs.keeps (t := ((exportGaps (s.intakeSlot k).source .overflow gone s).setSource (s.intakeSlot k).source
      (countAccepted e (s.intakeSlot k).day)).changeTally (s.intakeSlot k).source (s.intakeSlot k).day
        (fun y => tallyAccept y (s.intakeSlot k).declaredRecords (s.intakeSlot k).accepted (s.intakeSlot k).rejects.sum))
    (by simp) (by simp) (by simp) (by simp)
  simp only [acceptFile]
  refine runCompaction_atWork ?_
  split
  · exact hjoined _ _ hcounted
  · exact answer_atWork (hjoined _ _ hcounted) _ _ _

theorem judgeClose_atWork (hs : s.AtWork h) (k : Nat) : (judgeClose k s).AtWork h := by
  simp only [judgeClose]
  split
  · exact refuseClose_atWork hs k _
  · refine refuseClose_atWork ?_ k _
    exact hs.keeps rfl rfl rfl ⟨rfl, rfl, rfl⟩
  · exact acceptFile_atWork hs k _ _ _

theorem acceptNext_atWork (hs : s.AtWork h) : (acceptNext s).AtWork h := by
  unfold acceptNext
  split
  · exact hs
  · split
    · exact judgeClose_atWork hs _
    · exact hs

theorem acceptSome_atWork (n : Nat) {s : State} (hs : s.AtWork h) : (acceptSome n s).AtWork h := by
  induction n generalizing s with
  | zero => exact hs
  | succ n ih => exact ih (acceptNext_atWork hs)

/-- A file whose page fails stops compaction (R77). -/
theorem appendStep_atWork (hs : s.AtWork h) (ok : Bool) : (appendStep ok s).AtWork h := by
  unfold appendStep
  repeat' split
  · exact hs
  · exact hs
  · refine raiseFault_atWork ?_ _
    exact hs.keeps rfl rfl rfl ⟨rfl, rfl, rfl⟩
  · exact runCompaction_atWork (appendNext_atWork hs _ _)
  · exact hs

/-! ### Reads (R146, R159) -/

theorem raiseReader_atWork (hs : s.AtWork h) (e : Nat) : (raiseReader e s).AtWork h := hs.rewriteEntry rfl rfl

theorem lowerReader_atWork (hs : s.AtWork h) (e : Nat) : (lowerReader e s).AtWork h := (lowerReader_thins e s).atWork hs

theorem askRead_atWork (hs : s.AtWork h) (e : Nat) {who : Requester} (hw : ∀ b, who ≠ .builder b) (he : who ≠ .eraser) :
    (askRead e who s).AtWork h := by
  unfold askRead
  split
  · exact hs
  · exact hs.askOther hw he

/-! ### Cursors (R159 to R164) -/

theorem setCursor_atWork (hs : s.AtWork h) (c : Nat) (k : Cursor) : (s.setCursor c k).AtWork h :=
  hs.keeps rfl rfl rfl ⟨rfl, rfl, rfl⟩

theorem setCursor_thins (c : Nat) (k : Cursor) (s : State) : s.Thins h (s.setCursor c k) :=
  .of_media rfl rfl rfl ⟨rfl, rfl, rfl, rfl⟩

theorem releaseHeld_thins (c : Nat) (s : State) : s.Thins h (releaseHeld c s) := by
  unfold releaseHeld
  split
  · exact .same s
  · exact (lowerReader_thins _ s).trans (setCursor_thins _ _ _)

theorem endLoad_thins (c : Nat) (s : State) : s.Thins h (endLoad c s) := by
  unfold endLoad
  split
  · exact (discard_thins _ s).trans (releaseHeld_thins c _)
  · exact .same s

theorem freeCursor_thins (c : Nat) (s : State) : s.Thins h (freeCursor c s) :=
  ((endLoad_thins c s).trans (releaseHeld_thins c _)).trans (setCursor_thins _ _ _)

theorem freeCursorsOf_thins (p : Port) (s : State) : s.Thins h (freeCursorsOf p s) :=
  foldl_inv (fun t : State => s.Thins h t) _ (fun t c ht => by
    split
    · exact ht.trans (freeCursor_thins c t)
    · exact ht) _ _ (.same s)

theorem releaseHeld_atWork (hs : s.AtWork h) (c : Nat) : (releaseHeld c s).AtWork h := (releaseHeld_thins c s).atWork hs

theorem endLoad_atWork (hs : s.AtWork h) (c : Nat) : (endLoad c s).AtWork h := (endLoad_thins c s).atWork hs

theorem enterEntry_atWork (hs : s.AtWork h) (c e : Nat) : (enterEntry c e s).AtWork h :=
  askRead_atWork (setCursor_atWork (raiseReader_atWork hs e) c _) e (by simp) (by simp)

theorem passEntry_atWork (hs : s.AtWork h) (c e : Nat) : (passEntry c e s).AtWork h := setCursor_atWork hs c _

theorem seekEntry_atWork (c fuel : Nat) {s : State} (hs : s.AtWork h) : (seekEntry c fuel s).AtWork h := by
  induction fuel generalizing s with
  | zero => exact hs
  | succ fuel ih =>
    have hpassed : ∀ k e, (seekEntry c fuel (passEntry c e (s.setCursor c k))).AtWork h := fun k e =>
      ih (passEntry_atWork (setCursor_atWork hs c k) c e)
    simp only [seekEntry]
    repeat' split
    · exact setCursor_atWork hs c _
    · exact hpassed _ _
    · exact hpassed _ _
    · exact enterEntry_atWork hs c _
    · exact hpassed _ _

theorem seekOn_atWork (hs : s.AtWork h) (c : Nat) : (seekOn c s).AtWork h := seekEntry_atWork c _ hs

theorem loadFromCopy_atWork (hs : s.AtWork h) (c e : Nat) (copy : SegmentCopy) : (loadFromCopy c e copy s).AtWork h := by
  simp only [loadFromCopy]
  split
  · exact setCursor_atWork hs c _
  · exact seekOn_atWork (passEntry_atWork (releaseHeld_atWork hs c) c e) c
  · exact seekOn_atWork (passEntry_atWork (releaseHeld_atWork (setCursor_atWork hs c _) c) c e) c

theorem startLoad_atWork (hs : s.AtWork h) (c : Nat) : (startLoad c s).AtWork h := by
  have hloading : (s.setCursor c { s.cursor c with latch := .loading, last := none }).AtWork h := setCursor_atWork hs c _
  simp only [startLoad]
  repeat' split
  · exact loadFromCopy_atWork hloading c _ _
  · exact seekOn_atWork (releaseHeld_atWork hloading c) c
  · exact seekOn_atWork hloading c

theorem sendRecords_atWork (hs : s.AtWork h) (c : Nat) (w : ReadWait) (st : Status) : (sendRecords c w st s).AtWork h :=
  hs.keeps (by simp) (by simp) (by simp) (by simp)

theorem gather_atWork (c fuel : Nat) {s : State} (hs : s.AtWork h) : (gather c fuel s).AtWork h := by
  induction fuel generalizing s with
  | zero => exact hs
  | succ fuel ih =>
    simp only [gather]
    repeat' split
    · exact startLoad_atWork (sendRecords_atWork (setCursor_atWork hs c _) c _ _) c
    · exact ih (startLoad_atWork (setCursor_atWork hs c _) c)
    · exact sendRecords_atWork hs c _ _
    · exact hs

theorem gatherAll_atWork (hs : s.AtWork h) (c : Nat) : (gatherAll c s).AtWork h := gather_atWork c _ hs

theorem cursorRead_atWork (hs : s.AtWork h) (c : Nat) (p : Option Payload) (bad : List (Nat × Nat)) :
    (cursorRead c p bad s).AtWork h := by
  unfold cursorRead
  split
  · exact hs
  · split
    · exact gatherAll_atWork (loadFromCopy_atWork hs c _ _) c
    · exact gatherAll_atWork (seekOn_atWork (passEntry_atWork (releaseHeld_atWork (setCursor_atWork hs c _) c) c _) c) c

/-! ### Audit jobs (R146 to R151) -/

theorem setJob_atWork (hs : s.AtWork h) (j : Option Job) : (s.setJob j).AtWork h :=
  hs.keeps rfl rfl rfl ⟨rfl, rfl, rfl⟩

theorem setVerify_atWork (hs : s.AtWork h) (e : Nat) (st : VerifyStatus) : (setVerify e st s).AtWork h := by
  have hverified : (s.setEntry e { s.entry e with verify := st, verifyDay := some s.today }).AtWork h :=
    hs.rewriteEntry rfl rfl
  exact lowerReader_atWork hverified e

theorem markBad_atWork (hs : s.AtWork h) (j : Job) (e : Nat) (b : FindingBody) : (markBad j e b s).AtWork h :=
  setJob_atWork (setVerify_atWork (writeFinding_atWork hs b) e _) _

theorem suspendJob_atWork (hs : s.AtWork h) (j : Job) (b : FindingBody) : (suspendJob j b s).AtWork h :=
  hs.keeps (by simp) (by simp) (by simp) (by simp)

theorem judgeSegment_atWork (hs : s.AtWork h) (j : Job) (e : Nat) (p : Option Payload) : (judgeSegment j e p s).AtWork h := by
  simp only [judgeSegment]
  generalize ({ j with failed := if p.isNone then j.failed + 1 else j.failed } : Job) = j
  split
  · exact setJob_atWork (setVerify_atWork hs e _) _
  · split
    · exact suspendJob_atWork hs _ _
    · exact markBad_atWork hs _ e _

theorem endJob_atWork (hs : s.AtWork h) (j : Job) (st : Status) : (endJob j st s).AtWork h :=
  hs.keeps (by simp) (by simp) (by simp) (by simp)

theorem verifyRun_atWork (fuel : Nat) {s : State} (hs : s.AtWork h) : (verifyRun fuel s).AtWork h := by
  induction fuel generalizing s with
  | zero => exact hs
  | succ fuel ih =>
    simp only [verifyRun]
    repeat' split
    · exact hs
    · exact hs
    · exact hs
    · exact endJob_atWork hs _ _
    · exact askRead_atWork (setJob_atWork (raiseReader_atWork hs _) _) _ (by simp) (by simp)
    · exact ih (judgeSegment_atWork (raiseReader_atWork hs _) _ _ none)

theorem verifyOn_atWork (hs : s.AtWork h) : (verifyOn s).AtWork h := verifyRun_atWork _ hs

theorem addContribution_atWork (hs : s.AtWork h) (j : Job) (e : Nat) (p : Option Payload) :
    (addContribution j e p s).AtWork h := setJob_atWork (lowerReader_atWork hs e) _

theorem settleMismatch_atWork (hs : s.AtWork h) (j : Job) (i : Nat) (b : FindingBody) : (settleMismatch j i b s).AtWork h :=
  hs.keeps (by simp [settleMismatch]) (by simp [settleMismatch]) (by simp [settleMismatch]) (by simp [settleMismatch])

theorem settleKey_atWork (hs : s.AtWork h) (j : Job) (i : Nat) : (settleKey j i s).AtWork h := by
  simp only [settleKey]
  repeat' split
  · exact hs.keeps (by simp) (by simp) (by simp) (by simp)
  · exact suspendJob_atWork hs _ _
  · exact settleMismatch_atWork hs _ _ _

theorem takeKey_atWork (hs : s.AtWork h) (j : Job) : (takeKey j s).AtWork h := by
  simp only [takeKey]
  repeat' split
  · exact endJob_atWork hs _ _
  all_goals exact setJob_atWork hs _

theorem countKey_atWork (hs : s.AtWork h) (j : Job) (i : Nat) : (countKey j i s).AtWork h := by
  simp only [countKey]
  repeat' split
  · exact settleKey_atWork hs j i
  · exact askRead_atWork (setJob_atWork (raiseReader_atWork hs _) _) _ (by simp) (by simp)
  · exact addContribution_atWork (raiseReader_atWork hs _) _ _ none

theorem reconcileRun_atWork (fuel : Nat) {s : State} (hs : s.AtWork h) : (reconcileRun fuel s).AtWork h := by
  induction fuel generalizing s with
  | zero => exact hs
  | succ fuel ih =>
    simp only [reconcileRun]
    repeat' split
    · exact hs
    · exact hs
    · exact ih (countKey_atWork hs _ _)
    · exact ih (takeKey_atWork hs _)
    · exact hs

theorem reconcileOn_atWork (hs : s.AtWork h) : (reconcileOn s).AtWork h := reconcileRun_atWork _ hs

theorem jobOn_atWork (hs : s.AtWork h) : (jobOn s).AtWork h := reconcileOn_atWork (verifyOn_atWork hs)

theorem resumeJob_atWork (hs : s.AtWork h) : (resumeJob s).AtWork h := by
  simp only [resumeJob]
  repeat' split
  · exact hs
  · exact hs
  · exact jobOn_atWork (markBad_atWork hs _ _ _)
  · exact jobOn_atWork (settleMismatch_atWork hs _ _ _)
  · exact hs
  · exact hs

theorem fillBuffer_atWork (hs : s.AtWork h) (p : Option Payload) : (fillBuffer p (useFree s)).AtWork h :=
  hs.keeps (by simp) (by simp) (by simp) (by simp)

theorem verifyRead_atWork (hs : s.AtWork h) (c slot : Nat) (res : ReadResult) : (verifyRead c slot res s).AtWork h := by
  unfold verifyRead
  repeat' split
  · exact hs
  · exact verifyOn_atWork (judgeSegment_atWork (fillBuffer_atWork hs _) _ _ _)
  · exact hs

theorem reconcileAfter_atWork (hs : s.AtWork h) : (reconcileRead.reconcileAfter s).AtWork h := by
  unfold reconcileRead.reconcileAfter
  repeat' split
  · exact hs
  · exact hs
  · exact reconcileOn_atWork hs
  · exact settleKey_atWork hs _ _
  · exact hs

theorem reconcileRead_atWork (hs : s.AtWork h) (c slot : Nat) (res : ReadResult) :
    (reconcileRead c slot res s).AtWork h := by
  unfold reconcileRead
  repeat' split
  · exact hs
  · exact reconcileAfter_atWork (addContribution_atWork (fillBuffer_atWork hs _) _ _ _)
  · exact hs

theorem cancelJob_atWork (hs : s.AtWork h) (r : ReqRef) : (cancelJob r s).AtWork h := by
  unfold cancelJob
  split
  · exact hs
  · refine answer_atWork (endJob_atWork ((discard_thins _ _).atWork ?_) _ _) _ _ _
    unfold releaseInHand
    split
    · exact hs
    · exact lowerReader_atWork hs _

/-! ### Findings acknowledged (R142) -/

theorem freedFirst_atWork (hs : s.AtWork h) (o : AckOrder) : (freedFirst o s).AtWork h := by
  cases o with
  | intakeFirst => exact hs
  | sweepFirst => exact resumeSweep_atWork hs
  | jobFirst => exact resumeJob_atWork hs
  | sweepThenJob => exact resumeJob_atWork (resumeSweep_atWork hs)
  | jobThenSweep => exact resumeSweep_atWork (resumeJob_atWork hs)

theorem intakePasses_atWork (hs : s.AtWork h) (n : Nat) : (intakePasses n s).AtWork h := by
  unfold intakePasses
  split
  · exact hs
  · exact hs.keeps (by simp) (by simp) (by simp) (by simp)

/-! ### Checkpoints (R172) -/

theorem shareWritten_atWork (hs : s.AtWork h) (n : Nat) : (shareWritten n s).AtWork h := by
  unfold shareWritten
  split
  · exact setCat_atWork hs rfl rfl rfl
  · exact takeOwed_atWork (acceptSome_atWork _ (completeCheckpoint_atWork hs))

/-- A place taken from outside leaves the operation in progress at the head of the queue. -/
theorem refillOne_head {ch : Channel} (hc : ch.started.isSome = true) {o : Op} {q : List Op} (hq : ch.queue = o :: q) :
    ch.refillOne.started = ch.started ∧ ∃ q', ch.refillOne.queue = o :: q' := by
  have hjoin : ∀ (c : Channel) (op : Op), c.started = ch.started → c.queue = ch.queue →
      (c.join op).started = ch.started ∧ ∃ q', (c.join op).queue = o :: q' := fun c op hs hcq => by
    obtain ⟨q', hq', hstarted⟩ := c.join_head op (hs ▸ hc) (hcq.trans hq)
    exact ⟨hstarted.trans hs, q', hq'⟩
  unfold Channel.refillOne
  repeat' split
  · exact hjoin _ _ rfl rfl
  · exact ⟨rfl, q, hq⟩
  · exact hjoin _ _ rfl rfl
  · exact ⟨rfl, q, hq⟩

theorem refill_head {ch : Channel} (hc : ch.started.isSome = true) {o : Op} {q : List Op} (hq : ch.queue = o :: q) :
    ch.refill.started = ch.started ∧ ∃ q', ch.refill.queue = o :: q' :=
  foldl_inv (fun c : Channel => c.started = ch.started ∧ ∃ q', c.queue = o :: q') (fun c (_ : Nat) => c.refillOne)
    (fun c _ hkept => by
      obtain ⟨hstarted, q', hq'⟩ := hkept
      obtain ⟨hstarted', hqueue⟩ := refillOne_head (hstarted ▸ hc) hq'
      exact ⟨hstarted'.trans hstarted, hqueue⟩) _ _ ⟨rfl, q, hq⟩

/-- The shares waiting behind the operation in progress leave its channel, and others take their places (R173). -/
theorem dropShares_standing {ch : Channel} (hc : ch.current.isSome = true) :
    ch.dropShares.refill.started = ch.started ∧ ch.dropShares.refill.queue ≠ [] ∧
      (ch.dropShares.refill.queue.tail ++ ch.dropShares.refill.outside).Perm
        ((ch.queue.tail ++ ch.outside).filter (fun op => !isShareWrite op)) := by
  obtain ⟨hstarted, hne⟩ := (current_isSome_iff ch).mp hc
  obtain ⟨o, q, hq⟩ := List.exists_cons_of_ne_nil hne
  have hcurrent : ch.current = some o := by simp [Channel.current, hstarted, hq]
  have hdropped : ch.dropShares.queue = o :: q.filter (fun op => !isShareWrite op) := by
    simp [Channel.dropShares, hcurrent, hq]
  obtain ⟨hkept, q', hq'⟩ := refill_head (ch := ch.dropShares) hstarted hdropped
  have hperm := ch.dropShares.refill_perm
  rw [hq', hdropped, List.cons_append, List.cons_append] at hperm
  refine ⟨hkept, by simp [hq'], ?_⟩
  rw [hq', hq, List.filter_append]
  exact hperm.cons_inv

theorem dropShares_thins {c : Nat} (hc : s.occupied (some c)) :
    s.Thins (some c) (s.setChannel c (s.channel c).dropShares.refill) := by
  obtain ⟨hstarted, hqueue, hperm⟩ := dropShares_standing (hc c rfl)
  obtain ⟨hslots, hrest⟩ := refill_slots (s.channel c).dropShares
  obtain ⟨t, ht⟩ : ∃ t, t = s.setChannel c (s.channel c).dropShares.refill := ⟨_, rfl⟩
  have hsame : t.channel c = (s.channel c).dropShares.refill := by rw [ht, State.setChannel_channel_same]
  have hother : ∀ d, d ≠ c → t.channel d = s.channel d := fun d hd => by rw [ht, State.setChannel_channel_ne _ _ _ hd]
  have hstanding : ∀ d, ∃ l, (t.standing (some c) d).Perm l ∧ l.Sublist (s.standing (some c) d) := fun d => by
    by_cases hd : d = c
    · subst hd
      refine ⟨_, ?_, List.filter_sublist (p := fun op => !isShareWrite op)⟩
      simpa [State.standing, hsame] using hperm
    · exact ⟨_, .refl _, by simp [State.standing, hother d hd]⟩
  rw [← ht]
  exact
  { entry := fun e => by rw [ht]; exact ⟨rfl, rfl⟩
    empty := fun hd => by rw [ht]; exact hd
    rises := fun hd => by rw [ht]; exact hd
    builders := by rw [ht]; rfl
    wait := by rw [ht]; rfl
    erasing := by rw [ht]; rfl
    channel := by rw [ht]; rfl
    load := by rw [ht]; rfl
    format := by rw [ht]; rfl
    archive := by rw [ht]; rfl
    slots := fun d => by
      by_cases hd : d = c
      · rw [hd, hsame]
        exact ⟨hslots, hrest⟩
      · rw [hother d hd]
        exact ⟨rfl, rfl⟩
    kept := fun d op hop _ => by
      obtain ⟨l, hl, hsub⟩ := hstanding d
      exact hsub.subset (hl.mem_iff.mp hop)
    count := fun d who _ => by
      obtain ⟨l, hl, hsub⟩ := hstanding d
      rw [hl.countP_eq]
      exact hsub.countP_le
    nothing := fun d hd => by
      obtain ⟨l, hl, hsub⟩ := hstanding d
      rw [hd, List.sublist_nil] at hsub
      exact List.perm_nil.mp (hsub ▸ hl)
    started := fun d hd => by
      by_cases hdc : d = c
      · rwa [hdc, hsame, hstarted, ← hdc] at hd
      · rwa [hother d hdc] at hd
    current := fun d hd => by
      by_cases hdc : d = c
      · rw [current_isSome_iff, hdc, hsame, hstarted]
        exact ⟨((current_isSome_iff _).mp (hc c rfl)).1, hqueue⟩
      · rwa [hother d hdc] }

/-- A checkpoint that fails stops, and its shares leave the queue (R173). -/
theorem failCheckpoint_atWork {c : Nat} (hs : s.AtWork (some c)) (k : Nat) : (failCheckpoint c k s).AtWork (some c) := by
  have hdropped := (dropShares_thins hs.occupied).atWork hs
  simp only [failCheckpoint]
  refine answerWaiters_atWork (raiseFault_atWork ?_ _) _ _
  exact setCat_atWork hdropped rfl rfl rfl

/-! ### Channels set OFFLINE and ONLINE (R93) -/

/-- A change of mode keeps the operations of the channel, and its slots but for CLEAN ones, which may become DIRTY (R93). -/
theorem withMode_keeps {ch : Channel} (hr : Tbl.rising ch.slots = true) (m : ChanMode) :
    ((ch.withMode m).started = ch.started ∧ (ch.withMode m).queue = ch.queue ∧ (ch.withMode m).outside = ch.outside) ∧
      Tbl.rising (ch.withMode m).slots = true ∧
      ∀ k, (ch.withMode m).slot k = ch.slot k ∨ ch.slot k = .clean ∧ (ch.withMode m).slot k = .dirty := by
  by_cases hleft : ch.setMode = .offline ∧ m ≠ .offline
  · obtain ⟨ho, hm⟩ := hleft
    have hslot := withMode_slot hr ho hm
    rw [withMode_left ho hm] at hslot ⊢
    refine ⟨⟨rfl, rfl, rfl⟩, ?_, fun k => ?_⟩
    · rw [dirtyClean_eq]
      exact Tbl.rising_mapListed hr (fun _ => dirtied)
    rw [hslot k]
    split
    · exact Or.inr ⟨‹_›, rfl⟩
    · exact Or.inl rfl
  · rw [Channel.withMode, if_neg hleft]
    exact ⟨⟨rfl, rfl, rfl⟩, hr, fun _ => Or.inl rfl⟩

theorem takeMode_atWork (hs : s.AtWork h) (c : Nat) (m : ChanMode) : (takeMode c m s).AtWork h := by
  obtain ⟨⟨hstarted, hqueue, houtside⟩, hrising, hslot⟩ := withMode_keeps (hs.slots c) m
  obtain ⟨t, ht⟩ : ∃ t, t = takeMode c m s := ⟨_, rfl⟩
  have hsame : t.channel c = (s.channel c).withMode m := by rw [ht, takeMode, State.setChannel_channel_same]
  have hother : ∀ d, d ≠ c → t.channel d = s.channel d := fun d hd => by
    rw [ht, takeMode, State.setChannel_channel_ne _ _ _ hd]
  have hops : ∀ d, (t.channel d).started = (s.channel d).started ∧ (t.channel d).queue = (s.channel d).queue ∧
      (t.channel d).outside = (s.channel d).outside := fun d => by
    by_cases hd : d = c
    · rw [hd, hsame]
      exact ⟨hstarted, hqueue, houtside⟩
    · rw [hother d hd]
      exact ⟨rfl, rfl, rfl⟩
  have hview : t.view h = { s.view h with slot := fun r => t.slotState r } := by
    have hstanding : ∀ d, t.standing h d = s.standing h d := fun d => by
      obtain ⟨-, hq, ho⟩ := hops d
      simp only [State.standing, hq, ho]
    simp only [State.view, hstanding]
    rw [ht]
    rfl
  rw [← ht]
  exact
  { unloaded := by rw [ht]; exact hs.unloaded
    unformatted := by rw [ht]; exact hs.unformatted
    entries := by rw [ht]; exact hs.entries
    builders := by rw [ht]; exact hs.builders
    slots := fun d => by
      by_cases hd : d = c
      · rw [hd, hsame]
        exact hrising
      · rw [hother d hd]
        exact hs.slots d
    occupied := occupied_congr hs.occupied (fun d => ⟨(hops d).1, (hops d).2.1⟩)
    law := by
      rw [hview]
      refine hs.law.dirty (fun r => ?_)
      by_cases hd : r.channel = c
      · simp only [State.view, State.slotState, hd, hsame]
        exact hslot r.slot
      · left
        simp only [State.view, State.slotState, hother _ hd] }

end
end Sys2Proof.Machine
end

