-- ==== Sys2Proof/Proofs/SlotMapAtRest.lean ====
section
/-!
PROOFS. Proofs/SlotMapAtRest.lean: the law of the Slot Map of a part whose builders and Eraser are at rest: one of which
nothing is left, one that loads, and one that a Format erases (R88, R177, R179, R182).
-/

namespace Sys2Proof.Machine
open Sys2Proof

section
variable {h : Option Nat} {s t : State}

/-! ### At rest -/

/-- At rest, with operations of neither a builder nor the Eraser, nothing is to be linked. -/
theorem linked_of_rests {who : Requester → Bool} (hr : s.restsBut h who)
    (hw : ∀ r, who r = true → (∀ b, r ≠ .builder b) ∧ r ≠ .eraser) : (s.view h).Linked := by
  obtain ⟨hbuilders, hwait, -, hops⟩ := hr
  have hfree : ∀ b, s.builder b = {} := fun b => by rw [State.builder, hbuilders]; rfl
  have hnot : ∀ c, ∀ op ∈ s.standing h c, (∀ b, op.requester ≠ .builder b) ∧ op.requester ≠ .eraser := fun c op hop => by
    rcases hops c op hop with hd | hd
    · rw [hd]
      exact ⟨fun b => by simp, by simp⟩
    · exact hw _ hd
  exact
  { builds := fun b hb => by simp [State.view, hfree] at hb
    own := fun b d hb => by simp [State.view, hfree] at hb
    rests := fun b hb => by simp [State.view, hfree, hwait] at hb
    apart := fun b hb => by simp [State.view, hwait] at hb
    once := by simp [State.view, hwait]
    writes := fun c op b hop hb => absurd hb ((hnot c op hop).1 b)
    erases := fun c op hop hb => absurd hb (hnot c op hop).2
    oneErase := fun c => by
      rw [Multiset.countP_eq_zero.mpr (fun op hop => (hnot c op hop).2)]
      exact Nat.zero_le 1
    oneWrite := fun c b => by
      rw [Multiset.countP_eq_zero.mpr (fun op hop => (hnot c op hop).1 b)]
      exact Nat.zero_le 1 }

/-- With the directory empty no entry has a place. -/
theorem named_of_empty (hd : s.media.dir = []) (hu : ∀ r : SlotRef, r.channel < 8 → s.slotState r ≠ .used)
    (hc : ∀ c k, s.cat.channel = some c → k < 16 → s.slotState { channel := c, slot := k } = .catalog) :
    (s.view h).Named := by
  have hentry : ∀ e, s.entry e = {} := fun e => by rw [State.entry, hd]; rfl
  exact
  { placed := fun e => by simp [State.view, hentry]
    used := fun e r hr => by simp [State.view, hentry] at hr
    alone := fun e f r hr => by simp [State.view, hentry] at hr
    covered := fun r hr hx => absurd hx (hu r hr)
    catalog := hc }

/-! ### Nothing left of the part (R177, R179) -/

/-- Nothing is left of the part but operations with their results discarded. -/
structure State.Blank (h : Option Nat) (s : State) : Prop where
  load : s.cat.load = none
  format : s.cat.format = none
  channel : s.cat.channel = none
  empty : s.media.dir = []
  rests : s.restsBut h (fun _ => false)
  dirty : ∀ c, (s.channel c).slots = [] ∧ (s.channel c).rest = .dirty

/-- A slot of a channel without a Slot Map is DIRTY. -/
theorem slotState_of_dirty {r : SlotRef} (hd : (s.channel r.channel).slots = [] ∧ (s.channel r.channel).rest = .dirty) :
    s.slotState r = .dirty := by
  rw [State.slotState, Channel.slot, hd.1, hd.2]
  rfl

theorem State.Blank.mapLaw (hs : s.Blank h) : s.MapLaw h where
  loads hl := by rw [hs.load] at hl; cases hl
  formats f hf := by rw [hs.format] at hf; cases hf
  linked := linked_of_rests hs.rests (by simp)
  named _ := named_of_empty hs.empty (fun r _ => by rw [slotState_of_dirty (hs.dirty _)]; simp)
    (fun c k hc => by rw [hs.channel] at hc; cases hc)

/-- What the clearing of a channel leaves (R179). -/
theorem blank_spec (ch : Channel) : (ch.blank.slots = [] ∧ ch.blank.rest = .dirty) ∧ ch.blank.outside = [] ∧
    (∀ op ∈ ch.blank.queue, op.requester = .discarded) ∧ (ch.blank.started = none → ch.blank.queue = []) := by
  refine ⟨⟨rfl, rfl⟩, rfl, fun op hop => ?_, fun hn => ?_⟩
  · simp only [Channel.blank, Channel.dropUnstarted, Option.mem_toList, Option.map_eq_some_iff] at hop
    obtain ⟨o, -, rfl⟩ := hop
    rfl
  · have hstarted : ch.started = none := hn
    simp [Channel.blank, Channel.dropUnstarted, Channel.current, hstarted]

theorem blankArchive_channel (a : ArchiveState) (s : State) (c : Nat) :
    (((blankArchive a s).channel c).slots = [] ∧ ((blankArchive a s).channel c).rest = .dirty) ∧
      ((blankArchive a s).channel c).outside = [] ∧
      (∀ op ∈ ((blankArchive a s).channel c).queue, op.requester = .discarded) ∧
      (((blankArchive a s).channel c).started = none → ((blankArchive a s).channel c).queue = []) := by
  refine Tbl.get_of_all (P := fun ch : Channel => (ch.slots = [] ∧ ch.rest = .dirty) ∧ ch.outside = [] ∧
    (∀ op ∈ ch.queue, op.requester = .discarded) ∧ (ch.started = none → ch.queue = [])) ?_ (fun e he => ?_) c
  · simp
  · obtain ⟨e', -, rfl⟩ := List.mem_map.mp (List.mem_filter.mp he).1
    exact blank_spec e'.2

theorem standing_of_quiet {c : Nat} (hq : (s.channel c).queue = []) (ho : (s.channel c).outside = []) :
    s.standing h c = [] := by
  rw [State.standing, hq, ho]
  split <;> rfl

theorem standing_subset {c : Nat} {op : Op} (hop : op ∈ s.standing h c) : op ∈ s.asked c := by
  rw [State.standing] at hop
  split at hop
  · exact ((List.tail_sublist _).append_right _).subset hop
  · exact hop

theorem blankArchive_blank (a : ArchiveState) (s : State) : (blankArchive a s).Blank h where
  load := rfl
  format := rfl
  channel := rfl
  empty := rfl
  rests := ⟨rfl, rfl, rfl, fun c op hop => by
    obtain ⟨-, houtside, hqueue, -⟩ := blankArchive_channel a s c
    have hasked := standing_subset hop
    rw [State.asked, houtside, List.append_nil] at hasked
    exact Or.inl (hqueue op hasked)⟩
  dirty c := (blankArchive_channel a s c).1

theorem poweredUp_blank (present : List Bool) (s : State) : (poweredUp present s).Blank h := by
  have hchannel : ∀ c, ∃ b, (poweredUp present s).channel c = { present := b } := fun c => by
    rw [poweredUp_channel]
    split
    · exact ⟨_, rfl⟩
    · exact ⟨_, rfl⟩
  exact
  { load := rfl
    format := rfl
    channel := rfl
    empty := rfl
    rests := ⟨rfl, rfl, rfl, fun c op hop => by
      obtain ⟨b, hb⟩ := hchannel c
      rw [standing_of_quiet (by rw [hb]) (by rw [hb])] at hop
      cases hop⟩
    dirty := fun c => by
      obtain ⟨b, hb⟩ := hchannel c
      rw [hb]
      exact ⟨rfl, rfl⟩ }

theorem unpowered_blank (s : State) : (unpowered s).Blank h where
  load := rfl
  format := rfl
  channel := rfl
  empty := rfl
  rests := ⟨rfl, rfl, rfl, fun c op hop => by
    rw [standing_of_quiet (s := unpowered s) rfl rfl] at hop
    cases hop⟩
  dirty _ := ⟨rfl, rfl⟩

/-! ### Loads (R177, R178) -/

/-- A load runs. -/
structure State.Loading (h : Option Nat) (s : State) : Prop where
  load : s.cat.load.isSome = true
  archive : s.cat.archive = .loading
  format : s.cat.format = none
  channel : s.cat.channel = none
  empty : s.media.dir = []
  rests : s.restsBut h (fun r => r = .load)
  dirty : ∀ c, (s.channel c).slots = [] ∧ (s.channel c).rest = .dirty

theorem State.MapLaw.loading (hs : s.MapLaw h) (hl : s.cat.load.isSome = true) : s.Loading h := by
  obtain ⟨harchive, hformat, hdir, hrests, hdirty⟩ := hs.loads hl
  refine ⟨hl, harchive, hformat, ?_, hdir, hrests, hdirty⟩
  cases hc : s.cat.channel with
  | none => rfl
  | some c =>
    have hnamed := hs.named (fun f hf => by rw [hformat] at hf; cases hf)
    have hcatalog : s.slotState { channel := c, slot := 0 } = .catalog := hnamed.catalog c 0 hc (by decide)
    rw [slotState_of_dirty (hdirty _)] at hcatalog
    cases hcatalog

namespace State.Loading

theorem mapLaw (hs : s.Loading h) : s.MapLaw h where
  loads _ := ⟨hs.archive, hs.format, hs.empty, hs.rests, hs.dirty⟩
  formats f hf := by rw [hs.format] at hf; cases hf
  linked := linked_of_rests hs.rests (fun r hr => by
    obtain rfl : r = .load := of_decide_eq_true hr
    exact ⟨fun b => by simp, by simp⟩)
  named _ := named_of_empty hs.empty (fun r _ => by rw [slotState_of_dirty (hs.dirty _)]; simp)
    (fun c k hc => by rw [hs.channel] at hc; cases hc)

/-- Without a load, nothing is left of it but its reads. -/
theorem ends (hs : s.Loading h) (hm : t.media = s.media) (hb : t.comp = s.comp) (he : t.ret = s.ret)
    (hl : t.cat.load = none) (hf : t.cat.format = none) (hc : t.cat.channel = none) : t.MapLaw h := by
  obtain ⟨hbuilders, hwait, herasing, hops⟩ := hs.rests
  have hchannel : ∀ c, t.channel c = s.channel c := fun c => by simp only [State.channel, hm]
  have hrests : t.restsBut h (fun r => r = .load) :=
    ⟨hb ▸ hbuilders, hm ▸ hwait, he ▸ herasing, fun c op hop => hops c op (by
      rwa [State.standing, hchannel] at hop)⟩
  exact
  { loads := fun hx => by rw [hl] at hx; cases hx
    formats := fun f hx => by rw [hf] at hx; cases hx
    linked := linked_of_rests hrests (fun r hr => by
      obtain rfl : r = .load := of_decide_eq_true hr
      exact ⟨fun b => by simp, by simp⟩)
    named := fun _ => named_of_empty (hm ▸ hs.empty)
      (fun r _ => by
        rw [slotState_of_dirty (by rw [hchannel]; exact hs.dirty _)]
        simp)
      (fun c k hx => by rw [hc] at hx; cases hx) }

theorem setLoad (hs : s.Loading h) (l : Load) : (s.setLoad (some l)).Loading h := { hs with load := rfl }

/-- The load asks a read. -/
theorem ask (hs : s.Loading h) (ho : s.occupied h) (c k : Nat) : (askCatalogRead c k s).Loading h := by
  obtain ⟨hbuilders, hwait, herasing, hops⟩ := hs.rests
  exact
  { load := by simpa [askCatalogRead] using hs.load
    archive := by simpa [askCatalogRead] using hs.archive
    format := by simpa [askCatalogRead] using hs.format
    channel := by simpa [askCatalogRead] using hs.channel
    empty := by simpa [askCatalogRead] using hs.empty
    rests := by
      refine ⟨by simpa [askCatalogRead] using hbuilders, by simpa [askCatalogRead] using hwait,
        by simpa [askCatalogRead] using herasing, fun d op hop => ?_⟩
      by_cases hd : d = c
      · subst hd
        rw [askCatalogRead, (askOp_standing ho d _).mem_iff, List.mem_cons] at hop
        rcases hop with rfl | hop
        · exact Or.inr rfl
        · exact hops d op hop
      · refine hops d op ?_
        rwa [State.standing, askCatalogRead, (askOp_asked c _ s).2 d hd] at hop
    dirty := fun d => by
      obtain ⟨hslots, hrest⟩ := askOp_slots c d
        { kind := .catalogRead, slot := k, requester := .load, entry := none, data := .unknown } s
      rw [askCatalogRead, hslots, hrest]
      exact hs.dirty d }

/-- The load asks the same slots of a channel, or one slot after another of several. -/
theorem askAll (hs : s.Loading h) (ho : s.occupied h) {β : Type} {f : State → β → State} {l : List β}
    (hf : ∀ t x, t.Loading h ∧ t.occupied h → (f t x).Loading h ∧ (f t x).occupied h) : (l.foldl f s).Loading h :=
  (foldl_inv (fun t : State => t.Loading h ∧ t.occupied h) f hf l s ⟨hs, ho⟩).1

theorem asks (ht : t.Loading h ∧ t.occupied h) (c k : Nat) :
    (askCatalogRead c k t).Loading h ∧ (askCatalogRead c k t).occupied h :=
  ⟨ht.1.ask ht.2 c k, askOp_occupied ht.2 c _⟩

end State.Loading

theorem answer_thins (r : ReqRef) (st : Status) (b : List Byte) (s : State) : s.Thins h (answer r st b s) :=
  .of_media (by simp) (by simp) (by simp) (by simp)

/-- A load ends without an image (R177, R178). -/
theorem endLoadWith_mapLaw (hs : s.Loading h) (a : ArchiveState) : (endLoadWith a s).MapLaw h := by
  have hended : ({ s with cat := { s.cat with archive := a, load := none } } : State).MapLaw h :=
    hs.ends rfl rfl rfl rfl hs.format hs.channel
  simp only [endLoadWith]
  split
  · exact hended
  · exact (answer_thins _ _ _ _).mapLaw hended

theorem State.Blank.loading (hs : s.Blank h) (ha : s.cat.archive = .loading) (l : Load) : (s.setLoad (some l)).Loading h where
  load := rfl
  archive := ha
  format := hs.format
  channel := hs.channel
  empty := hs.empty
  rests := by
    obtain ⟨hbuilders, hwait, herasing, hops⟩ := hs.rests
    exact ⟨hbuilders, hwait, herasing, fun c op hop => Or.inl ((hops c op hop).resolve_right (by simp))⟩
  dirty := hs.dirty

/-- The reads of a load are asked once the channels are quiet (R177). -/
theorem beginReads_mapLaw (hs : s.MapLaw h) (ho : s.occupied h) : (beginReads s).MapLaw h := by
  unfold beginReads
  split
  · exact hs
  · rename_i l hl
    have hloading := (hs.loading (by rw [hl]; rfl)).setLoad { l with asked := true }
    simp only
    repeat' split
    · exact hs
    · exact (hloading.askAll ho (fun t k ht => State.Loading.asks ht _ k)).mapLaw
    · exact endLoadWith_mapLaw hloading _
    · exact (hloading.askAll ho (fun t c ht => State.Loading.asks (State.Loading.asks ht c 0) c 8)).mapLaw

theorem occupied_none (s : State) : s.occupied none := fun c hc => by cases hc

theorem searchLoad_mapLaw (hs : s.Blank none) (ha : s.cat.archive = .loading) : (searchLoad s).MapLaw none :=
  beginReads_mapLaw (hs.loading ha _).mapLaw (occupied_none _)

theorem controllerReset_mapLaw (r : ReqRef) (s : State) : (controllerReset r s).MapLaw none :=
  beginReads_mapLaw ((blankArchive_blank .loading (resetRequests r s)).loading rfl _).mapLaw (occupied_none _)

theorem judgeCandidates_mapLaw (hs : s.Loading h) (ho : s.occupied h) (l : Load) : (judgeCandidates l s).MapLaw h := by
  unfold judgeCandidates
  repeat' split
  · exact endLoadWith_mapLaw hs _
  · exact endLoadWith_mapLaw hs _
  · exact ((hs.setLoad _).askAll ho (fun t k ht => State.Loading.asks ht _ k)).mapLaw
  · exact endLoadWith_mapLaw hs _

end
end Sys2Proof.Machine
end

