-- ==== Sys2Proof/Proofs/SlotMapImages.lean ====
section
/-!
PROOFS. Proofs/SlotMapImages.lean: the Slot Map laid out from an image, of a load and of the clearing of a Format (R88, R90,
R178, R182).
-/

namespace Sys2Proof.Machine
open Sys2Proof

/-! ### Slots written throughout -/

/-- From `s` to `t` no more than the Slot Map and the channels' modes change. -/
structure State.Repaints (s t : State) : Prop where
  dir : t.media.dir = s.media.dir
  wait : t.media.slotWait = s.media.slotWait
  comp : t.comp = s.comp
  ret : t.ret = s.ret
  cat : t.cat = s.cat
  ops : ∀ c, (t.channel c).queue = (s.channel c).queue ∧ (t.channel c).outside = (s.channel c).outside ∧
    (t.channel c).started = (s.channel c).started
  rises : ∀ c, Tbl.rising (s.channel c).slots = true → Tbl.rising (t.channel c).slots = true

theorem State.Repaints.same (s : State) : s.Repaints s := ⟨rfl, rfl, rfl, rfl, rfl, fun _ => ⟨rfl, rfl, rfl⟩, fun _ => id⟩

theorem State.Repaints.trans {s t u : State} (h₁ : s.Repaints t) (h₂ : t.Repaints u) : s.Repaints u where
  dir := h₂.dir.trans h₁.dir
  wait := h₂.wait.trans h₁.wait
  comp := h₂.comp.trans h₁.comp
  ret := h₂.ret.trans h₁.ret
  cat := h₂.cat.trans h₁.cat
  ops c := by
    obtain ⟨hqueue, houtside, hstarted⟩ := h₁.ops c
    obtain ⟨hqueue', houtside', hstarted'⟩ := h₂.ops c
    exact ⟨hqueue'.trans hqueue, houtside'.trans houtside, hstarted'.trans hstarted⟩
  rises c hr := h₂.rises c (h₁.rises c hr)

/-- A channel is written, its queue as it was. -/
theorem setChannel_repaints {s : State} {c : Nat} {ch : Channel} (hq : ch.queue = (s.channel c).queue)
    (ho : ch.outside = (s.channel c).outside) (hs : ch.started = (s.channel c).started)
    (hr : Tbl.rising (s.channel c).slots = true → Tbl.rising ch.slots = true) : s.Repaints (s.setChannel c ch) where
  dir := rfl
  wait := rfl
  comp := rfl
  ret := rfl
  cat := rfl
  ops d := by
    rw [State.setChannel_channel]
    split
    · rename_i hd
      rw [hd]
      exact ⟨hq, ho, hs⟩
    · exact ⟨rfl, rfl, rfl⟩
  rises d hd := by
    rw [State.setChannel_channel]
    split
    · rename_i hdc
      exact hr (hdc ▸ hd)
    · exact hd

theorem setSlotState_repaints (s : State) (r : SlotRef) (x : SlotState) : s.Repaints (s.setSlotState r x) :=
  setChannel_repaints rfl rfl rfl (fun hr => Tbl.rising_set hr _ _ _)

/-- What each step of a loop repaints, the loop does. -/
theorem foldl_repaints {β : Type} {f : State → β → State} (hf : ∀ (t : State) x, t.Repaints (f t x)) (l : List β) (s : State) :
    s.Repaints (l.foldl f s) :=
  foldl_inv (fun t : State => s.Repaints t) f (fun t x ht => ht.trans (hf t x)) l s (.same s)

theorem catalogSlots_repaints (c : Nat) (s : State) : s.Repaints (catalogSlots c s) :=
  foldl_repaints (fun t _ => setSlotState_repaints t _ _) _ s

theorem loadSlots_repaints (i : Image) (s : State) : s.Repaints (loadSlots i s) :=
  (foldl_repaints (fun t r => setSlotState_repaints t r .defective) i.defective s).trans
    (foldl_repaints (fun t e => by
      split
      · exact .same t
      · exact setSlotState_repaints t _ _) i.dir _)

theorem loadModes_repaints (i : Image) (s : State) : s.Repaints (loadModes i s) :=
  foldl_repaints (fun t c => setChannel_repaints (ch := { t.channel c with setMode := Tbl.get .online i.modes c })
    rfl rfl rfl id) _ s

/-! ### What the slots are then -/

theorem foldl_setSlotState (l : List SlotRef) (x : SlotState) (s : State) (r : SlotRef) :
    (l.foldl (fun t r => t.setSlotState r x) s).slotState r = if r ∈ l then x else s.slotState r := by
  induction l generalizing s with
  | nil => simp
  | cons a l ih =>
    rw [List.foldl_cons, ih, setSlotState_slotState]
    by_cases hr : r = a
    · simp [hr]
    · simp [hr]

theorem catalogSlots_slotState (c : Nat) (s : State) (r : SlotRef) :
    (catalogSlots c s).slotState r = if c = r.channel ∧ r.slot < 16 then .catalog else s.slotState r := by
  have hloop := foldl_setSlotState ((List.range Config.catalogSlots).map (fun k => ({ channel := c, slot := k } : SlotRef)))
    .catalog s r
  rw [List.foldl_map] at hloop
  rw [catalogSlots, hloop]
  have hmem : r ∈ (List.range Config.catalogSlots).map (fun k => ({ channel := c, slot := k } : SlotRef)) ↔
      c = r.channel ∧ r.slot < 16 := by
    rw [List.mem_map]
    constructor
    · rintro ⟨k, hk, rfl⟩
      exact ⟨rfl, List.mem_range.mp hk⟩
    · rintro ⟨hc, hk⟩
      exact ⟨r.slot, List.mem_range.mpr hk, by rw [hc]⟩
  simp only [hmem]

/-- The slot that an entry names is USED. -/
def placeUsed (s : State) (e : Nat × DirEntry) : State :=
  match e.2.slot with
  | none => s
  | some r => s.setSlotState r .used

theorem loadSlots_eq (i : Image) (s : State) :
    loadSlots i s = i.dir.foldl placeUsed (i.defective.foldl (fun t r => t.setSlotState r .defective) s) := rfl

theorem foldl_placeUsed (l : Tbl DirEntry) (s : State) :
    l.foldl placeUsed s = (namedSlots l).foldl (fun t r => t.setSlotState r .used) s := by
  induction l generalizing s with
  | nil => rfl
  | cons e l ih =>
    rw [List.foldl_cons, ih]
    cases he : e.2.slot <;> simp [namedSlots, placeUsed, he]

theorem loadSlots_slotState (i : Image) (s : State) (r : SlotRef) : (loadSlots i s).slotState r =
    if r ∈ namedSlots i.dir then .used else if r ∈ i.defective then .defective else s.slotState r := by
  rw [loadSlots_eq, foldl_placeUsed, foldl_setSlotState, foldl_setSlotState]

theorem loadModes_slotState (i : Image) (s : State) (r : SlotRef) : (loadModes i s).slotState r = s.slotState r :=
  foldl_keeps (fun t : State => t.slotState r) _ (fun t c => by
    simp only [State.slotState, State.setChannel_channel]
    split
    · rename_i hc
      rw [hc]
      rfl
    · rfl) _ _

/-! ### The part restored from an image -/

/-- The state that the Slot Map of an image gives a slot, with its catalog channel. -/
def slotLaid (i : Image) (c : Option Nat) (r : SlotRef) : SlotState :=
  if c = some r.channel ∧ r.slot < 16 then .catalog
  else if r ∈ namedSlots i.dir then .used
  else if r ∈ i.defective then .defective
  else .dirty

/-- The catalog slots of a channel, where there is one. -/
def laidCatalog (c : Option Nat) (s : State) : State :=
  match c with
  | none => s
  | some c => catalogSlots c s

theorem laidCatalog_repaints (c : Option Nat) (s : State) : s.Repaints (laidCatalog c s) := by
  cases c with
  | none => exact .same s
  | some c => exact catalogSlots_repaints c s

theorem laidCatalog_slotState (c : Option Nat) (s : State) (r : SlotRef) :
    (laidCatalog c s).slotState r = if c = some r.channel ∧ r.slot < 16 then .catalog else s.slotState r := by
  cases c with
  | none => simp [laidCatalog]
  | some c => simp [laidCatalog, catalogSlots_slotState]

/-- Every slot DIRTY, the Slot Map of an image is laid out as it says. -/
theorem restored_slotState {i : Image} {c : Option Nat} {s t : State} (hs : ∀ r, s.slotState r = .dirty)
    (ht : t.media = (restore i s).media) (r : SlotRef) : (laidCatalog c t).slotState r = slotLaid i c r := by
  have hrestored : (restore i s).slotState r =
      if r ∈ namedSlots i.dir then .used else if r ∈ i.defective then .defective else .dirty := by
    rw [restore, loadSlots_slotState, loadModes_slotState]
    exact congrArg (fun x => if r ∈ namedSlots i.dir then SlotState.used else if r ∈ i.defective then .defective else x) (hs r)
  have hsame : t.slotState r = (restore i s).slotState r := by simp only [State.slotState, State.channel, ht]
  rw [laidCatalog_slotState, hsame, hrestored]
  rfl

/-! ### The entries of an image (R62, R82) -/

/-- An image's entries are at rest, each but a FREE one with a slot of its own, and none with a catalog slot of channel `c`. -/
structure EntriesLaid (i : Image) (c : Option Nat) : Prop where
  rising : Tbl.rising i.dir = true
  rests : ∀ e, (Tbl.get {} i.dir e).state = .free ∨ (Tbl.get {} i.dir e).state = .stored ∨
    (Tbl.get {} i.dir e).state = .expired
  placed : ∀ e, (Tbl.get {} i.dir e).slot = none ↔ (Tbl.get {} i.dir e).state = .free
  bounded : ∀ e r, (Tbl.get {} i.dir e).slot = some r → r.channel < 8 ∧ r.slot < 8192 ∧ ¬ (c = some r.channel ∧ r.slot < 16)
  alone : ∀ e f r, (Tbl.get {} i.dir e).slot = some r → (Tbl.get {} i.dir f).slot = some r → f = e

/-- A slot is named where an entry has it. -/
theorem mem_namedSlots {t : Tbl DirEntry} (h : Tbl.rising t = true) (r : SlotRef) :
    r ∈ namedSlots t ↔ ∃ e, (Tbl.get {} t e).slot = some r := by
  rw [namedSlots, List.mem_filterMap]
  constructor
  · rintro ⟨⟨e, v⟩, hmem, hr⟩
    exact ⟨e, by rw [Tbl.get, Tbl.find_of_mem h hmem]; exact hr⟩
  · rintro ⟨e, hr⟩
    rw [Tbl.get] at hr
    cases hfind : Tbl.find t e with
    | none => rw [hfind] at hr; cases hr
    | some v => exact ⟨(e, v), Tbl.mem_of_find hfind, by rw [hfind] at hr; exact hr⟩

/-- The entries of an image that the part could have laid out are laid so. -/
theorem entriesLaid_of_wf {i : Image} (h : i.wf = true) : EntriesLaid i (some i.channel) := by
  simp only [Image.wf, Image.slotsOk, entryAtRest, Bool.and_eq_true, List.all_eq_true, Bool.or_eq_true,
    decide_eq_true_eq] at h
  obtain ⟨⟨⟨⟨⟨⟨⟨⟨⟨⟨-, hdir⟩, -⟩, -⟩, -⟩, -⟩, hrests⟩, hslots, hnodup⟩, -⟩, -⟩, -⟩ := h
  have hrising : Tbl.rising i.dir = true := ((Tbl.canon_iff _ _).mp hdir).1
  have hplace : ∀ e, ((Tbl.get {} i.dir e).slot = none → (Tbl.get {} i.dir e).state = .free) ∧
      ∀ r, (Tbl.get {} i.dir e).slot = some r → (Tbl.get {} i.dir e).state ≠ .free ∧ r.channel < 8 ∧ r.slot < 8192 ∧
        ¬ (r.channel = i.channel ∧ r.slot < 16) := fun e => by
    refine Tbl.get_of_all (P := fun v : DirEntry => (v.slot = none → v.state = .free) ∧ ∀ r, v.slot = some r →
      v.state ≠ .free ∧ r.channel < 8 ∧ r.slot < 8192 ∧ ¬ (r.channel = i.channel ∧ r.slot < 16)) ⟨fun _ => rfl, by simp⟩
      (fun x hx => ?_) e
    have hx := hslots x hx
    constructor
    · intro hnone
      rw [hnone] at hx
      exact of_decide_eq_true hx
    · intro r hr
      rw [hr] at hx
      simp only [Bool.and_eq_true, decide_eq_true_eq, Bool.not_eq_true', Bool.and_eq_false_iff, decide_eq_false_iff_not]
        at hx
      obtain ⟨⟨⟨hfree, hchannel⟩, hslot⟩, hcatalog⟩ := hx
      exact ⟨hfree, hchannel, hslot, fun hc => hcatalog.elim (fun hn => hn hc.1) (fun hn => hn hc.2)⟩
  refine ⟨hrising, fun e => ?_, fun e => ⟨(hplace e).1, fun hfree => ?_⟩, fun e r hr => ?_, fun e f r he hf => ?_⟩
  · exact Tbl.get_of_all (P := fun v : DirEntry => v.state = .free ∨ v.state = .stored ∨ v.state = .expired) (Or.inl rfl)
      (fun x hx => (or_assoc.mp (hrests x hx))) e
  · cases hs : (Tbl.get {} i.dir e).slot with
    | none => rfl
    | some r => exact absurd hfree ((hplace e).2 r hs).1
  · obtain ⟨-, hchannel, hslot, hcatalog⟩ := (hplace e).2 r hr
    exact ⟨hchannel, hslot, fun hc => hcatalog ⟨(Option.some.inj hc.1).symm, hc.2⟩⟩
  · have hmem : ∀ n, (Tbl.get {} i.dir n).slot = some r → (n, Tbl.get {} i.dir n) ∈ i.dir := fun n hn => by
      rw [Tbl.get] at hn ⊢
      cases hfind : Tbl.find i.dir n with
      | none => rw [hfind] at hn; cases hn
      | some v => exact Tbl.mem_of_find hfind
    have hapart : i.dir.Pairwise (fun a b => ∀ x, a.2.slot = some x → ∀ y, b.2.slot = some y → x ≠ y) := by
      have hpair : (namedSlots i.dir).Pairwise (· ≠ ·) := hnodup
      rwa [namedSlots, List.pairwise_filterMap] at hpair
    by_contra hne
    have hsymm : Std.Symm (fun a b : Nat × DirEntry => ∀ x, a.2.slot = some x → ∀ y, b.2.slot = some y → x ≠ y) :=
      ⟨fun a b hab x hx y hy => (hab y hy x hx).symm⟩
    exact hapart.forall (hmem e he) (hmem f hf) (fun hx => hne (Prod.ext_iff.mp hx).1.symm) r he r hf rfl

/-- The entries that a load or a clearing keeps, as the part lists them. -/
theorem restored_entry {i : Image} {t : State} (h : Tbl.rising i.dir = true)
    (hd : t.media.dir = Tbl.mapListed {} (fun _ e => { e with readers := 0 }) i.dir) (e : Nat) :
    (t.entry e).state = (Tbl.get {} i.dir e).state ∧ (t.entry e).slot = (Tbl.get {} i.dir e).slot := by
  have hget := Tbl.get_mapListed (d := ({} : DirEntry)) (fun _ v => { v with readers := 0 }) h e
  rw [State.entry, hd, hget, Tbl.get]
  cases Tbl.find i.dir e <;> exact ⟨rfl, rfl⟩

/-- What the law says of the slots named, once an image's entries and Slot Map have been laid out (R82, R88, R90). -/
theorem named_of_image {h : Option Nat} {i : Image} {c : Option Nat} {t : State} (hi : EntriesLaid i c)
    (hd : t.media.dir = Tbl.mapListed {} (fun _ e => { e with readers := 0 }) i.dir) (hc : t.cat.channel = c)
    (hs : ∀ r, t.slotState r = slotLaid i c r) : (t.view h).Named := by
  have hentry := restored_entry hi.rising hd
  exact
  { placed := fun e => by
      obtain ⟨hstate, hslot⟩ := hentry e
      simp only [State.view, hstate, hslot]
      have hplaced := hi.placed e
      rw [← not_iff_not, Option.not_isSome_iff_eq_none, hplaced]
      rcases hi.rests e with hr | hr | hr <;> simp [hr]
    used := fun e r hr => by
      simp only [State.view, (hentry e).2] at hr
      obtain ⟨hchannel, hslot, hcatalog⟩ := hi.bounded e r hr
      refine ⟨hchannel, hslot, ?_⟩
      simp only [State.view, hs, slotLaid, if_neg hcatalog, if_pos ((mem_namedSlots hi.rising r).mpr ⟨e, hr⟩)]
    alone := fun e f r he hf => by
      simp only [State.view, (hentry e).2, (hentry f).2] at he hf
      exact hi.alone e f r he hf
    covered := fun r _ hr => by
      simp only [State.view, hs, slotLaid] at hr
      split at hr
      · cases hr
      · split at hr
        · rename_i hmem
          obtain ⟨e, he⟩ := (mem_namedSlots hi.rising r).mp hmem
          exact ⟨e, by simp only [State.view, (hentry e).2, he]⟩
        · split at hr <;> cases hr
    catalog := fun d k hd hk => by
      have hdc : c = some d := hc.symm.trans hd
      simp [State.view, hs, slotLaid, hdc, hk] }

end Sys2Proof.Machine
end

