-- ==== Sys2Proof/Proofs/SlotMapLoads.lean ====
section
/-!
PROOFS. Proofs/SlotMapLoads.lean: a load that takes an image keeps the law of the Slot Map (R88, R178).
-/

namespace Sys2Proof.Machine
open Sys2Proof

/-! ### What is taken of an image -/

/-- The part with an image taken, its Slot Map yet to be laid out. -/
def imageTaken (i : Image) (s : State) : State :=
  { s with
    intake := { sources := i.sources, tally := i.tally.map (fun e => (e.1, { e.2 with inFlight := 0 })) }
    comp := { codes := i.codes }
    media := { s.media with dir := Tbl.mapListed {} (fun _ e => { e with readers := 0 }) i.dir
                            pointer := 7, slotWait := [] }
    ret := { today := i.today, lastSwept := i.lastSwept, classes := i.classes, holds := i.holds }
    audit := { findings := i.findings, next := i.nextFinding }
    cursors := []
    cat := { s.cat with profile := i.profile, params := i.params } }

theorem restore_eq (i : Image) (s : State) : restore i s =
    loadSlots i (loadModes i (keepAgeing (imageTaken i s).ageLine (imageTaken i s))) := rfl

/-- The part restored from an image, and the catalog slots laid out: what it has of the image, and what stays of the part. -/
theorem restored_spec (i : Image) (c : Option Nat) (s : State) :
    (laidCatalog c (restore i s)).media.dir = Tbl.mapListed {} (fun _ e => { e with readers := 0 }) i.dir ∧
      (laidCatalog c (restore i s)).media.slotWait = [] ∧ (laidCatalog c (restore i s)).comp.builders = [] ∧
      (laidCatalog c (restore i s)).ret.erasing = [] ∧
      (laidCatalog c (restore i s)).cat = { s.cat with profile := i.profile, params := i.params } ∧
      (∀ d, ((laidCatalog c (restore i s)).channel d).queue = (s.channel d).queue ∧
        ((laidCatalog c (restore i s)).channel d).outside = (s.channel d).outside ∧
        ((laidCatalog c (restore i s)).channel d).started = (s.channel d).started) ∧
      ∀ d, Tbl.rising (s.channel d).slots = true → Tbl.rising ((laidCatalog c (restore i s)).channel d).slots = true := by
  have hpaint : (keepAgeing (imageTaken i s).ageLine (imageTaken i s)).Repaints (laidCatalog c (restore i s)) := by
    refine State.Repaints.trans ?_ (laidCatalog_repaints c (restore i s))
    rw [restore_eq]
    exact (loadModes_repaints i _).trans (loadSlots_repaints i _)
  exact ⟨hpaint.dir, hpaint.wait, by rw [hpaint.comp]; rfl, by rw [hpaint.ret]; rfl, hpaint.cat, hpaint.ops, hpaint.rises⟩

section
variable {h : Option Nat} {s t : State}

/-- A part that has taken an image, its load over, is at work by the law (R178). -/
theorem atWork_of_image (hs : s.Loading h) (ho : s.occupied h) {i : Image} (hi : i.wf = true)
    (hm : t.media = (laidCatalog (some i.channel) (restore i s)).media) (hb : t.comp.builders = [])
    (he : t.ret.erasing = []) (hc : t.cat.channel = some i.channel) (hl : t.cat.load = none) (hf : t.cat.format = none) :
    t.AtWork h := by
  have hlaid := entriesLaid_of_wf hi
  obtain ⟨hdir, hwait, -, -, -, hops, hrises⟩ := restored_spec i (some i.channel) s
  have hchannel : ∀ d, t.channel d = (laidCatalog (some i.channel) (restore i s)).channel d := fun d => by
    simp only [State.channel, hm]
  have hslot : ∀ r, t.slotState r = slotLaid i (some i.channel) r := fun r => by
    rw [State.slotState, hchannel]
    exact restored_slotState (fun r => slotState_of_dirty (hs.dirty _)) rfl r
  obtain ⟨-, -, -, hasks⟩ := hs.rests
  have hrests : t.restsBut h (fun r => r = .load) := by
    refine ⟨hb, hm ▸ hwait, he, fun d op hop => hasks d op ?_⟩
    obtain ⟨hqueue, houtside, -⟩ := hops d
    rwa [State.standing, hchannel, hqueue, houtside] at hop
  exact
  { unloaded := hl
    unformatted := hf
    entries := by
      rw [hm, hdir]
      exact Tbl.rising_mapListed hlaid.rising _
    builders := by rw [hb]; rfl
    slots := fun d => by
      rw [hchannel]
      exact hrises d (by rw [(hs.dirty d).1]; rfl)
    occupied := occupied_congr ho (fun d => by
      obtain ⟨hqueue, -, hstarted⟩ := hops d
      rw [hchannel]
      exact ⟨hstarted, hqueue⟩)
    law :=
    { toLinked := linked_of_rests hrests (fun r hr => by
        obtain rfl : r = .load := of_decide_eq_true hr
        exact ⟨fun b => by simp, by simp⟩)
      toNamed := named_of_image hlaid (by rw [hm, hdir]) hc hslot } }

theorem endLoadWith_load (a : ArchiveState) (s : State) : (endLoadWith a s).cat.load = none := by
  simp only [endLoadWith]
  split <;> simp

/-- A load that takes an image (R178). -/
theorem loadImage_mapLaw (hs : s.Loading h) (ho : s.occupied h) {i : Image} (hi : i.wf = true) (area : Nat) :
    (loadImage i area s).MapLaw h := by
  obtain ⟨-, -, hbuilders, herasing, hkept, -⟩ := restored_spec i (some i.channel) s
  have htaken : takeImage i area s = { laidCatalog (some i.channel) (restore i s) with
      cat := { (laidCatalog (some i.channel) (restore i s)).cat with
        channel := some i.channel, last := i.number, newer := some area } } := rfl
  refine State.AtWork.mapLaw (lookForWork_atWork (atWork_of_image hs ho hi ?_ ?_ ?_ ?_ (endLoadWith_load _ _) ?_))
  · simp [htaken]
  · simp [htaken, hbuilders]
  · simp [htaken, herasing]
  · simp [htaken]
  · simp [htaken, hkept, hs.format]

/-! ### The reads of a load (R177, R178) -/

theorem judgeAreas_mapLaw (hs : s.Loading h) (ho : s.occupied h) (c : Nat) (l : Load) : (judgeAreas c l s).MapLaw h := by
  unfold judgeAreas
  split
  · exact endLoadWith_mapLaw hs _
  · rename_i i area hchosen
    exact loadImage_mapLaw hs ho ((chooseImage_mem hchosen).elim validImage_wf validImage_wf) area

theorem noteRead_mapLaw (hs : s.MapLaw h) (ho : s.occupied h) (n : Noted) : (noteRead n s).MapLaw h := by
  unfold noteRead
  split
  · exact hs
  · rename_i l hl
    have hloading := (hs.loading (by rw [hl]; rfl)).setLoad { l with noted := l.noted ++ [n] }
    simp only
    repeat' split
    · exact judgeAreas_mapLaw hloading ho _ _
    · exact hloading.mapLaw
    · exact judgeCandidates_mapLaw hloading ho _
    · exact hloading.mapLaw

end
end Sys2Proof.Machine
end

