-- ==== Sys2Proof/Proofs/SlotMapFormats.lean ====
section
/-!
PROOFS. Proofs/SlotMapFormats.lean: a Format keeps the law of the Slot Map: its clearing, its erases and its first image
(R88, R182).
-/

namespace Sys2Proof.Machine
open Sys2Proof

section
variable {h : Option Nat} {s t : State}

/-! ### The clearing (R182 phase 1) -/

/-- The entries that a clearing keeps (R182). -/
theorem keptImage_entry (hr : Tbl.rising s.media.dir = true) (e : Nat) :
    Tbl.get {} s.keptImage.dir e = entryKept (s.entry e) := by
  have hget : Tbl.get {} s.keptImage.dir e = (Tbl.find s.media.dir e).elim {} entryKept :=
    Tbl.get_mapListed (fun _ e => entryKept e) hr e
  rw [hget, State.entry, Tbl.get]
  cases Tbl.find s.media.dir e <;> rfl

theorem entryKept_state (v : DirEntry) : (entryKept v).state =
    match v.state with
    | .stored => .stored
    | .expired => .expired
    | .erasing => .expired
    | _ => .free := by
  unfold entryKept imageEntry
  cases v.state <;> simp

theorem entryKept_slot (v : DirEntry) :
    (entryKept v).slot = if v.state = .filling ∨ v.state = .writing then none else v.slot := by
  unfold entryKept imageEntry
  cases v.state <;> simp

/-- The slots that the entries kept name are apart, and none is a catalog slot (R82, R90). -/
theorem keptImage_laid (hr : Tbl.rising s.media.dir = true) (hn : (s.view h).Named) :
    EntriesLaid s.keptImage s.cat.channel := by
  have hentry := keptImage_entry hr
  have hslot : ∀ e r, (entryKept (s.entry e)).slot = some r → (s.entry e).slot = some r := fun e r he => by
    rw [entryKept_slot] at he
    split at he
    · cases he
    · exact he
  exact
  { rising := Tbl.rising_mapListed hr (fun _ e => entryKept e)
    rests := fun e => by
      rw [hentry, entryKept_state]
      cases (s.entry e).state <;> simp
    placed := fun e => by
      have hplaced := hn.placed e
      simp only [State.view] at hplaced
      rw [hentry, entryKept_state, entryKept_slot]
      rw [← not_iff_not, ← Ne, Option.ne_none_iff_isSome]
      cases hv : (s.entry e).state <;> simp [hv] at hplaced ⊢ <;> simp [hplaced]
    bounded := fun e r he => by
      rw [hentry] at he
      obtain ⟨hchannel, hbound, hused⟩ := hn.used e r (hslot e r he)
      refine ⟨hchannel, hbound, fun hc => ?_⟩
      have hcatalog := hn.catalog r.channel r.slot hc.1 hc.2
      simp only [State.view] at hcatalog hused
      rw [hused] at hcatalog
      cases hcatalog
    alone := fun e f r he hf => by
      rw [hentry] at he hf
      exact hn.alone e f r (hslot e r he) (hslot f r hf) }

/-- What a clearing leaves (R182). -/
theorem discardTransient_eq (a : ArchiveState) (s : State) : discardTransient a s =
    { laidCatalog s.cat.channel { restore s.keptImage (blankArchive a s) with
        comp := { (restore s.keptImage (blankArchive a s)).comp with codes := loadCodes s.keptImage } } with
      cat := { (laidCatalog s.cat.channel { restore s.keptImage (blankArchive a s) with
        comp := { (restore s.keptImage (blankArchive a s)).comp with codes := loadCodes s.keptImage } }).cat with
          channel := s.cat.channel, last := s.cat.last, newer := s.cat.newer } } := rfl

/-- A Format that has been begun clears (R182). -/
theorem clearing_mapLaw (hr : Tbl.rising s.media.dir = true) (hn : (s.view none).Named) {f : FormatOp}
    (hf : f.phase = .clearing) : ((discardTransient .formatting s).setFormat (some f)).MapLaw none := by
  obtain ⟨t, ht⟩ : ∃ t, t = (discardTransient .formatting s).setFormat (some f) := ⟨_, rfl⟩
  obtain ⟨u, hu⟩ : ∃ u : State, u = { restore s.keptImage (blankArchive .formatting s) with
      comp := { (restore s.keptImage (blankArchive .formatting s)).comp with codes := loadCodes s.keptImage } } := ⟨_, rfl⟩
  have hblank := blankArchive_blank (h := none) .formatting s
  have hpaint := laidCatalog_repaints s.cat.channel u
  obtain ⟨hdir, hwait, hbuilders, herasing, hcat, hops, -⟩ := restored_spec s.keptImage none (blankArchive .formatting s)
  have hmedia : t.media = (laidCatalog s.cat.channel u).media := by rw [ht, discardTransient_eq, ← hu]; rfl
  have hchannel : ∀ c, (t.channel c).queue = ((blankArchive .formatting s).channel c).queue ∧
      (t.channel c).outside = ((blankArchive .formatting s).channel c).outside ∧
      (t.channel c).started = ((blankArchive .formatting s).channel c).started := fun c => by
    obtain ⟨hqueue, houtside, hstarted⟩ := hpaint.ops c
    obtain ⟨hqueue', houtside', hstarted'⟩ := hops c
    simp only [State.channel, hmedia]
    subst hu
    exact ⟨hqueue.trans hqueue', houtside.trans houtside', hstarted.trans hstarted'⟩
  have hrests : t.restsBut none (fun _ => false) := by
    refine ⟨?_, ?_, ?_, fun c op hop => ?_⟩
    · rw [ht, discardTransient_eq, ← hu]
      exact (congrArg CompactionUnit.builders hpaint.comp).trans (hu ▸ hbuilders)
    · rw [hmedia, hpaint.wait, hu]
      exact hwait
    · rw [ht, discardTransient_eq, ← hu]
      exact (congrArg RetentionUnit.erasing hpaint.ret).trans (hu ▸ herasing)
    · obtain ⟨-, -, -, hdiscarded⟩ := hblank.rests
      obtain ⟨hqueue, houtside, -⟩ := hchannel c
      refine hdiscarded c op ?_
      rwa [standing_none, State.asked, hqueue, houtside] at hop
  have hload : t.cat.load = none := by
    rw [ht, discardTransient_eq, ← hu]
    refine (congrArg CatalogUnit.load hpaint.cat).trans ?_
    rw [hu]
    exact congrArg CatalogUnit.load hcat
  have harchive : t.cat.archive = .formatting := by
    rw [ht, discardTransient_eq, ← hu]
    refine (congrArg CatalogUnit.archive hpaint.cat).trans ?_
    rw [hu]
    exact congrArg CatalogUnit.archive hcat
  have hformat : t.cat.format = some f := by rw [ht]; rfl
  have hchannelOf : t.cat.channel = s.cat.channel := by rw [ht, discardTransient_eq]; rfl
  rw [← ht]
  refine ⟨fun hl => (by rw [hload] at hl; cases hl), fun g hg => ?_, linked_of_rests hrests (by simp), fun _ => ?_⟩
  · obtain rfl : f = g := Option.some.inj (hformat.symm.trans hg)
    obtain ⟨hnobuilders, hnowait, hnoerasing, hdiscarded⟩ := hrests
    have hdiscarded : ∀ c, ∀ op ∈ t.standing none c, op.requester = .discarded := fun c op hop =>
      (hdiscarded c op hop).resolve_right (by simp)
    refine ⟨harchive, ⟨hnobuilders, hnowait, hnoerasing, fun c op hop => Or.inl (hdiscarded c op hop)⟩,
      fun _ => ⟨fun c _ hstarted => ?_, fun c op hop hx => ?_⟩, fun hx => (by rw [hf] at hx; cases hx)⟩
    · obtain ⟨hqueue, houtside, hstart⟩ := hchannel c
      obtain ⟨-, hnone, -, hempty⟩ := blankArchive_channel .formatting s c
      exact standing_of_quiet (hqueue.trans (hempty (hstart ▸ hstarted))) (houtside.trans hnone)
    · rw [hdiscarded c op hop] at hx
      cases hx
  · refine named_of_image (keptImage_laid hr hn) ?_ hchannelOf (fun r => ?_)
    · rw [hmedia, hpaint.dir, hu]
      exact hdir
    · rw [State.slotState, State.channel, hmedia]
      exact restored_slotState (t := u) (fun r => slotState_of_dirty (hblank.dirty _)) (by rw [hu]) r

end
end Sys2Proof.Machine
end

