-- ==== Sys2Proof/Proofs/SlotMapStages.lean ====
section
/-!
PROOFS. Proofs/SlotMapStages.lean: the erasing stages of a Format and its first image keep the law of the Slot Map (R88,
R182).
-/

namespace Sys2Proof.Machine
open Sys2Proof

section
variable {h : Option Nat} {s t : State} {f : FormatOp}

/-! ### The erasing stages -/

/-- A Format erases (R182). -/
structure State.Erasing (h : Option Nat) (f : FormatOp) (s : State) : Prop where
  format : s.cat.format = some f
  erasing : f.erasing = true
  load : s.cat.load = none
  archive : s.cat.archive = .formatting
  rests : s.restsBut h (fun r => r = .format)
  quiet : ∀ c, c < 8 → (s.channel c).started = none → s.standing h c = []
  below : ∀ c, ∀ op ∈ s.standing h c, op.requester = .format → c < 8

theorem erasing_iff : f.erasing = true ↔ f.phase ≠ .clearing ∧ f.phase ≠ .image := by simp [FormatOp.erasing]

theorem asks_of_erasing (he : f.erasing = true) : f.asks = fun r => decide (r = .format) := by
  funext r
  simp [FormatOp.asks, he, (erasing_iff.mp he).2]

theorem State.MapLaw.erasing (hs : s.MapLaw h) (hf : s.cat.format = some f) (he : f.erasing = true) : s.Erasing h f := by
  obtain ⟨harchive, hrests, hphase, -⟩ := hs.formats f hf
  obtain ⟨hquiet, hbelow⟩ := hphase (erasing_iff.mp he).2
  refine ⟨hf, he, ?_, harchive, asks_of_erasing he ▸ hrests, hquiet, hbelow⟩
  cases hl : s.cat.load with
  | none => rfl
  | some l =>
    obtain ⟨-, hformat, -⟩ := hs.loads (by rw [hl]; rfl)
    rw [hf] at hformat
    cases hformat

namespace State.Erasing

theorem mapLaw (hs : s.Erasing h f) : s.MapLaw h where
  loads hl := by rw [hs.load] at hl; cases hl
  formats g hg := by
    obtain rfl : f = g := Option.some.inj (hs.format.symm.trans hg)
    refine ⟨hs.archive, ?_, fun _ => ⟨hs.quiet, hs.below⟩, fun hi => absurd hi (erasing_iff.mp hs.erasing).2⟩
    rw [asks_of_erasing hs.erasing]
    exact hs.rests
  linked := linked_of_rests hs.rests (fun r hr => by
    obtain rfl : r = .format := of_decide_eq_true hr
    exact ⟨fun b => by simp, by simp⟩)
  named hn := by
    have hnot := hn f hs.format
    rw [hs.erasing] at hnot
    cases hnot

/-- The Slot Map is not spoken of. -/
theorem repaint (hs : s.Erasing h f) (ht : s.Repaints t) : t.Erasing h f := by
  obtain ⟨hbuilders, hwait, herasing, hops⟩ := hs.rests
  have hstanding : ∀ c, t.standing h c = s.standing h c := fun c => by
    obtain ⟨hqueue, houtside, -⟩ := ht.ops c
    simp only [State.standing, hqueue, houtside]
  exact
  { format := ht.cat ▸ hs.format
    erasing := hs.erasing
    load := ht.cat ▸ hs.load
    archive := ht.cat ▸ hs.archive
    rests := ⟨ht.comp ▸ hbuilders, ht.wait.trans hwait, ht.ret ▸ herasing, fun c op hop => hops c op (hstanding c ▸ hop)⟩
    quiet := fun c hc hn => by
      obtain ⟨-, -, hstarted⟩ := ht.ops c
      rw [hstanding]
      exact hs.quiet c hc (hstarted ▸ hn)
    below := fun c op hop => hs.below c op (hstanding c ▸ hop) }

end State.Erasing

/-- A channel asked has an operation queued. -/
theorem Channel.ask_queue_ne_nil (ch : Channel) (op : Op) : (ch.ask op).queue ≠ [] := by
  unfold Channel.ask
  split
  · unfold Channel.join
    split <;> simp
  · rename_i hfull
    intro hnil
    have hempty : ch.queue = [] := hnil
    simp [hempty, Config.queueOps] at hfull

theorem startNext_started {c : Nat} (ha : s.notHalted = true) (hq : (s.channel c).queue ≠ []) :
    ((startNext c s).channel c).started.isSome = true := by
  simp only [startNext]
  split
  · simp
  · rename_i hcond
    simpa [ha, hq, Option.isSome_iff_ne_none] using hcond

/-- A channel asked, while the part is not HALTED, has an operation in progress (R95, R189). -/
theorem askOp_started (c : Nat) (op : Op) (ha : s.notHalted = true) :
    ((askOp c op s).channel c).started.isSome = true :=
  startNext_started ha (by
    rw [State.setChannel_channel_same]
    exact Channel.ask_queue_ne_nil _ op)

/-- A Format asks an erase (R182). -/
theorem State.Erasing.ask (hs : s.Erasing h f) (ho : s.occupied h) {c : Nat} (hc : c < 8) (k : Nat) :
    (askFormatErase c k s).Erasing h f := by
  obtain ⟨hbuilders, hwait, herasing, hops⟩ := hs.rests
  have hother : ∀ d, d ≠ c → (askFormatErase c k s).standing h d = s.standing h d := fun d hd => by
    rw [State.standing, askFormatErase, (askOp_asked c _ s).2 d hd]
    rfl
  have hmem : ∀ op, op ∈ (askFormatErase c k s).standing h c → op.requester = .format ∨ op ∈ s.standing h c := fun op hop => by
    rw [askFormatErase, (askOp_standing ho c _).mem_iff, List.mem_cons] at hop
    rcases hop with rfl | hop
    · exact Or.inl rfl
    · exact Or.inr hop
  exact
  { format := by simpa [askFormatErase] using hs.format
    erasing := hs.erasing
    load := by simpa [askFormatErase] using hs.load
    archive := by simpa [askFormatErase] using hs.archive
    rests := by
      refine ⟨by simpa [askFormatErase] using hbuilders, by simpa [askFormatErase] using hwait,
        by simpa [askFormatErase] using herasing, fun d op hop => ?_⟩
      by_cases hd : d = c
      · subst hd
        exact (hmem op hop).elim (fun hx => Or.inr (decide_eq_true hx)) (hops d op)
      · exact hops d op (hother d hd ▸ hop)
    quiet := fun d hd hn => by
      by_cases hdc : d = c
      · subst hdc
        have hstarted := askOp_started d
          { kind := .erase, slot := k, requester := .format, entry := none, data := .blank }
          (s := s) (by simp [State.notHalted, hs.archive])
        rw [askFormatErase] at hn
        simp [hn] at hstarted
      · rw [hother d hdc]
        refine hs.quiet d hd ?_
        rwa [askFormatErase, (askOp_asked c _ s).2 d hdc] at hn
    below := fun d op hop hr => by
      by_cases hdc : d = c
      · rw [hdc]
        exact hc
      · exact hs.below d op (hother d hdc ▸ hop) hr }

/-! ### The first image (R182) -/

/-- A Format writes the first image. -/
structure State.Imaging (h : Option Nat) (f : FormatOp) (s : State) : Prop where
  format : s.cat.format = some f
  phase : f.phase = .image
  load : s.cat.load = none
  archive : s.cat.archive = .formatting
  rests : s.restsBut h (fun r => r = .catalog)
  empty : s.media.dir = []
  unused : ∀ r : SlotRef, r.channel < 8 → s.slotState r ≠ .used
  catalog : ∀ c k, s.cat.channel = some c → k < 16 → s.slotState { channel := c, slot := k } = .catalog

theorem catalog_apart (r : Requester) (hr : decide (r = .catalog) = true) : (∀ b, r ≠ .builder b) ∧ r ≠ .eraser := by
  obtain rfl : r = .catalog := of_decide_eq_true hr
  exact ⟨fun b => by simp, by simp⟩

theorem State.MapLaw.imaging (hs : s.MapLaw h) (hf : s.cat.format = some f) (hp : f.phase = .image) : s.Imaging h f := by
  obtain ⟨harchive, hrests, -, hempty⟩ := hs.formats f hf
  have hasks : f.asks = fun r => decide (r = .catalog) := by
    funext r
    simp [FormatOp.asks, FormatOp.erasing, hp]
  have hnamed := hs.named (fun g hg => by
    obtain rfl : f = g := Option.some.inj (hf.symm.trans hg)
    simp [FormatOp.erasing, hp])
  have hdir := hempty hp
  refine ⟨hf, hp, ?_, harchive, hasks ▸ hrests, hdir, fun r hr hused => ?_, hnamed.catalog⟩
  · cases hl : s.cat.load with
    | none => rfl
    | some l =>
      obtain ⟨-, hformat, -⟩ := hs.loads (by rw [hl]; rfl)
      rw [hf] at hformat
      cases hformat
  · obtain ⟨e, he⟩ := hnamed.covered r hr hused
    simp [State.view, State.entry, hdir] at he

namespace State.Imaging

theorem mapLaw (hs : s.Imaging h f) : s.MapLaw h where
  loads hl := by rw [hs.load] at hl; cases hl
  formats g hg := by
    obtain rfl : f = g := Option.some.inj (hs.format.symm.trans hg)
    obtain ⟨hbuilders, hwait, herasing, hops⟩ := hs.rests
    refine ⟨hs.archive, ⟨hbuilders, hwait, herasing, fun c op hop => (hops c op hop).imp_right (fun hx => ?_)⟩,
      fun hn => absurd hs.phase hn, fun _ => hs.empty⟩
    simpa [FormatOp.asks, hs.phase] using Or.inr hx
  linked := linked_of_rests hs.rests catalog_apart
  named _ := named_of_empty hs.empty hs.unused hs.catalog

/-- Without a Format, the part is as the first image has it. -/
theorem ends (hs : s.Imaging h f) (hm : t.media = s.media) (hb : t.comp = s.comp) (he : t.ret = s.ret)
    (hc : t.cat.channel = s.cat.channel) (hl : t.cat.load = none) (hf : t.cat.format = none) : t.MapLaw h := by
  obtain ⟨hbuilders, hwait, herasing, hops⟩ := hs.rests
  have hchannel : ∀ c, t.channel c = s.channel c := fun c => by simp only [State.channel, hm]
  have hslot : ∀ r, t.slotState r = s.slotState r := fun r => by simp only [State.slotState, hchannel]
  have hrests : t.restsBut h (fun r => r = .catalog) :=
    ⟨hb ▸ hbuilders, hm ▸ hwait, he ▸ herasing, fun c op hop => hops c op (by
      rwa [State.standing, hchannel] at hop)⟩
  exact
  { loads := fun hx => by rw [hl] at hx; cases hx
    formats := fun g hg => by rw [hf] at hg; cases hg
    linked := linked_of_rests hrests catalog_apart
    named := fun _ => named_of_empty (hm ▸ hs.empty) (fun r hr => hslot r ▸ hs.unused r hr)
      (fun c k hx hk => hslot _ ▸ hs.catalog c k (hc ▸ hx) hk) }

/-- A share is asked. -/
theorem ask (hs : s.Imaging h f) (ho : s.occupied h) (c : Nat) (i : Image) (a k : Nat) :
    (askOp c (shareWrite i a k) s).Imaging h f := by
  obtain ⟨hbuilders, hwait, herasing, hops⟩ := hs.rests
  have hslot : ∀ r, (askOp c (shareWrite i a k) s).slotState r = s.slotState r := fun r => by
    obtain ⟨hslots, hrest⟩ := askOp_slots c r.channel (shareWrite i a k) s
    simp only [State.slotState, Channel.slot, hslots, hrest]
  exact
  { format := by simpa using hs.format
    phase := hs.phase
    load := by simpa using hs.load
    archive := by simpa using hs.archive
    rests := by
      refine ⟨by simpa using hbuilders, by simpa using hwait, by simpa using herasing, fun d op hop => ?_⟩
      by_cases hd : d = c
      · subst hd
        rw [(askOp_standing ho d _).mem_iff, List.mem_cons] at hop
        rcases hop with rfl | hop
        · exact Or.inr rfl
        · exact hops d op hop
      · refine hops d op ?_
        rwa [State.standing, (askOp_asked c _ s).2 d hd] at hop
    empty := by simpa using hs.empty
    unused := fun r hr => by
      rw [hslot]
      exact hs.unused r hr
    catalog := fun d j hd hj => by
      rw [hslot]
      exact hs.catalog d j (by simpa using hd) hj }

end State.Imaging

theorem writeImage_mapLaw (hs : s.Imaging none f) (i : Image) (a : Nat) : (writeImage i a s).MapLaw none :=
  (foldl_inv (fun t : State => t.Imaging none f) _ (fun _ k ht => ht.ask (occupied_none _) i.channel i a k) _ s hs).mapLaw

/-- Between stages a Format has no erase asked, and every channel of the part is at rest (R182). -/
structure State.Staged (f : FormatOp) (s : State) : Prop where
  format : s.cat.format = some f
  load : s.cat.load = none
  archive : s.cat.archive = .formatting
  rests : s.restsBut none (fun _ => false)
  quiet : ∀ c, c < 8 → s.asked c = []

theorem started_of_channelsQuiet (hq : s.channelsQuiet = true) {c : Nat} (hc : c < 8) : (s.channel c).started = none := by
  simpa using List.all_eq_true.mp hq c (List.mem_range.mpr hc)

/-- A Format that clears or erases, and has no channel at work, is between stages (R182). -/
theorem State.MapLaw.staged (hs : s.MapLaw none) (hf : s.cat.format = some f) (hp : f.phase ≠ .image)
    (hq : s.channelsQuiet = true) : s.Staged f := by
  obtain ⟨harchive, ⟨hbuilders, hwait, herasing, hops⟩, hphase, -⟩ := hs.formats f hf
  obtain ⟨hquiet, hbelow⟩ := hphase hp
  have hnone : ∀ c, c < 8 → s.asked c = [] := fun c hc => hquiet c hc (started_of_channelsQuiet hq hc)
  refine ⟨hf, ?_, harchive, ⟨hbuilders, hwait, herasing, fun c op hop => ?_⟩, hnone⟩
  · cases hl : s.cat.load with
    | none => rfl
    | some l =>
      obtain ⟨-, hformat, -⟩ := hs.loads (by rw [hl]; rfl)
      rw [hf] at hformat
      cases hformat
  · refine (hops c op hop).imp_right (fun hx => ?_)
    obtain ⟨-, hformat⟩ : f.erasing = true ∧ op.requester = .format := by simpa [FormatOp.asks, hp] using hx
    have hempty := hnone c (hbelow c op hop hformat)
    rw [standing_none, hempty] at hop
    cases hop

namespace State.Staged

/-- A stage begins (R182). -/
theorem erasing (hs : s.Staged f) {g : FormatOp} (hg : g.erasing = true) : (s.setFormat (some g)).Erasing none g := by
  obtain ⟨hbuilders, hwait, herasing, hops⟩ := hs.rests
  have hdiscarded : ∀ c, ∀ op ∈ s.asked c, op.requester = .discarded := fun c op hop =>
    (hops c op hop).resolve_right (by simp)
  exact
  { format := rfl
    erasing := hg
    load := hs.load
    archive := hs.archive
    rests := ⟨hbuilders, hwait, herasing, fun c op hop => Or.inl (hdiscarded c op hop)⟩
    quiet := fun c hc _ => hs.quiet c hc
    below := fun c op hop hr => by
      rw [hdiscarded c op hop] at hr
      cases hr }

theorem setFormat (hs : s.Staged f) (g : FormatOp) : (s.setFormat (some g)).Staged g := { hs with format := rfl }

theorem repaint (hs : s.Staged f) (ht : s.Repaints t) : t.Staged f := by
  obtain ⟨hbuilders, hwait, herasing, hops⟩ := hs.rests
  have hasked : ∀ c, t.asked c = s.asked c := fun c => by
    obtain ⟨hqueue, houtside, -⟩ := ht.ops c
    simp only [State.asked, hqueue, houtside]
  exact
  { format := ht.cat ▸ hs.format
    load := ht.cat ▸ hs.load
    archive := ht.cat ▸ hs.archive
    rests := ⟨ht.comp ▸ hbuilders, ht.wait.trans hwait, ht.ret ▸ herasing, fun c op hop => hops c op (by
      rwa [standing_none, hasked] at hop)⟩
    quiet := fun c hc => (hasked c).trans (hs.quiet c hc) }

end State.Staged

/-! ### From stage to stage (R182) -/

/-- What the channels' slots are once a Format has erased them: their DEFECTIVE ones stay so, and the others are CLEAN. -/
def cleaned (ch : Channel) : Channel :=
  { ch with rest := .clean, slots := ch.slots.filter (fun e => decide (e.2 = .defective)) }

theorem mapChannels_repaints {g : Channel → Channel} (hg : ∀ ch : Channel, (g ch).queue = ch.queue ∧
    (g ch).outside = ch.outside ∧ (g ch).started = ch.started ∧ (Tbl.rising ch.slots = true → Tbl.rising (g ch).slots = true))
    (s : State) : s.Repaints (mapChannels g s) :=
  foldl_repaints (fun t c => by
    obtain ⟨hqueue, houtside, hstarted, hrises⟩ := hg (t.channel c)
    exact setChannel_repaints hqueue houtside hstarted hrises) _ s

theorem cleaned_repaints (s : State) : s.Repaints (mapChannels cleaned s) :=
  mapChannels_repaints (g := cleaned) (fun _ => ⟨rfl, rfl, rfl, fun hr =>
    Tbl.rising_filter hr (fun e => decide (e.2 = .defective))⟩) s

theorem formatSlots_eq (c : Nat) (s : State) : formatSlots c s = catalogSlots c (mapChannels cleaned s) := rfl

/-- No slot that a Format leaves is USED. -/
theorem formatSlots_unused (c : Nat) (s : State) {r : SlotRef} (hr : r.channel < 8) :
    (formatSlots c s).slotState r ≠ .used := by
  rw [formatSlots_eq, catalogSlots_slotState]
  split
  · simp
  · rw [State.slotState, mapChannels_channel, if_pos hr]
    refine Tbl.get_of_all (P := fun x : SlotState => x ≠ .used) (by simp [cleaned]) (fun e he => ?_) r.slot
    have hdefective : e.2 = .defective := of_decide_eq_true (List.mem_filter.mp he).2
    simp [hdefective]

/-- With every slot erased, the first image is begun (R182). -/
theorem beginFirstImage_mapLaw (hs : s.Staged f) : (beginFirstImage f s).MapLaw none := by
  have hpaint : s.Repaints (formatSlots f.channel s) := (cleaned_repaints s).trans (catalogSlots_repaints _ _)
  obtain ⟨u, hu⟩ : ∃ u, u = formatSlots f.channel s := ⟨_, rfl⟩
  have hstaged : u.Staged f := hs.repaint (hu ▸ hpaint)
  have hunused : ∀ r : SlotRef, r.channel < 8 → u.slotState r ≠ .used := fun r hr => hu ▸ formatSlots_unused _ _ hr
  have hcatalog : ∀ k, k < 16 → u.slotState { channel := f.channel, slot := k } = .catalog := fun k hk => by
    rw [hu, formatSlots_eq, catalogSlots_slotState, if_pos ⟨rfl, hk⟩]
  obtain ⟨-, -, -, hops⟩ := hstaged.rests
  simp only [beginFirstImage, ← hu]
  refine writeImage_mapLaw (f := { f with phase := .image }) ?_ _ _
  exact
  { format := rfl
    phase := rfl
    load := rfl
    archive := hstaged.archive
    rests := ⟨rfl, rfl, rfl, fun c op hop => (hops c op hop).imp_right (by simp)⟩
    empty := rfl
    unused := hunused
    catalog := fun c k hc hk => by
      obtain rfl : f.channel = c := Option.some.inj hc
      exact hcatalog k hk }

theorem nextStage_ne_clearing (p : FormatPhase) : nextStage p ≠ .clearing := by cases p <;> simp [nextStage]

theorem stageChannels_lt {c : Nat} (hc : c ∈ s.stageChannels f) : c < 8 := by
  have hpresent : ∀ {d : Nat}, d ∈ s.presentChannels → d < 8 := fun hd => (mem_presentChannels.mp hd).1
  unfold State.stageChannels at hc
  split at hc
  · exact hpresent (List.mem_filter.mp hc).1
  · exact hpresent (List.mem_filter.mp hc).1
  · exact hpresent hc
  · cases hc

/-- The erases of a stage are asked on channels of the part. -/
theorem askStage_mapLaw (hs : s.Erasing none f) {l : List Nat} (hl : ∀ c ∈ l, c < 8) (k : Nat) :
    (l.foldl (fun u c => askFormatErase c k u) s).MapLaw none := by
  induction l generalizing s with
  | nil => exact hs.mapLaw
  | cons c l ih =>
    exact ih (hs.ask (occupied_none s) (hl c List.mem_cons_self) k) (fun d hd => hl d (List.mem_cons_of_mem c hd))

/-- The next stage, and those without a channel to erase passed over (R182). -/
theorem advanceStage_mapLaw (fuel : Nat) (hs : s.Staged f) (hf : f.erasing = true ∨ 0 < fuel) :
    (advanceStage fuel s).MapLaw none := by
  induction fuel generalizing s f with
  | zero =>
    have herasing : f.erasing = true := hf.resolve_right (by simp)
    have hsame : s.setFormat (some f) = s := by rw [State.setFormat, ← hs.format]
    exact (hsame ▸ hs.erasing herasing).mapLaw
  | succ fuel ih =>
    simp only [advanceStage, hs.format]
    split
    · exact beginFirstImage_mapLaw hs
    · rename_i hp
      have herasing : ({ f with phase := nextStage f.phase } : FormatOp).erasing = true :=
        erasing_iff.mpr ⟨nextStage_ne_clearing _, hp⟩
      split
      · exact ih (hs.setFormat _) (Or.inl herasing)
      · rename_i cs hcs
        exact askStage_mapLaw (hs.erasing herasing) (fun c hc => stageChannels_lt hc) _

theorem opened_repaints (s : State) : s.Repaints (mapChannels Channel.opened s) :=
  mapChannels_repaints (fun ch => by
    unfold Channel.opened
    split
    · exact ⟨rfl, rfl, rfl, id⟩
    · exact ⟨rfl, rfl, rfl, fun _ => rfl⟩) s

/-- A Format's erasing stages begin once the channels are quiet (R182). -/
theorem endClearing_mapLaw (hs : s.MapLaw none) : (endClearing s).MapLaw none := by
  unfold endClearing
  split
  · rename_i hcond
    obtain ⟨hclearing, hquiet⟩ := Bool.and_eq_true_iff.mp hcond
    unfold State.clearing at hclearing
    split at hclearing
    · cases hclearing
    · rename_i f hf
      have hphase : f.phase = .clearing := of_decide_eq_true hclearing
      exact advanceStage_mapLaw 4 ((hs.staged hf (by simp [hphase]) hquiet).repaint (opened_repaints s)) (Or.inr (by decide))
  · exact hs

theorem afterQuiet_mapLaw (hs : s.MapLaw none) : (afterQuiet s).MapLaw none :=
  endClearing_mapLaw (beginReads_mapLaw hs (occupied_none s))

theorem nextStageWhenQuiet_mapLaw (hs : s.MapLaw none) : (nextStageWhenQuiet s).MapLaw none := by
  unfold nextStageWhenQuiet
  split
  · rename_i hcond
    obtain ⟨hstage, hquiet⟩ := Bool.and_eq_true_iff.mp hcond
    unfold State.erasingStage at hstage
    split at hstage
    · cases hstage
    · rename_i f hf
      have herasing : f.phase ≠ .image := fun hp => by simp [hp] at hstage
      exact advanceStage_mapLaw 4 (hs.staged hf herasing hquiet) (Or.inr (by decide))
  · exact hs

/-! ### The ends of a Format's operations (R182) -/

theorem failFormat_mapLaw (f : FormatOp) (r : SlotRef) (s : State) : (failFormat f r s).MapLaw h :=
  (answer_thins _ _ _ _).mapLaw (blankArchive_blank _ _).mapLaw

theorem formatErased_mapLaw (hs : s.Erasing h f) (ho : s.occupied h) {r : SlotRef} (hr : r.channel < 8) (ok : Bool) :
    (formatErased f r ok s).MapLaw h := by
  simp only [formatErased]
  split
  · exact failFormat_mapLaw f r s
  · have hpainted := hs.repaint (setSlotState_repaints s r (if ok then .clean else .defective))
    split
    · exact (hpainted.ask (setSlotState_occupied ho r _) hr _).mapLaw
    · exact hpainted.mapLaw

theorem firstImageShare_mapLaw (hs : s.Imaging h f) : (firstImageShare f s).MapLaw h := by
  simp only [firstImageShare]
  split
  · exact State.Imaging.mapLaw (f := f) { hs with }
  · obtain ⟨t, ht⟩ : ∃ t : State, t = { s with cat := { s.cat with
      archive := .service, last := 1, newer := some 0, buffer := none, sharesOk := 0, format := none } } := ⟨_, rfl⟩
    have hended : t.MapLaw h := by
      rw [ht]
      exact hs.ends rfl rfl rfl rfl hs.load rfl
    have hraised : t.Thins h (raiseBoth noticeCheckpointDone 1 t) := .of_media (by simp) (by simp) (by simp) (by simp)
    rw [← ht]
    exact (answer_thins _ _ _ _).mapLaw (hraised.mapLaw hended)

/-- A Format is begun in service, or without a catalog (R182). -/
theorem beginFormat_mapLaw (hr : Tbl.rising s.media.dir = true) (hs : s.MapLaw none) (hp : s.plain) (r : ReqRef)
    (consent : Bool) (c : Nat) : (beginFormat r consent c s).MapLaw none := by
  have hreset : (resetRequests r s).MapLaw none :=
    State.Thins.mapLaw (s := s) (.of_media rfl rfl rfl ⟨rfl, rfl, rfl, rfl⟩) hs
  simp only [beginFormat]
  refine endClearing_mapLaw (clearing_mapLaw (s := resetRequests r s) hr (hreset.named (fun f hf => ?_)) rfl)
  have hnone : s.cat.format = some f := hf
  rw [hp.2] at hnone
  cases hnone

theorem withdrawConsent_mapLaw (hs : s.MapLaw none) : (withdrawConsent s).MapLaw none := by
  unfold withdrawConsent
  repeat' split
  · exact hs
  · exact searchLoad_mapLaw (blankArchive_blank _ _) rfl
  · exact hs

end
end Sys2Proof.Machine
end

