-- ==== Sys2Proof/Proofs/SlotMapEnds.lean ====
section
/-!
PROOFS. Proofs/SlotMapEnds.lean: every operation that ends keeps the law of the Slot Map (R68, R69, R78, R88, R96, R97, R118,
R119, R172, R173, R182).
-/

namespace Sys2Proof.Machine
open Sys2Proof

section
variable {s : State} {c : Nat} {op : Op}

/-! ### What the law says of the operation that ends (R67, R118) -/

/-- While a load or a Format runs, no builder, no job, no cursor and no Eraser has an operation asked. -/
theorem plain_of_requester (hs : s.MapLaw none) (hop : op ∈ s.asked c) (hd : op.requester ≠ .discarded)
    (hl : op.requester ≠ .load) (hf : op.requester ≠ .format) (hc : op.requester ≠ .catalog) : s.plain := by
  constructor
  · cases hload : s.cat.load with
    | none => rfl
    | some l =>
      obtain ⟨-, -, -, hops⟩ := (hs.loading (by rw [hload]; rfl)).rests
      exact absurd ((hops c op hop).resolve_left hd) (by simpa using hl)
  · cases hformat : s.cat.format with
    | none => rfl
    | some f =>
      obtain ⟨-, ⟨-, -, -, hops⟩, -⟩ := hs.formats f hformat
      have hasks := (hops c op hop).resolve_left hd
      simp [FormatOp.asks, hf, hc] at hasks

theorem mem_asked_of_inProgress (hp : s.inProgress c op = true) : op ∈ s.asked c := by
  rw [(standing_opened hp).1]
  exact List.mem_cons_self

/-- Where at most one operation is of a kind, and one is, no other is. -/
theorem not_of_countP_cons {m : Multiset Op} {p : Op → Prop} [DecidablePred p] (hone : (op ::ₘ m).countP p ≤ 1) (hop : p op)
    {o : Op} (ho : o ∈ m) : ¬ p o := fun hx => by
  have hpos : 0 < m.countP p := Multiset.countP_pos.mpr ⟨o, ho, hx⟩
  rw [Multiset.countP_cons_of_pos m hop] at hone
  omega

/-- A builder's operation that ends is the only one of the builder (R67). -/
theorem ending_of_write (hs : s.MapLaw none) (hp : s.inProgress c op = true) {b : Nat} (hb : op.requester = .builder b) :
    s.Ending (some c) b { channel := c, slot := op.slot } := by
  obtain ⟨hhead, hothers⟩ := standing_opened hp
  have hop := mem_asked_of_inProgress hp
  obtain ⟨hclosing, hwriting, hplace⟩ := hs.linked.writes c op b hop hb
  refine ⟨hclosing, hwriting, hplace, fun d o ho hr => ?_⟩
  by_cases hd : d = c
  · subst hd
    have hone := hs.linked.oneWrite d b
    simp only [State.view, standing_none, hhead, ← Multiset.cons_coe] at hone
    exact not_of_countP_cons hone hb ho hr
  · have hasked : o ∈ s.asked d := by
      rw [← hothers d hd]
      exact ho
    obtain ⟨-, -, hplace'⟩ := hs.linked.writes d o b hasked hr
    rw [hplace] at hplace'
    exact hd (congrArg SlotRef.channel (Option.some.inj hplace')).symm

/-- The Eraser's operation that ends is its only one of the channel, and erases what the Eraser has in flight (R117, R118). -/
theorem ending_of_erase (hs : s.MapLaw none) (hp : s.inProgress c op = true) (hr : op.requester = .eraser) :
    (s.view (some c)).unerased c ∧
      (∀ e, op.entry = some e → (s.entry e).state = .erasing ∧ (s.entry e).slot = some { channel := c, slot := op.slot }) ∧
      (op.entry = none → s.slotState { channel := c, slot := op.slot } = .dirty) := by
  obtain ⟨hhead, -⟩ := standing_opened hp
  obtain ⟨-, hentry, hdirty⟩ := hs.linked.erases c op (mem_asked_of_inProgress hp) hr
  refine ⟨fun o ho he => ?_, hentry, hdirty⟩
  have hone := hs.linked.oneErase c
  simp only [State.view, standing_none, hhead, ← Multiset.cons_coe] at hone
  exact not_of_countP_cons hone hr ho he

theorem State.Thins.ending {h : Option Nat} {t : State} (ht : s.Thins h t) {b : Nat} {r : SlotRef} (hb : s.Ending h b r) :
    t.Ending h b r := by
  have hbuilder : t.builder b = s.builder b := by rw [State.builder, ht.builders]; rfl
  obtain ⟨hstate, hslot⟩ := ht.entry (s.builder b).entry
  exact
  { closing := hbuilder ▸ hb.closing
    writing := by rw [hbuilder, hstate]; exact hb.writing
    place := by rw [hbuilder, hslot]; exact hb.place
    unasked := fun d o ho hr => hb.unasked d o (ht.kept d o ho (by simp [hr])) hr }

/-! ### An operation that ends, by its requester -/

/-- A requester's handling may rest on what an operation leaves in its slot being none of the law's. -/
theorem complete_keeps (hs : s.MapLaw none) (ho : s.Ordered) (hp : s.inProgress c op = true) (ok : Bool)
    {act : State → State}
    (ha : ∀ t, s.Thins (some c) t → t.Ordered → t.occupied (some c) → t.MapLaw (some c) → (act t).MapLaw (some c)) :
    (complete c op ok act s).MapLaw none := by
  have hleft := leaveInSlot_thins (h := some c) c op ok s
  exact complete_mapLaw hs hp ok (ha _ hleft (hleft.ordered ho) (hleft.occupied (occupied_of_inProgress hp)))

/-- An operation that ends in service, or without a load and a Format. -/
theorem complete_plain (hs : s.MapLaw none) (ho : s.Ordered) (hp : s.inProgress c op = true) (hplain : s.plain) (ok : Bool)
    {act : State → State} (ha : ∀ t, s.Thins (some c) t → t.AtWork (some c) → (act t).AtWork (some c)) :
    (complete c op ok act s).MapLaw none :=
  complete_keeps hs ho hp ok (fun t ht hordered hoccupied hlaw =>
    (ha t ht (hlaw.atWork hordered ⟨ht.load.trans hplain.1, ht.format.trans hplain.2⟩ hoccupied)).mapLaw)

/-- The law of the part in service. -/
theorem State.MapLaw.inService {h : Option Nat} (hs : s.MapLaw h) (ho : s.Ordered) (hc : s.occupied h)
    (ha : s.inService = true) : s.AtWork h := by
  have harchive : s.cat.archive = .service := of_decide_eq_true ha
  exact hs.atWork ho (hs.plain (by simp [harchive]) (by simp [harchive])) hc

section
variable (hs : s.MapLaw none) (ho : s.Ordered) (hp : s.inProgress c op = true)
include hs hp

theorem plain_of_write {b : Nat} (hb : op.requester = .builder b) : s.plain :=
  plain_of_requester hs (mem_asked_of_inProgress hp) (by simp [hb]) (by simp [hb]) (by simp [hb]) (by simp [hb])

theorem plain_of_erase (hr : op.requester = .eraser) : s.plain :=
  plain_of_requester hs (mem_asked_of_inProgress hp) (by simp [hr]) (by simp [hr]) (by simp [hr]) (by simp [hr])

include ho

theorem segmentWriteOk_mapLaw {b : Nat} (hb : op.requester = .builder b) (ok : Bool) :
    (complete c op ok (storeSegment b) s).MapLaw none :=
  complete_plain hs ho hp (plain_of_write hs hp hb) ok (fun _ ht hwork =>
    storeSegment_atWork hwork (ht.ending (ending_of_write hs hp hb)))

theorem segmentWriteFail_mapLaw {b : Nat} (hb : op.requester = .builder b) (timeout ok : Bool) :
    (complete c op ok (failSegment timeout b { channel := c, slot := op.slot }) s).MapLaw none :=
  complete_plain hs ho hp (plain_of_write hs hp hb) ok (fun _ ht hwork =>
    failSegment_atWork hwork (ht.ending (ending_of_write hs hp hb)) timeout)

theorem builderPageError_mapLaw {b : Nat} (hb : op.requester = .builder b) :
    (startNext c (endOp c (builderPageFault b { channel := c, slot := op.slot } s))).MapLaw none := by
  have hwork : s.AtWork (some c) :=
    (hs.opens hp).atWork ho (plain_of_write hs hp hb) (occupied_of_inProgress hp)
  exact (builderPageFault_atWork hwork (ending_of_write hs hp hb)).mapLaw.closes

theorem eraserEnds_mapLaw (hr : op.requester = .eraser) (ok : Bool) : (eraserEnds c op ok s).MapLaw none :=
  complete_plain hs ho hp (plain_of_erase hs hp hr) ok (fun t ht hwork => by
    obtain ⟨hunerased, hentry, hdirty⟩ := ending_of_erase hs hp hr
    refine afterSlots_atWork (finishErase_atWork hwork (fun o hop => ?_) (fun e he => ?_) (fun hn => ?_) ok)
    · exact fun hx => hunerased o (ht.kept c o hop (by simp [hx])) hx
    · obtain ⟨hstate, hslot⟩ := ht.entry e
      obtain ⟨herasing, hplace⟩ := hentry e he
      exact ⟨hstate.trans herasing, hslot.trans hplace⟩
    · obtain ⟨hslots, hrest⟩ := ht.slots c
      have hsame : t.slotState { channel := c, slot := op.slot } = s.slotState { channel := c, slot := op.slot } := by
        simp only [State.slotState, Channel.slot, hslots, hrest]
      exact hsame.trans (hdirty hn))

theorem eraseTimesOut_mapLaw (hr : op.requester = .eraser) : (eraseTimesOut c op s).MapLaw none :=
  complete_plain hs ho hp (plain_of_erase hs hp hr) false (fun t ht hwork => by
    obtain ⟨hunerased, -⟩ := ending_of_erase hs hp hr
    exact timeoutErase_atWork hwork (fun o hop hx => hunerased o (ht.kept c o hop (by simp [hx])) hx) _)

theorem auditRead_mapLaw (hr : op.requester = .audit) (res : ReadResult) : (auditRead c op res s).MapLaw none :=
  complete_plain hs ho hp
    (plain_of_requester hs (mem_asked_of_inProgress hp) (by simp [hr]) (by simp [hr]) (by simp [hr]) (by simp [hr])) true
    (fun t _ hwork => by
      split
      · exact verifyRead_atWork hwork c _ res
      · exact reconcileRead_atWork hwork c _ res)

theorem cursorReadEnds_mapLaw {k : Nat} (hr : op.requester = .cursor k) (res : ReadResult) (bad : List (Nat × Nat)) :
    (cursorReadEnds c op res bad s).MapLaw none :=
  complete_plain hs ho hp
    (plain_of_requester hs (mem_asked_of_inProgress hp) (by simp [hr]) (by simp [hr]) (by simp [hr]) (by simp [hr])) true
    (fun t _ hwork => by
      refine cursorRead_atWork ?_ _ _ bad
      exact hwork.keeps (t := useFree t) rfl rfl rfl ⟨rfl, rfl, rfl⟩)

theorem loadReadEnds_mapLaw (res : CatalogResult) : (loadReadEnds c op res s).MapLaw none :=
  complete_keeps hs ho hp true (fun t _ _ hoccupied hlaw => by
    have hfree : t.Thins (some c) (useFree t) := .of_media rfl rfl rfl ⟨rfl, rfl, rfl, rfl⟩
    exact noteRead_mapLaw (hfree.mapLaw hlaw) (hfree.occupied hoccupied) _)

theorem catalogWriteOk_mapLaw (n : Nat) :
    (complete c op true (fun t => if t.writingNow then shareWritten n t else t) s).MapLaw none :=
  complete_keeps hs ho hp true (fun t _ hordered hoccupied hlaw => by
    split
    · rename_i hwriting
      exact (shareWritten_atWork (hlaw.inService hordered hoccupied (Bool.and_eq_true_iff.mp hwriting).1) n).mapLaw
    · exact hlaw)

theorem shareFails_mapLaw : (shareFails c op s).MapLaw none :=
  complete_keeps hs ho hp false (fun t _ hordered hoccupied hlaw => by
    split
    · rename_i hwriting
      exact (failCheckpoint_atWork (hlaw.inService hordered hoccupied (Bool.and_eq_true_iff.mp hwriting).1) _).mapLaw
    · exact hlaw)

theorem discardedEnds_mapLaw (ok : Bool) : (discardedEnds c op ok s).MapLaw none :=
  afterQuiet_mapLaw (complete_keeps hs ho hp ok (fun _ _ _ _ hlaw => hlaw))

theorem formatEraseEnds_mapLaw (hr : op.requester = .format) (ok : Bool) : (formatEraseEnds c op ok s).MapLaw none := by
  refine nextStageWhenQuiet_mapLaw (complete_keeps hs ho hp ok (fun t ht _ hoccupied hlaw => ?_))
  split
  · exact hlaw
  · rename_i f hf
    have hformat : s.cat.format = some f := ht.format ▸ hf
    obtain ⟨-, ⟨-, -, -, hops⟩, hphase, -⟩ := hs.formats f hformat
    have hop := mem_asked_of_inProgress hp
    have hasks := (hops c op hop).resolve_left (by simp [hr])
    have herasing : f.erasing = true := by simpa [FormatOp.asks, hr] using hasks
    obtain ⟨-, hbelow⟩ := hphase (erasing_iff.mp herasing).2
    exact formatErased_mapLaw (r := { channel := c, slot := op.slot }) (hlaw.erasing hf herasing) hoccupied
      (hbelow c op hop hr) ok

theorem firstImageEnds_mapLaw (hr : op.requester = .catalog) (ok : Bool) : (firstImageEnds c op ok s).MapLaw none := by
  refine complete_keeps hs ho hp ok (fun t ht _ _ hlaw => ?_)
  split
  · exact hlaw
  · rename_i f hf
    have hformat : s.cat.format = some f := ht.format ▸ hf
    obtain ⟨-, ⟨-, -, -, hops⟩, -⟩ := hs.formats f hformat
    have hasks := (hops c op (mem_asked_of_inProgress hp)).resolve_left (by simp [hr])
    have hphase : f.phase = .image := by simpa [FormatOp.asks, hr] using hasks
    split
    · exact firstImageShare_mapLaw (hlaw.imaging hf hphase)
    · exact failFormat_mapLaw _ _ _

/-- An operation handed to its requester as failed (R97). -/
theorem timeOut_mapLaw : (timeOut c op s).MapLaw none := by
  unfold timeOut
  split
  case h_1 => exact discardedEnds_mapLaw hs ho hp false
  case h_2 b hb => exact segmentWriteFail_mapLaw hs ho hp hb true false
  case h_3 hr => exact eraseTimesOut_mapLaw hs ho hp hr
  case h_4 hr => exact formatEraseEnds_mapLaw hs ho hp hr false
  case h_5 hr => exact auditRead_mapLaw hs ho hp hr .fail
  case h_6 k hr => exact cursorReadEnds_mapLaw hs ho hp hr .fail []
  case h_7 => exact loadReadEnds_mapLaw hs ho hp .fail
  case h_8 hr =>
    unfold catalogWriteTimesOut
    split
    · exact firstImageEnds_mapLaw hs ho hp hr false
    · exact shareFails_mapLaw hs ho hp

end
end
end Sys2Proof.Machine
end

