-- ==== Sys2Proof/Proofs/SlotMapCommands.lean ====
section
/-!
PROOFS. Proofs/SlotMapCommands.lean: every command keeps the law of the Slot Map (R88).
-/

namespace Sys2Proof.Machine
open Sys2Proof

/-- The command keeps the law of the Slot Map. -/
def MapCommand (x : State → Result State) : Prop :=
  ∀ s t : State, s.Ordered → s.MapLaw none → x s = .next t → t.MapLaw none

/-! ### Commands as turns and as requests -/

section
variable {s t : State}

/-- What leaves the media and the engines alone keeps the law. -/
theorem MapLaw.of_media {h : Option Nat} (hs : s.MapLaw h) (hm : t.media = s.media) (hb : t.comp = s.comp)
    (he : t.ret = s.ret) (hk : t.cat = s.cat) : t.MapLaw h :=
  State.Thins.mapLaw (s := s) (.of_media hm (by rw [hb]) (by rw [he]) (by simp [hk])) hs

theorem mapCommand_turn {f : State → State} (hf : ∀ s : State, s.Ordered → s.MapLaw none → (f s).MapLaw none) :
    MapCommand (turn f) := by
  intro s t ho hs ht
  rw [turn_next] at ht
  injection ht with ht
  have hclear : s.Thins none (clearFrames s) := .of_media (by simp) (by simp) (by simp) (by simp)
  rw [← ht]
  exact MapLaw.of_media (hf _ (hclear.ordered ho) (hclear.mapLaw hs)) (by simp) (by simp) (by simp) (by simp)

theorem takeRequest_mapLaw {p : Port} {tag kind : Nat} {g : Rights} {act : ReqRef → State → State}
    (ha : ∀ r, ∀ s : State, s.Ordered → s.MapLaw none → (act r s).MapLaw none) (ho : s.Ordered) (hs : s.MapLaw none) :
    (takeRequest p tag kind g act s).MapLaw none := by
  have hentered : s.Thins none (enter p tag kind s) := .of_media (by simp) (by simp) (by simp) (by simp)
  unfold takeRequest
  repeat' split
  · exact hs
  · exact MapLaw.of_media hs (by simp) (by simp) (by simp) (by simp)
  · exact MapLaw.of_media hs (by simp) (by simp) (by simp) (by simp)
  · exact MapLaw.of_media hs (by simp) (by simp) (by simp) (by simp)
  · exact ha _ _ (hentered.ordered ho) (hentered.mapLaw hs)

theorem mapCommand_request {p : Port} {tag kind : Nat} {g : Rights} {act : ReqRef → State → State}
    (ha : ∀ r, ∀ s : State, s.Ordered → s.MapLaw none → (act r s).MapLaw none) : MapCommand (request p tag kind g act) :=
  mapCommand_turn (fun _ ho hs => takeRequest_mapLaw ha ho hs)

/-- A request answered by a table of checks acts where every check passes. -/
theorem mapCommand_checked {p : Port} {tag kind : Nat} {g : Rights} {cs : State → List (Bool × Status)}
    {act : ReqRef → State → State} (ha : ∀ r, ∀ s : State, firstRefusal (cs s) = none → s.Ordered → s.MapLaw none →
      (act r s).MapLaw none) : MapCommand (request p tag kind g (fun r s => checked r (cs s) (act r) s)) :=
  mapCommand_request (fun r s ho hs => by
    unfold checked
    split
    · exact (answer_thins r _ _ s).mapLaw hs
    · rename_i hpassed
      exact ha r s hpassed ho hs)

/-- A request that only answers. -/
theorem mapCommand_answered {p : Port} {tag kind : Nat} {g : Rights} {cs : State → List (Bool × Status)}
    {act : ReqRef → State → State} (ha : ∀ r, ∀ s : State, s.Thins none (act r s)) :
    MapCommand (request p tag kind g (fun r s => checked r (cs s) (act r) s)) :=
  mapCommand_checked (fun r s _ _ hs => (ha r s).mapLaw hs)

/-- A request that is refused out of service acts on the part at work. -/
theorem mapCommand_service {p : Port} {tag kind : Nat} {g : Rights} {cs : State → List (Bool × Status)}
    {act : ReqRef → State → State} (hc : ∀ s : State, (s.inService, Status.wrongState) ∈ cs s)
    (ha : ∀ r, ∀ s : State, s.AtWork none → (act r s).AtWork none) :
    MapCommand (request p tag kind g (fun r s => checked r (cs s) (act r) s)) :=
  mapCommand_checked (fun r s hpassed ho hs => by
    have hservice : s.inService = true := (firstRefusal_none_iff _).mp hpassed _ (hc s)
    exact (ha r s (hs.inService ho (occupied_none s) hservice)).mapLaw)

/-- An event of a channel concerns the operation in progress there. -/
theorem onOp_mapLaw {c : Nat} {p : Op → Bool} {act : Op → State → State} (hs : s.MapLaw none)
    (ha : ∀ op, s.inProgress c op = true → p op = true → (act op s).MapLaw none) : (onOp c p act s).MapLaw none := by
  unfold onOp
  split
  · exact hs
  · rename_i op hop
    split
    · rename_i hp
      exact ha op (by simpa [State.inProgress] using hop) hp
    · exact hs

/-- An event that does nothing out of service acts on the part at work. -/
theorem event_mapLaw {f : State → State} (ho : s.Ordered) (hs : s.MapLaw none) (hidle : s.inService ≠ true → f s = s)
    (hf : s.AtWork none → (f s).AtWork none) : (f s).MapLaw none := by
  by_cases hservice : s.inService = true
  · exact (hf (hs.inService ho (occupied_none s) hservice)).mapLaw
  · rw [hidle hservice]
    exact hs

end

/-! ### The checks of a request in service (R12) -/

section
variable (s : State)

theorem service_mem_serviceChecks : (s.inService, Status.wrongState) ∈ s.serviceChecks := by simp [State.serviceChecks]

theorem service_mem_catalogChecks : (s.inService, Status.wrongState) ∈ s.catalogChecks :=
  List.mem_append_left _ (service_mem_serviceChecks s)

theorem service_mem_sourceChecks (n : Nat) : (s.inService, Status.wrongState) ∈ s.sourceChecks n :=
  List.mem_append_left _ (service_mem_catalogChecks s)

theorem service_mem_ownerChecks (p : Port) (k : Nat) (ok : Bool) : (s.inService, Status.wrongState) ∈ s.ownerChecks p k ok :=
  List.mem_append_left _ (service_mem_catalogChecks s)

theorem service_mem_cursorChecks (p : Port) (c : Nat) : (s.inService, Status.wrongState) ∈ s.cursorChecks p c :=
  List.mem_append_left _ (service_mem_serviceChecks s)

end

/-! ### Supply and links (R177, R179, R192 to R197) -/

theorem execPowerUp_map (present : List Bool) : MapCommand (execPowerUp present) :=
  mapCommand_turn (fun s _ hs => by
    split
    · exact hs
    · exact searchLoad_mapLaw (poweredUp_blank present s) rfl)

theorem execPowerLoss_map : MapCommand execPowerLoss :=
  mapCommand_turn (fun s _ hs => by
    split
    · exact (unpowered_blank s).mapLaw
    · exact hs)

theorem setLink_mapLaw {s : State} (hs : s.MapLaw none) (p : Port) (l : LinkIf) : (s.setLink p l).MapLaw none :=
  MapLaw.of_media hs (by simp) (by simp) (by simp) (by simp)

theorem execLinkUp_map (p : Port) : MapCommand (execLinkUp p) :=
  mapCommand_turn (fun s _ hs => by
    split
    · exact setLink_mapLaw (setLink_mapLaw hs p _) p _
    · exact hs)

theorem abortAllSlots_thins {h : Option Nat} (s : State) : s.Thins h (abortAllSlots s) :=
  foldl_inv (fun t : State => s.Thins h t) _ (fun t k ht => by
    split
    · exact ht
    · exact ht.trans (.of_media (by simp) (by simp) (by simp) (by simp))) _ _ (.same s)

theorem linkReset_mapLaw {s : State} (hs : s.MapLaw none) (p : Port) : (linkReset p s).MapLaw none := by
  have hfreed : (freeCursorsOf p (s.setLink p (s.link p).reset)).MapLaw none :=
    (freeCursorsOf_thins p _).mapLaw (setLink_mapLaw hs p _)
  cases p with
  | a =>
    obtain ⟨t, ht⟩ : ∃ t, t = abortAllSlots (freeCursorsOf .a (s.setLink .a (s.link .a).reset)) := ⟨_, rfl⟩
    have haborted : t.MapLaw none := ht ▸ (abortAllSlots_thins _).mapLaw hfreed
    simp only [linkReset, linkResetActs, ← ht]
    exact State.Thins.mapLaw (s := t) (.of_media rfl rfl rfl ⟨rfl, rfl, rfl, rfl⟩) haborted
  | b => exact withdrawConsent_mapLaw hfreed

theorem execLaneLoss_map (p : Port) : MapCommand (execLaneLoss p) :=
  mapCommand_turn (fun s _ hs => by
    split
    · exact linkReset_mapLaw (setLink_mapLaw hs p _) p
    · exact hs)

theorem execLinkResetFrame_map (p : Port) : MapCommand (execLinkResetFrame p) :=
  mapCommand_turn (fun s _ hs => by
    split
    · exact setLink_mapLaw (linkReset_mapLaw hs p) p _
    · exact hs)

theorem execBadFrame_map (p : Port) (f : FrameFault) : MapCommand (execBadFrame p f) :=
  mapCommand_turn (fun s _ hs => by
    split
    · exact setLink_mapLaw hs p _
    · exact hs)

theorem execRequestUnknownKind_map (p : Port) (tag kind : Nat) : MapCommand (execRequestUnknownKind p tag kind) :=
  mapCommand_turn (fun s _ hs => by
    have hbounced : ∀ st, (bounce p tag kind st s).MapLaw none := fun st =>
      MapLaw.of_media hs (by simp) (by simp) (by simp) (by simp)
    repeat' split
    · exact hs
    · exact hbounced _
    · exact hbounced _
    · exact hbounced _)

theorem execReplySent_map (p : Port) : MapCommand (execReplySent p) :=
  mapCommand_turn (fun s _ hs => by
    dsimp only
    split
    · exact setLink_mapLaw hs p _
    · exact hs)

theorem execNoticeSent_map (p : Port) : MapCommand (execNoticeSent p) :=
  mapCommand_turn (fun s _ hs => by
    dsimp only
    split
    · exact setLink_mapLaw hs p _
    · exact hs)

/-! ### Operations that end (R68, R69, R97, R118, R147, R149, R159, R172, R173) -/

theorem execCatalogReadComplete_map (c : Nat) (res : CatalogResult) : MapCommand (execCatalogReadComplete c res) :=
  mapCommand_turn (fun _ ho hs => onOp_mapLaw hs (fun _ hp _ => loadReadEnds_mapLaw hs ho hp res))

theorem execSegmentWriteOk_map (c : Nat) : MapCommand (execSegmentWriteOk c) :=
  mapCommand_turn (fun _ ho hs => onOp_mapLaw hs (fun _ hp hw =>
    segmentWriteOk_mapLaw hs ho hp (opBuilder_of_write hw) true))

theorem execSegmentWriteFail_map (c : Nat) : MapCommand (execSegmentWriteFail c) :=
  mapCommand_turn (fun _ ho hs => onOp_mapLaw hs (fun _ hp hw =>
    segmentWriteFail_mapLaw hs ho hp (opBuilder_of_write hw) false false))

theorem execBuilderPageError_map (c : Nat) : MapCommand (execBuilderPageError c) :=
  mapCommand_turn (fun _ ho hs => onOp_mapLaw hs (fun _ hp hw =>
    builderPageError_mapLaw hs ho hp (opBuilder_of_write hw)))

theorem execOperationEndDiscarded_map (c : Nat) (ok : Bool) : MapCommand (execOperationEndDiscarded c ok) :=
  mapCommand_turn (fun _ ho hs => onOp_mapLaw hs (fun _ hp _ => discardedEnds_mapLaw hs ho hp ok))

theorem execEntryEraseComplete_map (c : Nat) (ok : Bool) : MapCommand (execEntryEraseComplete c ok) :=
  mapCommand_turn (fun _ ho hs => onOp_mapLaw hs (fun _ hp he =>
    eraserEnds_mapLaw hs ho hp (eraser_of_erasing (Bool.and_eq_true_iff.mp he).1) ok))

theorem execDirtySlotEraseComplete_map (c : Nat) (ok : Bool) : MapCommand (execDirtySlotEraseComplete c ok) :=
  mapCommand_turn (fun _ ho hs => onOp_mapLaw hs (fun _ hp he =>
    eraserEnds_mapLaw hs ho hp (eraser_of_erasing (Bool.and_eq_true_iff.mp he).1) ok))

theorem requester_of_auditRead {op : Op} (h : isAuditRead op = true) : op.requester = .audit :=
  of_decide_eq_true (Bool.and_eq_true_iff.mp h).2

theorem execVerifyReadComplete_map (c : Nat) (res : ReadResult) : MapCommand (execVerifyReadComplete c res) :=
  mapCommand_turn (fun _ ho hs => by
    split
    · exact onOp_mapLaw hs (fun _ hp hr => auditRead_mapLaw hs ho hp (requester_of_auditRead hr) res)
    · exact hs)

theorem execReconcileReadComplete_map (c : Nat) (res : ReadResult) : MapCommand (execReconcileReadComplete c res) :=
  mapCommand_turn (fun _ ho hs => by
    split
    · exact onOp_mapLaw hs (fun _ hp hr => auditRead_mapLaw hs ho hp (requester_of_auditRead hr) res)
    · exact hs)

theorem requester_of_cursorRead {op : Op} (h : isCursorRead op = true) : op.requester = .cursor (opCursor op) := by
  unfold isCursorRead at h
  split at h
  · rename_i k _ hk
    simp [opCursor, hk]
  · cases h

theorem execCursorReadComplete_map (c : Nat) (res : ReadResult) (bad : List (Nat × Nat)) :
    MapCommand (execCursorReadComplete c res bad) :=
  mapCommand_turn (fun _ ho hs => onOp_mapLaw hs (fun _ hp hr =>
    cursorReadEnds_mapLaw hs ho hp (requester_of_cursorRead hr) res bad))

theorem execCatalogWriteOk_map (n : Nat) : MapCommand (execCatalogWriteOk n) :=
  mapCommand_turn (fun _ ho hs => by
    dsimp only
    split
    · exact onOp_mapLaw hs (fun _ hp _ => catalogWriteOk_mapLaw hs ho hp n)
    · exact hs)

theorem execCatalogWriteFail_map : MapCommand execCatalogWriteFail :=
  mapCommand_turn (fun _ ho hs => by
    dsimp only
    split
    · exact onOp_mapLaw hs (fun _ hp _ => shareFails_mapLaw hs ho hp)
    · exact hs)

theorem execFormatEraseComplete_map (c : Nat) (ok : Bool) : MapCommand (execFormatEraseComplete c ok) :=
  mapCommand_turn (fun _ ho hs => onOp_mapLaw hs (fun _ hp he =>
    formatEraseEnds_mapLaw hs ho hp (of_decide_eq_true (Bool.and_eq_true_iff.mp he).2) ok))

theorem execFormatImageWriteComplete_map (ok : Bool) : MapCommand (execFormatImageWriteComplete ok) :=
  mapCommand_turn (fun _ ho hs => by
    split
    · exact hs
    · exact onOp_mapLaw hs (fun _ hp hw =>
        firstImageEnds_mapLaw hs ho hp (of_decide_eq_true (Bool.and_eq_true_iff.mp hw).2) ok))

theorem execChannelTimeout_map (c : Nat) : MapCommand (execChannelTimeout c) :=
  mapCommand_turn (fun _ ho hs => by
    split
    · exact onOp_mapLaw hs (fun _ hp _ => timeOut_mapLaw hs ho hp)
    · exact hs)

end Sys2Proof.Machine
end

