-- ==== Sys2Proof/Proofs/SlotMapLaw.lean ====
section
/-!
PROOFS. Proofs/SlotMapLaw.lean: the events and the requests keep the law of the Slot Map, and so does every step; allocations
and the order of the queues (R82, R88, R91, R95): O37.
-/

namespace Sys2Proof.Machine
open Sys2Proof

/-! ### Events (R46, R50, R59, R111 to R135, R151, R164, R181) -/

theorem execFileAcceptance_map : MapCommand execFileAcceptance :=
  mapCommand_turn (fun s ho hs => event_mapLaw ho hs (fun hn => by
    unfold acceptNext
    split
    · rfl
    · simp [hn]) acceptNext_atWork)

theorem execIntakeIdleLimit_map (k : Nat) : MapCommand (execIntakeIdleLimit k) :=
  mapCommand_turn (fun s _ hs => by
    dsimp only
    split
    · exact State.Thins.mapLaw (s := s) (.of_media (by simp) (by simp) (by simp) (by simp)) hs
    · exact hs)

theorem execAppendRecord_map (ok : Bool) : MapCommand (execAppendRecord ok) :=
  mapCommand_turn (fun s ho hs => event_mapLaw ho hs (fun hn => by
    unfold appendStep
    split
    · split
      · rfl
      · simp [State.compacting, hn]
    · rfl) (fun hw => appendStep_atWork hw ok))

/-- A sweep steps in service alone (R104). -/
theorem inService_of_runningSweep {s : State} {w : Sweep} (hw : s.runningSweep = some w) : s.inService = true := by
  unfold State.runningSweep at hw
  split at hw
  · exact (Bool.and_eq_true_iff.mp ‹_›).1
  · cases hw

theorem execDaySweepEntry_map : MapCommand execDaySweepEntry :=
  mapCommand_turn (fun s ho hs => by
    split
    · exact hs
    · rename_i w hw
      have hwork := hs.inService ho (occupied_none s) (inService_of_runningSweep hw)
      split
      · have hjudged := judgeExpiry_atWork hwork w
        exact (stepSweep_atWork hjudged _ (endDay_atWork hjudged _)).mapLaw
      · exact hs)

theorem execExtendSweepEntry_map : MapCommand execExtendSweepEntry :=
  mapCommand_turn (fun s ho hs => by
    split
    · exact hs
    · rename_i w hw
      have hwork := hs.inService ho (occupied_none s) (inService_of_runningSweep hw)
      split
      · have hextended := fun c => extendEntry_atWork hwork c w
        exact (testOpening_atWork (stepSweep_atWork (hextended _) _ (endExtend_atWork (hextended _) _ _))).mapLaw
      · exact hs)

theorem execApplySweepEntry_map : MapCommand execApplySweepEntry :=
  mapCommand_turn (fun s ho hs => by
    split
    · exact hs
    · rename_i w hw
      have hwork := hs.inService ho (occupied_none s) (inService_of_runningSweep hw)
      split
      · have happlied := fun k => applyEntry_atWork hwork k w.position
        exact (testOpening_atWork (stepSweep_atWork (happlied _) _ (runOutApply_atWork (happlied _) _ _))).mapLaw
      · exact hs)

theorem execReleaseSweepEntry_map : MapCommand execReleaseSweepEntry :=
  mapCommand_turn (fun s ho hs => by
    split
    · exact hs
    · rename_i w hw
      have hwork := hs.inService ho (occupied_none s) (inService_of_runningSweep hw)
      split
      · have hreleased := fun k => releaseEntry_atWork hwork k w
        exact (stepSweep_atWork (hreleased _) _ (endRelease_atWork (hreleased _) _ _)).mapLaw
      · exact hs)

theorem execHoldLoss_map : MapCommand execHoldLoss :=
  mapCommand_turn (fun s ho hs => event_mapLaw ho hs (fun hn => by
    unfold resumeSweep
    repeat' split
    all_goals simp_all) resumeSweep_atWork)

theorem execAuditFindingResumed_map : MapCommand execAuditFindingResumed :=
  mapCommand_turn (fun s ho hs => event_mapLaw ho hs (fun hn => by
    unfold resumeJob
    repeat' split
    all_goals simp_all) resumeJob_atWork)

theorem execCursorIdleClose_map (c : Nat) : MapCommand (execCursorIdleClose c) :=
  mapCommand_turn (fun s _ hs => by
    dsimp only
    split
    · exact setLink_mapLaw ((freeCursor_thins c s).mapLaw hs) _ _
    · exact hs)

theorem execFormatConsentExpiry_map : MapCommand execFormatConsentExpiry :=
  mapCommand_turn (fun s _ hs => by
    repeat' split
    · exact hs
    · exact State.Thins.mapLaw (s := s) (.of_media rfl rfl rfl ⟨rfl, rfl, rfl, rfl⟩) hs
    · exact hs)

/-! ### Requests on files (R37 to R49) -/

theorem openSlot_thins {h : Option Nat} (k n q d r l : Nat) (s : State) : s.Thins h (openSlot k n q d r l s) :=
  .of_media (by simp [openSlot, joinFlight]) (by simp [openSlot, joinFlight]) (by simp [openSlot, joinFlight])
    (by simp [openSlot, joinFlight])

theorem execOpenFile_map (p : Port) (tag n q d r l : Nat) : MapCommand (execOpenFile p tag n q d r l) :=
  mapCommand_answered (fun r s => (openSlot_thins _ _ _ _ _ _ s).trans (answer_thins r _ _ _))

theorem execChunk_map (p : Port) (tag k offset : Nat) (data : List Byte) : MapCommand (execChunk p tag k offset data) :=
  mapCommand_service (fun s => List.mem_append_left _ (service_mem_serviceChecks s)) (fun r _ hw => by
    simp only [takeChunk]
    repeat' split
    · exact answer_atWork hw r _ _
    · exact answer_atWork (refuseFile_atWork hw k) r _ _
    · refine answer_atWork ?_ r _ _
      exact hw.keeps rfl rfl rfl ⟨rfl, rfl, rfl⟩)

theorem execCloseFile_map (p : Port) (tag k : Nat) (crc : Crc) : MapCommand (execCloseFile p tag k crc) :=
  mapCommand_service (fun s => List.mem_append_left _ (service_mem_serviceChecks s)) (fun r s hw => by
    simp only [beginFileClose]
    split
    · refine refuseClose_atWork ?_ k _
      exact hw.keeps rfl rfl rfl ⟨rfl, rfl, rfl⟩
    · exact hw.keeps rfl rfl rfl ⟨rfl, rfl, rfl⟩)

theorem execAbortFile_map (p : Port) (tag k : Nat) : MapCommand (execAbortFile p tag k) :=
  mapCommand_service (fun s => List.mem_append_left _ (service_mem_serviceChecks s)) (fun r _ hw =>
    answer_atWork (abortSlot_atWork hw k) r _ _)

/-! ### Requests that trigger a checkpoint (R10, R75, R76, R93, R102, R106, R127 to R134, R142, R174, R175) -/

theorem execSetProfile_map (p : Port) (tag v : Nat) : MapCommand (execSetProfile p tag v) :=
  mapCommand_service (fun s => List.mem_append_left _ (service_mem_catalogChecks s)) (fun r s hw =>
    triggerFor_atWork (setCat_atWork hw (k := { s.cat with profile := (profileOf v).getD .none }) rfl rfl rfl) r [] [])

theorem execEnrolSource_map (p : Port) (tag n cls base : Nat) : MapCommand (execEnrolSource p tag n cls base) :=
  mapCommand_service (fun s => List.mem_append_left _ (service_mem_sourceChecks s n)) (fun r s hw =>
    triggerFor_atWork (hw.keeps (by simp) (by simp) (by simp) (by simp)) r [] [])

theorem execRetireSource_map (p : Port) (tag n : Nat) : MapCommand (execRetireSource p tag n) :=
  mapCommand_service (fun s => List.mem_append_left _ (service_mem_sourceChecks s n)) (fun r s hw =>
    triggerFor_atWork (hw.keeps (by simp [retire]) (by simp [retire]) (by simp [retire]) (by simp [retire])) r [] [])

theorem execSetSourceClass_map (p : Port) (tag n cls : Nat) : MapCommand (execSetSourceClass p tag n cls) :=
  mapCommand_service (fun s => List.mem_append_left _ (service_mem_sourceChecks s n)) (fun r s hw =>
    triggerFor_atWork (hw.keeps (by simp) (by simp) (by simp) (by simp)) r [] [])

theorem execResequenceSource_map (p : Port) (tag n base : Nat) : MapCommand (execResequenceSource p tag n base) :=
  mapCommand_service (fun s => List.mem_append_left _ (service_mem_sourceChecks s n)) (fun r s hw =>
    triggerFor_atWork (hw.keeps (by simp [resequence]) (by simp [resequence]) (by simp [resequence])
      (by simp [resequence])) r [] [])

theorem execDefineCode_map (p : Port) (tag c : Nat) (v : CodeOperand) : MapCommand (execDefineCode p tag c v) :=
  mapCommand_service (fun s => List.mem_append_left _ (service_mem_catalogChecks s)) (fun r s hw =>
    triggerFor_atWork (hw.keeps (by simp) (by simp) (by simp) (by simp)) r [] [])

theorem execRetireCode_map (p : Port) (tag c : Nat) : MapCommand (execRetireCode p tag c) :=
  mapCommand_service (fun s => List.mem_append_left _ (service_mem_catalogChecks s)) (fun r s hw =>
    triggerFor_atWork (hw.keeps (by simp) (by simp) (by simp) (by simp)) r [] [])

theorem execSetParameter_map (p : Port) (tag k v : Nat) : MapCommand (execSetParameter p tag k v) :=
  mapCommand_service (fun s => List.mem_append_left _ (service_mem_catalogChecks s)) (fun r s hw =>
    triggerFor_atWork (setCat_atWork hw (k := { s.cat with params := (setParam s.cat.params k v).getD s.cat.params })
      rfl rfl rfl) r [] [])

theorem execCheckpoint_map (p : Port) (tag : Nat) : MapCommand (execCheckpoint p tag) :=
  mapCommand_service (fun s => List.mem_append_left _ (service_mem_catalogChecks s)) (fun _ _ hw => trigger_atWork hw _)

theorem execSetChannel_map (p : Port) (tag c mode : Nat) : MapCommand (execSetChannel p tag c mode) :=
  mapCommand_service (fun s => List.mem_append_left _ (service_mem_catalogChecks s)) (fun r s hw => by
    refine triggerFor_atWork ?_ r [] []
    split
    · exact hw
    · exact afterSlots_atWork (takeMode_atWork hw c _))

theorem execAdvanceDay_map (p : Port) (tag : Nat) : MapCommand (execAdvanceDay p tag) :=
  mapCommand_service (fun s => List.mem_append_left _ (service_mem_catalogChecks s)) (fun r _ hw => advance_atWork hw r)

theorem execSetClass_map (p : Port) (tag c days : Nat) : MapCommand (execSetClass p tag c days) :=
  mapCommand_service (fun s => List.mem_append_left _ (service_mem_catalogChecks s)) (fun r _ hw =>
    changeClass_atWork hw r c days)

theorem changeHold_atWork {h : Option Nat} {s : State} (hs : s.AtWork h) (k : Nat) (v : Hold) : (changeHold k v s).AtWork h :=
  hs.keeps (by simp [changeHold]) (by simp [changeHold]) (by simp [changeHold]) (by simp [changeHold])

theorem execCreateHold_map (p : Port) (tag : Nat) (scope : HoldScope) (note : Nat) :
    MapCommand (execCreateHold p tag scope note) :=
  mapCommand_service (fun s => List.mem_append_left _ (service_mem_catalogChecks s)) (fun r _ hw =>
    triggerFor_atWork (changeHold_atWork hw _ _) r _ _)

theorem execEditHold_map (p : Port) (tag k : Nat) (scope : HoldScope) (note : Nat) :
    MapCommand (execEditHold p tag k scope note) :=
  mapCommand_service (fun s => List.mem_append_left _ (service_mem_ownerChecks s p k _)) (fun r _ hw =>
    triggerFor_atWork (changeHold_atWork hw k _) r [] [])

theorem execDiscardHold_map (p : Port) (tag k : Nat) : MapCommand (execDiscardHold p tag k) :=
  mapCommand_service (fun s => List.mem_append_left _ (service_mem_ownerChecks s p k _)) (fun r _ hw =>
    triggerFor_atWork (changeHold_atWork hw k _) r [] [])

theorem execActivateHold_map (p : Port) (tag k : Nat) : MapCommand (execActivateHold p tag k) :=
  mapCommand_service (fun s => List.mem_append_left _ (service_mem_ownerChecks s p k _)) (fun r _ hw =>
    trigger_atWork (pushSweep_atWork (changeHold_atWork hw k _) _ [r]) [])

theorem execReleaseHold_map (p : Port) (tag k : Nat) : MapCommand (execReleaseHold p tag k) :=
  mapCommand_service (fun s => List.mem_append_left _ (service_mem_catalogChecks s)) (fun r _ hw =>
    trigger_atWork (pushSweep_atWork (changeHold_atWork hw k _) _ [r]) [])

theorem execAckFindings_map (p : Port) (tag n : Nat) (o : AckOrder) : MapCommand (execAckFindings p tag n o) :=
  mapCommand_service (fun s => List.mem_append_left _ (List.mem_append_left _ (service_mem_serviceChecks s))) (fun r s hw => by
    refine triggerFor_atWork (intakePasses_atWork (freedFirst_atWork ?_ o) _) r _ []
    exact hw.keeps rfl rfl rfl ⟨rfl, rfl, rfl⟩)

/-! ### Jobs, faults, Controller Reset and Format (R145, R152, R179 to R182, R186 to R190) -/

theorem execVerify_map (p : Port) (tag first last : Nat) : MapCommand (execVerify p tag first last) :=
  mapCommand_service (fun s => List.mem_append_left _ (service_mem_serviceChecks s)) (fun _ _ hw =>
    verifyOn_atWork (setJob_atWork hw _))

theorem execReconcile_map (p : Port) (tag : Nat) : MapCommand (execReconcile p tag) :=
  mapCommand_service (fun s => List.mem_append_left _ (service_mem_serviceChecks s)) (fun _ _ hw =>
    reconcileOn_atWork (setJob_atWork hw _))

theorem execCancelAudit_map (p : Port) (tag : Nat) : MapCommand (execCancelAudit p tag) :=
  mapCommand_service (fun s => List.mem_append_left _ (service_mem_serviceChecks s)) (fun r _ hw => cancelJob_atWork hw r)

theorem acknowledgeFault_thins {h : Option Nat} (p : Port) (c : Nat) (s : State) : s.Thins h (acknowledgeFault p c s) := by
  unfold acknowledgeFault
  split <;> exact .of_media rfl rfl rfl ⟨rfl, rfl, rfl, rfl⟩

theorem execFetchFault_map (p : Port) (tag c : Nat) : MapCommand (execFetchFault p tag c) :=
  mapCommand_answered (fun r s => (acknowledgeFault_thins p c s).trans (answer_thins r _ _ _))

theorem execResume_map (p : Port) (tag e : Nat) : MapCommand (execResume p tag e) :=
  mapCommand_service (fun s => List.mem_append_left _ (service_mem_serviceChecks s)) (fun r _ hw => resumeNamed_atWork hw r e)

theorem execAbandon_map (p : Port) (tag e : Nat) : MapCommand (execAbandon p tag e) :=
  mapCommand_service (fun s => List.mem_append_left _ (service_mem_serviceChecks s)) (fun r _ hw => abandon_atWork hw r)

theorem execResetController_map (p : Port) (tag : Nat) : MapCommand (execResetController p tag) :=
  mapCommand_checked (fun r s _ _ _ => controllerReset_mapLaw r s)

theorem execFormat_map (p : Port) (tag c : Nat) : MapCommand (execFormat p tag c) :=
  mapCommand_checked (fun r s _ ho hs => by
    split
    · rename_i harchive
      exact beginFormat_mapLaw ho.entries hs (hs.plain (by simp [harchive]) (by simp [harchive])) r false c
    · refine (answer_thins r _ _ _).mapLaw ?_
      exact State.Thins.mapLaw (s := s) (.of_media rfl rfl rfl ⟨rfl, rfl, rfl, rfl⟩) hs)

theorem execConsentFormat_map (p : Port) (tag n : Nat) : MapCommand (execConsentFormat p tag n) :=
  mapCommand_checked (fun r s hpassed ho hs => by
    have harchive : (s.inService || decide (s.cat.archive = .catalogFault)) = true :=
      (firstRefusal_none_iff _).mp hpassed (s.inService || decide (s.cat.archive = .catalogFault), .wrongState) (by simp)
    have hstate : s.cat.archive = .service ∨ s.cat.archive = .catalogFault := by
      simpa [State.inService] using harchive
    split
    · exact hs
    · refine beginFormat_mapLaw ho.entries hs (hs.plain ?_ ?_) r true _
      · rcases hstate with hx | hx <;> simp [hx]
      · rcases hstate with hx | hx <;> simp [hx])

/-! ### Requests on cursors (R158 to R165) -/

section
variable {h : Option Nat} {s : State}

theorem touchCursor_atWork (hs : s.AtWork h) (c : Nat) : (touchCursor c s).AtWork h := setCursor_atWork hs c _

theorem seekCursor_atWork (hs : s.AtWork h) (c : Nat) (p : SeekPoint) : (seekCursor c p s).AtWork h :=
  startLoad_atWork (setCursor_atWork (endLoad_atWork (touchCursor_atWork hs c) c) c _) c

theorem turnCursor_atWork (hs : s.AtWork h) (c : Nat) (d : Direction) : (turnCursor c d s).AtWork h := by
  simp only [turnCursor]
  split
  · exact touchCursor_atWork hs c
  · exact startLoad_atWork (setCursor_atWork (endLoad_atWork (touchCursor_atWork hs c) c) c _) c

theorem cancelReading_thins (c : Nat) (s : State) : s.Thins h (cancelReading c s) := by
  unfold cancelReading
  split
  · exact .same s
  · exact answer_thins _ _ _ s

theorem touchOwned_thins (p : Port) (c : Nat) (s : State) : s.Thins h (touchOwned p c s) := by
  unfold touchOwned
  split
  · exact setCursor_thins c _ s
  · exact .same s

end

theorem execOpenCursor_map (p : Port) (tag n a b : Nat) (f : Option FilterOperand) (d : Nat) :
    MapCommand (execOpenCursor p tag n a b f d) :=
  mapCommand_service (fun s => List.mem_append_left _ (service_mem_serviceChecks s)) (fun r _ hw =>
    answer_atWork (startLoad_atWork (setCursor_atWork hw _ _) _) r _ _)

theorem execReadRecords_map (p : Port) (tag c n : Nat) : MapCommand (execReadRecords p tag c n) :=
  mapCommand_service (fun s => List.mem_append_left _ (service_mem_cursorChecks s p c)) (fun _ _ hw =>
    gatherAll_atWork (setCursor_atWork (touchCursor_atWork hw c) c _) c)

theorem execSeek_map (p : Port) (tag c : Nat) (v : SeekOperand) : MapCommand (execSeek p tag c v) :=
  mapCommand_service (fun s => List.mem_append_left _ (service_mem_cursorChecks s p c)) (fun r _ hw =>
    answer_atWork (seekCursor_atWork hw c _) r _ _)

theorem execSetDirection_map (p : Port) (tag c d : Nat) : MapCommand (execSetDirection p tag c d) :=
  mapCommand_service (fun s => List.mem_append_left _ (service_mem_cursorChecks s p c)) (fun r _ hw =>
    answer_atWork (turnCursor_atWork hw c _) r _ _)

theorem execCloseCursor_map (p : Port) (tag c : Nat) : MapCommand (execCloseCursor p tag c) :=
  mapCommand_answered (fun r s => ((cancelReading_thins c s).trans (freeCursor_thins c _)).trans (answer_thins r _ _ _))

theorem execReadCursor_map (p : Port) (tag c : Nat) : MapCommand (execReadCursor p tag c) :=
  mapCommand_answered (fun r s => (touchOwned_thins p c s).trans (answer_thins r _ _ _))

/-! ### Every command and every step (R88) -/

theorem exec_map (i : Instr) : MapCommand (exec i) := by
  cases i with
  | powerUp present => exact execPowerUp_map present
  | powerLoss => exact execPowerLoss_map
  | catalogReadComplete c res => exact execCatalogReadComplete_map c res
  | linkUp p => exact execLinkUp_map p
  | laneLoss p => exact execLaneLoss_map p
  | linkResetFrame p => exact execLinkResetFrame_map p
  | badFrame p f => exact execBadFrame_map p f
  | requestUnknownKind p tag kind => exact execRequestUnknownKind_map p tag kind
  | replySent p => exact execReplySent_map p
  | noticeSent p => exact execNoticeSent_map p
  | status p tag => exact mapCommand_request (fun r s _ hs => (answer_thins r _ _ s).mapLaw hs)
  | setProfile p tag v => exact execSetProfile_map p tag v
  | enrolSource p tag n cls base => exact execEnrolSource_map p tag n cls base
  | retireSource p tag n => exact execRetireSource_map p tag n
  | setSourceClass p tag n cls => exact execSetSourceClass_map p tag n cls
  | resequenceSource p tag n base => exact execResequenceSource_map p tag n base
  | openFile p tag n q d r l => exact execOpenFile_map p tag n q d r l
  | chunk p tag k offset data => exact execChunk_map p tag k offset data
  | closeFile p tag k crc => exact execCloseFile_map p tag k crc
  | fileAcceptance => exact execFileAcceptance_map
  | abortFile p tag k => exact execAbortFile_map p tag k
  | intakeIdleLimit k => exact execIntakeIdleLimit_map k
  | appendRecord ok => exact execAppendRecord_map ok
  | segmentWriteOk c => exact execSegmentWriteOk_map c
  | segmentWriteFail c => exact execSegmentWriteFail_map c
  | builderPageError c => exact execBuilderPageError_map c
  | channelTimeout c => exact execChannelTimeout_map c
  | operationEndDiscarded c ok => exact execOperationEndDiscarded_map c ok
  | defineCode p tag c v => exact execDefineCode_map p tag c v
  | retireCode p tag c => exact execRetireCode_map p tag c
  | setChannel p tag c mode => exact execSetChannel_map p tag c mode
  | advanceDay p tag => exact execAdvanceDay_map p tag
  | setClass p tag c days => exact execSetClass_map p tag c days
  | daySweepEntry => exact execDaySweepEntry_map
  | extendSweepEntry => exact execExtendSweepEntry_map
  | entryEraseComplete c ok => exact execEntryEraseComplete_map c ok
  | dirtySlotEraseComplete c ok => exact execDirtySlotEraseComplete_map c ok
  | createHold p tag scope note => exact execCreateHold_map p tag scope note
  | editHold p tag k scope note => exact execEditHold_map p tag k scope note
  | discardHold p tag k => exact execDiscardHold_map p tag k
  | activateHold p tag k => exact execActivateHold_map p tag k
  | applySweepEntry => exact execApplySweepEntry_map
  | holdLoss => exact execHoldLoss_map
  | releaseHold p tag k => exact execReleaseHold_map p tag k
  | releaseSweepEntry => exact execReleaseSweepEntry_map
  | ackFindings p tag n o => exact execAckFindings_map p tag n o
  | verify p tag first last => exact execVerify_map p tag first last
  | verifyReadComplete c res => exact execVerifyReadComplete_map c res
  | reconcile p tag => exact execReconcile_map p tag
  | reconcileReadComplete c res => exact execReconcileReadComplete_map c res
  | auditFindingResumed => exact execAuditFindingResumed_map
  | cancelAudit p tag => exact execCancelAudit_map p tag
  | openCursor p tag n a b f d => exact execOpenCursor_map p tag n a b f d
  | cursorReadComplete c res bad => exact execCursorReadComplete_map c res bad
  | readRecords p tag c n => exact execReadRecords_map p tag c n
  | seek p tag c v => exact execSeek_map p tag c v
  | setDirection p tag c d => exact execSetDirection_map p tag c d
  | closeCursor p tag c => exact execCloseCursor_map p tag c
  | cursorIdleClose c => exact execCursorIdleClose_map c
  | readCursor p tag c => exact execReadCursor_map p tag c
  | checkpoint p tag => exact execCheckpoint_map p tag
  | catalogWriteOk n => exact execCatalogWriteOk_map n
  | catalogWriteFail => exact execCatalogWriteFail_map
  | setParameter p tag k v => exact execSetParameter_map p tag k v
  | resetController p tag => exact execResetController_map p tag
  | format p tag c => exact execFormat_map p tag c
  | consentFormat p tag n => exact execConsentFormat_map p tag n
  | formatConsentExpiry => exact execFormatConsentExpiry_map
  | formatEraseComplete c ok => exact execFormatEraseComplete_map c ok
  | formatImageWriteComplete ok => exact execFormatImageWriteComplete_map ok
  | fetchFault p tag c => exact execFetchFault_map p tag c
  | resume p tag e => exact execResume_map p tag e
  | abandon p tag e => exact execAbandon_map p tag e
  | setNoticeMask => exact mapCommand_answered (fun r s => .of_media (by simp) (by simp) (by simp) (by simp))
  | readSource | readSlots | readTally | readCompaction | readCodes | readSegment | listSegments | readChannel
  | readRetention | readHold | fetchFindings | readAudit | readCatalog =>
    exact mapCommand_answered (fun r s => answer_thins r _ _ s)

/-- Every step keeps the law of the Slot Map (R82, R88). -/
theorem step_slotMapLaw {s t : State} (ht : s.tablesOk = true) (hs : s.slotMapLaw) (h : step s = .next t) :
    t.slotMapLaw := by
  have hlaw := (mapLaw_iff s).mpr hs
  have hordered := ordered_of_tables ht
  refine (mapLaw_iff t).mp ?_
  unfold step at h
  split at h
  · injection h with h
    rw [← h]
    unfold tick
    split
    · exact MapLaw.of_media hlaw rfl rfl rfl rfl
    · exact hlaw
  · rename_i i rest _
    have hpopped : s.Thins none { s with pending := rest } := .of_media rfl rfl rfl ⟨rfl, rfl, rfl, rfl⟩
    exact exec_map i _ t (hpopped.ordered hordered) (hpopped.mapLaw hlaw) h

/-! ### Allocations and the order of the queues (R91, R95) -/

/-- A CATALOG-WRITE joins behind the operation in progress and the CATALOG-WRITEs waiting, ahead of the rest (R95). -/
theorem join_catalogWrite (ch : Channel) {op : Op} (hop : op.isCatalogWrite = true) :
    ∃ pre post, ch.queue = pre ++ post ∧ (ch.join op).queue = pre ++ op :: post ∧
      (ch.started.isSome = true → ch.queue ≠ [] → pre ≠ []) ∧
      (∀ o ∈ pre.drop (if ch.started.isSome then 1 else 0), o.isCatalogWrite = true) ∧
      ∀ o, post.head? = some o → o.isCatalogWrite = false := by
  obtain ⟨n, hn⟩ : ∃ n, n = if ch.started.isSome then 1 else 0 := ⟨_, rfl⟩
  have hqueue : ch.queue = (ch.queue.take n ++ (ch.queue.drop n).takeWhile Op.isCatalogWrite) ++
      (ch.queue.drop n).dropWhile Op.isCatalogWrite := by
    rw [List.append_assoc, List.takeWhile_append_dropWhile, List.take_append_drop]
  rw [← hn]
  refine ⟨_, _, hqueue, ?_, fun hs hne hnil => ?_, fun o ho => ?_, fun o ho => ?_⟩
  · simp only [Channel.join, hop, if_true, ← hn]
  · obtain ⟨o, q, hq⟩ := List.exists_cons_of_ne_nil hne
    simp [hn, hs, hq] at hnil
  · have hlength : (ch.queue.take n).length ≤ n := List.length_take_le _ _
    rw [List.drop_append, List.drop_eq_nil_of_le hlength, List.nil_append] at ho
    exact List.mem_takeWhile_imp (List.mem_of_mem_drop ho)
  · have hfirst := List.head?_dropWhile_not Op.isCatalogWrite (ch.queue.drop n)
    rwa [ho] at hfirst

/-- Settles O37: every step keeps the law by way of every command (`exec_map`); an allocation finds what its search looks for
(`pickSlot_spec`), and a CATALOG-WRITE joins where it does by the shape of `Channel.join`. -/
theorem allocationAndQueueOrder : Obligations.AllocationAndQueueOrder := by
  unfold Obligations.AllocationAndQueueOrder
  exact ⟨fun _ _ ht hs h => step_slotMapLaw ht hs h, fun _ _ _ ht h => pickSlot_spec (slots_rising ht) h,
    fun ch _ hop => join_catalogWrite ch hop, fun _ _ hop => join_ordinary hop⟩

end Sys2Proof.Machine
end
